-- ==== Sys2Proof/Word.lean ====
section
/-! DEFINITION. The words of the part: bytes, Time Base values, and roll labels. -/

namespace Sys2Proof

/-- A byte of a packet, of frame memory or of the card. -/
abbrev Byte := BitVec 8

/-- A Time Base value: a 48-bit count of microseconds that wraps (R56). -/
abbrev Time := BitVec 48

/-- A roll label: sixteen bytes, zero-padded (R29). -/
abbrev Label := List Byte

end Sys2Proof
end

