-- ==== Sys2Proof/Config.lean ====
section
/-! DEFINITION. The capacities the manual fixes, and the free values: constants with no body, so that
nothing proved can depend on which values they take. -/

namespace Sys2Proof.Config

/-- Free value (log 14): byte `i` of the rendition that carries the draw number `seed`. Chapter 7 gives
the stages of development no arithmetic. -/
opaque renditionByte (seed i : Nat) : Byte

/-- Free value (log 15): how many values the Plane Arithmetic Unit has treated when an APPLY_DARK is
stopped; it is brought below the number of values left by the operation that reads it. -/
opaque pauProgress (draw : Nat) : Nat

/-- Free value (log 15): whether value `i` had been added when an ACCUMULATE was stopped (R97 says only
that part of the exposure has been added). -/
opaque accumulated (draw i : Nat) : Bool

/-- Table 0-2. -/
def recordSlots : Nat := 64
def rollSlots : Nat := 16
def recipeCount : Nat := 32
def darkEntries : Nat := 8
def planeCount : Nat := 10
def previewSlots : Nat := 8
def devQueueMax : Nat := 16
def applyDarkMax : Nat := 7
def readQueueMax : Nat := 8
def catalogueCapacity : Nat := 4096
def runsPerFile : Nat := 8

/-- The shot number counter's upper bound, one above the last shot number (R22). -/
def counterEnd : Nat := 4294967296

/-- Bytes of a plane, of a preview slot, and of all frame memory (Table 5-1). -/
def planeBytes : Nat := 402653184
def slotBytes : Nat := 3145728
def frameMemoryBytes : Nat := 4294967296

/-- Bytes and blocks of a cluster, bytes of a block (R144, Section 9.13). -/
def clusterBytes : Nat := 1048576
def clusterBlocks : Nat := 2048
def blockBytes : Nat := 512

/-- The first data cluster (Section 9.13). -/
def firstDataCluster : Nat := 3

/-- Microseconds of the card-detect qualification and of the command timeout (R143, R144). -/
def detectDelay : Nat := 50000
def commandTimeout : Nat := 500000

end Sys2Proof.Config
end

