-- ==== Sys2Proof/Syntax.lean ====
section
/-! DEFINITION. The commands: one constructor of `Instr` for each row of spec/opcode_table.json, with the
operands the row's rule gives it. A number is a `Nat` (an `Int` where its range is signed) as the packet or
the pin carries it; a value from a named list is the place of the name in its list, counting from 0 (R171);
the meaning tests every range, so a command may carry a value out of range. -/

namespace Sys2Proof

/-- The level of a sync pin (R46). -/
inductive PinLevel where
  | low
  | high
  deriving DecidableEq, Repr

/-- The three sync inputs (R46). -/
inductive SyncInput where
  | release
  | xsync
  | aux
  deriving DecidableEq, Repr

/-- The settings named in a ROLL_OPEN or ROLL_SET (Table 2-2 without state and next frame); `none` is a
setting not named. The two-part items are a name's place and its parameter (R171). -/
structure RollOperands where
  label         : Option Label := none
  frameLimit    : Option Nat := none
  defaultRecipe : Option Nat := none
  /-- SINGLE 0, STACK 1 with its target count -/
  defaultKind   : Option (Nat × Nat) := none
  /-- ALWAYS 0, NEVER 1, ABOVE 2 with its threshold -/
  darkPolicy    : Option (Nat × Nat) := none
  reuseAge      : Option Nat := none
  /-- YIELD 0, HOLD 1 -/
  darkYield     : Option Nat := none
  /-- bit 0 XSYNC, bit 1 AUX_END, bit 2 TIMED -/
  sources       : Option Nat := none
  /-- END_FIRST 0, EXTEND 1 -/
  reclose       : Option Nat := none
  /-- in steps of 0.1 s -/
  armWindow     : Option Nat := none
  maxOpen       : Option Nat := none
  /-- in steps of 0.1 ms -/
  settleDelay   : Option Nat := none
  stackWindow   : Option Nat := none
  /-- OFF 0, ON 1 with its priority, which may be left out -/
  autoPreview   : Option (Nat × Option Nat) := none
  autoFull      : Option (Nat × Option Nat) := none
  deriving DecidableEq, Repr

/-- A crop rectangle in sensor pixels (Table 2-5). -/
structure Crop where
  left   : Nat
  top    : Nat
  width  : Nat
  height : Nat
  deriving DecidableEq, Repr

/-- The parameters named in a RECIPE_SET (Table 2-5 without generation). -/
structure RecipeOperands where
  gainR        : Option Nat := none
  gainG        : Option Nat := none
  gainB        : Option Nat := none
  compensation : Option Int := none
  saturation   : Option Int := none
  toneCurve    : Option Nat := none
  noise        : Option Nat := none
  sharpening   : Option Nat := none
  /-- ABSENT 0, a rectangle 1 -/
  crop         : Option (Nat × Crop) := none
  /-- quarter turns clockwise: the place in 0, 90, 180, 270 -/
  rotation     : Option Nat := none
  /-- full 0, half 1 -/
  fullScale    : Option Nat := none
  deriving DecidableEq, Repr

/-- The settings named in a SET_SYNC (Table 3-1). -/
structure SyncOperands where
  /-- CLOSED_LOW 0, CLOSED_HIGH 1 -/
  polarityRelease : Option Nat := none
  polarityXsync   : Option Nat := none
  polarityAux     : Option Nat := none
  countRelease    : Option Nat := none
  countXsync      : Option Nat := none
  countAux        : Option Nat := none
  /-- NONE 0, END 1, RELEASE2 2 -/
  auxRole         : Option Nat := none
  reloutWidth     : Option Nat := none
  deriving DecidableEq, Repr

/-- The items of a SHOT_AMEND (R163). -/
structure AmendOperands where
  rating    : Option Nat := none
  /-- CLEAR 0, SET 1 -/
  protect   : Option Nat := none
  recipe    : Option Nat := none
  waiveDark : Bool := false
  deriving DecidableEq, Repr

/-- The commands of the block, one constructor a row of spec/opcode_table.json. -/
inductive Instr where
  /-- POWER_ON_RESET: the pin levels at the first sample and whether a card is on the detect line. -/
  | powerOnReset (release xsync aux : PinLevel) (card : Bool)
  /-- PIN_RESET, with the same operands. -/
  | pinReset (release xsync aux : PinLevel) (card : Bool)
  | startupComplete
  | restartComplete
  | csnAsserted
  | csnNegated
  | packetDiscard
  | answerLeaves
  | badRequest (tag : Nat)
  | shotLookup (tag shot : Nat)
  | shotList (tag first maxCount : Nat) (label : Option Label)
  | rollOpen (tag : Nat) (ops : RollOperands)
  | rollSet (tag slot : Nat) (ops : RollOperands)
  /-- ROLL_SELECT: `none` is NONE. -/
  | rollSelect (tag : Nat) (slot : Option Nat)
  | rollClose (tag slot : Nat)
  | rollFree (tag slot : Nat)
  /-- ROLL_QUERY: `none` is CURRENT. -/
  | rollQuery (tag : Nat) (slot : Option Nat)
  | recipeSet (tag recipe : Nat) (ops : RecipeOperands)
  | recipeQuery (tag recipe : Nat)
  | setSync (tag : Nat) (ops : SyncOperands)
  | setClock (tag : Nat) (wall : Option Int)
  | triggerFire (tag : Nat)
  | triggerTimed (tag : Nat) (duration : Option Nat)
  | setSensor (tag columns rows : Nat)
  /-- DEVELOP: kind PREVIEW 0, FULL 1. -/
  | develop (tag shot kind priority : Nat)
  | devFloor (tag : Nat) (floor : Option Nat)
  | getPreview (tag shot : Nat)
  | readPreview (tag slot offset length : Nat)
  | unpinPreview (tag slot : Nat)
  | cardQuery (tag : Nat)
  | cardEject (tag : Nat)
  /-- CARD_FORMAT: the discard flag as its byte, 0 clear, 1 set. -/
  | cardFormat (tag discard : Nat)
  | shotAmend (tag shot : Nat) (ops : AmendOperands)
  | shotRetire (tag shot : Nat)
  | status (tag : Nat)
  | clearCauses (tag : Nat)
  | restart (tag : Nat)
  | takeNotice (tag : Nat)
  /-- NOTICE_LEVELS: fifteen optional levels in rank order and an optional floor. -/
  | noticeLevels (tag : Nat) (levels : List (Option Nat)) (floor : Option Nat)
  | edgeQualified (input : SyncInput)
  | reloutPulseEnd
  | cdetChange (present : Bool)
  | insertion
  | removal
  | armWindowExpiry
  | maxOpenExpiry
  | timedDurationExpiry
  | settleExpiry
  | stackWindowExpiry
  | darkDurationExpiry
  /-- READOUT_HEADER: status GOOD or not, the front end's counts, the temperature in quarter degrees. -/
  | readoutHeader (good : Bool) (columns rows : Nat) (temperature : Int)
  | darkExposureStart
  | pauStart
  | accumulateDone
  | applyDarkDone
  | darkExpiry (entry : Nat)
  | dispatch
  | stageEnd
  | outputEnd
  | cardWorkStart
  | cardCommandError
  | cardCommandTimeout
  | identifyDone (serial capacity : Nat) (writeProtected : Bool)
  /-- HEADER_READ_DONE: the 512 bytes of block 0. -/
  | headerReadDone (block : List Byte)
  /-- CATALOGUE_READ_DONE: how many of the two READs have been answered, and the blocks they brought by
  catalogue slot; a slot not listed brought an EMPTY entry (log 16). -/
  | catalogueReadDone (clusters : Nat) (blocks : List (Nat × List Byte))
  /-- LOAD_READ_DONE: the 512 bytes of the entry. -/
  | loadReadDone (block : List Byte)
  /-- FETCH_READ_DONE: how many READs of the fetch have been answered, and the raw's 32-bit values by
  their place in the file; a place not listed brought 0 (log 16). -/
  | fetchReadDone (clusters : Nat) (values : List (Nat × BitVec 32))
  | rawWriteClusterDone
  | entryWriteDone
  | developedWriteClusterDone
  | developedEntryWriteDone
  | emptyWriteDone
  | dirtyRewriteDone
  | formatWriteDone
  /-- SYNC_SAMPLE: the pin levels at the sampling instant; `gap` is how many sampling instants passed
  before it at which every input read its accepted level (log 4). -/
  | syncSample (gap : Nat) (release xsync aux : PinLevel)
  | pixelSample (value : BitVec 16)
  | mosiByte (byte : Byte)
  deriving DecidableEq, Repr

end Sys2Proof
end

