-- ==== Sys2Proof/Decode.lean ====
section
/-! DEFINITION. The commands that words spell: spec/opcode_table.json gives no row bits. The packets of the
Link Port are read in Machine/Operands.lean. -/

namespace Sys2Proof

/-- No row of the table gives bits, so no word spells a command. -/
def decodeTableWord (_nbits _w : Nat) : Option Instr := none

end Sys2Proof
end

