-- ==== Sys2Proof/Machine/State.lean ====
section
/-! DEFINITION. The state of the part as plain data, block by block in the order of the manual, and the
state right after power-on reset. -/

namespace Sys2Proof.Machine

/-- No command stops the part with a fault: the manual gives the part no such condition. Nothing raises
one (safe). -/
inductive Fault where
  deriving DecidableEq, Repr

/-- Why a command has no meaning. -/
inductive Refusal where
  /-- Raised by `exec` alone, for a row that has no meaning yet (safe: the run stops there). -/
  | notModelled (mnemonic : String)
  deriving DecidableEq, Repr

/-! ### Chapter 11: result codes, part state -/

/-- Table 11-4, in code order. -/
inductive ResultCode where
  | ok
  | busy
  | notFound
  | protectedShot
  | tableFull
  | queueFull
  | cardReadOnly
  | noPlane
  | noRoll
  | rollFull
  | darkBusy
  | noRecord
  | noCard
  | cardError
  | stale
  | abandoned
  | pinLimit
  | notPinned
  | tagBusy
  | badRequest
  | badOperand
  deriving DecidableEq, Repr

/-- Table 11-6. -/
inductive PartState where
  | starting
  | running
  | restarting
  deriving DecidableEq, Repr

/-- The reset-cause flags (R180). -/
structure Causes where
  power   : Bool
  pin     : Bool
  restart : Bool
  deriving DecidableEq, Repr

/-! ### Chapter 2: rolls and recipes -/

/-- The kind of a shot (R10). -/
inductive ShotKind where
  | single
  | stack (target : Nat)
  deriving DecidableEq, Repr

/-- The dark policy (R33); the threshold is in microseconds. -/
inductive DarkPolicy where
  | always
  | never
  | above (threshold : Nat)
  deriving DecidableEq, Repr

inductive DarkYield where
  | yield
  | hold
  deriving DecidableEq, Repr

/-- The reclose rule (R34). -/
inductive Reclose where
  | endFirst
  | extend
  deriving DecidableEq, Repr

/-- The accepted sources (R34). -/
structure Sources where
  xsync  : Bool
  auxEnd : Bool
  timed  : Bool
  deriving DecidableEq, Repr

/-- The fields of a roll record (Table 2-2) but its state. An auto setting is `none` for OFF and holds its
priority for ON. -/
structure Roll where
  label         : Label
  frameLimit    : Nat
  nextFrame     : Nat
  defaultRecipe : Nat
  defaultKind   : ShotKind
  darkPolicy    : DarkPolicy
  /-- seconds -/
  reuseAge      : Nat
  darkYield     : DarkYield
  sources       : Sources
  reclose       : Reclose
  /-- steps of 0.1 s -/
  armWindow     : Nat
  /-- seconds -/
  maxOpen       : Nat
  /-- steps of 0.1 ms -/
  settleDelay   : Nat
  /-- seconds -/
  stackWindow   : Nat
  autoPreview   : Option Nat
  autoFull      : Option Nat
  deriving DecidableEq, Repr

/-- A roll slot (Table 2-1); a FREE slot holds no settings (R28). -/
inductive RollSlot where
  | free
  | opened (r : Roll)
  | closed (r : Roll)
  deriving DecidableEq, Repr

/-- The Roll Table: sixteen slots and the current roll (R28, R30). -/
structure Rolls where
  slots   : List RollSlot
  current : Option Nat
  deriving DecidableEq, Repr

/-- A recipe (Table 2-5); rotation is in quarter turns. -/
structure Recipe where
  generation   : BitVec 16
  gainR        : Nat
  gainG        : Nat
  gainB        : Nat
  compensation : Int
  saturation   : Int
  toneCurve    : Nat
  noise        : Nat
  sharpening   : Nat
  crop         : Option Crop
  rotation     : Nat
  halfScale    : Bool
  deriving DecidableEq, Repr

/-- A development key (R42). -/
structure DevKey where
  recipe     : Nat
  generation : BitVec 16
  deriving DecidableEq, Repr

/-! ### Chapter 1: the shot record -/

/-- Table 1-2, life. -/
inductive Life where
  | opened
  | held
  | settled
  | void
  | retiring
  deriving DecidableEq, Repr

/-- Table 1-4. -/
inductive ExpStatus where
  | waiting
  | integrating
  | reading
  | done
  | failed
  deriving DecidableEq, Repr

inductive TimeSource where
  | xsync
  | auxEnd
  | timed
  deriving DecidableEq, Repr

/-- An exposure entry (Table 1-3); the band is computed from the temperature. -/
structure ExpEntry where
  index       : Nat
  status      : ExpStatus
  openTime    : Option Time := none
  closeTime   : Option Time := none
  duration    : Option Nat := none
  source      : Option TimeSource := none
  truncated   : Bool := false
  temperature : Option Int := none
  deriving DecidableEq, Repr

/-- Table 1-5. -/
inductive DarkLink where
  | notRequired
  | awaiting
  | linked (entry : Nat)
  | applied
  | waived
  deriving DecidableEq, Repr

/-- The raw card state (R15). -/
inductive RawCard where
  | unwritten
  | writing
  | cataloguing
  | onCard
  deriving DecidableEq, Repr

/-- A run of consecutive clusters. -/
structure Run where
  start  : Nat
  length : Nat
  deriving DecidableEq, Repr

/-- A developed file: its runs, its key, and the size of its rendition, which the catalogue entry carries
(R162, logs 19 and 43). -/
structure DevFile where
  runs   : List Run
  key    : DevKey
  width  : Nat
  height : Nat
  deriving DecidableEq, Repr

/-- A shot record (Table 1-2). The amended-at order is the record's place in the amendment list.
`rawSize` is the geometry at the raw write (R162, logs 19 and 43); `retireTag` is the tag of the SHOT_RETIRE that
a RETIRING record is to answer (R168). -/
structure Record where
  number       : Nat
  former       : Option Nat
  life         : Life
  rollSlot     : Option Nat
  label        : Label
  frame        : Nat
  kind         : ShotKind
  exposures    : List ExpEntry
  takenAt      : Option Int
  recipe       : Nat
  darkLink     : DarkLink
  darkAttempts : Nat
  rawCard      : RawCard
  catSlot      : Option Nat
  rawRuns      : List Run
  devFile      : Option DevFile
  devPending   : Option DevKey
  rating       : Nat
  protect      : Bool
  dirty        : Bool
  rawPlane     : Option Nat
  rawSize      : Nat × Nat
  retireTag    : Option Nat
  deriving DecidableEq, Repr

/-- What a request waiting on a load asks for (R21). -/
inductive LoadRequest where
  | lookup
  | amend (ops : AmendOperands)
  | retire
  deriving DecidableEq, Repr

structure LoadWaiter where
  tag     : Nat
  request : LoadRequest
  deriving DecidableEq, Repr

/-- A record slot (Table 1-1). -/
inductive RecordSlot where
  | free
  | loading (number : Nat) (waiters : List LoadWaiter)
  | inUse (r : Record)
  deriving DecidableEq, Repr

/-- A place in the amendment list (R16). -/
structure AmendPlace where
  shot  : Nat
  taken : Bool
  deriving DecidableEq, Repr

/-- The Shot Table (R1, R3, R16, R22). The use order holds slot numbers, least recently used first. -/
structure Table where
  slots    : List RecordSlot
  useOrder : List Nat
  amended  : List AmendPlace
  counter  : Nat
  deriving DecidableEq, Repr

/-! ### Chapter 3: the Sync Unit -/

inductive Polarity where
  | closedLow
  | closedHigh
  deriving DecidableEq, Repr

inductive Contact where
  | closed
  | opened
  deriving DecidableEq, Repr

inductive AuxRole where
  | none
  | finish
  | release2
  deriving DecidableEq, Repr

/-- One sync input: its settings (Table 3-1), the pin level of the latest sample, and its qualifier
(Table 3-2). The sampled level is the pin level read through the polarity. -/
structure SyncLine where
  polarity : Polarity
  count    : Nat
  pin      : PinLevel
  accepted : Contact
  run      : Nat
  runStart : Option Time
  deriving DecidableEq, Repr

/-- The Sync Unit (R47 to R55). `pulseEnd` is absent in QUIET. -/
structure Sync where
  release     : SyncLine
  xsync       : SyncLine
  aux         : SyncLine
  auxRole     : AuxRole
  /-- milliseconds -/
  reloutWidth : Nat
  pulseEnd    : Option Time
  lastSample  : Time
  deriving DecidableEq, Repr

/-! ### Chapter 4: the Exposure Sequencer -/

/-- Table 4-1. -/
inductive SeqState where
  | idle
  | armed
  | opened
  | settle
  | readout
  | accumulate
  | stackWait
  | dark
  | darkReadout
  deriving DecidableEq, Repr

inductive EndingCause where
  | xsyncOpening
  | auxEnd
  | maxOpen
  | timed
  deriving DecidableEq, Repr

/-- A running timer: the Time Base value it started at and its length in microseconds (R57). -/
structure Timer where
  start  : Time
  length : Nat
  deriving DecidableEq, Repr

/-- The Exposure Sequencer (R62): its state, the open shot, the index k, the scratch plane, the ending
cause, the six timers, the sensor geometry, and the count of samples of the readout in progress (R65). -/
structure Seq where
  state       : SeqState
  openShot    : Option Nat
  k           : Nat
  scratch     : Option Nat
  ending      : Option EndingCause
  armTimer    : Option Timer
  maxOpen     : Option Timer
  timed       : Option Timer
  settle      : Option Timer
  stackWindow : Option Timer
  darkTimer   : Option Timer
  columns     : Nat
  rows        : Nat
  samples     : Nat
  deriving DecidableEq, Repr

/-! ### Chapter 5: planes, the Plane Arithmetic Unit, frame memory -/

/-- The owner of a plane (Table 5-2). -/
inductive Owner where
  | free
  | shotRaw (shot : Nat)
  | seqScratch
  | dark (entry : Nat)
  | devFetch
  | devOutput
  | handoff (shot : Nat) (key : DevKey)
  deriving DecidableEq, Repr

/-- The bytes of a rendition that stand in frame memory, or what later writes have left of them: `length` bytes
from address `base` on, the first of which is byte `offset` of the rendition that carries the draw number `seed`
(R122, logs 13 and 14). -/
structure Fill where
  base   : Nat
  length : Nat
  seed   : Nat
  offset : Nat
  deriving DecidableEq, Repr

/-- Frame memory: the bytes written one by one that are not 0, by rising address, and the bytes of renditions,
by rising address (log 13). -/
structure Memory where
  cells : List Host.Cell
  fills : List Fill
  deriving DecidableEq, Repr

/-- The Plane Pool: the owner of each plane, and which claims wait (R87, R91). -/
structure Pool where
  owners      : List Owner
  darkClaim   : Bool
  engineClaim : Bool
  deriving DecidableEq, Repr

/-- The operation of a PAU request; an APPLY_DARK names its dark entry (Table 5-6). -/
inductive PauOp where
  | accumulate
  | applyDark (entry : Nat)
  deriving DecidableEq, Repr

/-- A request of the Plane Arithmetic Unit (Table 5-6). `scale` is the n of R95, taken when the request is
started. -/
structure PauRequest where
  op          : PauOp
  shot        : Nat
  source      : Nat
  destination : Nat
  resume      : Nat
  running     : Bool
  scale       : Nat
  deriving DecidableEq, Repr

/-! ### Chapter 6: dark references -/

/-- The state of a dark reference entry (Table 6-2) with the fields Table 6-1 gives that state. -/
inductive DarkState where
  | free
  | planned
  | exposing (plane : Nat)
  | ready (measuredBand : Int) (takenAt : Time) (plane : Nat)
  deriving DecidableEq, Repr

/-- A dark reference entry (Table 6-1). In FREE the other fields are 0. The link count is a computed view
(log 18). -/
structure DarkEntry where
  state       : DarkState
  /-- microseconds -/
  duration    : Nat
  plannedBand : Int
  /-- seconds -/
  reuseAge    : Nat
  deriving DecidableEq, Repr

/-- The Dark Reference Table and the plan queue (R98, R99). -/
structure Dark where
  entries : List DarkEntry
  plan    : List Nat
  deriving DecidableEq, Repr

/-! ### Chapter 7: the Development Engine -/

inductive JobKind where
  | preview
  | full
  deriving DecidableEq, Repr

/-- A development job (Table 7-1); the arrival order is its place in the queue. -/
structure Job where
  shot     : Nat
  kind     : JobKind
  priority : Nat
  key      : DevKey
  waiters  : List Nat
  running  : Bool
  deriving DecidableEq, Repr

/-- The stages of DEVELOPING (R120). -/
inductive Stage where
  | demosaic
  | colour
  | tone
  | detail
  | scale
  deriving DecidableEq, Repr

/-- The work a SUSPENDED engine resumes (R121). -/
inductive Work where
  | developing (stage : Stage)
  | output
  deriving DecidableEq, Repr

/-- Table 7-2. -/
inductive EngineState where
  | idle
  | fetching
  | active (work : Work)
  | suspended (work : Work)
  deriving DecidableEq, Repr

/-- What the RUNNING job holds (R117): its planes and slot, the parameters read at dispatch, and whether
it reads the raw plane of a HELD shot (R126). -/
structure RunHolds where
  fetch    : Option Nat
  output   : Option Nat
  slot     : Option Nat
  recipe   : Recipe
  readsRaw : Bool
  deriving DecidableEq, Repr

/-- The Development Engine (R112, R114, R118). -/
structure Dev where
  queue   : List Job
  engine  : EngineState
  holds   : Option RunHolds
  readout : Bool
  floor   : Nat
  deriving DecidableEq, Repr

/-! ### Chapter 8: the Preview Cache -/

/-- The state of a preview slot (Table 8-2). The tag of a VALID slot is absent when ORPHANED; `seed` names
the preview's bytes (log 14). -/
inductive SlotState where
  | free
  | filling
  | valid (tag : Option (Nat × DevKey)) (width height : Nat) (standing : Bool) (seed : Nat)
  deriving DecidableEq, Repr

structure PreviewSlot where
  state : SlotState
  pins  : Nat
  deriving DecidableEq, Repr

/-- The Preview Cache (R132, R134). -/
structure Cache where
  slots    : List PreviewSlot
  useOrder : List Nat
  deriving DecidableEq, Repr

/-! ### Chapter 9: the Card Store -/

/-- Table 9-1. -/
inductive CardState where
  | absent
  | mounting
  | ready
  | readOnly
  | unformatted
  | faulted
  | ejecting
  | ejected
  deriving DecidableEq, Repr

/-- The card identity (R142). -/
structure Identity where
  serial         : Nat
  capacity       : Nat
  writeProtected : Bool
  deriving DecidableEq, Repr

/-- The volume fields (R142). -/
structure Volume where
  id       : Nat
  clusters : Nat
  deriving DecidableEq, Repr

/-- An entry of the catalogue index (R147). -/
structure IndexEntry where
  shot    : Nat
  slot    : Nat
  frame   : Nat
  label   : Label
  protect : Bool
  deriving DecidableEq, Repr

/-- A read of the read queue (Table 9-2). -/
inductive CardRead where
  | load (shot slot : Nat)
  | fetch (shot plane : Nat) (runs : List Run)
  deriving DecidableEq, Repr

/-- A pending entry write (Table 9-2). -/
inductive EntryWork where
  | live (shot slot : Nat)
  | empty (shot slot : Nat)
  deriving DecidableEq, Repr

/-- A developed hand-off (Table 9-4); `seed` names the rendition's bytes (log 14). -/
structure Handoff where
  shot    : Nat
  key     : DevKey
  plane   : Nat
  width   : Nat
  height  : Nat
  writing : Bool
  marked  : Bool
  seed    : Nat
  deriving DecidableEq, Repr

/-- The work in flight (Table 9-2), or a step of a mount (Figure 9-2) or of a format (R159).
A developed write in its data phase has `entry = none`; in its entry WRITE it holds the size then written.
`stopped` is set when its hand-off has gone (R153). A format's `step` counts the WRITEs answered. -/
inductive CardWork where
  | load (shot slot : Nat)
  | fetch (shot plane : Nat) (runs : List Run) (done : Nat)
  | rawWrite (shot done : Nat)
  | entryWrite (shot slot : Nat)
  | developed (h : Handoff) (runs : List Run) (done : Nat) (entryPhase stopped : Bool)
  | emptyWrite (shot slot : Nat)
  | dirtyRewrite (shot : Nat)
  | identify
  | header
  | catalogue (done : Nat) (blocks : List (Nat × List Byte))
  | format (step volumeId clusters : Nat)
  deriving DecidableEq, Repr

/-- The data of a WRITE: a block written out, a cluster of a raw plane, a cluster of a rendition, or a
cluster of EMPTY entries. `length` is how many bytes the whole raw or rendition has; `WriteData.bytes` gives the
bytes. -/
inductive WriteData where
  | block (bytes : List Byte)
  | rawCluster (plane length cluster : Nat)
  | renditionCluster (seed length cluster : Nat)
  | emptyEntries
  deriving DecidableEq, Repr

/-- The commands of the card bus (R144). -/
inductive CardCommand where
  | identify
  | read (block count : Nat)
  | write (block count : Nat) (data : WriteData)
  deriving DecidableEq, Repr

/-- The command on the bus (R144, R145): when it was issued, whether this is its second issue, and whether
the work that issued it has ended, so that its answer is of no account (log 25). -/
structure Bus where
  command : CardCommand
  issued  : Time
  retried : Bool
  orphan  : Bool
  deriving DecidableEq, Repr

/-- The card-detect qualifier (R143): the level of the line, the accepted level (true is PRESENT), and the
50 ms timer. -/
structure Detect where
  line     : Bool
  accepted : Bool
  timer    : Option Timer
  deriving DecidableEq, Repr

/-- The Card Store (R142). -/
structure Card where
  state     : CardState
  detect    : Detect
  identity  : Option Identity
  volume    : Option Volume
  indexHeld : Bool
  index     : List IndexEntry
  damaged   : List Nat
  map       : List Run
  reads     : List CardRead
  entries   : List EntryWork
  handoffs  : List Handoff
  full      : Bool
  marks     : List Nat
  work      : Option CardWork
  bus       : Option Bus
  ejectTag  : Option Nat
  formatTag : Option Nat
  /-- the volume id of a format that waits for the answer to the command on the bus (R159) -/
  formatWait : Option Nat
  deriving DecidableEq, Repr

/-! ### Chapter 11: notices and the Link Port -/

/-- Table 11-5, in rank order. -/
inductive NoticeKind where
  | cardFault
  | cardRemoved
  | shotVoid
  | exposureTruncated
  | releaseRefused
  | armExpired
  | darkAbandoned
  | darkGaveUp
  | cardFull
  | amendLost
  | renumbered
  | rollFull
  | exposureDone
  | cardMounted
  | linkFault
  deriving DecidableEq, Repr

inductive Subject where
  | shot (n : Nat)
  | reason (r : ResultCode)
  deriving DecidableEq, Repr

/-- What the Notice Unit holds of one kind (R176). -/
structure Notice where
  pending : Bool
  count   : Nat
  subject : Option Subject
  level   : Nat
  deriving DecidableEq, Repr

/-- The Notice Unit: fifteen kinds in rank order and the floor (R176). -/
structure Notices where
  kinds : List Notice
  floor : Nat
  deriving DecidableEq, Repr

/-- What SHOT_LOOKUP answers of a record (R25). -/
structure ShotView where
  number       : Nat
  former       : Option Nat
  life         : Life
  rollSlot     : Option Nat
  label        : Label
  frame        : Nat
  kind         : ShotKind
  takenAt      : Option Int
  recipe       : Nat
  key          : DevKey
  darkLink     : DarkLink
  darkAttempts : Nat
  rawCard      : RawCard
  catSlot      : Option Nat
  rawRunCount  : Nat
  devKey       : Option DevKey
  devPending   : Option DevKey
  rating       : Nat
  protect      : Bool
  dirty        : Bool
  exposures    : List ExpEntry
  deriving DecidableEq, Repr

/-- An item of SHOT_LIST; `life` is absent for a shot known from the index alone (R26). -/
structure ListItem where
  number : Nat
  frame  : Nat
  label  : Label
  life   : Option Life
  deriving DecidableEq, Repr

/-- The payload of CARD_QUERY (R161). -/
structure CardReport where
  state         : CardState
  identity      : Option Identity
  volume        : Option Volume
  freeClusters  : Nat
  liveEntries   : Nat
  damaged       : Nat
  emptySlots    : Nat
  full          : Bool
  readDepth     : Nat
  entryWrites   : Nat
  handoffs      : Nat
  markedHandoffs : Nat
  heldUnwritten : Nat
  amendments    : Nat
  deriving DecidableEq, Repr

/-- The payload of STATUS (R182). -/
structure StatusReport where
  part       : PartState
  seq        : SeqState
  current    : Option Nat
  engine     : EngineState
  card       : CardState
  freePlanes : Nat
  opened     : Nat
  held       : Nat
  settled    : Nat
  void       : Nat
  retiring   : Nat
  loading    : Nat
  heldTags   : Nat
  answers    : Nat
  pending    : Nat
  causes     : Causes
  deriving DecidableEq, Repr

/-- The payload of an OK SHOT_AMEND (R163). -/
structure AmendReport where
  number   : Nat
  rating   : Nat
  protect  : Bool
  recipe   : Nat
  key      : DevKey
  darkLink : DarkLink
  dirty    : Bool
  deriving DecidableEq, Repr

/-- The settings and levels a SET_SYNC reports (R60). -/
structure SyncReport where
  release : SyncLine
  xsync   : SyncLine
  aux     : SyncLine
  auxRole : AuxRole
  width   : Nat
  deriving DecidableEq, Repr

/-- The payload of an answer, one constructor for each shape a rule gives. -/
inductive Payload where
  | empty
  | shot (v : ShotView)
  | list (items : List ListItem) (more catalogue : Bool)
  | rollSlot (slot : Nat)
  | roll (slot : Nat) (state : RollSlot) (current : Bool) (records : Nat)
  | generation (g : BitVec 16)
  | recipe (r : Recipe)
  | sync (r : SyncReport)
  | clock (now : Time) (offset wall : Int)
  | shotNumber (n : Nat)
  | geometry (columns rows : Nat)
  | devFloor (floor jobs : Nat)
  | key (k : DevKey)
  | previewMade (slot : Nat) (k : DevKey)
  | previewHit (slot : Nat) (k : DevKey) (width height pins : Nat)
  | previewBytes (tag : Option (Nat × DevKey)) (width height length : Nat) (bytes : List Byte)
  | pins (n : Nat)
  | card (r : CardReport)
  | amended (r : AmendReport)
  | status (r : StatusReport)
  | causes (c : Causes)
  | notice (rank count : Nat) (subject : Option Subject) (left : Nat)
  | levels (levels : List Nat) (floor : Nat)
  deriving DecidableEq, Repr

/-- An answer of the response queue or the refusal slot (R175). -/
structure Answer where
  tag     : Nat
  result  : ResultCode
  payload : Payload
  deriving DecidableEq, Repr

/-- The framer states (R172). -/
inductive Framer where
  | hunt
  | header
  | operands
  | check
  deriving DecidableEq, Repr

/-- What MISO carries (R175): nothing outside a transaction, filler, or the answer of the refusal slot or
of the queue's head with the number of its bytes already shifted out. -/
inductive Miso where
  | quiet
  | filler
  | refusal (sent : Nat)
  | queue (sent : Nat)
  deriving DecidableEq, Repr

/-- The Link Port (R172 to R175). `held` lists the HELD tags. -/
structure Link where
  framer   : Framer
  bytes    : List Byte
  held     : List Nat
  queue    : List Answer
  refusal  : Option Answer
  selected : Bool
  miso     : Miso
  deriving DecidableEq, Repr

/-! ### The whole part -/

/-- The state of the part, and the queue of commands that wait. -/
structure State where
  pending    : List Instr
  /-- RESETN is low, or power-on reset is in progress (R179, log 38) -/
  held       : Bool
  part       : PartState
  causes     : Causes
  timeBase   : Time
  wallOffset : Int
  link       : Link
  notices    : Notices
  sync       : Sync
  seq        : Seq
  pool       : Pool
  pau        : List PauRequest
  mem        : Memory
  table      : Table
  rolls      : Rolls
  recipes    : List Recipe
  dark       : Dark
  dev        : Dev
  cache      : Cache
  card       : Card
  free       : Nat
  deriving DecidableEq, Repr

/-! ### Reset values -/

/-- The notice kinds at reset: not pending, with the default levels of Table 11-5 (R176). -/
def Notices.reset : Notices :=
  { kinds := [6, 6, 6, 4, 4, 4, 4, 4, 4, 4, 4, 4, 2, 2, 2].map fun l =>
      { pending := false, count := 0, subject := none, level := l },
    floor := 0 }

/-- The Link Port at reset (R172, R175); no transaction is in progress (log 11). -/
def Link.reset : Link :=
  { framer := .hunt, bytes := [], held := [], queue := [], refusal := none, selected := false,
    miso := .quiet }

/-- A sync input with default settings whose first sample found the pin at `pin`: under CLOSED_LOW a low
pin is CLOSED (R46, R47, R48). -/
def SyncLine.reset (pin : PinLevel) : SyncLine :=
  { polarity := .closedLow, count := 8, pin := pin,
    accepted := match pin with
      | .low => .closed
      | .high => .opened,
    run := 0, runStart := none }

/-- The Sync Unit after its first sample, taken at Time Base value 0 (R46 to R48, R55). -/
def Sync.reset (release xsync aux : PinLevel) : Sync :=
  { release := .reset release, xsync := .reset xsync, aux := .reset aux, auxRole := .none,
    reloutWidth := 100, pulseEnd := none, lastSample := 0#48 }

/-- The sequencer at reset (R62, R86). -/
def Seq.reset : Seq :=
  { state := .idle, openShot := none, k := 0, scratch := none, ending := none, armTimer := none,
    maxOpen := none, timed := none, settle := none, stackWindow := none, darkTimer := none,
    columns := 10000, rows := 7500, samples := 0 }

/-- The Plane Pool at reset (R88). -/
def Pool.reset : Pool :=
  { owners := List.replicate Config.planeCount .free, darkClaim := false, engineClaim := false }

/-- Frame memory that nothing has written (log 13). -/
def Memory.reset : Memory := { cells := [], fills := [] }

/-- The Shot Table at reset (R1, R22). -/
def Table.reset : Table :=
  { slots := List.replicate Config.recordSlots .free, useOrder := [], amended := [], counter := 1 }

/-- The Roll Table at reset (R28, R30). -/
def Rolls.reset : Rolls :=
  { slots := List.replicate Config.rollSlots .free, current := none }

/-- A recipe at reset (Table 2-5, R41, R42). -/
def Recipe.reset : Recipe :=
  { generation := 0#16, gainR := 1000, gainG := 1000, gainB := 1000, compensation := 0,
    saturation := 0, toneCurve := 0, noise := 0, sharpening := 0, crop := none, rotation := 0,
    halfScale := false }

/-- A FREE dark reference entry (R98). -/
def DarkEntry.free : DarkEntry :=
  { state := .free, duration := 0, plannedBand := 0, reuseAge := 0 }

/-- The Dark Reference Table at reset (R98). -/
def Dark.reset : Dark :=
  { entries := List.replicate Config.darkEntries DarkEntry.free, plan := [] }

/-- The Development Engine at reset (R112, R114, R118). -/
def Dev.reset : Dev :=
  { queue := [], engine := .idle, holds := none, readout := false, floor := 1 }

/-- The Preview Cache at reset (R132). -/
def Cache.reset : Cache :=
  { slots := List.replicate Config.previewSlots { state := .free, pins := 0 }, useOrder := [] }

/-- The detect qualifier at the end of a reset: the accepted level is NONE and the timer starts (R143). -/
def Detect.reset (line : Bool) : Detect :=
  { line := line, accepted := false, timer := some { start := 0#48, length := Config.detectDelay } }

/-- The Card Store at reset (R142). -/
def Card.reset (line : Bool) : Card :=
  { state := .absent, detect := .reset line, identity := none, volume := none, indexHeld := false,
    index := [], damaged := [], map := [], reads := [], entries := [], handoffs := [], full := false,
    marks := [], work := none, bus := none, ejectTag := none, formatTag := none, formatWait := none }

/-- Every block at its reset values, given the pin levels at the first sample, the level of the detect
line, and what the two resets treat each its own way: the causes and the content of frame memory. -/
def State.afterReset (release xsync aux : PinLevel) (card : Bool) (causes : Causes)
    (mem : Memory) (pending : List Instr) (free : Nat) : State :=
  { pending := pending, held := false, part := .starting, causes := causes, timeBase := 0#48, wallOffset := 0,
    link := .reset, notices := .reset, sync := .reset release xsync aux, seq := .reset,
    pool := .reset, pau := [], mem := mem, table := .reset, rolls := .reset,
    recipes := List.replicate Config.recipeCount .reset, dark := .reset, dev := .reset,
    cache := .reset, card := .reset card, free := free }

/-- The part right after power-on reset, in STARTING with the POWER cause (R179, R180), the sync pins high
and no card on the detect line (log 6), and the queue empty. -/
def State.reset : State :=
  State.afterReset .high .high .high false { power := true, pin := false, restart := false } .reset [] 0

end Sys2Proof.Machine
end

