-- ==== Sys2Proof/Machine/Bytes.lean ====
section
/-! DEFINITION. Byte order and the check code of Chapter 11, used on the link and on the card. -/

namespace Sys2Proof.Machine

/-- The low `n` bytes of a number, most significant byte first (00_scope 0.4). -/
def beBytes (n v : Nat) : List Byte :=
  match n with
  | 0 => []
  | k + 1 => BitVec.ofNat 8 (v / 256 ^ k) :: beBytes k v

/-- A signed number in `n` bytes of two's complement (R171). -/
def beSigned (n : Nat) (v : Int) : List Byte := beBytes n (v % (256 ^ n : Nat)).toNat

/-- The number a list of bytes spells, most significant byte first. -/
def fromBytes (bs : List Byte) : Nat := bs.foldl (fun a b => a * 256 + b.toNat) 0

/-- The signed number a list of bytes spells in two's complement. -/
def fromSigned (bs : List Byte) : Int :=
  let v : Int := fromBytes bs
  if 2 * v < (256 ^ bs.length : Nat) then v else v - (256 ^ bs.length : Nat)

/-- `n` bytes from place `i`. -/
def slice (bs : List Byte) (i n : Nat) : List Byte := (bs.drop i).take n

/-- A list brought to `n` bytes: cut, or filled up with zero bytes. -/
def padTo (n : Nat) (bs : List Byte) : List Byte := (bs ++ List.replicate (n - bs.length) 0#8).take n

/-- One bit of the division by 1021H (R170). -/
def crcBit (c : BitVec 16) : BitVec 16 :=
  if c.msb then (c <<< 1) ^^^ 0x1021#16 else c <<< 1

/-- One byte of the check code, most significant bit first (R170). -/
def crcByte (c : BitVec 16) (b : Byte) : BitVec 16 :=
  let c := c ^^^ (b.zeroExtend 16 <<< 8)
  crcBit (crcBit (crcBit (crcBit (crcBit (crcBit (crcBit (crcBit c)))))))

/-- The 16-bit check code of R170: the register starts at FFFFH and the result is not inverted. -/
def crc16 (bs : List Byte) : BitVec 16 := bs.foldl crcByte 0xFFFF#16

/-- The two check bytes, most significant byte first (R170). -/
def crcBytes (bs : List Byte) : List Byte := beBytes 2 (crc16 bs).toNat

/-- A block's check: its code over bytes 0 to 509 stands in bytes 510 and 511 (Section 9.13). -/
def blockCrcGood (block : List Byte) : Bool := crcBytes (block.take 510) == slice block 510 2

/-- A block of 510 bytes with its check code (Section 9.13). -/
def sealBlock (bs : List Byte) : List Byte := padTo 510 bs ++ crcBytes (padTo 510 bs)

end Sys2Proof.Machine
end

