-- ==== Sys2Proof/Machine/Memory.lean ====
section
/-! DEFINITION. Frame memory (Chapter 5): bytes by address, the renditions written into it, the places of the
planes and slots in it, the 32-bit values of a plane, and the two operations of the Plane Arithmetic Unit on them.
The list of bytes is sorted by address and lists no byte equal to 0, which is what an address reads as that is
neither listed nor in a rendition (log 13). -/

namespace Sys2Proof.Machine

/-- What an address that nothing has written reads as: DESIGN CHOICE, unsafe (log 13). -/
def Memory.blank : Byte := 0#8

/-- The byte listed at an address. -/
def Cells.read : List Host.Cell → Nat → Byte
  | [], _ => Memory.blank
  | (k, v) :: rest, a => if a = k then v else Cells.read rest a

/-- The list with one byte written, in canonical form. -/
def Cells.write : List Host.Cell → Nat → Byte → List Host.Cell
  | [], a, v => if v = Memory.blank then [] else [(a, v)]
  | (k, w) :: rest, a, v =>
    if a < k then
      if v = Memory.blank then (k, w) :: rest else (a, v) :: (k, w) :: rest
    else if a = k then
      if v = Memory.blank then rest else (a, v) :: rest
    else (k, w) :: Cells.write rest a v

/-- The list without the bytes from address `lo` up to `hi`. -/
def Cells.clear (m : List Host.Cell) (lo hi : Nat) : List Host.Cell :=
  m.filter fun c => !(decide (lo ≤ c.1) && decide (c.1 < hi))

/-! ### The bytes of renditions (R122, log 14) -/

/-- The first address after a fill. -/
def Fill.last (f : Fill) : Nat := f.base + f.length

/-- Whether an address lies in a fill. -/
def Fill.covers (a : Nat) (f : Fill) : Bool := decide (f.base ≤ a) && decide (a < f.last)

/-- The byte of the rendition at an address of a fill. -/
def Fill.byte (f : Fill) (a : Nat) : Byte := Config.renditionByte f.seed (f.offset + (a - f.base))

/-- What is left of a fill when the addresses from `lo` up to `hi` are taken out of it. -/
def Fill.cut (lo hi : Nat) (f : Fill) : List Fill :=
  (if f.base < min lo f.last then [{ f with length := min lo f.last - f.base }] else []) ++
  (if max hi f.base < f.last then
    [{ f with
        base := max hi f.base
        length := f.last - max hi f.base
        offset := f.offset + (max hi f.base - f.base) }]
   else [])

/-- Fills with the addresses from `lo` up to `hi` taken out of them. -/
def cutFills (fs : List Fill) (lo hi : Nat) : List Fill :=
  if lo < hi then fs.flatMap (Fill.cut lo hi) else fs

/-- A fill put in its place. -/
def insertFill (f : Fill) : List Fill → List Fill
  | [] => [f]
  | x :: xs => if f.base < x.base then f :: x :: xs else x :: insertFill f xs

/-! ### Bytes by address -/

/-- The byte at an address. -/
def Memory.read (m : Memory) (a : Nat) : Byte :=
  match m.fills.find? (Fill.covers a) with
  | some f => f.byte a
  | none => Cells.read m.cells a

/-- The memory with one byte written, in canonical form. -/
def Memory.write (m : Memory) (a : Nat) (v : Byte) : Memory :=
  { cells := Cells.write m.cells a v, fills := cutFills m.fills a (a + 1) }

/-- The memory with every byte from address `lo` up to `hi` set to 0. -/
def clearBytes (m : Memory) (lo hi : Nat) : Memory :=
  { cells := Cells.clear m.cells lo hi, fills := cutFills m.fills lo hi }

/-- The memory with the first `length` bytes of a rendition written from an address on (R122). -/
def fillBytes (m : Memory) (base length seed : Nat) : Memory :=
  let m := clearBytes m base (base + length)
  if length = 0 then m
  else { m with fills := insertFill { base, length, seed, offset := 0 } m.fills }

/-- The canonical form of a list of bytes: addresses strictly rising, and no entry equal to what an unlisted
address reads as. -/
abbrev Cells.wf (m : List Host.Cell) : Prop :=
  m.Pairwise (fun a b => a.1 < b.1) ∧ ∀ c ∈ m, c.2 ≠ Memory.blank

/-- The canonical form: that of the listed bytes, the fills rising, apart and none empty, and no listed byte in a
fill. -/
abbrev Memory.wf (m : Memory) : Prop :=
  Cells.wf m.cells ∧ m.fills.Pairwise (fun f g => f.last ≤ g.base) ∧ (∀ f ∈ m.fills, 0 < f.length) ∧
  ∀ c ∈ m.cells, ∀ f ∈ m.fills, Fill.covers c.1 f = false

/-- The address of a plane's first byte: the planes lie in order from address 0 (Table 5-1, log 13). -/
def planeBase (plane : Nat) : Nat := plane * Config.planeBytes

/-- The address of a preview slot's first byte: the slots lie in order after the planes (Table 5-1, log 13). -/
def slotBase (slot : Nat) : Nat := Config.planeCount * Config.planeBytes + slot * Config.slotBytes

/-- The address of the internal region's first byte: it lies after the slots and ends with frame memory
(Table 5-1, log 13). -/
def internalBase : Nat := slotBase Config.previewSlots

/-- How many 32-bit values a plane holds. -/
def planeValues : Nat := Config.planeBytes / 4

/-- The address of value `i` of a plane (R64). -/
def valueAddress (plane i : Nat) : Nat := planeBase plane + 4 * i

/-- Value `i` of a plane: four bytes, most significant first (log 13). -/
def readValue (m : Memory) (plane i : Nat) : BitVec 32 :=
  let a := valueAddress plane i
  Memory.read m a ++ Memory.read m (a + 1) ++ Memory.read m (a + 2) ++ Memory.read m (a + 3)

/-- Four bytes written at an address, most significant first. -/
def writeWord (m : Memory) (a : Nat) (v : BitVec 32) : Memory :=
  Memory.write (Memory.write (Memory.write (Memory.write m a (v.extractLsb' 24 8))
    (a + 1) (v.extractLsb' 16 8)) (a + 2) (v.extractLsb' 8 8)) (a + 3) (v.extractLsb' 0 8)

/-- Value `i` of a plane written; a place beyond the plane has no address in it and nothing is written. -/
def writeValue (m : Memory) (plane i : Nat) (v : BitVec 32) : Memory :=
  if i < planeValues then writeWord m (valueAddress plane i) v else m

/-- The places of a plane that a fill has bytes of. -/
def fillPlaces (plane : Nat) (f : Fill) : List Nat :=
  let first := (max f.base (planeBase plane) - planeBase plane) / 4
  let last := (min f.last (planeBase plane + Config.planeBytes) - planeBase plane + 3) / 4
  List.range' first (last - first)

/-- The places of a plane that some listed byte, or some byte of a rendition, belongs to. Every other value of
the plane is 0. -/
def touchedValues (m : Memory) (plane : Nat) : List Nat :=
  (((m.cells.filter fun c => planeBase plane ≤ c.1 && c.1 < planeBase plane + Config.planeBytes).map fun c =>
    (c.1 - planeBase plane) / 4) ++ m.fills.flatMap (fillPlaces plane)).dedup

/-- ACCUMULATE over the first `n` values (R94): each value of the source is added to the value at the same
place of the destination, at the places `pick` names. A value of the source that is 0 adds nothing. -/
def accumulateValues (m : Memory) (source destination n : Nat) (pick : Nat → Bool) : Memory :=
  ((touchedValues m source).filter fun i => decide (i < n) && pick i).foldl
    (fun m i => writeValue m destination i (readValue m destination i + readValue m source i)) m

/-- The value APPLY_DARK leaves (R95): the raw less `scale` times the dark, and 0 where that would be
below 0. -/
def darkSubtract (raw dark : BitVec 32) (scale : Nat) : BitVec 32 :=
  BitVec.ofNat 32 (raw.toNat - scale * dark.toNat)

/-- APPLY_DARK over the places from `first` up to `last` (R95). A dark value of 0 changes nothing. -/
def applyDarkValues (m : Memory) (source destination scale first last : Nat) : Memory :=
  ((touchedValues m source).filter fun i => decide (first ≤ i) && decide (i < last)).foldl
    (fun m i =>
      writeValue m destination i
        (darkSubtract (readValue m destination i) (readValue m source i) scale)) m

/-- Clusters `first` to `first + count - 1` of a file read into a plane (R119): the values listed at their
places, and 0 at the places of those clusters not listed (log 16). Of the plane, only the part within the sensor area
in force, of `area` values, is written (R89). -/
def loadClusters (m : Memory) (plane area first count : Nat) (values : List (Nat × BitVec 32)) :
    Memory :=
  let lo := first * Config.clusterBytes
  let hi := min (min ((first + count) * Config.clusterBytes) (4 * area)) Config.planeBytes
  (values.filter fun p => decide (lo ≤ 4 * p.1) && decide (4 * p.1 < hi)).foldl
    (fun m p => writeValue m plane p.1 p.2)
    (clearBytes m (planeBase plane + lo) (planeBase plane + hi))

end Sys2Proof.Machine
end

