-- ==== Sys2Proof/Machine/Ops.lean ====
section
/-! DEFINITION. The operations every block shares: time, notices, answers and the taking of requests,
reading and changing shot records, plane owners, rolls, recipes, and what is computed from a record. -/

namespace Sys2Proof.Machine

/-! ### Sampling (R46, R49) -/

/-- The level an input's pin is read as under a polarity (R46). -/
def Polarity.level : Polarity → PinLevel → Contact
  | .closedLow, .low => .closed
  | .closedLow, .high => .opened
  | .closedHigh, .high => .closed
  | .closedHigh, .low => .opened

/-- The pin level that reads as a level under a polarity. -/
def Polarity.pinFor : Polarity → Contact → PinLevel
  | .closedLow, .closed => .low
  | .closedLow, .opened => .high
  | .closedHigh, .closed => .high
  | .closedHigh, .opened => .low

/-- The sampled level of an input (R46). -/
def SyncLine.sampled (l : SyncLine) : Contact := l.polarity.level l.pin

/-- `n` samples, at least one and the first at `first`, of a pin that keeps its level (R46, R49). A run that has
reached its count stays there until its level is accepted (log 4). -/
def SyncLine.hold (n : Nat) (first : Time) (l : SyncLine) : SyncLine :=
  if l.sampled = l.accepted then { l with run := 0, runStart := none }
  else if l.run = 0 then { l with run := min l.count n, runStart := some first }
  else { l with run := max l.run (min l.count (l.run + n)) }

/-- How many sampling instants lie after the latest sample and before a Time Base value (R46). -/
def Sync.passed (t : Time) (x : Sync) : Nat := ((t - x.lastSample).toNat - 1) / 4

/-- The three inputs sampled at every instant before a Time Base value, their pins keeping their levels (R46,
log 4). -/
def Sync.pass (t : Time) (x : Sync) : Sync :=
  if x.passed t = 0 then x
  else
    let first := x.lastSample + 4#48
    { x with
      release := x.release.hold (x.passed t) first
      xsync := x.xsync.hold (x.passed t) first
      aux := x.aux.hold (x.passed t) first
      lastSample := x.lastSample + BitVec.ofNat 48 (4 * x.passed t) }

/-! ### Time (R56, R57) -/

/-- The Time Base at a later value, the sampling instants that it passes being sampled (R46, R56). -/
def State.setTime (t : Time) (s : State) : State := { s with timeBase := t, sync := s.sync.pass t }

/-- One microsecond passes (R56). -/
def State.tick (s : State) : State := s.setTime (s.timeBase + 1#48)

/-- The Time Base brought to `t`, when `t` lies ahead (log 3). -/
def State.advanceTo (t : Time) (s : State) : State :=
  if (t - s.timeBase).toNat < 2 ^ 47 then s.setTime t else s

/-- The instant a timer expires (R57). -/
def Timer.expiry (t : Timer) : Time := t.start + BitVec.ofNat 48 t.length

/-- How long ago a Time Base value was (R56). -/
def State.since (t : Time) (s : State) : Nat := (s.timeBase - t).toNat

/-- A fresh name for a free value. -/
def State.draw (s : State) : State := { s with free := s.free + 1 }

/-! ### Notices (R176) -/

/-- A kind's place in Table 11-5, counting from 0; its rank is one more. -/
def NoticeKind.place : NoticeKind → Nat
  | .cardFault => 0
  | .cardRemoved => 1
  | .shotVoid => 2
  | .exposureTruncated => 3
  | .releaseRefused => 4
  | .armExpired => 5
  | .darkAbandoned => 6
  | .darkGaveUp => 7
  | .cardFull => 8
  | .amendLost => 9
  | .renumbered => 10
  | .rollFull => 11
  | .exposureDone => 12
  | .cardMounted => 13
  | .linkFault => 14

/-- A raise of `n` occurrences (R176): discarded at level 0; else pending, counted, saturating at 255. -/
def Notice.raised (subject : Option Subject) (n : Nat) (x : Notice) : Notice :=
  if x.level = 0 then x
  else { x with
    pending := true
    count := min 255 ((if x.pending then x.count else 0) + n)
    subject := subject }

/-- A kind cleared (R176, R177, R178). -/
def Notice.cleared (x : Notice) : Notice := { x with pending := false, count := 0, subject := none }

/-- A raising rule that gives a count (R176). -/
def raiseCount (k : NoticeKind) (subject : Option Subject) (n : Nat) (s : State) : State :=
  { s with notices := { s.notices with kinds := s.notices.kinds.modify k.place (Notice.raised subject n) } }

/-- A kind raised once (R176). -/
def raise (k : NoticeKind) (subject : Option Subject) (s : State) : State := raiseCount k subject 1 s

/-- A kind raised with a shot number as its subject. -/
def raiseShot (k : NoticeKind) (shot : Nat) (s : State) : State := raise k (some (.shot shot)) s

/-! ### Answers and the taking of requests (R173, R174, R175) -/

/-- An answer joins the end of the response queue (R175). -/
def answer (tag : Nat) (result : ResultCode) (payload : Payload) (s : State) : State :=
  { s with link := { s.link with queue := s.link.queue ++ [{ tag, result, payload }] } }

/-- A refusal, or an OK without a payload. -/
def answerCode (tag : Nat) (result : ResultCode) (s : State) : State := answer tag result .empty s

/-- Several waiters answered alike, in order. -/
def answerAll (tags : List Nat) (result : ResultCode) (s : State) : State :=
  tags.foldl (fun s t => answerCode t result s) s

/-- A tag becomes HELD (R174). -/
def holdTag (tag : Nat) (s : State) : State :=
  { s with link := { s.link with held := s.link.held ++ [tag] } }

/-- A packet is discarded: the framer returns to HUNT and LINK_FAULT is raised (R173). -/
def discardPacket (s : State) : State :=
  raise .linkFault none { s with link := { s.link with framer := .hunt, bytes := [] } }

/-- A packet whose tag is HELD: TAG_BUSY in the refusal slot, or discarded when the slot is full (R174). -/
def answerTagBusy (tag : Nat) (s : State) : State :=
  match s.link.refusal with
  | none =>
    { s with link := { s.link with refusal := some { tag, result := .tagBusy, payload := .empty } } }
  | some _ => discardPacket s

/-- The taking of a request (R173, R174): a tag above 7 discards the packet, a HELD tag is answered
TAG_BUSY; otherwise the tag becomes HELD and the block decides the request, which is answered BUSY outside
RUNNING unless it is served in every part state. So answered it is not handed to its block and, by the model's choice,
moves no record in the use order (R3, log 20). -/
def takeRequest (tag : Nat) (always : Bool) (body : State → State) (s : State) : State :=
  if 7 < tag then discardPacket s
  else if tag ∈ s.link.held then answerTagBusy tag s
  else if always || s.part == .running then body (holdTag tag s)
  else answerCode tag .busy (holdTag tag s)

/-! ### Rolls and recipes -/

/-- The roll in a slot that is OPEN or CLOSED. -/
def RollSlot.roll? : RollSlot → Option Roll
  | .free => none
  | .opened r => some r
  | .closed r => some r

def rollAt (s : State) (i : Nat) : Option Roll := (s.rolls.slots.getD i .free).roll?

/-- The current roll's record (R30). -/
def currentRoll (s : State) : Option Roll := s.rolls.current.bind (rollAt s)

/-- The roll a shot's roll slot names (R9). -/
def rollOf (s : State) (r : Record) : Option Roll := r.rollSlot.bind (rollAt s)

/-- A roll slot's record changed, its state kept. -/
def RollSlot.mapRoll (f : Roll → Roll) : RollSlot → RollSlot
  | .free => .free
  | .opened r => .opened (f r)
  | .closed r => .closed (f r)

/-- A roll's record changed. -/
def updateRoll (i : Nat) (f : Roll → Roll) (s : State) : State :=
  { s with rolls := { s.rolls with slots := s.rolls.slots.modify i (RollSlot.mapRoll f) } }

def recipeAt (s : State) (i : Nat) : Recipe := s.recipes.getD i .reset

/-- The current development key under a recipe id (R13, R42). -/
def currentKey (s : State) (recipe : Nat) : DevKey := { recipe, generation := (recipeAt s recipe).generation }

/-! ### Shot records -/

def RecordSlot.record? : RecordSlot → Option Record
  | .inUse r => some r
  | _ => none

/-- The resident records (R1). -/
def residents (s : State) : List Record := s.table.slots.filterMap RecordSlot.record?

/-- The resident record that carries a number. -/
def findRecord (s : State) (n : Nat) : Option Record := (residents s).find? fun r => r.number == n

def RecordSlot.carries (n : Nat) : RecordSlot → Bool
  | .inUse r => r.number == n
  | _ => false

def RecordSlot.loads (n : Nat) : RecordSlot → Bool
  | .loading m _ => m == n
  | _ => false

/-- The slot of the resident record that carries a number. -/
def slotOf (s : State) (n : Nat) : Option Nat := s.table.slots.findIdx? (RecordSlot.carries n)

/-- Whether a slot is LOADING for a number. -/
def loadingFor (s : State) (n : Nat) : Bool := s.table.slots.any (RecordSlot.loads n)

def RecordSlot.mapRecord (n : Nat) (f : Record → Record) : RecordSlot → RecordSlot
  | .inUse r => if r.number == n then .inUse (f r) else .inUse r
  | x => x

/-- The record that carries a number changed. -/
def updateRecord (n : Nat) (f : Record → Record) (s : State) : State :=
  { s with table := { s.table with slots := s.table.slots.map (RecordSlot.mapRecord n f) } }

/-- Every resident record changed. -/
def updateRecords (f : Record → Record) (s : State) : State :=
  { s with table := { s.table with slots := s.table.slots.map fun
      | .inUse r => .inUse (f r)
      | x => x } }

/-- A record slot set. -/
def setSlot (i : Nat) (x : RecordSlot) (s : State) : State :=
  { s with table := { s.table with slots := s.table.slots.set i x } }

/-- A slot leaves the use order (R3). -/
def leaveUseOrder (i : Nat) (s : State) : State :=
  { s with table := { s.table with useOrder := s.table.useOrder.filter (· != i) } }

/-- A slot becomes the most recently used (R3). -/
def touchSlot (i : Nat) (s : State) : State :=
  { s with table := { s.table with useOrder := s.table.useOrder.filter (· != i) ++ [i] } }

/-- The record that carries a number becomes the most recently used (R3). -/
def touchRecord (n : Nat) (s : State) : State :=
  match slotOf s n with
  | none => s
  | some i => touchSlot i s

/-- A shot leaves the amendment list (R16). -/
def leaveAmended (n : Nat) (s : State) : State :=
  { s with table := { s.table with amended := s.table.amended.filter (·.shot != n) } }

/-- A record is removed: its slot becomes FREE, and it leaves the use order and the amendment list
(R1, R3, R16). -/
def removeRecord (n : Nat) (s : State) : State :=
  match slotOf s n with
  | none => s
  | some i => leaveAmended n (leaveUseOrder i (setSlot i .free s))

/-! ### Quantities computed from a record (R11, R12) -/

/-- The temperature band: the whole number of 2 °C steps, rounded down, of a temperature in quarter
degrees (R11). -/
def bandOf (temperature : Int) : Int := temperature / 8

def doneEntries (r : Record) : List ExpEntry := r.exposures.filter fun e => e.status == .done

/-- The exposure count: the number of DONE entries (R12). -/
def exposureCount (r : Record) : Nat := (doneEntries r).length

/-- The DONE entry of longest duration, the lower index among equals (R12). -/
def longestEntry (r : Record) : Option ExpEntry :=
  (doneEntries r).foldl (fun best e =>
    match best with
    | none => some e
    | some b => if b.duration.getD 0 < e.duration.getD 0 then some e else some b) none

/-- The longest duration (R12). -/
def longestDuration (r : Record) : Option Nat := (longestEntry r).map fun e => e.duration.getD 0

/-- The shot band (R12). -/
def shotBand (r : Record) : Option Int := (longestEntry r).bind fun e => e.temperature.map bandOf

/-- An exposure entry changed. -/
def Record.setEntry (k : Nat) (f : ExpEntry → ExpEntry) (r : Record) : Record :=
  { r with exposures := r.exposures.modify (k - 1) f }

/-- Resident records' numbers that pass a test, in ascending order. -/
def shotsWhere (s : State) (p : Record → Bool) : List Nat :=
  (((residents s).filter p).map (·.number)).insertionSort (· ≤ ·)

/-! ### Planes (R87, R90) -/

/-- The FREE planes, lowest first. -/
def freePlanes (s : State) : List Nat :=
  (s.pool.owners.zipIdx.filter fun p => p.1 == .free).map (·.2)

/-- A plane's owner set. -/
def setOwner (plane : Nat) (o : Owner) (s : State) : State :=
  { s with pool := { s.pool with owners := s.pool.owners.set plane o } }

/-- A plane released (R87, Table 5-3). -/
def releasePlane (plane : Option Nat) (s : State) : State :=
  match plane with
  | none => s
  | some p => setOwner p .free s

/-! ### Dark links -/

/-- The link count of a dark reference entry: the number of resident records LINKED to it (R98). -/
def linkCount (s : State) (e : Nat) : Nat :=
  ((residents s).filter fun r => r.darkLink == .linked e).length

def darkEntry (s : State) (e : Nat) : DarkEntry := s.dark.entries.getD e .free

def setDarkEntry (e : Nat) (x : DarkEntry) (s : State) : State :=
  { s with dark := { s.dark with entries := s.dark.entries.set e x } }

/-! ### Jobs -/

def runningJob (s : State) : Option Job := s.dev.queue.find? (·.running)

/-- Whether a RUNNING job reads the raw plane of a shot (R126). -/
def readsRaw (s : State) (n : Nat) : Bool :=
  match runningJob s, s.dev.holds with
  | some j, some h => j.shot == n && h.readsRaw
  | _, _ => false

end Sys2Proof.Machine
end

