-- ==== Sys2Proof/Machine/Layout.lean ====
section
/-! DEFINITION. The card layout (Section 9.13): the volume header, the EMPTY entry and the LIVE entry, built
and read; and the sizes of renditions (R41, R133). -/

namespace Sys2Proof.Machine

/-! ### Sizes -/

/-- The working rectangle of SCALE, rotated: width and height (R41). -/
def workRect (columns rows : Nat) (r : Recipe) : Nat × Nat :=
  let whole := (columns, rows)
  let rect :=
    match r.crop with
    | none => whole
    | some c =>
      if c.left < columns ∧ c.top < rows then
        (min c.width (columns - c.left), min c.height (rows - c.top))
      else whole
  if r.rotation % 2 = 1 then (rect.2, rect.1) else rect

/-- The size of a FULL rendition (R41). -/
def fullSize (columns rows : Nat) (r : Recipe) : Nat × Nat :=
  let w := workRect columns rows r
  if r.halfScale then (max 1 (w.1 / 2), max 1 (w.2 / 2)) else w

/-- The smallest factor that brings both sides to at most 1024 (R133). -/
def previewFactor (w : Nat × Nat) : Nat := max 1 ((max w.1 w.2 + 1023) / 1024)

/-- The size of a preview (R133). -/
def previewSize (columns rows : Nat) (r : Recipe) : Nat × Nat :=
  let w := workRect columns rows r
  (max 1 (w.1 / previewFactor w), max 1 (w.2 / previewFactor w))

/-- The clusters that a number of bytes takes (R150). -/
def clustersFor (bytes : Nat) : Nat := (bytes + Config.clusterBytes - 1) / Config.clusterBytes

/-! ### Labels -/

/-- A label whose bytes before the zero padding are printable (R29, 00_scope 0.4). -/
def labelGood (l : Label) : Bool :=
  l.length == 16 &&
  (l.takeWhile (· != 0#8)).all (fun b => decide (0x20 ≤ b.toNat) && decide (b.toNat ≤ 0x7E)) &&
  (l.dropWhile (· != 0#8)).all (· == 0#8)

/-! ### The volume header (Table 9-5) -/

def headerBlock (volumeId clusters : Nat) : List Byte :=
  sealBlock (beBytes 2 1 ++ beBytes 4 volumeId ++ beBytes 4 2048 ++ beBytes 4 clusters ++ beBytes 2 4096)

/-- The five tests of R146. -/
def headerGood (block : List Byte) (capacity : Nat) : Bool :=
  let clusters := fromBytes (slice block 10 4)
  block.length == 512 && blockCrcGood block &&
  fromBytes (slice block 0 2) == 1 &&
  fromBytes (slice block 6 4) == Config.clusterBlocks &&
  fromBytes (slice block 14 2) == Config.catalogueCapacity &&
  decide (1 ≤ clusters) && decide ((3 + clusters) * Config.clusterBlocks ≤ capacity)

def headerVolume (block : List Byte) : Volume :=
  { id := fromBytes (slice block 2 4), clusters := fromBytes (slice block 10 4) }

/-! ### Catalogue entries (Tables 9-6 and 9-7, R162) -/

/-- An EMPTY entry: all zero but its CRC. -/
def emptyBlock : List Byte := sealBlock []

/-- The temperature field of an exposure that has none. -/
def noTemperature : Int := -32768

def TimeSource.code : Option TimeSource → Nat
  | none => 0
  | some .xsync => 1
  | some .auxEnd => 2
  | some .timed => 3

def TimeSource.decode : Nat → Option TimeSource
  | 1 => some .xsync
  | 2 => some .auxEnd
  | 3 => some .timed
  | _ => none

/-- An exposure record of fourteen bytes (Table 9-7). -/
def exposureBytes (e : ExpEntry) : List Byte :=
  beBytes 6 ((e.openTime.map BitVec.toNat).getD 0) ++ beBytes 4 (e.duration.getD 0) ++
  beSigned 2 (e.temperature.getD noTemperature) ++ beBytes 1 (TimeSource.code e.source) ++
  beBytes 1 ((if e.truncated then 1 else 0) + (if e.openTime.isSome then 2 else 0))

def runBytes (r : Run) : List Byte := beBytes 4 r.start ++ beBytes 4 r.length

def ShotKind.code : ShotKind → Nat
  | .single => 1
  | .stack n => n

/-- The dark outcome: whenever an entry is written the link is one of these (R162). -/
def DarkLink.outcome : DarkLink → Nat
  | .notRequired => 0
  | .applied => 1
  | .waived => 2
  | .awaiting => 0
  | .linked _ => 0

def cropBytes : Option Crop → List Byte
  | none => beBytes 9 0
  | some c => beBytes 1 1 ++ beBytes 2 c.left ++ beBytes 2 c.top ++ beBytes 2 c.width ++ beBytes 2 c.height

def flagByte (b : Bool) : List Byte := beBytes 1 (if b then 1 else 0)

/-- The recipe copy of an entry, bytes 42 to 63 (R43). -/
def recipeCopy (c : Recipe) : List Byte :=
  beBytes 2 c.gainR ++ beBytes 2 c.gainG ++ beBytes 2 c.gainB ++ beSigned 1 c.compensation ++
  beSigned 1 c.saturation ++ beBytes 1 c.toneCurve ++ beBytes 1 c.noise ++ beBytes 1 c.sharpening ++
  beBytes 1 c.rotation ++ beBytes 1 (if c.halfScale then 2 else 1) ++ cropBytes c.crop

/-- The LIVE entry of a record, with the developed file given in place of the record's, and the recipe
copy given. A taken-at that is absent is written zero (log 32). -/
def liveBlock (r : Record) (dev : Option DevFile) (copy : Recipe) : List Byte :=
  let key := (dev.map fun d => (d.key.recipe, d.key.generation.toNat)).getD (0, 0)
  let size := (dev.map fun d => (d.width, d.height)).getD (0, 0)
  sealBlock (
    beBytes 1 1 ++ beBytes 1 r.kind.code ++ beBytes 1 r.exposures.length ++
    beBytes 1 r.darkLink.outcome ++ beBytes 4 r.number ++ padTo 16 r.label ++ beBytes 2 r.frame ++
    beSigned 8 (r.takenAt.getD 0) ++ beBytes 1 r.recipe ++ beBytes 1 r.rating ++ flagByte r.protect ++
    beBytes 1 r.rawRuns.length ++ beBytes 1 ((dev.map fun d => d.runs.length).getD 0) ++
    beBytes 1 key.1 ++ beBytes 2 key.2 ++ recipeCopy copy ++
    padTo 112 (r.exposures.flatMap exposureBytes) ++
    padTo 64 (r.rawRuns.flatMap runBytes) ++
    padTo 64 ((dev.map fun d => d.runs.flatMap runBytes).getD []) ++
    beBytes 2 r.rawSize.1 ++ beBytes 2 r.rawSize.2 ++ beBytes 2 size.1 ++ beBytes 2 size.2)

/-- Field `i` of `n` bytes of an entry. -/
def field (block : List Byte) (i n : Nat) : Nat := fromBytes (slice block i n)

def fieldSigned (block : List Byte) (i n : Nat) : Int := fromSigned (slice block i n)

/-- Runs in the eight places from byte `base`, as many as are in use. -/
def readRuns (block : List Byte) (base count : Nat) : List Run :=
  (List.range count).map fun i =>
    { start := field block (base + 8 * i) 4, length := field block (base + 8 * i + 4) 4 }

/-- The exposure entry that exposure record `i`, counting from 0, gives at a load (R20): the close time is
the open time plus the duration; the status is DONE where there is a temperature and FAILED where there is
none. -/
def readExposure (block : List Byte) (i : Nat) : ExpEntry :=
  let b := 64 + 14 * i
  let source := TimeSource.decode (field block (b + 12) 1)
  let openTime := if field block (b + 13) 1 / 2 % 2 = 1 then some (BitVec.ofNat 48 (field block b 6)) else none
  let duration := if source.isSome then some (field block (b + 6) 4) else none
  let temperature := fieldSigned block (b + 10) 2
  { index := i + 1
    status := if temperature = noTemperature then .failed else .done
    openTime := openTime
    closeTime := openTime.bind fun o => duration.map fun d => o + BitVec.ofNat 48 d
    duration := duration
    source := source
    truncated := field block (b + 13) 1 % 2 = 1
    temperature := if temperature = noTemperature then none else some temperature }

def readKind (n : Nat) : ShotKind := if n ≤ 1 then .single else .stack n

/-- The dark outcome read back; a code above 2 is read as WAIVED (log 21). -/
def readOutcome : Nat → DarkLink
  | 0 => .notRequired
  | 1 => .applied
  | _ => .waived

def entryShot (block : List Byte) : Nat := field block 4 4

def entryLive (block : List Byte) : Bool := block.length == 512 && blockCrcGood block && field block 0 1 == 1

def entryEmpty (block : List Byte) : Bool := block.length == 512 && blockCrcGood block && field block 0 1 == 0

/-- The developed file an entry names, with its size (log 43). -/
def entryDevFile (block : List Byte) : Option DevFile :=
  if field block 38 1 = 0 then none
  else some
    { runs := readRuns block 240 (field block 38 1)
      key := { recipe := field block 39 1, generation := BitVec.ofNat 16 (field block 40 2) }
      width := field block 308 2
      height := field block 310 2 }

/-- The record a good entry makes at a load (R20). R162 says that the sizes are not read back into the record, and yet
what a rewritten entry carries there; that the record has them from the entry is the model's choice (log 43). -/
def loadedRecord (block : List Byte) (slot : Nat) : Record :=
  { number := entryShot block, former := none, life := .settled, rollSlot := none,
    label := slice block 8 16, frame := field block 24 2, kind := readKind (field block 1 1),
    exposures := (List.range (field block 2 1)).map (readExposure block),
    takenAt := some (fieldSigned block 26 8), recipe := field block 34 1,
    darkLink := readOutcome (field block 3 1), darkAttempts := 0, rawCard := .onCard,
    catSlot := some slot, rawRuns := readRuns block 176 (field block 37 1),
    devFile := entryDevFile block, devPending := none, rating := field block 35 1,
    protect := field block 36 1 == 1, dirty := false, rawPlane := none,
    rawSize := (field block 304 2, field block 306 2), retireTag := none }

/-- The index entry an accepted LIVE entry gives (R147). -/
def entryIndex (block : List Byte) (slot : Nat) : IndexEntry :=
  { shot := entryShot block, slot := slot, frame := field block 24 2, label := slice block 8 16,
    protect := field block 36 1 == 1 }

def inRange (v lo hi : Nat) : Bool := decide (lo ≤ v) && decide (v ≤ hi)

def inRangeInt (v lo hi : Int) : Bool := decide (lo ≤ v) && decide (v ≤ hi)

/-- An exposure record in use lies within Table 9-7. -/
def exposureGood (block : List Byte) (i : Nat) : Bool :=
  let b := 64 + 14 * i
  let t := fieldSigned block (b + 10) 2
  (inRangeInt t (-512) 511 || t == noTemperature) && inRange (field block (b + 12) 1) 0 3 &&
  inRange (field block (b + 13) 1) 0 3

def zeroField (block : List Byte) (i n : Nat) : Bool := (slice block i n).all (· == 0#8)

/-- Bytes 42 to 63 lie within Table 9-6. -/
def recipeCopyGood (b : List Byte) : Bool :=
  inRange (field b 42 2) 250 8000 && inRange (field b 44 2) 250 8000 && inRange (field b 46 2) 250 8000 &&
  inRangeInt (fieldSigned b 48 1) (-18) 18 && inRangeInt (fieldSigned b 49 1) (-8) 8 &&
  inRange (field b 50 1) 0 7 && inRange (field b 51 1) 0 15 && inRange (field b 52 1) 0 15 &&
  inRange (field b 53 1) 0 3 && inRange (field b 54 1) 1 2 && inRange (field b 55 1) 0 1 &&
  (field b 55 1 == 1 || zeroField b 56 8)

/-- Tests 1 (the number's range), 2 and 5 of R147: the fields lie within Table 9-6, the exposure records
in use within Table 9-7, and unused places are zero (log 33). -/
def entryContentGood (b : List Byte) : Bool :=
  let kind := field b 1 1
  let count := field b 2 1
  let raws := field b 37 1
  let devs := field b 38 1
  decide (1 ≤ entryShot b) &&
  inRange kind 1 8 && inRange count 1 8 && decide (count ≤ kind) && inRange (field b 3 1) 0 2 &&
  labelGood (slice b 8 16) && inRange (field b 24 2) 1 999 &&
  inRange (field b 34 1) 0 31 && inRange (field b 35 1) 0 5 && inRange (field b 36 1) 0 1 &&
  inRange raws 1 8 && inRange devs 0 8 && inRange (field b 39 1) 0 31 &&
  (decide (devs ≠ 0) || (zeroField b 39 3 && zeroField b 308 4)) && recipeCopyGood b &&
  (List.range count).all (exposureGood b) &&
  zeroField b (64 + 14 * count) (112 - 14 * count) && zeroField b (176 + 8 * raws) (64 - 8 * raws) &&
  zeroField b (240 + 8 * devs) (64 - 8 * devs) && zeroField b 312 198

end Sys2Proof.Machine
end

