-- ==== Sys2Proof/Machine/CardMap.lean ====
section
/-! DEFINITION. The cluster map as maximal runs in ascending order, allocation, and the return of runs
(R150). -/

namespace Sys2Proof.Machine

/-- How many clusters runs hold. -/
def runsLength (rs : List Run) : Nat := (rs.map (·.length)).sum

/-- Cluster `k` of a file, counting from 0, run by run in the order the file lists them (R144). -/
def clusterAt : List Run → Nat → Nat
  | [], _ => 0
  | r :: rs, k => if k < r.length then r.start + k else clusterAt rs (k - r.length)

/-- The first `n` clusters of a map in ascending order, and what is left. -/
def takeClusters : List Run → Nat → Option (List Run × List Run)
  | m, 0 => some ([], m)
  | [], _ + 1 => none
  | r :: rs, n + 1 =>
    if n + 1 < r.length then
      some ([{ start := r.start, length := n + 1 }],
        { start := r.start + (n + 1), length := r.length - (n + 1) } :: rs)
    else
      match takeClusters rs (n + 1 - r.length) with
      | none => none
      | some (taken, left) => some (r :: taken, left)

/-- An allocation of `n` clusters: first-fit, at most eight runs (R150). -/
def allocate (m : List Run) (n : Nat) : Option (List Run × List Run) :=
  match takeClusters m n with
  | none => none
  | some (taken, left) => if taken.length ≤ Config.runsPerFile then some (taken, left) else none

/-- A run put before the runs that follow it, joined to the first when they touch. -/
def joinRun (r : Run) : List Run → List Run
  | [] => [r]
  | x :: xs =>
    if r.start + r.length = x.start then { start := r.start, length := r.length + x.length } :: xs
    else r :: x :: xs

/-- A run returned to the map. -/
def insertRun (r : Run) : List Run → List Run
  | [] => [r]
  | x :: xs => if r.start < x.start then joinRun r (x :: xs) else joinRun x (insertRun r xs)

/-- The two parts of a run of the map that a run cut out of it leaves. -/
def cutParts (x r : Run) : List Run :=
  (if x.start < r.start then [{ start := x.start, length := r.start - x.start }] else []) ++
  (if r.start + r.length < x.start + x.length then
    [{ start := r.start + r.length, length := x.start + x.length - (r.start + r.length) }] else [])

/-- A run cut out of the map; none when it is empty or not wholly free (R147, tests 3 and 4). -/
def cutRun (r : Run) : List Run → Option (List Run)
  | [] => none
  | x :: xs =>
    if 0 < r.length ∧ x.start ≤ r.start ∧ r.start + r.length ≤ x.start + x.length then
      some (cutParts x r ++ xs)
    else (cutRun r xs).map (x :: ·)

/-- Runs cut out of the map one after another. -/
def cutRuns : List Run → List Run → Option (List Run)
  | [], m => some m
  | r :: rs, m => (cutRun r m).bind (cutRuns rs)

/-- The lowest number from `i` on, among the next `fuel`, that is not used. -/
def lowestUnused (used : Nat → Bool) : Nat → Nat → Option Nat
  | 0, _ => none
  | fuel + 1, i => if used i then lowestUnused used fuel (i + 1) else some i

/-- The full flag cleared and every room mark removed (R150). -/
def clearFull (s : State) : State :=
  { s with card := { s.card with
    full := false
    marks := []
    handoffs := s.card.handoffs.map fun h => { h with marked := false } } }

/-- Runs returned to the map (R150). -/
def returnRuns (rs : List Run) (s : State) : State :=
  clearFull { s with card := { s.card with map := rs.foldl (fun m r => insertRun r m) s.card.map } }

/-- The slots reserved for records in CATALOGUING (R151). -/
def reservedSlots (s : State) : List Nat :=
  (residents s).filterMap fun r => if r.rawCard = .cataloguing then r.catSlot else none

/-- Whether a catalogue slot is not EMPTY, DAMAGED, or reserved. -/
def slotUsed (s : State) (i : Nat) : Bool :=
  s.card.index.any (·.slot == i) || s.card.damaged.contains i || (reservedSlots s).contains i

/-- The lowest slot that is EMPTY and not DAMAGED (R151). -/
def emptySlot (s : State) : Option Nat := lowestUnused (slotUsed s) Config.catalogueCapacity 0

/-- How many slots are EMPTY and not DAMAGED (R161; a reserved slot is not counted, log 34). -/
def emptySlots (s : State) : Nat :=
  Config.catalogueCapacity - s.card.index.length - s.card.damaged.length - (reservedSlots s).length

end Sys2Proof.Machine
end

