-- ==== Sys2Proof/Machine/Flags.lean ====
section
/-! DEFINITION. The output lines and the status flags that are views of the state. -/

namespace Sys2Proof.Machine

/-- RESP: an answer waits in the queue or the refusal slot (R175); negated in reset (R179). -/
def resp (s : State) : Bool := !s.held && (!s.link.queue.isEmpty || s.link.refusal.isSome)

/-- ATTN: a pending kind has a level above the notice floor (R177); negated in reset (R179). -/
def attn (s : State) : Bool :=
  !s.held && s.notices.kinds.any fun x => x.pending && decide (s.notices.floor < x.level)

/-- RELOUT: asserted while the pulse is PULSING (R54); negated in reset (R179). -/
def relout (s : State) : Bool := !s.held && s.sync.pulseEnd.isSome

/-- The three sensor control outputs. -/
inductive SensorLine where
  | flush
  | integ
  | read
  deriving DecidableEq, Repr

/-- The sensor line a sequencer state asserts (Table 4-1). -/
def SeqState.line : SeqState → SensorLine
  | .idle => .flush
  | .armed => .integ
  | .opened => .integ
  | .settle => .integ
  | .readout => .read
  | .accumulate => .flush
  | .stackWait => .flush
  | .dark => .integ
  | .darkReadout => .read

/-- The sensor line asserted: that of the sequencer's state, and none in reset (R63, R179). -/
def sensorLine (s : State) : Option SensorLine := if s.held then none else some s.seq.state.line

/-- FLUSH (R63). -/
def flushLine (s : State) : Bool := sensorLine s == some .flush

/-- INTEG (R63). -/
def integLine (s : State) : Bool := sensorLine s == some .integ

/-- READ (R63). -/
def readLine (s : State) : Bool := sensorLine s == some .read

/-- A card is mounted (R142). -/
def CardState.mounted : CardState → Bool
  | .ready => true
  | .readOnly => true
  | .ejecting => true
  | _ => false

/-- The states in which loads and fetches may start (R18, R115). -/
def CardState.readable : CardState → Bool
  | .ready => true
  | .readOnly => true
  | _ => false

/-- The card identity held says the card is write-protected (R148, R163, R166). -/
def writeProtected (s : State) : Bool :=
  match s.card.identity with
  | some i => i.writeProtected
  | none => false

end Sys2Proof.Machine
end

