-- ==== Sys2Proof/Machine/Pau.lean ====
section
/-! DEFINITION. The Plane Arithmetic Unit (Section 5.4). -/

namespace Sys2Proof.Machine

/-- Whether a RUNNING request works for a shot (R93). -/
def pauRuns (s : State) (n : Nat) : Bool := s.pau.any fun q => q.running && q.shot == n

/-- Whether a request, QUEUED or RUNNING, works for a shot. -/
def pauNames (s : State) (n : Nat) : Bool := s.pau.any fun q => q.shot == n

/-- Whether a RUNNING APPLY_DARK names a dark entry (R109). -/
def pauReads (s : State) (e : Nat) : Bool := s.pau.any fun q => q.running && q.op == .applyDark e

/-- How many values the sensor area in force has. -/
def sensorArea (s : State) : Nat := s.seq.columns * s.seq.rows

/-- The place of the request the IDLE unit starts: a QUEUED ACCUMULATE before any APPLY_DARK, else the
first (R93). -/
def nextPau (q : List PauRequest) : Option Nat :=
  if q.any (·.running) then none
  else
    match q.findIdx? (·.op == .accumulate) with
    | some i => some i
    | none => if q.isEmpty then none else some 0

/-- The n of R95: the shot's exposure count when the request is started. -/
def pauScale (s : State) (n : Nat) : Nat := ((findRecord s n).map exposureCount).getD 0

/-- A request started (R93, R95). -/
def PauRequest.started (s : State) (q : PauRequest) : PauRequest :=
  { q with running := true, scale := pauScale s q.shot }

/-- The unit, when IDLE with a request in its queue, starts one (R93). -/
def startPau (s : State) : State :=
  match nextPau s.pau with
  | none => s
  | some i => { s with pau := s.pau.modify i (PauRequest.started s) }

/-- A request joins the queue and, when the unit is IDLE, is started (R92). -/
def joinPau (q : PauRequest) (s : State) : State := startPau { s with pau := s.pau ++ [q] }

/-- The plane of a dark entry. -/
def DarkState.plane? : DarkState → Option Nat
  | .exposing p => some p
  | .ready _ _ p => some p
  | _ => none

def DarkState.isReady : DarkState → Bool
  | .ready _ _ _ => true
  | _ => false

def DarkState.isExposing : DarkState → Bool
  | .exposing _ => true
  | _ => false

/-- The APPLY_DARK of a shot and an entry, from a resume point (Table 5-6). -/
def applyDarkRequest (s : State) (n e resume : Nat) : PauRequest :=
  { op := .applyDark e, shot := n, source := ((darkEntry s e).state.plane?).getD 0,
    destination := ((findRecord s n).bind (·.rawPlane)).getD 0, resume := resume, running := false,
    scale := 0 }

/-- An APPLY_DARK placed; with seven of them in the queue it is deferred (R92). -/
def placeApplyDark (n e resume : Nat) (s : State) : State :=
  if Config.applyDarkMax ≤ (s.pau.filter fun q => q.op != .accumulate).length then s
  else joinPau (applyDarkRequest s n e resume) s

/-- The entry a shot's request would name: the READY entry the shot is LINKED to. -/
def readyLink (s : State) (r : Record) : Option Nat :=
  match r.darkLink with
  | .linked e => if (darkEntry s e).state.isReady then some e else none
  | _ => none

/-- The deferred shots: LINKED to a READY entry with no request (R108). -/
def deferredShots (s : State) : List Nat :=
  shotsWhere s fun r => (readyLink s r).isSome && !pauNames s r.number

/-- Room is reported: the request of the lowest-numbered deferred shot is placed (R108). -/
def placeDeferred (s : State) : State :=
  match deferredShots s with
  | [] => s
  | n :: _ =>
    match (findRecord s n).bind (readyLink s) with
    | none => s
    | some e => placeApplyDark n e 0 s

/-- Requests that pass a test leave the queue; each APPLY_DARK that leaves reports room; then the unit, if
IDLE, starts the next (R92, R93). -/
def leavePau (p : PauRequest → Bool) (s : State) : State :=
  startPau (placeDeferred { s with pau := s.pau.filter fun q => !p q })

/-- How far a stopped APPLY_DARK has got: a place from its resume point on, below the end of the sensor
area (R97; a free value, log 15). -/
def stoppedAt (s : State) (q : PauRequest) : Nat :=
  q.resume + Config.pauProgress s.free % max 1 (sensorArea s - q.resume)

/-- The part of a stopped request's work that has been done, done in frame memory (R96, R97, log 15). -/
def partialWork (q : PauRequest) (s : State) : State :=
  { s with
    mem :=
      match q.op with
      | .accumulate =>
        accumulateValues s.mem q.source q.destination (sensorArea s) (Config.accumulated s.free)
      | .applyDark _ =>
        applyDarkValues s.mem q.source q.destination q.scale q.resume (stoppedAt s q)
    free := s.free + 1 }

/-- The RUNNING request. -/
def runningPau (s : State) : Option PauRequest := s.pau.find? (·.running)

/-- A RUNNING request of a shot abandoned where it stands, and the shot's requests taken from the queue
(R96). -/
def abandonPau (n : Nat) (s : State) : State :=
  match runningPau s with
  | none => leavePau (fun q => q.shot == n) s
  | some q =>
    if q.shot = n then leavePau (fun q => q.shot == n) (partialWork q s)
    else leavePau (fun q => q.shot == n) s

/-- The QUEUED requests of a shot taken from the queue (R96). -/
def dropQueuedPau (n : Nat) (s : State) : State :=
  leavePau (fun q => q.shot == n && !q.running) s

end Sys2Proof.Machine
end

