-- ==== Sys2Proof/Machine/Preview.lean ====
section
/-! DEFINITION. The preview slots (Chapter 8). -/

namespace Sys2Proof.Machine

def PreviewSlot.isFree (x : PreviewSlot) : Bool := x.state == .free

def PreviewSlot.isValid (x : PreviewSlot) : Bool :=
  match x.state with
  | .valid _ _ _ _ _ => true
  | _ => false

def previewSlot (s : State) (i : Nat) : PreviewSlot := s.cache.slots.getD i { state := .free, pins := 0 }

/-- Whether a slot is VALID and tagged with a shot and key. -/
def PreviewSlot.carries (n : Nat) (k : DevKey) (x : PreviewSlot) : Bool :=
  match x.state with
  | .valid (some (m, l)) _ _ _ _ => m == n && l == k
  | _ => false

/-- The slot given to a PREVIEW job: the lowest FREE slot, else the least recently used VALID slot with pin
count 0 (R134). -/
def slotToGive (s : State) : Option Nat :=
  match s.cache.slots.findIdx? PreviewSlot.isFree with
  | some i => some i
  | none => s.cache.useOrder.find? fun i => (previewSlot s i).isValid && (previewSlot s i).pins == 0

/-- A slot set, out of the use order. -/
def setPreview (i : Nat) (x : PreviewSlot) (s : State) : State :=
  { s with cache :=
    { slots := s.cache.slots.set i x, useOrder := s.cache.useOrder.filter (· != i) } }

/-- A slot becomes FILLING (R134). -/
def fillSlot (i : Nat) (s : State) : State := setPreview i { state := .filling, pins := 0 } s

/-- A slot becomes FREE. -/
def freeSlot (i : Nat) (s : State) : State := setPreview i { state := .free, pins := 0 } s

/-- A slot becomes the most recently used (R134). -/
def touchPreview (i : Nat) (s : State) : State :=
  { s with cache := { s.cache with useOrder := s.cache.useOrder.filter (· != i) ++ [i] } }

/-- The slots changed one by one; those no longer VALID leave the use order (R134). -/
def mapSlots (f : PreviewSlot → PreviewSlot) (s : State) : State :=
  { s with cache :=
    { slots := s.cache.slots.map f
      useOrder := s.cache.useOrder.filter fun i =>
        ((s.cache.slots.map f).getD i { state := .free, pins := 0 }).isValid } }

/-- A slot whose shot leaves the part: FREE when unpinned, ORPHANED when pinned (R140). -/
def PreviewSlot.leave (gone : Nat → Bool) (x : PreviewSlot) : PreviewSlot :=
  match x.state with
  | .valid (some (n, _)) w h st seed =>
    if gone n then
      if x.pins = 0 then { state := .free, pins := 0 }
      else { x with state := .valid none w h st seed }
    else x
  | _ => x

/-- The slots of the shots that pass a test leave with them (R140). -/
def leaveSlots (gone : Nat → Bool) (s : State) : State := mapSlots (PreviewSlot.leave gone) s

/-- A slot of an evicted shot: standing says whether its key is the record's current key (R140). -/
def PreviewSlot.evict (n : Nat) (current : DevKey) (x : PreviewSlot) : PreviewSlot :=
  match x.state with
  | .valid (some (m, k)) w h st seed =>
    if m = n then { x with state := .valid (some (m, k)) w h (k == current) seed }
    else { x with state := .valid (some (m, k)) w h st seed }
  | _ => x

/-- A slot of a renumbered shot (R141). -/
def PreviewSlot.renumber (old new : Nat) (x : PreviewSlot) : PreviewSlot :=
  match x.state with
  | .valid (some (m, k)) w h st seed =>
    if m = old then { x with state := .valid (some (new, k)) w h st seed } else x
  | _ => x

/-- The pin count of a slot stepped up by one. -/
def pinSlot (i : Nat) (s : State) : State :=
  { s with cache := { s.cache with slots := s.cache.slots.modify i fun x => { x with pins := x.pins + 1 } } }

end Sys2Proof.Machine
end

