-- ==== Sys2Proof/Machine/Engine.lean ====
section
/-! DEFINITION. The Development Engine's queue, its dispatch, and the end of a job (Chapter 7). -/

namespace Sys2Proof.Machine

/-! ### Placing (R113) -/

/-- The outcome of a placing. -/
inductive Placing where
  | placed
  | merged
  | failed
  deriving DecidableEq, Repr

def Job.isFor (n : Nat) (k : JobKind) (j : Job) : Bool := j.shot == n && j.kind == k

/-- A placing merged into a job: a RUNNING job keeps its key (R113). -/
def Job.merge (priority : Nat) (key : DevKey) (tag : Option Nat) (j : Job) : Job :=
  { j with
    priority := max j.priority priority
    key := if j.running then j.key else key
    waiters := j.waiters ++ tag.toList }

/-- What a placing finds (R113). -/
def placingOutcome (s : State) (n : Nat) (k : JobKind) : Placing :=
  if s.dev.queue.any (Job.isFor n k) then .merged
  else if s.dev.queue.length < Config.devQueueMax then .placed
  else .failed

/-- The current key of a resident shot (R13). -/
def shotKey (s : State) (n : Nat) : DevKey := currentKey s (((findRecord s n).map (·.recipe)).getD 0)

/-- A job placed, merged, or not placed (R113). -/
def placeJob (n : Nat) (k : JobKind) (priority : Nat) (tag : Option Nat) (s : State) : State :=
  match placingOutcome s n k with
  | .failed => s
  | .merged =>
    { s with dev := { s.dev with
        queue := s.dev.queue.map fun j =>
          if j.isFor n k then j.merge priority (shotKey s n) tag else j } }
  | .placed =>
    { s with dev := { s.dev with queue := s.dev.queue ++
        [{ shot := n, kind := k, priority, key := shotKey s n, waiters := tag.toList, running := false }] } }

/-! ### Dispatch (R115 to R117) -/

/-- Whether the dark link lets a job be dispatched (R115) and a raw be written (R151). -/
def DarkLink.final : DarkLink → Bool
  | .notRequired => true
  | .applied => true
  | .waived => true
  | _ => false

/-- The planes a job needs (Table 5-4). -/
def planesNeeded (k : JobKind) (life : Life) : Nat :=
  (if life = .settled then 1 else 0) +
  match k with
  | .preview => 0
  | .full => 1

/-- The conditions of R115 but the sixth, for a job of a record. -/
def eligibleButPlanes (s : State) (j : Job) (r : Record) : Bool :=
  !j.running && decide (s.dev.floor ≤ j.priority) && r.darkLink.final &&
  (match r.life with
    | .held => !pauRuns s r.number
    | .settled => s.card.state.readable && decide (s.card.reads.length < Config.readQueueMax)
    | _ => false) &&
  (j.kind == .full || (slotToGive s).isSome)

/-- Whether a job is eligible for dispatch (R115). -/
def eligible (s : State) (j : Job) : Bool :=
  match findRecord s j.shot with
  | none => false
  | some r => eligibleButPlanes s j r && decide (planesNeeded j.kind r.life ≤ (freePlanes s).length)

/-- Whether a job lacks only planes (R91, R115). -/
def lacksPlanes (s : State) (j : Job) : Bool :=
  match findRecord s j.shot with
  | none => false
  | some r => eligibleButPlanes s j r && decide ((freePlanes s).length < planesNeeded j.kind r.life)

/-- The better of two jobs to dispatch: the higher priority, and the earlier between equals. -/
def betterJob (best : Option Job) (j : Job) : Option Job :=
  match best with
  | none => some j
  | some b => if b.priority < j.priority then some j else some b

/-- The job dispatched (R116). -/
def jobToDispatch (s : State) : Option Job := (s.dev.queue.filter (eligible s)).foldl betterJob none

/-- Whether a dispatch may be attempted (R116). -/
def mayDispatch (s : State) : Bool :=
  s.dev.engine == .idle && !s.dev.readout && s.part == .running

/-- The planes a dispatched job takes: its fetch plane and its output plane (R117). -/
def planesTaken (s : State) (k : JobKind) (life : Life) : Option Nat × Option Nat :=
  match k, life with
  | .preview, .settled => ((freePlanes s)[0]?, none)
  | .preview, _ => (none, none)
  | .full, .settled => ((freePlanes s)[0]?, (freePlanes s)[1]?)
  | .full, _ => (none, (freePlanes s)[0]?)

/-- A plane claimed for an owner. -/
def claimPlane (plane : Option Nat) (o : Owner) (s : State) : State :=
  match plane with
  | none => s
  | some p => setOwner p o s

/-- A read joins the read queue (R149). -/
def joinReads (r : CardRead) (s : State) : State :=
  { s with card := { s.card with reads := s.card.reads ++ [r] } }

/-- Dispatch is one event (R117). -/
def dispatchJob (j : Job) (r : Record) (s : State) : State :=
  let planes := planesTaken s j.kind r.life
  let slot := if j.kind = .preview then slotToGive s else none
  let s := claimPlane planes.1 .devFetch (claimPlane planes.2 .devOutput s)
  let s := (slot.map fillSlot).getD id s
  let s := { s with dev := { s.dev with
    queue := s.dev.queue.map fun x =>
      if x.isFor j.shot j.kind then { x with key := currentKey s r.recipe, running := true } else x
    engine := if r.life = .settled then .fetching else .active (.developing .demosaic)
    holds := some
      { fetch := planes.1, output := planes.2, slot := slot, recipe := recipeAt s r.recipe,
        readsRaw := r.life == .held } } }
  match r.life, planes.1 with
  | .settled, some p => joinReads (.fetch j.shot p r.rawRuns) s
  | _, _ => s

/-- The engine claim waits while the engine is IDLE and a QUEUED job lacks only planes (R91, R116). -/
def setEngineClaim (b : Bool) (s : State) : State := { s with pool := { s.pool with engineClaim := b } }

/-- The engine claim withdrawn when the engine is not IDLE or no job lacks only planes (R91). -/
def refreshEngineClaim (s : State) : State :=
  setEngineClaim (s.pool.engineClaim && s.dev.engine == .idle && s.dev.queue.any (lacksPlanes s)) s

/-- A dispatch attempted (R116). -/
def attemptDispatch (s : State) : State :=
  if mayDispatch s then
    match jobToDispatch s with
    | none => setEngineClaim (s.dev.queue.any (lacksPlanes s)) s
    | some j =>
      match findRecord s j.shot with
      | none => s
      | some r => setEngineClaim false (dispatchJob j r s)
  else refreshEngineClaim s

/-- A released plane is served to the engine claim, when it waits (R91). -/
def serveEngineClaim (s : State) : State := if s.pool.engineClaim then attemptDispatch s else s

/-! ### Readouts (R121) -/

/-- The engine is told a readout has begun. -/
def readoutBegins (s : State) : State :=
  { s with dev := { s.dev with
    readout := true
    engine := match s.dev.engine with
      | .active w => .suspended w
      | e => e } }

/-- The engine is told a readout has ended. -/
def readoutEnds (s : State) : State :=
  { s with dev := { s.dev with
    readout := false
    engine := match s.dev.engine with
      | .suspended w => .active w
      | e => e } }

/-! ### The end of a job -/

/-- A HELD record that is ON_CARD settles, unless a RUNNING job reads its raw plane (R126, R152). -/
def settle (n : Nat) (s : State) : State :=
  match findRecord s n with
  | none => s
  | some r =>
    if r.life = .held ∧ r.rawCard = .onCard ∧ readsRaw s n = false then
      updateRecord n (fun r => { r with life := .settled, rawPlane := none }) (releasePlane r.rawPlane s)
    else s

/-- A command on the bus whose work has ended is of no account (log 25). -/
def orphanBus (s : State) : State :=
  { s with card := { s.card with bus := s.card.bus.map fun b => { b with orphan := true } } }

def CardRead.isFetch : CardRead → Bool
  | .fetch _ _ _ => true
  | .load _ _ => false

def CardWork.isFetch : CardWork → Bool
  | .fetch _ _ _ _ => true
  | _ => false

/-- The Card Store abandons the fetch read, queued or started (R127). -/
def abandonFetch (s : State) : State :=
  let s := { s with card := { s.card with reads := s.card.reads.filter fun r => !r.isFetch } }
  if s.card.work.any CardWork.isFetch then orphanBus { s with card := { s.card with work := none } } else s

/-- What the RUNNING job holds is released but for its output plane: its fetch plane, and the engine is
IDLE; its raw plane is no longer read (R122, R126). -/
def endHolds (s : State) : State :=
  let fetch := s.dev.holds.bind (·.fetch)
  releasePlane fetch { s with dev := { s.dev with engine := .idle, holds := none } }

/-- A RUNNING job ended without completing: its planes are freed and its slot becomes FREE (R119, R127). -/
def dropHolds (s : State) : State :=
  let output := s.dev.holds.bind (·.output)
  let slot := s.dev.holds.bind (·.slot)
  (slot.map freeSlot).getD id (releasePlane output (endHolds s))

/-- The RUNNING job returns to QUEUED in its place (R119). -/
def requeueRunning (s : State) : State :=
  let s := dropHolds s
  { s with dev := { s.dev with queue := s.dev.queue.map fun j => { j with running := false } } }

/-- Jobs leave the queue. -/
def dropJobs (p : Job → Bool) (s : State) : State :=
  { s with dev := { s.dev with queue := s.dev.queue.filter fun j => !p j } }

/-- The jobs of a shot removed, their waiters answered in the order they joined, and the jobs in their order in
the queue (R127, log 23). -/
def removeJobs (n : Nat) (result : ResultCode) (s : State) : State :=
  let jobs := s.dev.queue.filter fun j => j.shot == n
  let s :=
    if jobs.any (·.running) then settle n (abandonFetch (dropHolds s)) else s
  dropJobs (fun j => j.shot == n) (answerAll (jobs.flatMap (·.waiters)) result s)

end Sys2Proof.Machine
end

