-- ==== Sys2Proof/Machine/Dark.lean ====
section
/-! DEFINITION. The Dark Unit: matching, planning, unlinking, abandonment, expiry (Chapter 6). -/

namespace Sys2Proof.Machine

/-! ### Matching (R100, R101) -/

/-- The age of a READY entry; 0 for any other. -/
def darkAge (s : State) (e : Nat) : Nat :=
  match (darkEntry s e).state with
  | .ready _ t _ => s.since t
  | _ => 0

/-- Whether an entry's band is the shot's, and a READY entry's age lets it serve new shots (R100). -/
def entryServes (s : State) (e : Nat) (band : Int) : Bool :=
  let x := darkEntry s e
  match x.state with
  | .free => false
  | .planned => band == x.plannedBand
  | .exposing _ => band == x.plannedBand
  | .ready measured _ _ =>
    band == measured && decide (0 < x.reuseAge) && decide (darkAge s e ≤ x.reuseAge * 1000000)

/-- Whether a shot of longest duration `d` and band `band` matches an entry (R100). -/
def matchesEntry (s : State) (d : Nat) (band : Int) (e : Nat) : Bool :=
  entryServes s e band && decide (d ≤ (darkEntry s e).duration) &&
  decide ((darkEntry s e).duration ≤ d + d / 8)

/-- The younger of two READY entries, the lower-numbered between equals. -/
def youngerEntry (s : State) (best : Option Nat) (e : Nat) : Option Nat :=
  match best with
  | none => some e
  | some b => if darkAge s e < darkAge s b then some e else some b

/-- The entry chosen among those that match (R101). -/
def chooseEntry (s : State) (d : Nat) (band : Int) : Option Nat :=
  let hits := (List.range Config.darkEntries).filter (matchesEntry s d band)
  match (hits.filter fun e => (darkEntry s e).state.isReady).foldl (youngerEntry s) none with
  | some e => some e
  | none =>
    match hits.find? fun e => (darkEntry s e).state.isExposing with
    | some e => some e
    | none => s.dark.plan.find? (matchesEntry s d band)

/-- The entry a record matches. -/
def recordMatch (s : State) (r : Record) : Option Nat :=
  match longestDuration r, shotBand r with
  | some d, some b => chooseEntry s d b
  | _, _ => none

/-- Whether a record matches an entry. -/
def recordFits (s : State) (e : Nat) (r : Record) : Bool :=
  match longestDuration r, shotBand r with
  | some d, some b => matchesEntry s d b e
  | _, _ => false

/-- A shot becomes LINKED to an entry; for a READY entry its APPLY_DARK is placed at once (R101). -/
def linkShot (e : Nat) (s : State) (n : Nat) : State :=
  let s := updateRecord n (fun r => { r with darkLink := .linked e }) s
  if (darkEntry s e).state.isReady then placeApplyDark n e 0 s else s

/-- The shots that are AWAITING, in ascending order. -/
def awaitingShots (s : State) : List Nat := shotsWhere s fun r => r.darkLink == .awaiting

/-- The first step of a pass, for one shot (R102). -/
def matchShot (s : State) (n : Nat) : State :=
  match (findRecord s n).bind (recordMatch s) with
  | none => s
  | some e => linkShot e s n

/-! ### Planning (R102, R103) -/

/-- An entry becomes FREE and its plane is released (R98). -/
def freeEntry (e : Nat) (s : State) : State :=
  let s := releasePlane ((darkEntry s e).state.plane?) s
  { s with dark := { entries := s.dark.entries.set e .free, plan := s.dark.plan.filter (· != e) } }

/-- Whether an entry is idle: READY, with no link and no RUNNING request (R110). -/
def entryIdle (s : State) (e : Nat) : Bool :=
  (darkEntry s e).state.isReady && linkCount s e == 0 && !pauReads s e

/-- The older of two idle entries, the lower-numbered between equals. -/
def olderEntry (s : State) (best : Option Nat) (e : Nat) : Option Nat :=
  match best with
  | none => some e
  | some b => if darkAge s b < darkAge s e then some e else some b

/-- The idle entry a reclamation takes: the oldest (R90, R102). -/
def entryToReclaim (s : State) : Option Nat :=
  ((List.range Config.darkEntries).filter (entryIdle s)).foldl (olderEntry s) none

/-- The entry taken for a new plan: the lowest FREE entry, else the one reclaimed (R102). -/
def entryToPlan (s : State) : Option Nat :=
  match s.dark.entries.findIdx? (·.state == .free) with
  | some e => some e
  | none => entryToReclaim s

/-- The reuse age an entry takes from the shot it is planned from (R32, R103). -/
def reuseAgeOf (s : State) (r : Record) : Nat := ((rollOf s r).map (·.reuseAge)).getD 600

/-- An entry planned from a record (R103). That its duration is the shot's longest duration also where Table 6-1 does
not admit it, 0 or above 4,294,967,295, is the model's choice (log 42). -/
def planEntry (e : Nat) (r : Record) (s : State) : State :=
  let x : DarkEntry :=
    { state := .planned, duration := (longestDuration r).getD 0, plannedBand := (shotBand r).getD 0,
      reuseAge := reuseAgeOf s r }
  { s with dark := { entries := s.dark.entries.set e x, plan := s.dark.plan ++ [e] } }

/-- One shot still AWAITING linked to the entry just planned, when it matches it (R102). -/
def linkIfFits (e : Nat) (s : State) (n : Nat) : State :=
  match findRecord s n with
  | none => s
  | some r => if recordFits s e r then linkShot e s n else s

/-- The second step of a pass, at most `fuel` rounds (R102). -/
def planRounds : Nat → State → State
  | 0, s => s
  | fuel + 1, s =>
    match awaitingShots s, entryToPlan s with
    | n :: ns, some e =>
      match findRecord s n with
      | none => s
      | some r => planRounds fuel ((n :: ns).foldl (linkIfFits e) (planEntry e r (freeEntry e s)))
    | _, _ => s

/-- A matching pass (R102); none runs outside RUNNING (R111, log 31). A pass plans at most eight
entries. -/
def matchingPass (s : State) : State :=
  if s.part = .running then
    planRounds Config.darkEntries ((awaitingShots s).foldl matchShot s)
  else s

/-! ### Unlinking (R105 to R107, R109, R110) -/

/-- The shots LINKED to an entry, in ascending order. -/
def linkedShots (s : State) (e : Nat) : List Nat := shotsWhere s fun r => r.darkLink == .linked e

/-- A record whose reference has failed it: one more attempt, and AWAITING, or WAIVED at the third
(R107). -/
def Record.failDark (r : Record) : Record :=
  { r with
    darkAttempts := r.darkAttempts + 1
    darkLink := if 3 ≤ r.darkAttempts + 1 then .waived else .awaiting }

/-- A shot unlinked with one more attempt; the third raises DARK_GAVE_UP (R107). -/
def unlinkFailed (s : State) (n : Nat) : State :=
  let s := updateRecord n Record.failDark s
  if (findRecord s n).map Record.darkLink = some .waived then raiseShot .darkGaveUp n s else s

/-- A READY entry's expiry instant has passed (R110). -/
def entryExpired (s : State) (e : Nat) : Bool :=
  (darkEntry s e).state.isReady && decide ((darkEntry s e).reuseAge * 1000000 ≤ darkAge s e)

/-- A READY entry with no link and no RUNNING request whose expiry instant has passed becomes FREE (R110). -/
def freeIfExpired (e : Nat) (s : State) : State :=
  if entryExpired s e && entryIdle s e then freeEntry e s else s

/-- An entry that has lost a link (R109, R110): PLANNED with no link left becomes FREE; READY with no link
left becomes FREE when its expiry instant has passed; a pass then runs. That a READY entry is freed before the pass, so
that the pass may plan in it and matches no shot to it, is the model's choice (log 45). -/
def afterUnlink (e : Nat) (s : State) : State :=
  if linkCount s e = 0 then
    match (darkEntry s e).state with
    | .planned => matchingPass (freeEntry e s)
    | .ready _ _ _ => matchingPass (freeIfExpired e s)
    | _ => s
  else s

/-- A dark link given up (R165, R167): the link becomes WAIVED, a QUEUED request of the shot is removed, and
the entry is handled. -/
def giveUpDark (n : Nat) (s : State) : State :=
  match (findRecord s n).map Record.darkLink with
  | some .awaiting => updateRecord n (fun r => { r with darkLink := .waived }) s
  | some (.linked e) =>
    afterUnlink e (dropQueuedPau n (updateRecord n (fun r => { r with darkLink := .waived }) s))
  | _ => s

/-! ### Abandonment (R106) -/

/-- The entry that is EXPOSING. -/
def exposingEntry (s : State) : Option Nat := s.dark.entries.findIdx? fun x => x.state.isExposing

/-- The sequencer leaves DARK or DARK_READOUT for IDLE; a readout in progress is cut off (R106). -/
def leaveDark (s : State) : State :=
  let s := if s.seq.state = .darkReadout then readoutEnds s else s
  { s with seq := { s.seq with state := .idle, darkTimer := none } }

/-- An entry's shots unlinked with an attempt each, and the entry FREE (R106, R111). -/
def failEntry (e : Nat) (s : State) : State := freeEntry e ((linkedShots s e).foldl unlinkFailed s)

/-- The abandonment of the dark exposure (R106), but for the pass that follows. -/
def abandonDark (s : State) : State :=
  match exposingEntry s with
  | none => leaveDark s
  | some e =>
    let subject := (linkedShots s e).head?.map Subject.shot
    leaveDark (raise .darkAbandoned subject (failEntry e s))

/-! ### The dark exposure (R103) -/

/-- The dark exposure of the entry at the head of the plan queue starts in a plane (R103). -/
def enterDark (e p : Nat) (s : State) : State :=
  let x := darkEntry s e
  let s := setDarkEntry e { x with state := .exposing p } (setOwner p (.dark e) s)
  { s with
    dark := { s.dark with plan := s.dark.plan.filter (· != e) }
    pool := { s.pool with darkClaim := false }
    seq := { s.seq with
      state := .dark, darkTimer := some { start := s.timeBase, length := x.duration } } }

/-- The dark claim waits (R91). -/
def setDarkClaim (b : Bool) (s : State) : State := { s with pool := { s.pool with darkClaim := b } }

/-- Whether a dark exposure may start: IDLE, RUNNING (R103). -/
def mayEnterDark (s : State) : Bool := s.seq.state == .idle && s.part == .running

/-- A start of the dark exposure attempted; without a FREE plane the claim waits (R91, R103). -/
def attemptDark (s : State) : State :=
  if mayEnterDark s then
    match s.dark.plan.head?, (freePlanes s).head? with
    | some e, some p => enterDark e p s
    | some _, none => setDarkClaim true s
    | none, _ => setDarkClaim false s
  else s

/-- A dark claim that waits is served when a plane is FREE; it is withdrawn when the sequencer has left IDLE
or no PLANNED entry remains (R91). -/
def serveDarkClaim (s : State) : State :=
  if s.pool.darkClaim then
    if s.seq.state = .idle ∧ s.dark.plan ≠ [] then attemptDark s else setDarkClaim false s
  else s

/-! ### The end of a dark readout (R105) -/

/-- Whether a shot LINKED to an entry is of another band than the one measured. -/
def bandDiffers (band : Int) (e : Nat) (r : Record) : Bool :=
  r.darkLink == .linked e && shotBand r != some band

/-- One APPLY_DARK placed for a shot still LINKED (R105). -/
def applyTo (e : Nat) (s : State) (n : Nat) : State := placeApplyDark n e 0 s

/-- A good dark readout (R105). The entry whose reuse age is 0 is freed when no link is left (R110). That it is freed
before the pass, so that the pass may plan in it, is the model's choice (log 45). -/
def finishDark (temperature : Int) (s : State) : State :=
  match exposingEntry s with
  | none => leaveDark s
  | some e =>
    let x := darkEntry s e
    let band := bandOf temperature
    let s := setDarkEntry e { x with state := .ready band s.timeBase ((x.state.plane?).getD 0) } s
    let s := (shotsWhere s (bandDiffers band e)).foldl unlinkFailed s
    let s := leaveDark ((linkedShots s e).foldl (applyTo e) s)
    matchingPass (freeIfExpired e s)

end Sys2Proof.Machine
end

