-- ==== Sys2Proof/Machine/CardOps.lean ====
section
/-! DEFINITION. The card bus, the work in flight, the arbiter's choice of work, and what ends work
(Chapter 9). -/

namespace Sys2Proof.Machine

/-! ### The card bus (R144) -/

/-- The catalogue entry of a record as it stands, with a developed file in place of the record's
(R152, R154). -/
def entryBlock (s : State) (r : Record) (dev : Option DevFile) : List Byte :=
  liveBlock r dev (recipeAt s r.recipe)

/-- The block of a catalogue slot (R147). -/
def slotBlock (slot : Nat) : Nat := Config.clusterBlocks + slot

/-- The developed file a hand-off becomes (R154). -/
def Handoff.file (h : Handoff) (runs : List Run) : DevFile :=
  { runs := runs, key := h.key, width := h.width, height := h.height }

/-- The WRITE of the entry of a shot. -/
def entryCommand (s : State) (n : Nat) (dev : Record → Option DevFile) : CardCommand :=
  match findRecord s n with
  | none => .write 0 0 (.block [])
  | some r => .write (slotBlock (r.catSlot.getD 0)) 1 (.block (entryBlock s r (dev r)))

/-- Byte `i` of cluster `cluster` of a file of `length` bytes; beyond the file it is zero (R151, R153). -/
def clusterByte (length cluster : Nat) (byte : Nat → Byte) (i : Nat) : Byte :=
  let place := cluster * Config.clusterBytes + i
  if place < length then byte place else 0#8

/-- The bytes of a cluster of a file. -/
def clusterOf (length cluster : Nat) (byte : Nat → Byte) : List Byte :=
  (List.range Config.clusterBytes).map (clusterByte length cluster byte)

/-- The bytes a WRITE carries: of a raw, the 32-bit values of its plane in order (R151); of a rendition, its
bytes in order, which are free values (R153, log 14); of a catalogue cluster, EMPTY entries (R159). -/
def WriteData.bytes (m : Memory) : WriteData → List Byte
  | .block bs => bs
  | .rawCluster plane length cluster =>
    clusterOf length cluster fun i => Memory.read m (planeBase plane + i)
  | .renditionCluster seed length cluster => clusterOf length cluster (Config.renditionByte seed)
  | .emptyEntries => (List.replicate Config.clusterBlocks emptyBlock).flatten

/-- The next command of the work in flight (Table 9-2, Figure 9-2, R159). -/
def commandOf (s : State) : CardWork → CardCommand
  | .load _ slot => .read (slotBlock slot) 1
  | .fetch _ _ runs done => .read (clusterAt runs done * Config.clusterBlocks) Config.clusterBlocks
  | .rawWrite n done =>
    match findRecord s n with
    | none => .write 0 0 (.block [])
    | some r =>
      .write (clusterAt r.rawRuns done * Config.clusterBlocks) Config.clusterBlocks
        (.rawCluster (r.rawPlane.getD 0) (4 * sensorArea s) done)
  | .entryWrite n _ => entryCommand s n (·.devFile)
  | .developed h runs done entryPhase _ =>
    if entryPhase then entryCommand s h.shot fun _ => some (h.file runs)
    else
      .write (clusterAt runs done * Config.clusterBlocks) Config.clusterBlocks
        (.renditionCluster h.seed (3 * h.width * h.height) done)
  | .emptyWrite _ slot => .write (slotBlock slot) 1 (.block emptyBlock)
  | .dirtyRewrite n => entryCommand s n (·.devFile)
  | .identify => .identify
  | .header => .read 0 1
  | .catalogue done _ => .read ((1 + done) * Config.clusterBlocks) Config.clusterBlocks
  | .format step volumeId clusters =>
    if step < 2 then .write ((1 + step) * Config.clusterBlocks) Config.clusterBlocks .emptyEntries
    else .write 0 1 (.block (headerBlock volumeId clusters))

/-- The next command of the work in flight is issued when the bus is clear (R144). -/
def kick (s : State) : State :=
  match s.card.bus, s.card.work with
  | none, some w =>
    { s with card := { s.card with
      bus := some { command := commandOf s w, issued := s.timeBase, retried := false, orphan := false } } }
  | _, _ => s

/-- The bus is clear. -/
def clearBus (s : State) : State := { s with card := { s.card with bus := none } }

def setWork (w : Option CardWork) (s : State) : State := { s with card := { s.card with work := w } }

/-- The work in flight has ended with the command just answered. -/
def endWork (s : State) : State := setWork none (clearBus s)

/-- The work goes on with its next command. -/
def nextWork (w : CardWork) (s : State) : State := kick (setWork (some w) (clearBus s))

def setCardState (x : CardState) (s : State) : State := { s with card := { s.card with state := x } }

/-! ### The arbiter (R149 to R155) -/

/-- A work the arbiter may take. -/
inductive Choice where
  | read (r : CardRead)
  | entry (e : EntryWork)
  | developed (h : Handoff)
  | raw (r : Record)
  | dirty (n : Nat)
  deriving DecidableEq, Repr

/-- Which classes the card state starts (R149). -/
def CardState.starts : CardState → Nat → Bool
  | .ready, _ => true
  | .readOnly, c => c == 1
  | .ejecting, c => c == 2 || c == 5
  | _, _ => false

/-- Whether the record of a shot is ON_CARD. -/
def shotOnCard (s : State) (n : Nat) : Bool := (findRecord s n).any fun r => r.rawCard == .onCard

/-- The next developed write (R153). -/
def nextHandoff (s : State) : Option Handoff :=
  s.card.handoffs.find? fun h => !h.writing && !h.marked && shotOnCard s h.shot

/-- Whether a record may have its raw written (R151). -/
def rawEligible (s : State) (r : Record) : Bool :=
  r.life == .held && r.rawCard == .unwritten && r.darkLink.final && !pauRuns s r.number &&
  !s.card.marks.contains r.number && !s.card.index.any (·.shot == r.number)

/-- The next raw write: the lowest shot number (R151, Table 9-3). -/
def nextRaw (s : State) : Option Record := ((shotsWhere s (rawEligible s)).head?).bind (findRecord s)

/-- The next dirty rewrite (R155). -/
def nextDirty (s : State) : Option Nat :=
  (s.table.amended.find? fun a => !a.taken).bind fun a =>
    match findRecord s a.shot with
    | none => none
    | some r => if r.rawCard = .onCard ∧ r.life ≠ .retiring then some a.shot else none

/-- The first waiting work by class (Table 9-3). -/
def nextChoice (s : State) : Option Choice :=
  let pick (c : Nat) (x : Option Choice) : Option Choice := if s.card.state.starts c then x else none
  (pick 1 (s.card.reads.head?.map .read)) <|>
  (pick 2 (s.card.entries.head?.map .entry)) <|>
  (pick 3 ((nextHandoff s).map .developed)) <|>
  (pick 4 ((nextRaw s).map .raw)) <|>
  (pick 5 ((nextDirty s).map .dirty))

/-- The place of a shot in the amendment list is marked taken (R16, R152). -/
def markTaken (n : Nat) (s : State) : State :=
  { s with table := { s.table with
    amended := s.table.amended.map fun a => if a.shot == n then { a with taken := true } else a } }

/-- The full flag is set; CARD_FULL is raised when it was clear (R150). -/
def allocationFailed (shot : Nat) (s : State) : State :=
  let s := if s.card.full then s else raiseShot .cardFull shot s
  { s with card := { s.card with full := true } }

/-- A hand-off of the list changed. -/
def updateHandoff (h : Handoff) (f : Handoff → Handoff) (s : State) : State :=
  { s with card := { s.card with
    handoffs := s.card.handoffs.map fun x => if x.plane == h.plane then f x else x } }

/-- The clusters a rendition takes. -/
def Handoff.clusters (h : Handoff) : Nat := clustersFor (3 * h.width * h.height)

/-- A developed write is started, or its hand-off takes its room mark (R153). -/
def startDeveloped (h : Handoff) (s : State) : State :=
  match allocate s.card.map h.clusters with
  | none => allocationFailed h.shot (updateHandoff h (fun x => { x with marked := true }) s)
  | some (runs, left) =>
    let s := updateHandoff h (fun x => { x with writing := true }) s
    let s := updateRecord h.shot (fun r => { r with devPending := some h.key }) s
    setWork (some (.developed h runs 0 false false)) { s with card := { s.card with map := left } }

/-- A raw write is started, or its record takes its room mark (R151, R150). -/
def startRaw (r : Record) (s : State) : State :=
  match allocate s.card.map (clustersFor (4 * sensorArea s)), emptySlot s with
  | some (runs, left), some _ =>
    let s := updateRecord r.number (fun r =>
      { r with rawRuns := runs, rawCard := .writing, rawSize := (s.seq.columns, s.seq.rows) }) s
    setWork (some (.rawWrite r.number 0)) { s with card := { s.card with map := left } }
  | _, _ =>
    allocationFailed r.number { s with card := { s.card with marks := s.card.marks ++ [r.number] } }

/-- The first entry write of the pending list leaves it and is started (R152, R168). -/
def startEntry (e : EntryWork) (s : State) : State :=
  let s := { s with card := { s.card with entries := s.card.entries.tail } }
  match e with
  | .live n slot => setWork (some (.entryWrite n slot)) (markTaken n s)
  | .empty n slot => setWork (some (.emptyWrite n slot)) s

/-- The choice taken. A read stays in the read queue until it ends (R149). -/
def takeChoice (c : Choice) (s : State) : State :=
  match c with
  | .read (.load n slot) => setWork (some (.load n slot)) s
  | .read (.fetch n p runs) => setWork (some (.fetch n p runs 0)) s
  | .entry e => startEntry e s
  | .developed h => startDeveloped h s
  | .raw r => startRaw r s
  | .dirty n => setWork (some (.dirtyRewrite n)) (markTaken n s)

/-- The arbiter goes on to its next choice while an allocation fails (R151). -/
def chooseWork : Nat → State → State
  | 0, s => s
  | fuel + 1, s =>
    match s.card.work, nextChoice s with
    | none, some c => chooseWork fuel (takeChoice c s)
    | _, _ => s

/-- How many choices can fail: a hand-off for each plane, a record for each slot. -/
def choiceLimit : Nat := Config.planeCount + Config.recordSlots + 1

/-- A start attempted (R149); nothing is issued while a command is on the bus (R144, R160). That no work is chosen
either until a command of abandoned work is answered is the model's choice (log 25). -/
def startCardWork (s : State) : State :=
  if s.card.bus.isNone then kick (chooseWork choiceLimit s) else s

/-! ### What ends reads (R19, R119) -/

/-- A load fails: its slot becomes FREE and its waiters are answered (R19, R21). -/
def failLoad (result : ResultCode) (s : State) (n : Nat) : State :=
  match s.table.slots.findIdx? (RecordSlot.loads n) with
  | none => s
  | some i =>
    let tags := match s.table.slots.getD i .free with
      | .loading _ ws => ws.map (·.tag)
      | _ => []
    answerAll tags result (setSlot i .free s)

/-- The shots whose load reads stand in a list of reads. -/
def loadsOf (rs : List CardRead) : List Nat :=
  rs.filterMap fun
    | .load n _ => some n
    | _ => none

/-- The shots of the slots that are LOADING, by slot. -/
def loadingShots (s : State) : List Nat :=
  s.table.slots.filterMap fun
    | .loading n _ => some n
    | _ => none

/-- Reads leave the read queue refused or failed: loads fail, the fetch job returns to QUEUED
(R19, R119, R145, R157). -/
def refuseReads (rs : List CardRead) (result : ResultCode) (s : State) : State :=
  let s := (loadsOf rs).foldl (failLoad result) s
  let s := if rs.any CardRead.isFetch then requeueRunning s else s
  { s with card := { s.card with reads := s.card.reads.filter fun r => !rs.contains r } }

/-- Every load fails, those of the read queue first (log 23). -/
def failAllLoads (result : ResultCode) (s : State) : State :=
  let s := (loadsOf s.card.reads).foldl (failLoad result) s
  (loadingShots s).foldl (failLoad result) s

/-- Every read ends: loads fail with the code, the fetch job returns to QUEUED. -/
def endReads (result : ResultCode) (s : State) : State :=
  let fetch := s.card.reads.any CardRead.isFetch
  let s := failAllLoads result s
  let s := if fetch then requeueRunning s else s
  { s with card := { s.card with reads := [] } }

/-! ### Records that go back or go (R156) -/

/-- A record back to UNWRITTEN, off the amendment list (R15, R156 step 2). -/
def Record.unwrite (r : Record) : Record :=
  { r with rawCard := .unwritten, catSlot := none, rawRuns := [], devFile := none, devPending := none,
           dirty := false }

/-- Whether a record is HELD and has begun to reach the card. -/
def Record.heldOnWay (r : Record) : Bool := r.life == .held && r.rawCard != .unwritten

/-- The records that `goes` picks return to UNWRITTEN, and their hand-offs to WAITING (R156 step 2). -/
def returnRecords (goes : Record → Bool) (s : State) : State :=
  let shots := shotsWhere s goes
  let s := updateRecords (fun r => if goes r then r.unwrite else r) s
  { s with
    table := { s.table with amended := s.table.amended.filter fun a => !shots.contains a.shot }
    card := { s.card with
      handoffs := s.card.handoffs.map fun h =>
        if h.writing && shots.contains h.shot then { h with writing := false, marked := false } else h } }

/-- The HELD records return to UNWRITTEN (R156 step 2). -/
def returnHeld (s : State) : State := returnRecords Record.heldOnWay s

/-- The hand-offs of a shot leave the list and their planes are freed (R153). -/
def freeHandoffs (n : Nat) (s : State) : State :=
  let planes := (s.card.handoffs.filter fun h => h.shot == n).map (·.plane)
  planes.foldl (fun s p => setOwner p .free s)
    { s with card := { s.card with handoffs := s.card.handoffs.filter fun h => h.shot != n } }

/-- One record dropped (R156 step 3). -/
def dropRecord (s : State) (n : Nat) : State := removeRecord n (freeHandoffs n (removeJobs n .noCard s))

def settledShots (s : State) : List Nat := shotsWhere s fun r => r.life == .settled

/-- Whether a number is carried by no resident record. -/
def notResident (s : State) (n : Nat) : Bool := (findRecord s n).isNone

/-- Every SETTLED record dropped; the slots of the dropped and of evicted numbers are treated
(R156 step 3, R140). -/
def dropSettled (s : State) : State :=
  let s := (settledShots s).foldl dropRecord s
  leaveSlots (notResident s) s

/-- The SETTLED records that are dirty. -/
def dirtySettled (s : State) : List Nat := shotsWhere s fun r => r.life == .settled && r.dirty

/-- AMEND_LOST raised with a count, when there is one (R156). -/
def raiseAmendLost (lost : List Nat) (s : State) : State :=
  match lost with
  | [] => s
  | n :: _ => raiseCount .amendLost (some (.shot n)) lost.length s

/-- The index, DAMAGED set and map emptied. -/
def emptyIndex (s : State) : State :=
  { s with card := { s.card with indexHeld := false, index := [], damaged := [], map := [] } }

/-- A waiting request answered, when there is one. -/
def answerWaiting (tag : Option Nat) (result : ResultCode) (s : State) : State :=
  match tag with
  | none => s
  | some t => answerCode t result s

/-- The outstanding CARD_EJECT and CARD_FORMAT are answered. -/
def answerCardTags (result : ResultCode) (s : State) : State :=
  let s := answerWaiting s.card.formatTag result (answerWaiting s.card.ejectTag result s)
  { s with card := { s.card with ejectTag := none, formatTag := none, formatWait := none } }

end Sys2Proof.Machine
end

