-- ==== Sys2Proof/Machine/Service.lean ====
section
/-! DEFINITION. What follows an event inside the part, in the same event: the waiting claims are served, the
engine attempts a dispatch, the Card Store attempts a start, and an eject that has drained ends (R91, R116,
R149, R157; log 8). -/

namespace Sys2Proof.Machine

/-- The drain is complete: no work in flight and nothing in classes 2 and 5 (R157). That it also waits for the answer to
a command of abandoned work that is still on the bus is the model's choice (log 25). -/
def drained (s : State) : Bool :=
  s.card.state == .ejecting && s.card.work.isNone && s.card.bus.isNone && s.card.entries.isEmpty &&
  (nextDirty s).isNone

/-- The end of the drain (R157). -/
def finishDrain (s : State) : State :=
  let s := emptyIndex (dropSettled (returnHeld s))
  let tag := s.card.ejectTag
  answerWaiting tag .ok
    { s with card := { s.card with state := .ejected, volume := none, ejectTag := none } }

/-- While the sequencer is IDLE and an entry is PLANNED, the dark claim waits for want of a FREE plane
(R91, R103); with one FREE the start is DARK_EXPOSURE_START's (log 7). -/
def claimForDark (s : State) : State :=
  if mayEnterDark s && !s.dark.plan.isEmpty && (freePlanes s).isEmpty then setDarkClaim true s else s

/-- The claims served, the dispatch and the card start attempted. -/
def serveBlocks (s : State) : State :=
  claimForDark (startCardWork (attemptDispatch (serveDarkClaim s)))

/-- What follows an event in the same event (log 8). -/
def service (s : State) : State :=
  let s := serveBlocks s
  if drained s then serveBlocks (finishDrain s) else s

/-- The work R179 names for the event in which the part state becomes RUNNING: a matching pass (R102), and
what follows an event. The dark exposure itself is a step of its own (log 7). -/
def enterRunning (s : State) : State := service (matchingPass { s with part := .running })

end Sys2Proof.Machine
end

