-- ==== Sys2Proof/Machine/Sequencer.lean ====
section
/-! DEFINITION. The claims of record slots (R2 to R5) and the Exposure Sequencer: starts, edges, the readout
and the finish of a shot (Chapter 4). -/

namespace Sys2Proof.Machine

/-! ### Record slots (R2, R4, R5) -/

/-- Whether a resident record is evictable (R4). -/
def evictable (s : State) (r : Record) : Bool :=
  r.life == .settled && !r.dirty && !s.dev.queue.any (·.shot == r.number) && !pauNames s r.number &&
  !s.card.handoffs.any (·.shot == r.number) && r.devPending.isNone

def slotEvictable (s : State) (i : Nat) : Bool := (s.table.slots.getD i .free).record?.any (evictable s)

/-- The slot a claim is met with: the lowest FREE slot, else that of the least recently used evictable
record (R2). -/
def slotToClaim (s : State) : Option Nat :=
  match s.table.slots.findIdx? (· == .free) with
  | some i => some i
  | none => s.table.useOrder.find? (slotEvictable s)

/-- The record in a slot, when there is one, is evicted (R5, R140). -/
def evictSlot (i : Nat) (s : State) : State :=
  match (s.table.slots.getD i .free).record? with
  | none => s
  | some r =>
    mapSlots (PreviewSlot.evict r.number (currentKey s r.recipe)) (leaveUseOrder i (setSlot i .free s))

/-! ### The open shot -/

def openRecord (s : State) : Option Record := s.seq.openShot.bind (findRecord s)

/-- The open shot's record changed. -/
def updateOpen (f : Record → Record) (s : State) : State :=
  match s.seq.openShot with
  | none => s
  | some n => updateRecord n f s

/-- The current exposure entry of the open shot changed. -/
def updateEntry (f : ExpEntry → ExpEntry) (s : State) : State :=
  updateOpen (Record.setEntry s.seq.k f) s

def currentEntry (s : State) : Option ExpEntry := (openRecord s).bind fun r => r.exposures[s.seq.k - 1]?

/-- The sequencer in IDLE with no open shot and every timer stopped (R62, R63). -/
def Seq.idled (q : Seq) : Seq :=
  { q with
    state := .idle, openShot := none, k := 0, ending := none, armTimer := none, maxOpen := none,
    timed := none, settle := none, stackWindow := none, darkTimer := none }

def idleSeq (s : State) : State := { s with seq := s.seq.idled }

/-- The scratch plane, if held, is freed (R84). -/
def freeScratch (s : State) : State :=
  let p := s.seq.scratch
  releasePlane p { s with seq := { s.seq with scratch := none } }

/-! ### Planes for the sequencer (R90) -/

/-- The plane a sequencer claim is met with, and the entry reclaimed for it. -/
def seqPlane (s : State) : Option (Nat × Option Nat) :=
  match (freePlanes s).head? with
  | some p => some (p, none)
  | none =>
    match entryToReclaim s with
    | none => none
    | some e => (darkEntry s e).state.plane?.map fun p => (p, some e)

/-- The plane passes to its new owner; a reclaimed entry becomes FREE in the same event (R90). -/
def takeSeqPlane (c : Nat × Option Nat) (o : Owner) (s : State) : State :=
  let s := setOwner c.1 o s
  match c.2 with
  | none => s
  | some e => setDarkEntry e .free s

/-- The pass that follows a reclamation (R102, R110). -/
def passAfterReclaim (c : Nat × Option Nat) (s : State) : State :=
  if c.2.isSome then matchingPass s else s

/-! ### Starts (R67 to R73) -/

/-- The three kinds of start (R67). -/
inductive Start where
  | release
  | fire
  | timed (duration : Nat)
  deriving DecidableEq, Repr

def Start.isTimed : Start → Bool
  | .timed _ => true
  | _ => false

/-- ARMED is entered, or its arm window restarted (R70, R71). -/
def arm (roll : Roll) (s : State) : State :=
  { s with seq := { s.seq with
    state := .armed, armTimer := some { start := s.timeBase, length := roll.armWindow * 100000 } } }

/-- A pulse request (R54). -/
def requestPulse (s : State) : State :=
  { s with sync := { s.sync with
    pulseEnd := some (s.timeBase + BitVec.ofNat 48 (s.sync.reloutWidth * 1000)) } }

/-- Wall time of a Time Base value (R58). -/
def wallOf (s : State) (t : Time) : Int := (t.toNat : Int) + s.wallOffset

/-- Entry k becomes INTEGRATING; for k equal to 1 taken-at is set (R74, R78, R12). -/
def openEntry (t : Time) (s : State) : State :=
  let s := updateEntry (fun e => { e with status := .integrating, openTime := some t }) s
  if s.seq.k = 1 then updateOpen (fun r => { r with takenAt := some (wallOf s t) }) s else s

/-- OPEN is entered by a TIMED start (R78). -/
def openTimed (duration : Nat) (s : State) : State :=
  let s := openEntry s.timeBase s
  { s with seq := { s.seq with
    state := .opened, timed := some { start := s.timeBase, length := duration } } }

/-- The exposure an accepted start begins (R70, R73). -/
def beginExposure (k : Start) (roll : Roll) (s : State) : State :=
  match k with
  | .release => arm roll s
  | .fire => requestPulse (arm roll s)
  | .timed d => openTimed d s

/-- A new exposure entry (Table 1-3). -/
def newEntry (index : Nat) : ExpEntry := { index := index, status := .waiting }

/-- The record a start creates (Table 1-2). -/
def newRecord (s : State) (rollSlot : Nat) (roll : Roll) (plane : Nat) : Record :=
  { number := s.table.counter, former := none, life := .opened, rollSlot := some rollSlot,
    label := roll.label, frame := roll.nextFrame, kind := roll.defaultKind,
    exposures := [newEntry 1], takenAt := none, recipe := roll.defaultRecipe,
    darkLink := .notRequired, darkAttempts := 0, rawCard := .unwritten, catSlot := none, rawRuns := [],
    devFile := none, devPending := none, rating := 0, protect := false, dirty := false,
    rawPlane := some plane, rawSize := (0, 0), retireTag := none }

/-- The next frame of the roll steps by one; ROLL_FULL is raised when that makes it full (R31). -/
def stepFrame (rollSlot : Nat) (roll : Roll) (shot : Nat) (s : State) : State :=
  let s := updateRoll rollSlot (fun r => { r with nextFrame := r.nextFrame + 1 }) s
  if roll.nextFrame = roll.frameLimit then raiseShot .rollFull shot s else s

/-- The creation of a shot in a record slot, with the plane claimed (R70). -/
def createShot (k : Start) (rollSlot : Nat) (roll : Roll) (slot : Nat) (c : Nat × Option Nat)
    (s : State) : State :=
  let n := s.table.counter
  let r := newRecord s rollSlot roll c.1
  let s := takeSeqPlane c (.shotRaw n) (touchSlot slot (setSlot slot (.inUse r) s))
  let s := stepFrame rollSlot roll n { s with table := { s.table with counter := n + 1 } }
  let s := { s with seq := { s.seq with openShot := some n, k := 1 } }
  passAfterReclaim c (beginExposure k roll s)

/-- Checks 4 and 5 of a start in IDLE, and the creation (R69, R70). -/
def claimStart (k : Start) (rollSlot : Nat) (roll : Roll) (s : State) : ResultCode × State :=
  match slotToClaim s with
  | none => (.noRecord, s)
  | some i =>
    if Config.counterEnd ≤ s.table.counter then (.noRecord, s)
    else
      let s := evictSlot i s
      match seqPlane s with
      | none => (.noPlane, s)
      | some c => (.ok, createShot k rollSlot roll i c s)

/-- A start in IDLE (R69). -/
def startIdle (k : Start) (s : State) : ResultCode × State :=
  match s.rolls.current, currentRoll s with
  | some i, some roll =>
    if k.isTimed && !roll.sources.timed then (.badOperand, s)
    else if roll.frameLimit < roll.nextFrame then (.rollFull, s)
    else claimStart k i roll s
  | _, _ => (.noRoll, s)

/-- A start in DARK or DARK_READOUT (R72, R106). Under YIELD the plane released is served to the engine claim,
when it waits, before the start is decided (R91, log 39). With no claim waiting, the dispatch that the end of a dark
readout attempts (R121) comes after the start (log 39). -/
def startDark (k : Start) (s : State) : ResultCode × State :=
  match currentRoll s with
  | none => (.noRoll, s)
  | some roll =>
    if k.isTimed && !roll.sources.timed then (.badOperand, s)
    else
      match roll.darkYield with
      | .hold => (.darkBusy, s)
      | .yield => startIdle k (serveEngineClaim (matchingPass (abandonDark s)))

/-- A start in ARMED (R71). -/
def startArmed (k : Start) (s : State) : ResultCode × State :=
  match k, currentRoll s with
  | .release, some roll => (.ok, arm roll s)
  | .fire, some roll => (.ok, requestPulse (arm roll s))
  | _, _ => (.busy, s)

/-- The next exposure of a stack begun (R73). -/
def nextExposure (k : Start) (roll : Roll) (s : State) : State :=
  let s := updateOpen (fun r => { r with exposures := r.exposures ++ [newEntry (s.seq.k + 1)] }) s
  beginExposure k roll { s with seq := { s.seq with k := s.seq.k + 1, stackWindow := none } }

/-- A start in STACK_WAIT (R73). -/
def startStack (k : Start) (s : State) : ResultCode × State :=
  match currentRoll s with
  | none => (.noRoll, s)
  | some roll =>
    if k.isTimed && !roll.sources.timed then (.badOperand, s)
    else if s.seq.scratch.isSome then (.ok, nextExposure k roll s)
    else
      match seqPlane s with
      | none => (.noPlane, s)
      | some c =>
        let s := takeSeqPlane c .seqScratch s
        (.ok, passAfterReclaim c
          (nextExposure k roll { s with seq := { s.seq with scratch := some c.1 } }))

/-- A start decided in the state it finds (R69, R71 to R73). -/
def decideStart (k : Start) (s : State) : ResultCode × State :=
  match s.seq.state with
  | .idle => startIdle k s
  | .armed => startArmed k s
  | .stackWait => startStack k s
  | .dark => startDark k s
  | .darkReadout => startDark k s
  | _ => (.busy, s)

/-- A refused release raises RELEASE_REFUSED with its reason (R67). -/
def release (s : State) : State :=
  let d := decideStart .release s
  if d.1 = .ok then d.2 else raise .releaseRefused (some (.reason d.1)) d.2

/-! ### The finish (R84) -/

/-- The dark link the policy gives (R33). -/
def policyLink (p : DarkPolicy) (longest : Nat) : DarkLink :=
  match p with
  | .always => .awaiting
  | .never => .notRequired
  | .above t => if t < longest then .awaiting else .notRequired

/-- A finished record (R84 steps 2 and 3). -/
def finishedRecord (s : State) (r : Record) : Record :=
  { r with
    life := .held
    darkLink := match rollOf s r with
      | none => r.darkLink
      | some roll => policyLink roll.darkPolicy ((longestDuration r).getD 0) }

/-- An auto job placed when its setting is ON (R84 step 5). -/
def autoJob (n : Nat) (k : JobKind) (setting : Option Nat) (s : State) : State :=
  match setting with
  | none => s
  | some p => placeJob n k p none s

def autoJobs (n : Nat) (roll : Option Roll) (s : State) : State :=
  autoJob n .full (roll.bind (·.autoFull)) (autoJob n .preview (roll.bind (·.autoPreview)) s)

/-- The open shot becomes HELD with the dark link its policy gives, and the scratch plane is freed
(R84 steps 1 to 3, R85). -/
def holdShot (s : State) : State :=
  let s := freeScratch s
  updateOpen (finishedRecord s) s

/-- The finish of a shot (R84). -/
def finishShot (s : State) : State :=
  match s.seq.openShot, openRecord s with
  | some n, some r =>
    let roll := rollOf s r
    idleSeq (autoJobs n roll (raiseShot .exposureDone n (matchingPass (holdShot s))))
  | _, _ => s

/-- The next frame of the current roll steps down by one (R31). -/
def giveFrameBack (s : State) : State :=
  match s.rolls.current with
  | none => s
  | some i => updateRoll i (fun r => { r with nextFrame := r.nextFrame - 1 }) s

/-- The OPEN record removed, its plane freed and its frame given back (R75, R85). -/
def removeOpen (s : State) : State :=
  match openRecord s with
  | none => idleSeq (freeScratch s)
  | some r => idleSeq (giveFrameBack (releasePlane r.rawPlane (removeRecord r.number (freeScratch s))))

/-! ### Edges (R74, R76, R79) -/

/-- An exposure closed at a time: SETTLE is entered (R76 to R78). The duration is R56's difference modulo 2^48 also when
the back-dated time of an AUX end lies before the open time; it then exceeds the bound of Table 1-3, and the entry keeps
it as it is (the model's choice, log 41). -/
def closeEntry (t : Time) (source : TimeSource) (cause : EndingCause) (truncated : Bool) (s : State) :
    State :=
  let s := updateEntry (fun e =>
    { e with
      closeTime := some t
      duration := some ((t - e.openTime.getD 0#48).toNat)
      source := some source
      truncated := e.truncated || truncated }) s
  { s with seq := { s.seq with
    state := .settle, ending := some cause, timed := none
    settle := some
      { start := s.timeBase, length := ((currentRoll s).map (·.settleDelay)).getD 0 * 100 } } }

/-- Whether an AUX end is the end event (R76). -/
def endsByAux (s : State) : Bool :=
  s.sync.auxRole == .finish && (currentRoll s).any (·.sources.auxEnd)

/-- Whether the open exposure is TIMED (R78). -/
def timedOpen (s : State) : Bool := s.seq.timed.isSome

/-- The exposure opens (R74). -/
def openBySync (t : Time) (roll : Roll) (s : State) : State :=
  let s := openEntry t s
  { s with seq := { s.seq with
    state := .opened, armTimer := none
    maxOpen := some { start := t, length := roll.maxOpen * 1000000 } } }

/-- The exposure reopens under EXTEND (R79). -/
def reopen (s : State) : State :=
  let s := updateEntry (fun e => { e with closeTime := none, duration := none, source := none }) s
  { s with seq := { s.seq with state := .opened, settle := none, ending := none } }

/-- An XSYNC close (R74, R79, Table 4-4). -/
def xsyncClose (t : Time) (s : State) : State :=
  match s.seq.state, currentRoll s with
  | .armed, some roll => if roll.sources.xsync then openBySync t roll s else s
  | .settle, some roll =>
    if roll.reclose = .extend ∧ s.seq.ending = some .xsyncOpening ∧ s.seq.maxOpen.isSome then reopen s
    else s
  | _, _ => s

/-- An XSYNC opening (R76, Table 4-4). -/
def xsyncOpening (t : Time) (s : State) : State :=
  if s.seq.state = .opened ∧ timedOpen s = false ∧ endsByAux s = false then
    closeEntry t .xsync .xsyncOpening false s
  else s

/-- An AUX end (R76, Table 4-4). -/
def auxEnd (t : Time) (s : State) : State :=
  if s.seq.state = .opened ∧ timedOpen s = false ∧ endsByAux s = true then
    closeEntry t .auxEnd .auxEnd false s
  else s

/-! ### Readouts (R64, R65, R80, R82) -/

/-- A readout begins (R64, R66). -/
def beginReadout (x : SeqState) (s : State) : State :=
  readoutBegins { s with seq := { s.seq with state := x, samples := 0 } }

/-- The destination plane of the readout in progress (R64). -/
def readoutPlane (s : State) : Option Nat :=
  match s.seq.state with
  | .readout => if s.seq.k ≤ 1 then (openRecord s).bind (·.rawPlane) else s.seq.scratch
  | .darkReadout => (exposingEntry s).bind fun e => (darkEntry s e).state.plane?
  | _ => none

/-- The three tests of R65. -/
def readoutGood (s : State) (good : Bool) (columns rows : Nat) : Bool :=
  good && columns == s.seq.columns && rows == s.seq.rows && s.seq.samples == sensorArea s

/-- STACK_WAIT is entered (R80, R81). -/
def waitForStack (s : State) : State :=
  { s with seq := { s.seq with
    state := .stackWait, ending := none
    stackWindow := some
      { start := s.timeBase, length := ((currentRoll s).map (·.stackWindow)).getD 0 * 1000000 } } }

/-- ACCUMULATE is entered and its request placed (R80, R92). -/
def requestAccumulate (s : State) : State :=
  let q : PauRequest :=
    { op := .accumulate, shot := s.seq.openShot.getD 0, source := s.seq.scratch.getD 0,
      destination := ((openRecord s).bind (·.rawPlane)).getD 0, resume := 0, running := false,
      scale := 0 }
  joinPau q { s with seq := { s.seq with state := .accumulate, ending := none } }

/-- A good readout of exposure k (R80). -/
def goodReadout (temperature : Int) (s : State) : State :=
  let s := readoutEnds (updateEntry (fun e =>
    { e with status := .done, temperature := some temperature }) s)
  if 1 < s.seq.k then requestAccumulate s
  else
    match (openRecord s).map Record.kind with
    | some (.stack _) => waitForStack s
    | _ => finishShot s

/-- The open shot becomes VOID (R82, R8, R17). -/
def voidShot (s : State) : State :=
  match openRecord s with
  | none => idleSeq s
  | some r =>
    let s := releasePlane r.rawPlane (updateOpen (fun r => { r with life := .void, rawPlane := none }) s)
    idleSeq (raiseShot .shotVoid r.number s)

/-- A readout of exposure k in error (R82). -/
def failedReadout (s : State) : State :=
  let s := readoutEnds (updateEntry (fun e => { e with status := .failed }) s)
  if 1 < s.seq.k then finishShot s else voidShot s

/-- A dark readout in error: the abandonment and its pass (R104, R106). -/
def failedDark (s : State) : State := matchingPass (abandonDark s)

end Sys2Proof.Machine
end

