-- ==== Sys2Proof/Machine/Retire.lean ====
section
/-! DEFINITION. Looking up, amending and retiring a resident record, and the loads that bring one in
(Sections 1.3, 1.5, Chapter 10). -/

namespace Sys2Proof.Machine

/-! ### Looking up (R25) -/

/-- What SHOT_LOOKUP reports of a record (R25). -/
def shotView (s : State) (r : Record) : ShotView :=
  { number := r.number, former := r.former, life := r.life, rollSlot := r.rollSlot, label := r.label,
    frame := r.frame, kind := r.kind, takenAt := r.takenAt, recipe := r.recipe,
    key := currentKey s r.recipe, darkLink := r.darkLink, darkAttempts := r.darkAttempts,
    rawCard := r.rawCard, catSlot := r.catSlot, rawRunCount := r.rawRuns.length,
    devKey := r.devFile.map (·.key), devPending := r.devPending, rating := r.rating,
    protect := r.protect, dirty := r.dirty, exposures := r.exposures }

/-- A resident record looked up: answered, and most recently used (R25, R3). -/
def lookupResident (tag : Nat) (r : Record) (s : State) : State :=
  touchRecord r.number (answer tag .ok (.shot (shotView s r)) s)

/-! ### Amending (R163 to R165) -/

/-- Whether a named item differs from what the record holds (R164). -/
def amendChanges (o : AmendOperands) (r : Record) : Bool :=
  o.rating.any (· != r.rating) || o.protect.any (fun p => (p == 1) != r.protect) ||
  o.recipe.any (· != r.recipe)

/-- The record with each named item at its new value (R164). -/
def amendRecord (o : AmendOperands) (r : Record) : Record :=
  { r with
    rating := o.rating.getD r.rating
    protect := (o.protect.map (· == 1)).getD r.protect
    recipe := o.recipe.getD r.recipe }

/-- Whether the entry write of a shot is in flight (R164). -/
def entryInFlight (s : State) (n : Nat) : Bool :=
  match s.card.work with
  | some (.entryWrite m _) => m == n
  | _ => false

/-- Whether a change to a record is one the entry on the card, or the entry being written, does not carry
(R164). -/
def dirties (s : State) (r : Record) : Bool :=
  match r.rawCard with
  | .onCard => true
  | .cataloguing => entryInFlight s r.number
  | _ => false

/-- The dirty flag set, and the record at the end of the amendment list, not taken (R16). -/
def makeDirty (n : Nat) (s : State) : State :=
  let s := updateRecord n (fun r => { r with dirty := true }) s
  { s with table := { s.table with
    amended := (s.table.amended.filter (·.shot != n)) ++ [{ shot := n, taken := false }] } }

/-- The refusal of an amendment of a resident record, if it is refused (R163). -/
def amendRefusal (s : State) (r : Record) (o : AmendOperands) : Option ResultCode :=
  if r.life = .retiring then some .busy
  else if r.life = .opened ∧ (o.recipe.isSome ∨ o.waiveDark = true) then some .busy
  else if r.rawCard = .onCard ∧ writeProtected s = true ∧ amendChanges o r = true then some .cardReadOnly
  else none

/-- The change of an accepted amendment (R164, R165). One that sets the dirty flag, or finds it set and keeps it,
moves the record to the end of the amendment list (R16). -/
def applyAmend (r : Record) (o : AmendOperands) (s : State) : State :=
  let dirty := r.dirty || (amendChanges o r && dirties s r)
  let s := updateRecord r.number (amendRecord o) s
  let s := if dirty then makeDirty r.number s else s
  if o.waiveDark then giveUpDark r.number s else s

/-- What an OK SHOT_AMEND reports (R163). -/
def amendReport (s : State) (r : Record) : AmendReport :=
  { number := r.number, rating := r.rating, protect := r.protect, recipe := r.recipe,
    key := currentKey s r.recipe, darkLink := r.darkLink, dirty := r.dirty }

/-- A resident record amended, or the request refused (R163); the record is most recently used either way
(R3, log 20). -/
def amendResident (tag : Nat) (r : Record) (o : AmendOperands) (s : State) : State :=
  let s := touchRecord r.number s
  match amendRefusal s r o with
  | some code => answerCode tag code s
  | none =>
    let s := applyAmend r o s
    match findRecord s r.number with
    | none => s
    | some r => answer tag .ok (.amended (amendReport s r)) s

/-! ### Retiring (R166 to R168) -/

/-- Whether the record's raw, or its entry, is on its way onto the card or there (R166). -/
def Record.onCardSide (r : Record) : Bool :=
  r.life == .settled || (r.life == .held && (r.rawCard == .onCard || r.rawCard == .cataloguing))

/-- The refusal of a retirement, if it is refused (R166). -/
def retireRefusal (s : State) (r : Record) : Option ResultCode :=
  if r.protect then some .protectedShot
  else if r.life = .opened ∨ r.life = .retiring then some .busy
  else if r.onCardSide = true ∧ writeProtected s = true then some .cardReadOnly
  else if r.onCardSide = true ∧ s.card.state = .faulted then some .cardError
  else none

/-- The link of a record that retires (R167 step 3). -/
def DarkLink.retired : DarkLink → DarkLink
  | .awaiting => .waived
  | .linked _ => .waived
  | l => l

/-- The RETIRING record (R167). -/
def Record.retire (tag : Nat) (r : Record) : Record :=
  { r with
    life := .retiring, darkLink := r.darkLink.retired, rawPlane := none, dirty := false,
    retireTag := some tag }

/-- A developed write of the shot in its data phase stops after the command on the bus (R153). -/
def stopDeveloped (n : Nat) (s : State) : State :=
  match s.card.work with
  | some (.developed h runs done false stopped) =>
    setWork (some (.developed h runs done false (stopped || h.shot == n))) s
  | _ => s

/-- An entry whose last request has ended is freed when it is idle and its expiry instant has passed
(R109). -/
def requestEnded (e : Nat) (s : State) : State :=
  if entryExpired s e && entryIdle s e then matchingPass (freeEntry e s) else s

/-- The dark entry a RUNNING request of a shot names. -/
def entryRead (s : State) (n : Nat) : Option Nat :=
  match runningPau s with
  | some { op := .applyDark e, shot := m, .. } => if m = n then some e else none
  | _ => none

/-- The PAU requests of a retired shot, its link, and the entries they named (R167 steps 2 and 3). -/
def leaveDarkUnit (n : Nat) (link : DarkLink) (s : State) : State :=
  let read := entryRead s n
  let s := abandonPau n s
  let s := match link with
    | .linked e => afterUnlink e s
    | _ => s
  match read with
  | none => s
  | some e => requestEnded e s

/-- What other blocks hold of a retired shot is taken from them (R167). -/
def takeFromBlocks (r : Record) (s : State) : State :=
  let n := r.number
  let s := leaveDarkUnit n r.darkLink (removeJobs n .abandoned s)
  let s := leaveSlots (· == n) (releasePlane r.rawPlane s)
  let s := leaveAmended n (freeHandoffs n (stopDeveloped n s))
  { s with card := { s.card with marks := s.card.marks.filter (· != n) } }

/-- A pending entry write joins the list (R151, R168). -/
def joinEntries (e : EntryWork) (s : State) : State :=
  { s with card := { s.card with entries := s.card.entries ++ [e] } }

/-- A retirement ends: the record is removed and the request answered (R168, R169). -/
def endRetirement (result : ResultCode) (s : State) (n : Nat) : State :=
  let tag := (findRecord s n).bind (·.retireTag)
  answerWaiting tag result (removeRecord n s)

/-- How a retirement goes on by the raw card state (R168). -/
def continueRetirement (r : Record) (s : State) : State :=
  match r.rawCard with
  | .unwritten => endRetirement .ok s r.number
  | .onCard => joinEntries (.empty r.number (r.catSlot.getD 0)) s
  | _ => s

/-- An accepted SHOT_RETIRE (R167, R168). -/
def acceptRetire (tag : Nat) (r : Record) (s : State) : State :=
  let s := updateRecord r.number (Record.retire tag) s
  continueRetirement r (takeFromBlocks r s)

/-- A resident record retired, or the request refused (R166); the record is most recently used either way
(R3, log 20). -/
def retireResident (tag : Nat) (r : Record) (s : State) : State :=
  let s := touchRecord r.number s
  match retireRefusal s r with
  | some code => answerCode tag code s
  | none => acceptRetire tag r s

/-! ### Loads (R18, R20, R21) -/

/-- A request on a resident record. -/
def onResident (tag : Nat) (q : LoadRequest) (r : Record) (s : State) : State :=
  match q with
  | .lookup => lookupResident tag r s
  | .amend o => amendResident tag r o s
  | .retire => retireResident tag r s

/-- A request joins the waiting list of a load. -/
def RecordSlot.addWaiter (n : Nat) (w : LoadWaiter) : RecordSlot → RecordSlot
  | .loading m ws => if m = n then .loading m (ws ++ [w]) else .loading m ws
  | x => x

/-- A request joins the load of its shot (R18 test 3). -/
def joinLoad (n : Nat) (w : LoadWaiter) (s : State) : State :=
  { s with table := { s.table with slots := s.table.slots.map (RecordSlot.addWaiter n w) } }

/-- A load starts: its slot becomes LOADING and its read joins the read queue (R18). -/
def startLoad (i n slot : Nat) (w : LoadWaiter) (s : State) : State :=
  joinReads (.load n slot) (setSlot i (.loading n [w]) (evictSlot i s))

def indexEntry (s : State) (n : Nat) : Option IndexEntry := s.card.index.find? (·.shot == n)

/-- A request for a number that no resident record carries (R18). -/
def requestLoad (tag n : Nat) (q : LoadRequest) (s : State) : State :=
  if s.card.state.readable = false then answerCode tag .noCard s
  else
    match indexEntry s n with
    | none => answerCode tag .notFound s
    | some x =>
      if loadingFor s n then joinLoad n { tag, request := q } s
      else if Config.readQueueMax ≤ s.card.reads.length then answerCode tag .busy s
      else
        match slotToClaim s with
        | none => answerCode tag .tableFull s
        | some i => startLoad i n x.slot { tag, request := q } s

/-- A SHOT_LOOKUP, SHOT_AMEND or SHOT_RETIRE whose operands are good (R18, R25, R163, R166). -/
def onShot (tag n : Nat) (q : LoadRequest) (s : State) : State :=
  match findRecord s n with
  | some r => onResident tag q r s
  | none => requestLoad tag n q s

/-- One waiting request of a completed load proceeds (R20, R21). -/
def proceed (n : Nat) (s : State) (w : LoadWaiter) : State :=
  match findRecord s n with
  | none => answerCode w.tag .notFound s
  | some r => onResident w.tag w.request r s

/-- The waiting requests of a shot's load. -/
def waitersOf (s : State) (n : Nat) : List LoadWaiter :=
  s.table.slots.flatMap fun
    | .loading m ws => if m = n then ws else []
    | _ => []

/-- A load completes with a good entry (R20). -/
def completeLoad (n slot : Nat) (block : List Byte) (s : State) : State :=
  match s.table.slots.findIdx? (RecordSlot.loads n) with
  | none => s
  | some i =>
    let ws := waitersOf s n
    ws.foldl (proceed n) (touchSlot i (setSlot i (.inUse (loadedRecord block slot)) s))

/-- A load finds its entry bad: the catalogue slot is DAMAGED and the index loses the number (R20). -/
def damageLoad (n slot : Nat) (s : State) : State :=
  failLoad .cardError
    { s with card := { s.card with
      damaged := s.card.damaged ++ [slot]
      index := s.card.index.filter fun x => x.shot != n } } n

/-- The read of a load completes (R20). -/
def loadDone (n slot : Nat) (block : List Byte) (s : State) : State :=
  if loadingFor s n = false then s
  else if (indexEntry s n).isNone then failLoad .notFound s n
  else if entryLive block && entryShot block == n then completeLoad n slot block s
  else damageLoad n slot s

end Sys2Proof.Machine
end

