-- ==== Sys2Proof/Machine/Mount.lean ====
section
/-! DEFINITION. The mount: the catalogue examined, the resident records renumbered, the finish
(Sections 1.4, 9.3). -/

namespace Sys2Proof.Machine

/-! ### The catalogue (R147) -/

/-- What the examination has found so far. -/
structure Scan where
  index   : List IndexEntry
  damaged : List Nat
  map     : List Run
  deriving DecidableEq, Repr

/-- An index entry put in its place in ascending shot-number order (R147). -/
def insertIndex (x : IndexEntry) : List IndexEntry → List IndexEntry
  | [] => [x]
  | y :: ys => if x.shot < y.shot then x :: y :: ys else y :: insertIndex x ys

/-- The runs of an entry, raw and developed. -/
def entryRuns (block : List Byte) : List Run :=
  readRuns block 176 (field block 37 1) ++ readRuns block 240 (field block 38 1)

/-- The map left when an entry is accepted; none when a test of R147 fails it. -/
def acceptEntry (x : Scan) (block : List Byte) : Option (List Run) :=
  if entryLive block && entryContentGood block && !x.index.any (·.shot == entryShot block) then
    cutRuns (entryRuns block) x.map
  else none

/-- One entry examined: EMPTY, DAMAGED, or accepted LIVE (R147). -/
def scanEntry (x : Scan) (b : Nat × List Byte) : Scan :=
  if entryEmpty b.2 then x
  else
    match acceptEntry x b.2 with
    | none => { x with damaged := x.damaged ++ [b.1] }
    | some m => { x with index := insertIndex (entryIndex b.2 b.1) x.index, map := m }

/-- The data clusters of a card, all free (R150). -/
def wholeMap (clusters : Nat) : List Run := [{ start := Config.firstDataCluster, length := clusters }]

/-- The catalogue examined in ascending slot order (R147). -/
def scanCatalogue (clusters : Nat) (blocks : List (Nat × List Byte)) : Scan :=
  (blocks.insertionSort fun a b => a.1 ≤ b.1).foldl scanEntry
    { index := [], damaged := [], map := wholeMap clusters }

/-- The card's next number (R148). -/
def nextNumber (index : List IndexEntry) : Nat := index.foldl (fun n x => max n (x.shot + 1)) 1

/-! ### Renumbering (R23, R24, R141) -/

def Record.renumber (old new : Nat) (r : Record) : Record :=
  if r.number = old then { r with number := new, former := some old } else r

def Owner.renumber (old new : Nat) : Owner → Owner
  | .shotRaw n => if n = old then .shotRaw new else .shotRaw n
  | .handoff n k => if n = old then .handoff new k else .handoff n k
  | o => o

def renameShot (old new n : Nat) : Nat := if n = old then new else n

/-- A record takes the counter's value as its number throughout resident state (R24). -/
def renumberTo (old new : Nat) (s : State) : State :=
  let s := updateRecords (Record.renumber old new) s
  let s := mapSlots (PreviewSlot.renumber old new) s
  { s with
    dev := { s.dev with
      queue := s.dev.queue.map fun j => { j with shot := renameShot old new j.shot } }
    pau := s.pau.map fun q => { q with shot := renameShot old new q.shot }
    pool := { s.pool with owners := s.pool.owners.map (Owner.renumber old new) }
    card := { s.card with
      handoffs := s.card.handoffs.map fun h => { h with shot := renameShot old new h.shot } }
    seq := { s.seq with openShot := s.seq.openShot.map (renameShot old new) } }

/-- One record renumbered, when a number is left (R23). -/
def renumberShot (s : State) (old : Nat) : State :=
  if Config.counterEnd ≤ s.table.counter then s
  else
    let new := s.table.counter
    let s := renumberTo old new s
    raiseShot .renumbered new { s with table := { s.table with counter := new + 1 } }

/-- Whether a record is renumbered below a card's next number (R23). -/
def Record.renumbers (next : Nat) (r : Record) : Bool :=
  (r.life == .opened || r.life == .held || r.life == .void) && decide (r.number < next)

/-- The work of the Shot Table at a mount (R23). -/
def renumberAll (next : Nat) (s : State) : State :=
  let s := { s with table := { s.table with counter := max s.table.counter next } }
  (shotsWhere s (Record.renumbers next)).foldl renumberShot s

/-! ### The course of a mount (R146, R148) -/

/-- A mount begins with IDENTIFY (R146). -/
def beginMount (s : State) : State := kick (setWork (some .identify) (setCardState .mounting s))

/-- The outstanding CARD_FORMAT answered. -/
def answerFormat (result : ResultCode) (s : State) : State :=
  let tag := s.card.formatTag
  answerWaiting tag result { s with card := { s.card with formatTag := none } }

/-- The header is not good: UNFORMATTED (R146, R159). -/
def unformatted (s : State) : State :=
  answerFormat .cardError
    (setCardState .unformatted { s with card := { s.card with volume := none } })

/-- The finish of a mount (R148). A format whose mount ends READ_ONLY is answered CARD_READ_ONLY
(log 26). -/
def finishMount (blocks : List (Nat × List Byte)) (s : State) : State :=
  let x := scanCatalogue ((s.card.volume.map (·.clusters)).getD 0) blocks
  let s := { s with card := { s.card with
    indexHeld := true, index := x.index, damaged := x.damaged, map := x.map } }
  let s := clearFull (renumberAll (nextNumber x.index) s)
  let protectedCard := writeProtected s
  let s := setCardState (if protectedCard then .readOnly else .ready) s
  answerFormat (if protectedCard then .cardReadOnly else .ok) (raise .cardMounted none s)

end Sys2Proof.Machine
end

