-- ==== Sys2Proof/Machine/CardEnds.lean ====
section
/-! DEFINITION. What ends card work: a second failure (R145), removal (R156), a format (R159); and the
retirements these meet (R168, R169). -/

namespace Sys2Proof.Machine

def retiringShots (s : State) : List Nat := shotsWhere s fun r => r.life == .retiring

/-! ### Retirements that end without their card work (R169) -/

/-- How a retirement ends at a removal (R169). -/
def retiredAtRemoval (s : State) (n : Nat) : ResultCode :=
  match (findRecord s n).map Record.rawCard with
  | some .writing => .ok
  | some .cataloguing => if entryInFlight s n then .noCard else .ok
  | _ => .noCard

/-- The retirements that wait on the card end, each as it stands (R169). -/
def endRetirements (s : State) : State :=
  let ends := (retiringShots s).map fun n => (n, retiredAtRemoval s n)
  ends.foldl (fun s e => endRetirement e.2 s e.1) s

/-! ### Format (R158, R159) -/

/-- Whether the card holds a protected shot (R158). -/
def protectedOnCard (s : State) : Bool :=
  (s.card.index.any fun x =>
    x.protect && !(findRecord s x.shot).any fun r => r.rawCard == .onCard) ||
  ((residents s).any fun r =>
    r.protect && (r.rawCard == .cataloguing || r.rawCard == .onCard))

/-- The card's capacity in blocks. -/
def cardCapacity (s : State) : Nat := ((s.card.identity).map (·.capacity)).getD 0

/-- The writing of the card begins; a card of fewer than 4 clusters is left UNFORMATTED and the request answered
CARD_ERROR (R159). -/
def startFormat (volumeId : Nat) (s : State) : State :=
  let clusters := cardCapacity s / Config.clusterBlocks
  if clusters < 4 then answerFormat .cardError (setCardState .unformatted s)
  else kick (setWork (some (.format 0 volumeId (clusters - 3))) s)

/-- The shot whose load is on the bus. -/
def loadInFlight (s : State) : Option Nat :=
  match s.card.work with
  | some (.load n _) => some n
  | _ => none

/-- The shot whose raw, or whose first entry, the work in flight writes. -/
def rawInFlight (s : State) : Option Nat :=
  match s.card.work with
  | some (.rawWrite n _) => some n
  | some (.entryWrite n _) => some n
  | _ => none

/-- The loads that wait for their read fail, and no fetch waits any more; a load on the bus goes on (R159). -/
def failWaitingLoads (result : ResultCode) (s : State) : State :=
  let waiting := (loadsOf s.card.reads ++ loadingShots s).filter fun n => loadInFlight s != some n
  let s := waiting.foldl (failLoad result) s
  { s with card := { s.card with
    reads := s.card.reads.filter fun
      | .load n _ => loadInFlight s == some n
      | .fetch _ _ _ => false } }

/-- What an accepted format of a READY card takes from it at once (R150, R159, log 26): the loads that wait are
answered NOT_FOUND, the HELD records go back to UNWRITTEN but for the one whose raw or entry is being written, the
SETTLED records are dropped, the entry writes are discarded, the index, the DAMAGED set and the map are emptied. -/
def clearForFormat (s : State) : State :=
  let inFlight := rawInFlight s
  let s := returnRecords (fun r => r.heldOnWay && inFlight != some r.number) s
  let s := failWaitingLoads .notFound (dropSettled s)
  emptyIndex { s with card := { s.card with entries := [] } }

/-- The work in flight on a READY card has had the answer to its command and ends as at a removal (R159, log 26): a
load is answered NOT_FOUND, for the index no longer holds its number (R20), and a record whose raw or entry was being
written goes back to UNWRITTEN. Then the card is written. The volume fields stay held until the new header is read
(log 36). -/
def endForFormat (volumeId : Nat) (s : State) : State :=
  let s := setWork none (clearBus (endRetirements s))
  startFormat volumeId (clearForFormat { s with card := { s.card with formatWait := none } })

/-- On a READY card the command on the bus is allowed its answer before its work ends (R159). -/
def awaitBus (volumeId : Nat) (s : State) : State :=
  if s.card.bus.isNone then endForFormat volumeId s
  else clearForFormat { s with card := { s.card with formatWait := some volumeId } }

/-- An accepted CARD_FORMAT: MOUNTING, the volume id taken from the Time Base (R159). -/
def beginFormat (tag : Nat) (s : State) : State :=
  let volumeId := s.timeBase.toNat % 2 ^ 32
  let ready := s.card.state = .ready
  let s := setCardState .mounting { s with card := { s.card with formatTag := some tag } }
  if ready then awaitBus volumeId s else startFormat volumeId s

/-! ### Work stopped by a retirement or a format (R151, R153, R159, R168) -/

/-- The raw write of a RETIRING record ends at the answer to its command (R168). -/
def endRetiredRaw (n : Nat) (s : State) : State :=
  let runs := ((findRecord s n).map (·.rawRuns)).getD []
  endRetirement .ok (returnRuns runs (endWork s)) n

/-- A stopped developed write ends at the answer to its command (R153). -/
def endStoppedDeveloped (n : Nat) (runs : List Run) (s : State) : State :=
  updateRecord n (fun r => { r with devPending := none }) (returnRuns runs (endWork s))

/-- Whether a shot's record is RETIRING. -/
def isRetiring (s : State) (n : Nat) : Bool := (findRecord s n).any fun r => r.life == .retiring

/-- What the answer to the command on the bus ends, whether OK or ERROR; none when the work goes on
(R151, R153, R159, R168). -/
def stopAtAnswer (s : State) : Option State :=
  match s.card.formatWait, s.card.work with
  | some volumeId, _ => some (endForFormat volumeId s)
  | none, some (.rawWrite n _) => if isRetiring s n then some (endRetiredRaw n s) else none
  | none, some (.developed h runs _ false true) => some (endStoppedDeveloped h.shot runs s)
  | none, _ => none

/-! ### Two failures (R145) -/

/-- The shot of the work that failed (R145). -/
def CardWork.shot? : CardWork → Option Nat
  | .load n _ => some n
  | .fetch n _ _ _ => some n
  | .rawWrite n _ => some n
  | .entryWrite n _ => some n
  | .developed h _ _ _ _ => some h.shot
  | .emptyWrite n _ => some n
  | .dirtyRewrite n => some n
  | _ => none

/-- Whether a record's raw, or its first entry, is being written. -/
def Record.onWay (r : Record) : Bool := r.rawCard == .writing || r.rawCard == .cataloguing

/-- The raw writes and entry writes, in flight or pending, end: their clusters return to the map and their
HELD records to UNWRITTEN (R145). -/
def failRaws (s : State) : State :=
  let shots := shotsWhere s Record.onWay
  let runs := ((residents s).filter Record.onWay).flatMap (·.rawRuns)
  let s := if runs.isEmpty then s else returnRuns runs s
  let s := updateRecords (fun r => if r.onWay && r.life == .held then r.unwrite else r) s
  { s with table := { s.table with amended := s.table.amended.filter fun a => !shots.contains a.shot } }

/-- A developed write ends (R145): in its data phase its clusters return to the map. -/
def failDeveloped (s : State) : State :=
  match s.card.work with
  | some (.developed h runs _ entryPhase _) =>
    let s := if entryPhase then s else returnRuns runs s
    let s := updateRecord h.shot (fun r => { r with devPending := none }) s
    updateHandoff h (fun x => { x with writing := false }) s
  | _ => s

/-- No place of the amendment list is marked taken (R16, a failed rewrite). -/
def untake (s : State) : State :=
  { s with table := { s.table with
    amended := s.table.amended.map fun a => { a with taken := false } } }

/-- The card becomes FAULTED (R145, R169). -/
def cardFault (s : State) : State :=
  let subject := (s.card.work.bind CardWork.shot?).map Subject.shot
  let s := raise .cardFault subject s
  let s := untake (failDeveloped (failRaws s))
  let s := endReads .cardError (endWork s)
  let s := { s with card := { s.card with entries := [], state := .faulted } }
  let s := (retiringShots s).foldl (endRetirement .cardError) s
  answerCardTags .cardError s

/-- The command issued once more (R145). -/
def reissue (b : Bus) (s : State) : State :=
  { s with card := { s.card with bus := some { b with issued := s.timeBase, retried := true } } }

/-! ### A command whose work has ended is answered (log 25) -/

/-- The answer of an orphaned command: the bus is clear, RESTARTING ends (R181), and a format that waited for it
goes on (R159). -/
def orphanAnswered (s : State) : State :=
  let s := clearBus s
  if s.part = .restarting then enterRunning s
  else
    match s.card.formatWait with
    | some volumeId => service (endForFormat volumeId s)
    | none => service s

/-- A command on the bus answered ERROR, or drawing no answer (R144, R145). -/
def answeredError (s : State) : State :=
  match s.card.bus with
  | none => s
  | some b =>
    if b.orphan then orphanAnswered s
    else
      match stopAtAnswer s with
      | some t => service t
      | none => if b.retried then service (cardFault s) else reissue b s

/-- A command on the bus answered OK: an orphaned one is of no account, a stopped work ends, and otherwise
the work goes on. -/
def answeredOk (goOn : State → State) (s : State) : State :=
  match s.card.bus with
  | none => s
  | some b =>
    if b.orphan then orphanAnswered s
    else
      match stopAtAnswer s with
      | some t => service t
      | none => goOn s

/-! ### Removal (R156, R169) -/

/-- Work in flight and queued ends (R156 step 1). -/
def endCardWork (s : State) : State :=
  let s := endRetirements (answerCardTags .noCard (endReads .noCard s))
  setWork none { s with card := { s.card with entries := [] } }

/-- The Card Store's state after a removal (R156 step 4). -/
def emptyStore (s : State) : State :=
  clearFull (emptyIndex { s with card := { s.card with
    state := .absent, identity := none, volume := none } })

/-- A qualified removal (R156). -/
def removeCard (s : State) : State :=
  let s := returnHeld (clearBus (endCardWork s))
  let lost := dirtySettled s
  let s := emptyStore (raiseAmendLost lost (dropSettled s))
  raise .cardRemoved none s

end Sys2Proof.Machine
end

