-- ==== Sys2Proof/Machine/CardEvents.lean ====
section
/-! DEFINITION. The events of the Card Store: the detect line, the answers of the card (Chapter 9). A row
whose condition does not hold in the state changes nothing (log 1). -/

namespace Sys2Proof.Machine

/-! ### Card detect (R143) -/

/-- CDET_CHANGE: a change of the line restarts the 50 ms timer. -/
def execCdetChange (present : Bool) (s : State) : Host.Outcome State Fault Refusal :=
  .next (if s.card.detect.line = present then s
    else { s with card := { s.card with detect := { s.card.detect with
      line := present
      timer := some { start := s.timeBase, length := Config.detectDelay } } } })

/-- The detect timer expires: the level held becomes the accepted level (R143). -/
def acceptLevel (t : Timer) (s : State) : State :=
  let s := s.advanceTo t.expiry
  { s with card := { s.card with detect := { s.card.detect with
    accepted := s.card.detect.line, timer := none } } }

/-- INSERTION: the timer expires with PRESENT newly held (R143, R146). -/
def execInsertion (s : State) : Host.Outcome State Fault Refusal :=
  .next (match s.card.detect.timer with
    | none => s
    | some t =>
      if s.card.detect.line ∧ s.card.detect.accepted = false then
        let s := acceptLevel t s
        if s.card.state = .absent then service (beginMount s) else s
      else s)

/-- REMOVAL: the timer expires with NONE newly held (R156). A removal while RESTARTING takes the command off
the bus and so ends RESTARTING (log 12). -/
def execRemoval (s : State) : Host.Outcome State Fault Refusal :=
  .next (match s.card.detect.timer with
    | none => s
    | some t =>
      if s.card.detect.line = false ∧ s.card.detect.accepted then
        let s := acceptLevel t s
        let s := if s.card.state = .absent then s else removeCard s
        if s.part = .restarting then enterRunning s else service s
      else s)

/-! ### The arbiter and failures -/

/-- CARD_WORK_START (R149). -/
def execCardWorkStart (s : State) : Host.Outcome State Fault Refusal :=
  .next (startCardWork s)

/-- CARD_COMMAND_ERROR (R145). -/
def execCardCommandError (s : State) : Host.Outcome State Fault Refusal :=
  .next (answeredError s)

/-- CARD_COMMAND_TIMEOUT: no answer within 500 ms of the issue counts as ERROR (R144). -/
def execCardCommandTimeout (s : State) : Host.Outcome State Fault Refusal :=
  .next (match s.card.bus with
    | none => s
    | some b => answeredError (s.advanceTo (b.issued + BitVec.ofNat 48 Config.commandTimeout)))

/-! ### The mount (R146 to R148) -/

/-- IDENTIFY_DONE: the identity is held and block 0 is read (R146). -/
def execIdentifyDone (serial capacity : Nat) (writeProtected : Bool) (s : State) :
    Host.Outcome State Fault Refusal :=
  .next (answeredOk (fun s =>
    match s.card.work with
    | some .identify =>
      nextWork .header { s with card := { s.card with
        identity := some { serial, capacity, writeProtected } } }
    | _ => s) s)

/-- HEADER_READ_DONE: the header is tested (R146). -/
def execHeaderReadDone (block : List Byte) (s : State) : Host.Outcome State Fault Refusal :=
  .next (answeredOk (fun s =>
    match s.card.work with
    | some .header =>
      if headerGood block (cardCapacity s) then
        nextWork (.catalogue 0 []) { s with card := { s.card with volume := some (headerVolume block) } }
      else service (unformatted (endWork s))
    | _ => s) s)

/-- CATALOGUE_READ_DONE: `clusters` of the two READs have been answered (R147, log 16). -/
def execCatalogueReadDone (clusters : Nat) (blocks : List (Nat × List Byte)) (s : State) :
    Host.Outcome State Fault Refusal :=
  .next (answeredOk (fun s =>
    match s.card.work with
    | some (.catalogue done earlier) =>
      if clusters = 0 ∨ 2 < done + clusters then s
      else if done + clusters < 2 then nextWork (.catalogue (done + clusters) (earlier ++ blocks)) s
      else service (finishMount (earlier ++ blocks) (endWork s))
    | _ => s) s)

/-! ### Reads (R20, R119) -/

/-- The read in flight leaves the read queue (R149). -/
def leaveReads (s : State) : State :=
  { s with card := { s.card with reads := s.card.reads.tail } }

/-- LOAD_READ_DONE (R20). -/
def execLoadReadDone (block : List Byte) (s : State) : Host.Outcome State Fault Refusal :=
  .next (answeredOk (fun s =>
    match s.card.work with
    | some (.load n slot) => service (loadDone n slot block (leaveReads (endWork s)))
    | _ => s) s)

/-- The fetch completes: DEVELOPING at DEMOSAIC, or SUSPENDED during a readout (R119). -/
def fetchDone (s : State) : State :=
  let w := Work.developing .demosaic
  { s with dev := { s.dev with engine := if s.dev.readout then .suspended w else .active w } }

/-- FETCH_READ_DONE: `clusters` READs of the fetch have been answered (R119, R144, log 16). -/
def execFetchReadDone (clusters : Nat) (values : List (Nat × BitVec 32)) (s : State) :
    Host.Outcome State Fault Refusal :=
  .next (answeredOk (fun s =>
    match s.card.work with
    | some (.fetch n p runs done) =>
      if clusters = 0 ∨ runsLength runs < done + clusters then s
      else
        let s := { s with mem := loadClusters s.mem p (sensorArea s) done clusters values }
        if done + clusters < runsLength runs then nextWork (.fetch n p runs (done + clusters)) s
        else service (fetchDone (leaveReads (endWork s)))
    | _ => s) s)

/-! ### Raw and entry writes (R151, R152) -/

/-- The data phase of a raw write ends: the record that is WRITING becomes CATALOGUING (R151). -/
def endRawData (n : Nat) (s : State) : State :=
  match findRecord s n, emptySlot s with
  | some r, some slot =>
    if r.rawCard = .writing then
      joinEntries (.live n slot)
        (updateRecord n (fun r => { r with rawCard := .cataloguing, catSlot := some slot }) s)
    else s
  | _, _ => s

/-- RAW_WRITE_CLUSTER_DONE (R151). -/
def execRawWriteClusterDone (s : State) : Host.Outcome State Fault Refusal :=
  .next (answeredOk (fun s =>
    match s.card.work with
    | some (.rawWrite n done) =>
      if done + 1 < runsLength (((findRecord s n).map (·.rawRuns)).getD []) then
        nextWork (.rawWrite n (done + 1)) s
      else service (endRawData n (endWork s))
    | _ => s) s)

/-- The place of a rewritten record: off the list and clean when still taken (R16, R152). -/
def resolveTaken (n : Nat) (s : State) : State :=
  if s.table.amended.any fun a => a.shot == n && a.taken then
    leaveAmended n (updateRecord n (fun r => { r with dirty := false }) s)
  else s

/-- The index entry of a record (R152). -/
def recordIndex (r : Record) (slot : Nat) : IndexEntry :=
  { shot := r.number, slot := slot, frame := r.frame, label := r.label, protect := r.protect }

/-- The index entry's protect flag set from the record (R154, R155). -/
def copyProtect (n : Nat) (s : State) : State :=
  match findRecord s n with
  | none => s
  | some r =>
    { s with card := { s.card with
      index := s.card.index.map fun x => if x.shot = n then { x with protect := r.protect } else x } }

/-- A LIVE entry write completes: the record that is CATALOGUING is ON_CARD (R152); the entry of a RETIRING record
is then emptied (R168). -/
def entryWritten (n slot : Nat) (s : State) : State :=
  match findRecord s n with
  | none => s
  | some r =>
    if r.rawCard = .cataloguing then
      let s := updateRecord n (fun r => { r with rawCard := .onCard }) s
      let s := { s with card := { s.card with index := insertIndex (recordIndex r slot) s.card.index } }
      if r.life = .retiring then joinEntries (.empty n slot) s
      else settle n (resolveTaken n s)
    else s

/-- ENTRY_WRITE_DONE (R152). -/
def execEntryWriteDone (s : State) : Host.Outcome State Fault Refusal :=
  .next (answeredOk (fun s =>
    match s.card.work with
    | some (.entryWrite n slot) => service (entryWritten n slot (endWork s))
    | _ => s) s)

/-! ### Developed writes (R153, R154) -/

/-- DEVELOPED_WRITE_CLUSTER_DONE (R153, R154). -/
def execDevelopedWriteClusterDone (s : State) : Host.Outcome State Fault Refusal :=
  .next (answeredOk (fun s =>
    match s.card.work with
    | some (.developed h runs done false stopped) =>
      if done + 1 < runsLength runs then nextWork (.developed h runs (done + 1) false stopped) s
      else nextWork (.developed h runs done true stopped) (markTaken h.shot s)
    | _ => s) s)

/-- A hand-off whose write has completed leaves the list and its plane is freed (R154). -/
def finishHandoff (h : Handoff) (s : State) : State :=
  if s.card.handoffs.any (·.plane == h.plane) then
    setOwner h.plane .free { s with card := { s.card with
      handoffs := s.card.handoffs.filter fun x => x.plane != h.plane } }
  else s

/-- A developed write completes (R154); for a retired shot there is no plane to free. -/
def developedWritten (h : Handoff) (runs : List Run) (s : State) : State :=
  let old := ((findRecord s h.shot).bind (·.devFile)).map (·.runs)
  let retiring := isRetiring s h.shot
  let s := updateRecord h.shot (fun r =>
    { r with devFile := some (h.file runs), devPending := none }) s
  let s := (old.map returnRuns).getD id s
  let s := resolveTaken h.shot (copyProtect h.shot s)
  if retiring then s else finishHandoff h s

/-- DEVELOPED_ENTRY_WRITE_DONE (R154). -/
def execDevelopedEntryWriteDone (s : State) : Host.Outcome State Fault Refusal :=
  .next (answeredOk (fun s =>
    match s.card.work with
    | some (.developed h runs _ true _) => service (developedWritten h runs (endWork s))
    | _ => s) s)

/-! ### EMPTY writes and dirty rewrites (R168, R155) -/

/-- An EMPTY write completes, which ends the retirement of its record (R168). -/
def emptied (n : Nat) (s : State) : State :=
  match findRecord s n with
  | none => s
  | some r =>
    if r.life = .retiring then
      let s := returnRuns (r.rawRuns ++ (r.devFile.map (·.runs)).getD []) s
      endRetirement .ok
        { s with card := { s.card with index := s.card.index.filter fun x => x.shot != n } } n
    else s

/-- EMPTY_WRITE_DONE (R168). -/
def execEmptyWriteDone (s : State) : Host.Outcome State Fault Refusal :=
  .next (answeredOk (fun s =>
    match s.card.work with
    | some (.emptyWrite n _) => service (emptied n (endWork s))
    | _ => s) s)

/-- DIRTY_REWRITE_DONE (R155). -/
def execDirtyRewriteDone (s : State) : Host.Outcome State Fault Refusal :=
  .next (answeredOk (fun s =>
    match s.card.work with
    | some (.dirtyRewrite n) => service (resolveTaken n (copyProtect n (endWork s)))
    | _ => s) s)

/-- FORMAT_WRITE_DONE: after the header WRITE the mount begins at IDENTIFY (R159). -/
def execFormatWriteDone (s : State) : Host.Outcome State Fault Refusal :=
  .next (answeredOk (fun s =>
    match s.card.work with
    | some (.format step volumeId clusters) =>
      if step < 2 then nextWork (.format (step + 1) volumeId clusters) s
      else nextWork .identify s
    | _ => s) s)

end Sys2Proof.Machine
end

