-- ==== Sys2Proof/Machine/CardRequests.lean ====
section
/-! DEFINITION. CARD_QUERY, CARD_EJECT and CARD_FORMAT (Sections 9.9, 9.10, 9.12). -/

namespace Sys2Proof.Machine

/-- What CARD_QUERY reports (R161). -/
def cardReport (s : State) : CardReport :=
  { state := s.card.state, identity := s.card.identity, volume := s.card.volume,
    freeClusters := if s.card.indexHeld then runsLength s.card.map else 0,
    liveEntries := if s.card.indexHeld then s.card.index.length else 0,
    damaged := if s.card.indexHeld then s.card.damaged.length else 0,
    emptySlots := if s.card.indexHeld then emptySlots s else 0,
    full := s.card.full, readDepth := s.card.reads.length, entryWrites := s.card.entries.length,
    handoffs := s.card.handoffs.length,
    markedHandoffs := (s.card.handoffs.filter (·.marked)).length,
    heldUnwritten :=
      ((residents s).filter fun r => r.life == .held && r.rawCard == .unwritten).length,
    amendments := s.table.amended.length }

/-- CARD_QUERY (R161). -/
def execCardQuery (tag : Nat) (s : State) : Host.Outcome State Fault Refusal :=
  .next (takeRequest tag false (fun s => answer tag .ok (.card (cardReport s)) s) s)

/-- The read in flight. -/
def readInFlight (w : Option CardWork) : Bool :=
  match w with
  | some (.load _ _) => true
  | some (.fetch _ _ _ _) => true
  | _ => false

/-- The reads that wait and have not started. -/
def waitingReads (s : State) : List CardRead :=
  if readInFlight s.card.work then s.card.reads.tail else s.card.reads

/-- An accepted CARD_EJECT: EJECTING, the reads not started refused, the drain begun (R157). -/
def acceptEject (tag : Nat) (s : State) : State :=
  let s := { s with card := { s.card with state := .ejecting, ejectTag := some tag } }
  service (refuseReads (waitingReads s) .noCard s)

/-- CARD_EJECT (R157). -/
def execCardEject (tag : Nat) (s : State) : Host.Outcome State Fault Refusal :=
  .next (takeRequest tag false (fun s =>
    if s.card.state.readable then acceptEject tag s else answerCode tag .noCard s) s)

/-- The refusal of a CARD_FORMAT, if it is refused (R158). -/
def formatRefusal (s : State) (discard : Nat) : Option ResultCode :=
  if 1 < discard then some .badOperand
  else
    match s.card.state with
    | .unformatted => if writeProtected s then some .cardReadOnly else none
    | .ready =>
      if discard = 0 then some .badOperand
      else if (retiringShots s).isEmpty = false then some .busy
      else if protectedOnCard s then some .protectedShot
      else none
    | .readOnly => some .cardReadOnly
    | .mounting => some .busy
    | .ejecting => some .busy
    | _ => some .noCard

/-- CARD_FORMAT (R158, R159). -/
def execCardFormat (tag discard : Nat) (s : State) : Host.Outcome State Fault Refusal :=
  .next (takeRequest tag false (fun s =>
    match formatRefusal s discard with
    | some code => answerCode tag code s
    | none => service (beginFormat tag s)) s)

end Sys2Proof.Machine
end

