-- ==== Sys2Proof/Machine/DarkEvents.lean ====
section
/-! DEFINITION. The events of the Dark Unit and of the Plane Arithmetic Unit (Section 5.4, Chapter 6). A row
whose condition does not hold in the state changes nothing (log 1). -/

namespace Sys2Proof.Machine

/-- DARK_EXPOSURE_START: with the sequencer IDLE, the head of the plan queue is exposed in a FREE plane, or
the dark claim waits (R103, log 7). -/
def execDarkExposureStart (s : State) : Host.Outcome State Fault Refusal :=
  .next (service (attemptDark s))

/-- PAU_START (R93). -/
def execPauStart (s : State) : Host.Outcome State Fault Refusal :=
  .next (startPau s)

/-- The values of the source added into the destination, and the request gone (R94). -/
def accumulated (q : PauRequest) (s : State) : State :=
  leavePau (·.running)
    { s with mem := accumulateValues s.mem q.source q.destination (sensorArea s) fun _ => true }

/-- How many exposures a kind asks for. -/
def ShotKind.target : ShotKind → Nat
  | .single => 1
  | .stack n => n

/-- The sequencer goes on after the ACCUMULATE of the open shot (R81). -/
def afterAccumulate (s : State) : State :=
  match openRecord s with
  | none => s
  | some r => if r.kind.target ≤ s.seq.k then finishShot s else waitForStack s

/-- ACCUMULATE_DONE (R94, R81). -/
def execAccumulateDone (s : State) : Host.Outcome State Fault Refusal :=
  .next (match runningPau s with
    | none => s
    | some q =>
      if q.op = .accumulate then
        let s := accumulated q s
        service (if s.seq.state = .accumulate then afterAccumulate s else s)
      else s)

/-- A LINKED shot becomes APPLIED; any other link stays (R95). -/
def Record.applied (e : Nat) (r : Record) : Record :=
  if r.darkLink = .linked e then { r with darkLink := .applied } else r

/-- An APPLY_DARK completes (R95, R109, R110). -/
def darkApplied (q : PauRequest) (e : Nat) (s : State) : State :=
  let wasLinked := (findRecord s q.shot).any fun r => r.darkLink == .linked e
  let s := { s with mem := applyDarkValues s.mem q.source q.destination q.scale q.resume (sensorArea s) }
  let s := leavePau (·.running) (updateRecord q.shot (Record.applied e) s)
  if wasLinked then afterUnlink e s else requestEnded e s

/-- APPLY_DARK_DONE (R95). -/
def execApplyDarkDone (s : State) : Host.Outcome State Fault Refusal :=
  .next (match runningPau s with
    | none => s
    | some q =>
      match q.op with
      | .accumulate => s
      | .applyDark e => service (darkApplied q e s))

/-- The expiry instant of a READY entry (R110). -/
def expiryInstant (x : DarkEntry) : Option Time :=
  match x.state with
  | .ready _ t _ => some (t + BitVec.ofNat 48 (x.reuseAge * 1000000))
  | _ => none

/-- DARK_EXPIRY (R110). -/
def execDarkExpiry (entry : Nat) (s : State) : Host.Outcome State Fault Refusal :=
  .next (match expiryInstant (darkEntry s entry) with
    | none => s
    | some t => service (requestEnded entry (s.advanceTo t)))

end Sys2Proof.Machine
end

