-- ==== Sys2Proof/Machine/Development.lean ====
section
/-! DEFINITION. The events of the Development Engine, DEVELOP and DEV_FLOOR (Chapter 7). A row whose condition
does not hold in the state changes nothing (log 1). -/

namespace Sys2Proof.Machine

/-- DISPATCH (R116, R117): a dispatched job of a SETTLED shot gives the Card Store a read to start. -/
def execDispatch (s : State) : Host.Outcome State Fault Refusal :=
  .next (startCardWork (attemptDispatch s))

/-- The work that follows a stage (R120). -/
def Stage.next : Stage → Work
  | .demosaic => .developing .colour
  | .colour => .developing .tone
  | .tone => .developing .detail
  | .detail => .developing .scale
  | .scale => .output

def setEngine (x : EngineState) (s : State) : State := { s with dev := { s.dev with engine := x } }

/-- STAGE_END (R120). -/
def execStageEnd (s : State) : Host.Outcome State Fault Refusal :=
  .next (match s.dev.engine with
    | .active (.developing st) => setEngine (.active st.next) s
    | _ => s)

/-! ### Completion (R122 to R126) -/

/-- One waiter of a PREVIEW job answered, and the slot pinned for it (R123). -/
def answerPreview (i : Nat) (key : DevKey) (result : ResultCode) (s : State) (tag : Nat) : State :=
  if (previewSlot s i).pins < 7 then answer tag result (.previewMade i key) (pinSlot i s)
  else answerCode tag .pinLimit s

/-- Other unpinned slots with the same tag are superseded (R135). -/
def supersedeSlot (n : Nat) (k : DevKey) (x : PreviewSlot) : PreviewSlot :=
  if x.carries n k && x.pins == 0 then { state := .free, pins := 0 } else x

/-- The FILLING slot becomes VALID (R135). The other slots of the same tag are superseded first, so that
this one is none of them. -/
def validSlot (i : Nat) (j : Job) (size : Nat × Nat) (s : State) : State :=
  let s := mapSlots (supersedeSlot j.shot j.key) s
  touchPreview i
    (setPreview i { state := .valid (some (j.shot, j.key)) size.1 size.2 false s.free, pins := 0 } s).draw

/-- The rendition written where its last byte has just been written: it carries the draw number that its slot
or its hand-off then holds (R122, log 14). -/
def writeRendition (base room : Nat) (size : Nat × Nat) (s : State) : State :=
  { s with mem := fillBytes s.mem base (min (3 * size.1 * size.2) room) s.free }

/-- A PREVIEW job completes (R123, R135); one that holds no slot leaves the queue. -/
def completePreview (j : Job) (h : RunHolds) (s : State) : State :=
  match h.slot with
  | none => dropJobs (Job.isFor j.shot .preview) s
  | some i =>
    let result := if shotKey s j.shot = j.key then ResultCode.ok else ResultCode.stale
    let size := previewSize s.seq.columns s.seq.rows h.recipe
    let s := validSlot i j size (writeRendition (slotBase i) Config.slotBytes size s)
    dropJobs (Job.isFor j.shot .preview) (j.waiters.foldl (answerPreview i j.key result) s)

/-- The hand-offs of a shot whose write has not started leave the list, their planes freed (R124). -/
def supersedeHandoffs (n : Nat) (s : State) : State :=
  let old := s.card.handoffs.filter fun h => h.shot == n && !h.writing
  (old.map (·.plane)).foldl (fun s p => setOwner p .free s)
    { s with card := { s.card with
      handoffs := s.card.handoffs.filter fun h => !(h.shot == n && !h.writing) } }

/-- The output plane passes to a hand-off at the end of the list (R124). -/
def handOff (j : Job) (plane : Nat) (size : Nat × Nat) (s : State) : State :=
  let h : Handoff :=
    { shot := j.shot, key := j.key, plane := plane, width := size.1, height := size.2, writing := false,
      marked := false, seed := s.free }
  (setOwner plane (.handoff j.shot j.key)
    { s with card := { s.card with handoffs := s.card.handoffs ++ [h] } }).draw

/-- One waiter answered with a key. -/
def answerKey (k : DevKey) (s : State) (tag : Nat) : State := answer tag .ok (.key k) s

/-- A current FULL job completes (R124). -/
def completeFull (j : Job) (plane : Nat) (size : Nat × Nat) (s : State) : State :=
  let s := handOff j plane size (supersedeHandoffs j.shot s)
  dropJobs (Job.isFor j.shot .full) (j.waiters.foldl (answerKey j.key) s)

/-- A stale FULL job returns to QUEUED under the current key (R125). -/
def requeueStale (j : Job) (plane : Nat) (s : State) : State :=
  let key := shotKey s j.shot
  setOwner plane .free { s with dev := { s.dev with
    queue := s.dev.queue.map fun x =>
      if x.isFor j.shot .full then { x with running := false, key := key } else x } }

/-- A FULL job completes or is requeued (R124, R125); one that holds no plane leaves the queue. -/
def endFull (j : Job) (h : RunHolds) (s : State) : State :=
  match h.output with
  | none => dropJobs (Job.isFor j.shot .full) s
  | some p =>
    let size := fullSize s.seq.columns s.seq.rows h.recipe
    let s := writeRendition (planeBase p) Config.planeBytes size s
    if shotKey s j.shot = j.key then completeFull j p size s else requeueStale j p s.draw

/-- The completion event of a job (R122 to R126); a PREVIEW job leaves no plane behind. -/
def completeJob (j : Job) (h : RunHolds) (s : State) : State :=
  let s := endHolds s
  let s := match j.kind with
    | .preview => completePreview j h (releasePlane h.output s)
    | .full => endFull j h s
  settle j.shot s

/-- OUTPUT_END (R122). -/
def execOutputEnd (s : State) : Host.Outcome State Fault Refusal :=
  .next (match s.dev.engine, runningJob s, s.dev.holds with
    | .active .output, some j, some h => service (completeJob j h s)
    | _, _, _ => s)

/-! ### DEVELOP and DEV_FLOOR (R129 to R131) -/

/-- Whether a shot's current key is that of its developed file, of its developed pending, or of one of its
hand-offs (R129 test 6). -/
def fullMade (s : State) (r : Record) : Bool :=
  let key := currentKey s r.recipe
  r.devFile.any (·.key == key) || r.devPending == some key ||
  s.card.handoffs.any fun h => h.shot == r.number && h.key == key

/-- A placing whose request waits on the job, or is answered QUEUE_FULL (R130, R136). -/
def placeWaiting (tag n : Nat) (k : JobKind) (priority : Nat) (s : State) : State :=
  match placingOutcome s n k with
  | .failed => answerCode tag .queueFull s
  | _ => placeJob n k priority (some tag) s

/-- A DEVELOP's placing: at priority 0 it is answered at once and nothing waits (R130). -/
def placeAndAnswer (tag n : Nat) (k : JobKind) (priority : Nat) (s : State) : State :=
  if priority = 0 then
    match placingOutcome s n k with
    | .failed => answerCode tag .queueFull s
    | _ => answerCode tag .ok (placeJob n k 0 none s)
  else placeWaiting tag n k priority s

/-- DEVELOP for a resident record (R129 tests 4 to 6, R130). -/
def developResident (tag : Nat) (k : JobKind) (priority : Nat) (r : Record) (s : State) : State :=
  match r.life with
  | .opened => answerCode tag .busy s
  | .retiring => answerCode tag .busy s
  | .void => answerCode tag .notFound s
  | _ =>
    if k = .full ∧ fullMade s r = true then answer tag .ok (.key (currentKey s r.recipe)) s
    else service (placeAndAnswer tag r.number k priority s)

def jobKindOf (n : Nat) : JobKind := if n = 0 then .preview else .full

/-- DEVELOP (R129, R130). -/
def execDevelop (tag shot kind priority : Nat) (s : State) : Host.Outcome State Fault Refusal :=
  .next (takeRequest tag false (fun s =>
    if shot = 0 ∨ 1 < kind ∨ 7 < priority then answerCode tag .badOperand s
    else
      match findRecord s shot with
      | some r => developResident tag (jobKindOf kind) priority r s
      | none => answerCode tag (if loadingFor s shot then .busy else .notFound) s) s)

/-- DEV_FLOOR's answer (R131). -/
def floorReport (s : State) : Payload := .devFloor s.dev.floor s.dev.queue.length

/-- DEV_FLOOR (R131). -/
def execDevFloor (tag : Nat) (floor : Option Nat) (s : State) : Host.Outcome State Fault Refusal :=
  .next (takeRequest tag false (fun s =>
    match floor with
    | none => answer tag .ok (floorReport s) s
    | some f =>
      if inRange f 1 7 then
        let s := { s with dev := { s.dev with floor := f } }
        service (answer tag .ok (floorReport s) s)
      else answerCode tag .badOperand s) s)

end Sys2Proof.Machine
end

