-- ==== Sys2Proof/Machine/Exposure.lean ====
section
/-! DEFINITION. TRIGGER, the timers of the sequencer, the readout stream, and SET_SENSOR (Chapter 4). A row
whose condition does not hold in the state changes nothing (log 1). -/

namespace Sys2Proof.Machine

/-! ### TRIGGER (R67, R68) -/

/-- A TRIGGER answered: OK with the open shot's number, or the refusal reason (R68). -/
def answerStart (tag : Nat) (d : ResultCode × State) : State :=
  if d.1 = .ok then answer tag .ok (.shotNumber (d.2.seq.openShot.getD 0)) d.2
  else answerCode tag d.1 d.2

/-- TRIGGER_FIRE (R67, R68). -/
def execTriggerFire (tag : Nat) (s : State) : Host.Outcome State Fault Refusal :=
  .next (takeRequest tag false (fun s => service (answerStart tag (decideStart .fire s))) s)

/-- A duration of a TIMED start lies in its range (R68). -/
def durationGood (d : Nat) : Bool := inRange d 1 3600000000

/-- TRIGGER_TIMED (R67, R68, R78). -/
def execTriggerTimed (tag : Nat) (duration : Option Nat) (s : State) : Host.Outcome State Fault Refusal :=
  .next (takeRequest tag false (fun s =>
    match duration with
    | none => answerCode tag .badOperand s
    | some d =>
      if durationGood d then service (answerStart tag (decideStart (.timed d) s))
      else answerCode tag .badOperand s) s)

/-! ### Timers -/

/-- The arm window has expired (R75). -/
def armExpired (s : State) : State :=
  if s.seq.k ≤ 1 then raiseShot .armExpired (s.seq.openShot.getD 0) (removeOpen s)
  else finishShot (updateOpen (fun r => { r with exposures := r.exposures.dropLast }) s)

/-- ARM_WINDOW_EXPIRY (R75). -/
def execArmWindowExpiry (s : State) : Host.Outcome State Fault Refusal :=
  .next (match s.seq.state, s.seq.armTimer with
    | .armed, some t => service (armExpired (s.advanceTo t.expiry))
    | _, _ => s)

/-- The max-open timer has expired (R77, R79). -/
def maxOpenExpired (t : Time) (s : State) : State :=
  let opened := s.seq.state == .opened
  let source := if endsByAux s then TimeSource.auxEnd else TimeSource.xsync
  let s := { s with seq := { s.seq with maxOpen := none } }
  if opened then
    raiseShot .exposureTruncated (s.seq.openShot.getD 0) (closeEntry t source .maxOpen true s)
  else s

/-- MAX_OPEN_EXPIRY (R77, R79). -/
def execMaxOpenExpiry (s : State) : Host.Outcome State Fault Refusal :=
  .next (match s.seq.maxOpen with
    | none => s
    | some t => maxOpenExpired t.expiry (s.advanceTo t.expiry))

/-- TIMED_DURATION_EXPIRY (R78). -/
def execTimedDurationExpiry (s : State) : Host.Outcome State Fault Refusal :=
  .next (match s.seq.state, s.seq.timed with
    | .opened, some t => closeEntry t.expiry .timed .timed false (s.advanceTo t.expiry)
    | _, _ => s)

/-- The settle timer has expired: the readout begins (R79). -/
def settleExpired (s : State) : State :=
  let s := updateEntry (fun e => { e with status := .reading }) s
  beginReadout .readout { s with seq := { s.seq with settle := none, maxOpen := none } }

/-- SETTLE_EXPIRY (R79). -/
def execSettleExpiry (s : State) : Host.Outcome State Fault Refusal :=
  .next (match s.seq.state, s.seq.settle with
    | .settle, some t => settleExpired (s.advanceTo t.expiry)
    | _, _ => s)

/-- STACK_WINDOW_EXPIRY (R83). -/
def execStackWindowExpiry (s : State) : Host.Outcome State Fault Refusal :=
  .next (match s.seq.state, s.seq.stackWindow with
    | .stackWait, some t => service (finishShot (s.advanceTo t.expiry))
    | _, _ => s)

/-- DARK_DURATION_EXPIRY (R104). -/
def execDarkDurationExpiry (s : State) : Host.Outcome State Fault Refusal :=
  .next (match s.seq.state, s.seq.darkTimer with
    | .dark, some t =>
      let s := s.advanceTo t.expiry
      beginReadout .darkReadout { s with seq := { s.seq with darkTimer := none } }
    | _, _ => s)

/-! ### The readout stream (R64, R65) -/

/-- A sample as the 32-bit value written for it (R64). -/
def sampleValue (v : BitVec 16) : BitVec 32 := v.zeroExtend 32

/-- PIXEL_SAMPLE: written at its place and counted; one beyond the sensor area is counted and has no place
(R64, R65, log 35). -/
def execPixelSample (value : BitVec 16) (s : State) : Host.Outcome State Fault Refusal :=
  .next (match readoutPlane s with
    | none => s
    | some p =>
      { s with
        mem :=
          if s.seq.samples < sensorArea s then writeValue s.mem p s.seq.samples (sampleValue value)
          else s.mem
        seq := { s.seq with samples := s.seq.samples + 1 } })

/-- READOUT_HEADER: the readout is judged and ends; a header outside a readout is discarded (R64, R65,
R80, R82, R104). -/
def execReadoutHeader (good : Bool) (columns rows : Nat) (temperature : Int) (s : State) :
    Host.Outcome State Fault Refusal :=
  .next (match s.seq.state with
    | .readout =>
      service (if readoutGood s good columns rows then goodReadout temperature s else failedReadout s)
    | .darkReadout =>
      service (if readoutGood s good columns rows then finishDark temperature s else failedDark s)
    | _ => s)

/-! ### SET_SENSOR (R86) -/

/-- The geometry lies in its range (R86). -/
def geometryGood (columns rows : Nat) : Bool :=
  inRange columns 1 12000 && inRange rows 1 12000 && decide (columns * rows ≤ 100000000)

/-- Whether SET_SENSOR is refused BUSY (R86). -/
def sensorBusy (s : State) : Bool :=
  s.seq.state != .idle || ((residents s).any fun r => r.life == .opened || r.life == .held) ||
  s.dev.queue.any (·.running)

/-- Every READY dark entry freed (R86). -/
def freeReady (s : State) : State :=
  ((List.range Config.darkEntries).filter fun e => (darkEntry s e).state.isReady).foldl
    (fun s e => freeEntry e s) s

/-- An accepted SET_SENSOR (R86). -/
def setGeometry (columns rows : Nat) (s : State) : State :=
  matchingPass (freeReady { s with seq := { s.seq with columns := columns, rows := rows } })

/-- SET_SENSOR (R86). -/
def execSetSensor (tag columns rows : Nat) (s : State) : Host.Outcome State Fault Refusal :=
  .next (takeRequest tag false (fun s =>
    if geometryGood columns rows = false then answerCode tag .badOperand s
    else if sensorBusy s then answerCode tag .busy s
    else service (answer tag .ok (.geometry columns rows) (setGeometry columns rows s))) s)

end Sys2Proof.Machine
end

