-- ==== Sys2Proof/Machine/NoticeRequests.lean ====
section
/-! DEFINITION. TAKE_NOTICE and NOTICE_LEVELS (Section 11.5). -/

namespace Sys2Proof.Machine

/-- The better of two pending kinds: the higher level, and the lower rank between equals (R177). -/
def betterNotice (kinds : List Notice) (best : Option Nat) (i : Nat) : Option Nat :=
  match best with
  | none => some i
  | some b =>
    if ((kinds[b]?).map Notice.level).getD 0 < ((kinds[i]?).map Notice.level).getD 0 then some i else some b

/-- The pending kinds, by place. -/
def pendingKinds (kinds : List Notice) : List Nat :=
  (List.range kinds.length).filter fun i => (kinds[i]?).any fun x => x.pending && decide (0 < x.level)

/-- The kind TAKE_NOTICE selects (R177). -/
def noticeToTake (s : State) : Option Nat :=
  (pendingKinds s.notices.kinds).foldl (betterNotice s.notices.kinds) none

/-- A kind cleared. -/
def clearKind (i : Nat) (s : State) : State :=
  { s with notices := { s.notices with kinds := s.notices.kinds.modify i Notice.cleared } }

/-- The notice of a kind taken (R177). -/
def noticePayload (x : Notice) (i : Nat) (left : Nat) : Payload := .notice (i + 1) x.count x.subject left

/-- TAKE_NOTICE (R177). -/
def execTakeNotice (tag : Nat) (s : State) : Host.Outcome State Fault Refusal :=
  .next (takeRequest tag false (fun s =>
    match noticeToTake s with
    | none => answer tag .ok (.notice 0 0 none 0) s
    | some i =>
      match s.notices.kinds[i]? with
      | none => s
      | some x =>
        let t := clearKind i s
        answer tag .ok (noticePayload x i (pendingKinds t.notices.kinds).length) t) s)

/-- A kind with its level set; at level 0 it is cleared (R178). -/
def Notice.setLevel (l : Option Nat) (x : Notice) : Notice :=
  match l with
  | none => x
  | some 0 => { x.cleared with level := 0 }
  | some n => { x with level := n }

/-- The levels and the floor set (R178). -/
def setLevels (levels : List (Option Nat)) (floor : Option Nat) (s : State) : State :=
  { s with notices :=
    { kinds := (levels.zip s.notices.kinds).map fun p => p.2.setLevel p.1
      floor := floor.getD s.notices.floor } }

/-- All levels and the floor as they stand (R178). -/
def levelsReport (s : State) : Payload := .levels (s.notices.kinds.map (·.level)) s.notices.floor

/-- NOTICE_LEVELS (R178). -/
def execNoticeLevels (tag : Nat) (levels : List (Option Nat)) (floor : Option Nat) (s : State) :
    Host.Outcome State Fault Refusal :=
  .next (takeRequest tag false (fun s =>
    if levels.length = 15 ∧ levels.all (fun l => l.all (fun n => decide (n ≤ 7))) = true ∧
        floor.all (fun n => decide (n ≤ 7)) = true then
      answer tag .ok (levelsReport (setLevels levels floor s)) (setLevels levels floor s)
    else answerCode tag .badOperand s) s)

end Sys2Proof.Machine
end

