-- ==== Sys2Proof/Machine/Operands.lean ====
section
/-! DEFINITION. The operands of a request packet read into a command (R171, R174 test 4). Where R171 leaves
an encoding open, log 24 says which is taken. -/

namespace Sys2Proof.Machine

/-! ### Items -/

/-- A number of `n` bytes taken from the front. -/
def takeNum (n : Nat) (bs : List Byte) : Option (Nat × List Byte) :=
  if bs.length < n then none else some (fromBytes (bs.take n), bs.drop n)

/-- A signed number of `n` bytes. -/
def takeSigned (n : Nat) (bs : List Byte) : Option (Int × List Byte) :=
  if bs.length < n then none else some (fromSigned (bs.take n), bs.drop n)

/-- A label of sixteen bytes. -/
def takeLabel (bs : List Byte) : Option (Label × List Byte) :=
  if bs.length < 16 then none else some (bs.take 16, bs.drop 16)

/-- A name's byte and a parameter of `n` bytes. -/
def takePair (n : Nat) (bs : List Byte) : Option ((Nat × Nat) × List Byte) := do
  let (a, bs) ← takeNum 1 bs
  let (b, bs) ← takeNum n bs
  return ((a, b), bs)

/-- A crop: its name's byte and a rectangle. -/
def takeCrop (bs : List Byte) : Option ((Nat × Crop) × List Byte) := do
  let (a, bs) ← takeNum 1 bs
  let (left, bs) ← takeNum 2 bs
  let (top, bs) ← takeNum 2 bs
  let (width, bs) ← takeNum 2 bs
  let (height, bs) ← takeNum 2 bs
  return ((a, { left, top, width, height }), bs)

/-- An item taken when it is present. -/
def takeIf {α : Type} (present : Bool) (p : List Byte → Option (α × List Byte)) (bs : List Byte) :
    Option (Option α × List Byte) :=
  if present then (p bs).map fun x => (some x.1, x.2) else some (none, bs)

/-- Presence bit `i`: bit `i mod 8` of presence byte `i / 8` (R171). -/
def present (ps : List Byte) (i : Nat) : Bool := (ps.getD (i / 8) 0#8).getLsbD (i % 8)

/-- `n` presence bytes taken from the front. -/
def takePresence (n : Nat) (bs : List Byte) : Option (List Byte × List Byte) :=
  if bs.length < n then none else some (bs.take n, bs.drop n)

/-- The operands must end with the last item (R174). -/
def finish {α : Type} (x : α) (bs : List Byte) : Option α := if bs = [] then some x else none

/-! ### Groups of settings -/

/-- An auto setting whose priority is an optional item of its own; a priority without the name is of no
account (log 24). -/
def joinAuto (name prio : Option Nat) : Option (Nat × Option Nat) := name.map fun n => (n, prio)

/-- The settings of a ROLL_OPEN or ROLL_SET, after its presence bytes (Table 2-2). -/
def takeRoll (ps : List Byte) (bs : List Byte) : Option (RollOperands × List Byte) := do
  let (label, bs) ← takeIf (present ps 0) takeLabel bs
  let (frameLimit, bs) ← takeIf (present ps 1) (takeNum 2) bs
  let (defaultRecipe, bs) ← takeIf (present ps 2) (takeNum 1) bs
  let (defaultKind, bs) ← takeIf (present ps 3) (takePair 1) bs
  let (darkPolicy, bs) ← takeIf (present ps 4) (takePair 4) bs
  let (reuseAge, bs) ← takeIf (present ps 5) (takeNum 2) bs
  let (darkYield, bs) ← takeIf (present ps 6) (takeNum 1) bs
  let (sources, bs) ← takeIf (present ps 7) (takeNum 1) bs
  let (reclose, bs) ← takeIf (present ps 8) (takeNum 1) bs
  let (armWindow, bs) ← takeIf (present ps 9) (takeNum 2) bs
  let (maxOpen, bs) ← takeIf (present ps 10) (takeNum 2) bs
  let (settleDelay, bs) ← takeIf (present ps 11) (takeNum 2) bs
  let (stackWindow, bs) ← takeIf (present ps 12) (takeNum 2) bs
  let (previewName, bs) ← takeIf (present ps 13) (takeNum 1) bs
  let (previewPrio, bs) ← takeIf (present ps 14) (takeNum 1) bs
  let (fullName, bs) ← takeIf (present ps 15) (takeNum 1) bs
  let (fullPrio, bs) ← takeIf (present ps 16) (takeNum 1) bs
  let o : RollOperands :=
    { label, frameLimit, defaultRecipe, defaultKind, darkPolicy, reuseAge, darkYield, sources, reclose,
      armWindow, maxOpen, settleDelay, stackWindow, autoPreview := joinAuto previewName previewPrio,
      autoFull := joinAuto fullName fullPrio }
  return (o, bs)

/-- The parameters of a RECIPE_SET (Table 2-5). -/
def takeRecipe (ps : List Byte) (bs : List Byte) : Option (RecipeOperands × List Byte) := do
  let (gainR, bs) ← takeIf (present ps 0) (takeNum 2) bs
  let (gainG, bs) ← takeIf (present ps 1) (takeNum 2) bs
  let (gainB, bs) ← takeIf (present ps 2) (takeNum 2) bs
  let (compensation, bs) ← takeIf (present ps 3) (takeSigned 1) bs
  let (saturation, bs) ← takeIf (present ps 4) (takeSigned 1) bs
  let (toneCurve, bs) ← takeIf (present ps 5) (takeNum 1) bs
  let (noise, bs) ← takeIf (present ps 6) (takeNum 1) bs
  let (sharpening, bs) ← takeIf (present ps 7) (takeNum 1) bs
  let (crop, bs) ← takeIf (present ps 8) takeCrop bs
  let (rotation, bs) ← takeIf (present ps 9) (takeNum 1) bs
  let (fullScale, bs) ← takeIf (present ps 10) (takeNum 1) bs
  let o : RecipeOperands :=
    { gainR, gainG, gainB, compensation, saturation, toneCurve, noise, sharpening, crop, rotation,
      fullScale }
  return (o, bs)

/-- The settings of a SET_SYNC (Table 3-1). -/
def takeSync (ps : List Byte) (bs : List Byte) : Option (SyncOperands × List Byte) := do
  let (polarityRelease, bs) ← takeIf (present ps 0) (takeNum 1) bs
  let (polarityXsync, bs) ← takeIf (present ps 1) (takeNum 1) bs
  let (polarityAux, bs) ← takeIf (present ps 2) (takeNum 1) bs
  let (countRelease, bs) ← takeIf (present ps 3) (takeNum 1) bs
  let (countXsync, bs) ← takeIf (present ps 4) (takeNum 1) bs
  let (countAux, bs) ← takeIf (present ps 5) (takeNum 1) bs
  let (auxRole, bs) ← takeIf (present ps 6) (takeNum 1) bs
  let (reloutWidth, bs) ← takeIf (present ps 7) (takeNum 2) bs
  let o : SyncOperands :=
    { polarityRelease, polarityXsync, polarityAux, countRelease, countXsync, countAux, auxRole,
      reloutWidth }
  return (o, bs)

/-- The levels of a NOTICE_LEVELS, `n` of them from presence bit `i` on. -/
def takeLevels (ps : List Byte) : Nat → Nat → List Byte → Option (List (Option Nat) × List Byte)
  | 0, _, bs => some ([], bs)
  | n + 1, i, bs =>
    match takeIf (present ps i) (takeNum 1) bs with
    | none => none
    | some (l, bs) => (takeLevels ps n (i + 1) bs).map fun x => (l :: x.1, x.2)

/-! ### The requests (Table 11-3) -/

/-- What a request packet asks for. -/
inductive Request where
  /-- The kind code is not in Table 11-3. -/
  | unknown
  /-- The operands are not of the length called for, or the TRIGGER kind is neither FIRE nor TIMED. -/
  | badForm
  | command (i : Instr)
  deriving DecidableEq, Repr

/-- A request of no operand. -/
def readNone (i : Instr) (bs : List Byte) : Option Instr := finish i bs

/-- A request of one number. -/
def readOne (n : Nat) (f : Nat → Instr) (bs : List Byte) : Option Instr := do
  let (a, bs) ← takeNum n bs
  finish (f a) bs

/-- A request of one optional number. -/
def readOption (n : Nat) (f : Option Nat → Instr) (bs : List Byte) : Option Instr := do
  let (ps, bs) ← takePresence 1 bs
  let (a, bs) ← takeIf (present ps 0) (takeNum n) bs
  finish (f a) bs

def readShotList (tag : Nat) (bs : List Byte) : Option Instr := do
  let (ps, bs) ← takePresence 1 bs
  let (first, bs) ← takeNum 4 bs
  let (count, bs) ← takeNum 1 bs
  let (label, bs) ← takeIf (present ps 0) takeLabel bs
  finish (.shotList tag first count label) bs

def readRollOpen (tag : Nat) (bs : List Byte) : Option Instr := do
  let (ps, bs) ← takePresence 3 bs
  let (o, bs) ← takeRoll ps bs
  finish (.rollOpen tag o) bs

def readRollSet (tag : Nat) (bs : List Byte) : Option Instr := do
  let (ps, bs) ← takePresence 3 bs
  let (slot, bs) ← takeNum 1 bs
  let (o, bs) ← takeRoll ps bs
  finish (.rollSet tag slot o) bs

def readRecipeSet (tag : Nat) (bs : List Byte) : Option Instr := do
  let (ps, bs) ← takePresence 2 bs
  let (recipe, bs) ← takeNum 1 bs
  let (o, bs) ← takeRecipe ps bs
  finish (.recipeSet tag recipe o) bs

def readSetSync (tag : Nat) (bs : List Byte) : Option Instr := do
  let (ps, bs) ← takePresence 1 bs
  let (o, bs) ← takeSync ps bs
  finish (.setSync tag o) bs

def readSetClock (tag : Nat) (bs : List Byte) : Option Instr := do
  let (ps, bs) ← takePresence 1 bs
  let (w, bs) ← takeIf (present ps 0) (takeSigned 8) bs
  finish (.setClock tag w) bs

/-- A TRIGGER: FIRE 0, for which a duration is of no account, or TIMED 1 (R68). That the duration is an optional item
behind a presence byte, and no fixed parameter of the named kind, is log 24. -/
def readTrigger (tag : Nat) (bs : List Byte) : Option Instr := do
  let (ps, bs) ← takePresence 1 bs
  let (kind, bs) ← takeNum 1 bs
  let (d, bs) ← takeIf (present ps 0) (takeNum 4) bs
  match kind with
  | 0 => finish (.triggerFire tag) bs
  | 1 => finish (.triggerTimed tag d) bs
  | _ => none

def readSetSensor (tag : Nat) (bs : List Byte) : Option Instr := do
  let (columns, bs) ← takeNum 2 bs
  let (rows, bs) ← takeNum 2 bs
  finish (.setSensor tag columns rows) bs

def readDevelop (tag : Nat) (bs : List Byte) : Option Instr := do
  let (shot, bs) ← takeNum 4 bs
  let (kind, bs) ← takeNum 1 bs
  let (priority, bs) ← takeNum 1 bs
  finish (.develop tag shot kind priority) bs

def readReadPreview (tag : Nat) (bs : List Byte) : Option Instr := do
  let (slot, bs) ← takeNum 1 bs
  let (offset, bs) ← takeNum 4 bs
  let (length, bs) ← takeNum 2 bs
  finish (.readPreview tag slot offset length) bs

def readShotAmend (tag : Nat) (bs : List Byte) : Option Instr := do
  let (ps, bs) ← takePresence 1 bs
  let (shot, bs) ← takeNum 4 bs
  let (rating, bs) ← takeIf (present ps 0) (takeNum 1) bs
  let (protect, bs) ← takeIf (present ps 1) (takeNum 1) bs
  let (recipe, bs) ← takeIf (present ps 2) (takeNum 1) bs
  finish (.shotAmend tag shot { rating, protect, recipe, waiveDark := present ps 3 }) bs

def readNoticeLevels (tag : Nat) (bs : List Byte) : Option Instr := do
  let (ps, bs) ← takePresence 2 bs
  let (levels, bs) ← takeLevels ps 15 0 bs
  let (floor, bs) ← takeIf (present ps 15) (takeNum 1) bs
  finish (.noticeLevels tag levels floor) bs

/-- The reader of a kind's operands; none where the kind is not in Table 11-3. -/
def reader (kind tag : Nat) : Option (List Byte → Option Instr) :=
  match kind with
  | 0x01 => some (readOne 4 (.shotLookup tag))
  | 0x02 => some (readShotList tag)
  | 0x10 => some (readRollOpen tag)
  | 0x11 => some (readRollSet tag)
  | 0x12 => some (readOption 1 (.rollSelect tag))
  | 0x13 => some (readOne 1 (.rollClose tag))
  | 0x14 => some (readOne 1 (.rollFree tag))
  | 0x15 => some (readOption 1 (.rollQuery tag))
  | 0x18 => some (readRecipeSet tag)
  | 0x19 => some (readOne 1 (.recipeQuery tag))
  | 0x20 => some (readSetSync tag)
  | 0x21 => some (readSetClock tag)
  | 0x28 => some (readTrigger tag)
  | 0x29 => some (readSetSensor tag)
  | 0x30 => some (readDevelop tag)
  | 0x31 => some (readOption 1 (.devFloor tag))
  | 0x38 => some (readOne 4 (.getPreview tag))
  | 0x39 => some (readReadPreview tag)
  | 0x3A => some (readOne 1 (.unpinPreview tag))
  | 0x40 => some (readNone (.cardQuery tag))
  | 0x41 => some (readNone (.cardEject tag))
  | 0x42 => some (readOne 1 (.cardFormat tag))
  | 0x48 => some (readShotAmend tag)
  | 0x49 => some (readOne 4 (.shotRetire tag))
  | 0x50 => some (readNone (.status tag))
  | 0x51 => some (readNone (.clearCauses tag))
  | 0x52 => some (readNone (.restart tag))
  | 0x58 => some (readNone (.takeNotice tag))
  | 0x59 => some (readNoticeLevels tag)
  | _ => none

/-- What a packet of a kind, a tag and operands asks for (R174 tests 2 and 4). -/
def readRequest (kind tag : Nat) (operands : List Byte) : Request :=
  match reader kind tag with
  | none => .unknown
  | some f =>
    match f operands with
    | none => .badForm
    | some i => .command i

end Sys2Proof.Machine
end

