-- ==== Sys2Proof/Machine/SyncUnit.lean ====
section
/-! DEFINITION. The Sync Unit: sampling, qualification and delivery of edges, the release pulse, SET_SYNC and
SET_CLOCK (Chapter 3). -/

namespace Sys2Proof.Machine

/-! ### Qualification (R48 to R50) -/

/-- A qualifier restarts from the current level (R48). -/
def SyncLine.restart (l : SyncLine) : SyncLine :=
  { l with accepted := l.sampled, run := 0, runStart := none }

/-- All three qualifiers restart together (R48). -/
def Sync.restart (x : Sync) : Sync :=
  { x with release := x.release.restart, xsync := x.xsync.restart, aux := x.aux.restart }

def restartQualifiers (s : State) : State := { s with sync := s.sync.restart }

/-- One sample compared with the accepted level (R46, R49). -/
def SyncLine.sample (t : Time) (pin : PinLevel) (l : SyncLine) : SyncLine :=
  let l := { l with pin := pin }
  if l.sampled = l.accepted then { l with run := 0, runStart := none }
  else if l.run = 0 then { l with run := 1, runStart := some t }
  else { l with run := l.run + 1 }

/-- Samples at which the input read its accepted level (R49, log 4). -/
def SyncLine.settleLevel (l : SyncLine) : SyncLine :=
  { l with pin := l.polarity.pinFor l.accepted, run := 0, runStart := none }

/-- The run has reached Q and is confirmed (R49). -/
def SyncLine.full (l : SyncLine) : Bool := decide (0 < l.run) && decide (l.count ≤ l.run)

def Contact.other : Contact → Contact
  | .closed => .opened
  | .opened => .closed

/-- The level of the run accepted (R49). -/
def SyncLine.accept (l : SyncLine) : SyncLine :=
  { l with accepted := l.accepted.other, run := 0, runStart := none }

def Sync.line (x : Sync) : SyncInput → SyncLine
  | .release => x.release
  | .xsync => x.xsync
  | .aux => x.aux

def Sync.setLine (i : SyncInput) (l : SyncLine) (x : Sync) : Sync :=
  match i with
  | .release => { x with release := l }
  | .xsync => { x with xsync := l }
  | .aux => { x with aux := l }

def setLine (i : SyncInput) (l : SyncLine) (s : State) : State := { s with sync := s.sync.setLine i l }

/-! ### Delivery (R51 to R53, Table 3-5) -/

/-- An edge delivered to the sequencer as Table 3-5 gives. -/
def deliver (i : SyncInput) (level : Contact) (t : Time) (s : State) : State :=
  match i, level with
  | .release, .closed => release s
  | .release, .opened => s
  | .xsync, .closed => xsyncClose t s
  | .xsync, .opened => xsyncOpening t s
  | .aux, .opened => s
  | .aux, .closed =>
    match s.sync.auxRole with
    | .none => s
    | .finish => auxEnd t s
    | .release2 => release s

/-- A confirmed run: its level is accepted Q sampling periods after its start, and in RUNNING the edge is
delivered, stamped with the run start (R49 to R51, R53). The sample of the instant of acceptance is compared with
the new accepted level. -/
def qualify (i : SyncInput) (s : State) : State :=
  let l := s.sync.line i
  if l.full then
    let t := l.runStart.getD s.timeBase
    let s := (setLine i l.accept s).advanceTo (t + BitVec.ofNat 48 (4 * l.count))
    if s.part = .running then service (deliver i l.accept.accepted t s) else s
  else s

/-- EDGE_QUALIFIED (R49). -/
def execEdgeQualified (input : SyncInput) (s : State) : Host.Outcome State Fault Refusal :=
  .next (qualify input s)

/-- The next sampling instant: the next multiple of 4 not yet sampled (R46, log 4). -/
def nextSample (s : State) : Time :=
  let c := (s.timeBase + 3#48) &&& ~~~3#48
  if c = s.sync.lastSample then c + 4#48 else c

/-- The three lines changed together. -/
def mapLines (f : SyncInput → SyncLine → SyncLine) (s : State) : State :=
  { s with sync := { s.sync with
    release := f .release s.sync.release, xsync := f .xsync s.sync.xsync, aux := f .aux s.sync.aux } }

/-- The pin of an input among the three given. -/
def pinOf (release xsync aux : PinLevel) : SyncInput → PinLevel
  | .release => release
  | .xsync => xsync
  | .aux => aux

/-- The sample of one instant, after `gap` instants at which every input read its accepted level; the instants
before those that no row has sampled are sampled with the pins as they were (R46, log 4). -/
def takeSample (gap : Nat) (pin : SyncInput → PinLevel) (s : State) : State :=
  let t := nextSample s + BitVec.ofNat 48 (4 * gap)
  let s := { s with sync := s.sync.pass (nextSample s) }
  let s := if gap = 0 then s else mapLines (fun _ l => l.settleLevel) s
  let s := mapLines (fun i l => l.sample t (pin i)) s
  { s with timeBase := t, sync := { s.sync with lastSample := t } }

/-- SYNC_SAMPLE (R46, R49): a run already confirmed is accepted first, in the order RELEASE, XSYNC, AUX
(log 5). -/
def execSyncSample (gap : Nat) (release xsync aux : PinLevel) (s : State) :
    Host.Outcome State Fault Refusal :=
  .next (takeSample gap (pinOf release xsync aux) (qualify .aux (qualify .xsync (qualify .release s))))

/-! ### The release pulse (R54) -/

/-- RELOUT_PULSE_END: the pulse end is reached (R54). -/
def execReloutPulseEnd (s : State) : Host.Outcome State Fault Refusal :=
  .next (match s.sync.pulseEnd with
    | none => s
    | some t =>
      let s := s.advanceTo t
      { s with sync := { s.sync with pulseEnd := none } })

/-! ### SET_SYNC and SET_CLOCK (R59 to R61) -/

/-- Every setting named lies in its range (Table 3-1). -/
def syncGood (o : SyncOperands) : Bool :=
  o.polarityRelease.all (inRange · 0 1) && o.polarityXsync.all (inRange · 0 1) &&
  o.polarityAux.all (inRange · 0 1) && o.countRelease.all (inRange · 1 64) &&
  o.countXsync.all (inRange · 1 64) && o.countAux.all (inRange · 1 64) &&
  o.auxRole.all (inRange · 0 2) && o.reloutWidth.all (inRange · 10 500)

def polarityOf (n : Nat) : Polarity := if n = 0 then .closedLow else .closedHigh

def roleOf : Nat → AuxRole
  | 0 => .none
  | 1 => .finish
  | _ => .release2

/-- A line with the settings named (R60). -/
def SyncLine.set (polarity count : Option Nat) (l : SyncLine) : SyncLine :=
  { l with polarity := (polarity.map polarityOf).getD l.polarity, count := count.getD l.count }

/-- The settings named at their new values, and the qualifiers restarted (R60). -/
def applySync (o : SyncOperands) (x : Sync) : Sync :=
  Sync.restart
    { x with
      release := x.release.set o.polarityRelease o.countRelease
      xsync := x.xsync.set o.polarityXsync o.countXsync
      aux := x.aux.set o.polarityAux o.countAux
      auxRole := (o.auxRole.map roleOf).getD x.auxRole
      reloutWidth := o.reloutWidth.getD x.reloutWidth }

/-- What SET_SYNC reports (R60). -/
def syncReport (x : Sync) : SyncReport :=
  { release := x.release, xsync := x.xsync, aux := x.aux, auxRole := x.auxRole, width := x.reloutWidth }

/-- SET_SYNC (R59, R60). -/
def execSetSync (tag : Nat) (ops : SyncOperands) (s : State) : Host.Outcome State Fault Refusal :=
  .next (takeRequest tag false (fun s =>
    if syncGood ops = false then answerCode tag .badOperand s
    else if s.seq.state ≠ .idle then answerCode tag .busy s
    else
      let x := applySync ops s.sync
      answer tag .ok (.sync (syncReport x)) { s with sync := x }) s)

/-- What SET_CLOCK reports (R61). -/
def clockReport (s : State) : Payload := .clock s.timeBase s.wallOffset (wallOf s s.timeBase)

/-- The wall offset set so that the wall time now is the one given (R61). -/
def setWall (wall : Int) (s : State) : State := { s with wallOffset := wall - s.timeBase.toNat }

/-- SET_CLOCK (R61). -/
def execSetClock (tag : Nat) (wall : Option Int) (s : State) : Host.Outcome State Fault Refusal :=
  .next (takeRequest tag false (fun s =>
    match wall with
    | none => answer tag .ok (clockReport s) s
    | some w =>
      if inRangeInt w 0 4611686018427387904 then
        answer tag .ok (clockReport (setWall w s)) (setWall w s)
      else answerCode tag .badOperand s) s)

end Sys2Proof.Machine
end

