-- ==== Sys2Proof/Machine/Parts.lean ====
section
/-! DEFINITION. The part states: the resets, start-up, RESTART, STATUS, CLEAR_CAUSES (Section 11.6). -/

namespace Sys2Proof.Machine

/-! ### Resets (R179, R180) -/

/-- The part held in reset: its output lines are negated and MISO is at high impedance (R179, log 38). -/
def holdInReset (s : State) : State := { s with held := true }

/-- The reset ends: every block takes its reset values and the part is in STARTING (R179). -/
def endReset (release xsync aux : PinLevel) (card : Bool) (causes : Causes) (mem : Memory) (s : State) :
    State :=
  State.afterReset release xsync aux card causes mem s.pending s.free

/-- POWER_ON_RESET: POWER set, PIN and RESTART clear; frame memory lists nothing (log 22). -/
def execPowerOnReset (release xsync aux : PinLevel) (card : Bool) (s : State) :
    Host.Outcome State Fault Refusal :=
  .next (endReset release xsync aux card { power := true, pin := false, restart := false } .reset
    (holdInReset s))

/-- PIN_RESET: PIN set, POWER and RESTART kept; frame memory is kept (log 22). -/
def execPinReset (release xsync aux : PinLevel) (card : Bool) (s : State) :
    Host.Outcome State Fault Refusal :=
  .next (endReset release xsync aux card { s.causes with pin := true } s.mem (holdInReset s))

/-- The internal region of frame memory cleared (R179). -/
def clearInternal (s : State) : State :=
  { s with mem := clearBytes s.mem internalBase Config.frameMemoryBytes }

/-- STARTUP_COMPLETE: the internal region has been cleared (R179). -/
def execStartupComplete (s : State) : Host.Outcome State Fault Refusal :=
  .next (if s.part = .starting then enterRunning (clearInternal s) else s)

/-- RESTART_COMPLETE: the command that was on the bus at the RESTART is answered or times out (R181). -/
def execRestartComplete (s : State) : Host.Outcome State Fault Refusal :=
  .next (if s.part = .restarting then orphanAnswered s else s)

/-! ### STATUS and CLEAR_CAUSES (R182, R180) -/

/-- How many resident records are in a life. -/
def countLife (s : State) (l : Life) : Nat := ((residents s).filter fun r => r.life == l).length

/-- What STATUS reports (R182): its own tag is counted as HELD, its own answer is not (log 40). -/
def statusReport (s : State) : StatusReport :=
  { part := s.part, seq := s.seq.state, current := s.rolls.current, engine := s.dev.engine,
    card := s.card.state, freePlanes := (freePlanes s).length, opened := countLife s .opened,
    held := countLife s .held, settled := countLife s .settled, void := countLife s .void,
    retiring := countLife s .retiring, loading := (loadingShots s).length,
    heldTags := s.link.held.length, answers := s.link.queue.length,
    pending := (s.notices.kinds.filter (·.pending)).length, causes := s.causes }

/-- STATUS, served in every part state (R182). -/
def execStatus (tag : Nat) (s : State) : Host.Outcome State Fault Refusal :=
  .next (takeRequest tag true (fun s => answer tag .ok (.status (statusReport s)) s) s)

/-- CLEAR_CAUSES (R180). -/
def execClearCauses (tag : Nat) (s : State) : Host.Outcome State Fault Refusal :=
  .next (takeRequest tag false (fun s =>
    { answer tag .ok (.causes s.causes) s with
      causes := { power := false, pin := false, restart := false } }) s)

/-! ### RESTART (R181) -/

/-- The unit's queue is emptied; the part of the RUNNING request's work that has been done is done (R97). -/
def stopPau (s : State) : State :=
  match runningPau s with
  | none => { s with pau := [] }
  | some q => { partialWork q s with pau := [] }

/-- The exposure entry in progress cut off (R85). -/
def ExpEntry.cutOff (e : ExpEntry) : ExpEntry :=
  match e.status with
  | .done => e
  | _ => { e with status := .failed }

/-- The open shot settled by its DONE entries (R85). -/
def settleOpen (s : State) : State :=
  match openRecord s with
  | none => idleSeq s
  | some r =>
    if exposureCount r = 0 then removeOpen s else idleSeq (holdShot (updateEntry ExpEntry.cutOff s))

/-- The sequencer at RESTART: its scratch plane is freed in every state (R85, R88); the dark exposure it leaves is the
Dark Unit's to abandon (R111). -/
def restartSequencer (s : State) : State :=
  let s := freeScratch s
  match s.seq.state with
  | .idle => idleSeq s
  | .dark => idleSeq s
  | .darkReadout => idleSeq (readoutEnds s)
  | .readout => settleOpen (readoutEnds s)
  | _ => settleOpen s

/-- Whether an entry is abandoned at RESTART: PLANNED or EXPOSING (R111). -/
def DarkEntry.abandoned (x : DarkEntry) : Bool := x.state == .planned || x.state.isExposing

/-- The entries abandoned at RESTART, lowest first. -/
def abandonedEntries (s : State) : List Nat :=
  (List.range s.dark.entries.length).filter fun e => (darkEntry s e).abandoned

/-- The Dark Unit at RESTART: every EXPOSING and PLANNED entry fails its shots and is FREE, and the plan queue is
empty. DARK_ABANDONED is not raised, and DARK_GAVE_UP is cleared in the same taking (R106, R111). -/
def restartDark (s : State) : State :=
  let s := (abandonedEntries s).foldl (fun s e => failEntry e s) s
  setDarkClaim false { s with dark := { s.dark with plan := [] } }

/-- The Development Engine at RESTART (R128). -/
def restartDev (s : State) : State :=
  let reading := (runningJob s).map (·.shot)
  let s := dropHolds s
  let s := { s with dev := { s.dev with queue := [], readout := false } }
  setEngineClaim false ((reading.map settle).getD id s)

/-- A record removed without an answer: its request is discarded, and the planes of its hand-offs are freed (R27, R88,
R169). -/
def discardRecord (s : State) (n : Nat) : State := removeRecord n (freeHandoffs n s)

/-- Every LOADING slot FREE, its waiting requests discarded (R27). -/
def discardLoads (s : State) : State :=
  { s with table := { s.table with slots := s.table.slots.map fun
      | .loading _ _ => .free
      | x => x } }

/-- Card work in flight and queued ends; the command on the bus is left to its answer (R160 step 1). -/
def restartCardWork (s : State) : State :=
  let s := (retiringShots s).foldl discardRecord (discardLoads s)
  orphanBus { s with card := { s.card with
    reads := [], entries := [], work := none, ejectTag := none, formatTag := none,
    formatWait := none } }

/-- The hand-offs that stay are WAITING (R160 step 4). -/
def waitHandoffs (s : State) : State :=
  { s with card := { s.card with handoffs := s.card.handoffs.map fun h => { h with writing := false } } }

/-- The Card Store at RESTART, up to its new state (R160 steps 1 to 4). -/
def restartCard (s : State) : State :=
  let s := returnHeld (restartCardWork s)
  let lost := dirtySettled s
  clearFull (waitHandoffs (emptyIndex (raiseAmendLost lost (dropSettled s))))

/-- The card state at the end of the RESTART work (R160 step 5). -/
def restartMount (s : State) : State :=
  if s.card.detect.accepted then beginMount s else setCardState .absent s

/-- The APPLY_DARK that was running, placed first with the place it had reached (R97). -/
def replaceRunning (q : Option (PauRequest × Nat)) (s : State) : State :=
  match q with
  | none => s
  | some (q, at_) =>
    match q.op with
    | .accumulate => s
    | .applyDark e => placeApplyDark q.shot e at_ s

/-- One APPLY_DARK placed anew (R97). -/
def replaceRequest (s : State) (n : Nat) : State :=
  if pauNames s n then s
  else
    match (findRecord s n).bind (readyLink s) with
    | none => s
    | some e => placeApplyDark n e 0 s

/-- The APPLY_DARK requests placed anew (R97). -/
def replacePau (q : Option (PauRequest × Nat)) (s : State) : State :=
  let s := replaceRunning q s
  (shotsWhere s fun r => (readyLink s r).isSome).foldl replaceRequest s

/-- The Notice Unit cleared; levels and floor kept (R176). -/
def clearNotices (s : State) : State :=
  { s with notices := { s.notices with kinds := s.notices.kinds.map Notice.cleared } }

/-- The Link Port at RESTART: every answer and every other outstanding request is discarded, and the RESTART
is answered with the causes as they stood (R181 steps 1 and 2). An answer being sent gives way to filler
(log 11). -/
def restartLink (tag : Nat) (causes : Causes) (s : State) : State :=
  { s with link := { s.link with
    held := [tag], queue := [{ tag := tag, result := .ok, payload := .causes causes }], refusal := none,
    miso := if s.link.miso = .quiet then .quiet else .filler } }

/-- The work of every block at RESTART, before the notices are cleared (R181). -/
def restartBlocks (s : State) : State :=
  restartDev (restartDark (restartSequencer (stopPau s)))

/-- The work of the Card Store and of the other blocks, after the notices are cleared (R181, R132, R53,
R55). -/
def restartStores (s : State) : State :=
  let s := restartCard { s with cache := .reset }
  restartQualifiers { s with sync := { s.sync with pulseEnd := none } }

/-- RESTARTING ends at once when no command is on the bus (R181, log 12). -/
def restartEnds (s : State) : State := if s.card.bus.isNone then enterRunning (restartMount s) else restartMount s

/-- A RESTART taken (R181). -/
def restartPart (tag : Nat) (s : State) : State :=
  let causes := s.causes
  let running := (runningPau s).map fun q => (q, stoppedAt s q)
  let s := restartStores (clearNotices (restartBlocks s))
  let s := restartLink tag causes (replacePau running s)
  restartEnds { s with part := .restarting, causes := { causes with restart := true } }

/-- RESTART (R181). -/
def execRestart (tag : Nat) (s : State) : Host.Outcome State Fault Refusal :=
  .next (takeRequest tag false (restartPart tag) s)

end Sys2Proof.Machine
end

