-- ==== Sys2Proof/Machine/Payload.lean ====
section
/-! DEFINITION. The bytes of an answer: its payload's items and its response packet (R171, Table 11-2). Where
R171 leaves an encoding open, log 24 says which is taken. -/

namespace Sys2Proof.Machine

/-- An item of a payload (R171). -/
inductive Item where
  | always (bytes : List Byte)
  | optional (bytes : Option (List Byte))

/-- Which optional items are present, in order. -/
def presenceBits : List Item → List Bool
  | [] => []
  | .always _ :: rest => presenceBits rest
  | .optional b :: rest => b.isSome :: presenceBits rest

/-- Bits packed into bytes, the least significant first. -/
def packByte (bits : List Bool) (m : Nat) : Byte :=
  (List.range 8).foldl (fun b i => if bits.getD (8 * m + i) false then b ||| (1#8 <<< i) else b) 0#8

def packBits (bits : List Bool) : List Byte := (List.range ((bits.length + 7) / 8)).map (packByte bits)

def Item.bytes : Item → List Byte
  | .always b => b
  | .optional b => b.getD []

/-- The presence bytes at the head, then the items present (R171). -/
def encodeItems (items : List Item) : List Byte := packBits (presenceBits items) ++ items.flatMap Item.bytes

/-- A repeated group: a one-byte count, then each group (R171). -/
def encodeGroups (groups : List (List Item)) : List Byte :=
  beBytes 1 groups.length ++ groups.flatMap encodeItems

def num (n v : Nat) : Item := .always (beBytes n v)

def signed (n : Nat) (v : Int) : Item := .always (beSigned n v)

def flag (b : Bool) : Item := .always (beBytes 1 (if b then 1 else 0))

def optNum (n : Nat) (v : Option Nat) : Item := .optional (v.map (beBytes n))

def keyBytes (k : DevKey) : List Byte := beBytes 1 k.recipe ++ beBytes 2 k.generation.toNat

def timeBytes (t : Time) : List Byte := beBytes 6 t.toNat

/-! ### Places in the lists the rules give (R171) -/

def Life.code : Life → Nat
  | .opened => 0
  | .held => 1
  | .settled => 2
  | .void => 3
  | .retiring => 4

def kindItem : ShotKind → Item
  | .single => .always [0#8, 0#8]
  | .stack n => .always (beBytes 1 1 ++ beBytes 1 n)

def darkLinkItem : DarkLink → Item
  | .notRequired => .always [0#8, 0#8]
  | .awaiting => .always [1#8, 0#8]
  | .linked e => .always (beBytes 1 2 ++ beBytes 1 e)
  | .applied => .always [3#8, 0#8]
  | .waived => .always [4#8, 0#8]

def RawCard.code : RawCard → Nat
  | .unwritten => 0
  | .writing => 1
  | .cataloguing => 2
  | .onCard => 3

def ExpStatus.code : ExpStatus → Nat
  | .waiting => 0
  | .integrating => 1
  | .reading => 2
  | .done => 3
  | .failed => 4

def TimeSource.place : TimeSource → Nat
  | .xsync => 0
  | .auxEnd => 1
  | .timed => 2

def Polarity.code : Polarity → Nat
  | .closedLow => 0
  | .closedHigh => 1

def Contact.code : Contact → Nat
  | .closed => 0
  | .opened => 1

def AuxRole.code : AuxRole → Nat
  | .none => 0
  | .finish => 1
  | .release2 => 2

def SeqState.code : SeqState → Nat
  | .idle => 0
  | .armed => 1
  | .opened => 2
  | .settle => 3
  | .readout => 4
  | .accumulate => 5
  | .stackWait => 6
  | .dark => 7
  | .darkReadout => 8

def CardState.code : CardState → Nat
  | .absent => 0
  | .mounting => 1
  | .ready => 2
  | .readOnly => 3
  | .unformatted => 4
  | .faulted => 5
  | .ejecting => 6
  | .ejected => 7

def PartState.code : PartState → Nat
  | .starting => 0
  | .running => 1
  | .restarting => 2

def Stage.code : Stage → Nat
  | .demosaic => 0
  | .colour => 1
  | .tone => 2
  | .detail => 3
  | .scale => 4

def Work.code : Work → Nat
  | .developing _ => 2
  | .output => 4

def Work.stage? : Work → Option Nat
  | .developing st => some st.code
  | .output => none

/-- The engine state, its stage in DEVELOPING, and in SUSPENDED the state and stage to be resumed
(R182), as three optional items (log 24). -/
def engineItems : EngineState → List Item
  | .idle => [num 1 0, optNum 1 none, optNum 1 none, optNum 1 none]
  | .fetching => [num 1 1, optNum 1 none, optNum 1 none, optNum 1 none]
  | .active w => [num 1 w.code, optNum 1 w.stage?, optNum 1 none, optNum 1 none]
  | .suspended w => [num 1 3, optNum 1 none, optNum 1 (some w.code), optNum 1 w.stage?]

def ResultCode.code : ResultCode → Nat
  | .ok => 0x00
  | .busy => 0x01
  | .notFound => 0x02
  | .protectedShot => 0x03
  | .tableFull => 0x04
  | .queueFull => 0x05
  | .cardReadOnly => 0x06
  | .noPlane => 0x07
  | .noRoll => 0x08
  | .rollFull => 0x09
  | .darkBusy => 0x0A
  | .noRecord => 0x0B
  | .noCard => 0x0C
  | .cardError => 0x0D
  | .stale => 0x0E
  | .abandoned => 0x0F
  | .pinLimit => 0x10
  | .notPinned => 0x11
  | .tagBusy => 0x12
  | .badRequest => 0x13
  | .badOperand => 0x14

def subjectBytes : Subject → List Byte
  | .shot n => beBytes 4 n
  | .reason r => beBytes 4 r.code

/-! ### The payloads -/

/-- An exposure entry of SHOT_LOOKUP, its band from its temperature (R25, R11). -/
def exposureItems (e : ExpEntry) : List Item :=
  [num 1 e.index, num 1 e.status.code, .optional (e.openTime.map timeBytes),
   .optional (e.closeTime.map timeBytes), optNum 4 e.duration, optNum 1 (e.source.map TimeSource.place),
   flag e.truncated, .optional (e.temperature.map (beSigned 2)),
   .optional (e.temperature.map fun t => beSigned 1 (bandOf t))]

/-- The items of SHOT_LOOKUP (R25). The actual exposure count is the number of entries in the list; for a shot that was
never finished, of which R10 defines none, that is log 46. -/
def shotItems (v : ShotView) : List Item :=
  [num 4 v.number, optNum 4 v.former, num 1 v.life.code, optNum 1 v.rollSlot, .always v.label,
   num 2 v.frame, kindItem v.kind, num 1 v.exposures.length, .optional (v.takenAt.map (beSigned 8)),
   num 1 v.recipe, .always (keyBytes v.key), darkLinkItem v.darkLink, num 1 v.darkAttempts,
   num 1 v.rawCard.code, optNum 2 v.catSlot, num 1 v.rawRunCount, .optional (v.devKey.map keyBytes),
   .optional (v.devPending.map keyBytes), num 1 v.rating, flag v.protect, flag v.dirty]

/-- An item of SHOT_LIST: its life, or 5 for CARD (log 24). -/
def listItems (x : ListItem) : List Item :=
  [num 4 x.number, num 2 x.frame, .always x.label, num 1 ((x.life.map Life.code).getD 5)]

def policyItem : DarkPolicy → List Byte
  | .always => beBytes 1 0 ++ beBytes 4 0
  | .never => beBytes 1 1 ++ beBytes 4 0
  | .above t => beBytes 1 2 ++ beBytes 4 t

def sourcesByte (x : Sources) : Nat :=
  (if x.xsync then 1 else 0) + (if x.auxEnd then 2 else 0) + (if x.timed then 4 else 0)

def autoBytes : Option Nat → List Byte
  | none => [0#8, 0#8]
  | some p => beBytes 1 1 ++ beBytes 1 p

/-- The settings of a roll, each an optional item: a FREE slot reports none. The state of the roll, which is also the
first field of Table 2-2, is sent once, before them (R40, log 24). -/
def rollItems (r : Option Roll) : List Item :=
  [.optional (r.map (·.label)), optNum 2 (r.map (·.frameLimit)), optNum 2 (r.map (·.nextFrame)),
   optNum 1 (r.map (·.defaultRecipe)), .optional (r.map fun r => (kindItem r.defaultKind).bytes),
   .optional (r.map fun r => policyItem r.darkPolicy), optNum 2 (r.map (·.reuseAge)),
   optNum 1 (r.map fun r => if r.darkYield = .yield then 0 else 1),
   optNum 1 (r.map fun r => sourcesByte r.sources),
   optNum 1 (r.map fun r => if r.reclose = .endFirst then 0 else 1), optNum 2 (r.map (·.armWindow)),
   optNum 2 (r.map (·.maxOpen)), optNum 2 (r.map (·.settleDelay)), optNum 2 (r.map (·.stackWindow)),
   .optional (r.map fun r => autoBytes r.autoPreview), .optional (r.map fun r => autoBytes r.autoFull)]

def rollStateCode : RollSlot → Nat
  | .free => 0
  | .opened _ => 1
  | .closed _ => 2

/-- A crop: ABSENT, or a rectangle. -/
def cropItem : Option Crop → Item
  | none => .always (beBytes 9 0)
  | some c =>
    .always (beBytes 1 1 ++ beBytes 2 c.left ++ beBytes 2 c.top ++ beBytes 2 c.width ++ beBytes 2 c.height)

/-- Every parameter of Table 2-5, and the generation last (R45, log 24). -/
def recipeItems (r : Recipe) : List Item :=
  [num 2 r.gainR, num 2 r.gainG, num 2 r.gainB, signed 1 r.compensation, signed 1 r.saturation,
   num 1 r.toneCurve, num 1 r.noise, num 1 r.sharpening, cropItem r.crop, num 1 r.rotation,
   num 1 (if r.halfScale then 1 else 0), num 2 r.generation.toNat]

def syncItems (x : SyncReport) : List Item :=
  [num 1 x.release.polarity.code, num 1 x.xsync.polarity.code, num 1 x.aux.polarity.code,
   num 1 x.release.count, num 1 x.xsync.count, num 1 x.aux.count, num 1 x.auxRole.code, num 2 x.width,
   num 1 x.release.accepted.code, num 1 x.xsync.accepted.code, num 1 x.aux.accepted.code]

def identityBytes (x : Identity) : List Byte :=
  beBytes 8 x.serial ++ beBytes 8 x.capacity ++ beBytes 1 (if x.writeProtected then 1 else 0)

def volumeBytes (x : Volume) : List Byte := beBytes 4 x.id ++ beBytes 4 x.clusters

def cardItems (x : CardReport) : List Item :=
  [num 1 x.state.code, .optional (x.identity.map identityBytes), .optional (x.volume.map volumeBytes),
   num 4 x.freeClusters, num 2 x.liveEntries, num 2 x.damaged, num 2 x.emptySlots, flag x.full,
   num 1 x.readDepth, num 1 x.entryWrites, num 1 x.handoffs, num 1 x.markedHandoffs,
   num 1 x.heldUnwritten, num 1 x.amendments]

def causeItems (c : Causes) : List Item := [flag c.power, flag c.pin, flag c.restart]

def statusItems (x : StatusReport) : List Item :=
  [num 1 x.part.code, num 1 x.seq.code, optNum 1 x.current] ++ engineItems x.engine ++
  [num 1 x.card.code, num 1 x.freePlanes, num 1 x.opened, num 1 x.held, num 1 x.settled, num 1 x.void,
   num 1 x.retiring, num 1 x.loading, num 1 x.heldTags, num 1 x.answers, num 1 x.pending] ++
  causeItems x.causes

/-- The bytes of a payload, its items in the order its rule lists them (R171). That READ_PREVIEW sends its tag as one
optional item, absent for an ORPHANED slot, is log 24. -/
def Payload.bytes : Payload → List Byte
  | .empty => []
  | .shot v => encodeItems (shotItems v) ++ encodeGroups (v.exposures.map exposureItems)
  | .list items more catalogue =>
    encodeGroups (items.map listItems) ++ encodeItems [flag more, flag catalogue]
  | .rollSlot i => beBytes 1 i
  | .roll i x current n =>
    encodeItems ([num 1 i, num 1 (rollStateCode x), flag current] ++ rollItems x.roll? ++ [num 1 n])
  | .generation g => beBytes 2 g.toNat
  | .recipe r => encodeItems (recipeItems r)
  | .sync r => encodeItems (syncItems r)
  | .clock t offset wall => timeBytes t ++ beSigned 8 offset ++ beSigned 8 wall
  | .shotNumber n => beBytes 4 n
  | .geometry c r => beBytes 2 c ++ beBytes 2 r
  | .devFloor f n => beBytes 1 f ++ beBytes 1 n
  | .key k => keyBytes k
  | .previewMade i k => beBytes 1 i ++ keyBytes k
  | .previewHit i k w h n => beBytes 1 i ++ keyBytes k ++ beBytes 2 w ++ beBytes 2 h ++ beBytes 1 n
  | .previewBytes tag w h total bs =>
    encodeItems
      [.optional (tag.map fun x => beBytes 4 x.1 ++ keyBytes x.2), num 2 w, num 2 h, num 4 total,
       .always bs]
  | .pins n => beBytes 1 n
  | .card r => encodeItems (cardItems r)
  | .amended r =>
    encodeItems
      [num 4 r.number, num 1 r.rating, flag r.protect, num 1 r.recipe, .always (keyBytes r.key),
       darkLinkItem r.darkLink, flag r.dirty]
  | .status r => encodeItems (statusItems r)
  | .causes c => encodeItems (causeItems c)
  | .notice rank count subject left =>
    encodeItems [num 1 rank, num 1 count, .optional (subject.map subjectBytes), num 1 left]
  | .levels ls f => ls.flatMap (beBytes 1) ++ beBytes 1 f

/-- The response packet of an answer (Table 11-2). -/
def Answer.packet (a : Answer) : List Byte :=
  let p := a.payload.bytes
  let body := beBytes 1 a.tag ++ beBytes 1 a.result.code ++ beBytes 2 p.length ++ p
  0x5A#8 :: body ++ crcBytes body

end Sys2Proof.Machine
end

