-- ==== Sys2Proof/Machine/PreviewRequests.lean ====
section
/-! DEFINITION. GET_PREVIEW, READ_PREVIEW and UNPIN_PREVIEW (Section 8.3). -/

namespace Sys2Proof.Machine

/-! ### GET_PREVIEW (R136, R137) -/

/-- The most recently used VALID slot that passes a test (R136). -/
def hitSlot (s : State) (p : PreviewSlot → Bool) : Option Nat :=
  (s.cache.useOrder.filter fun i => p (previewSlot s i)).getLast?

/-- What a hit is answered with: the slot, its key and size, and the pin count now held. -/
def hitPayload (s : State) (i : Nat) : Payload :=
  match (previewSlot s i).state with
  | .valid (some (_, k)) w h _ _ => .previewHit i k w h (previewSlot s i).pins
  | _ => .empty

/-- A hit (R136 test 3). A PREVIEW job that the slot was to be given to no longer lacks only planes (R91). -/
def previewHit (tag i : Nat) (s : State) : State :=
  if (previewSlot s i).pins < 7 then
    let s := refreshEngineClaim (touchPreview i (pinSlot i s))
    answer tag .ok (hitPayload s i) s
  else answerCode tag .pinLimit s

/-- The priority of a miss (R136, R32). -/
def missPriority (s : State) (r : Record) : Nat := ((rollOf s r).bind (·.autoPreview)).getD 6

/-- GET_PREVIEW of a resident record (R136). -/
def getResident (tag : Nat) (r : Record) (s : State) : State :=
  match r.life with
  | .opened => answerCode tag .busy s
  | .retiring => answerCode tag .busy s
  | .void => answerCode tag .notFound s
  | _ =>
    match hitSlot s (PreviewSlot.carries r.number (currentKey s r.recipe)) with
    | some i => previewHit tag i s
    | none => service (placeWaiting tag r.number .preview (missPriority s r) s)

/-- Whether a slot shows an evicted shot under a key still current (R137 test 4). -/
def PreviewSlot.stands (s : State) (n : Nat) (x : PreviewSlot) : Bool :=
  match x.state with
  | .valid (some (m, k)) _ _ standing _ =>
    m == n && standing && k.generation == (recipeAt s k.recipe).generation
  | _ => false

/-- GET_PREVIEW of a number that no resident record carries (R137). -/
def getAbsent (tag n : Nat) (s : State) : State :=
  if loadingFor s n then answerCode tag .busy s
  else if s.card.state.mounted = false then answerCode tag .noCard s
  else if s.card.index.any (·.shot == n) = false then answerCode tag .notFound s
  else
    match hitSlot s (PreviewSlot.stands s n) with
    | some i => previewHit tag i s
    | none => answerCode tag .notFound s

/-- GET_PREVIEW (R136, R137). -/
def execGetPreview (tag shot : Nat) (s : State) : Host.Outcome State Fault Refusal :=
  .next (takeRequest tag false (fun s =>
    if shot = 0 then answerCode tag .badOperand s
    else
      match findRecord s shot with
      | some r => getResident tag r s
      | none => getAbsent tag shot s) s)

/-! ### READ_PREVIEW (R138) -/

/-- The bytes of a slot's preview from an offset, as they stand in frame memory (R133, R138). -/
def previewBytes (m : Memory) (slot offset count : Nat) : List Byte :=
  (List.range count).map fun i => Memory.read m (slotBase slot + (offset + i))

/-- READ_PREVIEW of a pinned slot (R138). -/
def readPinned (tag slot offset length : Nat) (x : PreviewSlot) (s : State) : State :=
  match x.state with
  | .valid owner w h _ _ =>
    let total := 3 * w * h
    if total ≤ offset then answerCode tag .badOperand s
    else
      answer tag .ok
        (.previewBytes owner w h total (previewBytes s.mem slot offset (min length (total - offset)))) s
  | _ => answerCode tag .notPinned s

/-- READ_PREVIEW (R138). -/
def execReadPreview (tag slot offset length : Nat) (s : State) : Host.Outcome State Fault Refusal :=
  .next (takeRequest tag false (fun s =>
    if 7 < slot ∨ inRange length 1 4096 = false then answerCode tag .badOperand s
    else if (previewSlot s slot).pins = 0 then answerCode tag .notPinned s
    else readPinned tag slot offset length (previewSlot s slot) s) s)

/-! ### UNPIN_PREVIEW (R139) -/

def PreviewSlot.isOrphan (x : PreviewSlot) : Bool :=
  match x.state with
  | .valid none _ _ _ _ => true
  | _ => false

/-- The pin count of a slot stepped down by one; an ORPHANED slot with none left becomes FREE (R139). -/
def unpin (i : Nat) (s : State) : State :=
  let x := previewSlot s i
  if x.pins = 1 ∧ x.isOrphan = true then freeSlot i s
  else
    { s with cache := { s.cache with slots := s.cache.slots.set i { x with pins := x.pins - 1 } } }

/-- UNPIN_PREVIEW (R139). -/
def execUnpinPreview (tag slot : Nat) (s : State) : Host.Outcome State Fault Refusal :=
  .next (takeRequest tag false (fun s =>
    if 7 < slot then answerCode tag .badOperand s
    else if (previewSlot s slot).pins = 0 then answerCode tag .notPinned s
    else
      service (answer tag .ok (.pins ((previewSlot s slot).pins - 1)) (unpin slot s))) s)

end Sys2Proof.Machine
end

