-- ==== Sys2Proof/Machine/RecipeRequests.lean ====
section
/-! DEFINITION. RECIPE_SET and RECIPE_QUERY (Section 2.5). -/

namespace Sys2Proof.Machine

/-- A crop given as ABSENT, or as a rectangle within the limits of R41. -/
def cropGood : Nat × Crop → Bool
  | (0, _) => true
  | (1, c) =>
    decide (1 ≤ c.width) && decide (1 ≤ c.height) && decide (c.left + c.width ≤ 12000) &&
    decide (c.top + c.height ≤ 12000)
  | _ => false

def cropOf : Nat × Crop → Option Crop
  | (0, _) => none
  | (_, c) => some c

/-- Every parameter named lies in its range (Table 2-5). -/
def recipeGood (o : RecipeOperands) : Bool :=
  o.gainR.all (inRange · 250 8000) && o.gainG.all (inRange · 250 8000) &&
  o.gainB.all (inRange · 250 8000) && o.compensation.all (inRangeInt · (-18) 18) &&
  o.saturation.all (inRangeInt · (-8) 8) && o.toneCurve.all (inRange · 0 7) &&
  o.noise.all (inRange · 0 15) && o.sharpening.all (inRange · 0 15) && o.crop.all cropGood &&
  o.rotation.all (inRange · 0 3) && o.fullScale.all (inRange · 0 1)

/-- The parameters named at their new values, the rest kept, and the generation stepped (R44, R42). -/
def applyRecipe (o : RecipeOperands) (r : Recipe) : Recipe :=
  { generation := r.generation + 1#16
    gainR := o.gainR.getD r.gainR
    gainG := o.gainG.getD r.gainG
    gainB := o.gainB.getD r.gainB
    compensation := o.compensation.getD r.compensation
    saturation := o.saturation.getD r.saturation
    toneCurve := o.toneCurve.getD r.toneCurve
    noise := o.noise.getD r.noise
    sharpening := o.sharpening.getD r.sharpening
    crop := (o.crop.map cropOf).getD r.crop
    rotation := o.rotation.getD r.rotation
    halfScale := (o.fullScale.map (· == 1)).getD r.halfScale }

/-- A recipe changed. -/
def setRecipe (i : Nat) (r : Recipe) (s : State) : State := { s with recipes := s.recipes.set i r }

/-- RECIPE_SET (R44). -/
def execRecipeSet (tag recipe : Nat) (ops : RecipeOperands) (s : State) :
    Host.Outcome State Fault Refusal :=
  .next (takeRequest tag false (fun s =>
    if 31 < recipe ∨ recipeGood ops = false then answerCode tag .badOperand s
    else
      let r := applyRecipe ops (recipeAt s recipe)
      answer tag .ok (.generation r.generation) (setRecipe recipe r s)) s)

/-- RECIPE_QUERY (R45). -/
def execRecipeQuery (tag recipe : Nat) (s : State) : Host.Outcome State Fault Refusal :=
  .next (takeRequest tag false (fun s =>
    if 31 < recipe then answerCode tag .badOperand s
    else answer tag .ok (.recipe (recipeAt s recipe)) s) s)

end Sys2Proof.Machine
end

