-- ==== Sys2Proof/Machine/RollRequests.lean ====
section
/-! DEFINITION. The roll requests (Section 2.3). -/

namespace Sys2Proof.Machine

/-! ### The operands (Table 2-2) -/

def kindGood : Nat × Nat → Bool
  | (0, _) => true
  | (1, n) => inRange n 2 8
  | _ => false

def kindOf : Nat × Nat → ShotKind
  | (1, n) => .stack n
  | _ => .single

def policyGood : Nat × Nat → Bool
  | (0, _) => true
  | (1, _) => true
  | (2, t) => inRange t 0 4294967295
  | _ => false

def policyOf : Nat × Nat → DarkPolicy
  | (0, _) => .always
  | (1, _) => .never
  | (_, t) => .above t

/-- An auto setting: a priority given lies from 1 to 7 (R29). -/
def autoGood : Nat × Option Nat → Bool
  | (0, _) => true
  | (1, p) => p.all (inRange · 1 7)
  | _ => false

/-- OFF, or ON at the priority given or the field's default (R29). -/
def autoOf (default : Nat) : Nat × Option Nat → Option Nat
  | (0, _) => none
  | (_, p) => some (p.getD default)

def yieldOf (n : Nat) : DarkYield := if n = 0 then .yield else .hold

def recloseOf (n : Nat) : Reclose := if n = 0 then .endFirst else .extend

/-- A set of accepted sources (R171): bit 0 XSYNC, bit 1 AUX_END, bit 2 TIMED. -/
def sourcesOf (n : Nat) : Sources :=
  { xsync := n.testBit 0, auxEnd := n.testBit 1, timed := n.testBit 2 }

/-- Every setting named lies in its range (R29). -/
def rollGood (o : RollOperands) : Bool :=
  o.label.all labelGood && o.frameLimit.all (inRange · 1 999) && o.defaultRecipe.all (inRange · 0 31) &&
  o.defaultKind.all kindGood && o.darkPolicy.all policyGood && o.reuseAge.all (inRange · 0 3600) &&
  o.darkYield.all (inRange · 0 1) && o.sources.all (inRange · 1 7) && o.reclose.all (inRange · 0 1) &&
  o.armWindow.all (inRange · 1 1200) && o.maxOpen.all (inRange · 1 3600) &&
  o.settleDelay.all (inRange · 0 1000) && o.stackWindow.all (inRange · 1 600) &&
  o.autoPreview.all autoGood && o.autoFull.all autoGood

/-- The settings named at their new values, the rest kept (R36). -/
def applyRoll (o : RollOperands) (r : Roll) : Roll :=
  { label := o.label.getD r.label
    frameLimit := o.frameLimit.getD r.frameLimit
    nextFrame := r.nextFrame
    defaultRecipe := o.defaultRecipe.getD r.defaultRecipe
    defaultKind := (o.defaultKind.map kindOf).getD r.defaultKind
    darkPolicy := (o.darkPolicy.map policyOf).getD r.darkPolicy
    reuseAge := o.reuseAge.getD r.reuseAge
    darkYield := (o.darkYield.map yieldOf).getD r.darkYield
    sources := (o.sources.map sourcesOf).getD r.sources
    reclose := (o.reclose.map recloseOf).getD r.reclose
    armWindow := o.armWindow.getD r.armWindow
    maxOpen := o.maxOpen.getD r.maxOpen
    settleDelay := o.settleDelay.getD r.settleDelay
    stackWindow := o.stackWindow.getD r.stackWindow
    autoPreview := (o.autoPreview.map (autoOf 5)).getD r.autoPreview
    autoFull := (o.autoFull.map (autoOf 2)).getD r.autoFull }

/-- The defaults of Table 2-2. -/
def Roll.default : Roll :=
  { label := List.replicate 16 0#8, frameLimit := 999, nextFrame := 1, defaultRecipe := 0,
    defaultKind := .single, darkPolicy := .above 1000000, reuseAge := 600, darkYield := .yield,
    sources := { xsync := true, auxEnd := true, timed := true }, reclose := .endFirst,
    armWindow := 300, maxOpen := 3600, settleDelay := 10, stackWindow := 60,
    autoPreview := some 5, autoFull := none }

/-! ### The requests -/

def rollSlot (s : State) (i : Nat) : RollSlot := s.rolls.slots.getD i .free

def setRollSlot (i : Nat) (x : RollSlot) (s : State) : State :=
  { s with rolls := { s.rolls with slots := s.rolls.slots.set i x } }

def setCurrent (i : Option Nat) (s : State) : State :=
  { s with rolls := { s.rolls with current := i } }

/-- The lowest FREE roll slot. -/
def freeRollSlot (s : State) : Option Nat := s.rolls.slots.findIdx? (· == .free)

/-- ROLL_OPEN (R35; operands out of range are answered before a full table, log 37). -/
def execRollOpen (tag : Nat) (ops : RollOperands) (s : State) : Host.Outcome State Fault Refusal :=
  .next (takeRequest tag false (fun s =>
    if rollGood ops = false then answerCode tag .badOperand s
    else
      match freeRollSlot s with
      | none => answerCode tag .tableFull s
      | some i =>
        answer tag .ok (.rollSlot i) (setRollSlot i (.opened (applyRoll ops Roll.default)) s)) s)

/-- The refusal of a ROLL_SET by tests 1 to 4 (R36), if it is refused. -/
def rollSetRefusal (s : State) (i : Nat) (o : RollOperands) : Option ResultCode :=
  if 15 < i ∨ rollGood o = false then some .badOperand
  else
    match rollAt s i with
    | none => some .notFound
    | some r =>
      if s.rolls.current = some i ∧ s.seq.state ≠ .idle then some .busy
      else if o.frameLimit.any (fun n => decide (n + 1 < r.nextFrame)) then some .badOperand
      else none

/-- ROLL_SET (R36). -/
def execRollSet (tag slot : Nat) (ops : RollOperands) (s : State) : Host.Outcome State Fault Refusal :=
  .next (takeRequest tag false (fun s =>
    match rollSetRefusal s slot ops with
    | some code => answerCode tag code s
    | none => answerCode tag .ok (updateRoll slot (applyRoll ops) s)) s)

/-- The refusal of a ROLL_SELECT (R37), if it is refused. -/
def rollSelectRefusal (s : State) (slot : Option Nat) : Option ResultCode :=
  if slot.any (fun i => decide (15 < i)) then some .badOperand
  else if s.seq.state ≠ .idle then some .busy
  else
    match slot with
    | none => none
    | some i =>
      match rollSlot s i with
      | .free => some .notFound
      | .closed _ => some .noRoll
      | .opened _ => none

/-- ROLL_SELECT (R37). -/
def execRollSelect (tag : Nat) (slot : Option Nat) (s : State) : Host.Outcome State Fault Refusal :=
  .next (takeRequest tag false (fun s =>
    match rollSelectRefusal s slot with
    | some code => answerCode tag code s
    | none => answerCode tag .ok (setCurrent slot s)) s)

/-- An OPEN roll closed; the current roll closed leaves none (R38). -/
def closeRoll (i : Nat) (r : Roll) (s : State) : State :=
  let current := if s.rolls.current = some i then none else s.rolls.current
  setCurrent current (setRollSlot i (.closed r) s)

/-- ROLL_CLOSE (R38). -/
def execRollClose (tag slot : Nat) (s : State) : Host.Outcome State Fault Refusal :=
  .next (takeRequest tag false (fun s =>
    if 15 < slot then answerCode tag .badOperand s
    else
      match rollSlot s slot with
      | .free => answerCode tag .notFound s
      | .closed _ => answerCode tag .ok s
      | .opened r =>
        if s.rolls.current = some slot ∧ s.seq.state ≠ .idle then answerCode tag .busy s
        else answerCode tag .ok (closeRoll slot r s)) s)

/-- A record whose roll slot names a freed roll has it made absent (R39, R9). -/
def Record.leaveRoll (i : Nat) (r : Record) : Record :=
  if r.rollSlot = some i then { r with rollSlot := none } else r

/-- ROLL_FREE (R39). -/
def execRollFree (tag slot : Nat) (s : State) : Host.Outcome State Fault Refusal :=
  .next (takeRequest tag false (fun s =>
    if 15 < slot then answerCode tag .badOperand s
    else
      match rollSlot s slot with
      | .free => answerCode tag .notFound s
      | .opened _ => answerCode tag .busy s
      | .closed _ =>
        answerCode tag .ok (updateRecords (Record.leaveRoll slot) (setRollSlot slot .free s))) s)

/-- How many resident records name a roll slot (R40). -/
def rollRecords (s : State) (i : Nat) : Nat :=
  ((residents s).filter fun r => r.rollSlot == some i).length

/-- What ROLL_QUERY reports (R40). -/
def rollReport (s : State) (i : Nat) : Payload :=
  .roll i (rollSlot s i) (s.rolls.current == some i) (rollRecords s i)

/-- ROLL_QUERY (R40). -/
def execRollQuery (tag : Nat) (slot : Option Nat) (s : State) : Host.Outcome State Fault Refusal :=
  .next (takeRequest tag false (fun s =>
    match slot with
    | some i =>
      if 15 < i then answerCode tag .badOperand s else answer tag .ok (rollReport s i) s
    | none =>
      match s.rolls.current with
      | none => answerCode tag .noRoll s
      | some i => answer tag .ok (rollReport s i) s) s)

end Sys2Proof.Machine
end

