-- ==== Sys2Proof/Machine/Shots.lean ====
section
/-! DEFINITION. The requests of the Shot Table: SHOT_LOOKUP, SHOT_LIST, SHOT_AMEND, SHOT_RETIRE
(Section 1.5, Chapter 10). -/

namespace Sys2Proof.Machine

/-- SHOT_LOOKUP (R25). -/
def execShotLookup (tag shot : Nat) (s : State) : Host.Outcome State Fault Refusal :=
  .next (takeRequest tag false (fun s =>
    if shot = 0 then answerCode tag .badOperand s else service (onShot tag shot .lookup s)) s)

/-! ### SHOT_LIST (R26) -/

/-- Whether a record is listed: in any life but RETIRING. -/
def Record.listed (r : Record) : Bool := r.life != .retiring

def recordItem (r : Record) : ListItem :=
  { number := r.number, frame := r.frame, label := r.label, life := some r.life }

def indexItem (x : IndexEntry) : ListItem :=
  { number := x.shot, frame := x.frame, label := x.label, life := none }

/-- The shots known, in ascending order (R26). -/
def knownShots (s : State) : List ListItem :=
  let here := ((residents s).filter Record.listed).map recordItem
  let onCard := (s.card.index.filter fun x => notResident s x.shot).map indexItem
  (if s.card.state.mounted then here ++ onCard else here).insertionSort fun a b => a.number ≤ b.number

/-- Whether a shot passes the tests of a SHOT_LIST. -/
def ListItem.passes (first : Nat) (label : Option Label) (x : ListItem) : Bool :=
  decide (first ≤ x.number) && label.all (· == x.label)

/-- The answer of SHOT_LIST (R26). -/
def listAnswer (s : State) (first maxCount : Nat) (label : Option Label) : Payload :=
  let hits := (knownShots s).filter (ListItem.passes first label)
  .list (hits.take maxCount) (decide (maxCount < hits.length)) s.card.state.mounted

/-- SHOT_LIST (R26). R26 gives ranges for the from number and the maximum count and none for the roll label; that a
label with a byte outside 20H to 7EH before its padding is answered OK, with the shots whose label has these sixteen
bytes, is the model's choice (log 44). -/
def execShotList (tag first maxCount : Nat) (label : Option Label) (s : State) :
    Host.Outcome State Fault Refusal :=
  .next (takeRequest tag false (fun s =>
    if inRange first 1 4294967295 && inRange maxCount 1 32 then
      answer tag .ok (listAnswer s first maxCount label) s
    else answerCode tag .badOperand s) s)

/-! ### SHOT_AMEND and SHOT_RETIRE -/

/-- Whether the items of a SHOT_AMEND are in range and at least one is named (R163). -/
def amendGood (o : AmendOperands) : Bool :=
  o.rating.all (inRange · 0 5) && o.protect.all (inRange · 0 1) && o.recipe.all (inRange · 0 31) &&
  (o.rating.isSome || o.protect.isSome || o.recipe.isSome || o.waiveDark)

/-- SHOT_AMEND (R163). One whose operands are not good names its record all the same (R3, log 20). -/
def execShotAmend (tag shot : Nat) (ops : AmendOperands) (s : State) : Host.Outcome State Fault Refusal :=
  .next (takeRequest tag false (fun s =>
    if shot = 0 ∨ amendGood ops = false then answerCode tag .badOperand (touchRecord shot s)
    else service (onShot tag shot (.amend ops) s)) s)

/-- SHOT_RETIRE (R166). -/
def execShotRetire (tag shot : Nat) (s : State) : Host.Outcome State Fault Refusal :=
  .next (takeRequest tag false (fun s =>
    if shot = 0 then answerCode tag .badOperand s else service (onShot tag shot .retire s)) s)

end Sys2Proof.Machine
end

