-- ==== Sys2Proof/Machine/Link.lean ====
section
/-! DEFINITION. The Link Port: transactions, the answers shifted out, the receive framer, and the taking of a
packet (Sections 11.2 to 11.4). -/

namespace Sys2Proof.Machine

/-! ### Answers on MISO (R175) -/

/-- What MISO takes up: the refusal slot first, then the head of the queue, else filler (R175). -/
def nextMiso (l : Link) : Miso :=
  if l.refusal.isSome then .refusal 0 else if l.queue.isEmpty then .filler else .queue 0

/-- CSN_ASSERTED: a transaction begins (R175). -/
def execCsnAsserted (s : State) : Host.Outcome State Fault Refusal :=
  .next (if s.link.selected then s
    else { s with link := { s.link with selected := true, miso := nextMiso s.link } })

/-- The transaction ends: the answer partly sent stays in its place (R175). -/
def deselect (s : State) : State := { s with link := { s.link with selected := false, miso := .quiet } }

/-- CSN_NEGATED: a packet partly received is discarded (R172, R173). -/
def execCsnNegated (s : State) : Host.Outcome State Fault Refusal :=
  .next (if s.link.selected then
      if s.link.framer = .hunt then deselect s else discardPacket (deselect s)
    else s)

/-- The answer in the refusal slot leaves; it frees no tag (R175). -/
def refusalLeaves (s : State) : State :=
  let l := { s.link with refusal := none }
  { s with link := { l with miso := nextMiso l } }

/-- The answer at the head of the queue leaves, and its tag becomes FREE (R175). -/
def headLeaves (s : State) : State :=
  match s.link.queue with
  | [] => s
  | a :: rest =>
    let l := { s.link with queue := rest, held := s.link.held.filter (· != a.tag) }
    { s with link := { l with miso := nextMiso l } }

/-- The answer being sent leaves (R175). -/
def sentLeaves (s : State) : State :=
  match s.link.miso with
  | .refusal _ => refusalLeaves s
  | .queue _ => headLeaves s
  | _ => s

/-- ANSWER_LEAVES: the last CRC byte of an answer has been shifted out (R175). -/
def execAnswerLeaves (s : State) : Host.Outcome State Fault Refusal :=
  .next (sentLeaves s)

/-- The packet being sent. -/
def packetSent (s : State) : List Byte :=
  match s.link.miso with
  | .refusal _ => (s.link.refusal.map Answer.packet).getD []
  | .queue _ => (s.link.queue.head?.map Answer.packet).getD []
  | _ => []

/-- The byte on MISO: the next of the packet being sent, or the filler 00H (R175). That it is 00H outside a transaction
too is the model's choice (log 11). -/
def misoByte (s : State) : Byte :=
  match s.link.miso with
  | .refusal n => (packetSent s).getD n 0#8
  | .queue n => (packetSent s).getD n 0#8
  | _ => 0#8

/-- What the MISO pin carries. -/
inductive MisoPin where
  | highImpedance
  | byte (b : Byte)
  deriving DecidableEq, Repr

/-- The MISO pin: at high impedance in reset (R179). -/
def misoPin (s : State) : MisoPin := if s.held then .highImpedance else .byte (misoByte s)

/-- One more byte of an answer has been shifted out. -/
def Miso.advance : Miso → Miso
  | .refusal n => .refusal (n + 1)
  | .queue n => .queue (n + 1)
  | m => m

/-- How many bytes of the answer have been shifted out. -/
def Miso.sent : Miso → Nat
  | .refusal n => n
  | .queue n => n
  | _ => 0

/-- One byte shifted out on MISO; with the last byte of an answer the answer leaves (R175). -/
def shiftOut (s : State) : State :=
  if s.link.miso.sent + 1 < (packetSent s).length then
    { s with link := { s.link with miso := s.link.miso.advance } }
  else sentLeaves s

/-! ### Taking a packet (R173, R174) -/

/-- PACKET_DISCARD (R173). -/
def execPacketDiscard (s : State) : Host.Outcome State Fault Refusal :=
  .next (discardPacket s)

/-- BAD_REQUEST: the kind code is not in Table 11-3; taken and answered in every part state (R174 test 2). -/
def execBadRequest (tag : Nat) (s : State) : Host.Outcome State Fault Refusal :=
  .next (takeRequest tag true (answerCode tag .badRequest) s)

/-- The meaning of a request read from a packet. -/
def requestMeaning (i : Instr) (s : State) : Host.Outcome State Fault Refusal :=
  match i with
  | .shotLookup t n => execShotLookup t n s
  | .shotList t n c l => execShotList t n c l s
  | .rollOpen t o => execRollOpen t o s
  | .rollSet t i o => execRollSet t i o s
  | .rollSelect t i => execRollSelect t i s
  | .rollClose t i => execRollClose t i s
  | .rollFree t i => execRollFree t i s
  | .rollQuery t i => execRollQuery t i s
  | .recipeSet t i o => execRecipeSet t i o s
  | .recipeQuery t i => execRecipeQuery t i s
  | .setSync t o => execSetSync t o s
  | .setClock t w => execSetClock t w s
  | .triggerFire t => execTriggerFire t s
  | .triggerTimed t d => execTriggerTimed t d s
  | .setSensor t c r => execSetSensor t c r s
  | .develop t n k p => execDevelop t n k p s
  | .devFloor t f => execDevFloor t f s
  | .getPreview t n => execGetPreview t n s
  | .readPreview t i o l => execReadPreview t i o l s
  | .unpinPreview t i => execUnpinPreview t i s
  | .cardQuery t => execCardQuery t s
  | .cardEject t => execCardEject t s
  | .cardFormat t d => execCardFormat t d s
  | .shotAmend t n o => execShotAmend t n o s
  | .shotRetire t n => execShotRetire t n s
  | .status t => execStatus t s
  | .clearCauses t => execClearCauses t s
  | .restart t => execRestart t s
  | .takeNotice t => execTakeNotice t s
  | .noticeLevels t l f => execNoticeLevels t l f s
  | _ => .next s

/-- The code of STATUS, the one kind served in every part state (R174 test 3). -/
def statusKind : Nat := 0x50

/-- A packet whose checks pass is decided by the tests of R174. -/
def takePacket (tag kind : Nat) (operands : List Byte) (s : State) : Host.Outcome State Fault Refusal :=
  match readRequest kind tag operands with
  | .unknown => execBadRequest tag s
  | .badForm => .next (takeRequest tag (kind == statusKind) (answerCode tag .badOperand) s)
  | .command i => requestMeaning i s

/-- A packet received whole, from its tag to its CRC: discarded when its tag is above 7 or its CRC does not
match, else taken (R173). -/
def checkPacket (bytes : List Byte) (s : State) : Host.Outcome State Fault Refusal :=
  let body := bytes.take (bytes.length - 2)
  let tag := fromBytes (slice bytes 0 1)
  if 7 < tag ∨ crcBytes body ≠ bytes.drop (bytes.length - 2) then .next (discardPacket s)
  else takePacket tag (fromBytes (slice bytes 1 1)) (body.drop 3) s

/-! ### The framer (R172) -/

def setFramer (f : Framer) (bytes : List Byte) (s : State) : State :=
  { s with link := { s.link with framer := f, bytes := bytes } }

/-- The operand length of the packet being received. -/
def operandLength (bytes : List Byte) : Nat := fromBytes (slice bytes 2 1)

/-- A byte taken in HEADER (R172). -/
def headerByte (bytes : List Byte) (s : State) : State :=
  if bytes.length < 3 then setFramer .header bytes s
  else if 64 < operandLength bytes then discardPacket s
  else if operandLength bytes = 0 then setFramer .check bytes s
  else setFramer .operands bytes s

/-- A byte taken in OPERANDS (R172). -/
def operandByte (bytes : List Byte) (s : State) : State :=
  if bytes.length < 3 + operandLength bytes then setFramer .operands bytes s
  else setFramer .check bytes s

/-- A byte taken in CHECK; with the last CRC byte the packet is checked and the framer is in HUNT (R172). -/
def checkByte (bytes : List Byte) (s : State) : Host.Outcome State Fault Refusal :=
  if bytes.length < 5 + operandLength bytes then .next (setFramer .check bytes s)
  else checkPacket bytes (setFramer .hunt [] s)

/-- A byte taken from MOSI (R172). -/
def frameByte (b : Byte) (s : State) : Host.Outcome State Fault Refusal :=
  match s.link.framer with
  | .hunt => .next (if b = 0xA5#8 then setFramer .header [] s else s)
  | .header => .next (headerByte (s.link.bytes ++ [b]) s)
  | .operands => .next (operandByte (s.link.bytes ++ [b]) s)
  | .check => checkByte (s.link.bytes ++ [b]) s

/-- MOSI_BYTE: while one byte is shifted in, one is shifted out; an answer that ends with it leaves first
(R172, R175, logs 9 and 10). -/
def execMosiByte (byte : Byte) (s : State) : Host.Outcome State Fault Refusal :=
  frameByte byte (shiftOut s)

end Sys2Proof.Machine
end

