-- ==== Sys2Proof/Machine/Dispatch.lean ====
section
/-! DEFINITION. One arm for each command: its meaning. -/

namespace Sys2Proof.Machine

def exec (i : Instr) (s : State) : Host.Outcome State Fault Refusal :=
  match i with
  | .powerOnReset release xsync aux card => Sys2Proof.Machine.execPowerOnReset release xsync aux card s
  | .pinReset release xsync aux card => Sys2Proof.Machine.execPinReset release xsync aux card s
  | .startupComplete => Sys2Proof.Machine.execStartupComplete s
  | .restartComplete => Sys2Proof.Machine.execRestartComplete s
  | .csnAsserted => Sys2Proof.Machine.execCsnAsserted s
  | .csnNegated => Sys2Proof.Machine.execCsnNegated s
  | .packetDiscard => Sys2Proof.Machine.execPacketDiscard s
  | .answerLeaves => Sys2Proof.Machine.execAnswerLeaves s
  | .badRequest tag => Sys2Proof.Machine.execBadRequest tag s
  | .shotLookup tag shot => Sys2Proof.Machine.execShotLookup tag shot s
  | .shotList tag first maxCount label => Sys2Proof.Machine.execShotList tag first maxCount label s
  | .rollOpen tag ops => Sys2Proof.Machine.execRollOpen tag ops s
  | .rollSet tag slot ops => Sys2Proof.Machine.execRollSet tag slot ops s
  | .rollSelect tag slot => Sys2Proof.Machine.execRollSelect tag slot s
  | .rollClose tag slot => Sys2Proof.Machine.execRollClose tag slot s
  | .rollFree tag slot => Sys2Proof.Machine.execRollFree tag slot s
  | .rollQuery tag slot => Sys2Proof.Machine.execRollQuery tag slot s
  | .recipeSet tag recipe ops => Sys2Proof.Machine.execRecipeSet tag recipe ops s
  | .recipeQuery tag recipe => Sys2Proof.Machine.execRecipeQuery tag recipe s
  | .setSync tag ops => Sys2Proof.Machine.execSetSync tag ops s
  | .setClock tag wall => Sys2Proof.Machine.execSetClock tag wall s
  | .triggerFire tag => Sys2Proof.Machine.execTriggerFire tag s
  | .triggerTimed tag duration => Sys2Proof.Machine.execTriggerTimed tag duration s
  | .setSensor tag columns rows => Sys2Proof.Machine.execSetSensor tag columns rows s
  | .develop tag shot kind priority => Sys2Proof.Machine.execDevelop tag shot kind priority s
  | .devFloor tag floor => Sys2Proof.Machine.execDevFloor tag floor s
  | .getPreview tag shot => Sys2Proof.Machine.execGetPreview tag shot s
  | .readPreview tag slot offset length => Sys2Proof.Machine.execReadPreview tag slot offset length s
  | .unpinPreview tag slot => Sys2Proof.Machine.execUnpinPreview tag slot s
  | .cardQuery tag => Sys2Proof.Machine.execCardQuery tag s
  | .cardEject tag => Sys2Proof.Machine.execCardEject tag s
  | .cardFormat tag discard => Sys2Proof.Machine.execCardFormat tag discard s
  | .shotAmend tag shot ops => Sys2Proof.Machine.execShotAmend tag shot ops s
  | .shotRetire tag shot => Sys2Proof.Machine.execShotRetire tag shot s
  | .status tag => Sys2Proof.Machine.execStatus tag s
  | .clearCauses tag => Sys2Proof.Machine.execClearCauses tag s
  | .restart tag => Sys2Proof.Machine.execRestart tag s
  | .takeNotice tag => Sys2Proof.Machine.execTakeNotice tag s
  | .noticeLevels tag levels floor => Sys2Proof.Machine.execNoticeLevels tag levels floor s
  | .edgeQualified input => Sys2Proof.Machine.execEdgeQualified input s
  | .reloutPulseEnd => Sys2Proof.Machine.execReloutPulseEnd s
  | .cdetChange present => Sys2Proof.Machine.execCdetChange present s
  | .insertion => Sys2Proof.Machine.execInsertion s
  | .removal => Sys2Proof.Machine.execRemoval s
  | .armWindowExpiry => Sys2Proof.Machine.execArmWindowExpiry s
  | .maxOpenExpiry => Sys2Proof.Machine.execMaxOpenExpiry s
  | .timedDurationExpiry => Sys2Proof.Machine.execTimedDurationExpiry s
  | .settleExpiry => Sys2Proof.Machine.execSettleExpiry s
  | .stackWindowExpiry => Sys2Proof.Machine.execStackWindowExpiry s
  | .darkDurationExpiry => Sys2Proof.Machine.execDarkDurationExpiry s
  | .readoutHeader good columns rows temperature => Sys2Proof.Machine.execReadoutHeader good columns rows temperature s
  | .darkExposureStart => Sys2Proof.Machine.execDarkExposureStart s
  | .pauStart => Sys2Proof.Machine.execPauStart s
  | .accumulateDone => Sys2Proof.Machine.execAccumulateDone s
  | .applyDarkDone => Sys2Proof.Machine.execApplyDarkDone s
  | .darkExpiry entry => Sys2Proof.Machine.execDarkExpiry entry s
  | .dispatch => Sys2Proof.Machine.execDispatch s
  | .stageEnd => Sys2Proof.Machine.execStageEnd s
  | .outputEnd => Sys2Proof.Machine.execOutputEnd s
  | .cardWorkStart => Sys2Proof.Machine.execCardWorkStart s
  | .cardCommandError => Sys2Proof.Machine.execCardCommandError s
  | .cardCommandTimeout => Sys2Proof.Machine.execCardCommandTimeout s
  | .identifyDone serial capacity writeProtected => Sys2Proof.Machine.execIdentifyDone serial capacity writeProtected s
  | .headerReadDone block => Sys2Proof.Machine.execHeaderReadDone block s
  | .catalogueReadDone clusters blocks => Sys2Proof.Machine.execCatalogueReadDone clusters blocks s
  | .loadReadDone block => Sys2Proof.Machine.execLoadReadDone block s
  | .fetchReadDone clusters values => Sys2Proof.Machine.execFetchReadDone clusters values s
  | .rawWriteClusterDone => Sys2Proof.Machine.execRawWriteClusterDone s
  | .entryWriteDone => Sys2Proof.Machine.execEntryWriteDone s
  | .developedWriteClusterDone => Sys2Proof.Machine.execDevelopedWriteClusterDone s
  | .developedEntryWriteDone => Sys2Proof.Machine.execDevelopedEntryWriteDone s
  | .emptyWriteDone => Sys2Proof.Machine.execEmptyWriteDone s
  | .dirtyRewriteDone => Sys2Proof.Machine.execDirtyRewriteDone s
  | .formatWriteDone => Sys2Proof.Machine.execFormatWriteDone s
  | .syncSample gap release xsync aux => Sys2Proof.Machine.execSyncSample gap release xsync aux s
  | .pixelSample value => Sys2Proof.Machine.execPixelSample value s
  | .mosiByte byte => Sys2Proof.Machine.execMosiByte byte s

end Sys2Proof.Machine
end

