-- ==== Sys2Proof/Machine/Step.lean ====
section
/-! DEFINITION. One step: the command at the front of the queue, or one microsecond. -/

namespace Sys2Proof.Machine

/-- The command at the front of the queue is taken and runs with the queue's rest. On an empty queue one
microsecond of the Time Base passes (R56, log 2). -/
def step (s : State) : Host.Outcome State Fault Refusal :=
  match s.pending with
  | [] => .next s.tick
  | c :: rest => exec c { s with pending := rest }

/-- The command a word spells put at the front of the queue; the table gives no row bits, so no word
spells one and the state is unchanged. -/
def State.withFetchWord (s : State) (nbits w : Nat) : State :=
  match decodeTableWord nbits w with
  | none => s
  | some c => { s with pending := c :: s.pending }

end Sys2Proof.Machine
end

