-- ==== Sys2Proof/Safety.lean ====
section
/-! DEFINITION. What the statements speak of: when a request can be taken, the answer it gets, the ranges the
tables give, and the laws of the state that every step keeps. -/

namespace Sys2Proof.Machine

/-! ### Requests and answers -/

/-- A request with this tag reaches the block that decides it (R173, R174). -/
abbrev CanTake (tag : Nat) (s : State) : Prop :=
  tag ≤ 7 ∧ tag ∉ s.link.held ∧ s.part = .running

/-- An answer stands in the response queue. -/
abbrev Answered (t : State) (tag : Nat) (result : ResultCode) (payload : Payload) : Prop :=
  ({ tag, result, payload } : Answer) ∈ t.link.queue

/-- The commands that are request packets, and whether they are served in every part state. -/
def servedAlways : Instr → Bool
  | .status _ => true
  | .badRequest _ => true
  | _ => false

/-- Every byte of frame memory reads the same. -/
abbrev SameMemory (s t : State) : Prop := ∀ a : Nat, Memory.read t.mem a = Memory.read s.mem a

/-- Every byte of frame memory outside a plane reads the same. -/
abbrev SameOutsidePlane (p : Nat) (s t : State) : Prop :=
  ∀ a : Nat, a < planeBase p ∨ planeBase p + Config.planeBytes ≤ a →
    Memory.read t.mem a = Memory.read s.mem a

/-- Every byte of frame memory outside the part of a plane within the sensor area in force reads the same (R89). -/
abbrev SameOutsideArea (p : Nat) (s t : State) : Prop :=
  ∀ a : Nat, a < planeBase p ∨ planeBase p + 4 * (s.seq.columns * s.seq.rows) ≤ a →
    Memory.read t.mem a = Memory.read s.mem a

/-- The lowest place of a list that holds a value. -/
def LowestAt {α : Type} (l : List α) (x : α) (i : Nat) : Prop :=
  l[i]? = some x ∧ ∀ j, j < i → l[j]? ≠ some x

/-- A notice kind has been raised once since `s` (R176). -/
def RaisedOnce (k : NoticeKind) (subject : Option Subject) (s t : State) : Prop :=
  t.notices.kinds[k.place]? = (s.notices.kinds[k.place]?).map (Notice.raised subject 1)

/-- ROLL_FULL is raised when the frame a roll gives to a new shot is its last, and not otherwise (R31). -/
def RollFullAtLimit (r : Roll) (shot : Nat) (s t : State) : Prop :=
  (r.nextFrame = r.frameLimit → RaisedOnce .rollFull (some (.shot shot)) s t) ∧
  (r.nextFrame ≠ r.frameLimit →
    t.notices.kinds[NoticeKind.rollFull.place]? = s.notices.kinds[NoticeKind.rollFull.place]?)

/-- A command stands on the card bus whose work has not ended, and a retirement or a format does not stop the
work at its answer (R144, R151, R153). -/
def OnBus (s : State) : Prop :=
  (∃ b, s.card.bus = some b ∧ b.orphan = false) ∧ s.card.formatWait = none ∧
  (∀ n d r, s.card.work = some (.rawWrite n d) → findRecord s n = some r → r.life ≠ .retiring) ∧
  (∀ h runs d, s.card.work ≠ some (.developed h runs d false true))

/-- The work in flight goes on with a command issued at once (R144). -/
def GoesOn (s t : State) (w : CardWork) (c : CardCommand) : Prop :=
  t.card.work = some w ∧
  t.card.bus = some { command := c, issued := s.timeBase, retried := false, orphan := false }

/-! ### Ranges (Tables 2-2, 2-5, 3-1) -/

/-- A label: at most sixteen printable characters, padded with zero bytes to sixteen (R29). -/
def LabelInRange (l : Label) : Prop :=
  ∃ text : List Byte, text.length ≤ 16 ∧ (∀ b ∈ text, 0x20 ≤ b.toNat ∧ b.toNat ≤ 0x7E) ∧
    l = text ++ List.replicate (16 - text.length) 0#8

/-- A value given, if any, lies in a range. -/
def GivenIn (v : Option Nat) (lo hi : Nat) : Prop := ∀ n, v = some n → lo ≤ n ∧ n ≤ hi

def GivenInInt (v : Option Int) (lo hi : Int) : Prop := ∀ n, v = some n → lo ≤ n ∧ n ≤ hi

/-- An auto setting: OFF, or ON with a priority, if one is given, from 1 to 7 (R29). -/
def AutoInRange (v : Option (Nat × Option Nat)) : Prop :=
  ∀ n p, v = some (n, p) → n = 0 ∨ (n = 1 ∧ GivenIn p 1 7)

/-- The settings of a roll lie in the ranges of Table 2-2. -/
def RollInRange (o : RollOperands) : Prop :=
  (∀ l, o.label = some l → LabelInRange l) ∧ GivenIn o.frameLimit 1 999 ∧ GivenIn o.defaultRecipe 0 31 ∧
  (∀ k n, o.defaultKind = some (k, n) → k = 0 ∨ (k = 1 ∧ 2 ≤ n ∧ n ≤ 8)) ∧
  (∀ k n, o.darkPolicy = some (k, n) → k = 0 ∨ k = 1 ∨ (k = 2 ∧ n ≤ 4294967295)) ∧
  GivenIn o.reuseAge 0 3600 ∧ GivenIn o.darkYield 0 1 ∧ GivenIn o.sources 1 7 ∧ GivenIn o.reclose 0 1 ∧
  GivenIn o.armWindow 1 1200 ∧ GivenIn o.maxOpen 1 3600 ∧ GivenIn o.settleDelay 0 1000 ∧
  GivenIn o.stackWindow 1 600 ∧ AutoInRange o.autoPreview ∧ AutoInRange o.autoFull

/-- The settings named take the values given, and the settings not named keep theirs (R36). -/
def RollChanged (o : RollOperands) (r r' : Roll) : Prop :=
  r'.nextFrame = r.nextFrame ∧ r'.label = o.label.getD r.label ∧
  r'.frameLimit = o.frameLimit.getD r.frameLimit ∧ r'.defaultRecipe = o.defaultRecipe.getD r.defaultRecipe ∧
  (o.defaultKind = none → r'.defaultKind = r.defaultKind) ∧
  (∀ n, o.defaultKind = some (0, n) → r'.defaultKind = .single) ∧
  (∀ n, o.defaultKind = some (1, n) → r'.defaultKind = .stack n) ∧
  (o.darkPolicy = none → r'.darkPolicy = r.darkPolicy) ∧
  (∀ n, o.darkPolicy = some (0, n) → r'.darkPolicy = .always) ∧
  (∀ n, o.darkPolicy = some (1, n) → r'.darkPolicy = .never) ∧
  (∀ n, o.darkPolicy = some (2, n) → r'.darkPolicy = .above n) ∧
  r'.reuseAge = o.reuseAge.getD r.reuseAge ∧
  (o.darkYield = none → r'.darkYield = r.darkYield) ∧ (o.darkYield = some 0 → r'.darkYield = .yield) ∧
  (o.darkYield = some 1 → r'.darkYield = .hold) ∧
  (o.sources = none → r'.sources = r.sources) ∧
  (∀ n, o.sources = some n →
    r'.sources = { xsync := n.testBit 0, auxEnd := n.testBit 1, timed := n.testBit 2 }) ∧
  (o.reclose = none → r'.reclose = r.reclose) ∧ (o.reclose = some 0 → r'.reclose = .endFirst) ∧
  (o.reclose = some 1 → r'.reclose = .extend) ∧
  r'.armWindow = o.armWindow.getD r.armWindow ∧ r'.maxOpen = o.maxOpen.getD r.maxOpen ∧
  r'.settleDelay = o.settleDelay.getD r.settleDelay ∧ r'.stackWindow = o.stackWindow.getD r.stackWindow ∧
  (o.autoPreview = none → r'.autoPreview = r.autoPreview) ∧
  (∀ p, o.autoPreview = some (0, p) → r'.autoPreview = none) ∧
  (∀ p, o.autoPreview = some (1, p) → r'.autoPreview = some (p.getD 5)) ∧
  (o.autoFull = none → r'.autoFull = r.autoFull) ∧
  (∀ p, o.autoFull = some (0, p) → r'.autoFull = none) ∧
  (∀ p, o.autoFull = some (1, p) → r'.autoFull = some (p.getD 2))

/-- The defaults of Table 2-2. -/
def RollDefaults (r : Roll) : Prop :=
  r.label = List.replicate 16 0#8 ∧ r.frameLimit = 999 ∧ r.nextFrame = 1 ∧ r.defaultRecipe = 0 ∧
  r.defaultKind = .single ∧ r.darkPolicy = .above 1000000 ∧ r.reuseAge = 600 ∧ r.darkYield = .yield ∧
  r.sources = { xsync := true, auxEnd := true, timed := true } ∧ r.reclose = .endFirst ∧
  r.armWindow = 300 ∧ r.maxOpen = 3600 ∧ r.settleDelay = 10 ∧ r.stackWindow = 60 ∧
  r.autoPreview = some 5 ∧ r.autoFull = none

/-- The parameters of a recipe lie in the ranges of Table 2-5 and R41. -/
def RecipeInRange (o : RecipeOperands) : Prop :=
  GivenIn o.gainR 250 8000 ∧ GivenIn o.gainG 250 8000 ∧ GivenIn o.gainB 250 8000 ∧
  GivenInInt o.compensation (-18) 18 ∧ GivenInInt o.saturation (-8) 8 ∧ GivenIn o.toneCurve 0 7 ∧
  GivenIn o.noise 0 15 ∧ GivenIn o.sharpening 0 15 ∧
  (∀ k c, o.crop = some (k, c) → k = 0 ∨
    (k = 1 ∧ 1 ≤ c.width ∧ 1 ≤ c.height ∧ c.left + c.width ≤ 12000 ∧ c.top + c.height ≤ 12000)) ∧
  GivenIn o.rotation 0 3 ∧ GivenIn o.fullScale 0 1

/-- The parameters named take the values given, those not named keep theirs, and the generation steps by one
(R42, R44). -/
def RecipeChanged (o : RecipeOperands) (r r' : Recipe) : Prop :=
  r'.generation = r.generation + 1#16 ∧ r'.gainR = o.gainR.getD r.gainR ∧ r'.gainG = o.gainG.getD r.gainG ∧
  r'.gainB = o.gainB.getD r.gainB ∧ r'.compensation = o.compensation.getD r.compensation ∧
  r'.saturation = o.saturation.getD r.saturation ∧ r'.toneCurve = o.toneCurve.getD r.toneCurve ∧
  r'.noise = o.noise.getD r.noise ∧ r'.sharpening = o.sharpening.getD r.sharpening ∧
  (o.crop = none → r'.crop = r.crop) ∧ (∀ c, o.crop = some (0, c) → r'.crop = none) ∧
  (∀ c, o.crop = some (1, c) → r'.crop = some c) ∧ r'.rotation = o.rotation.getD r.rotation ∧
  (o.fullScale = none → r'.halfScale = r.halfScale) ∧ (o.fullScale = some 0 → r'.halfScale = false) ∧
  (o.fullScale = some 1 → r'.halfScale = true)

/-- The settings of a SET_SYNC lie in the ranges of Table 3-1. -/
def SyncInRange (o : SyncOperands) : Prop :=
  GivenIn o.polarityRelease 0 1 ∧ GivenIn o.polarityXsync 0 1 ∧ GivenIn o.polarityAux 0 1 ∧
  GivenIn o.countRelease 1 64 ∧ GivenIn o.countXsync 1 64 ∧ GivenIn o.countAux 1 64 ∧
  GivenIn o.auxRole 0 2 ∧ GivenIn o.reloutWidth 10 500

/-- The level a pin reads as: low is CLOSED under CLOSED_LOW, high under CLOSED_HIGH (R46). -/
def ReadsAs (p : Polarity) (pin : PinLevel) (level : Contact) : Prop :=
  level = .closed ↔ (p = .closedLow ∧ pin = .low) ∨ (p = .closedHigh ∧ pin = .high)

/-- One input after an accepted SET_SYNC: the settings named, the pin as it was sampled, and the qualifier
restarted from the current level (R48, R60). -/
def LineRestarted (polarity count : Option Nat) (l l' : SyncLine) : Prop :=
  (polarity = none → l'.polarity = l.polarity) ∧ (polarity = some 0 → l'.polarity = .closedLow) ∧
  (polarity = some 1 → l'.polarity = .closedHigh) ∧ l'.count = count.getD l.count ∧ l'.pin = l.pin ∧
  ReadsAs l'.polarity l'.pin l'.accepted ∧ l'.run = 0 ∧ l'.runStart = none

/-- One input after a sample, `gap` instants having passed at which it read its accepted level (R49, log 4):
a sample at the accepted level ends the run, any other begins or lengthens it. -/
def LineSampled (gap : Nat) (t : Time) (pin : PinLevel) (l l' : SyncLine) : Prop :=
  l'.polarity = l.polarity ∧ l'.count = l.count ∧ l'.pin = pin ∧ l'.accepted = l.accepted ∧
  (ReadsAs l.polarity pin l.accepted → l'.run = 0 ∧ l'.runStart = none) ∧
  (¬ ReadsAs l.polarity pin l.accepted → (gap = 0 ∧ 0 < l.run) →
    l'.run = l.run + 1 ∧ l'.runStart = l.runStart) ∧
  (¬ ReadsAs l.polarity pin l.accepted → ¬ (gap = 0 ∧ 0 < l.run) → l'.run = 1 ∧ l'.runStart = some t)

/-- One input but for the count of its present run. -/
def LineKeeps (l l' : SyncLine) : Prop :=
  l'.polarity = l.polarity ∧ l'.count = l.count ∧ l'.pin = l.pin ∧ l'.accepted = l.accepted

/-- The Sync Unit but for the runs and the latest sample, which sampling changes (R46). -/
def SyncKeeps (x y : Sync) : Prop :=
  LineKeeps x.release y.release ∧ LineKeeps x.xsync y.xsync ∧ LineKeeps x.aux y.aux ∧
  y.auxRole = x.auxRole ∧ y.reloutWidth = x.reloutWidth ∧ y.pulseEnd = x.pulseEnd

/-- The settings of one input. -/
def LineSettingsKept (l l' : SyncLine) : Prop := l'.polarity = l.polarity ∧ l'.count = l.count

/-- The settings of the Sync Unit (Table 3-1). -/
def SyncSettingsKept (x y : Sync) : Prop :=
  LineSettingsKept x.release y.release ∧ LineSettingsKept x.xsync y.xsync ∧ LineSettingsKept x.aux y.aux ∧
  y.auxRole = x.auxRole ∧ y.reloutWidth = x.reloutWidth

/-! ### Exposures (Tables 1-3 and 1-4) -/

/-- Exposure entry `k` of the shot that `x` records has become what `f` makes of it. -/
def EntryBecomes (x : Record) (k : Nat) (f : ExpEntry → ExpEntry) (t : State) : Prop :=
  ∀ e, x.exposures[k - 1]? = some e →
    ∃ y ∈ residents t, y.number = x.number ∧ y.exposures[k - 1]? = some (f e)

/-- Exposure entry `k` of the shot that `x` records has closed: its close time, the duration from its open time on,
its time source, and its truncated flag when the close truncates it (R76 to R78). Where the close lies before the open
time the duration is still the difference modulo 2^48 (log 41). -/
def EntryCloses (x : Record) (k : Nat) (close : Time) (source : TimeSource) (truncates : Bool) (t : State) : Prop :=
  ∀ e o, x.exposures[k - 1]? = some e → e.openTime = some o →
    ∃ y ∈ residents t, y.number = x.number ∧ y.exposures[k - 1]? = some
      { e with
        closeTime := some close
        duration := some (close - o).toNat
        source := some source
        truncated := e.truncated || truncates }

/-- The dark link of a shot just finished under a policy, matched or not (R33, R84, R101). -/
def LinkByPolicy (p : DarkPolicy) (longest : Nat) (l : DarkLink) : Prop :=
  let matched := l = .awaiting ∨ ∃ e, l = .linked e
  match p with
  | .always => matched
  | .never => l = .notRequired
  | .above threshold => (threshold < longest → matched) ∧ (longest ≤ threshold → l = .notRequired)

/-! ### What a request and a claim find (R3, R4, R90, R100, R115, R151, R163) -/

/-- The number a record slot carries: that of its record, or of the shot it loads. -/
def RecordSlot.number? : RecordSlot → Option Nat
  | .free => none
  | .loading n _ => some n
  | .inUse r => some r.number

/-- The numbers of the record slots. -/
def slotNumbers (s : State) : List Nat := s.table.slots.filterMap RecordSlot.number?

/-- A record is evictable (R4). -/
def Evictable (s : State) (r : Record) : Prop :=
  r.life = .settled ∧ r.dirty = false ∧ r.devPending = none ∧ (∀ j ∈ s.dev.queue, j.shot ≠ r.number) ∧
  (∀ q ∈ s.pau, q.shot ≠ r.number) ∧ ∀ h ∈ s.card.handoffs, h.shot ≠ r.number

/-- No record slot can be had (R2). -/
def NoSlot (s : State) : Prop :=
  RecordSlot.free ∉ s.table.slots ∧
  ∀ i ∈ s.table.useOrder, ∀ r, s.table.slots[i]? = some (.inUse r) → ¬ Evictable s r

/-- A READY entry with no link and no RUNNING request: its taken-at and its plane (R90, R109). -/
def IdleEntry (s : State) (e : Nat) (taken : Time) (p : Nat) : Prop :=
  (∃ x band, s.dark.entries[e]? = some x ∧ x.state = .ready band taken p) ∧
  (∀ r ∈ residents s, r.darkLink ≠ .linked e) ∧ ∀ q ∈ s.pau, q.running = true → q.op ≠ .applyDark e

/-- An entry serves a shot of longest duration `d` and band `b` (R100). -/
def Serves (now : Time) (x : DarkEntry) (d : Nat) (b : Int) : Prop :=
  d ≤ x.duration ∧ x.duration ≤ d + d / 8 ∧
  match x.state with
  | .free => False
  | .planned => x.plannedBand = b
  | .exposing _ => x.plannedBand = b
  | .ready band taken _ => band = b ∧ 0 < x.reuseAge ∧ (now - taken).toNat ≤ x.reuseAge * 1000000

/-- The shots that are AWAITING when the dark readout of entry `e` has ended with band `b` are shots with a band, and there
is a FREE entry for each: the pass that follows reclaims none (R102, R105). -/
def FreeEntriesSuffice (s : State) (e : Nat) (b : Int) : Prop :=
  let awaits (r : Record) : Bool :=
    r.darkLink == .awaiting || (r.darkLink == .linked e && shotBand r != some b && decide (r.darkAttempts + 1 < 3))
  (∀ r ∈ residents s, awaits r = true → (shotBand r).isSome) ∧
  (residents s).countP awaits ≤ s.dark.entries.countP fun x => x.state == .free

/-- What R115 asks of a job of a record, but for its planes. -/
def MayRunButPlanes (s : State) (j : Job) (r : Record) : Prop :=
  j.running = false ∧ s.dev.floor ≤ j.priority ∧
  (r.darkLink = .notRequired ∨ r.darkLink = .applied ∨ r.darkLink = .waived) ∧
  ((r.life = .held ∧ ∀ q ∈ s.pau, q.running = true → q.shot ≠ r.number) ∨
    (r.life = .settled ∧ (s.card.state = .ready ∨ s.card.state = .readOnly) ∧ s.card.reads.length < 8)) ∧
  (j.kind = .preview → (∃ x ∈ s.cache.slots, x.state = .free) ∨
    ∃ i ∈ s.cache.useOrder, ∃ x, s.cache.slots[i]? = some x ∧ x.isValid = true ∧ x.pins = 0)

/-- The planes a job claims (Table 5-4). -/
def planesClaimed (k : JobKind) (l : Life) : Nat :=
  match k, l with
  | .preview, .settled => 1
  | .preview, _ => 0
  | .full, .settled => 2
  | .full, _ => 1

/-- A job is eligible for dispatch (R115). -/
def MayRun (s : State) (j : Job) : Prop :=
  ∃ r, findRecord s j.shot = some r ∧ MayRunButPlanes s j r ∧
    planesClaimed j.kind r.life ≤ s.pool.owners.countP (· == .free)

/-- A record is eligible for a raw write (R151). -/
def MayWriteRaw (s : State) (r : Record) : Prop :=
  r.life = .held ∧ r.rawCard = .unwritten ∧
  (r.darkLink = .notRequired ∨ r.darkLink = .applied ∨ r.darkLink = .waived) ∧
  (∀ q ∈ s.pau, q.running = true → q.shot ≠ r.number) ∧ r.number ∉ s.card.marks ∧
  ∀ x ∈ s.card.index, x.shot ≠ r.number

/-- What a record that goes back to UNWRITTEN becomes: it keeps its life and its raw plane, and no file of it is on
the card (R15, R145, R156). -/
def BackToUnwritten (r y : Record) : Prop :=
  y.number = r.number ∧ y.life = r.life ∧ y.rawPlane = r.rawPlane ∧ y.rawCard = .unwritten ∧
  y.catSlot = none ∧ y.rawRuns = [] ∧ y.devFile = none ∧ y.devPending = none ∧ y.dirty = false

/-- The record of the raw or first entry that the work in flight writes. -/
def InFlight (s : State) (r : Record) : Prop :=
  (∃ d, s.card.work = some (.rawWrite r.number d)) ∨ ∃ slot, s.card.work = some (.entryWrite r.number slot)

/-- What an accepted format takes from a READY card while a command is on its bus (R150, R158, R159, log 26): the index,
the DAMAGED set, the map and the entry writes are gone, the loads that wait are answered NOT_FOUND and one on the bus goes
on, the HELD records are UNWRITTEN but for the one being written, and no SETTLED record is left. -/
def ClearedForFormat (s t : State) : Prop :=
  t.card.indexHeld = false ∧ t.card.index = [] ∧ t.card.damaged = [] ∧ t.card.map = [] ∧ t.card.entries = [] ∧
  t.card.bus.map (·.command) = s.card.bus.map (·.command) ∧
  ((∀ n p runs d, s.card.work ≠ some (.fetch n p runs d)) →
    t.card.bus = s.card.bus ∧ t.card.work = s.card.work) ∧
  (∀ n ws w, RecordSlot.loading n ws ∈ s.table.slots → (∀ slot, s.card.work ≠ some (.load n slot)) → w ∈ ws →
    Answered t w.tag .notFound .empty) ∧
  (∀ n ws, RecordSlot.loading n ws ∈ t.table.slots → RecordSlot.loading n ws ∈ s.table.slots ∧
    ∃ slot, s.card.work = some (.load n slot)) ∧
  (∀ n ws slot, RecordSlot.loading n ws ∈ s.table.slots → s.card.work = some (.load n slot) →
    RecordSlot.loading n ws ∈ t.table.slots) ∧
  (∀ r ∈ residents s, r.life = .held → ∃ y ∈ residents t, y.number = r.number ∧ y.life = .held ∧
    (InFlight s r → y.rawCard = r.rawCard ∧ y.rawRuns = r.rawRuns ∧ y.catSlot = r.catSlot) ∧
    (¬ InFlight s r → y.rawCard = .unwritten ∧ (r.rawCard ≠ .unwritten → BackToUnwritten r y))) ∧
  ∀ y ∈ residents t, y.life ≠ .settled

/-- The card's work has ended for a format (R159): the loads are answered NOT_FOUND, HELD records are UNWRITTEN,
no SETTLED or RETIRING record is left, and the index, the DAMAGED set, the map and the queues are empty. -/
def WorkEndedForFormat (s t : State) : Prop :=
  t.card.indexHeld = false ∧ t.card.index = [] ∧ t.card.damaged = [] ∧ t.card.map = [] ∧
  t.card.reads = [] ∧ t.card.entries = [] ∧
  (∀ n ws w, RecordSlot.loading n ws ∈ s.table.slots → w ∈ ws → Answered t w.tag .notFound .empty) ∧
  (∀ n ws, RecordSlot.loading n ws ∉ t.table.slots) ∧
  (∀ r ∈ residents s, r.life = .held →
    ∃ y ∈ residents t, y.number = r.number ∧ y.life = .held ∧ y.rawCard = .unwritten ∧
      (r.rawCard ≠ .unwritten → BackToUnwritten r y)) ∧
  ∀ y ∈ residents t, y.life ≠ .settled ∧ y.life ≠ .retiring

/-- What the end of the drain leaves (R157): EJECTED, the index, DAMAGED set, map and volume fields emptied and the
identity kept, the eject answered OK, the HELD records that were ON_CARD UNWRITTEN again, and no SETTLED record, nor what
other blocks held of one, with no AMEND_LOST. -/
def DrainEnded (eject : Option Nat) (s t : State) : Prop :=
  t.card.state = .ejected ∧ t.card.ejectTag = none ∧ t.card.indexHeld = false ∧ t.card.index = [] ∧
  t.card.damaged = [] ∧ t.card.map = [] ∧ t.card.volume = none ∧ t.card.identity = s.card.identity ∧
  t.card.reads = [] ∧ t.card.entries = [] ∧ t.card.work = none ∧ t.card.bus = none ∧
  (∀ tag, eject = some tag → Answered t tag .ok .empty) ∧
  (∀ r ∈ residents s, r.life = .held → r.rawCard = .onCard → ∃ y ∈ residents t, BackToUnwritten r y) ∧
  (∀ y ∈ residents t, y.life ≠ .settled) ∧
  (∀ r ∈ residents s, r.life = .settled →
    (∀ j ∈ t.dev.queue, j.shot ≠ r.number) ∧ (∀ h ∈ t.card.handoffs, h.shot ≠ r.number) ∧
    ∀ j ∈ s.dev.queue, j.shot = r.number → ∀ tag ∈ j.waiters, Answered t tag .noCard .empty) ∧
  t.notices.kinds[NoticeKind.amendLost.place]? = s.notices.kinds[NoticeKind.amendLost.place]?

/-- A rewrite of a dirty record waits: the first place of the amendment list that is not taken names a record that is
ON_CARD and not RETIRING (R155). -/
def RewriteWaits (s : State) : Prop :=
  ∃ before a after r, s.table.amended = before ++ a :: after ∧ (∀ x ∈ before, x.taken = true) ∧ a.taken = false ∧
    findRecord s a.shot = some r ∧ r.rawCard = .onCard ∧ r.life ≠ .retiring

/-- The reads that are queued and not started: all but the one in flight, which heads the read queue (R149, R157). -/
def ReadsWaiting (s : State) (reads : List CardRead) : Prop :=
  (((∀ n slot, s.card.work ≠ some (.load n slot)) ∧ ∀ n p runs d, s.card.work ≠ some (.fetch n p runs d)) ∧
    reads = s.card.reads) ∨
  (((∃ n slot, s.card.work = some (.load n slot)) ∨ ∃ n p runs d, s.card.work = some (.fetch n p runs d)) ∧
    ∃ x, s.card.reads = x :: reads ∧ x ∉ reads)

/-- What the waiting jobs and reads become when an accepted CARD_EJECT refuses the reads not started (R19, R119, R157):
a load's waiters are answered NO_CARD and its slot is FREE, and the RUNNING job of a refused fetch is QUEUED again in its
place with its priority and its waiters, its planes and its preview slot released. -/
def ReadsRefused (s t : State) (reads : List CardRead) : Prop :=
  (∀ x ∈ reads, x ∉ t.card.reads) ∧
  (∀ (n slot i : Nat) (ws : List LoadWaiter), CardRead.load n slot ∈ reads →
    s.table.slots[i]? = some (.loading n ws) →
    t.table.slots[i]? = some .free ∧ ∀ w ∈ ws, Answered t w.tag .noCard .empty) ∧
  (∀ (n p : Nat) (runs : List Run) (j : Job) (r : Record), CardRead.fetch n p runs ∈ reads → j ∈ s.dev.queue →
    findRecord s j.shot = some r → r.life = .settled → t.card.state = .ejecting →
    { j with running := false } ∈ t.dev.queue ∧
    (s.dev.queue = [j] → t.dev.engine = .idle ∧ t.dev.holds = none ∧
      (∀ (h : RunHolds) (q : Nat), s.dev.holds = some h → (h.fetch = some q ∨ h.output = some q) →
        q < s.pool.owners.length → s.pool.darkClaim = false → t.pool.owners[q]? = some .free) ∧
      ∀ (h : RunHolds) (i : Nat), s.dev.holds = some h → h.slot = some i → i < s.cache.slots.length →
        t.cache.slots[i]? = some { state := .free, pins := 0 }))

/-- The card's next number: one more than the highest shot number in the index, or 1 (R23). -/
def NextNumber (index : List IndexEntry) (next : Nat) : Prop :=
  (∀ x ∈ index, x.shot < next) ∧ (next = 1 ∨ ∃ x ∈ index, x.shot + 1 = next)

/-- The clusters that runs hold, run by run. -/
def clustersOf (rs : List Run) : List Nat := rs.flatMap fun r => List.range' r.start r.length

/-- The block of catalogue slot `i` is accepted at a mount (R147): a good LIVE entry, its fields in range, its number
held by no entry accepted before it, and its runs in data clusters that are free: no cluster twice, and none of an entry
accepted before it. -/
def EntryAccepted (clusters : Nat) (blocks : List (Nat × List Byte)) (index : List IndexEntry) (i : Nat)
    (b : List Byte) : Prop :=
  entryLive b = true ∧ entryContentGood b = true ∧ (∀ x ∈ index, x.slot < i → x.shot ≠ field b 4 4) ∧
  (∀ r ∈ entryRuns b, 1 ≤ r.length ∧ 3 ≤ r.start ∧ r.start + r.length ≤ 3 + clusters) ∧
  (clustersOf (entryRuns b)).Nodup ∧
  ∀ e ∈ blocks, e.1 < i → (∃ x ∈ index, x.slot = e.1) →
    ∀ c ∈ clustersOf (entryRuns e.2), c ∉ clustersOf (entryRuns b)

/-- The clusters that the work in flight has taken from the map for a file not yet in the catalogue (R150). -/
def clustersTaken (t : State) : List Nat :=
  match t.card.work with
  | some (.rawWrite n _) => clustersOf (((findRecord t n).map Record.rawRuns).getD [])
  | some (.developed _ runs _ false _) => clustersOf runs
  | _ => []

/-- What a mount makes of the blocks the card returned (R147, R150): each accepted entry is in the index, each entry that
is neither accepted nor EMPTY is in the DAMAGED set, nothing else is in either, and the map is every data cluster less
those of the accepted entries; what work started in the same event has taken from the map counts with it. -/
def CatalogueTaken (clusters : Nat) (blocks : List (Nat × List Byte)) (t : State) : Prop :=
  (∀ e ∈ blocks,
    (EntryAccepted clusters blocks t.card.index e.1 e.2 →
      { shot := field e.2 4 4, slot := e.1, frame := field e.2 24 2, label := slice e.2 8 16,
        protect := decide (field e.2 36 1 = 1) } ∈ t.card.index) ∧
    (¬ EntryAccepted clusters blocks t.card.index e.1 e.2 → ∀ x ∈ t.card.index, x.slot ≠ e.1) ∧
    (e.1 ∈ t.card.damaged ↔
      entryEmpty e.2 = false ∧ ¬ EntryAccepted clusters blocks t.card.index e.1 e.2)) ∧
  (∀ x ∈ t.card.index, ∃ e ∈ blocks, e.1 = x.slot) ∧ (∀ i ∈ t.card.damaged, ∃ e ∈ blocks, e.1 = i) ∧
  t.card.index.Pairwise (fun x y => x.shot < y.shot) ∧
  (clustersTaken t ++ clustersOf t.card.map).Pairwise (· < ·) ∧
  ∀ c, c ∈ clustersTaken t ++ clustersOf t.card.map ↔
    3 ≤ c ∧ c < 3 + clusters ∧
    ∀ e ∈ blocks, (∃ x ∈ t.card.index, x.slot = e.1) → c ∉ clustersOf (entryRuns e.2)

/-- A record that a mount renumbers (R23). -/
abbrev MustRenumber (next : Nat) (r : Record) : Prop :=
  (r.life = .opened ∨ r.life = .held ∨ r.life = .void) ∧ r.number < next

/-- How many of the records that a mount renumbers carry a number below `n`. -/
def renumberRank (next n : Nat) (s : State) : Nat :=
  (residents s).countP fun r => decide (MustRenumber next r) && decide (r.number < n)

/-- A record has taken a new number throughout resident state (R24). -/
def TakesNumber (x : Record) (new : Nat) (s t : State) : Prop :=
  (∃ y ∈ residents t, y.number = new ∧ y.former = some x.number ∧ y.life = x.life ∧ y.label = x.label ∧
    y.frame = x.frame ∧ y.exposures = x.exposures ∧ y.rawPlane = x.rawPlane) ∧
  (∀ p ∈ x.rawPlane, t.pool.owners[p]? = some (.shotRaw new)) ∧
  (∀ j ∈ s.dev.queue, j.shot = x.number → ∃ k ∈ t.dev.queue, k.shot = new ∧ k.kind = j.kind) ∧
  (∀ q ∈ s.pau, q.shot = x.number → ∃ u ∈ t.pau, u.shot = new ∧ u.op = q.op) ∧
  (∀ h ∈ s.card.handoffs, h.shot = x.number →
    t.pool.owners[h.plane]? = some (.handoff new h.key) ∧
    ∃ g ∈ t.card.handoffs, g.shot = new ∧ g.key = h.key ∧ g.plane = h.plane) ∧
  (∀ (c : Nat) (a : PreviewSlot) k w l st seed, s.cache.slots[c]? = some a → a.state = .valid (some (x.number, k)) w l st seed →
    0 < a.pins → t.cache.slots[c]? = some { a with state := .valid (some (new, k)) w l st seed }) ∧
  (s.seq.openShot = some x.number → t.seq.openShot = some new)

/-- The Shot Table's work at a mount (R23, R24): the counter becomes the greater of its own value and the card's next
number; the records it renumbers take the numbers from there on in ascending order of their own, as long as one is
left; RENUMBERED counts them, with the last as its subject; every other record keeps its number. -/
def RenumbersForMount (next : Nat) (s t : State) : Prop :=
  let base := max s.table.counter next
  let taken := min (renumberRank next next s) (4294967296 - base)
  t.table.counter = base + taken ∧
  (∀ x ∈ residents s, MustRenumber next x → base + renumberRank next x.number s < 4294967296 →
    TakesNumber x (base + renumberRank next x.number s) s t) ∧
  (∀ x ∈ residents s, (¬ MustRenumber next x ∨ 4294967296 ≤ base + renumberRank next x.number s) →
    ∃ y ∈ residents t, y.number = x.number ∧ y.former = x.former) ∧
  t.notices.kinds[NoticeKind.renumbered.place]? = (s.notices.kinds[NoticeKind.renumbered.place]?).map fun k =>
    if taken = 0 then k else Notice.raised (some (.shot (base + taken - 1))) taken k

/-- The plane a sample of the readout in progress is written into: the raw plane of the open shot for exposure 1, the
scratch plane for a later one, the plane of the EXPOSING entry for a dark exposure (R64). -/
def SampleGoesTo (s : State) (p : Nat) : Prop :=
  (s.seq.state = .readout ∧ s.seq.k ≤ 1 ∧
    ∃ n x, s.seq.openShot = some n ∧ findRecord s n = some x ∧ x.rawPlane = some p) ∨
  (s.seq.state = .readout ∧ 1 < s.seq.k ∧ s.seq.scratch = some p) ∨
  (s.seq.state = .darkReadout ∧ ∃ (e : Nat) (x : DarkEntry), s.dark.entries[e]? = some x ∧ x.state = .exposing p ∧
    ∀ (e' : Nat) (x' : DarkEntry) p', s.dark.entries[e']? = some x' → x'.state = .exposing p' → e' = e)

/-- A hand-off whose developed write the arbiter may start (R153). -/
def MayWriteDeveloped (s : State) (h : Handoff) : Prop :=
  h.writing = false ∧ h.marked = false ∧ ∃ r, findRecord s h.shot = some r ∧ r.rawCard = .onCard

/-- The record is the most recently used after a request that names it (R3). -/
def MostRecentlyUsed (s t : State) (r : Record) : Prop :=
  (slotNumbers s).Nodup → s.card.state ≠ .ejecting → ∀ i, s.table.slots[i]? = some (.inUse r) →
    t.table.useOrder = s.table.useOrder.filter (· != i) ++ [i]

/-- A request on a resident record refused: the record is the most recently used all the same (R3), and no record
changes, which is said where no card work can start. -/
def RefusedAndUsed (s t : State) (r : Record) (tag : Nat) (code : ResultCode) : Prop :=
  Answered t tag code .empty ∧ MostRecentlyUsed s t r ∧
  (s.card.bus.isSome → t.table.slots = s.table.slots ∧ t.table.amended = s.table.amended)

/-- The items of a SHOT_AMEND are in range, and at least one is named (R163). -/
def AmendInRange (o : AmendOperands) : Prop :=
  GivenIn o.rating 0 5 ∧ GivenIn o.protect 0 1 ∧ GivenIn o.recipe 0 31 ∧
  (o.rating.isSome ∨ o.protect.isSome ∨ o.recipe.isSome ∨ o.waiveDark = true)

/-- What becomes of the dark entry that a retired shot was LINKED to (R109, R110): EXPOSING, or with a link left, it stays
as it is; with none left a PLANNED entry is FREE and out of the plan queue, a READY one past its expiry instant that no
request reads is FREE, and one before it stays READY. A dark claim that waits may be served in the same event, which makes
the first of the plan queue EXPOSING (R91); where shots are AWAITING the pass of the same event may plan in the entry
freed, or reclaim the one left idle (R102), so the clauses without a link left speak of none. -/
def EntryLeft (s t : State) (r : Record) : Prop :=
  ∀ (e : Nat) (x : DarkEntry), r.darkLink = .linked e → s.dark.entries[e]? = some x →
    (((∃ p, x.state = .exposing p) ∨
        (x.state ≠ .free ∧ ∃ y ∈ residents s, y.number ≠ r.number ∧ y.darkLink = .linked e)) →
      (e ∈ s.dark.plan → s.pool.darkClaim = false ∧ s.card.state ≠ .ejecting) →
      t.dark.entries[e]? = some x) ∧
    ((∀ y ∈ residents s, y.number ≠ r.number → y.darkLink ≠ .awaiting ∧ y.darkLink ≠ .linked e) →
      (x.state = .planned → (t.dark.entries[e]?).map DarkEntry.state = some .free ∧ e ∉ t.dark.plan) ∧
      (∀ band taken p, x.state = .ready band taken p → e ∉ s.dark.plan →
        ((s.timeBase - taken).toNat < x.reuseAge * 1000000 → t.dark.entries[e]? = some x) ∧
        (x.reuseAge * 1000000 ≤ (s.timeBase - taken).toNat →
          (∀ q ∈ s.pau, q.op = .applyDark e → q.shot = r.number) →
          (t.dark.entries[e]?).map DarkEntry.state = some .free)))

/-- What becomes of the preview slots of a shot that has been retired (R140): a pinned one is ORPHANED, and an unpinned
one is FREE, or FILLING for a job dispatched in the same event. -/
def PreviewsLeft (s t : State) (n : Nat) : Prop :=
  ∀ (i : Nat) (x : PreviewSlot) (k : DevKey) (w h : Nat) (standing : Bool) (seed : Nat),
    s.cache.slots[i]? = some x → x.state = .valid (some (n, k)) w h standing seed → s.card.state ≠ .ejecting →
    (x.pins = 0 → ∃ y, t.cache.slots[i]? = some y ∧ (y.state = .free ∨ y.state = .filling)) ∧
    (0 < x.pins → (∀ held, s.dev.holds = some held → held.slot ≠ some i) →
      t.cache.slots[i]? = some { x with state := .valid none w h standing seed })

/-- No item named differs from what the record holds (R164). -/
def AmendKeeps (o : AmendOperands) (r : Record) : Prop :=
  (∀ v, o.rating = some v → v = r.rating) ∧ (∀ v, o.protect = some v → (v = 1 ↔ r.protect = true)) ∧
  ∀ v, o.recipe = some v → v = r.recipe

/-- The record after an accepted SHOT_AMEND, but for its dark link: each named item at its new value (R164). -/
def AmendedTo (o : AmendOperands) (r : Record) (rating : Nat) (protect : Bool) (recipe : Nat) : Prop :=
  rating = o.rating.getD r.rating ∧ (o.protect = none → protect = r.protect) ∧
  (o.protect = some 0 → protect = false) ∧ (o.protect = some 1 → protect = true) ∧
  recipe = o.recipe.getD r.recipe

/-- Whether the card holds the raw of a record, or its entry is on its way there (R166). -/
def OnCardSide (r : Record) : Prop :=
  r.life = .settled ∨ (r.life = .held ∧ (r.rawCard = .onCard ∨ r.rawCard = .cataloguing))

/-- The card in place is write-protected. -/
def ProtectedCard (s : State) : Prop := ∃ x, s.card.identity = some x ∧ x.writeProtected = true

/-- What SHOT_LOOKUP reports of a record (R25). -/
def Reports (s : State) (r : Record) (v : ShotView) : Prop :=
  v.number = r.number ∧ v.former = r.former ∧ v.life = r.life ∧ v.rollSlot = r.rollSlot ∧ v.label = r.label ∧
  v.frame = r.frame ∧ v.kind = r.kind ∧ v.takenAt = r.takenAt ∧ v.recipe = r.recipe ∧
  v.key = { recipe := r.recipe, generation := (s.recipes.getD r.recipe .reset).generation } ∧
  v.darkLink = r.darkLink ∧ v.darkAttempts = r.darkAttempts ∧ v.rawCard = r.rawCard ∧ v.catSlot = r.catSlot ∧
  v.rawRunCount = r.rawRuns.length ∧ v.devKey = r.devFile.map DevFile.key ∧ v.devPending = r.devPending ∧
  v.rating = r.rating ∧ v.protect = r.protect ∧ v.dirty = r.dirty ∧ v.exposures = r.exposures

/-! ### What a load makes of an entry (R20, R162, Tables 9-6 and 9-7) -/

/-- Runs stand in the eight places from byte `base` of an entry, `count` of them. -/
def RunsFrom (b : List Byte) (base count : Nat) (runs : List Run) : Prop :=
  runs.length = count ∧ ∀ i, i < count →
    runs[i]? = some { start := field b (base + 8 * i) 4, length := field b (base + 8 * i + 4) 4 }

/-- The exposure entry that exposure record `i` of an entry gives. -/
def ExposureFrom (b : List Byte) (i : Nat) (e : ExpEntry) : Prop :=
  e.index = i + 1 ∧
  (field b (64 + 14 * i + 13) 1 / 2 % 2 = 1 → e.openTime = some (BitVec.ofNat 48 (field b (64 + 14 * i) 6))) ∧
  (field b (64 + 14 * i + 13) 1 / 2 % 2 = 0 → e.openTime = none) ∧
  (e.truncated = true ↔ field b (64 + 14 * i + 13) 1 % 2 = 1) ∧
  (field b (64 + 14 * i + 12) 1 = 0 → e.source = none ∧ e.duration = none) ∧
  (field b (64 + 14 * i + 12) 1 = 1 → e.source = some .xsync) ∧
  (field b (64 + 14 * i + 12) 1 = 2 → e.source = some .auxEnd) ∧
  (field b (64 + 14 * i + 12) 1 = 3 → e.source = some .timed) ∧
  (1 ≤ field b (64 + 14 * i + 12) 1 → field b (64 + 14 * i + 12) 1 ≤ 3 →
    e.duration = some (field b (64 + 14 * i + 6) 4)) ∧
  (∀ o d, e.openTime = some o → e.duration = some d → e.closeTime = some (o + BitVec.ofNat 48 d)) ∧
  (fieldSigned b (64 + 14 * i + 10) 2 = -32768 → e.temperature = none ∧ e.status = .failed) ∧
  (fieldSigned b (64 + 14 * i + 10) 2 ≠ -32768 →
    e.temperature = some (fieldSigned b (64 + 14 * i + 10) 2) ∧ e.status = .done)

/-- The record that a load makes of a good entry. -/
def LoadedFrom (b : List Byte) (slot : Nat) (y : Record) : Prop :=
  y.number = field b 4 4 ∧ y.former = none ∧ y.life = .settled ∧ y.rollSlot = none ∧ y.label = slice b 8 16 ∧
  y.frame = field b 24 2 ∧ (field b 1 1 = 1 → y.kind = .single) ∧
  (2 ≤ field b 1 1 → y.kind = .stack (field b 1 1)) ∧
  y.exposures.length = field b 2 1 ∧
  (∀ i, i < field b 2 1 → ∃ e, y.exposures[i]? = some e ∧ ExposureFrom b i e) ∧
  y.takenAt = some (fieldSigned b 26 8) ∧ y.recipe = field b 34 1 ∧ y.rating = field b 35 1 ∧
  (y.protect = true ↔ field b 36 1 = 1) ∧ (field b 3 1 = 0 → y.darkLink = .notRequired) ∧
  (field b 3 1 = 1 → y.darkLink = .applied) ∧ (field b 3 1 = 2 → y.darkLink = .waived) ∧
  y.darkAttempts = 0 ∧ y.rawCard = .onCard ∧ y.catSlot = some slot ∧ RunsFrom b 176 (field b 37 1) y.rawRuns ∧
  (field b 38 1 = 0 → y.devFile = none) ∧
  (field b 38 1 ≠ 0 → ∃ f, y.devFile = some f ∧ RunsFrom b 240 (field b 38 1) f.runs ∧
    f.key = { recipe := field b 39 1, generation := BitVec.ofNat 16 (field b 40 2) }) ∧
  y.devPending = none ∧ y.dirty = false ∧ y.rawPlane = none ∧ y.retireTag = none

/-! ### Jobs (R113, R136) -/

/-- The priority of a GET_PREVIEW's placing (R136): that of the roll's auto preview, and 6 where it is OFF or the shot has
no roll slot. -/
def MissPriority (s : State) (r : Record) (p : Nat) : Prop :=
  (r.rollSlot = none ∧ p = 6) ∨
  ∃ (i : Nat) (m : RollSlot) (roll : Roll), r.rollSlot = some i ∧ s.rolls.slots[i]? = some m ∧ m.roll? = some roll ∧
    ((roll.autoPreview = none ∧ p = 6) ∨ roll.autoPreview = some p)

/-- The one job of a shot and kind in the queue, at place `i`. -/
def OnlyJob (s : State) (n : Nat) (k : JobKind) (i : Nat) (j : Job) : Prop :=
  s.dev.queue[i]? = some j ∧ j.shot = n ∧ j.kind = k ∧
  ∀ i' j', s.dev.queue[i']? = some j' → j'.shot = n → j'.kind = k → i' = i

/-- A placing has merged into the job at place `i` (R113): the larger priority, the shot's current key unless the job is
RUNNING, and the tag, if one waits, at the end of the waiters; no job joins the queue. That a QUEUED job may be dispatched
in the same event leaves all of this (R116). -/
def MergedInto (i : Nat) (j : Job) (priority : Nat) (key : DevKey) (tag : Option Nat) (s t : State) : Prop :=
  t.dev.queue.length = s.dev.queue.length ∧
  ∃ y, t.dev.queue[i]? = some y ∧ y.shot = j.shot ∧ y.kind = j.kind ∧ y.priority = max j.priority priority ∧
    y.waiters = j.waiters ++ tag.toList ∧ y.key = (if j.running then j.key else key) ∧
    (j.running = true → y.running = true)

/-- A VALID slot shows a shot that is not resident, under a key still current (R137 test 4). -/
def Stands (s : State) (n : Nat) (x : PreviewSlot) : Prop :=
  ∃ k w h seed, x.state = .valid (some (n, k)) w h true seed ∧
    k.generation = (s.recipes.getD k.recipe .reset).generation

/-! ### The operands of a request (R171, R174) -/

/-- The bytes of the operands of each kind of Table 11-3: its presence bytes, the bytes always there, and the widths of
its optional items in their order. -/
def requestForm (kind : Nat) : Option (Nat × Nat × List Nat) :=
  let roll := [16, 2, 1, 2, 5, 2, 1, 1, 1, 2, 2, 2, 2, 1, 1, 1, 1]
  match kind with
  | 0x01 => some (0, 4, [])
  | 0x02 => some (1, 5, [16])
  | 0x10 => some (3, 0, roll)
  | 0x11 => some (3, 1, roll)
  | 0x12 => some (1, 0, [1])
  | 0x13 => some (0, 1, [])
  | 0x14 => some (0, 1, [])
  | 0x15 => some (1, 0, [1])
  | 0x18 => some (2, 1, [2, 2, 2, 1, 1, 1, 1, 1, 9, 1, 1])
  | 0x19 => some (0, 1, [])
  | 0x20 => some (1, 0, [1, 1, 1, 1, 1, 1, 1, 2])
  | 0x21 => some (1, 0, [8])
  | 0x28 => some (1, 1, [4])
  | 0x29 => some (0, 4, [])
  | 0x30 => some (0, 6, [])
  | 0x31 => some (1, 0, [1])
  | 0x38 => some (0, 4, [])
  | 0x39 => some (0, 7, [])
  | 0x3A => some (0, 1, [])
  | 0x40 => some (0, 0, [])
  | 0x41 => some (0, 0, [])
  | 0x42 => some (0, 1, [])
  | 0x48 => some (1, 4, [1, 1, 1, 0])
  | 0x49 => some (0, 4, [])
  | 0x50 => some (0, 0, [])
  | 0x51 => some (0, 0, [])
  | 0x52 => some (0, 0, [])
  | 0x58 => some (0, 0, [])
  | 0x59 => some (2, 0, List.replicate 16 1)
  | _ => none

/-- The operands have the length that the kind and the presence bytes call for (R174 test 4). -/
def RightLength (kind : Nat) (operands : List Byte) : Prop :=
  ∃ heads fixed widths, requestForm kind = some (heads, fixed, widths) ∧ heads ≤ operands.length ∧
    operands.length = heads + fixed +
      ((widths.zipIdx.filter fun x => (operands.getD (x.2 / 8) 0#8).getLsbD (x.2 % 8)).map Prod.fst).sum

/-- The items of the settings of a roll (Table 2-2). -/
def rollSettings (o : RollOperands) : List Item :=
  [.optional o.label, optNum 2 o.frameLimit, optNum 1 o.defaultRecipe,
   .optional (o.defaultKind.map fun p => beBytes 1 p.1 ++ beBytes 1 p.2),
   .optional (o.darkPolicy.map fun p => beBytes 1 p.1 ++ beBytes 4 p.2), optNum 2 o.reuseAge,
   optNum 1 o.darkYield, optNum 1 o.sources, optNum 1 o.reclose, optNum 2 o.armWindow, optNum 2 o.maxOpen,
   optNum 2 o.settleDelay, optNum 2 o.stackWindow, optNum 1 (o.autoPreview.map Prod.fst),
   optNum 1 (o.autoPreview.bind Prod.snd), optNum 1 (o.autoFull.map Prod.fst),
   optNum 1 (o.autoFull.bind Prod.snd)]

/-- An auto setting's values fit their bytes. -/
def AutoFits (v : Option (Nat × Option Nat)) : Prop := ∀ n p, v = some (n, p) → n ≤ 255 ∧ GivenIn p 0 255

/-- The settings of a roll fit their bytes. -/
def RollFits (o : RollOperands) : Prop :=
  (∀ l, o.label = some l → l.length = 16) ∧ GivenIn o.frameLimit 0 65535 ∧ GivenIn o.defaultRecipe 0 255 ∧
  (∀ k n, o.defaultKind = some (k, n) → k ≤ 255 ∧ n ≤ 255) ∧
  (∀ k n, o.darkPolicy = some (k, n) → k ≤ 255 ∧ n ≤ 4294967295) ∧ GivenIn o.reuseAge 0 65535 ∧
  GivenIn o.darkYield 0 255 ∧ GivenIn o.sources 0 255 ∧ GivenIn o.reclose 0 255 ∧ GivenIn o.armWindow 0 65535 ∧
  GivenIn o.maxOpen 0 65535 ∧ GivenIn o.settleDelay 0 65535 ∧ GivenIn o.stackWindow 0 65535 ∧
  AutoFits o.autoPreview ∧ AutoFits o.autoFull

/-- The items of the parameters of a recipe (Table 2-5). -/
def recipeParameters (o : RecipeOperands) : List Item :=
  [optNum 2 o.gainR, optNum 2 o.gainG, optNum 2 o.gainB, .optional (o.compensation.map (beSigned 1)),
   .optional (o.saturation.map (beSigned 1)), optNum 1 o.toneCurve, optNum 1 o.noise, optNum 1 o.sharpening,
   .optional (o.crop.map fun c => beBytes 1 c.1 ++ beBytes 2 c.2.left ++ beBytes 2 c.2.top ++
     beBytes 2 c.2.width ++ beBytes 2 c.2.height), optNum 1 o.rotation, optNum 1 o.fullScale]

/-- The parameters of a recipe fit their bytes. -/
def RecipeFits (o : RecipeOperands) : Prop :=
  GivenIn o.gainR 0 65535 ∧ GivenIn o.gainG 0 65535 ∧ GivenIn o.gainB 0 65535 ∧
  GivenInInt o.compensation (-128) 127 ∧ GivenInInt o.saturation (-128) 127 ∧ GivenIn o.toneCurve 0 255 ∧
  GivenIn o.noise 0 255 ∧ GivenIn o.sharpening 0 255 ∧
  (∀ k c, o.crop = some (k, c) →
    k ≤ 255 ∧ c.left ≤ 65535 ∧ c.top ≤ 65535 ∧ c.width ≤ 65535 ∧ c.height ≤ 65535) ∧
  GivenIn o.rotation 0 255 ∧ GivenIn o.fullScale 0 255

/-- The items of the settings of a SET_SYNC (Table 3-1). -/
def syncSettings (o : SyncOperands) : List Item :=
  [optNum 1 o.polarityRelease, optNum 1 o.polarityXsync, optNum 1 o.polarityAux, optNum 1 o.countRelease,
   optNum 1 o.countXsync, optNum 1 o.countAux, optNum 1 o.auxRole, optNum 2 o.reloutWidth]

/-- The settings of a SET_SYNC fit their bytes. -/
def SyncFits (o : SyncOperands) : Prop :=
  GivenIn o.polarityRelease 0 255 ∧ GivenIn o.polarityXsync 0 255 ∧ GivenIn o.polarityAux 0 255 ∧
  GivenIn o.countRelease 0 255 ∧ GivenIn o.countXsync 0 255 ∧ GivenIn o.countAux 0 255 ∧
  GivenIn o.auxRole 0 255 ∧ GivenIn o.reloutWidth 0 65535

/-! ### Framing (Section 11.2) -/

/-- The bytes of a request packet that its check code covers (Table 11-1). -/
def packetBody (tag kind : Nat) (operands : List Byte) : List Byte :=
  BitVec.ofNat 8 tag :: BitVec.ofNat 8 kind :: BitVec.ofNat 8 operands.length :: operands

/-- The bytes of a request packet with the check bytes given (Table 11-1). -/
def packetWith (tag kind : Nat) (operands check : List Byte) : List Byte :=
  0xA5#8 :: packetBody tag kind operands ++ check

/-- The bytes of a request packet (Table 11-1). -/
def requestPacket (tag kind : Nat) (operands : List Byte) : List Byte :=
  packetWith tag kind operands (crcBytes (packetBody tag kind operands))

/-- Bytes shifted in one after another. -/
def sendBytes : List Byte → State → Host.Outcome State Fault Refusal
  | [], s => .next s
  | b :: bs, s =>
    match exec (.mosiByte b) s with
    | .next t => sendBytes bs t
    | o => o

/-! ### Laws of the state -/

/-- The memory list is in its canonical form (log 13). -/
abbrev Canonical (s : State) : Prop := Memory.wf s.mem

/-- The current roll, when there is one, is an OPEN roll (R30). -/
def CurrentRollOpen (s : State) : Prop :=
  ∀ i, s.rolls.current = some i → ∃ r, s.rolls.slots[i]? = some (.opened r)

/-- The HELD tags are distinct and lie from 0 to 7 (Section 11.3). -/
def TagsDistinct (s : State) : Prop := s.link.held.Nodup ∧ ∀ t ∈ s.link.held, t ≤ 7

/-- The development queue holds at most 16 jobs (R112). -/
def QueueWithinRoom (s : State) : Prop := s.dev.queue.length ≤ 16

/-- No pin count exceeds 7, and only a VALID slot is pinned (R134). -/
def PinsWithinLimit (s : State) : Prop :=
  ∀ x ∈ s.cache.slots, x.pins ≤ 7 ∧ (0 < x.pins → x.isValid = true)

/-- The tables keep their sizes: 64 record slots, 16 roll slots, 32 recipes, 8 dark entries, 10 planes,
8 preview slots, 15 notice kinds (Table 0-2). -/
def TablesKeepSize (s : State) : Prop :=
  s.table.slots.length = 64 ∧ s.rolls.slots.length = 16 ∧ s.recipes.length = 32 ∧
  s.dark.entries.length = 8 ∧ s.pool.owners.length = 10 ∧ s.cache.slots.length = 8 ∧
  s.notices.kinds.length = 15

/-- The development floor lies from 1 to 7 (R114). -/
def FloorInRange (s : State) : Prop := 1 ≤ s.dev.floor ∧ s.dev.floor ≤ 7

/-- The law of shot numbers (R22): no two record slots carry the same number, every number there and in the
index lies below the counter, and the counter lies in its range. That a LOADING slot counts is the model's. -/
def ShotNumbersAgree (s : State) : Prop :=
  1 ≤ s.table.counter ∧ s.table.counter ≤ 4294967296 ∧ (slotNumbers s).Nodup ∧
  (∀ n ∈ slotNumbers s, n < s.table.counter) ∧ ∀ x ∈ s.card.index, x.shot < s.table.counter

/-- The states in which a shot is open (R62). -/
def SeqState.hasShot : SeqState → Bool
  | .idle => false
  | .dark => false
  | .darkReadout => false
  | _ => true

/-- The law of the open shot (R62): the open shot is present in its six states alone, and the OPEN records are
the one it names. -/
def OpenShotAgrees (s : State) : Prop :=
  (s.seq.openShot.isSome ↔ s.seq.state.hasShot = true) ∧
  (∀ n ∈ s.seq.openShot, ∃ r ∈ residents s, r.number = n ∧ r.life = .opened) ∧
  ∀ r ∈ residents s, r.life = .opened → s.seq.openShot = some r.number

/-- The planes that the blocks name, each with the owner it is named for (R87). -/
def planesNamed (s : State) : List (Nat × Owner) :=
  ((residents s).filterMap fun r => r.rawPlane.map fun p => (p, .shotRaw r.number)) ++
  (s.seq.scratch.map fun p => (p, Owner.seqScratch)).toList ++
  (s.dark.entries.zipIdx.filterMap fun x => x.1.state.plane?.map fun p => (p, .dark x.2)) ++
  ((s.dev.holds.bind (·.fetch)).map fun p => (p, Owner.devFetch)).toList ++
  ((s.dev.holds.bind (·.output)).map fun p => (p, Owner.devOutput)).toList ++
  s.card.handoffs.map fun h => (h.plane, .handoff h.shot h.key)

/-- The law of the planes (R87): the owner of a plane and what names the plane agree, and no plane is named
twice. With it what keeps it so: only an OPEN or HELD record has a raw plane (R17), an IDLE engine holds nothing
(R122), and the entries of the plan queue are PLANNED (R99). -/
def PlanesAgree (s : State) : Prop :=
  (∀ x ∈ planesNamed s, s.pool.owners[x.1]? = some x.2) ∧
  (∀ x ∈ s.pool.owners.zipIdx, x.1 ≠ .free → (x.2, x.1) ∈ planesNamed s) ∧
  ((planesNamed s).map Prod.fst).Nodup ∧
  (∀ r ∈ residents s, r.rawPlane.isSome → r.life = .opened ∨ r.life = .held) ∧
  (s.dev.engine = .idle → s.dev.holds = none) ∧
  ∀ e ∈ s.dark.plan, (darkEntry s e).state = .planned

/-- The law of the development queue (R112) but for its room: at most one job for a shot and kind, every job
names a resident HELD or SETTLED record, at most one is RUNNING, and none while the engine is IDLE. -/
def QueueAgrees (s : State) : Prop :=
  (s.dev.queue.map fun j => (j.shot, j.kind)).Nodup ∧
  (∀ j ∈ s.dev.queue, ∃ r ∈ residents s, r.number = j.shot ∧ (r.life = .held ∨ r.life = .settled)) ∧
  (s.dev.queue.filter (·.running)).length ≤ 1 ∧
  (s.dev.engine = .idle → ∀ j ∈ s.dev.queue, j.running = false)

/-- The law of the dark link (R108): a shot AWAITING or LINKED is UNWRITTEN and no RUNNING job names it. With it
that an OPEN record is UNWRITTEN (R15). -/
def DarkLinksAgree (s : State) : Prop :=
  ∀ r ∈ residents s,
    ((r.darkLink = .awaiting ∨ ∃ e, r.darkLink = .linked e) →
      r.rawCard = .unwritten ∧ ∀ j ∈ s.dev.queue, j.shot = r.number → j.running = false) ∧
    (r.life = .opened → r.rawCard = .unwritten)

/-- The steps of a mount and of a format. -/
def CardWork.mounts : CardWork → Bool
  | .identify => true
  | .header => true
  | .catalogue _ _ => true
  | .format _ _ _ => true
  | _ => false

/-- No card's catalogue is held: there is no formatted card, or its mount or format is in progress. -/
def Unmounted (s : State) : Prop :=
  s.card.state = .absent ∨ s.card.state = .unformatted ∨ s.card.work.any CardWork.mounts = true

/-- The law of the index (R147) as far as the part holds it: the index is in ascending order, and every SETTLED
record is in it, and ON_CARD. With it what keeps it so: a HELD record that is ON_CARD is in the index, one on its
way there is not yet, an OPEN or VOID one is UNWRITTEN, and while no catalogue is held the index is empty and every
record UNWRITTEN (R15, R142). -/
def IndexAgrees (s : State) : Prop :=
  s.card.index.Pairwise (fun x y => x.shot < y.shot) ∧
  (∀ r ∈ residents s,
    (r.life = .settled → r.rawCard = .onCard) ∧
    (r.life = .opened ∨ r.life = .void → r.rawCard = .unwritten) ∧
    (r.life = .held ∨ r.life = .settled → r.rawCard = .onCard → ∃ x ∈ s.card.index, x.shot = r.number) ∧
    (r.rawCard = .writing ∨ r.rawCard = .cataloguing → ∀ x ∈ s.card.index, x.shot ≠ r.number)) ∧
  (Unmounted s → s.card.index = [] ∧ ∀ r ∈ residents s, r.rawCard = .unwritten)

/-- The laws of the rolls, the records, the planes, the jobs, the dark links and the index together; every step keeps
each of them. -/
def LawsHold (s : State) : Prop :=
  TablesKeepSize s ∧ CurrentRollOpen s ∧ ShotNumbersAgree s ∧ OpenShotAgrees s ∧ PlanesAgree s ∧ QueueAgrees s ∧
  DarkLinksAgree s ∧ IndexAgrees s

/-- The latest sample was taken at a multiple of 4, at most four microseconds back: no sampling instant has passed
without its sample (R46, log 4). -/
def SamplesKeepUp (s : State) : Prop :=
  s.sync.lastSample.toNat % 4 = 0 ∧ (s.timeBase - s.sync.lastSample).toNat ≤ 4

/-! ### RESTART (R27, R85, R88, R97, R111, R160) -/

/-- What the RESTART work leaves, `u`, is the state the row ends in while a command is on the card bus; with none on it
RESTARTING ends at once, and the work of the event in which the part becomes RUNNING follows (R181, log 12). -/
def RunningFollows (s u t : State) : Prop :=
  u.part = .restarting ∧ (s.card.bus.isSome → t = u) ∧ (s.card.bus = none → t = enterRunning u)

/-- No exposure of the shot is DONE. -/
def NoneDone (r : Record) : Prop := ∀ e ∈ r.exposures, e.status ≠ .done

/-- An entry of the Dark Reference Table that is READY. -/
def ReadyEntry (s : State) (e : Nat) : Prop :=
  ∃ x band taken p, s.dark.entries[e]? = some x ∧ x.state = .ready band taken p

/-- An entry that RESTART abandons: PLANNED or EXPOSING (R111). -/
def AbandonedEntry (s : State) (e : Nat) : Prop :=
  ∃ x, s.dark.entries[e]? = some x ∧ (x.state = .planned ∨ ∃ p, x.state = .exposing p)

/-- A HELD record that the end of its job settles: it is ON_CARD, and the RUNNING job is its own (R126, R128). -/
def SettledByRestart (s : State) (r : Record) : Prop :=
  r.life = .held ∧ r.rawCard = .onCard ∧
  ∃ j, s.dev.queue.find? (·.running) = some j ∧ j.shot = r.number

/-- A record that the Card Store's RESTART work drops (R160). -/
def DroppedByRestart (s : State) (r : Record) : Prop := r.life = .settled ∨ SettledByRestart s r

/-- A record that RESTART takes from its slot: RETIRING, dropped, or OPEN with no DONE exposure (R27, R85, R160). -/
def GoneByRestart (s : State) (r : Record) : Prop :=
  r.life = .retiring ∨ DroppedByRestart s r ∨ (r.life = .opened ∧ NoneDone r)

/-- The dark link that RESTART leaves: a shot LINKED to an entry abandoned is AWAITING again with one more attempt, or
WAIVED at the third; one LINKED to a READY entry, or not LINKED, keeps its link (R107, R111). -/
def LinkAfterRestart (s : State) (r y : Record) : Prop :=
  (∀ e, r.darkLink = .linked e → AbandonedEntry s e → y.darkAttempts = r.darkAttempts + 1 ∧
    y.darkLink = if 3 ≤ r.darkAttempts + 1 then .waived else .awaiting) ∧
  ((∀ e, r.darkLink = .linked e → ReadyEntry s e) →
    y.darkAttempts = r.darkAttempts ∧ y.darkLink = r.darkLink)

/-- The OPEN record `r` finished short as `y` (R84, R85): HELD, its last exposure FAILED unless it is DONE, and the dark
link its policy gives. -/
def FinishedShort (s : State) (r y : Record) : Prop :=
  y = { r with
    life := .held, exposures := y.exposures, darkLink := y.darkLink, darkAttempts := y.darkAttempts } ∧
  y.exposures.length = r.exposures.length ∧
  (∀ k e, r.exposures[k]? = some e → y.exposures[k]? = some
    (if k = s.seq.k - 1 ∧ e.status ≠ .done then { e with status := .failed } else e)) ∧
  ∀ i m roll d, r.rollSlot = some i → s.rolls.slots[i]? = some m → m.roll? = some roll →
    longestDuration r = some d → y.darkAttempts = r.darkAttempts ∧ LinkByPolicy roll.darkPolicy d y.darkLink ∧
    ∀ e, y.darkLink ≠ .linked e

/-- What a record that stays resident becomes at RESTART: an OPEN one is finished short, a HELD one is UNWRITTEN, and a
VOID one keeps its fields (R27, R85, R160). -/
def StaysOverRestart (s : State) (r y : Record) : Prop :=
  (r.life = .opened → FinishedShort s r y) ∧
  (r.life ≠ .opened → LinkAfterRestart s r y) ∧
  (r.life = .void ∨ (r.life = .held ∧ r.rawCard = .unwritten) →
    y = { r with darkLink := y.darkLink, darkAttempts := y.darkAttempts }) ∧
  (r.life = .held → r.rawCard ≠ .unwritten →
    y = { r with
      darkLink := y.darkLink, darkAttempts := y.darkAttempts, rawCard := .unwritten, catSlot := none,
      rawRuns := [], devFile := none, devPending := none, dirty := false })

/-- The Card Store after RESTART (R160): nothing is in flight or queued but the mount, the index, the DAMAGED set and the
map are empty, the full flag and the room marks are cleared, and the command on the bus is left to its answer. The
identity and the volume fields are kept (log 27). -/
def CardRestarted (s t : State) : Prop :=
  t.card.state = (if s.card.detect.accepted then .mounting else .absent) ∧ t.card.detect = s.card.detect ∧
  t.card.identity = s.card.identity ∧ t.card.volume = s.card.volume ∧ t.card.indexHeld = false ∧
  t.card.index = [] ∧ t.card.damaged = [] ∧ t.card.map = [] ∧ t.card.reads = [] ∧ t.card.entries = [] ∧
  t.card.full = false ∧ t.card.marks = [] ∧ t.card.ejectTag = none ∧ t.card.formatTag = none ∧
  t.card.formatWait = none ∧ (∀ h ∈ t.card.handoffs, h.writing = false ∧ h.marked = false) ∧
  t.card.work = (if s.card.detect.accepted then some .identify else none) ∧
  (∀ b, s.card.bus = some b → t.card.bus = some { b with orphan := true }) ∧
  (s.card.bus = none → t.card.bus =
    if s.card.detect.accepted then
      some { command := .identify, issued := s.timeBase, retried := false, orphan := false }
    else none)

/-- The Notice Unit after RESTART (R160, R176, R181): every kind is cleared, and AMEND_LOST is then raised with the count
of the dirty records dropped and the lowest of their numbers, when there is one. -/
def NoticesRestarted (s t : State) : Prop :=
  (∀ k : NoticeKind, k ≠ .amendLost →
    t.notices.kinds[k.place]? = (s.notices.kinds[k.place]?).map Notice.cleared) ∧
  ∀ lost : List Nat, lost.Pairwise (· < ·) →
    (∀ n, n ∈ lost ↔ ∃ r ∈ residents s, r.number = n ∧ r.dirty = true ∧ DroppedByRestart s r) →
    t.notices.kinds[NoticeKind.amendLost.place]? = (s.notices.kinds[NoticeKind.amendLost.place]?).map fun x =>
      match lost with
      | [] => x.cleared
      | n :: _ => x.cleared.raised (some (.shot n)) lost.length

/-- What a plane's owner becomes at RESTART (R88): that of a record which stays, of a READY entry and of the hand-off of a
HELD record which stays keep it, every other plane is FREE. -/
def PlaneAfterRestart (s u : State) (p : Nat) (o : Owner) : Prop :=
  match o with
  | .shotRaw n =>
    ((∃ y ∈ residents u, y.number = n) → u.pool.owners[p]? = some (.shotRaw n)) ∧
    ((∀ y ∈ residents u, y.number ≠ n) → u.pool.owners[p]? = some .free)
  | .dark e =>
    (ReadyEntry s e → u.pool.owners[p]? = some (.dark e)) ∧
    (¬ ReadyEntry s e → u.pool.owners[p]? = some .free)
  | .handoff n key => ∀ r ∈ residents s, r.number = n →
    (r.life = .held → ¬ DroppedByRestart s r → u.pool.owners[p]? = some (.handoff n key)) ∧
    (r.life = .retiring ∨ DroppedByRestart s r → u.pool.owners[p]? = some .free)
  | _ => u.pool.owners[p]? = some .free

/-- A request of the Plane Arithmetic Unit is the APPLY_DARK of a record: it names the READY entry the record is LINKED to,
the entry's plane and the record's raw plane (R92, R108). -/
def AppliesDark (u : State) (q : PauRequest) : Prop :=
  ∃ y ∈ residents u, ∃ e x band taken, y.number = q.shot ∧ q.op = .applyDark e ∧ y.darkLink = .linked e ∧
    u.dark.entries[e]? = some x ∧ x.state = .ready band taken q.source ∧ (∀ p, y.rawPlane = some p → q.destination = p)

/-- The APPLY_DARK requests placed anew at RESTART (R97): that of the shots `first`, which is the one that was RUNNING,
then one for each other record LINKED to a READY entry, in ascending order and up to seven; the first is started. -/
def RequestsPlacedAnew (s u : State) (first : List Nat) : Prop :=
  ∃ rest : List Nat, rest.Pairwise (· < ·) ∧
    (∀ n, n ∈ rest ↔ n ∉ first ∧ ∃ y ∈ residents u, y.number = n ∧ ∃ e, y.darkLink = .linked e ∧ ReadyEntry s e) ∧
    u.pau.map PauRequest.shot = (first ++ rest).take 7 ∧
    (∀ i q, u.pau[i]? = some q →
      (q.running = true ↔ i = 0) ∧ (q.shot ∉ first → q.resume = 0 ∧ AppliesDark u q) ∧
      (i = 0 → ∀ y ∈ residents u, y.number = q.shot → q.scale = exposureCount y))

/-! ### Which commands change which block -/

/-- The commands that can write frame memory: a readout's sample, the ends of the Plane Arithmetic Unit's work,
a fetch, the end of a job's OUTPUT, a retirement or RESTART that stops the Plane Arithmetic Unit's work, the clearing
at start-up, the resets, and the packet bytes that may bring a request of these. -/
def mayWriteMemory : Instr → Bool
  | .startupComplete => true
  | .pixelSample _ => true
  | .accumulateDone => true
  | .applyDarkDone => true
  | .fetchReadDone _ _ => true
  | .loadReadDone _ => true
  | .outputEnd => true
  | .shotRetire _ _ => true
  | .restart _ => true
  | .powerOnReset _ _ _ _ => true
  | .pinReset _ _ _ _ => true
  | .mosiByte _ => true
  | _ => false

/-- The events that can change every block: the resets, and a packet byte, which may bring any request. -/
def mayChangeAll : Instr → Bool
  | .powerOnReset _ _ _ _ => true
  | .pinReset _ _ _ _ => true
  | .mosiByte _ => true
  | _ => false

/-- The commands that can change the Roll Table: the requests for rolls, and what gives a frame out or back
(R31, R75, R85). -/
def mayChangeRolls : Instr → Bool
  | .rollOpen _ _ => true
  | .rollSet _ _ _ => true
  | .rollSelect _ _ => true
  | .rollClose _ _ => true
  | .rollFree _ _ => true
  | .triggerFire _ => true
  | .triggerTimed _ _ => true
  | .edgeQualified _ => true
  | .syncSample _ _ _ _ => true
  | .armWindowExpiry => true
  | .restart _ => true
  | i => mayChangeAll i

/-- The commands that can change a recipe (R44). -/
def mayChangeRecipes : Instr → Bool
  | .recipeSet _ _ _ => true
  | i => mayChangeAll i

/-- The commands that can change the Sync Unit but for the runs and the latest sample: samples and edges, the pulse,
SET_SYNC and RESTART. -/
def mayChangeSync : Instr → Bool
  | .edgeQualified _ => true
  | .syncSample _ _ _ _ => true
  | .reloutPulseEnd => true
  | .setSync _ _ => true
  | .triggerFire _ => true
  | .triggerTimed _ _ => true
  | .restart _ => true
  | i => mayChangeAll i

/-- The commands that can change a setting of the Sync Unit (R60). -/
def mayChangeSyncSettings : Instr → Bool
  | .setSync _ _ => true
  | i => mayChangeAll i

/-- The commands that can change the wall offset (R58, R61). -/
def mayChangeWall : Instr → Bool
  | .setClock _ _ => true
  | i => mayChangeAll i

/-- The commands that can change the reset causes (R180). -/
def mayChangeCauses : Instr → Bool
  | .clearCauses _ => true
  | .restart _ => true
  | i => mayChangeAll i

/-- The events that bring the Time Base forward to an expiry or a sample (log 3). -/
def mayChangeTime : Instr → Bool
  | .edgeQualified _ => true
  | .syncSample _ _ _ _ => true
  | .reloutPulseEnd => true
  | .insertion => true
  | .removal => true
  | .armWindowExpiry => true
  | .maxOpenExpiry => true
  | .timedDurationExpiry => true
  | .settleExpiry => true
  | .stackWindowExpiry => true
  | .darkDurationExpiry => true
  | .darkExpiry _ => true
  | .cardCommandTimeout => true
  | i => mayChangeAll i

/-- The commands that end a part state, but for an answer of the card, which ends RESTARTING (R179, R181). -/
def mayChangePart : Instr → Bool
  | .startupComplete => true
  | .restart _ => true
  | i => mayChangeAll i

/-- The requests that report, or change one table of their own, and the link and notices (Chapters 2, 3, 8, 9
and 11): they leave every other block. -/
def changesOwnTable : Instr → Bool
  | .badRequest _ => true
  | .shotList _ _ _ _ => true
  | .rollOpen _ _ => true
  | .rollSet _ _ _ => true
  | .rollSelect _ _ => true
  | .rollClose _ _ => true
  | .rollQuery _ _ => true
  | .recipeSet _ _ _ => true
  | .recipeQuery _ _ => true
  | .setSync _ _ => true
  | .setClock _ _ => true
  | .readPreview _ _ _ _ => true
  | .cardQuery _ => true
  | .status _ => true
  | .clearCauses _ => true
  | .takeNotice _ => true
  | .noticeLevels _ _ _ => true
  | .csnAsserted => true
  | .csnNegated => true
  | .packetDiscard => true
  | .answerLeaves => true
  | _ => false

end Sys2Proof.Machine
end

