-- ==== Sys2Proof/WellFormed.lean ====
section
/-! DEFINITION. Which commands can be sent: the operands fit the fields that carry them (R171 for a
request's packet, the tables of Chapters 4 and 9 for the readout header and the card's answers). A value
that fits its field may still be out of its rule's range; the meanings answer that. -/

namespace Sys2Proof

/-- The tag of a request (Table 11-1). -/
def Instr.tag? : Instr → Option Nat
  | .badRequest t => some t
  | .shotLookup t _ => some t
  | .shotList t _ _ _ => some t
  | .rollOpen t _ => some t
  | .rollSet t _ _ => some t
  | .rollSelect t _ => some t
  | .rollClose t _ => some t
  | .rollFree t _ => some t
  | .rollQuery t _ => some t
  | .recipeSet t _ _ => some t
  | .recipeQuery t _ => some t
  | .setSync t _ => some t
  | .setClock t _ => some t
  | .triggerFire t => some t
  | .triggerTimed t _ => some t
  | .setSensor t _ _ => some t
  | .develop t _ _ _ => some t
  | .devFloor t _ => some t
  | .getPreview t _ => some t
  | .readPreview t _ _ _ => some t
  | .unpinPreview t _ => some t
  | .cardQuery t => some t
  | .cardEject t => some t
  | .cardFormat t _ => some t
  | .shotAmend t _ _ => some t
  | .shotRetire t _ => some t
  | .status t => some t
  | .clearCauses t => some t
  | .restart t => some t
  | .takeNotice t => some t
  | .noticeLevels t _ _ => some t
  | _ => none

/-- A number fits `bytes` bytes. -/
def fits (bytes v : Nat) : Bool := decide (v < 256 ^ bytes)

def optFits (bytes : Nat) : Option Nat → Bool
  | none => true
  | some v => fits bytes v

/-- A signed number fits `bytes` bytes of two's complement. -/
def fitsSigned (bytes : Nat) (v : Int) : Bool :=
  decide (-(256 ^ bytes : Nat) ≤ 2 * v) && decide (2 * v < (256 ^ bytes : Nat))

def optFitsSigned (bytes : Nat) : Option Int → Bool
  | none => true
  | some v => fitsSigned bytes v

/-- A name's byte and its parameter. -/
def pairFits (bytes : Nat) : Option (Nat × Nat) → Bool
  | none => true
  | some (n, p) => fits 1 n && fits bytes p

/-- An auto setting's byte and its priority, which may be left out. -/
def autoFits : Option (Nat × Option Nat) → Bool
  | none => true
  | some (n, p) => fits 1 n && optFits 1 p

/-- A label takes sixteen bytes (R171). -/
def labelFits : Option Label → Bool
  | none => true
  | some l => l.length == 16

def RollOperands.fit (o : RollOperands) : Bool :=
  labelFits o.label && optFits 2 o.frameLimit && optFits 1 o.defaultRecipe && pairFits 1 o.defaultKind &&
  pairFits 4 o.darkPolicy && optFits 2 o.reuseAge && optFits 1 o.darkYield && optFits 1 o.sources &&
  optFits 1 o.reclose && optFits 2 o.armWindow && optFits 2 o.maxOpen && optFits 2 o.settleDelay &&
  optFits 2 o.stackWindow && autoFits o.autoPreview && autoFits o.autoFull

def cropFits : Option (Nat × Crop) → Bool
  | none => true
  | some (n, c) => fits 1 n && fits 2 c.left && fits 2 c.top && fits 2 c.width && fits 2 c.height

def RecipeOperands.fit (o : RecipeOperands) : Bool :=
  optFits 2 o.gainR && optFits 2 o.gainG && optFits 2 o.gainB && optFitsSigned 1 o.compensation &&
  optFitsSigned 1 o.saturation && optFits 1 o.toneCurve && optFits 1 o.noise && optFits 1 o.sharpening &&
  cropFits o.crop && optFits 1 o.rotation && optFits 1 o.fullScale

def SyncOperands.fit (o : SyncOperands) : Bool :=
  optFits 1 o.polarityRelease && optFits 1 o.polarityXsync && optFits 1 o.polarityAux &&
  optFits 1 o.countRelease && optFits 1 o.countXsync && optFits 1 o.countAux && optFits 1 o.auxRole &&
  optFits 2 o.reloutWidth

def AmendOperands.fit (o : AmendOperands) : Bool :=
  optFits 1 o.rating && optFits 1 o.protect && optFits 1 o.recipe

/-- The blocks of the catalogue: each of 512 bytes, under a slot of the catalogue. -/
def blocksFit (blocks : List (Nat × List Byte)) : Bool :=
  blocks.all fun b => decide (b.1 < Config.catalogueCapacity) && b.2.length == 512

/-- The operands of a command other than its tag fit their fields. -/
def Instr.operandsFit : Instr → Bool
  | .shotLookup _ n => fits 4 n
  | .shotList _ n c l => fits 4 n && fits 1 c && labelFits l
  | .rollOpen _ o => o.fit
  | .rollSet _ i o => fits 1 i && o.fit
  | .rollSelect _ i => optFits 1 i
  | .rollClose _ i => fits 1 i
  | .rollFree _ i => fits 1 i
  | .rollQuery _ i => optFits 1 i
  | .recipeSet _ i o => fits 1 i && o.fit
  | .recipeQuery _ i => fits 1 i
  | .setSync _ o => o.fit
  | .setClock _ w => optFitsSigned 8 w
  | .triggerTimed _ d => optFits 4 d
  | .setSensor _ c r => fits 2 c && fits 2 r
  | .develop _ n k p => fits 4 n && fits 1 k && fits 1 p
  | .devFloor _ f => optFits 1 f
  | .getPreview _ n => fits 4 n
  | .readPreview _ i o l => fits 1 i && fits 4 o && fits 2 l
  | .unpinPreview _ i => fits 1 i
  | .cardFormat _ d => fits 1 d
  | .shotAmend _ n o => fits 4 n && o.fit
  | .shotRetire _ n => fits 4 n
  | .noticeLevels _ ls f => ls.length == 15 && ls.all (optFits 1) && optFits 1 f
  | .readoutHeader _ c r t =>
    fits 2 c && fits 2 r && decide (-512 ≤ t) && decide (t ≤ 511)
  | .darkExpiry e => decide (e < Config.darkEntries)
  | .identifyDone s c _ => fits 8 s && fits 8 c
  | .headerReadDone b => b.length == 512
  | .catalogueReadDone _ bs => blocksFit bs
  | .loadReadDone b => b.length == 512
  | .fetchReadDone _ vs => vs.all fun v => decide (4 * v.1 < Config.planeBytes)
  | _ => true

/-- A command that can be sent: its tag is from 0 to 7 (Table 11-1) and its operands fit. -/
def Instr.wellFormed (i : Instr) : Bool :=
  (match i.tag? with
    | none => true
    | some t => decide (t ≤ 7)) && i.operandsFit

end Sys2Proof
end

