-- ==== Sys2Proof/Certificates/Slice0/Obligations.lean ====
section
/-! DEFINITION. The statements for the provers. -/

open Sys2Proof Sys2Proof.Machine

/-! ### The machine -/

/-- A step takes the command at the front of the queue and runs it with the queue's rest. -/
def Obligations.StepRunsFrontCommand : Prop :=
  ∀ (c : Instr) (rest : List Instr) (s : State),
    step { s with pending := c :: rest } = exec c { s with pending := rest }

/-- With no command waiting, one microsecond of the Time Base passes (log 2). When the value left behind is a sampling
instant that no row has sampled, the inputs are sampled there with their pins as they were (R46, log 4). Nothing else
changes. -/
def Obligations.IdleStepCountsOneMicrosecond : Prop :=
  ∀ s : State, s.pending = [] →
    ((s.timeBase - s.sync.lastSample).toNat < 4 →
      step s = .next { s with timeBase := s.timeBase + 1#48 }) ∧
    ((s.timeBase - s.sync.lastSample).toNat = 4 → (∀ i, (s.sync.line i).run < (s.sync.line i).count) →
      ∃ x : Sync, step s = .next { s with timeBase := s.timeBase + 1#48, sync := x } ∧
        x.lastSample = s.timeBase ∧
        (∀ i, LineSampled 0 s.timeBase (s.sync.line i).pin (s.sync.line i) (x.line i)) ∧
        x.auxRole = s.sync.auxRole ∧ x.reloutWidth = s.sync.reloutWidth ∧ x.pulseEnd = s.sync.pulseEnd)

/-- A reset puts every block at its reset values, with its lines and MISO in use again. The clauses on the pins, on the
detect line, on MISO and the transaction, and on frame memory rest on logs 6, 11, 13 and 22. -/
def Obligations.ResetsPutBlocksAtResetValues : Prop :=
  ∀ (release xsync aux : PinLevel) (card : Bool) (s : State) (c : Instr),
    (c = .powerOnReset release xsync aux card ∨ c = .pinReset release xsync aux card) →
    ∃ t : State, exec c s = .next t ∧ t.pending = s.pending ∧ t.held = false ∧ t.part = .starting ∧
      t.timeBase = 0#48 ∧ t.wallOffset = 0 ∧
      t.table.slots = List.replicate 64 .free ∧ t.table.useOrder = [] ∧ t.table.amended = [] ∧
      t.table.counter = 1 ∧
      t.rolls.slots = List.replicate 16 .free ∧ t.rolls.current = none ∧
      (∀ i, i < 32 → t.recipes[i]? = some
        { generation := 0#16, gainR := 1000, gainG := 1000, gainB := 1000, compensation := 0,
          saturation := 0, toneCurve := 0, noise := 0, sharpening := 0, crop := none, rotation := 0,
          halfScale := false }) ∧
      (∀ i, i < 8 → (t.dark.entries[i]?).map DarkEntry.state = some .free) ∧ t.dark.plan = [] ∧
      t.pool = { owners := List.replicate 10 .free, darkClaim := false, engineClaim := false } ∧
      t.pau = [] ∧
      t.dev = { queue := [], engine := .idle, holds := none, readout := false, floor := 1 } ∧
      t.cache = { slots := List.replicate 8 { state := .free, pins := 0 }, useOrder := [] } ∧
      t.card.state = .absent ∧ t.card.identity = none ∧ t.card.volume = none ∧ t.card.indexHeld = false ∧
      t.card.index = [] ∧ t.card.damaged = [] ∧ t.card.map = [] ∧ t.card.reads = [] ∧
      t.card.entries = [] ∧ t.card.handoffs = [] ∧ t.card.full = false ∧ t.card.marks = [] ∧
      t.card.work = none ∧ t.card.bus = none ∧ t.card.ejectTag = none ∧ t.card.formatTag = none ∧
      t.card.formatWait = none ∧
      t.card.detect =
        { line := card, accepted := false, timer := some { start := 0#48, length := 50000 } } ∧
      t.link =
        { selected := false, framer := .hunt, bytes := [], held := [], queue := [], refusal := none,
          miso := .quiet } ∧
      t.notices.kinds.map Notice.level = [6, 6, 6, 4, 4, 4, 4, 4, 4, 4, 4, 4, 2, 2, 2] ∧
      (∀ x ∈ t.notices.kinds, x.pending = false ∧ x.count = 0 ∧ x.subject = none) ∧
      t.notices.floor = 0 ∧
      t.seq =
        { state := .idle, openShot := none, k := 0, scratch := none, ending := none, armTimer := none,
          maxOpen := none, timed := none, settle := none, stackWindow := none, darkTimer := none,
          columns := 10000, rows := 7500, samples := 0 } ∧
      LineRestarted (some 0) (some 8) (SyncLine.reset release) t.sync.release ∧
      LineRestarted (some 0) (some 8) (SyncLine.reset xsync) t.sync.xsync ∧
      LineRestarted (some 0) (some 8) (SyncLine.reset aux) t.sync.aux ∧
      t.sync.auxRole = .none ∧ t.sync.reloutWidth = 100 ∧ t.sync.pulseEnd = none ∧
      t.sync.lastSample = 0#48 ∧
      (c = .powerOnReset release xsync aux card → ∀ a, Memory.read t.mem a = 0#8) ∧
      (c = .pinReset release xsync aux card → SameMemory s t)

/-- The reset causes: which event sets and clears which flag, and CLEAR_CAUSES (R180). -/
def Obligations.ResetCausesFollowTheirEvents : Prop :=
  (∀ (r x a : PinLevel) (card : Bool) (s : State),
    ∃ t : State, exec (.powerOnReset r x a card) s = .next t ∧
      t.causes = { power := true, pin := false, restart := false }) ∧
  (∀ (r x a : PinLevel) (card : Bool) (s : State),
    ∃ t : State, exec (.pinReset r x a card) s = .next t ∧
      t.causes = { power := s.causes.power, pin := true, restart := s.causes.restart }) ∧
  (∀ (tag : Nat) (s : State), CanTake tag s →
    ∃ t : State, exec (.restart tag) s = .next t ∧
      t.causes = { power := s.causes.power, pin := s.causes.pin, restart := true }) ∧
  (∀ (tag : Nat) (s : State), CanTake tag s →
    exec (.clearCauses tag) s = .next
      { answer tag .ok (.causes s.causes) (holdTag tag s) with
        causes := { power := false, pin := false, restart := false } }) ∧
  (∀ (tag : Nat) (s : State), tag ≤ 7 → tag ∉ s.link.held → s.part ≠ .running →
    exec (.clearCauses tag) s = .next (answerCode tag .busy (holdTag tag s)))

/-- STARTING ends at STARTUP_COMPLETE, with the internal region of frame memory cleared (its place is log 13), and
RESTARTING when the command that was on the card bus is answered OK, is answered ERROR, or times out (R179, R181): the
part is RUNNING, and what the host set stays. RESTART taken (R181): every answer and every other outstanding request is
discarded, RESTART is answered OK with the causes as they stood (log 17), and the clock, the recipes, the current roll,
the counter, the geometry, the floors, the notice levels and the sync settings are kept. Of the blocks: the sequencer is
IDLE with no open shot, no scratch plane and no timer (R85), the development queue is empty and the engine IDLE (R128),
every preview slot is FREE (R132), the card's work, index and map are gone and a present card is mounted anew, its
identity and volume fields kept until then (R160, log 27), and the notices are cleared, but for AMEND_LOST when dirty
records are dropped (R160, R176). RESTARTING ends at once with no command on the card bus (log 12). The records are
`RestartSettlesTheRecords`, the planes, the dark references and the Plane Arithmetic Unit `RestartFreesPlanesAndWork`.
-/
def Obligations.RestartKeepsAndPartStatesEnd : Prop :=
  (∀ (s : State) (c : Instr),
    ((c = .startupComplete ∧ s.part = .starting) ∨
      (s.part = .restarting ∧ (c = .restartComplete ∨
        ((c = .cardCommandError ∨ c = .cardCommandTimeout) ∧
          ∃ b, s.card.bus = some b ∧ b.orphan = true)))) →
    ∃ t : State, exec c s = .next t ∧ t.part = .running ∧ t.wallOffset = s.wallOffset ∧
      t.causes = s.causes ∧ SyncKeeps s.sync t.sync ∧ (c ≠ .cardCommandTimeout → t.sync = s.sync) ∧
      t.rolls = s.rolls ∧ t.recipes = s.recipes ∧ t.notices.floor = s.notices.floor ∧
      (c ≠ .startupComplete → SameMemory s t) ∧
      (c = .startupComplete → ∀ a : Nat,
        (a < 4051697664 → Memory.read t.mem a = Memory.read s.mem a) ∧
        (4051697664 ≤ a → a < 4294967296 → Memory.read t.mem a = 0#8))) ∧
  (∀ (tag : Nat) (s : State), CanTake tag s →
    ∃ t : State, exec (.restart tag) s = .next t ∧ t.link.held = [tag] ∧
      t.link.queue = [{ tag := tag, result := .ok, payload := .causes s.causes }] ∧
      t.link.refusal = none ∧ t.link.framer = s.link.framer ∧ t.link.bytes = s.link.bytes ∧
      (s.card.bus.isSome → t.part = .restarting) ∧ (s.card.bus = none → t.part = .running) ∧
      t.timeBase = s.timeBase ∧ t.wallOffset = s.wallOffset ∧ t.recipes = s.recipes ∧
      t.rolls.current = s.rolls.current ∧ t.table.counter = s.table.counter ∧
      t.notices.floor = s.notices.floor ∧
      t.notices.kinds.map Notice.level = s.notices.kinds.map Notice.level ∧
      t.sync.auxRole = s.sync.auxRole ∧ t.sync.reloutWidth = s.sync.reloutWidth ∧
      t.sync.pulseEnd = none ∧ t.sync.lastSample = s.sync.lastSample ∧
      LineRestarted none none s.sync.release t.sync.release ∧
      LineRestarted none none s.sync.xsync t.sync.xsync ∧
      LineRestarted none none s.sync.aux t.sync.aux ∧
      t.seq = { s.seq with
        state := .idle, openShot := none, k := 0, scratch := none, ending := none, armTimer := none,
        maxOpen := none, timed := none, settle := none, stackWindow := none, darkTimer := none } ∧
      t.dev = { queue := [], engine := .idle, holds := none, readout := false, floor := s.dev.floor } ∧
      t.cache = { slots := List.replicate 8 { state := .free, pins := 0 }, useOrder := [] } ∧
      CardRestarted s t ∧ (LawsHold s → NoticesRestarted s t))

/-- What RESTART makes of the record slots (R27, R85, R111, R126, R160), in a state that meets the laws: LOADING slots
are FREE, RETIRING and SETTLED records and those that the end of their job settles are gone, an OPEN record is finished
short or, with no DONE exposure, removed and its frame given back, HELD records are UNWRITTEN in their slots and their
places in the use order, and VOID records stay. When RESTARTING ends at once, the matching pass of the same event
follows (log 12), which leaves the rolls, the use order and the amendment list. -/
def Obligations.RestartSettlesTheRecords : Prop :=
  ∀ (tag : Nat) (s : State), CanTake tag s → LawsHold s →
    ∃ u t : State, exec (.restart tag) s = .next t ∧ RunningFollows s u t ∧
      t.rolls = u.rolls ∧ t.table.useOrder = u.table.useOrder ∧ t.table.amended = u.table.amended ∧
      u.table.slots.length = s.table.slots.length ∧
      (∀ i : Nat, s.table.slots[i]? = some RecordSlot.free → u.table.slots[i]? = some RecordSlot.free) ∧
      (∀ (i n : Nat) (ws : List LoadWaiter), s.table.slots[i]? = some (RecordSlot.loading n ws) →
        u.table.slots[i]? = some RecordSlot.free) ∧
      (∀ (i : Nat) (r : Record), s.table.slots[i]? = some (RecordSlot.inUse r) →
        (GoneByRestart s r → u.table.slots[i]? = some RecordSlot.free ∧ i ∉ u.table.useOrder) ∧
        (¬ GoneByRestart s r → (i ∈ s.table.useOrder → i ∈ u.table.useOrder) ∧
          ∃ y, u.table.slots[i]? = some (RecordSlot.inUse y) ∧ StaysOverRestart s r y)) ∧
      u.table.useOrder.Sublist s.table.useOrder ∧ u.table.amended.Sublist s.table.amended ∧
      (∀ a ∈ u.table.amended, ∀ r ∈ residents s, r.number = a.shot →
        ¬ GoneByRestart s r ∧ ¬ (r.life = .held ∧ r.rawCard ≠ .unwritten)) ∧
      (∀ (r : Record) (i : Nat) (roll : Roll), r ∈ residents s → r.life = .opened → NoneDone r →
        s.rolls.current = some i → s.rolls.slots[i]? = some (.opened roll) →
        u.rolls = { s.rolls with
          slots := s.rolls.slots.set i (.opened { roll with nextFrame := roll.nextFrame - 1 }) }) ∧
      ((∀ r ∈ residents s, r.life = .opened → ¬ NoneDone r) → u.rolls = s.rolls)

/-- What RESTART makes of the planes (R88), the Dark Unit's entries and plan (R111), the hand-offs (R160) and the Plane
Arithmetic Unit with frame memory (R97), in a state that meets the laws: planes are kept by their owner, READY entries
stay and the others are FREE, the hand-offs of a HELD record that stays are WAITING, and the APPLY_DARK requests are
placed anew, the one that was RUNNING first and from the place it had reached, up to which its work is done and which is
a free value from its resume point on (log 15). When RESTARTING ends at once, the matching pass of the same event
follows (log 12). -/
def Obligations.RestartFreesPlanesAndWork : Prop :=
  ∀ (tag : Nat) (s : State), CanTake tag s → LawsHold s →
    ∃ u t : State, exec (.restart tag) s = .next t ∧ RunningFollows s u t ∧
      t.mem = u.mem ∧ t.card.handoffs = u.card.handoffs ∧ u.pool.darkClaim = false ∧ t.pool.engineClaim = false ∧
      (∀ (p : Nat) (o : Owner), s.pool.owners[p]? = some o → PlaneAfterRestart s u p o) ∧
      u.dark.entries.length = s.dark.entries.length ∧ u.dark.plan = [] ∧
      (∀ (e : Nat) (x : DarkEntry), s.dark.entries[e]? = some x →
        (¬ AbandonedEntry s e → u.dark.entries[e]? = some x) ∧
        (AbandonedEntry s e → (u.dark.entries[e]?).map DarkEntry.state = some .free)) ∧
      (u.card.handoffs.map Handoff.plane).Sublist (s.card.handoffs.map Handoff.plane) ∧
      (∀ (r : Record) (h : Handoff), r ∈ residents s → h ∈ s.card.handoffs → h.shot = r.number →
        (r.life = .held → ¬ DroppedByRestart s r →
          { h with writing := false, marked := false } ∈ u.card.handoffs) ∧
        (r.life = .retiring ∨ DroppedByRestart s r → ∀ x ∈ u.card.handoffs, x.shot ≠ r.number)) ∧
      ((∀ q ∈ s.pau, q.running = false) → SameMemory s u ∧ RequestsPlacedAnew s u []) ∧
      (∀ q, s.pau.find? (·.running) = some q → SameOutsidePlane q.destination s u ∧
        (q.op = .accumulate → RequestsPlacedAnew s u []) ∧
        (∀ e, q.op = .applyDark e → RequestsPlacedAnew s u [q.shot] ∧
          ∃ x, u.pau[0]? = some x ∧ x.op = q.op ∧ x.shot = q.shot ∧ q.resume ≤ x.resume ∧
            (q.resume < s.seq.columns * s.seq.rows → x.resume < s.seq.columns * s.seq.rows) ∧
            (Canonical s → q.source ≠ q.destination → ∀ i, i < 100663296 →
              (readValue u.mem q.destination i).toNat =
                if q.resume ≤ i ∧ i < x.resume then
                  (readValue s.mem q.destination i).toNat - q.scale * (readValue s.mem q.source i).toNat
                else (readValue s.mem q.destination i).toNat) ∧
            (∀ d band taken p, s.dark.entries[e]? = some d → d.state = .ready band taken p → x.source = p) ∧
            ∀ y ∈ residents u, y.number = q.shot → ∀ p, y.rawPlane = some p → x.destination = p))

/-- The output lines and MISO (R54, R63, R175, R177, R179, Table 4-1, Table 11-2): in reset every line is negated and
MISO is at high impedance; else RESP says that an answer waits, ATTN that a pending kind lies above the floor, RELOUT
that the pulse runs, and exactly the sensor line of the sequencer's state is asserted. MISO carries the packet of the
answer being sent, byte by byte, and filler after it. That the held part is a state between the two halves of a reset
row is log 38. -/
def Obligations.OutputLinesFollowTheState : Prop :=
  (∀ s : State, s.held = true →
    resp s = false ∧ attn s = false ∧ relout s = false ∧ flushLine s = false ∧ integLine s = false ∧
      readLine s = false ∧ misoPin s = .highImpedance) ∧
  (∀ s : State, s.held = false →
    (resp s = true ↔ s.link.queue ≠ [] ∨ s.link.refusal ≠ none) ∧
    (attn s = true ↔ ∃ x ∈ s.notices.kinds, x.pending = true ∧ s.notices.floor < x.level) ∧
    (relout s = true ↔ s.sync.pulseEnd ≠ none) ∧
    (flushLine s = true ↔ s.seq.state = .idle ∨ s.seq.state = .accumulate ∨ s.seq.state = .stackWait) ∧
    (integLine s = true ↔ s.seq.state = .armed ∨ s.seq.state = .opened ∨ s.seq.state = .settle ∨
      s.seq.state = .dark) ∧
    (readLine s = true ↔ s.seq.state = .readout ∨ s.seq.state = .darkReadout) ∧
    (s.link.miso = .filler → misoPin s = .byte 0#8) ∧
    (∀ (n : Nat) (a : Answer),
      ((s.link.miso = .refusal n ∧ s.link.refusal = some a) ∨
        (s.link.miso = .queue n ∧ s.link.queue.head? = some a)) → n < a.packet.length →
      (∀ b, a.packet[n]? = some b → misoPin s = .byte b) ∧
      (n + 1 < a.packet.length → (shiftOut s).link = { s.link with miso := s.link.miso.advance }) ∧
      (n + 1 = a.packet.length → exec .answerLeaves s = .next (shiftOut s)))) ∧
  (∀ a : Answer, a.packet =
    0x5A#8 :: (BitVec.ofNat 8 a.tag :: BitVec.ofNat 8 a.result.code ::
        BitVec.ofNat 8 (a.payload.bytes.length / 256) :: BitVec.ofNat 8 a.payload.bytes.length ::
        a.payload.bytes) ++
      crcBytes (BitVec.ofNat 8 a.tag :: BitVec.ofNat 8 a.result.code ::
        BitVec.ofNat 8 (a.payload.bytes.length / 256) :: BitVec.ofNat 8 a.payload.bytes.length ::
        a.payload.bytes)) ∧
  ∀ s : State, (holdInReset s).held = true

/-! ### The Link Port -/

/-- The check code (R170): that of "123456789" is 29B1H, and a covered string followed by its two check bytes
leaves the register at 0, which is how a receiver may check it. -/
def Obligations.CheckCodeChecksItself : Prop :=
  crc16 [0x31#8, 0x32#8, 0x33#8, 0x34#8, 0x35#8, 0x36#8, 0x37#8, 0x38#8, 0x39#8] = 0x29B1#16 ∧
  ∀ bs : List Byte, crc16 (bs ++ crcBytes bs) = 0#16

/-- CSN: its assertion begins a transaction with the refusal slot first, then the queue, else filler; its negation ends
it, and a packet partly received is discarded with LINK_FAULT (R172, R173, R175). An answer leaves: that of the refusal
slot frees no tag; the head of the queue frees its tag; the next answer follows at once, the refusal slot's first
(R175). -/
def Obligations.TransactionsCarryAnswers : Prop :=
  (∀ s : State, s.link.selected = false →
    exec .csnAsserted s = .next { s with link := { s.link with
      selected := true
      miso := if s.link.refusal.isSome then .refusal 0
        else if s.link.queue = [] then .filler else .queue 0 } }) ∧
  (∀ s : State, s.link.selected = true → s.link.framer = .hunt →
    exec .csnNegated s = .next { s with link := { s.link with selected := false, miso := .quiet } }) ∧
  (∀ s : State, s.link.selected = true → s.link.framer ≠ .hunt →
    exec .csnNegated s = .next (raise .linkFault none { s with link := { s.link with
      selected := false, miso := .quiet, framer := .hunt, bytes := [] } })) ∧
  (∀ (s : State) (n : Nat), s.link.miso = .refusal n →
    exec .answerLeaves s = .next { s with link := { s.link with
      refusal := none, miso := if s.link.queue = [] then .filler else .queue 0 } }) ∧
  (∀ (s : State) (n : Nat) (a : Answer) (rest : List Answer),
    s.link.miso = .queue n → s.link.queue = a :: rest →
    exec .answerLeaves s = .next { s with link := { s.link with
      queue := rest, held := s.link.held.filter (· != a.tag),
      miso := if s.link.refusal.isSome then .refusal 0
        else if rest = [] then .filler else .queue 0 } })

/-- Packets that reach no block. A discarded packet raises LINK_FAULT with no subject, is not answered, and disturbs no
outstanding request (R173); that a request row with a tag above 7 is such a packet is log 9. A request whose tag is HELD
is answered TAG_BUSY in the refusal slot, or discarded when the slot is full (R174 test 1). A request of unknown kind is
taken and answered BAD_REQUEST in every part state, and in STARTING and RESTARTING every other request but STATUS is
taken and answered BUSY (R174 tests 2 and 3). That a SHOT_AMEND or SHOT_RETIRE so answered moves no record in the use
order is the model's choice (log 20). -/
def Obligations.PacketsThatReachNoBlock : Prop :=
  (∀ (s : State) (c : Instr), (c = .packetDiscard ∨ ∃ tag, c.tag? = some tag ∧ 7 < tag) →
    exec c s = .next (raise .linkFault none
      { s with link := { s.link with framer := .hunt, bytes := [] } })) ∧
  (∀ (c : Instr) (tag : Nat) (s : State), c.tag? = some tag → tag ≤ 7 → tag ∈ s.link.held →
    (s.link.refusal = none →
      exec c s = .next { s with link := { s.link with
        refusal := some { tag := tag, result := .tagBusy, payload := .empty } } }) ∧
    (s.link.refusal.isSome →
      exec c s = .next (raise .linkFault none
        { s with link := { s.link with framer := .hunt, bytes := [] } }))) ∧
  (∀ (tag : Nat) (s : State), tag ≤ 7 → tag ∉ s.link.held →
    exec (.badRequest tag) s = .next { s with link := { s.link with
      held := s.link.held ++ [tag],
      queue := s.link.queue ++ [{ tag := tag, result := .badRequest, payload := .empty }] } }) ∧
  (∀ (c : Instr) (tag : Nat) (s : State), c.tag? = some tag → servedAlways c = false → tag ≤ 7 →
    tag ∉ s.link.held → s.part ≠ .running →
    exec c s = .next { s with link := { s.link with
      held := s.link.held ++ [tag],
      queue := s.link.queue ++ [{ tag := tag, result := .busy, payload := .empty }] } })

/-- A byte in HUNT other than A5H is dropped, A5H begins a packet; a length byte above 64 discards it, and one from 1 to
64 leads on to the operands (R172, R173). The tag and kind bytes, a length of 0 and the operand bytes are left to
`WholePacketIsTakenOrDiscarded`. Each clause builds on `shiftOut s`: a byte shifted in is also one shifted out (log 10),
and a byte outside a transaction is taken too (log 9). -/
def Obligations.FramerTakesBytes : Prop :=
  (∀ (s : State) (b : Byte), s.link.framer = .hunt → b ≠ 0xA5#8 →
    exec (.mosiByte b) s = .next (shiftOut s)) ∧
  (∀ s : State, s.link.framer = .hunt →
    exec (.mosiByte 0xA5#8) s = .next
      { shiftOut s with link := { (shiftOut s).link with framer := .header, bytes := [] } }) ∧
  (∀ (s : State) (b tag kind : Byte), s.link.framer = .header → s.link.bytes = [tag, kind] →
    64 < b.toNat →
    exec (.mosiByte b) s = .next (raise .linkFault none
      { shiftOut s with link := { (shiftOut s).link with framer := .hunt, bytes := [] } })) ∧
  (∀ (s : State) (b tag kind : Byte), s.link.framer = .header → s.link.bytes = [tag, kind] →
    0 < b.toNat → b.toNat ≤ 64 →
    exec (.mosiByte b) s = .next
      { shiftOut s with link := { (shiftOut s).link with
        framer := .operands, bytes := [tag, kind, b] } })

/-- A whole packet sent byte by byte while nothing is being answered: with a good check code and a tag from 0 to 7 it is
the command that its tag, kind and operands give, BAD_REQUEST for a kind that is not in Table 11-3, and BAD_OPERAND for
operands that are not of its form (`OperandsReadBack`), or BUSY outside RUNNING; with a wrong check code, or a tag above
7, it is discarded with LINK_FAULT and not taken (R172 to R174). That the packet is taken at its last check byte, and
that a packet is taken outside a transaction too, is the model's (log 9). -/
def Obligations.WholePacketIsTakenOrDiscarded : Prop :=
  (∀ (tag kind : Nat) (operands : List Byte) (s : State), tag ≤ 7 → kind < 256 →
    operands.length ≤ 64 → s.link.framer = .hunt → s.link.bytes = [] →
    (s.link.miso = .filler ∨ s.link.miso = .quiet) →
    sendBytes (requestPacket tag kind operands) s = takePacket tag kind operands s ∧
    (∀ c, readRequest kind tag operands = .command c → takePacket tag kind operands s = exec c s) ∧
    (requestForm kind = none → takePacket tag kind operands s = exec (.badRequest tag) s) ∧
    (readRequest kind tag operands = .badForm → tag ∉ s.link.held → (s.part = .running ∨ kind = 0x50) →
      takePacket tag kind operands s = .next (answerCode tag .badOperand (holdTag tag s))) ∧
    (readRequest kind tag operands = .badForm → tag ∉ s.link.held → s.part ≠ .running → kind ≠ 0x50 →
      takePacket tag kind operands s = .next (answerCode tag .busy (holdTag tag s)))) ∧
  (∀ (tag kind : Nat) (operands check : List Byte) (s : State), tag < 256 → kind < 256 →
    operands.length ≤ 64 → check.length = 2 →
    (7 < tag ∨ check ≠ crcBytes (packetBody tag kind operands)) →
    s.link.framer = .hunt → s.link.bytes = [] → (s.link.miso = .filler ∨ s.link.miso = .quiet) →
    sendBytes (packetWith tag kind operands check) s = .next (raise .linkFault none s)) ∧
  (∀ (bytes : List Byte) (s : State),
    crcBytes (bytes.take (bytes.length - 2)) ≠ bytes.drop (bytes.length - 2) →
    checkPacket bytes s = .next (raise .linkFault none
      { s with link := { s.link with framer := .hunt, bytes := [] } }))

/-- The operands of every kind read back as they were sent, with every choice of optional items (R171, Table 11-3), the
presence bytes at the head and only the items present after them. Operands have the form of their kind just when their
length is the one that the kind and the presence bytes call for (R174 test 4); a TRIGGER must name FIRE or TIMED
besides. That a TRIGGER's duration is an optional item behind a presence byte, that FIRE takes one that is of no account,
and the place of a priority among the optional items are the model's reading of R171 (log 24). -/
def Obligations.OperandsReadBack : Prop :=
  ∀ tag : Nat,
    (∀ n, n < 4294967296 → readRequest 0x01 tag (beBytes 4 n) = .command (.shotLookup tag n)) ∧
    (∀ n, n < 256 → readRequest 0x13 tag (beBytes 1 n) = .command (.rollClose tag n)) ∧
    (∀ n, n < 256 → readRequest 0x14 tag (beBytes 1 n) = .command (.rollFree tag n)) ∧
    (∀ n, n < 256 → readRequest 0x19 tag (beBytes 1 n) = .command (.recipeQuery tag n)) ∧
    (∀ c r, c < 65536 → r < 65536 →
      readRequest 0x29 tag (beBytes 2 c ++ beBytes 2 r) = .command (.setSensor tag c r)) ∧
    (∀ n k p, n < 4294967296 → k < 256 → p < 256 →
      readRequest 0x30 tag (beBytes 4 n ++ beBytes 1 k ++ beBytes 1 p) =
        .command (.develop tag n k p)) ∧
    (∀ n, n < 4294967296 → readRequest 0x38 tag (beBytes 4 n) = .command (.getPreview tag n)) ∧
    (∀ i o l, i < 256 → o < 4294967296 → l < 65536 →
      readRequest 0x39 tag (beBytes 1 i ++ beBytes 4 o ++ beBytes 2 l) =
        .command (.readPreview tag i o l)) ∧
    (∀ n, n < 256 → readRequest 0x3A tag (beBytes 1 n) = .command (.unpinPreview tag n)) ∧
    readRequest 0x40 tag [] = .command (.cardQuery tag) ∧
    readRequest 0x41 tag [] = .command (.cardEject tag) ∧
    (∀ n, n < 256 → readRequest 0x42 tag (beBytes 1 n) = .command (.cardFormat tag n)) ∧
    (∀ n, n < 4294967296 → readRequest 0x49 tag (beBytes 4 n) = .command (.shotRetire tag n)) ∧
    readRequest 0x50 tag [] = .command (.status tag) ∧
    readRequest 0x51 tag [] = .command (.clearCauses tag) ∧
    readRequest 0x52 tag [] = .command (.restart tag) ∧
    readRequest 0x58 tag [] = .command (.takeNotice tag) ∧
    (∀ first count (l : Option Label), first < 4294967296 → count < 256 → (∀ x, l = some x → x.length = 16) →
      readRequest 0x02 tag (encodeItems [num 4 first, num 1 count, .optional l]) =
        .command (.shotList tag first count l)) ∧
    (∀ o, RollFits o → readRequest 0x10 tag (encodeItems (rollSettings o)) = .command (.rollOpen tag o)) ∧
    (∀ i o, i < 256 → RollFits o →
      readRequest 0x11 tag (encodeItems (num 1 i :: rollSettings o)) = .command (.rollSet tag i o)) ∧
    (∀ v, GivenIn v 0 255 →
      readRequest 0x12 tag (encodeItems [optNum 1 v]) = .command (.rollSelect tag v) ∧
      readRequest 0x15 tag (encodeItems [optNum 1 v]) = .command (.rollQuery tag v) ∧
      readRequest 0x31 tag (encodeItems [optNum 1 v]) = .command (.devFloor tag v)) ∧
    (∀ i o, i < 256 → RecipeFits o →
      readRequest 0x18 tag (encodeItems (num 1 i :: recipeParameters o)) = .command (.recipeSet tag i o)) ∧
    (∀ o, SyncFits o → readRequest 0x20 tag (encodeItems (syncSettings o)) = .command (.setSync tag o)) ∧
    (∀ w, GivenInInt w (-9223372036854775808) 9223372036854775807 →
      readRequest 0x21 tag (encodeItems [.optional (w.map (beSigned 8))]) = .command (.setClock tag w)) ∧
    (∀ d, GivenIn d 0 4294967295 →
      readRequest 0x28 tag (encodeItems [num 1 0, optNum 4 d]) = .command (.triggerFire tag) ∧
      readRequest 0x28 tag (encodeItems [num 1 1, optNum 4 d]) = .command (.triggerTimed tag d)) ∧
    (∀ n (o : AmendOperands), n < 4294967296 → GivenIn o.rating 0 255 → GivenIn o.protect 0 255 →
      GivenIn o.recipe 0 255 →
      readRequest 0x48 tag (encodeItems [num 4 n, optNum 1 o.rating, optNum 1 o.protect, optNum 1 o.recipe,
        .optional (if o.waiveDark then some [] else none)]) = .command (.shotAmend tag n o)) ∧
    (∀ (levels : List (Option Nat)) (floor : Option Nat), levels.length = 15 →
      (∀ l ∈ levels, GivenIn l 0 255) → GivenIn floor 0 255 →
      readRequest 0x59 tag (encodeItems (levels.map (optNum 1) ++ [optNum 1 floor])) =
        .command (.noticeLevels tag levels floor)) ∧
    (∀ (kind : Nat) (operands : List Byte),
      (requestForm kind = none ↔ readRequest kind tag operands = .unknown) ∧
      (requestForm kind ≠ none → ¬ RightLength kind operands → readRequest kind tag operands = .badForm) ∧
      (RightLength kind operands → kind ≠ 0x28 → ∃ c, readRequest kind tag operands = .command c) ∧
      (RightLength 0x28 operands →
        ((operands[1]? = some 0#8 ∨ operands[1]? = some 1#8) →
          ∃ c, readRequest 0x28 tag operands = .command c) ∧
        (operands[1]? ≠ some 0#8 → operands[1]? ≠ some 1#8 →
          readRequest 0x28 tag operands = .badForm)))

/-! ### Rolls and recipes -/

/-- ROLL_OPEN (R35): the lowest FREE slot, OPEN, with the settings named over the defaults of Table 2-2. That
an operand out of range is answered before a full table is the model's choice (log 37). -/
def Obligations.RollOpenTakesLowestFreeSlot : Prop :=
  ∀ (tag : Nat) (ops : RollOperands) (s : State), CanTake tag s →
    (¬ RollInRange ops →
      exec (.rollOpen tag ops) s = .next (answerCode tag .badOperand (holdTag tag s))) ∧
    (RollInRange ops → RollSlot.free ∉ s.rolls.slots →
      exec (.rollOpen tag ops) s = .next (answerCode tag .tableFull (holdTag tag s))) ∧
    (∀ i, RollInRange ops → LowestAt s.rolls.slots .free i →
      ∃ d r : Roll, RollDefaults d ∧ RollChanged ops d r ∧
        exec (.rollOpen tag ops) s = .next { answer tag .ok (.rollSlot i) (holdTag tag s) with
          rolls := { s.rolls with slots := s.rolls.slots.set i (.opened r) } })

/-- ROLL_SET (R36): its four tests in order, and otherwise the change of the settings named, whole. -/
def Obligations.RollSetChangesNamedSettings : Prop :=
  ∀ (tag i : Nat) (ops : RollOperands) (s : State), CanTake tag s →
    ((15 < i ∨ ¬ RollInRange ops) →
      exec (.rollSet tag i ops) s = .next (answerCode tag .badOperand (holdTag tag s))) ∧
    (i ≤ 15 → RollInRange ops → s.rolls.slots[i]? = some .free →
      exec (.rollSet tag i ops) s = .next (answerCode tag .notFound (holdTag tag s))) ∧
    (∀ (mk : Roll → RollSlot) (r : Roll), (mk = .opened ∨ mk = .closed) → i ≤ 15 → RollInRange ops →
      s.rolls.slots[i]? = some (mk r) →
      (s.rolls.current = some i ∧ s.seq.state ≠ .idle →
        exec (.rollSet tag i ops) s = .next (answerCode tag .busy (holdTag tag s))) ∧
      (¬ (s.rolls.current = some i ∧ s.seq.state ≠ .idle) →
        (∀ n, ops.frameLimit = some n → n + 1 < r.nextFrame →
          exec (.rollSet tag i ops) s = .next (answerCode tag .badOperand (holdTag tag s))) ∧
        ((∀ n, ops.frameLimit = some n → r.nextFrame ≤ n + 1) →
          ∃ r' : Roll, RollChanged ops r r' ∧
            exec (.rollSet tag i ops) s = .next { answerCode tag .ok (holdTag tag s) with
              rolls := { s.rolls with slots := s.rolls.slots.set i (mk r') } })))

/-- ROLL_SELECT, ROLL_CLOSE and ROLL_FREE (R37 to R39): each with its tests in order. A selected roll, or none, is
current; an OPEN slot closed leaves no current roll when it was current, and a CLOSED slot stays as it is; a CLOSED slot
freed is FREE, and every resident record that names it has its roll slot made absent. -/
def Obligations.RollsAreSelectedClosedAndFreed : Prop :=
  (∀ (tag : Nat) (s : State), CanTake tag s →
     (∀ i, 15 < i →
       exec (.rollSelect tag (some i)) s = .next (answerCode tag .badOperand (holdTag tag s))) ∧
     (∀ slot : Option Nat, (∀ i, slot = some i → i ≤ 15) → s.seq.state ≠ .idle →
       exec (.rollSelect tag slot) s = .next (answerCode tag .busy (holdTag tag s))) ∧
     (∀ i, i ≤ 15 → s.seq.state = .idle → s.rolls.slots[i]? = some .free →
       exec (.rollSelect tag (some i)) s = .next (answerCode tag .notFound (holdTag tag s))) ∧
     (∀ i r, i ≤ 15 → s.seq.state = .idle → s.rolls.slots[i]? = some (.closed r) →
       exec (.rollSelect tag (some i)) s = .next (answerCode tag .noRoll (holdTag tag s))) ∧
     (∀ i r, i ≤ 15 → s.seq.state = .idle → s.rolls.slots[i]? = some (.opened r) →
       exec (.rollSelect tag (some i)) s = .next { answerCode tag .ok (holdTag tag s) with
         rolls := { s.rolls with current := some i } }) ∧
     (s.seq.state = .idle →
       exec (.rollSelect tag none) s = .next { answerCode tag .ok (holdTag tag s) with
         rolls := { s.rolls with current := none } })) ∧
  (∀ (tag i : Nat) (s : State), CanTake tag s →
     (15 < i → exec (.rollClose tag i) s = .next (answerCode tag .badOperand (holdTag tag s))) ∧
     (i ≤ 15 → s.rolls.slots[i]? = some .free →
       exec (.rollClose tag i) s = .next (answerCode tag .notFound (holdTag tag s))) ∧
     (∀ r, i ≤ 15 → s.rolls.slots[i]? = some (.closed r) →
       exec (.rollClose tag i) s = .next (answerCode tag .ok (holdTag tag s))) ∧
     (∀ r, i ≤ 15 → s.rolls.slots[i]? = some (.opened r) → s.rolls.current ≠ some i →
       exec (.rollClose tag i) s = .next { answerCode tag .ok (holdTag tag s) with
         rolls := { s.rolls with slots := s.rolls.slots.set i (.closed r) } }) ∧
     (∀ r, i ≤ 15 → s.rolls.slots[i]? = some (.opened r) → s.rolls.current = some i →
       s.seq.state ≠ .idle →
       exec (.rollClose tag i) s = .next (answerCode tag .busy (holdTag tag s))) ∧
     (∀ r, i ≤ 15 → s.rolls.slots[i]? = some (.opened r) → s.rolls.current = some i →
       s.seq.state = .idle →
       exec (.rollClose tag i) s = .next { answerCode tag .ok (holdTag tag s) with
         rolls := { slots := s.rolls.slots.set i (.closed r), current := none } })) ∧
  (∀ (tag i : Nat) (s : State), CanTake tag s →
     (15 < i → exec (.rollFree tag i) s = .next (answerCode tag .badOperand (holdTag tag s))) ∧
     (i ≤ 15 → s.rolls.slots[i]? = some .free →
       exec (.rollFree tag i) s = .next (answerCode tag .notFound (holdTag tag s))) ∧
     (∀ r, i ≤ 15 → s.rolls.slots[i]? = some (.opened r) →
       exec (.rollFree tag i) s = .next (answerCode tag .busy (holdTag tag s))) ∧
     (∀ r, i ≤ 15 → s.rolls.slots[i]? = some (.closed r) →
       ∃ slots : List RecordSlot, slots.length = s.table.slots.length ∧
         (∀ (j : Nat) (x : Record), s.table.slots[j]? = some (RecordSlot.inUse x) →
           slots[j]? = some (.inUse (if x.rollSlot = some i then { x with rollSlot := none } else x))) ∧
         (∀ (j : Nat) (y : RecordSlot), s.table.slots[j]? = some y → y.record? = none → slots[j]? = some y) ∧
         exec (.rollFree tag i) s = .next { answerCode tag .ok (holdTag tag s) with
           rolls := { s.rolls with slots := s.rolls.slots.set i .free },
           table := { s.table with slots := slots } }))

/-- RECIPE_SET and RECIPE_QUERY (R44, R45): the parameters named take their new values, the generation steps
by one and is answered; a query reports the recipe and changes nothing. -/
def Obligations.RecipeSetStepsGeneration : Prop :=
  ∀ (tag i : Nat) (ops : RecipeOperands) (s : State), CanTake tag s →
    ((31 < i ∨ ¬ RecipeInRange ops) →
      exec (.recipeSet tag i ops) s = .next (answerCode tag .badOperand (holdTag tag s))) ∧
    (∀ r, i ≤ 31 → RecipeInRange ops → s.recipes[i]? = some r →
      ∃ r' : Recipe, RecipeChanged ops r r' ∧
        exec (.recipeSet tag i ops) s = .next
          { answer tag .ok (.generation r'.generation) (holdTag tag s) with
            recipes := s.recipes.set i r' }) ∧
    (31 < i → exec (.recipeQuery tag i) s = .next (answerCode tag .badOperand (holdTag tag s))) ∧
    (∀ r, i ≤ 31 → s.recipes[i]? = some r →
      exec (.recipeQuery tag i) s = .next (answer tag .ok (.recipe r) (holdTag tag s)))

/-! ### The Sync Unit -/

/-- SET_SYNC and SET_CLOCK (R59 to R61). SET_SYNC: its two tests in order, and otherwise the settings named, all three
qualifiers restarted from their current levels, and the settings and levels reported. SET_CLOCK: the offset becomes the
wall time given less the Time Base; the Time Base, the offset and the wall time they make are reported. -/
def Obligations.SyncAndClockTakeTheirSettings : Prop :=
  (∀ (tag : Nat) (ops : SyncOperands) (s : State), CanTake tag s →
     (¬ SyncInRange ops →
       exec (.setSync tag ops) s = .next (answerCode tag .badOperand (holdTag tag s))) ∧
     (SyncInRange ops → s.seq.state ≠ .idle →
       exec (.setSync tag ops) s = .next (answerCode tag .busy (holdTag tag s))) ∧
     (SyncInRange ops → s.seq.state = .idle →
       ∃ x : Sync, LineRestarted ops.polarityRelease ops.countRelease s.sync.release x.release ∧
         LineRestarted ops.polarityXsync ops.countXsync s.sync.xsync x.xsync ∧
         LineRestarted ops.polarityAux ops.countAux s.sync.aux x.aux ∧
         (ops.auxRole = none → x.auxRole = s.sync.auxRole) ∧
         (ops.auxRole = some 0 → x.auxRole = .none) ∧ (ops.auxRole = some 1 → x.auxRole = .finish) ∧
         (ops.auxRole = some 2 → x.auxRole = .release2) ∧
         x.reloutWidth = ops.reloutWidth.getD s.sync.reloutWidth ∧ x.pulseEnd = s.sync.pulseEnd ∧
         x.lastSample = s.sync.lastSample ∧
         exec (.setSync tag ops) s = .next
           { answer tag .ok (.sync (SyncReport.mk x.release x.xsync x.aux x.auxRole x.reloutWidth))
               (holdTag tag s) with sync := x })) ∧
  (∀ (tag : Nat) (s : State), CanTake tag s →
     (∀ w : Int, (w < 0 ∨ 4611686018427387904 < w) →
       exec (.setClock tag (some w)) s = .next (answerCode tag .badOperand (holdTag tag s))) ∧
     (∀ w : Int, 0 ≤ w → w ≤ 4611686018427387904 →
       exec (.setClock tag (some w)) s = .next
         { answer tag .ok (.clock s.timeBase (w - s.timeBase.toNat) w) (holdTag tag s) with
           wallOffset := w - s.timeBase.toNat }) ∧
     exec (.setClock tag none) s = .next
       (answer tag .ok (.clock s.timeBase s.wallOffset (s.timeBase.toNat + s.wallOffset)) (holdTag tag s)))

/-- EDGE_QUALIFIED (R49 to R51, R53, R74, R76): a run of Q differing samples is accepted; outside RUNNING its edge is
discarded; an XSYNC close opens an ARMED exposure and an XSYNC opening ends it, at the time the run began, which is the
open or close time of its exposure entry (R74, R76). That a row for an input without a full run changes nothing is log
1, and that the row brings the Time Base to the instant of acceptance is log 3. RELEASE, AUX and reclose edges are left
to `EdgesReachTheSequencer`. -/
def Obligations.EdgeQualifiedAcceptsLevel : Prop :=
  ∀ (i : SyncInput) (s : State) (l : SyncLine), s.sync.line i = l →
    ((l.run = 0 ∨ l.run < l.count) → exec (.edgeQualified i) s = .next s) ∧
    (∀ t₀, 0 < l.run → l.count ≤ l.run → l.runStart = some t₀ →
      ∃ (u t : State) (a : Contact), a ≠ l.accepted ∧
        u = State.advanceTo (t₀ + BitVec.ofNat 48 (4 * l.count))
          { s with sync := s.sync.setLine i { l with accepted := a, run := 0, runStart := none } } ∧
        exec (.edgeQualified i) s = .next t ∧ t.timeBase = u.timeBase ∧
        (∀ j, t.sync.line j = u.sync.line j) ∧ SameMemory s t ∧
        (s.part ≠ .running → t = u) ∧
        (∀ n m r, s.part = .running → i = .xsync → a = .closed → s.seq.state = .armed →
          s.rolls.current = some n → s.rolls.slots[n]? = some m → m.roll? = some r →
          r.sources.xsync = true →
          t.seq.state = .opened ∧ t.seq.armTimer = none ∧
          t.seq.maxOpen = some { start := t₀, length := r.maxOpen * 1000000 } ∧
          (∀ k x, s.card.state ≠ .ejecting → s.seq.openShot = some k → findRecord s k = some x →
            EntryBecomes x s.seq.k (fun e => { e with status := .integrating, openTime := some t₀ }) t ∧
            (s.seq.k = 1 →
              ∃ y ∈ residents t, y.number = k ∧ y.takenAt = some (t₀.toNat + s.wallOffset)))) ∧
        (∀ n m r, s.part = .running → i = .xsync → a = .opened → s.seq.state = .opened →
          s.seq.timed = none → s.sync.auxRole ≠ .finish →
          s.rolls.current = some n → s.rolls.slots[n]? = some m → m.roll? = some r →
          t.seq.state = .settle ∧ t.seq.ending = some .xsyncOpening ∧
          t.seq.settle = some { start := t.timeBase, length := r.settleDelay * 100 } ∧
          (∀ k x, s.card.state ≠ .ejecting → s.seq.openShot = some k → findRecord s k = some x →
            EntryCloses x s.seq.k t₀ .xsync false t)))

/-- The edges of RELEASE and AUX, and a reclose, delivered in RUNNING (R51, R67, R69 to R71, R76, R79, Table 3-5). A
RELEASE close, and an AUX close under RELEASE2, is a start: in IDLE it takes a record slot, a plane, a number and a
frame and arms; in ARMED it restarts the arm window; refused, it raises RELEASE_REFUSED with the reason and gives out
nothing. An AUX close under END ends the exposure when the roll accepts AUX_END; that its duration is the difference
modulo 2^48 also where its back-dated time lies before the open time is log 41. An XSYNC close in SETTLE reopens the
exposure under EXTEND after an XSYNC ending before the max-open expiry, and is ignored otherwise. -/
def Obligations.EdgesReachTheSequencer : Prop :=
  ∀ (i : SyncInput) (t₀ : Time) (s : State), s.part = .running → (s.sync.line i).accepted = .opened →
    0 < (s.sync.line i).run → (s.sync.line i).count ≤ (s.sync.line i).run →
    (s.sync.line i).runStart = some t₀ →
    ∃ t : State, exec (.edgeQualified i) s = .next t ∧
      ((i = .release ∨ (i = .aux ∧ s.sync.auxRole = .release2)) →
        t.sync.pulseEnd = s.sync.pulseEnd ∧
        (∀ n m p r, s.seq.state = .idle → s.rolls.current = some n →
          s.rolls.slots[n]? = some (.opened r) → r.nextFrame ≤ r.frameLimit →
          LowestAt s.table.slots .free m → LowestAt s.pool.owners .free p →
          s.table.counter ≤ 4294967295 →
          t.seq.state = .armed ∧ t.seq.openShot = some s.table.counter ∧ t.seq.k = 1 ∧
          t.seq.armTimer = some { start := t.timeBase, length := r.armWindow * 100000 } ∧
          t.table.counter = s.table.counter + 1 ∧
          t.rolls.slots[n]? = some (.opened { r with nextFrame := r.nextFrame + 1 }) ∧
          t.notices.kinds[NoticeKind.releaseRefused.place]? =
            s.notices.kinds[NoticeKind.releaseRefused.place]? ∧
          (s.card.state ≠ .ejecting → t.pool.owners[p]? = some (.shotRaw s.table.counter) ∧
            ∃ x : Record, t.table.slots[m]? = some (.inUse x) ∧ x.number = s.table.counter ∧
              x.life = .opened ∧ x.frame = r.nextFrame ∧ x.rawPlane = some p ∧
              x.exposures = [{ index := 1, status := .waiting }])) ∧
        (∀ n m r, s.seq.state = .armed → s.rolls.current = some n → s.rolls.slots[n]? = some m →
          m.roll? = some r →
          t.seq.state = .armed ∧ t.seq.openShot = s.seq.openShot ∧
          t.seq.armTimer = some { start := t.timeBase, length := r.armWindow * 100000 } ∧
          t.table.counter = s.table.counter ∧ t.rolls = s.rolls) ∧
        (∀ code,
          ((s.seq.state = .idle ∧ s.rolls.current = none ∧ code = .noRoll) ∨
            (∃ n r, s.seq.state = .idle ∧ s.rolls.current = some n ∧
              s.rolls.slots[n]? = some (.opened r) ∧ r.frameLimit < r.nextFrame ∧ code = .rollFull) ∨
            ((s.seq.state = .opened ∨ s.seq.state = .settle ∨ s.seq.state = .readout ∨
              s.seq.state = .accumulate) ∧ code = .busy) ∨
            (∃ n r, (s.seq.state = .dark ∨ s.seq.state = .darkReadout) ∧ s.rolls.current = some n ∧
              s.rolls.slots[n]? = some (.opened r) ∧ r.darkYield = .hold ∧ code = .darkBusy)) →
          RaisedOnce .releaseRefused (some (.reason code)) s t ∧ t.rolls = s.rolls ∧
          t.table.counter = s.table.counter ∧ t.seq.openShot = s.seq.openShot)) ∧
      (∀ n m r, i = .aux → s.sync.auxRole = .finish → s.rolls.current = some n →
        s.rolls.slots[n]? = some m → m.roll? = some r →
        (s.seq.state = .opened → s.seq.timed = none → r.sources.auxEnd = true →
          t.seq.state = .settle ∧ t.seq.ending = some .auxEnd ∧
          t.seq.settle = some { start := t.timeBase, length := r.settleDelay * 100 } ∧
          (∀ k x, s.card.state ≠ .ejecting → s.seq.openShot = some k → findRecord s k = some x →
            EntryCloses x s.seq.k t₀ .auxEnd false t)) ∧
        (s.seq.state = .opened → (s.seq.timed.isSome ∨ r.sources.auxEnd = false) → t.seq = s.seq)) ∧
      (∀ n m r, i = .xsync → s.seq.state = .settle → s.rolls.current = some n →
        s.rolls.slots[n]? = some m → m.roll? = some r →
        (r.reclose = .extend → s.seq.ending = some .xsyncOpening → s.seq.maxOpen.isSome →
          t.seq = { s.seq with state := .opened, settle := none, ending := none } ∧
          (∀ k x, s.card.state ≠ .ejecting → s.seq.openShot = some k → findRecord s k = some x →
            EntryBecomes x s.seq.k
              (fun e => { e with closeTime := none, duration := none, source := none }) t)) ∧
        ((r.reclose = .endFirst ∨ s.seq.ending ≠ some .xsyncOpening ∨ s.seq.maxOpen = none) →
          t.seq = s.seq))

/-- SYNC_SAMPLE (R46, R49): at the sampling instant `gap` instants after the next one, each input's run grows, begins or
ends. The instant and `gap` are the model's reading (log 4). It is said of states that `SamplesKeepUp` holds of, which
every step keeps (`StepKeepsLimits`). RELOUT_PULSE_END (R54): at its end the pulse is over and RELOUT is negated; with
no pulse nothing happens (log 1), and the row brings the Time Base to the pulse end (log 3). -/
def Obligations.SamplesCountRunsAndPulseEnds : Prop :=
  (∀ (gap : Nat) (release xsync aux : PinLevel) (s : State), gap < 2 ^ 44 → SamplesKeepUp s →
    (∀ i, (s.sync.line i).run = 0 ∨ (s.sync.line i).run < (s.sync.line i).count) →
    ∃ t : State, exec (.syncSample gap release xsync aux) s = .next t ∧
      t = { s with timeBase := t.timeBase, sync := t.sync } ∧
      t.timeBase = t.sync.lastSample ∧ t.sync.lastSample.toNat % 4 = 0 ∧
      t.sync.lastSample = s.sync.lastSample + BitVec.ofNat 48 (4 * (gap + 1)) ∧
      LineSampled gap t.timeBase release s.sync.release t.sync.release ∧
      LineSampled gap t.timeBase xsync s.sync.xsync t.sync.xsync ∧
      LineSampled gap t.timeBase aux s.sync.aux t.sync.aux ∧
      t.sync.auxRole = s.sync.auxRole ∧ t.sync.reloutWidth = s.sync.reloutWidth ∧
      t.sync.pulseEnd = s.sync.pulseEnd) ∧
  (∀ s : State,
    (s.sync.pulseEnd = none → exec .reloutPulseEnd s = .next s) ∧
    (∀ e, s.sync.pulseEnd = some e →
      ∃ t u : State, exec .reloutPulseEnd s = .next t ∧ u = s.advanceTo e ∧
        (s.held = false → relout s = true) ∧ relout t = false ∧
        t = { u with sync := { u.sync with pulseEnd := none } }))

/-! ### Exposure -/

/-- An accepted start in IDLE (R69, R70, R78): the shot takes the counter's number, the lowest FREE record slot and
plane and the roll's next frame; its exposure list holds entry 1 (R11). FIRE arms, with entry 1 WAITING, and asks for a
pulse; TIMED opens at once, with entry 1 INTEGRATING from the Time Base value of the request on. When the frame given
out is the roll's last, ROLL_FULL is raised with the new shot as its subject, and else it is not (R31). -/
def Obligations.AcceptedStartBeginsShot : Prop :=
  ∀ (tag i m p : Nat) (r : Roll) (s : State), CanTake tag s → s.seq.state = .idle →
    s.rolls.current = some i → s.rolls.slots[i]? = some (.opened r) → r.nextFrame ≤ r.frameLimit →
    LowestAt s.table.slots .free m → LowestAt s.pool.owners .free p → s.table.counter ≤ 4294967295 →
    (∃ t : State, exec (.triggerFire tag) s = .next t ∧
      Answered t tag .ok (.shotNumber s.table.counter) ∧ t.table.counter = s.table.counter + 1 ∧
      t.seq.state = .armed ∧ t.seq.openShot = some s.table.counter ∧ t.seq.k = 1 ∧
      t.seq.armTimer = some { start := s.timeBase, length := r.armWindow * 100000 } ∧
      t.sync = { s.sync with
        pulseEnd := some (s.timeBase + BitVec.ofNat 48 (s.sync.reloutWidth * 1000)) } ∧
      t.rolls.slots[i]? = some (.opened { r with nextFrame := r.nextFrame + 1 }) ∧
      RollFullAtLimit r s.table.counter s t ∧
      (s.card.state ≠ .ejecting → t.pool.owners[p]? = some (.shotRaw s.table.counter) ∧
        ∃ x : Record, t.table.slots[m]? = some (.inUse x) ∧ x.number = s.table.counter ∧
          x.life = .opened ∧ x.rollSlot = some i ∧ x.label = r.label ∧ x.frame = r.nextFrame ∧
          x.kind = r.defaultKind ∧ x.recipe = r.defaultRecipe ∧ x.takenAt = none ∧ x.rating = 0 ∧
          x.protect = false ∧ x.rawPlane = some p ∧
          x.exposures = [{ index := 1, status := .waiting }])) ∧
    (∀ d, 1 ≤ d → d ≤ 3600000000 → r.sources.timed = true →
      ∃ t : State, exec (.triggerTimed tag (some d)) s = .next t ∧
        Answered t tag .ok (.shotNumber s.table.counter) ∧ t.table.counter = s.table.counter + 1 ∧
        t.seq.state = .opened ∧ t.seq.openShot = some s.table.counter ∧ t.seq.k = 1 ∧
        t.seq.timed = some { start := s.timeBase, length := d } ∧ t.sync = s.sync ∧
        t.rolls.slots[i]? = some (.opened { r with nextFrame := r.nextFrame + 1 }) ∧
        RollFullAtLimit r s.table.counter s t ∧
        (s.card.state ≠ .ejecting → t.pool.owners[p]? = some (.shotRaw s.table.counter) ∧
          ∃ x : Record, t.table.slots[m]? = some (.inUse x) ∧ x.number = s.table.counter ∧
            x.life = .opened ∧ x.rollSlot = some i ∧ x.label = r.label ∧ x.frame = r.nextFrame ∧
            x.kind = r.defaultKind ∧ x.recipe = r.defaultRecipe ∧
            x.takenAt = some (s.timeBase.toNat + s.wallOffset) ∧ x.rating = 0 ∧
            x.protect = false ∧ x.rawPlane = some p ∧
            x.exposures = [{ index := 1, status := .integrating, openTime := some s.timeBase }]))

/-- A start taken where a shot or a dark exposure is under way. In ARMED, FIRE restarts the arm window and asks for a
pulse (R71). In STACK_WAIT a start begins exposure k + 1, in the scratch plane held or in the lowest FREE plane, and
stops the stack window; with no plane to be had it is refused NO_PLANE and STACK_WAIT goes on (R73). In DARK and
DARK_READOUT under YIELD the dark exposure is abandoned, each shot that waited on it stepping its attempts, and the
start is then decided as in IDLE (R72, R106). That clause is said of states in which no engine claim waits, since what a
waiting one takes first is log 39. That the start is then accepted and has a plane, also where the engine is IDLE with
jobs queued at a readout cut off, is the model's choice (log 39): the dispatch that R121 attempts there comes after the
start has claimed its plane. A scratch plane had by reclamation, and a start refused after the abandonment, are not in
this statement. -/
def Obligations.StartsOutsideIdle : Prop :=
  ∀ (tag n : Nat) (m : RollSlot) (r : Roll) (s : State), CanTake tag s → s.rolls.current = some n →
    s.rolls.slots[n]? = some m → m.roll? = some r →
    (∀ k, s.seq.state = .armed → s.seq.openShot = some k →
      ∃ t : State, exec (.triggerFire tag) s = .next t ∧ Answered t tag .ok (.shotNumber k) ∧
        t.seq = { s.seq with
          armTimer := some { start := s.timeBase, length := r.armWindow * 100000 } } ∧
        t.sync = { s.sync with
          pulseEnd := some (s.timeBase + BitVec.ofNat 48 (s.sync.reloutWidth * 1000)) } ∧
        t.table.counter = s.table.counter ∧ t.rolls = s.rolls) ∧
    (∀ k p x, s.seq.state = .stackWait → s.seq.openShot = some k → findRecord s k = some x →
      (s.seq.scratch = some p ∨ (s.seq.scratch = none ∧ LowestAt s.pool.owners .free p)) →
      (∃ t : State, exec (.triggerFire tag) s = .next t ∧ Answered t tag .ok (.shotNumber k) ∧
        t.seq.state = .armed ∧ t.seq.k = s.seq.k + 1 ∧ t.seq.openShot = some k ∧
        t.seq.scratch = some p ∧ t.seq.stackWindow = none ∧
        t.seq.armTimer = some { start := s.timeBase, length := r.armWindow * 100000 } ∧
        t.sync = { s.sync with
          pulseEnd := some (s.timeBase + BitVec.ofNat 48 (s.sync.reloutWidth * 1000)) } ∧
        t.table.counter = s.table.counter ∧ t.rolls = s.rolls ∧
        (s.card.state ≠ .ejecting →
          (s.seq.scratch = none → t.pool.owners[p]? = some .seqScratch) ∧
          ∃ y ∈ residents t, y.number = k ∧
            y.exposures = x.exposures ++ [{ index := s.seq.k + 1, status := .waiting }])) ∧
      (∀ d, 1 ≤ d → d ≤ 3600000000 → r.sources.timed = true → x.exposures.length = s.seq.k →
        0 < s.seq.k →
        ∃ t : State, exec (.triggerTimed tag (some d)) s = .next t ∧
          Answered t tag .ok (.shotNumber k) ∧ t.seq.state = .opened ∧ t.seq.k = s.seq.k + 1 ∧
          t.seq.scratch = some p ∧ t.seq.stackWindow = none ∧
          t.seq.timed = some { start := s.timeBase, length := d } ∧
          (s.card.state ≠ .ejecting → ∃ y ∈ residents t, y.number = k ∧
            y.exposures = x.exposures ++ [{ index := s.seq.k + 1, status := .integrating,
                                            openTime := some s.timeBase }]))) ∧
    (s.seq.state = .stackWait → s.seq.scratch = none → Owner.free ∉ s.pool.owners →
      (∀ e taken p, e < 8 → ¬ IdleEntry s e taken p) →
      ∃ t : State, exec (.triggerFire tag) s = .next t ∧ Answered t tag .noPlane .empty ∧
        t.seq = s.seq ∧ t.sync = s.sync) ∧
    (∀ e p x i, (s.seq.state = .dark ∨ s.seq.state = .darkReadout) → m = .opened r →
      r.darkYield = .yield → r.nextFrame ≤ r.frameLimit → s.table.counter ≤ 4294967295 →
      LowestAt s.table.slots .free i → (slotNumbers s).Nodup → e < 8 → s.dark.entries.length = 8 →
      s.dark.entries[e]? = some x → x.state = .exposing p → p < s.pool.owners.length →
      (∀ e' x' p', s.dark.entries[e']? = some x' → x'.state = .exposing p' → e' = e) →
      s.pool.engineClaim = false → s.card.state ≠ .ejecting →
      ∃ t : State, exec (.triggerFire tag) s = .next t ∧
        Answered t tag .ok (.shotNumber s.table.counter) ∧ t.seq.state = .armed ∧
        t.seq.openShot = some s.table.counter ∧ t.seq.k = 1 ∧ t.seq.darkTimer = none ∧
        t.table.counter = s.table.counter + 1 ∧
        (s.seq.state = .darkReadout → t.dev.readout = false) ∧
        (∀ y, t.dark.entries[e]? = some y → ∀ p', y.state ≠ .exposing p') ∧
        (∃ q z, t.table.slots[i]? = some (.inUse z) ∧ z.number = s.table.counter ∧
          z.rawPlane = some q ∧ t.pool.owners[q]? = some (.shotRaw s.table.counter)) ∧
        ((∀ z ∈ residents s, z.darkLink ≠ .linked e) → RaisedOnce .darkAbandoned none s t) ∧
        (∀ z ∈ residents s, z.darkLink = .linked e →
          ((∀ w ∈ residents s, w.darkLink = .linked e → z.number ≤ w.number) →
            RaisedOnce .darkAbandoned (some (.shot z.number)) s t) ∧
          ∃ y ∈ residents t, y.number = z.number ∧ y.darkAttempts = z.darkAttempts + 1 ∧
            (z.darkAttempts + 1 < 3 → y.darkLink = .awaiting ∨ ∃ e', y.darkLink = .linked e') ∧
            (3 ≤ z.darkAttempts + 1 → y.darkLink = .waived)))

/-- What a start in IDLE claims when nothing is FREE (R2, R5, R22, R67, R69, R90). With no FREE record slot the least
recently used evictable record gives up its slot; with none, or with no number left, the start is refused NO_RECORD.
With no FREE plane the oldest idle READY dark entry is reclaimed, which is said of states in which no plane is named
twice (`StepKeepsPlanesAgree`); with none the start is refused NO_PLANE. -/
def Obligations.StartsClaimSlotsAndPlanes : Prop :=
  ∀ (tag n : Nat) (r : Roll) (s : State), CanTake tag s → s.seq.state = .idle →
    s.rolls.current = some n → s.rolls.slots[n]? = some (.opened r) → r.nextFrame ≤ r.frameLimit →
    (∀ older i newer x p, s.table.counter ≤ 4294967295 → RecordSlot.free ∉ s.table.slots →
      s.table.useOrder = older ++ i :: newer → s.table.slots[i]? = some (.inUse x) → Evictable s x →
      (∀ j ∈ older, ∀ y, s.table.slots[j]? = some (.inUse y) → ¬ Evictable s y) →
      LowestAt s.pool.owners .free p → s.card.state ≠ .ejecting →
      ∃ t : State, exec (.triggerFire tag) s = .next t ∧
        Answered t tag .ok (.shotNumber s.table.counter) ∧ t.seq.state = .armed ∧
        (∃ z, t.table.slots[i]? = some (.inUse z) ∧ z.number = s.table.counter ∧ z.life = .opened ∧
          z.rawPlane = some p) ∧
        (i ∉ older → i ∉ newer → t.table.useOrder = older ++ newer ++ [i])) ∧
    ((NoSlot s ∨ s.table.counter = 4294967296) →
      ∃ t : State, exec (.triggerFire tag) s = .next t ∧ Answered t tag .noRecord .empty ∧
        t.table.counter = s.table.counter ∧ t.rolls = s.rolls ∧ t.sync = s.sync ∧
        t.seq.openShot = s.seq.openShot) ∧
    (∀ i e taken p, s.table.counter ≤ 4294967295 → ((planesNamed s).map Prod.fst).Nodup →
      LowestAt s.table.slots .free i →
      Owner.free ∉ s.pool.owners → e < 8 → s.dark.entries.length = 8 → p < s.pool.owners.length →
      IdleEntry s e taken p →
      (∀ e' taken' p', e' < 8 → IdleEntry s e' taken' p' →
        (s.timeBase - taken').toNat < (s.timeBase - taken).toNat ∨
        ((s.timeBase - taken').toNat = (s.timeBase - taken).toNat ∧ e ≤ e')) →
      s.card.state ≠ .ejecting →
      ∃ t : State, exec (.triggerFire tag) s = .next t ∧
        Answered t tag .ok (.shotNumber s.table.counter) ∧ t.seq.state = .armed ∧
        t.pool.owners[p]? = some (.shotRaw s.table.counter) ∧
        (∃ z, t.table.slots[i]? = some (.inUse z) ∧ z.number = s.table.counter ∧
          z.rawPlane = some p) ∧
        (∀ y, t.dark.entries[e]? = some y → y.state = .free ∨ y.state = .planned)) ∧
    (s.table.counter ≤ 4294967295 → RecordSlot.free ∈ s.table.slots → Owner.free ∉ s.pool.owners →
      (∀ e taken p, e < 8 → ¬ IdleEntry s e taken p) →
      ∃ t : State, exec (.triggerFire tag) s = .next t ∧ Answered t tag .noPlane .empty ∧
        t.table.counter = s.table.counter ∧ t.rolls = s.rolls ∧ t.sync = s.sync ∧
        t.seq.openShot = s.seq.openShot)

/-- A start refused is answered with its reason, gives out no number and no frame (R67 to R69, R71, R72). -/
def Obligations.RefusedStartGivesOutNothing : Prop :=
  ∀ (tag : Nat) (c : Instr) (code : ResultCode) (s : State), CanTake tag s →
    (c = .triggerFire tag ∨ ∃ d, 1 ≤ d ∧ d ≤ 3600000000 ∧ c = .triggerTimed tag (some d)) →
    ((s.seq.state = .idle ∧ s.rolls.current = none ∧ code = .noRoll) ∨
      (∃ i r, s.seq.state = .idle ∧ s.rolls.current = some i ∧ s.rolls.slots[i]? = some (.opened r) ∧
        r.sources.timed = true ∧ r.frameLimit < r.nextFrame ∧ code = .rollFull) ∨
      (∃ i r, s.seq.state = .idle ∧ s.rolls.current = some i ∧ s.rolls.slots[i]? = some (.opened r) ∧
        r.sources.timed = false ∧ c ≠ .triggerFire tag ∧ code = .badOperand) ∨
      ((s.seq.state = .opened ∨ s.seq.state = .settle ∨ s.seq.state = .readout ∨
        s.seq.state = .accumulate ∨ (s.seq.state = .armed ∧ c ≠ .triggerFire tag)) ∧ code = .busy) ∨
      (∃ i r, (s.seq.state = .dark ∨ s.seq.state = .darkReadout) ∧ s.rolls.current = some i ∧
        s.rolls.slots[i]? = some (.opened r) ∧ r.sources.timed = true ∧ r.darkYield = .hold ∧
        code = .darkBusy)) →
    ∃ t : State, exec c s = .next t ∧ Answered t tag code .empty ∧ t.rolls = s.rolls ∧
      t.table.counter = s.table.counter ∧ t.sync = s.sync ∧ t.seq.openShot = s.seq.openShot

/-- The arm window and the stack window (R75, R83, R84): an arm window over exposure 1 raises ARM_EXPIRED, gives the
frame back, and removes the record and frees its plane; one over a later exposure drops the WAITING entry and finishes
the shot, as the stack window does: the record is HELD and EXPOSURE_DONE raised. Both rows bring the Time Base to the
expiry (log 3). -/
def Obligations.WindowsEndTheShot : Prop :=
  (∀ (n : Nat) (x : Record) (tm : Timer) (s : State), s.seq.state = .armed → s.seq.armTimer = some tm →
    s.seq.openShot = some n → findRecord s n = some x →
    ∃ t : State, exec .armWindowExpiry s = .next t ∧ t.timeBase = (s.advanceTo tm.expiry).timeBase ∧
      t.seq.openShot = none ∧ t.seq.armTimer = none ∧ (t.seq.state = .idle ∨ t.seq.state = .dark) ∧
      (s.seq.k ≤ 1 → RaisedOnce .armExpired (some (.shot n)) s t ∧
        (∀ i r, s.rolls.current = some i → s.rolls.slots[i]? = some (.opened r) →
          t.rolls.slots[i]? = some (.opened { r with nextFrame := r.nextFrame - 1 })) ∧
        ((slotNumbers s).Nodup → s.card.state ≠ .ejecting → ∀ y ∈ residents t, y.number ≠ n) ∧
        (∀ p, x.rawPlane = some p → p < s.pool.owners.length → s.card.state ≠ .ejecting →
          s.dev.queue = [] → s.pool.darkClaim = false → t.pool.owners[p]? = some .free)) ∧
      (1 < s.seq.k → RaisedOnce .exposureDone (some (.shot n)) s t ∧ t.rolls = s.rolls ∧
        (s.card.state ≠ .ejecting → ∃ y ∈ residents t, y.number = n ∧ y.life = .held ∧
          y.exposures = x.exposures.dropLast))) ∧
  (∀ (n : Nat) (x : Record) (tm : Timer) (s : State), s.seq.state = .stackWait →
    s.seq.stackWindow = some tm → s.seq.openShot = some n → findRecord s n = some x →
    ∃ t : State, exec .stackWindowExpiry s = .next t ∧ t.timeBase = (s.advanceTo tm.expiry).timeBase ∧
      t.seq.openShot = none ∧ t.seq.stackWindow = none ∧
      (t.seq.state = .idle ∨ t.seq.state = .dark) ∧
      RaisedOnce .exposureDone (some (.shot n)) s t ∧ t.rolls = s.rolls ∧
      (s.card.state ≠ .ejecting → ∃ y ∈ residents t, y.number = n ∧ y.life = .held))

/-- The timers of an exposure and of a dark exposure (R77 to R79, R104, R66, R121): max open and the timed duration
close the exposure and enter SETTLE, the settle delay enters READOUT with the entry READING, the dark duration
DARK_READOUT; a readout suspends the engine. A max-open expiry truncates the exposure. Every row brings the Time Base to
the expiry (log 3). -/
def Obligations.ExposureTimersMoveTheSequencer : Prop :=
  ∀ (tm : Timer) (s : State),
    (∀ i m r n, s.seq.state = .opened → s.seq.maxOpen = some tm → s.rolls.current = some i →
      s.rolls.slots[i]? = some m → m.roll? = some r → s.seq.openShot = some n →
      ∃ t : State, exec .maxOpenExpiry s = .next t ∧ t.timeBase = (s.advanceTo tm.expiry).timeBase ∧
        t.seq.state = .settle ∧ t.seq.maxOpen = none ∧ t.seq.timed = none ∧
        t.seq.ending = some .maxOpen ∧
        t.seq.settle = some { start := t.timeBase, length := r.settleDelay * 100 } ∧
        RaisedOnce .exposureTruncated (some (.shot n)) s t ∧
        (∀ x, findRecord s n = some x →
          (s.sync.auxRole = .finish → r.sources.auxEnd = true →
            EntryCloses x s.seq.k tm.expiry .auxEnd true t) ∧
          ((s.sync.auxRole ≠ .finish ∨ r.sources.auxEnd = false) →
            EntryCloses x s.seq.k tm.expiry .xsync true t))) ∧
    (s.seq.state ≠ .opened → s.seq.maxOpen = some tm →
      exec .maxOpenExpiry s =
        .next { s.advanceTo tm.expiry with seq := { s.seq with maxOpen := none } }) ∧
    (∀ i m r, s.seq.state = .opened → s.seq.timed = some tm → s.rolls.current = some i →
      s.rolls.slots[i]? = some m → m.roll? = some r →
      ∃ t : State, exec .timedDurationExpiry s = .next t ∧
        t.timeBase = (s.advanceTo tm.expiry).timeBase ∧
        t.seq.state = .settle ∧ t.seq.timed = none ∧ t.seq.ending = some .timed ∧
        t.seq.settle = some { start := t.timeBase, length := r.settleDelay * 100 } ∧
        t.notices = s.notices ∧
        (∀ n x, s.seq.openShot = some n → findRecord s n = some x →
          EntryCloses x s.seq.k tm.expiry .timed false t)) ∧
    (s.seq.state = .settle → s.seq.settle = some tm →
      ∃ t : State, exec .settleExpiry s = .next t ∧ t.timeBase = (s.advanceTo tm.expiry).timeBase ∧
        t.seq.state = .readout ∧ t.seq.samples = 0 ∧ t.seq.settle = none ∧ t.seq.maxOpen = none ∧
        t.dev.readout = true ∧ (∀ w, s.dev.engine = .active w → t.dev.engine = .suspended w) ∧
        (∀ n x, s.seq.openShot = some n → findRecord s n = some x →
          EntryBecomes x s.seq.k (fun e => { e with status := .reading }) t)) ∧
    (s.seq.state = .dark → s.seq.darkTimer = some tm →
      exec .darkDurationExpiry s = .next { s.advanceTo tm.expiry with
        seq := { s.seq with state := .darkReadout, samples := 0, darkTimer := none },
        dev := { s.dev with
          readout := true,
          engine := match s.dev.engine with
            | .active w => .suspended w
            | e => e } })

/-- READOUT_HEADER (R64, R65, R80, R82, R84, R121): a header outside a readout is discarded. A good readout leaves the
entry DONE with its temperature: that of exposure 1 finishes a SINGLE, with the dark link its roll's policy gives (R33)
and EXPOSURE_DONE raised, and waits for the next exposure of a STACK; a later one asks for its ACCUMULATE. One in error
leaves the entry FAILED: at exposure 1 the shot is VOID and its plane freed, later it is finished short. The end of the
readout resumes a suspended engine. Dark readouts are left to `DarkReadoutReadiesOrFailsTheEntry`. -/
def Obligations.ReadoutHeaderEndsReadout : Prop :=
  ∀ (good : Bool) (columns rows : Nat) (temperature : Int) (s : State),
    (s.seq.state ≠ .readout → s.seq.state ≠ .darkReadout →
      exec (.readoutHeader good columns rows temperature) s = .next s) ∧
    (∀ n x, s.seq.state = .readout → s.seq.openShot = some n → findRecord s n = some x →
      ∃ t : State, exec (.readoutHeader good columns rows temperature) s = .next t ∧
        t.dev.readout = false ∧
        (∀ w, s.dev.engine = .suspended w → s.card.state ≠ .ejecting → t.dev.engine = .active w) ∧
        (good = true → columns = s.seq.columns → rows = s.seq.rows →
          s.seq.samples = s.seq.columns * s.seq.rows →
          (s.card.state ≠ .ejecting → EntryBecomes x s.seq.k
            (fun e => { e with status := .done, temperature := some temperature }) t) ∧
          (s.seq.k ≤ 1 → x.kind = .single →
            t.seq.openShot = none ∧ (t.seq.state = .idle ∨ t.seq.state = .dark) ∧
            RaisedOnce .exposureDone (some (.shot n)) s t ∧
            (∀ e d i m r, (slotNumbers s).Nodup → s.card.state ≠ .ejecting → x.exposures = [e] → e.duration = some d →
              x.rollSlot = some i → s.rolls.slots[i]? = some m → m.roll? = some r →
              ∃ y ∈ residents t, y.number = n ∧ y.life = .held ∧ y.rawPlane = x.rawPlane ∧
                LinkByPolicy r.darkPolicy d y.darkLink)) ∧
          (∀ target i m r, s.seq.k ≤ 1 → x.kind = .stack target → s.rolls.current = some i →
            s.rolls.slots[i]? = some m → m.roll? = some r →
            t.seq.state = .stackWait ∧ t.seq.openShot = some n ∧
            t.seq.stackWindow = some { start := s.timeBase, length := r.stackWindow * 1000000 }) ∧
          (∀ p q, 1 < s.seq.k → x.rawPlane = some p → s.seq.scratch = some q →
            t.seq.state = .accumulate ∧ t.seq.openShot = some n ∧
            ∃ a ∈ t.pau, a.op = .accumulate ∧ a.shot = n ∧ a.source = q ∧ a.destination = p)) ∧
        ((good = false ∨ columns ≠ s.seq.columns ∨ rows ≠ s.seq.rows ∨
            s.seq.samples ≠ s.seq.columns * s.seq.rows) →
          t.seq.openShot = none ∧ (t.seq.state = .idle ∨ t.seq.state = .dark) ∧
          (s.card.state ≠ .ejecting →
            EntryBecomes x s.seq.k (fun e => { e with status := .failed }) t) ∧
          (s.seq.k ≤ 1 → RaisedOnce .shotVoid (some (.shot n)) s t ∧
            (s.card.state ≠ .ejecting → ∃ y ∈ residents t, y.number = n ∧ y.life = .void ∧
              y.rawPlane = none)) ∧
          (1 < s.seq.k → RaisedOnce .exposureDone (some (.shot n)) s t)))

/-- PIXEL_SAMPLE (R64): the sample is written as a 32-bit value at its place in the plane the readout goes to, the raw
plane, the scratch plane or the dark plane, every other byte of frame memory reads as before, and the sample is counted;
a sample outside a readout is discarded. What is read back is said of memory in its canonical form, which every step
keeps (`StepKeepsMemoryCanonical`). That a value lies at four times its place in its plane, and the planes in order, is
log 13; that a sample beyond the sensor area is counted and not written is the model's reading (log 35). -/
def Obligations.PixelSampleWritesItsValue : Prop :=
  ∀ (v : BitVec 16) (s : State),
    (∀ p, SampleGoesTo s p →
      ∃ t : State, exec (.pixelSample v) s = .next t ∧
        t = { s with mem := t.mem, seq := { s.seq with samples := s.seq.samples + 1 } } ∧
        (s.seq.samples < s.seq.columns * s.seq.rows → s.seq.samples < 100663296 →
          (Canonical s → readValue t.mem p s.seq.samples = v.zeroExtend 32) ∧
          ∀ a : Nat, (a < planeBase p + 4 * s.seq.samples ∨ planeBase p + 4 * s.seq.samples + 4 ≤ a) →
            Memory.read t.mem a = Memory.read s.mem a) ∧
        (s.seq.columns * s.seq.rows ≤ s.seq.samples → t.mem = s.mem)) ∧
    (s.seq.state ≠ .readout → s.seq.state ≠ .darkReadout → exec (.pixelSample v) s = .next s)

/-- SET_SENSOR (R86): its two tests in order, and otherwise the geometry takes the new counts and every READY dark entry
becomes FREE, its plane released. -/
def Obligations.SetSensorTakesGeometry : Prop :=
  ∀ (tag columns rows : Nat) (s : State), CanTake tag s →
    ((columns = 0 ∨ 12000 < columns ∨ rows = 0 ∨ 12000 < rows ∨ 100000000 < columns * rows) →
      exec (.setSensor tag columns rows) s = .next (answerCode tag .badOperand (holdTag tag s))) ∧
    (1 ≤ columns → columns ≤ 12000 → 1 ≤ rows → rows ≤ 12000 → columns * rows ≤ 100000000 →
      ((s.seq.state ≠ .idle ∨ (∃ r ∈ residents s, r.life = .opened ∨ r.life = .held) ∨
          (∃ j ∈ s.dev.queue, j.running = true)) →
        exec (.setSensor tag columns rows) s = .next (answerCode tag .busy (holdTag tag s))) ∧
      (s.seq.state = .idle → (∀ r ∈ residents s, r.life ≠ .opened ∧ r.life ≠ .held) →
        (∀ j ∈ s.dev.queue, j.running = false) →
        ∃ t : State, exec (.setSensor tag columns rows) s = .next t ∧
          Answered t tag .ok (.geometry columns rows) ∧ t.seq.columns = columns ∧ t.seq.rows = rows ∧
          ((∀ r ∈ residents s, r.darkLink ≠ .awaiting) →
            ∀ e x band taken p, e < 8 → s.dark.entries[e]? = some x → x.state = .ready band taken p →
              (∃ y, t.dark.entries[e]? = some y ∧ y.state = .free) ∧
              (p < s.pool.owners.length → s.dev.queue = [] → s.pool.darkClaim = false →
                t.pool.owners[p]? = some .free))))

/-! ### Dark references and the Plane Arithmetic Unit -/

/-- The dark exposure (R103, R91) and the expiry of an entry (R110): in IDLE the head of the plan queue is
exposed in the lowest FREE plane; a READY entry that no shot links or awaits is freed at its
expiry. That the start is a step of
its own is the model's choice (log 7). -/
def Obligations.DarkExposureStartsAndEntryExpires : Prop :=
  (∀ (e p : Nat) (rest : List Nat) (x : DarkEntry) (s : State), s.part = .running →
    s.seq.state = .idle → s.dark.plan = e :: rest → s.dark.entries[e]? = some x →
    LowestAt s.pool.owners .free p →
    ∃ t : State, exec .darkExposureStart s = .next t ∧ t.seq.state = .dark ∧
      t.seq.darkTimer = some { start := s.timeBase, length := x.duration } ∧
      t.dark.entries[e]? = some { x with state := .exposing p } ∧ e ∉ t.dark.plan ∧
      (s.card.state ≠ .ejecting → t.pool.owners[p]? = some (.dark e))) ∧
  (∀ s : State, s.part = .running → s.seq.state = .idle → s.dark.plan ≠ [] →
    Owner.free ∉ s.pool.owners → s.card.state ≠ .ejecting →
    ∃ t : State, exec .darkExposureStart s = .next t ∧ t.seq = s.seq ∧ t.pool.darkClaim = true ∧
      t.dark = s.dark) ∧
  (∀ (e p : Nat) (x : DarkEntry) (band : Int) (t₀ : Time) (s : State),
    s.dark.entries[e]? = some x → x.state = .ready band t₀ p → x.reuseAge ≤ 3600 →
    (∀ r ∈ residents s, r.darkLink ≠ .linked e ∧ r.darkLink ≠ .awaiting) →
    (∀ q ∈ s.pau, q.running = false) →
    ∃ t : State, exec (.darkExpiry e) s = .next t ∧
      (t.dark.entries[e]?).map DarkEntry.state = some .free ∧
      t.timeBase = (s.advanceTo (t₀ + BitVec.ofNat 48 (x.reuseAge * 1000000))).timeBase) ∧
  (∀ (e : Nat) (s : State), (∀ x b t p, s.dark.entries[e]? = some x → x.state ≠ .ready b t p) →
    exec (.darkExpiry e) s = .next s)

/-- The end of a dark readout (R104 to R107). Good, it makes the entry READY with the band of the header's temperature
and the Time Base value now, also when every shot linked to it is of another band or none is linked; where no link is
left, this is said of a reuse age above 0 and of a state in which the pass needs no entry but FREE ones, and one of
reuse age 0 is FREE again, its plane released (both of states whose plan queue does not name the entry,
`StepKeepsPlanesAgree`). A shot linked to it whose band differs loses the link and steps its attempts, the third leaving
it WAIVED with DARK_GAVE_UP, and no DARK_ABANDONED is raised; a shot still linked keeps its link and its APPLY_DARK is
placed. In error, the entry and its plane are freed, DARK_ABANDONED is raised with the lowest shot that was linked, and
each of those loses its link and steps its attempts, the third leaving it WAIVED with DARK_GAVE_UP. -/
def Obligations.DarkReadoutReadiesOrFailsTheEntry : Prop :=
  ∀ (good : Bool) (columns rows : Nat) (temperature : Int) (e p : Nat) (x : DarkEntry) (s : State),
    s.seq.state = .darkReadout → s.part = .running → s.card.state ≠ .ejecting → (slotNumbers s).Nodup →
    e < 8 → s.dark.entries.length = 8 → s.dark.entries[e]? = some x → x.state = .exposing p →
    (∀ e' x' p', s.dark.entries[e']? = some x' → x'.state = .exposing p' → e' = e) →
    ∃ t : State, exec (.readoutHeader good columns rows temperature) s = .next t ∧
      t.dev.readout = false ∧ (t.seq.state = .idle ∨ t.seq.state = .dark) ∧
      t.seq.openShot = s.seq.openShot ∧
      (good = true → columns = s.seq.columns → rows = s.seq.rows →
        s.seq.samples = s.seq.columns * s.seq.rows →
        (e ∉ s.dark.plan →
          ((∃ r ∈ residents s, r.darkLink = .linked e ∧ shotBand r = some (temperature / 8)) ∨
            (0 < x.reuseAge ∧ FreeEntriesSuffice s e (temperature / 8)) →
              t.dark.entries[e]? = some { x with state := .ready (temperature / 8) s.timeBase p }) ∧
          (x.reuseAge = 0 → (∀ q ∈ s.pau, q.op ≠ .applyDark e) →
            (∀ r ∈ residents s, r.darkLink ≠ .awaiting ∧ (r.darkLink = .linked e →
              shotBand r ≠ some (temperature / 8) ∧ 3 ≤ r.darkAttempts + 1)) →
            (∃ y, t.dark.entries[e]? = some y ∧ y.state = .free) ∧
            (p < s.pool.owners.length → s.dev.queue = [] → s.pool.darkClaim = false →
              t.pool.owners[p]? = some .free))) ∧
        t.notices.kinds[NoticeKind.darkAbandoned.place]? = s.notices.kinds[NoticeKind.darkAbandoned.place]? ∧
        ((∀ r ∈ residents s, r.darkLink = .linked e → shotBand r ≠ some (temperature / 8) →
            r.darkAttempts + 1 < 3) →
          t.notices.kinds[NoticeKind.darkGaveUp.place]? = s.notices.kinds[NoticeKind.darkGaveUp.place]?) ∧
        (∀ r ∈ residents s, r.darkLink = .linked e →
          (shotBand r = some (temperature / 8) →
            (∃ y ∈ residents t, y.number = r.number ∧ y.darkLink = .linked e ∧
              y.darkAttempts = r.darkAttempts) ∧
            (s.pau = [] → (∀ r' ∈ residents s, r'.darkLink = .linked e → r' = r) →
              ∃ q ∈ t.pau, q.op = .applyDark e ∧ q.shot = r.number ∧ q.source = p ∧
                q.destination = r.rawPlane.getD 0 ∧ q.running = true)) ∧
          (shotBand r ≠ some (temperature / 8) →
            ∃ y ∈ residents t, y.number = r.number ∧ y.darkAttempts = r.darkAttempts + 1 ∧
              (r.darkAttempts + 1 < 3 → y.darkLink = .awaiting ∨ ∃ e', y.darkLink = .linked e') ∧
              (3 ≤ r.darkAttempts + 1 → y.darkLink = .waived ∧
                ((∀ r' ∈ residents s, r'.darkLink = .linked e → shotBand r' ≠ some (temperature / 8) →
                    3 ≤ r'.darkAttempts + 1 → r' = r) →
                  RaisedOnce .darkGaveUp (some (.shot r.number)) s t))))) ∧
      ((good = false ∨ columns ≠ s.seq.columns ∨ rows ≠ s.seq.rows ∨
          s.seq.samples ≠ s.seq.columns * s.seq.rows) →
        (s.pool.darkClaim = false →
          (∃ y, t.dark.entries[e]? = some y ∧ (y.state = .free ∨ y.state = .planned)) ∧
          (p < s.pool.owners.length → s.dev.queue = [] → t.pool.owners[p]? = some .free)) ∧
        ((∀ r ∈ residents s, r.darkLink ≠ .linked e) → RaisedOnce .darkAbandoned none s t) ∧
        (∀ r ∈ residents s, r.darkLink = .linked e →
          ((∀ r' ∈ residents s, r'.darkLink = .linked e → r.number ≤ r'.number) →
            RaisedOnce .darkAbandoned (some (.shot r.number)) s t) ∧
          ∃ y ∈ residents t, y.number = r.number ∧ y.darkAttempts = r.darkAttempts + 1 ∧
            (r.darkAttempts + 1 < 3 → y.darkLink = .awaiting ∨ ∃ e', y.darkLink = .linked e') ∧
            (3 ≤ r.darkAttempts + 1 → y.darkLink = .waived ∧
              ((∀ r' ∈ residents s, r'.darkLink = .linked e → r' = r) →
                RaisedOnce .darkGaveUp (some (.shot r.number)) s t))))

/-- Matching and planning (R100 to R103), at the end of RESTARTING, when a pass runs (R102): the one shot that is
AWAITING, of one DONE exposure, is linked to the youngest READY entry that serves it, else to the EXPOSING one, else to
the first of the plan queue that serves it; when none serves it, the lowest FREE entry is planned from the shot, joins
the plan queue, and the shot is linked to it. That it is planned with the shot's duration also where this is 0 or above
4,294,967,295 is log 42. A shot linked to a READY entry has its APPLY_DARK placed. -/
def Obligations.AwaitingShotIsMatchedOrPlanned : Prop :=
  ∀ (r : Record) (v : ExpEntry) (d : Nat) (temperature : Int) (s : State),
    s.part = .restarting → s.card.state ≠ .ejecting → s.pool.darkClaim = false →
    (slotNumbers s).Nodup → s.dark.entries.length = 8 → r ∈ residents s → r.darkLink = .awaiting →
    (∀ r' ∈ residents s, r'.darkLink = .awaiting → r' = r) → r.exposures = [v] → v.status = .done →
    v.duration = some d → v.temperature = some temperature →
    ∃ t : State, exec .restartComplete s = .next t ∧ t.part = .running ∧
      (∀ e x band taken p, s.dark.entries[e]? = some x → x.state = .ready band taken p →
        Serves s.timeBase x d (temperature / 8) →
        (∀ (e' : Nat) (x' : DarkEntry) (band' : Int) (taken' : Time) (p' : Nat),
            s.dark.entries[e']? = some x' → x'.state = .ready band' taken' p' →
          Serves s.timeBase x' d (temperature / 8) →
          (s.timeBase - taken).toNat < (s.timeBase - taken').toNat ∨
          ((s.timeBase - taken).toNat = (s.timeBase - taken').toNat ∧ e ≤ e')) →
        (∃ y ∈ residents t, y.number = r.number ∧ y.darkLink = .linked e) ∧ t.dark = s.dark ∧
        (s.pau = [] → ∃ q ∈ t.pau, q.op = .applyDark e ∧ q.shot = r.number ∧ q.source = p ∧
          q.destination = r.rawPlane.getD 0 ∧ q.running = true)) ∧
      ((∀ (e' : Nat) (x' : DarkEntry) (band' : Int) (taken' : Time) (p' : Nat),
            s.dark.entries[e']? = some x' → x'.state = .ready band' taken' p' →
          ¬ Serves s.timeBase x' d (temperature / 8)) →
        (∀ e x p, s.dark.entries[e]? = some x → x.state = .exposing p →
          Serves s.timeBase x d (temperature / 8) →
          (∀ (e' : Nat) (x' : DarkEntry) (p' : Nat), s.dark.entries[e']? = some x' → x'.state = .exposing p' →
            Serves s.timeBase x' d (temperature / 8) → e ≤ e') →
          (∃ y ∈ residents t, y.number = r.number ∧ y.darkLink = .linked e) ∧ t.dark = s.dark) ∧
        ((∀ (e' : Nat) (x' : DarkEntry) (p' : Nat), s.dark.entries[e']? = some x' → x'.state = .exposing p' →
            ¬ Serves s.timeBase x' d (temperature / 8)) →
          (∀ before e after x, s.dark.plan = before ++ e :: after → s.dark.entries[e]? = some x →
            x.state = .planned → Serves s.timeBase x d (temperature / 8) →
            (∀ e' ∈ before, ∀ x', s.dark.entries[e']? = some x' →
              ¬ Serves s.timeBase x' d (temperature / 8)) →
            (∃ y ∈ residents t, y.number = r.number ∧ y.darkLink = .linked e) ∧ t.dark = s.dark) ∧
          (∀ e x, (∀ (e' : Nat) (x' : DarkEntry), s.dark.entries[e']? = some x' →
              ¬ Serves s.timeBase x' d (temperature / 8)) →
            s.dark.entries[e]? = some x → x.state = .free →
            (∀ e' x', e' < e → s.dark.entries[e']? = some x' → x'.state ≠ .free) →
            e ∉ s.dark.plan →
            (∃ y ∈ residents t, y.number = r.number ∧ y.darkLink = .linked e) ∧
            t.dark.plan = s.dark.plan ++ [e] ∧
            (∃ z, t.dark.entries[e]? = some z ∧ z.state = .planned ∧ z.duration = d ∧
              z.plannedBand = temperature / 8 ∧ (r.rollSlot = none → z.reuseAge = 600) ∧
              ∀ i m q, r.rollSlot = some i → s.rolls.slots[i]? = some m → m.roll? = some q →
                z.reuseAge = q.reuseAge))))

/-- The Plane Arithmetic Unit (R93 to R95): a QUEUED ACCUMULATE is started before any APPLY_DARK; an ACCUMULATE adds the
scratch plane to the raw plane; an APPLY_DARK subtracts the dark, as often as the shot has exposures, not below 0, and
makes the LINKED shot APPLIED, a WAIVED one keeping its link; the completed request leaves the queue; no byte outside
the destination changes. The values are those of memory in its canonical form, which every step keeps. -/
def Obligations.ArithmeticUnitStartsAndCompletes : Prop :=
  (∀ s : State, (s.pau = [] ∨ ∃ q ∈ s.pau, q.running = true) → exec .pauStart s = .next s) ∧
  (∀ (q : PauRequest) (i : Nat) (s : State), (∀ a ∈ s.pau, a.running = false) → s.pau[i]? = some q →
    ((q.op = .accumulate ∧ ∀ j a, j < i → s.pau[j]? = some a → a.op ≠ .accumulate) ∨
      (i = 0 ∧ ∀ a ∈ s.pau, a.op ≠ .accumulate)) →
    exec .pauStart s = .next { s with
      pau := s.pau.set i
        { q with running := true, scale := ((findRecord s q.shot).map exposureCount).getD 0 } }) ∧
  (∀ (q : PauRequest) (s : State), s.pau.find? (·.running) = some q → q.op = .accumulate →
    q.source ≠ q.destination →
    ∃ t : State, exec .accumulateDone s = .next t ∧ SameOutsidePlane q.destination s t ∧
      (Canonical s → ∀ i, i < s.seq.columns * s.seq.rows → i < 100663296 →
        readValue t.mem q.destination i =
          readValue s.mem q.destination i + readValue s.mem q.source i) ∧
      (∀ i, s.seq.columns * s.seq.rows ≤ i → i < 100663296 →
        readValue t.mem q.destination i = readValue s.mem q.destination i) ∧
      ((∀ a ∈ s.pau, a.running = false → a.op ≠ .accumulate) → ∀ a ∈ t.pau, a.op ≠ .accumulate) ∧
      (∀ n x, s.seq.state = .accumulate → s.seq.openShot = some n → findRecord s n = some x →
        (x.kind.target ≤ s.seq.k → t.seq.openShot = none ∧
          (t.seq.state = .idle ∨ t.seq.state = .dark)) ∧
        (s.seq.k < x.kind.target → t.seq.openShot = some n ∧ t.seq.state = .stackWait))) ∧
  (∀ (q : PauRequest) (e : Nat) (s : State), s.pau.find? (·.running) = some q →
    q.op = .applyDark e → q.source ≠ q.destination →
    ∃ t : State, exec .applyDarkDone s = .next t ∧ SameOutsidePlane q.destination s t ∧
      (Canonical s → ∀ i, q.resume ≤ i → i < s.seq.columns * s.seq.rows → i < 100663296 →
        (readValue t.mem q.destination i).toNat =
          (readValue s.mem q.destination i).toNat - q.scale * (readValue s.mem q.source i).toNat) ∧
      (∀ i, (i < q.resume ∨ s.seq.columns * s.seq.rows ≤ i) → i < 100663296 →
        readValue t.mem q.destination i = readValue s.mem q.destination i) ∧
      (∀ x, findRecord s q.shot = some x → s.card.state ≠ .ejecting → (slotNumbers s).Nodup →
        (x.darkLink = .linked e → ∃ y ∈ residents t, y.number = q.shot ∧ y.darkLink = .applied) ∧
        (x.darkLink = .waived → ∃ y ∈ residents t, y.number = q.shot ∧ y.darkLink = .waived) ∧
        ((x.darkLink = .linked e ∨ x.darkLink = .waived) →
          (∀ a ∈ s.pau, a.running = false → a.shot ≠ q.shot) → ∀ a ∈ t.pau, a.shot ≠ q.shot)))

/-! ### Development and previews -/

/-- DEVELOP (R129, R130): the refusals, the FULL rendition already made, and the job placed, which holds the request
until it completes, or none at priority 0. Where the queue holds a job for the shot and kind the placing merges into it
(R113): a QUEUED one takes the larger priority and the shot's current key, a RUNNING one keeps its key, and the request
joins the waiters. DEV_FLOOR (R131): the floor takes the value given, and the floor in force is answered with the number
of jobs in the queue. -/
def Obligations.DevelopAndDevFloor : Prop :=
  (∀ (tag n kind priority : Nat) (s : State), CanTake tag s →
     ((n = 0 ∨ 1 < kind ∨ 7 < priority) →
       exec (.develop tag n kind priority) s = .next (answerCode tag .badOperand (holdTag tag s))) ∧
     (n ≠ 0 → kind ≤ 1 → priority ≤ 7 → (∀ r ∈ residents s, r.number ≠ n) →
       exec (.develop tag n kind priority) s = .next (answerCode tag
         (if s.table.slots.any (RecordSlot.loads n) then .busy else .notFound)
         (holdTag tag s))) ∧
     (∀ r, n ≠ 0 → kind ≤ 1 → priority ≤ 7 → findRecord s n = some r →
       ((r.life = .opened ∨ r.life = .retiring) →
         exec (.develop tag n kind priority) s = .next (answerCode tag .busy (holdTag tag s))) ∧
       (r.life = .void →
         exec (.develop tag n kind priority) s = .next (answerCode tag .notFound (holdTag tag s))) ∧
       (∀ k, (r.life = .held ∨ r.life = .settled) →
         k = DevKey.mk r.recipe ((s.recipes.getD r.recipe .reset).generation) →
         (kind = 1 → (r.devPending = some k ∨ (∃ f, r.devFile = some f ∧ f.key = k) ∨
             ∃ h ∈ s.card.handoffs, h.shot = n ∧ h.key = k) →
           exec (.develop tag n kind priority) s = .next (answer tag .ok (.key k) (holdTag tag s))) ∧
         ((kind = 0 ∨ (r.devPending ≠ some k ∧ (∀ f, r.devFile = some f → f.key ≠ k) ∧
             ∀ h ∈ s.card.handoffs, h.shot = n → h.key ≠ k)) →
           ∃ t : State, exec (.develop tag n kind priority) s = .next t ∧
             ((∀ j ∈ s.dev.queue, ¬ (j.shot = n ∧ j.kind = (if kind = 0 then .preview else .full))) →
               (16 ≤ s.dev.queue.length → Answered t tag .queueFull .empty) ∧
               (s.dev.queue.length < 16 → priority = 0 → Answered t tag .ok .empty) ∧
               (s.dev.queue.length < 16 → s.card.state ≠ .ejecting →
                 ∃ j ∈ t.dev.queue, j.shot = n ∧ j.kind = (if kind = 0 then .preview else .full) ∧
                   j.priority = priority ∧ j.key = k ∧ j.waiters = if priority = 0 then [] else [tag])) ∧
             (∀ i j, OnlyJob s n (if kind = 0 then .preview else .full) i j →
               (priority = 0 → Answered t tag .ok .empty) ∧
               (s.card.state ≠ .ejecting →
                 MergedInto i j priority k (if priority = 0 then none else some tag) s t)))))) ∧
  (∀ (tag : Nat) (s : State), CanTake tag s →
     (exec (.devFloor tag none) s = .next
       (answer tag .ok (.devFloor s.dev.floor s.dev.queue.length) (holdTag tag s))) ∧
     (∀ f, (f = 0 ∨ 7 < f) →
       exec (.devFloor tag (some f)) s = .next (answerCode tag .badOperand (holdTag tag s))) ∧
     (∀ f, 1 ≤ f → f ≤ 7 →
       ∃ t : State, exec (.devFloor tag (some f)) s = .next t ∧ t.dev.floor = f ∧
         Answered t tag .ok (.devFloor f s.dev.queue.length)))

/-- The engine's choice of a job (R115 to R117): among the jobs that may run the highest priority and, between equals,
the earliest arrival. The job chosen runs under its shot's current key. A HELD shot's develops at DEMOSAIC from its raw
plane; a SETTLED shot's is FETCHING: a single plane, or the lower of two, is the fetch plane, and the fetch read joins
the read queue. When none may run nothing is dispatched, and the engine claim waits just when some job lacks only planes
(R91). -/
def Obligations.EngineChoosesItsJob : Prop :=
  ∀ s : State, s.dev.engine = .idle → s.dev.readout = false → s.part = .running →
    (∀ before j after r, s.dev.queue = before ++ j :: after → findRecord s j.shot = some r → MayRun s j →
      (∀ x ∈ before, MayRun s x → x.priority < j.priority) →
      (∀ x ∈ after, MayRun s x → x.priority ≤ j.priority) →
      (∀ x, x ∈ before ∨ x ∈ after → ¬ (x.shot = j.shot ∧ x.kind = j.kind)) →
      ∃ t : State, exec .dispatch s = .next t ∧
        t.dev.queue = before ++
          { j with
            running := true
            key := { recipe := r.recipe, generation := (s.recipes.getD r.recipe .reset).generation } } ::
          after ∧
        (r.life = .held → t.dev.engine = .active (.developing .demosaic)) ∧
        (r.life = .settled → t.dev.engine = .fetching) ∧ t.pool.engineClaim = false ∧
        (∃ h, t.dev.holds = some h ∧ h.recipe = s.recipes.getD r.recipe .reset) ∧
        (r.life = .held → j.kind = .preview → t.pool.owners = s.pool.owners) ∧
        (∀ p, r.life = .held → j.kind = .full → LowestAt s.pool.owners .free p →
          t.pool.owners = s.pool.owners.set p .devOutput) ∧
        (∀ p, r.life = .settled → LowestAt s.pool.owners .free p →
          CardRead.fetch j.shot p r.rawRuns ∈ t.card.reads ∧
          (j.kind = .preview → t.pool.owners = s.pool.owners.set p .devFetch) ∧
          (∀ q, j.kind = .full → p < q → s.pool.owners[q]? = some .free →
            (∀ i, p < i → i < q → s.pool.owners[i]? ≠ some .free) →
            t.pool.owners = (s.pool.owners.set p .devFetch).set q .devOutput))) ∧
    ((∀ x ∈ s.dev.queue, ¬ MayRun s x) →
      ∃ t : State, exec .dispatch s = .next t ∧ t.dev = s.dev ∧ t.cache = s.cache ∧
        t.pool.owners = s.pool.owners ∧
        (t.pool.engineClaim = true ↔
          ∃ x ∈ s.dev.queue, ∃ r, findRecord s x.shot = some r ∧ MayRunButPlanes s x r))

/-- The engine's work (R115 to R117, R120, R122 to R125, R133, R135): a job alone in the queue is dispatched to its
plane or slot, the stages follow in order, and at the end of OUTPUT the rendition is written. A PREVIEW's slot is then
VALID under the job's shot and key, of the size R133 gives for a recipe without crop and rotation, most recently used
and pinned for each waiter up to seven; the waiters are answered, OK or STALE, and PIN_LIMIT beyond the seventh. The
other VALID slots under the same shot and key are superseded: an unpinned one is FREE, unless the dispatch of the same
event takes it, and a pinned one keeps its tag. A current FULL's plane passes to a hand-off at the end of the list and
its waiters are answered; an older hand-off of the shot whose write has not started leaves the list, its plane freed,
and one whose write has started stays. A stale FULL job returns to QUEUED in its place in the queue, with its priority
and its waiters, under the shot's current key; no waiter is answered and its output plane is freed, which the dispatch
of the same event may take. A record that is HELD and ON_CARD settles at the end of its job, its raw plane freed, and
any other keeps its life and its raw plane (R126). The bytes are those of the rendition that the slot or the hand-off
names, which are free values (log 14); that slot `i` begins at address 4026531840 + `i` * 3145728 is the model's choice
(log 13). -/
def Obligations.EngineRunsItsJob : Prop :=
  (∀ (j : Job) (r : Record) (s : State), s.dev.engine = .idle → s.dev.readout = false →
    s.part = .running → s.dev.queue = [j] → j.running = false → findRecord s j.shot = some r →
    r.life = .held → (r.darkLink = .notRequired ∨ r.darkLink = .applied ∨ r.darkLink = .waived) →
    (∀ q ∈ s.pau, q.running = false) → s.dev.floor ≤ j.priority →
    (∀ (i : Nat) (x : PreviewSlot), j.kind = .preview → s.cache.slots[i]? = some x → x.state = .free →
      (∀ (k : Nat) (y : PreviewSlot), k < i → s.cache.slots[k]? = some y → y.state ≠ .free) →
      ∃ t : State, exec .dispatch s = .next t ∧
        t.dev.engine = .active (.developing .demosaic) ∧
        t.dev.queue = [{ j with
          running := true,
          key := { recipe := r.recipe, generation := (s.recipes.getD r.recipe .reset).generation } }] ∧
        t.cache.slots[i]? = some { state := .filling, pins := 0 } ∧ t.pool.owners = s.pool.owners) ∧
    (∀ p, j.kind = .full → LowestAt s.pool.owners .free p →
      ∃ t : State, exec .dispatch s = .next t ∧
        t.dev.engine = .active (.developing .demosaic) ∧
        t.dev.queue = [{ j with
          running := true,
          key := { recipe := r.recipe, generation := (s.recipes.getD r.recipe .reset).generation } }] ∧
        t.pool.owners = s.pool.owners.set p .devOutput ∧ t.cache = s.cache)) ∧
  (∀ s : State, (s.dev.engine ≠ .idle ∨ s.dev.readout = true ∨ s.part ≠ .running) →
    ∃ t : State, exec .dispatch s = .next t ∧ t.dev = s.dev ∧ t.cache = s.cache ∧
      t.pool.owners = s.pool.owners) ∧
  (∀ (st : Stage) (s : State), s.dev.engine = .active (.developing st) →
    exec .stageEnd s = .next { s with dev := { s.dev with engine :=
      match st with
        | .demosaic => .active (.developing .colour)
        | .colour => .active (.developing .tone)
        | .tone => .active (.developing .detail)
        | .detail => .active (.developing .scale)
        | .scale => .active .output } }) ∧
  (∀ (j : Job) (h : RunHolds) (r : Record) (key : DevKey) (s : State),
    s.dev.engine = .active .output → s.dev.queue.find? (·.running) = some j →
    s.dev.holds = some h → findRecord s j.shot = some r →
    key = DevKey.mk r.recipe ((s.recipes.getD r.recipe .reset).generation) →
    (∀ i, j.kind = .preview → h.slot = some i → i < s.cache.slots.length →
      ∃ t : State, exec .outputEnd s = .next t ∧
        (∀ k tag, j.waiters[k]? = some tag →
          (k < 7 → Answered t tag (if key = j.key then .ok else .stale) (.previewMade i j.key)) ∧
          (7 ≤ k → Answered t tag .pinLimit .empty)) ∧
        (∀ x ∈ t.dev.queue, ¬ (x.shot = j.shot ∧ x.kind = .preview)) ∧
        (s.card.state ≠ .ejecting → ∀ m w v st seed pins, m ≠ i →
          s.cache.slots[m]? = some { state := .valid (some (j.shot, j.key)) w v st seed, pins := pins } →
          (pins = 0 → t.cache.slots[m]? = some { state := .free, pins := 0 } ∨
            (t.dev.engine ≠ .idle ∧ t.cache.slots[m]? = some { state := .filling, pins := 0 })) ∧
          (0 < pins → t.cache.slots[m]? = s.cache.slots[m]?)) ∧
        ((j.waiters ≠ [] ∨ s.dev.queue = [j]) → s.card.state ≠ .ejecting →
          ∃ w v seed,
            t.cache.slots[i]? = some
              { state := .valid (some (j.shot, j.key)) w v false seed,
                pins := min 7 j.waiters.length } ∧
            t.cache.useOrder.getLast? = some i ∧
            (∀ f, h.recipe.crop = none → h.recipe.rotation = 0 → 1 ≤ f →
              s.seq.columns ≤ 1024 * f → s.seq.rows ≤ 1024 * f →
              (f = 1 ∨ 1024 * (f - 1) < s.seq.columns ∨ 1024 * (f - 1) < s.seq.rows) →
              w = max 1 (s.seq.columns / f) ∧ v = max 1 (s.seq.rows / f)) ∧
            (Canonical s → ∀ k, k < 3 * w * v → k < 3145728 →
              Memory.read t.mem (4026531840 + i * 3145728 + k) = Config.renditionByte seed k))) ∧
    (∀ p, j.kind = .full → h.output = some p → key = j.key →
      ∃ t : State, exec .outputEnd s = .next t ∧
        (∀ tag ∈ j.waiters, Answered t tag .ok (.key j.key)) ∧
        (∀ x ∈ t.dev.queue, ¬ (x.shot = j.shot ∧ x.kind = .full)) ∧
        (s.card.state ≠ .ejecting → (p :: s.card.handoffs.map Handoff.plane).Nodup →
          (t.card.handoffs.map Handoff.plane).getLast? = some p ∧
          ∀ x ∈ s.card.handoffs, x.shot = j.shot →
            (x.writing = true → x ∈ t.card.handoffs) ∧
            (x.writing = false → (∀ y ∈ t.card.handoffs, y.plane ≠ x.plane) ∧
              (t.dev.engine = .idle → s.pool.darkClaim = false → x.plane < s.pool.owners.length →
                t.pool.owners[x.plane]? = some .free))) ∧
        (s.card.state ≠ .ejecting → ∃ x ∈ t.card.handoffs, x.shot = j.shot ∧ x.key = j.key ∧
          x.plane = p ∧
          (p < s.pool.owners.length → r.rawPlane ≠ some p →
            t.pool.owners[p]? = some (.handoff j.shot j.key)) ∧
          (h.recipe.crop = none → h.recipe.rotation = 0 → h.recipe.halfScale = false →
            x.width = s.seq.columns ∧ x.height = s.seq.rows) ∧
          (Canonical s → ∀ k, k < 3 * x.width * x.height → k < 402653184 →
            Memory.read t.mem (planeBase p + k) = Config.renditionByte x.seed k))) ∧
    (∀ p, j.kind = .full → h.output = some p → key ≠ j.key → s.card.state ≠ .ejecting →
      ∃ t : State, exec .outputEnd s = .next t ∧
        t.dev.queue.map (fun x => (x.shot, x.kind, x.priority, x.waiters)) =
          s.dev.queue.map (fun x => (x.shot, x.kind, x.priority, x.waiters)) ∧
        t.link.queue = s.link.queue ∧ t.card.handoffs.map Handoff.plane = s.card.handoffs.map Handoff.plane ∧
        (∀ i, OnlyJob s j.shot .full i j → ∃ x, t.dev.queue[i]? = some x ∧ x.key = key ∧
          (t.dev.engine = .idle → x.running = false)) ∧
        (t.dev.engine = .idle → s.pool.darkClaim = false → p < s.pool.owners.length →
          t.pool.owners[p]? = some .free)) ∧
    (s.card.state ≠ .ejecting → ∃ t : State, exec .outputEnd s = .next t ∧
      ∃ y ∈ residents t, y.number = j.shot ∧
        (r.life = .held → r.rawCard = .onCard → y.life = .settled ∧ y.rawPlane = none ∧
          ∀ p, r.rawPlane = some p → p < s.pool.owners.length →
            s.pool.darkClaim = false → t.dev.engine = .idle → t.pool.owners[p]? = some .free) ∧
        (¬ (r.life = .held ∧ r.rawCard = .onCard) → y.life = r.life ∧ y.rawPlane = r.rawPlane)))

/-- GET_PREVIEW (R136, R137). Of a resident shot: the most recently used slot under the shot's current key is pinned and
answered, PIN_LIMIT at seven pins; without one a PREVIEW job is placed at the priority of the roll's auto preview, or 6,
or the request joins the PREVIEW job that the queue holds for the shot (R113). Of a shot that is not resident: BUSY
while its record is loading, NO_CARD, NOT_FOUND, and a hit on the most recently used slot that shows it with its
standing set and its key still current, or NOT_FOUND when no slot does, also when a RECIPE_SET has made the key of a
standing slot an old one. A hit leaves every block but the Link Port and the Preview Cache, save that an engine claim
may be withdrawn, when no job lacks only planes any more (R91). -/
def Obligations.GetPreviewPinsHit : Prop :=
  ∀ (tag n : Nat) (s : State), CanTake tag s →
    (n = 0 → exec (.getPreview tag n) s = .next (answerCode tag .badOperand (holdTag tag s))) ∧
    (∀ r, n ≠ 0 → findRecord s n = some r → (r.life = .opened ∨ r.life = .retiring) →
      exec (.getPreview tag n) s = .next (answerCode tag .busy (holdTag tag s))) ∧
    (∀ r, n ≠ 0 → findRecord s n = some r → r.life = .void →
      exec (.getPreview tag n) s = .next (answerCode tag .notFound (holdTag tag s))) ∧
    (∀ r k, n ≠ 0 → findRecord s n = some r → (r.life = .held ∨ r.life = .settled) →
      k = DevKey.mk r.recipe ((s.recipes.getD r.recipe .reset).generation) →
      (∀ i older newer w h st seed pins, s.cache.useOrder = older ++ i :: newer → i ∉ newer →
        s.cache.slots[i]? = some { state := .valid (some (n, k)) w h st seed, pins := pins } →
        (∀ j ∈ newer, ∀ y, s.cache.slots[j]? = some y →
          ∀ w' h' st' seed', y.state ≠ .valid (some (n, k)) w' h' st' seed') →
        (pins = 7 → exec (.getPreview tag n) s = .next (answerCode tag .pinLimit (holdTag tag s))) ∧
        (pins < 7 → ∃ claim : Bool, (claim = true → s.pool.engineClaim = true) ∧
          exec (.getPreview tag n) s = .next
            { answer tag .ok (.previewHit i k w h (pins + 1)) (holdTag tag s) with
              cache := {
                slots := s.cache.slots.set i
                  { state := .valid (some (n, k)) w h st seed, pins := pins + 1 },
                useOrder := s.cache.useOrder.filter (· != i) ++ [i] },
              pool := { s.pool with engineClaim := claim } })) ∧
      ((∀ x ∈ s.cache.slots, ∀ w h st seed, x.state ≠ .valid (some (n, k)) w h st seed) →
        ∃ t : State, exec (.getPreview tag n) s = .next t ∧
          ((∀ j ∈ s.dev.queue, ¬ (j.shot = n ∧ j.kind = .preview)) →
            (16 ≤ s.dev.queue.length → Answered t tag .queueFull .empty ∧
              (s.card.state ≠ .ejecting → t.dev.queue.length = s.dev.queue.length)) ∧
            (s.dev.queue.length < 16 → s.card.state ≠ .ejecting → ∀ p, MissPriority s r p →
              ∃ j ∈ t.dev.queue, j.shot = n ∧ j.kind = .preview ∧ j.waiters = [tag] ∧ j.priority = p ∧
                j.key = k)) ∧
          (s.card.state ≠ .ejecting → ∀ i j p, OnlyJob s n .preview i j → MissPriority s r p →
            MergedInto i j p k (some tag) s t))) ∧
    (n ≠ 0 → (∀ r ∈ residents s, r.number ≠ n) →
      ((∃ ws, RecordSlot.loading n ws ∈ s.table.slots) →
        exec (.getPreview tag n) s = .next (answerCode tag .busy (holdTag tag s))) ∧
      ((∀ ws, RecordSlot.loading n ws ∉ s.table.slots) →
        (s.card.state ≠ .ready → s.card.state ≠ .readOnly → s.card.state ≠ .ejecting →
          exec (.getPreview tag n) s = .next (answerCode tag .noCard (holdTag tag s))) ∧
        ((s.card.state = .ready ∨ s.card.state = .readOnly ∨ s.card.state = .ejecting) →
          ((∀ x ∈ s.card.index, x.shot ≠ n) →
            exec (.getPreview tag n) s = .next (answerCode tag .notFound (holdTag tag s))) ∧
          ((∃ x ∈ s.card.index, x.shot = n) →
            (∀ i older newer k w h seed pins, s.cache.useOrder = older ++ i :: newer → i ∉ newer →
              s.cache.slots[i]? = some { state := .valid (some (n, k)) w h true seed, pins := pins } →
              k.generation = (s.recipes.getD k.recipe .reset).generation →
              (∀ j ∈ newer, ∀ y, s.cache.slots[j]? = some y → ¬ Stands s n y) →
              (pins = 7 →
                exec (.getPreview tag n) s = .next (answerCode tag .pinLimit (holdTag tag s))) ∧
              (pins < 7 → ∃ claim : Bool, (claim = true → s.pool.engineClaim = true) ∧
                exec (.getPreview tag n) s = .next
                  { answer tag .ok (.previewHit i k w h (pins + 1)) (holdTag tag s) with
                    cache := {
                      slots := s.cache.slots.set i
                        { state := .valid (some (n, k)) w h true seed, pins := pins + 1 },
                      useOrder := s.cache.useOrder.filter (· != i) ++ [i] },
                    pool := { s.pool with engineClaim := claim } })) ∧
            ((∀ x ∈ s.cache.slots, ¬ Stands s n x) →
              exec (.getPreview tag n) s = .next (answerCode tag .notFound (holdTag tag s)))))))

/-- READ_PREVIEW (R133, R138): the bytes of a pinned slot's preview from the offset, as many as were asked for or
remain, as they stand in the slot's part of frame memory (its place is log 13); nothing of the slot changes.
UNPIN_PREVIEW (R139): the pin count steps down by one and is answered; an ORPHANED slot with no pin left is no longer
VALID. -/
def Obligations.PreviewsAreReadAndUnpinned : Prop :=
  (∀ (tag i offset length : Nat) (s : State), CanTake tag s →
     ((7 < i ∨ length = 0 ∨ 4096 < length) →
       exec (.readPreview tag i offset length) s =
         .next (answerCode tag .badOperand (holdTag tag s))) ∧
     (∀ x, i ≤ 7 → 1 ≤ length → length ≤ 4096 → s.cache.slots[i]? = some x → x.pins = 0 →
       exec (.readPreview tag i offset length) s =
         .next (answerCode tag .notPinned (holdTag tag s))) ∧
     (∀ owner w h st seed pins, i ≤ 7 → 1 ≤ length → length ≤ 4096 →
       s.cache.slots[i]? = some { state := .valid owner w h st seed, pins := pins } → 0 < pins →
       (3 * w * h ≤ offset →
         exec (.readPreview tag i offset length) s =
           .next (answerCode tag .badOperand (holdTag tag s))) ∧
       (offset < 3 * w * h →
         ∃ bytes : List Byte, bytes.length = min length (3 * w * h - offset) ∧
           (∀ k b, bytes[k]? = some b →
             b = Memory.read s.mem (4026531840 + i * 3145728 + (offset + k))) ∧
           exec (.readPreview tag i offset length) s = .next
             (answer tag .ok (.previewBytes owner w h (3 * w * h) bytes) (holdTag tag s))))) ∧
  (∀ (tag i : Nat) (s : State), CanTake tag s →
     (7 < i → exec (.unpinPreview tag i) s = .next (answerCode tag .badOperand (holdTag tag s))) ∧
     (∀ x, i ≤ 7 → s.cache.slots[i]? = some x → x.pins = 0 →
       exec (.unpinPreview tag i) s = .next (answerCode tag .notPinned (holdTag tag s))) ∧
     (∀ x, i ≤ 7 → s.cache.slots[i]? = some x → 0 < x.pins →
       ∃ t : State, exec (.unpinPreview tag i) s = .next t ∧
         Answered t tag .ok (.pins (x.pins - 1)) ∧
         (s.card.state ≠ .ejecting → 1 < x.pins → x.isValid = true →
           t.cache.slots[i]? = some { x with pins := x.pins - 1 }) ∧
         (∀ w h st seed, s.card.state ≠ .ejecting → x.pins = 1 → x.state = .valid none w h st seed →
           ∃ y, t.cache.slots[i]? = some y ∧ (y.state = .free ∨ y.state = .filling))))

/-! ### Reports -/

/-- STATUS, CARD_QUERY, SHOT_LIST and ROLL_QUERY (R182, R161, R26, R40): what they report, and that they change nothing
but the Link Port. STATUS counts its own tag as HELD and not its own answer (log 40). CARD_QUERY counts as EMPTY the
catalogue slots that are neither LIVE nor DAMAGED nor reserved for a record in CATALOGUING (log 34). SHOT_LIST reports
each shot once, in ascending order; that it takes every roll label, also one with unprintable bytes, is the model's
choice (log 44). ROLL_QUERY reports the slot asked for, or the current roll, with its state, its settings, whether it is
current, and how many resident records name it. -/
def Obligations.ReportsChangeNothing : Prop :=
  (∀ (tag : Nat) (s : State), tag ≤ 7 → tag ∉ s.link.held →
    ∃ r : StatusReport, exec (.status tag) s = .next (answer tag .ok (.status r) (holdTag tag s)) ∧
      r.part = s.part ∧ r.seq = s.seq.state ∧ r.current = s.rolls.current ∧ r.engine = s.dev.engine ∧
      r.card = s.card.state ∧ r.freePlanes = s.pool.owners.countP (· == .free) ∧
      r.opened = (residents s).countP (·.life == .opened) ∧
      r.held = (residents s).countP (·.life == .held) ∧
      r.settled = (residents s).countP (·.life == .settled) ∧
      r.void = (residents s).countP (·.life == .void) ∧
      r.retiring = (residents s).countP (·.life == .retiring) ∧
      r.loading = s.table.slots.countP (fun x => x != .free && x.record?.isNone) ∧
      r.heldTags = s.link.held.length + 1 ∧ r.answers = s.link.queue.length ∧
      r.pending = s.notices.kinds.countP (·.pending) ∧ r.causes = s.causes) ∧
  (∀ (tag : Nat) (s : State), CanTake tag s →
    ∃ r : CardReport, exec (.cardQuery tag) s = .next (answer tag .ok (.card r) (holdTag tag s)) ∧
      r.state = s.card.state ∧ r.identity = s.card.identity ∧ r.volume = s.card.volume ∧
      (s.card.indexHeld = true → r.liveEntries = s.card.index.length ∧
        r.damaged = s.card.damaged.length ∧ r.freeClusters = (s.card.map.map Run.length).sum ∧
        r.emptySlots = 4096 - s.card.index.length - s.card.damaged.length -
          (residents s).countP (fun x => x.rawCard == .cataloguing && x.catSlot.isSome)) ∧
      (s.card.indexHeld = false → r.liveEntries = 0 ∧ r.damaged = 0 ∧ r.freeClusters = 0 ∧
        r.emptySlots = 0) ∧
      r.full = s.card.full ∧ r.readDepth = s.card.reads.length ∧
      r.entryWrites = s.card.entries.length ∧ r.handoffs = s.card.handoffs.length ∧
      r.markedHandoffs = s.card.handoffs.countP (·.marked) ∧
      r.heldUnwritten = (residents s).countP (fun x => x.life == .held && x.rawCard == .unwritten) ∧
      r.amendments = s.table.amended.length) ∧
  (∀ (tag first count : Nat) (label : Option Label) (s : State), CanTake tag s →
    ((first = 0 ∨ 4294967295 < first ∨ count = 0 ∨ 32 < count) →
      exec (.shotList tag first count label) s =
        .next (answerCode tag .badOperand (holdTag tag s))) ∧
    (1 ≤ first → first ≤ 4294967295 → 1 ≤ count → count ≤ 32 →
      ∃ items : List ListItem,
        items.Pairwise (fun a b => a.number ≤ b.number) ∧
        (ShotNumbersAgree s → IndexAgrees s → items.Pairwise (fun a b => a.number < b.number)) ∧
        (∀ x, x ∈ items ↔ first ≤ x.number ∧ (∀ l, label = some l → x.label = l) ∧
          ((∃ r ∈ residents s, r.life ≠ .retiring ∧
              x = { number := r.number, frame := r.frame, label := r.label, life := some r.life }) ∨
            ((s.card.state = .ready ∨ s.card.state = .readOnly ∨ s.card.state = .ejecting) ∧
              ∃ e ∈ s.card.index, (∀ r ∈ residents s, r.number ≠ e.shot) ∧
                x = { number := e.shot, frame := e.frame, label := e.label, life := none }))) ∧
        exec (.shotList tag first count label) s = .next (answer tag .ok
          (.list (items.take count) (decide (count < items.length))
            (decide (s.card.state = .ready ∨ s.card.state = .readOnly ∨ s.card.state = .ejecting)))
          (holdTag tag s)))) ∧
  (∀ (tag : Nat) (s : State), CanTake tag s →
     (∀ i, 15 < i →
       exec (.rollQuery tag (some i)) s = .next (answerCode tag .badOperand (holdTag tag s))) ∧
     (s.rolls.current = none →
       exec (.rollQuery tag none) s = .next (answerCode tag .noRoll (holdTag tag s))) ∧
     (∀ i x asked, s.rolls.slots[i]? = some x → ((asked = some i ∧ i ≤ 15) ∨
         (asked = none ∧ s.rolls.current = some i)) →
       exec (.rollQuery tag asked) s = .next (answer tag .ok
         (.roll i x (decide (s.rolls.current = some i))
           ((residents s).countP fun r => decide (r.rollSlot = some i))) (holdTag tag s))))

/-- TAKE_NOTICE and NOTICE_LEVELS (R177, R178): the pending kind of highest level and lowest rank is reported
and cleared; the levels and the floor given are set and all are reported, and level 0 clears a kind. -/
def Obligations.NoticesAreTakenByLevelAndRank : Prop :=
  (∀ (tag : Nat) (s : State), CanTake tag s →
    (∀ x ∈ s.notices.kinds, x.pending = true → x.level = 0) →
    exec (.takeNotice tag) s = .next (answer tag .ok (.notice 0 0 none 0) (holdTag tag s))) ∧
  (∀ (tag i : Nat) (x : Notice) (s : State), CanTake tag s → s.notices.kinds[i]? = some x →
    x.pending = true → 0 < x.level →
    (∀ j y, s.notices.kinds[j]? = some y → y.pending = true → y.level < x.level ∨
      (y.level = x.level ∧ i ≤ j)) →
    exec (.takeNotice tag) s = .next
      { answer tag .ok (.notice (i + 1) x.count x.subject
          ((s.notices.kinds.countP fun y => y.pending && decide (0 < y.level)) - 1)) (holdTag tag s) with
        notices := { s.notices with
          kinds := s.notices.kinds.set i { x with pending := false, count := 0, subject := none } } }) ∧
  (∀ (tag : Nat) (levels : List (Option Nat)) (floor : Option Nat) (s : State), CanTake tag s →
    levels.length = 15 → s.notices.kinds.length = 15 →
    (((∃ n, some n ∈ levels ∧ 7 < n) ∨ ∃ n, floor = some n ∧ 7 < n) →
      exec (.noticeLevels tag levels floor) s =
        .next (answerCode tag .badOperand (holdTag tag s))) ∧
    ((∀ n, some n ∈ levels → n ≤ 7) → (∀ n, floor = some n → n ≤ 7) →
      ∃ kinds : List Notice, kinds.length = 15 ∧
        (∀ (i : Nat) (x : Notice), s.notices.kinds[i]? = some x →
          (levels[i]? = some none → kinds[i]? = some x) ∧
          (levels[i]? = some (some 0) →
            kinds[i]? = some { pending := false, count := 0, subject := none, level := 0 }) ∧
          (∀ n, 0 < n → levels[i]? = some (some n) → kinds[i]? = some { x with level := n })) ∧
        exec (.noticeLevels tag levels floor) s = .next
          { answer tag .ok (.levels (kinds.map Notice.level) (floor.getD s.notices.floor))
              (holdTag tag s) with
            notices := { kinds := kinds, floor := floor.getD s.notices.floor } }))

/-! ### The Card Store -/

/-- CARD_EJECT and CARD_FORMAT are decided by the card state (R157 to R159). An accepted eject leaves the card EJECTING
as long as work is in flight, an entry write waits or a rewrite waits; with none of these, at the acceptance or at the
answer that ends the last of them, the drain is complete and the eject is answered OK. That it also stays EJECTING while
a command of abandoned work is on the bus is the model's choice (log 25). The reads not started are refused: loads are
answered NO_CARD and their slots are FREE, and the job of a fetch is QUEUED again. That a discard
flag above 1 is answered BAD_OPERAND in every card state is log 24. A format of a READY card is refused while a record
is RETIRING, and while a protected shot is on the card; accepted, it empties the index, the DAMAGED set and the map,
answers the waiting loads NOT_FOUND, drops the SETTLED records and makes the HELD ones UNWRITTEN. What the command on
the bus does is left to its answer, whichever it is: then its load is answered NOT_FOUND, its record is UNWRITTEN, a
RETIRING one is gone, and the card is written. A card of fewer than 4 clusters is left UNFORMATTED and the request
answered CARD_ERROR. Which of this falls in the event of the acceptance and which in that of the answer is log 26. -/
def Obligations.CardRequestsFollowCardState : Prop :=
  (∀ (tag : Nat) (s : State), CanTake tag s →
    (s.card.state ≠ .ready → s.card.state ≠ .readOnly →
      exec (.cardEject tag) s = .next (answerCode tag .noCard (holdTag tag s))) ∧
    ((s.card.state = .ready ∨ s.card.state = .readOnly) →
      ∃ t : State, exec (.cardEject tag) s = .next t ∧
        ((s.card.work.isSome ∨ s.card.bus.isSome ∨ s.card.entries ≠ [] ∨ RewriteWaits s) →
          t.card.state = .ejecting ∧ t.card.ejectTag = some tag ∧ t.card.identity = s.card.identity ∧
          (s.card.bus.isSome → t.card.bus = s.card.bus ∧ t.card.work = s.card.work)) ∧
        ((slotNumbers s).Nodup → s.card.work = none → s.card.bus = none → s.card.entries = [] →
          ¬ RewriteWaits s → DrainEnded (some tag) s t) ∧
        ((slotNumbers s).Nodup → ∀ reads, ReadsWaiting s reads → ReadsRefused s t reads)) ∧
    (∀ discard, 1 < discard →
      exec (.cardFormat tag discard) s = .next (answerCode tag .badOperand (holdTag tag s))) ∧
    (∀ discard, discard ≤ 1 →
      (s.card.state = .readOnly →
        exec (.cardFormat tag discard) s = .next (answerCode tag .cardReadOnly (holdTag tag s))) ∧
      ((s.card.state = .mounting ∨ s.card.state = .ejecting) →
        exec (.cardFormat tag discard) s = .next (answerCode tag .busy (holdTag tag s))) ∧
      ((s.card.state = .absent ∨ s.card.state = .faulted ∨ s.card.state = .ejected) →
        exec (.cardFormat tag discard) s = .next (answerCode tag .noCard (holdTag tag s))) ∧
      (∀ x, s.card.state = .unformatted → s.card.identity = some x → x.writeProtected = true →
        exec (.cardFormat tag discard) s = .next (answerCode tag .cardReadOnly (holdTag tag s))) ∧
      (s.card.state = .ready → discard = 0 →
        exec (.cardFormat tag discard) s = .next (answerCode tag .badOperand (holdTag tag s))) ∧
      (s.card.state = .ready → discard = 1 → (∃ r ∈ residents s, r.life = .retiring) →
        exec (.cardFormat tag discard) s = .next (answerCode tag .busy (holdTag tag s))) ∧
      (s.card.state = .ready → discard = 1 → (∀ r ∈ residents s, r.life ≠ .retiring) →
        ((∃ r ∈ residents s, r.protect = true ∧ (r.rawCard = .cataloguing ∨ r.rawCard = .onCard)) ∨
          (∃ x ∈ s.card.index, x.protect = true ∧ ∀ r ∈ residents s, r.number ≠ x.shot)) →
        exec (.cardFormat tag discard) s = .next (answerCode tag .protectedShot (holdTag tag s))) ∧
      (∀ x, s.card.state = .unformatted → s.card.identity = some x → x.writeProtected = false →
        4 ≤ x.capacity / 2048 → s.card.bus = none →
        ∃ t : State, exec (.cardFormat tag discard) s = .next t ∧ t.card.state = .mounting ∧
          t.card.formatTag = some tag ∧
          GoesOn s t (.format 0 (s.timeBase.toNat % 2 ^ 32) (x.capacity / 2048 - 3))
            (.write 2048 2048 .emptyEntries)) ∧
      (∀ x, s.card.state = .unformatted → s.card.identity = some x → x.writeProtected = false →
        x.capacity / 2048 < 4 →
        ∃ t : State, exec (.cardFormat tag discard) s = .next t ∧ t.card.state = .unformatted ∧
          t.card.formatTag = none ∧ Answered t tag .cardError .empty)) ∧
    (∀ x, s.card.state = .ready → s.card.identity = some x → (∀ r ∈ residents s, r.life ≠ .retiring) →
      (∀ r ∈ residents s, (r.rawCard = .cataloguing ∨ r.rawCard = .onCard) → r.protect = false) →
      (∀ e ∈ s.card.index, e.protect = true →
        ∃ r, findRecord s e.shot = some r ∧ r.rawCard = .onCard) →
      (s.card.bus.isSome →
        ∃ t : State, exec (.cardFormat tag 1) s = .next t ∧
          t.card.state = .mounting ∧ t.card.formatTag = some tag ∧
          t.card.formatWait = some (s.timeBase.toNat % 2 ^ 32) ∧ t.card.identity = s.card.identity ∧
          ((slotNumbers s).Nodup → ClearedForFormat s t)) ∧
      (s.card.bus = none → (slotNumbers s).Nodup →
        ∃ t : State, exec (.cardFormat tag 1) s = .next t ∧ WorkEndedForFormat s t ∧
          (4 ≤ x.capacity / 2048 → t.card.state = .mounting ∧ t.card.formatTag = some tag ∧
            GoesOn s t (.format 0 (s.timeBase.toNat % 2 ^ 32) (x.capacity / 2048 - 3))
              (.write 2048 2048 .emptyEntries)) ∧
          (x.capacity / 2048 < 4 → t.card.state = .unformatted ∧ t.card.formatTag = none ∧
            Answered t tag .cardError .empty)))) ∧
  (∀ (c : Instr) (b : Bus) (x : Identity) (volumeId : Nat) (s : State), s.card.bus = some b →
    b.orphan = false → s.card.formatWait = some volumeId → s.card.state = .mounting →
    s.card.identity = some x → 4 ≤ x.capacity / 2048 → (slotNumbers s).Nodup →
    (c = .cardCommandError ∨ (∃ block, c = .loadReadDone block) ∨
      (∃ n values, c = .fetchReadDone n values) ∨ c = .rawWriteClusterDone ∨ c = .entryWriteDone ∨
      c = .developedWriteClusterDone ∨ c = .developedEntryWriteDone ∨ c = .emptyWriteDone ∨
      c = .dirtyRewriteDone) →
    ∃ t : State, exec c s = .next t ∧ WorkEndedForFormat s t ∧ t.card.formatWait = none ∧
      t.card.state = .mounting ∧ t.card.formatTag = s.card.formatTag ∧
      GoesOn s t (.format 0 volumeId (x.capacity / 2048 - 3)) (.write 2048 2048 .emptyEntries)) ∧
  (∀ (c : Instr) (tag : Nat) (s : State), OnBus s → s.card.state = .ejecting → s.card.ejectTag = some tag →
    (slotNumbers s).Nodup → s.card.entries = [] → (∀ a ∈ s.table.amended, a.taken = true) → s.card.reads.length ≤ 1 →
    ((c = .emptyWriteDone ∧ ∃ n slot, s.card.work = some (.emptyWrite n slot)) ∨
      (c = .dirtyRewriteDone ∧ ∃ n, s.card.work = some (.dirtyRewrite n)) ∨
      (c = .developedEntryWriteDone ∧ ∃ h runs d st, s.card.work = some (.developed h runs d true st)) ∨
      (c = .entryWriteDone ∧ ∃ n slot, s.card.work = some (.entryWrite n slot) ∧
        ∀ r, findRecord s n = some r → r.life = .held) ∨
      (∃ block, c = .loadReadDone block ∧ ∃ n slot, s.card.work = some (.load n slot) ∧
        ∀ ws, RecordSlot.loading n ws ∈ s.table.slots → ∀ w ∈ ws, w.request = .lookup) ∨
      (∃ clusters values, c = .fetchReadDone clusters values ∧ 0 < clusters ∧ ∃ n p runs d,
        s.card.work = some (.fetch n p runs d) ∧ d + clusters = (runs.map Run.length).sum)) →
    ((∀ n slot, s.card.work ≠ some (.load n slot)) → (∀ n p runs d, s.card.work ≠ some (.fetch n p runs d)) →
      s.card.reads = []) →
    ∃ t : State, exec c s = .next t ∧ DrainEnded (some tag) s t)

/-- Card detect (R143, R146, R156, R169): a change of the line restarts the 50 ms timer; a level held for it is
accepted, a card newly present is mounted from IDENTIFY on, and a removal leaves the Card Store ABSENT. At a removal the
loads, the eject and the format are answered NO_CARD, HELD records are UNWRITTEN again, SETTLED records are dropped with
their jobs, whose waiters are answered NO_CARD, and their hand-offs, RETIRING records are gone, and AMEND_LOST counts
the dirty records dropped. A CDET_CHANGE at the level the line has changes nothing (log 1), and INSERTION and REMOVAL
bring the Time Base to the expiry (log 3). -/
def Obligations.CardDetectQualifiesTheLine : Prop :=
  (∀ (present : Bool) (s : State),
    (s.card.detect.line = present → exec (.cdetChange present) s = .next s) ∧
    (s.card.detect.line ≠ present →
      exec (.cdetChange present) s = .next { s with card := { s.card with
        detect := { s.card.detect with
          line := present, timer := some { start := s.timeBase, length := 50000 } } } })) ∧
  (∀ (tm : Timer) (s : State), s.card.detect.timer = some tm → s.card.detect.line = true →
    s.card.detect.accepted = false →
    ∃ t : State, exec .insertion s = .next t ∧ t.timeBase = (s.advanceTo tm.expiry).timeBase ∧
      t.card.detect = { line := true, accepted := true, timer := none } ∧
      (s.card.state ≠ .absent → t.card.state = s.card.state) ∧
      (s.card.state = .absent → t.card.state = .mounting ∧
        (s.card.bus = none → GoesOn t t .identify .identify))) ∧
  (∀ (tm : Timer) (s : State), s.card.detect.timer = some tm → s.card.detect.line = false →
    s.card.detect.accepted = true → s.card.state ≠ .absent →
    ∃ t : State, exec .removal s = .next t ∧ t.timeBase = (s.advanceTo tm.expiry).timeBase ∧
      t.card.detect = { line := false, accepted := false, timer := none } ∧
      t.card.state = .absent ∧ t.card.identity = none ∧ t.card.volume = none ∧
      t.card.indexHeld = false ∧ t.card.index = [] ∧ t.card.damaged = [] ∧ t.card.map = [] ∧
      t.card.reads = [] ∧ t.card.entries = [] ∧ t.card.full = false ∧ t.card.marks = [] ∧
      t.card.ejectTag = none ∧ t.card.formatTag = none ∧
      RaisedOnce .cardRemoved none s t ∧
      (∀ tag, (s.card.ejectTag = some tag ∨ s.card.formatTag = some tag) →
        Answered t tag .noCard .empty) ∧
      ((slotNumbers s).Nodup →
        (∀ n ws w, RecordSlot.loading n ws ∈ s.table.slots → w ∈ ws →
          Answered t w.tag .noCard .empty) ∧
        (∀ r ∈ residents s, r.life = .held →
          ∃ y ∈ residents t, y.number = r.number ∧ y.life = .held ∧ y.rawCard = .unwritten ∧
            y.rawPlane = r.rawPlane ∧ (r.rawCard ≠ .unwritten → BackToUnwritten r y)) ∧
        (∀ y ∈ residents t, y.life ≠ .settled ∧ y.life ≠ .retiring) ∧
        (∀ r ∈ residents s, r.life = .settled →
          (∀ j ∈ t.dev.queue, j.shot ≠ r.number) ∧ (∀ h ∈ t.card.handoffs, h.shot ≠ r.number) ∧
          (∀ j ∈ s.dev.queue, j.shot = r.number → ∀ tag ∈ j.waiters, Answered t tag .noCard .empty)) ∧
        ((∀ r ∈ residents s, ¬ (r.life = .settled ∧ r.dirty = true)) →
          t.notices.kinds[NoticeKind.amendLost.place]? = s.notices.kinds[NoticeKind.amendLost.place]?) ∧
        (∀ r ∈ residents s, r.life = .settled → r.dirty = true →
          (∀ r' ∈ residents s, r'.life = .settled → r'.dirty = true → r.number ≤ r'.number) →
          t.notices.kinds[NoticeKind.amendLost.place]? =
            (s.notices.kinds[NoticeKind.amendLost.place]?).map (Notice.raised (some (.shot r.number))
              ((residents s).countP fun r => r.life == .settled && r.dirty)))))

/-- The arbiter and failures (R144, R145, R149, R169): work starts when nothing is in flight, reads first; a command
that fails is issued once more, and failing again leaves the card FAULTED, with CARD_FAULT raised and the work in flight
and queued ended: the loads, the retirements, the eject and the format are answered CARD_ERROR, a record on its way to
the card is UNWRITTEN again. No answer within 500 ms counts as ERROR; the time-out brings the Time Base to that instant
(log 3). That no work starts while a command of abandoned work is on the bus either is log 25. -/
def Obligations.FailedCommandIsIssuedOnceMore : Prop :=
  (∀ s : State, s.card.bus.isSome → exec .cardWorkStart s = .next s) ∧
  (∀ (n slot : Nat) (rest : List CardRead) (s : State), s.card.bus = none → s.card.work = none →
    (s.card.state = .ready ∨ s.card.state = .readOnly) → s.card.reads = .load n slot :: rest →
    ∃ t : State, exec .cardWorkStart s = .next t ∧ t.card.reads = s.card.reads ∧
      GoesOn s t (.load n slot) (.read (2048 + slot) 1)) ∧
  (∀ (b : Bus) (s : State), s.card.bus = some b → OnBus s →
    (b.retried = false →
      exec .cardCommandError s = .next { s with card := { s.card with
        bus := some { b with issued := s.timeBase, retried := true } } } ∧
      ∃ u : State, u = s.advanceTo (b.issued + 500000#48) ∧
        exec .cardCommandTimeout s = .next { u with card := { s.card with
          bus := some { b with issued := u.timeBase, retried := true } } }) ∧
    (b.retried = true → ∀ c : Instr, (c = .cardCommandError ∨ c = .cardCommandTimeout) →
      ∃ t : State, exec c s = .next t ∧ t.card.state = .faulted ∧ t.card.ejectTag = none ∧
        t.card.formatTag = none ∧ t.card.work = none ∧ t.card.bus = none ∧ t.card.reads = [] ∧
        t.card.entries = [] ∧ t.card.index = s.card.index ∧
        RaisedOnce .cardFault ((s.card.work.bind CardWork.shot?).map Subject.shot) s t ∧
        (∀ tag, s.card.ejectTag = some tag → Answered t tag .cardError .empty) ∧
        (∀ tag, s.card.formatTag = some tag → Answered t tag .cardError .empty) ∧
        ((slotNumbers s).Nodup →
          (∀ n ws w, RecordSlot.loading n ws ∈ s.table.slots → w ∈ ws →
            Answered t w.tag .cardError .empty) ∧
          (∀ r ∈ residents s, r.life = .retiring →
            (∀ y ∈ residents t, y.number ≠ r.number) ∧
            ∀ tag, r.retireTag = some tag → Answered t tag .cardError .empty) ∧
          (∀ r ∈ residents s, r.life = .settled →
            ∃ y ∈ residents t, y.number = r.number ∧ y.life = .settled ∧ y.dirty = r.dirty) ∧
          (∀ r ∈ residents s, r.life = .held → (r.rawCard = .writing ∨ r.rawCard = .cataloguing) →
            ∃ y ∈ residents t, BackToUnwritten r y)) ∧
        (∀ h runs done stopped, s.card.work = some (.developed h runs done false stopped) →
          ∀ x ∈ t.card.handoffs, x.plane = h.plane → x.writing = false)))

/-- The arbiter's start of work (R144, R149 to R155, Table 9-3), with nothing on the bus and nothing in flight. By
class: a fetch (a load read is in `FailedCommandIsIssuedOnceMore`), an entry write, a developed write, a raw write and a
dirty rewrite, each with the card state that starts it, its first command, and what starting it changes. A developed or
raw write with no room takes its mark, sets the full flag and raises CARD_FULL when the flag was clear. With nothing
that its state starts the Card Store stays as it is. An allocation takes the lowest free clusters, as many as were asked
for, in at most eight runs, and runs returned are free again (R150); the bytes of a raw's and a rendition's clusters are
those of its plane, or of the rendition, and 0 beyond the file (R151, R153; a rendition's bytes are free values, log
14). That plane `place` begins at address `place * 402653184` is the model's choice (log 13), and so is that the entry
of a loaded shot is written with the sizes it had (log 43). -/
def Obligations.ArbiterStartsWorkByClass : Prop :=
  (∀ s : State, s.card.bus = none → s.card.work = none →
    (∀ n p runs rest, (s.card.state = .ready ∨ s.card.state = .readOnly) →
      s.card.reads = .fetch n p runs :: rest →
      ∃ t : State, exec .cardWorkStart s = .next t ∧ t.card.reads = s.card.reads ∧
        GoesOn s t (.fetch n p runs 0) (.read (clusterAt runs 0 * 2048) 2048)) ∧
    (((s.card.state = .ready ∧ s.card.reads = []) ∨ s.card.state = .ejecting) →
      (∀ n slot rest r, s.card.entries = .live n slot :: rest → findRecord s n = some r →
        r.catSlot = some slot →
        ∃ t : State, exec .cardWorkStart s = .next t ∧ t.card.entries = rest ∧
          GoesOn s t (.entryWrite n slot) (.write (2048 + slot) 1
            (.block (liveBlock r r.devFile (s.recipes.getD r.recipe .reset)))) ∧
          t.table.slots = s.table.slots ∧
          t.table.amended = s.table.amended.map fun a =>
            if a.shot == n then { a with taken := true } else a) ∧
      (∀ n slot rest, s.card.entries = .empty n slot :: rest →
        ∃ t : State, exec .cardWorkStart s = .next t ∧ t.card.entries = rest ∧
          GoesOn s t (.emptyWrite n slot) (.write (2048 + slot) 1 (.block emptyBlock)) ∧
          t.table = s.table)) ∧
    (∀ before h after r, s.card.state = .ready → s.card.reads = [] → s.card.entries = [] →
      s.card.handoffs = before ++ h :: after → MayWriteDeveloped s h → findRecord s h.shot = some r →
      (∀ x ∈ before, ¬ MayWriteDeveloped s x) →
      (∀ runs left, allocate s.card.map (clustersFor (3 * h.width * h.height)) = some (runs, left) →
        ∃ t : State, exec .cardWorkStart s = .next t ∧ t.card.map = left ∧
          GoesOn s t (.developed h runs 0 false false) (.write (clusterAt runs 0 * 2048) 2048
            (.renditionCluster h.seed (3 * h.width * h.height) 0)) ∧
          (∃ y ∈ residents t, y = { r with devPending := some h.key }) ∧
          ∀ x ∈ t.card.handoffs, x.plane = h.plane → x.writing = true) ∧
      (allocate s.card.map (clustersFor (3 * h.width * h.height)) = none → before = [] → after = [] →
        (∀ x ∈ residents s, ¬ MayWriteRaw s x) → s.table.amended = [] →
        ∃ t : State, exec .cardWorkStart s = .next t ∧ t.card.work = none ∧ t.card.bus = none ∧
          t.card.handoffs = [{ h with marked := true }] ∧ t.card.full = true ∧
          (s.card.full = false → RaisedOnce .cardFull (some (.shot h.shot)) s t) ∧
          (s.card.full = true → t.notices = s.notices))) ∧
    (∀ r, s.card.state = .ready → s.card.reads = [] → s.card.entries = [] →
      (∀ x ∈ s.card.handoffs, ¬ MayWriteDeveloped s x) → findRecord s r.number = some r →
      MayWriteRaw s r → (∀ x ∈ residents s, MayWriteRaw s x → r.number ≤ x.number) →
      (∀ runs left p, allocate s.card.map (clustersFor (4 * (s.seq.columns * s.seq.rows))) =
          some (runs, left) → (emptySlot s).isSome → r.rawPlane = some p →
        ∃ t : State, exec .cardWorkStart s = .next t ∧ t.card.map = left ∧
          GoesOn s t (.rawWrite r.number 0) (.write (clusterAt runs 0 * 2048) 2048
            (.rawCluster p (4 * (s.seq.columns * s.seq.rows)) 0)) ∧
          ∃ y ∈ residents t, y =
            { r with rawCard := .writing, rawRuns := runs, rawSize := (s.seq.columns, s.seq.rows) }) ∧
      ((allocate s.card.map (clustersFor (4 * (s.seq.columns * s.seq.rows))) = none ∨
          emptySlot s = none) →
        (∀ x ∈ residents s, MayWriteRaw s x → x = r) → s.table.amended = [] →
        ∃ t : State, exec .cardWorkStart s = .next t ∧ t.card.work = none ∧ t.card.bus = none ∧
          t.card.marks = s.card.marks ++ [r.number] ∧ t.card.full = true ∧ t.table = s.table ∧
          (s.card.full = false → RaisedOnce .cardFull (some (.shot r.number)) s t) ∧
          (s.card.full = true → t.notices = s.notices))) ∧
    (∀ before a after r slot, ((s.card.state = .ready ∧ s.card.reads = [] ∧
          (∀ x ∈ s.card.handoffs, ¬ MayWriteDeveloped s x) ∧ ∀ x ∈ residents s, ¬ MayWriteRaw s x) ∨
        s.card.state = .ejecting) →
      s.card.entries = [] → s.table.amended = before ++ a :: after → a.taken = false →
      (∀ x ∈ before, x.taken = true) → findRecord s a.shot = some r → r.rawCard = .onCard →
      r.life ≠ .retiring → r.catSlot = some slot →
      ∃ t : State, exec .cardWorkStart s = .next t ∧ t.table.slots = s.table.slots ∧
        GoesOn s t (.dirtyRewrite a.shot) (.write (2048 + slot) 1
          (.block (liveBlock r r.devFile (s.recipes.getD r.recipe .reset)))) ∧
        ∀ x ∈ t.table.amended, x.shot = a.shot → x.taken = true) ∧
    (((s.card.state ≠ .ready ∧ s.card.state ≠ .readOnly ∧ s.card.state ≠ .ejecting) ∨
        (s.card.state = .readOnly ∧ s.card.reads = []) ∨
        (s.card.state = .ejecting ∧ s.card.entries = [] ∧ s.table.amended = []) ∨
        (s.card.state = .ready ∧ s.card.reads = [] ∧ s.card.entries = [] ∧ s.table.amended = [] ∧
          (∀ x ∈ s.card.handoffs, ¬ MayWriteDeveloped s x) ∧ ∀ x ∈ residents s, ¬ MayWriteRaw s x)) →
      exec .cardWorkStart s = .next s)) ∧
  (∀ (m : List Run) (n : Nat),
    (∀ runs left, allocate m n = some (runs, left) →
      clustersOf runs ++ clustersOf left = clustersOf m ∧ (clustersOf runs).length = n ∧
      runs.length ≤ 8) ∧
    (n ≤ (clustersOf m).length → m.length ≤ 8 → (allocate m n).isSome) ∧
    ((clustersOf m).length < n → allocate m n = none)) ∧
  (∀ (r : Run) (m : List Run), (clustersOf (insertRun r m)).Perm (clustersOf [r] ++ clustersOf m)) ∧
  ∀ (m : Memory) (place length cluster i : Nat), i < 1048576 →
    ((WriteData.rawCluster place length cluster).bytes m)[i]? = some
      (if cluster * 1048576 + i < length then
        Memory.read m (place * 402653184 + (cluster * 1048576 + i)) else 0#8) ∧
    ((WriteData.renditionCluster place length cluster).bytes m)[i]? = some
      (if cluster * 1048576 + i < length then Config.renditionByte place (cluster * 1048576 + i)
        else 0#8)

/-- The mount and the format (R23, R24, R141, R146 to R148, R159): IDENTIFY, then the header, then two reads of the
catalogue; a bad header leaves UNFORMATTED, a whole catalogue READY or READ_ONLY with the counter above every number on
the card and the OPEN, HELD and VOID records below the card's next number renumbered throughout (R23, R24). Each
accepted LIVE entry is in the index, each entry neither accepted nor EMPTY is in the DAMAGED set, and the map is every
data cluster less those of the accepted entries, what a write started in the same event has taken counting with it
(R147, R150). The full flag and every room mark are cleared (R148); the flag is set again only by an allocation that
fails in the same event, which raises CARD_FULL. A format writes the two catalogue clusters, then the header, then
mounts. That CATALOGUE_READ_DONE counts the READs it answers and lists the blocks of the slots that are not EMPTY is log
16, and that a format whose mount ends READ_ONLY is answered CARD_READ_ONLY is log 26. -/
def Obligations.MountRunsItsReads : Prop :=
  ∀ s : State, OnBus s →
    (∀ serial capacity wp, s.card.work = some .identify →
      ∃ t : State, exec (.identifyDone serial capacity wp) s = .next t ∧
        t.card.identity = some { serial := serial, capacity := capacity, writeProtected := wp } ∧
        GoesOn s t .header (.read 0 1) ∧ t.card.state = s.card.state) ∧
    (∀ block x, s.card.work = some .header → s.card.identity = some x →
      (headerGood block x.capacity = true →
        ∃ t : State, exec (.headerReadDone block) s = .next t ∧
          GoesOn s t (.catalogue 0 []) (.read 2048 2048) ∧
          t.card.volume = some
            { id := fromBytes (slice block 2 4), clusters := fromBytes (slice block 10 4) }) ∧
      (headerGood block x.capacity = false →
        ∃ t : State, exec (.headerReadDone block) s = .next t ∧ t.card.state = .unformatted ∧
          t.card.volume = none ∧
          (∀ tag, s.card.formatTag = some tag → Answered t tag .cardError .empty))) ∧
    (∀ blocks earlier, s.card.work = some (.catalogue 0 earlier) →
      ∃ t : State, exec (.catalogueReadDone 1 blocks) s = .next t ∧
        GoesOn s t (.catalogue 1 (earlier ++ blocks)) (.read 4096 2048)) ∧
    (∀ done clusters blocks earlier x, s.card.work = some (.catalogue done earlier) →
      0 < clusters → done + clusters = 2 → s.card.identity = some x →
      ∃ t : State, exec (.catalogueReadDone clusters blocks) s = .next t ∧
        t.card.state = (if x.writeProtected then .readOnly else .ready) ∧ t.card.indexHeld = true ∧
        s.table.counter ≤ t.table.counter ∧ (∀ e ∈ t.card.index, e.shot < t.table.counter) ∧
        RaisedOnce .cardMounted none s t ∧
        (∀ v, s.card.volume = some v → ((earlier ++ blocks).map Prod.fst).Nodup → ShotNumbersAgree s →
          CatalogueTaken v.clusters (earlier ++ blocks) t) ∧
        (t.card.full = true → ∃ n, RaisedOnce .cardFull (some (.shot n)) s t) ∧
        ((x.writeProtected = true ∨ ∀ r ∈ residents s, r.life ≠ .held ∧ r.rawCard ≠ .onCard) →
          t.card.full = false ∧ t.card.marks = [] ∧ ∀ h ∈ t.card.handoffs, h.marked = false) ∧
        (ShotNumbersAgree s → PlanesAgree s → ∀ next, NextNumber t.card.index next →
          RenumbersForMount next s t) ∧
        (∀ tag, s.card.formatTag = some tag →
          Answered t tag (if x.writeProtected then .cardReadOnly else .ok) .empty)) ∧
    (∀ volumeId clusters, s.card.work = some (.format 0 volumeId clusters) →
      ∃ t : State, exec .formatWriteDone s = .next t ∧
        GoesOn s t (.format 1 volumeId clusters) (.write 4096 2048 .emptyEntries)) ∧
    (∀ volumeId clusters, s.card.work = some (.format 1 volumeId clusters) →
      ∃ t : State, exec .formatWriteDone s = .next t ∧
        GoesOn s t (.format 2 volumeId clusters)
          (.write 0 1 (.block (headerBlock volumeId clusters)))) ∧
    (∀ volumeId clusters, s.card.work = some (.format 2 volumeId clusters) →
      ∃ t : State, exec .formatWriteDone s = .next t ∧ GoesOn s t .identify .identify)

/-- The card's reads (R20, R21, R89, R119): a good entry makes the record that its bytes give, SETTLED, and the requests
that waited for it proceed on it in turn: a lookup is answered with it, an amendment is made to it or refused, and a
retirement ahead of a lookup and an amendment has them find it RETIRING; with a bad entry every waiter is answered
CARD_ERROR, and NOT_FOUND when the index has lost the number; a fetch fills the part of its plane within the sensor area
in force, and no other byte (memory being in its canonical form, which every step keeps), and the engine develops. That
FETCH_READ_DONE counts the clusters it answers and lists the values that are not zero is log 16. -/
def Obligations.CardReadsComplete : Prop :=
  (∀ (n slot i : Nat) (ws : List LoadWaiter) (block : List Byte) (s : State), OnBus s →
    s.card.work = some (.load n slot) → s.table.slots[i]? = some (.loading n ws) →
    (∀ j, j ≠ i → (∀ ws', s.table.slots[j]? ≠ some (RecordSlot.loading n ws')) ∧
      ∀ r, s.table.slots[j]? = some (RecordSlot.inUse r) → r.number ≠ n) →
    ∃ t : State, exec (.loadReadDone block) s = .next t ∧
      ((∃ x ∈ s.card.index, x.shot = n) → entryLive block = true → entryShot block = n →
        (∀ h ∈ s.card.handoffs, h.shot ≠ n) →
        ∃ y, LoadedFrom block slot y ∧
          ((∀ w ∈ ws, w.request = .lookup) →
            (∀ w ∈ ws, ∃ v : ShotView, Answered t w.tag .ok (.shot v) ∧ Reports s y v) ∧
            (s.card.state ≠ .ejecting → t.table.slots[i]? = some (.inUse y) ∧
              t.table.useOrder.getLast? = some i)) ∧
          (∀ tag o, ws = [{ tag := tag, request := .amend o }] → AmendInRange o →
            (ProtectedCard s → ¬ AmendKeeps o y → Answered t tag .cardReadOnly .empty ∧
              (s.card.state ≠ .ejecting → t.table.slots[i]? = some (.inUse y))) ∧
            ((¬ ProtectedCard s ∨ AmendKeeps o y) → ∃ v : AmendReport, Answered t tag .ok (.amended v) ∧
              v.number = n ∧ AmendedTo o y v.rating v.protect v.recipe ∧ v.darkLink = y.darkLink ∧
              v.key = { recipe := v.recipe, generation := (s.recipes.getD v.recipe .reset).generation } ∧
              (v.dirty = true ↔ ¬ AmendKeeps o y) ∧
              (s.card.state ≠ .ejecting → t.table.slots[i]? = some (.inUse
                  { y with rating := v.rating, protect := v.protect, recipe := v.recipe, dirty := v.dirty }) ∧
                (v.dirty = true → ∃ a ∈ t.table.amended, a.shot = n)))) ∧
          (∀ a b c o, ws = [{ tag := a, request := .retire }, { tag := b, request := .lookup },
              { tag := c, request := .amend o }] → AmendInRange o → ¬ ProtectedCard s →
            s.card.state ≠ .faulted →
            (y.protect = true → Answered t a .protectedShot .empty ∧
              ∃ v : ShotView, Answered t b .ok (.shot v) ∧ Reports s y v) ∧
            (y.protect = false →
              (∃ v : ShotView, Answered t b .ok (.shot v) ∧ v.number = n ∧ v.life = .retiring) ∧
              Answered t c .busy .empty ∧
              (∃ z, t.table.slots[i]? = some (.inUse z) ∧ z.number = n ∧ z.life = .retiring ∧
                z.retireTag = some a) ∧
              (.empty n slot ∈ t.card.entries ∨ t.card.work = some (.emptyWrite n slot))))) ∧
      ((∃ x ∈ s.card.index, x.shot = n) → ¬ (entryLive block = true ∧ entryShot block = n) →
        (∀ w ∈ ws, Answered t w.tag .cardError .empty) ∧
        (s.card.state ≠ .ejecting → t.table.slots[i]? = some .free ∧ slot ∈ t.card.damaged ∧
          ∀ x ∈ t.card.index, x.shot ≠ n)) ∧
      ((∀ x ∈ s.card.index, x.shot ≠ n) →
        (∀ w ∈ ws, Answered t w.tag .notFound .empty) ∧ t.table.slots[i]? = some .free)) ∧
  (∀ (n p done clusters : Nat) (runs : List Run) (values : List (Nat × BitVec 32)) (s : State),
    OnBus s → s.card.work = some (.fetch n p runs done) → 0 < clusters →
    (done + clusters < (runs.map Run.length).sum →
      ∃ t : State, exec (.fetchReadDone clusters values) s = .next t ∧ SameOutsidePlane p s t ∧
        SameOutsideArea p s t ∧ t.card.work = some (.fetch n p runs (done + clusters)) ∧ t.dev = s.dev) ∧
    (done + clusters = (runs.map Run.length).sum →
      ∃ t : State, exec (.fetchReadDone clusters values) s = .next t ∧ SameOutsidePlane p s t ∧
        SameOutsideArea p s t ∧ (s.card.state ≠ .ejecting → t.dev.engine = (if s.dev.readout then
          EngineState.suspended (.developing .demosaic) else .active (.developing .demosaic)))) ∧
    (done + clusters ≤ (runs.map Run.length).sum → Canonical s →
      (values.map Prod.fst).Nodup →
      (∀ x ∈ values, done * 1048576 ≤ 4 * x.1 ∧ 4 * x.1 < (done + clusters) * 1048576 ∧
        x.1 < s.seq.columns * s.seq.rows ∧ 4 * x.1 < 402653184) →
      ∃ t : State, exec (.fetchReadDone clusters values) s = .next t ∧
        ∀ x ∈ values, readValue t.mem p x.1 = x.2))

/-- The card's writes (R151 to R155, R168): a raw cluster is followed by the next, and after the last the record is
CATALOGUING in the lowest EMPTY slot and its entry's write waits or is in flight; an entry written is in the index and
its shot settles, or, RETIRING, has its EMPTY write wait; a developed file replaces the former; an EMPTY entry ends a
retirement, the record is gone and its clusters are free again; a rewrite leaves the record clean. -/
def Obligations.CardWritesComplete : Prop :=
  ∀ s : State, OnBus s →
    (∀ n done r, s.card.work = some (.rawWrite n done) → findRecord s n = some r →
      r.rawCard = .writing →
      (done + 1 < (r.rawRuns.map Run.length).sum →
        ∃ t : State, exec .rawWriteClusterDone s = .next t ∧
          GoesOn s t (.rawWrite n (done + 1)) (.write (clusterAt r.rawRuns (done + 1) * 2048) 2048
            (.rawCluster (r.rawPlane.getD 0) (4 * (s.seq.columns * s.seq.rows)) (done + 1)))) ∧
      (∀ k, (r.rawRuns.map Run.length).sum ≤ done + 1 → emptySlot s = some k →
        ∃ t : State, exec .rawWriteClusterDone s = .next t ∧
          (∃ y ∈ residents t, y.number = n ∧ y.rawCard = .cataloguing ∧ y.catSlot = some k) ∧
          (.live n k ∈ t.card.entries ∨ t.card.work = some (.entryWrite n k)))) ∧
    (∀ n slot r, s.card.work = some (.entryWrite n slot) → findRecord s n = some r →
      r.rawCard = .cataloguing → s.card.state ≠ .ejecting →
      ∃ t : State, exec .entryWriteDone s = .next t ∧
        { shot := n, slot := slot, frame := r.frame, label := r.label, protect := r.protect } ∈
          t.card.index ∧
        (∃ y ∈ residents t, y.number = n ∧ y.rawCard = .onCard ∧
          (r.life = .held → readsRaw s n = false → y.life = .settled ∧ y.rawPlane = none) ∧
          (r.life = .held → readsRaw s n = true → y.life = .held) ∧
          (r.life = .held → (∃ a ∈ s.table.amended, a.shot = n ∧ a.taken = true) → y.dirty = false)) ∧
        (r.life = .retiring → .empty n slot ∈ t.card.entries ∨ t.card.work = some (.emptyWrite n slot)) ∧
        (r.life = .held → (∃ a ∈ s.table.amended, a.shot = n ∧ a.taken = true) →
          ∀ a ∈ t.table.amended, a.shot ≠ n)) ∧
    (∀ h runs done, s.card.work = some (.developed h runs done false false) →
      ∃ t : State, exec .developedWriteClusterDone s = .next t ∧
        (done + 1 < (runs.map Run.length).sum →
          GoesOn s t (.developed h runs (done + 1) false false)
            (.write (clusterAt runs (done + 1) * 2048) 2048
              (.renditionCluster h.seed (3 * h.width * h.height) (done + 1)))) ∧
        ((runs.map Run.length).sum ≤ done + 1 →
          t.card.work = some (.developed h runs done true false) ∧
          (∀ a ∈ t.table.amended, a.shot = h.shot → a.taken = true) ∧
          ∀ r slot, findRecord s h.shot = some r → r.catSlot = some slot →
            GoesOn s t (.developed h runs done true false) (.write (2048 + slot) 1
              (.block (liveBlock r
                (some { runs := runs, key := h.key, width := h.width, height := h.height })
                (s.recipes.getD r.recipe .reset)))))) ∧
    (∀ h runs done stopped r, s.card.work = some (.developed h runs done true stopped) →
      findRecord s h.shot = some r →
      ∃ t : State, exec .developedEntryWriteDone s = .next t ∧
        (r.life ≠ .retiring → ∀ x ∈ t.card.handoffs, x.plane ≠ h.plane) ∧
        (s.card.state ≠ .ejecting → ∃ x ∈ residents t, x.number = h.shot ∧
          x.devFile = some { runs := runs, key := h.key, width := h.width, height := h.height })) ∧
    (∀ n slot r tag, s.card.work = some (.emptyWrite n slot) → findRecord s n = some r →
      r.life = .retiring → r.retireTag = some tag →
      ∃ t : State, exec .emptyWriteDone s = .next t ∧ Answered t tag .ok .empty ∧
        (s.card.state ≠ .ejecting → ∀ x ∈ t.card.index, x.shot ≠ n) ∧
        ((slotNumbers s).Nodup → ∀ y ∈ residents t, y.number ≠ n) ∧
        (s.card.state ≠ .ejecting → s.card.handoffs = [] →
          (∀ x ∈ residents s, x.life = .held → x.rawCard ≠ .unwritten) →
          t.card.full = false ∧ t.card.marks = [] ∧
          (clustersOf t.card.map).Perm
            (clustersOf (r.rawRuns ++ (r.devFile.map DevFile.runs).getD []) ++
              clustersOf s.card.map))) ∧
    (∀ n, s.card.work = some (.dirtyRewrite n) →
      ∃ t : State, exec .dirtyRewriteDone s = .next t ∧
        (∀ r, findRecord s n = some r → ∀ x ∈ t.card.index, x.shot = n → x.protect = r.protect) ∧
        (s.card.state ≠ .ejecting → (∃ a ∈ s.table.amended, a.shot = n ∧ a.taken = true) →
          (∀ a ∈ t.table.amended, a.shot ≠ n) ∧ ∀ x ∈ residents t, x.number = n → x.dirty = false))

/-! ### Looking up, amending and retiring -/

/-- SHOT_LOOKUP, SHOT_AMEND and SHOT_RETIRE of a resident record (R3, R16, R25, R163 to R168): the record reported; the
refusals in their order; an accepted amendment puts each named item into the record, waives the dark link when asked,
sets the dirty flag when the entry on the card, or being written, does not carry the change, and with the flag set moves
the record to the end of the amendment list; an accepted retirement removes an UNWRITTEN or VOID record, its raw plane
freed, and leaves any other RETIRING with its EMPTY write to come when it is ON_CARD, its jobs gone and their waiters
answered ABANDONED. A retirement leaves the shot no request of the Plane Arithmetic Unit and no dark link, its entry
handled by its state (R109), and its preview slots FREE, or ORPHANED when they are pinned (R140). Each of the requests
makes the record the most recently used, a refused one too, also an amendment whose operands are answered BAD_OPERAND
(log 20). The shot number 0 is BAD_OPERAND, and so are such operands for a shot that is not resident. -/
def Obligations.RequestsOnResidentShot : Prop :=
  (∀ (tag : Nat) (s : State), CanTake tag s →
    exec (.shotLookup tag 0) s = .next (answerCode tag .badOperand (holdTag tag s)) ∧
    exec (.shotRetire tag 0) s = .next (answerCode tag .badOperand (holdTag tag s)) ∧
    ∀ (n : Nat) (ops : AmendOperands), (∀ r ∈ residents s, r.number ≠ n) → (n = 0 ∨ ¬ AmendInRange ops) →
      exec (.shotAmend tag n ops) s = .next (answerCode tag .badOperand (holdTag tag s))) ∧
  ∀ (tag n : Nat) (r : Record) (s : State), CanTake tag s → n ≠ 0 → findRecord s n = some r →
    (∀ ops : AmendOperands, ¬ AmendInRange ops →
      ∃ t : State, exec (.shotAmend tag n ops) s = .next t ∧ RefusedAndUsed s t r tag .badOperand ∧
        t.table.slots = s.table.slots ∧ t.card = s.card ∧ t.dark = s.dark ∧ t.pau = s.pau ∧ t.dev = s.dev) ∧
    (∃ (t : State) (v : ShotView), exec (.shotLookup tag n) s = .next t ∧
      Answered t tag .ok (.shot v) ∧ v.number = n ∧ Reports s r v ∧ MostRecentlyUsed s t r) ∧
    (∀ ops : AmendOperands, AmendInRange ops →
      (r.life = .retiring →
        ∃ t : State, exec (.shotAmend tag n ops) s = .next t ∧ RefusedAndUsed s t r tag .busy) ∧
      (r.life = .opened → (ops.recipe.isSome ∨ ops.waiveDark = true) →
        ∃ t : State, exec (.shotAmend tag n ops) s = .next t ∧ RefusedAndUsed s t r tag .busy) ∧
      (r.life ≠ .retiring → (r.life = .opened → ops.recipe = none ∧ ops.waiveDark = false) →
        (r.rawCard = .onCard → ProtectedCard s → ¬ AmendKeeps ops r →
          ∃ t : State, exec (.shotAmend tag n ops) s = .next t ∧
            RefusedAndUsed s t r tag .cardReadOnly) ∧
        ((r.rawCard ≠ .onCard ∨ ¬ ProtectedCard s ∨ AmendKeeps ops r) →
          ∃ (t : State) (v : AmendReport) (dirty : Bool), exec (.shotAmend tag n ops) s = .next t ∧
            Answered t tag .ok (.amended v) ∧ v.number = n ∧
            AmendedTo ops r v.rating v.protect v.recipe ∧
            v.key = { recipe := v.recipe, generation := (s.recipes.getD v.recipe .reset).generation } ∧
            (dirty = true ↔ r.dirty = true ∨ (¬ AmendKeeps ops r ∧ (r.rawCard = .onCard ∨
              (r.rawCard = .cataloguing ∧ ∃ slot, s.card.work = some (.entryWrite n slot))))) ∧
            v.dirty = dirty ∧ MostRecentlyUsed s t r ∧
            (ops.waiveDark = false → v.darkLink = r.darkLink) ∧
            (ops.waiveDark = true → (r.darkLink = .awaiting ∨ ∃ e, r.darkLink = .linked e) →
              v.darkLink = .waived) ∧
            (s.card.state ≠ .ejecting → ∃ y ∈ residents t, y.number = n ∧ y.life = r.life ∧
              AmendedTo ops r y.rating y.protect y.recipe ∧ y.darkLink = v.darkLink ∧
              y.dirty = dirty) ∧
            (s.card.bus.isSome →
              (dirty = true → t.table.amended =
                s.table.amended.filter (·.shot != n) ++ [{ shot := n, taken := false }]) ∧
              (dirty = false → t.table.amended = s.table.amended))))) ∧
    (r.protect = true →
      ∃ t : State, exec (.shotRetire tag n) s = .next t ∧ RefusedAndUsed s t r tag .protectedShot) ∧
    (r.protect = false → (r.life = .opened ∨ r.life = .retiring) →
      ∃ t : State, exec (.shotRetire tag n) s = .next t ∧ RefusedAndUsed s t r tag .busy) ∧
    (r.protect = false → OnCardSide r → ProtectedCard s →
      ∃ t : State, exec (.shotRetire tag n) s = .next t ∧ RefusedAndUsed s t r tag .cardReadOnly) ∧
    (r.protect = false → OnCardSide r → ¬ ProtectedCard s → s.card.state = .faulted →
      ∃ t : State, exec (.shotRetire tag n) s = .next t ∧ RefusedAndUsed s t r tag .cardError) ∧
    (r.protect = false → (r.life = .held ∨ r.life = .settled ∨ r.life = .void) →
      (OnCardSide r → ¬ ProtectedCard s ∧ s.card.state ≠ .faulted) →
      ∃ t : State, exec (.shotRetire tag n) s = .next t ∧
        (∀ j ∈ t.dev.queue, j.shot ≠ n) ∧
        (∀ j ∈ s.dev.queue, j.shot = n → ∀ w ∈ j.waiters, Answered t w .abandoned .empty) ∧
        (∀ h ∈ t.card.handoffs, h.shot ≠ n) ∧ n ∉ t.card.marks ∧
        (∀ a ∈ t.table.amended, a.shot ≠ n) ∧ (∀ q ∈ t.pau, q.shot ≠ n) ∧
        (∀ y ∈ residents t, y.number = n → y.darkLink ≠ .awaiting ∧ ∀ e, y.darkLink ≠ .linked e) ∧
        EntryLeft s t r ∧ PreviewsLeft s t n ∧
        (∀ p, r.rawPlane = some p → p < s.pool.owners.length → s.dev.queue = [] →
          s.pool.darkClaim = false → t.pool.owners[p]? = some .free) ∧
        (r.rawCard = .unwritten → Answered t tag .ok .empty ∧
          ((slotNumbers s).Nodup → ∀ y ∈ residents t, y.number ≠ n)) ∧
        (r.rawCard ≠ .unwritten →
          ∃ y ∈ residents t, y.number = n ∧ y.life = .retiring ∧ y.retireTag = some tag ∧
            y.rawPlane = none ∧ y.dirty = false ∧ y.rawCard = r.rawCard ∧
            (((r.darkLink = .awaiting ∨ ∃ e, r.darkLink = .linked e) ∧ y.darkLink = .waived) ∨
              y.darkLink = r.darkLink)) ∧
        (∀ slot, r.rawCard = .onCard → r.catSlot = some slot →
          .empty n slot ∈ t.card.entries ∨ t.card.work = some (.emptyWrite n slot)))

/-- A request for a shot that is not resident (R18): NO_CARD, NOT_FOUND, the load joined, BUSY at eight reads,
TABLE_FULL when no record slot can be had, or the load started, in the lowest FREE record slot or in that of the least
recently used evictable record (R2, R4), with a read of the catalogue slot that the index names. -/
def Obligations.AbsentShotIsLoaded : Prop :=
  ∀ (tag n : Nat) (c : Instr) (q : LoadRequest) (s : State), CanTake tag s → n ≠ 0 →
    ((c = .shotLookup tag n ∧ q = .lookup) ∨ (c = .shotRetire tag n ∧ q = .retire) ∨
      (∃ ops : AmendOperands, c = .shotAmend tag n ops ∧ q = .amend ops ∧ GivenIn ops.rating 0 5 ∧
        GivenIn ops.protect 0 1 ∧ GivenIn ops.recipe 0 31 ∧
        (ops.rating.isSome ∨ ops.protect.isSome ∨ ops.recipe.isSome ∨ ops.waiveDark = true))) →
    (∀ r ∈ residents s, r.number ≠ n) →
    ∃ t : State, exec c s = .next t ∧
      (s.card.state ≠ .ready → s.card.state ≠ .readOnly → Answered t tag .noCard .empty) ∧
      ((s.card.state = .ready ∨ s.card.state = .readOnly) →
        ((∀ x ∈ s.card.index, x.shot ≠ n) → Answered t tag .notFound .empty) ∧
        ((∃ x ∈ s.card.index, x.shot = n) →
          (∀ (i : Nat) (ws : List LoadWaiter), s.table.slots[i]? = some (RecordSlot.loading n ws) →
            t.table.slots[i]? = some (RecordSlot.loading n (ws ++ [{ tag := tag, request := q }]))) ∧
          ((∀ ws, RecordSlot.loading n ws ∉ s.table.slots) → 8 ≤ s.card.reads.length →
            Answered t tag .busy .empty) ∧
          (∀ x, (∀ ws, RecordSlot.loading n ws ∉ s.table.slots) → s.card.reads.length < 8 →
            x ∈ s.card.index → x.shot = n → (∀ x' ∈ s.card.index, x'.shot = n → x' = x) →
            (NoSlot s → Answered t tag .tableFull .empty ∧ ∀ ws, RecordSlot.loading n ws ∉ t.table.slots) ∧
            (∀ i, LowestAt s.table.slots .free i →
              t.table.slots[i]? = some (.loading n [{ tag := tag, request := q }]) ∧
              CardRead.load n x.slot ∈ t.card.reads) ∧
            (∀ older i newer r, RecordSlot.free ∉ s.table.slots → s.table.useOrder = older ++ i :: newer →
              s.table.slots[i]? = some (.inUse r) → Evictable s r →
              (∀ i' ∈ older, ∀ r', s.table.slots[i']? = some (.inUse r') → ¬ Evictable s r') →
              t.table.slots[i]? = some (.loading n [{ tag := tag, request := q }]) ∧
              CardRead.load n x.slot ∈ t.card.reads ∧
              ((slotNumbers s).Nodup → ∀ y ∈ residents t, y.number ≠ r.number)))))

/-! ### What a command leaves -/

/-- No command but those that write frame memory changes a byte of it: every address reads as before. The commands that
write it are those `mayWriteMemory` names: a sample, the ends of the Plane Arithmetic Unit's work, a fetch's and a
load's end, the end of OUTPUT, a retirement or RESTART, the end of start-up, the resets, and a packet byte. -/
def Obligations.MemoryChangesOnlyByItsWriters : Prop :=
  ∀ (c : Instr) (s t : State), mayWriteMemory c = false → exec c s = .next t → SameMemory s t

/-- Rolls, recipes, the Sync Unit, the clock, the causes and the part state change only by the commands that the rules
name, and the requests that change one table of their own leave every other block. The Time Base changes only by the
rows that bring it forward to an expiry or a sample and by the resets (logs 2, 3 and 4); those rows, and no other of the
rows that leave the Sync Unit, count samples in its runs. A sync setting changes by SET_SYNC and the resets alone. A
SYNC_SAMPLE may give a frame out or back, for it accepts a run that is full (log 5), and a removal may end RESTARTING
(log 12). -/
def Obligations.BlocksChangeOnlyByTheirCommands : Prop :=
  ∀ (c : Instr) (s t : State), exec c s = .next t →
    t.pending = s.pending ∧
    (mayChangeRolls c = false → t.rolls = s.rolls) ∧
    (mayChangeRecipes c = false → t.recipes = s.recipes) ∧
    (mayChangeSync c = false → SyncKeeps s.sync t.sync) ∧
    (mayChangeSync c = false → mayChangeTime c = false → t.sync = s.sync) ∧
    (mayChangeSyncSettings c = false → SyncSettingsKept s.sync t.sync) ∧
    (mayChangeWall c = false → t.wallOffset = s.wallOffset) ∧
    (mayChangeCauses c = false → t.causes = s.causes) ∧
    (mayChangeTime c = false → t.timeBase = s.timeBase) ∧
    (mayChangePart c = false → t.part = s.part ∨ (s.part = .restarting ∧ t.part = .running)) ∧
    (changesOwnTable c = true → t.seq = s.seq ∧ t.pool = s.pool ∧ t.pau = s.pau ∧ t.mem = s.mem ∧
      t.table = s.table ∧ t.dark = s.dark ∧ t.dev = s.dev ∧ t.cache = s.cache ∧ t.card = s.card ∧
      t.free = s.free)

/-! ### Laws that every step keeps -/

/-- The laws of the state hold after reset. -/
def Obligations.ResetMeetsTheLaws : Prop :=
  Canonical State.reset ∧ CurrentRollOpen State.reset ∧ TagsDistinct State.reset ∧
    QueueWithinRoom State.reset ∧ PinsWithinLimit State.reset ∧ TablesKeepSize State.reset ∧
    FloorInRange State.reset ∧ SamplesKeepUp State.reset ∧ ShotNumbersAgree State.reset ∧
    OpenShotAgrees State.reset ∧ PlanesAgree State.reset ∧ QueueAgrees State.reset ∧
    DarkLinksAgree State.reset ∧ IndexAgrees State.reset

/-- Every step keeps the memory list in its canonical form (log 13). -/
def Obligations.StepKeepsMemoryCanonical : Prop :=
  ∀ s t : State, Canonical s → step s = .next t → Canonical t

/-- Every step keeps the current roll OPEN (R30); every step keeps the HELD tags distinct and from 0 to 7 (R174); every
step keeps the sizes of the tables, the room of the development queue, the limit of the pins and that only a VALID slot
is pinned, and the range of the floor (R112, R114, R134, Table 0-2); and every step keeps the latest sample at the latest
sampling instant that has passed (R46; its place at a value just reached is log 4). -/
def Obligations.StepKeepsLimits : Prop :=
  (∀ s t : State, CurrentRollOpen s → step s = .next t → CurrentRollOpen t) ∧
  (∀ s t : State, TagsDistinct s → step s = .next t → TagsDistinct t) ∧
  (∀ s t : State, TablesKeepSize s → QueueWithinRoom s → PinsWithinLimit s → FloorInRange s →
    step s = .next t → TablesKeepSize t ∧ QueueWithinRoom t ∧ PinsWithinLimit t ∧ FloorInRange t) ∧
  ∀ s t : State, SamplesKeepUp s → step s = .next t → SamplesKeepUp t

/-- Every step keeps the shot numbers distinct and below the counter (R22), and the open shot as R62 gives it. That a
LOADING slot's number counts among them is the model's. -/
def Obligations.StepKeepsShotNumbersAndOpenShot : Prop :=
  ∀ s t : State, ShotNumbersAgree s → OpenShotAgrees s → step s = .next t →
    ShotNumbersAgree t ∧ OpenShotAgrees t

/-- Every step keeps the owners of the planes and what names the planes in agreement (R87). -/
def Obligations.StepKeepsPlanesAgree : Prop :=
  ∀ s t : State, TablesKeepSize s → ShotNumbersAgree s → PlanesAgree s → step s = .next t → PlanesAgree t

/-- Every step keeps at most one job for a shot and kind, each of a resident HELD or SETTLED shot, with at most one
RUNNING (R112), and a shot that is AWAITING or LINKED UNWRITTEN and out of the RUNNING job (R108). -/
def Obligations.StepKeepsJobsAndDarkLinks : Prop :=
  ∀ s t : State, ShotNumbersAgree s → OpenShotAgrees s → QueueAgrees s → DarkLinksAgree s →
    step s = .next t → QueueAgrees t ∧ DarkLinksAgree t

/-- Every step keeps the index in ascending order and in agreement with the records (R147). -/
def Obligations.StepKeepsIndexAgrees : Prop :=
  ∀ s t : State, ShotNumbersAgree s → OpenShotAgrees s → IndexAgrees s → step s = .next t → IndexAgrees t
end

