-- ==== Sys2Proof/Laws/State.lean ====
section
/-! SUPPORT. The fields of the state that each shared operation leaves as they were: one lemma for each operation,
a conjunction that `simp` uses field by field. This file: the operations of Ops, Pau and Preview. -/

namespace Sys2Proof.Machine

/-! ### Folds and optional operations keep what their steps keep -/

@[simp] theorem foldl_pending {α : Type} (f : State → α → State) (h : ∀ s a, (f s a).pending = s.pending) :
    ∀ (l : List α) (s : State), (l.foldl f s).pending = s.pending
  | [], _ => rfl
  | a :: l, s => (foldl_pending f h l (f s a)).trans (h s a)

@[simp] theorem foldl_held {α : Type} (f : State → α → State) (h : ∀ s a, (f s a).held = s.held) :
    ∀ (l : List α) (s : State), (l.foldl f s).held = s.held
  | [], _ => rfl
  | a :: l, s => (foldl_held f h l (f s a)).trans (h s a)

@[simp] theorem foldl_part {α : Type} (f : State → α → State) (h : ∀ s a, (f s a).part = s.part) :
    ∀ (l : List α) (s : State), (l.foldl f s).part = s.part
  | [], _ => rfl
  | a :: l, s => (foldl_part f h l (f s a)).trans (h s a)

@[simp] theorem foldl_causes {α : Type} (f : State → α → State) (h : ∀ s a, (f s a).causes = s.causes) :
    ∀ (l : List α) (s : State), (l.foldl f s).causes = s.causes
  | [], _ => rfl
  | a :: l, s => (foldl_causes f h l (f s a)).trans (h s a)

@[simp] theorem foldl_timeBase {α : Type} (f : State → α → State) (h : ∀ s a, (f s a).timeBase = s.timeBase) :
    ∀ (l : List α) (s : State), (l.foldl f s).timeBase = s.timeBase
  | [], _ => rfl
  | a :: l, s => (foldl_timeBase f h l (f s a)).trans (h s a)

@[simp] theorem foldl_wallOffset {α : Type} (f : State → α → State) (h : ∀ s a, (f s a).wallOffset = s.wallOffset) :
    ∀ (l : List α) (s : State), (l.foldl f s).wallOffset = s.wallOffset
  | [], _ => rfl
  | a :: l, s => (foldl_wallOffset f h l (f s a)).trans (h s a)

@[simp] theorem foldl_link {α : Type} (f : State → α → State) (h : ∀ s a, (f s a).link = s.link) :
    ∀ (l : List α) (s : State), (l.foldl f s).link = s.link
  | [], _ => rfl
  | a :: l, s => (foldl_link f h l (f s a)).trans (h s a)

@[simp] theorem foldl_notices {α : Type} (f : State → α → State) (h : ∀ s a, (f s a).notices = s.notices) :
    ∀ (l : List α) (s : State), (l.foldl f s).notices = s.notices
  | [], _ => rfl
  | a :: l, s => (foldl_notices f h l (f s a)).trans (h s a)

@[simp] theorem foldl_sync {α : Type} (f : State → α → State) (h : ∀ s a, (f s a).sync = s.sync) :
    ∀ (l : List α) (s : State), (l.foldl f s).sync = s.sync
  | [], _ => rfl
  | a :: l, s => (foldl_sync f h l (f s a)).trans (h s a)

@[simp] theorem foldl_seq {α : Type} (f : State → α → State) (h : ∀ s a, (f s a).seq = s.seq) :
    ∀ (l : List α) (s : State), (l.foldl f s).seq = s.seq
  | [], _ => rfl
  | a :: l, s => (foldl_seq f h l (f s a)).trans (h s a)

@[simp] theorem foldl_pool {α : Type} (f : State → α → State) (h : ∀ s a, (f s a).pool = s.pool) :
    ∀ (l : List α) (s : State), (l.foldl f s).pool = s.pool
  | [], _ => rfl
  | a :: l, s => (foldl_pool f h l (f s a)).trans (h s a)

@[simp] theorem foldl_pau {α : Type} (f : State → α → State) (h : ∀ s a, (f s a).pau = s.pau) :
    ∀ (l : List α) (s : State), (l.foldl f s).pau = s.pau
  | [], _ => rfl
  | a :: l, s => (foldl_pau f h l (f s a)).trans (h s a)

@[simp] theorem foldl_mem {α : Type} (f : State → α → State) (h : ∀ s a, (f s a).mem = s.mem) :
    ∀ (l : List α) (s : State), (l.foldl f s).mem = s.mem
  | [], _ => rfl
  | a :: l, s => (foldl_mem f h l (f s a)).trans (h s a)

@[simp] theorem foldl_table {α : Type} (f : State → α → State) (h : ∀ s a, (f s a).table = s.table) :
    ∀ (l : List α) (s : State), (l.foldl f s).table = s.table
  | [], _ => rfl
  | a :: l, s => (foldl_table f h l (f s a)).trans (h s a)

@[simp] theorem foldl_rolls {α : Type} (f : State → α → State) (h : ∀ s a, (f s a).rolls = s.rolls) :
    ∀ (l : List α) (s : State), (l.foldl f s).rolls = s.rolls
  | [], _ => rfl
  | a :: l, s => (foldl_rolls f h l (f s a)).trans (h s a)

@[simp] theorem foldl_recipes {α : Type} (f : State → α → State) (h : ∀ s a, (f s a).recipes = s.recipes) :
    ∀ (l : List α) (s : State), (l.foldl f s).recipes = s.recipes
  | [], _ => rfl
  | a :: l, s => (foldl_recipes f h l (f s a)).trans (h s a)

@[simp] theorem foldl_dark {α : Type} (f : State → α → State) (h : ∀ s a, (f s a).dark = s.dark) :
    ∀ (l : List α) (s : State), (l.foldl f s).dark = s.dark
  | [], _ => rfl
  | a :: l, s => (foldl_dark f h l (f s a)).trans (h s a)

@[simp] theorem foldl_dev {α : Type} (f : State → α → State) (h : ∀ s a, (f s a).dev = s.dev) :
    ∀ (l : List α) (s : State), (l.foldl f s).dev = s.dev
  | [], _ => rfl
  | a :: l, s => (foldl_dev f h l (f s a)).trans (h s a)

@[simp] theorem foldl_cache {α : Type} (f : State → α → State) (h : ∀ s a, (f s a).cache = s.cache) :
    ∀ (l : List α) (s : State), (l.foldl f s).cache = s.cache
  | [], _ => rfl
  | a :: l, s => (foldl_cache f h l (f s a)).trans (h s a)

@[simp] theorem foldl_card {α : Type} (f : State → α → State) (h : ∀ s a, (f s a).card = s.card) :
    ∀ (l : List α) (s : State), (l.foldl f s).card = s.card
  | [], _ => rfl
  | a :: l, s => (foldl_card f h l (f s a)).trans (h s a)

@[simp] theorem foldl_free {α : Type} (f : State → α → State) (h : ∀ s a, (f s a).free = s.free) :
    ∀ (l : List α) (s : State), (l.foldl f s).free = s.free
  | [], _ => rfl
  | a :: l, s => (foldl_free f h l (f s a)).trans (h s a)

@[simp] theorem optional_pending {α : Type} (f : α → State → State) (h : ∀ a s, (f a s).pending = s.pending)
    (o : Option α) (s : State) : ((o.map f).getD id s).pending = s.pending := by
  cases o <;> simp [h]

@[simp] theorem optional_held {α : Type} (f : α → State → State) (h : ∀ a s, (f a s).held = s.held)
    (o : Option α) (s : State) : ((o.map f).getD id s).held = s.held := by
  cases o <;> simp [h]

@[simp] theorem optional_part {α : Type} (f : α → State → State) (h : ∀ a s, (f a s).part = s.part)
    (o : Option α) (s : State) : ((o.map f).getD id s).part = s.part := by
  cases o <;> simp [h]

@[simp] theorem optional_causes {α : Type} (f : α → State → State) (h : ∀ a s, (f a s).causes = s.causes)
    (o : Option α) (s : State) : ((o.map f).getD id s).causes = s.causes := by
  cases o <;> simp [h]

@[simp] theorem optional_timeBase {α : Type} (f : α → State → State) (h : ∀ a s, (f a s).timeBase = s.timeBase)
    (o : Option α) (s : State) : ((o.map f).getD id s).timeBase = s.timeBase := by
  cases o <;> simp [h]

@[simp] theorem optional_wallOffset {α : Type} (f : α → State → State) (h : ∀ a s, (f a s).wallOffset = s.wallOffset)
    (o : Option α) (s : State) : ((o.map f).getD id s).wallOffset = s.wallOffset := by
  cases o <;> simp [h]

@[simp] theorem optional_link {α : Type} (f : α → State → State) (h : ∀ a s, (f a s).link = s.link)
    (o : Option α) (s : State) : ((o.map f).getD id s).link = s.link := by
  cases o <;> simp [h]

@[simp] theorem optional_notices {α : Type} (f : α → State → State) (h : ∀ a s, (f a s).notices = s.notices)
    (o : Option α) (s : State) : ((o.map f).getD id s).notices = s.notices := by
  cases o <;> simp [h]

@[simp] theorem optional_sync {α : Type} (f : α → State → State) (h : ∀ a s, (f a s).sync = s.sync)
    (o : Option α) (s : State) : ((o.map f).getD id s).sync = s.sync := by
  cases o <;> simp [h]

@[simp] theorem optional_seq {α : Type} (f : α → State → State) (h : ∀ a s, (f a s).seq = s.seq)
    (o : Option α) (s : State) : ((o.map f).getD id s).seq = s.seq := by
  cases o <;> simp [h]

@[simp] theorem optional_pool {α : Type} (f : α → State → State) (h : ∀ a s, (f a s).pool = s.pool)
    (o : Option α) (s : State) : ((o.map f).getD id s).pool = s.pool := by
  cases o <;> simp [h]

@[simp] theorem optional_pau {α : Type} (f : α → State → State) (h : ∀ a s, (f a s).pau = s.pau)
    (o : Option α) (s : State) : ((o.map f).getD id s).pau = s.pau := by
  cases o <;> simp [h]

@[simp] theorem optional_mem {α : Type} (f : α → State → State) (h : ∀ a s, (f a s).mem = s.mem)
    (o : Option α) (s : State) : ((o.map f).getD id s).mem = s.mem := by
  cases o <;> simp [h]

@[simp] theorem optional_table {α : Type} (f : α → State → State) (h : ∀ a s, (f a s).table = s.table)
    (o : Option α) (s : State) : ((o.map f).getD id s).table = s.table := by
  cases o <;> simp [h]

@[simp] theorem optional_rolls {α : Type} (f : α → State → State) (h : ∀ a s, (f a s).rolls = s.rolls)
    (o : Option α) (s : State) : ((o.map f).getD id s).rolls = s.rolls := by
  cases o <;> simp [h]

@[simp] theorem optional_recipes {α : Type} (f : α → State → State) (h : ∀ a s, (f a s).recipes = s.recipes)
    (o : Option α) (s : State) : ((o.map f).getD id s).recipes = s.recipes := by
  cases o <;> simp [h]

@[simp] theorem optional_dark {α : Type} (f : α → State → State) (h : ∀ a s, (f a s).dark = s.dark)
    (o : Option α) (s : State) : ((o.map f).getD id s).dark = s.dark := by
  cases o <;> simp [h]

@[simp] theorem optional_dev {α : Type} (f : α → State → State) (h : ∀ a s, (f a s).dev = s.dev)
    (o : Option α) (s : State) : ((o.map f).getD id s).dev = s.dev := by
  cases o <;> simp [h]

@[simp] theorem optional_cache {α : Type} (f : α → State → State) (h : ∀ a s, (f a s).cache = s.cache)
    (o : Option α) (s : State) : ((o.map f).getD id s).cache = s.cache := by
  cases o <;> simp [h]

@[simp] theorem optional_card {α : Type} (f : α → State → State) (h : ∀ a s, (f a s).card = s.card)
    (o : Option α) (s : State) : ((o.map f).getD id s).card = s.card := by
  cases o <;> simp [h]

@[simp] theorem optional_free {α : Type} (f : α → State → State) (h : ∀ a s, (f a s).free = s.free)
    (o : Option α) (s : State) : ((o.map f).getD id s).free = s.free := by
  cases o <;> simp [h]

@[simp] theorem State.setTime_keeps (t : Time) (s : State) :
    (State.setTime t s).pending = s.pending ∧ (State.setTime t s).held = s.held ∧
    (State.setTime t s).part = s.part ∧ (State.setTime t s).causes = s.causes ∧
    (State.setTime t s).wallOffset = s.wallOffset ∧ (State.setTime t s).link = s.link ∧
    (State.setTime t s).notices = s.notices ∧ (State.setTime t s).seq = s.seq ∧
    (State.setTime t s).pool = s.pool ∧ (State.setTime t s).pau = s.pau ∧ (State.setTime t s).mem = s.mem ∧
    (State.setTime t s).table = s.table ∧ (State.setTime t s).rolls = s.rolls ∧
    (State.setTime t s).recipes = s.recipes ∧ (State.setTime t s).dark = s.dark ∧
    (State.setTime t s).dev = s.dev ∧ (State.setTime t s).cache = s.cache ∧
    (State.setTime t s).card = s.card ∧ (State.setTime t s).free = s.free := by
  unfold State.setTime
  try dsimp only
  repeat' split
  all_goals simp

@[simp] theorem State.tick_keeps (s : State) :
    (State.tick s).pending = s.pending ∧ (State.tick s).held = s.held ∧ (State.tick s).part = s.part ∧
    (State.tick s).causes = s.causes ∧ (State.tick s).wallOffset = s.wallOffset ∧
    (State.tick s).link = s.link ∧ (State.tick s).notices = s.notices ∧ (State.tick s).seq = s.seq ∧
    (State.tick s).pool = s.pool ∧ (State.tick s).pau = s.pau ∧ (State.tick s).mem = s.mem ∧
    (State.tick s).table = s.table ∧ (State.tick s).rolls = s.rolls ∧ (State.tick s).recipes = s.recipes ∧
    (State.tick s).dark = s.dark ∧ (State.tick s).dev = s.dev ∧ (State.tick s).cache = s.cache ∧
    (State.tick s).card = s.card ∧ (State.tick s).free = s.free := by
  unfold State.tick
  simp

@[simp] theorem State.advanceTo_keeps (t : Time) (s : State) :
    (State.advanceTo t s).pending = s.pending ∧ (State.advanceTo t s).held = s.held ∧
    (State.advanceTo t s).part = s.part ∧ (State.advanceTo t s).causes = s.causes ∧
    (State.advanceTo t s).wallOffset = s.wallOffset ∧ (State.advanceTo t s).link = s.link ∧
    (State.advanceTo t s).notices = s.notices ∧ (State.advanceTo t s).seq = s.seq ∧
    (State.advanceTo t s).pool = s.pool ∧ (State.advanceTo t s).pau = s.pau ∧
    (State.advanceTo t s).mem = s.mem ∧ (State.advanceTo t s).table = s.table ∧
    (State.advanceTo t s).rolls = s.rolls ∧ (State.advanceTo t s).recipes = s.recipes ∧
    (State.advanceTo t s).dark = s.dark ∧ (State.advanceTo t s).dev = s.dev ∧
    (State.advanceTo t s).cache = s.cache ∧ (State.advanceTo t s).card = s.card ∧
    (State.advanceTo t s).free = s.free := by
  unfold State.advanceTo
  try dsimp only
  repeat' split
  all_goals simp

@[simp] theorem State.draw_keeps (s : State) :
    (State.draw s).pending = s.pending ∧ (State.draw s).held = s.held ∧ (State.draw s).part = s.part ∧
    (State.draw s).causes = s.causes ∧ (State.draw s).timeBase = s.timeBase ∧
    (State.draw s).wallOffset = s.wallOffset ∧ (State.draw s).link = s.link ∧
    (State.draw s).notices = s.notices ∧ (State.draw s).sync = s.sync ∧ (State.draw s).seq = s.seq ∧
    (State.draw s).pool = s.pool ∧ (State.draw s).pau = s.pau ∧ (State.draw s).mem = s.mem ∧
    (State.draw s).table = s.table ∧ (State.draw s).rolls = s.rolls ∧ (State.draw s).recipes = s.recipes ∧
    (State.draw s).dark = s.dark ∧ (State.draw s).dev = s.dev ∧ (State.draw s).cache = s.cache ∧
    (State.draw s).card = s.card := by
  unfold State.draw
  simp

@[simp] theorem raiseCount_keeps (k : NoticeKind) (subject : Option Subject) (n : Nat) (s : State) :
    (raiseCount k subject n s).pending = s.pending ∧ (raiseCount k subject n s).held = s.held ∧
    (raiseCount k subject n s).part = s.part ∧ (raiseCount k subject n s).causes = s.causes ∧
    (raiseCount k subject n s).timeBase = s.timeBase ∧
    (raiseCount k subject n s).wallOffset = s.wallOffset ∧ (raiseCount k subject n s).link = s.link ∧
    (raiseCount k subject n s).sync = s.sync ∧ (raiseCount k subject n s).seq = s.seq ∧
    (raiseCount k subject n s).pool = s.pool ∧ (raiseCount k subject n s).pau = s.pau ∧
    (raiseCount k subject n s).mem = s.mem ∧ (raiseCount k subject n s).table = s.table ∧
    (raiseCount k subject n s).rolls = s.rolls ∧ (raiseCount k subject n s).recipes = s.recipes ∧
    (raiseCount k subject n s).dark = s.dark ∧ (raiseCount k subject n s).dev = s.dev ∧
    (raiseCount k subject n s).cache = s.cache ∧ (raiseCount k subject n s).card = s.card ∧
    (raiseCount k subject n s).free = s.free := by
  unfold raiseCount
  simp

@[simp] theorem raise_keeps (k : NoticeKind) (subject : Option Subject) (s : State) :
    (raise k subject s).pending = s.pending ∧ (raise k subject s).held = s.held ∧
    (raise k subject s).part = s.part ∧ (raise k subject s).causes = s.causes ∧
    (raise k subject s).timeBase = s.timeBase ∧ (raise k subject s).wallOffset = s.wallOffset ∧
    (raise k subject s).link = s.link ∧ (raise k subject s).sync = s.sync ∧
    (raise k subject s).seq = s.seq ∧ (raise k subject s).pool = s.pool ∧ (raise k subject s).pau = s.pau ∧
    (raise k subject s).mem = s.mem ∧ (raise k subject s).table = s.table ∧
    (raise k subject s).rolls = s.rolls ∧ (raise k subject s).recipes = s.recipes ∧
    (raise k subject s).dark = s.dark ∧ (raise k subject s).dev = s.dev ∧
    (raise k subject s).cache = s.cache ∧ (raise k subject s).card = s.card ∧
    (raise k subject s).free = s.free := by
  unfold raise
  simp

@[simp] theorem raiseShot_keeps (k : NoticeKind) (shot : Nat) (s : State) :
    (raiseShot k shot s).pending = s.pending ∧ (raiseShot k shot s).held = s.held ∧
    (raiseShot k shot s).part = s.part ∧ (raiseShot k shot s).causes = s.causes ∧
    (raiseShot k shot s).timeBase = s.timeBase ∧ (raiseShot k shot s).wallOffset = s.wallOffset ∧
    (raiseShot k shot s).link = s.link ∧ (raiseShot k shot s).sync = s.sync ∧
    (raiseShot k shot s).seq = s.seq ∧ (raiseShot k shot s).pool = s.pool ∧
    (raiseShot k shot s).pau = s.pau ∧ (raiseShot k shot s).mem = s.mem ∧
    (raiseShot k shot s).table = s.table ∧ (raiseShot k shot s).rolls = s.rolls ∧
    (raiseShot k shot s).recipes = s.recipes ∧ (raiseShot k shot s).dark = s.dark ∧
    (raiseShot k shot s).dev = s.dev ∧ (raiseShot k shot s).cache = s.cache ∧
    (raiseShot k shot s).card = s.card ∧ (raiseShot k shot s).free = s.free := by
  unfold raiseShot
  simp

@[simp] theorem answer_keeps (tag : Nat) (result : ResultCode) (payload : Payload) (s : State) :
    (answer tag result payload s).pending = s.pending ∧ (answer tag result payload s).held = s.held ∧
    (answer tag result payload s).part = s.part ∧ (answer tag result payload s).causes = s.causes ∧
    (answer tag result payload s).timeBase = s.timeBase ∧
    (answer tag result payload s).wallOffset = s.wallOffset ∧
    (answer tag result payload s).notices = s.notices ∧ (answer tag result payload s).sync = s.sync ∧
    (answer tag result payload s).seq = s.seq ∧ (answer tag result payload s).pool = s.pool ∧
    (answer tag result payload s).pau = s.pau ∧ (answer tag result payload s).mem = s.mem ∧
    (answer tag result payload s).table = s.table ∧ (answer tag result payload s).rolls = s.rolls ∧
    (answer tag result payload s).recipes = s.recipes ∧ (answer tag result payload s).dark = s.dark ∧
    (answer tag result payload s).dev = s.dev ∧ (answer tag result payload s).cache = s.cache ∧
    (answer tag result payload s).card = s.card ∧ (answer tag result payload s).free = s.free := by
  unfold answer
  simp

@[simp] theorem answerCode_keeps (tag : Nat) (result : ResultCode) (s : State) :
    (answerCode tag result s).pending = s.pending ∧ (answerCode tag result s).held = s.held ∧
    (answerCode tag result s).part = s.part ∧ (answerCode tag result s).causes = s.causes ∧
    (answerCode tag result s).timeBase = s.timeBase ∧ (answerCode tag result s).wallOffset = s.wallOffset ∧
    (answerCode tag result s).notices = s.notices ∧ (answerCode tag result s).sync = s.sync ∧
    (answerCode tag result s).seq = s.seq ∧ (answerCode tag result s).pool = s.pool ∧
    (answerCode tag result s).pau = s.pau ∧ (answerCode tag result s).mem = s.mem ∧
    (answerCode tag result s).table = s.table ∧ (answerCode tag result s).rolls = s.rolls ∧
    (answerCode tag result s).recipes = s.recipes ∧ (answerCode tag result s).dark = s.dark ∧
    (answerCode tag result s).dev = s.dev ∧ (answerCode tag result s).cache = s.cache ∧
    (answerCode tag result s).card = s.card ∧ (answerCode tag result s).free = s.free := by
  unfold answerCode
  simp

@[simp] theorem answerAll_keeps (tags : List Nat) (result : ResultCode) (s : State) :
    (answerAll tags result s).pending = s.pending ∧ (answerAll tags result s).held = s.held ∧
    (answerAll tags result s).part = s.part ∧ (answerAll tags result s).causes = s.causes ∧
    (answerAll tags result s).timeBase = s.timeBase ∧ (answerAll tags result s).wallOffset = s.wallOffset ∧
    (answerAll tags result s).notices = s.notices ∧ (answerAll tags result s).sync = s.sync ∧
    (answerAll tags result s).seq = s.seq ∧ (answerAll tags result s).pool = s.pool ∧
    (answerAll tags result s).pau = s.pau ∧ (answerAll tags result s).mem = s.mem ∧
    (answerAll tags result s).table = s.table ∧ (answerAll tags result s).rolls = s.rolls ∧
    (answerAll tags result s).recipes = s.recipes ∧ (answerAll tags result s).dark = s.dark ∧
    (answerAll tags result s).dev = s.dev ∧ (answerAll tags result s).cache = s.cache ∧
    (answerAll tags result s).card = s.card ∧ (answerAll tags result s).free = s.free := by
  unfold answerAll
  simp

@[simp] theorem holdTag_keeps (tag : Nat) (s : State) :
    (holdTag tag s).pending = s.pending ∧ (holdTag tag s).part = s.part ∧
    (holdTag tag s).causes = s.causes ∧ (holdTag tag s).timeBase = s.timeBase ∧
    (holdTag tag s).wallOffset = s.wallOffset ∧ (holdTag tag s).notices = s.notices ∧
    (holdTag tag s).sync = s.sync ∧ (holdTag tag s).seq = s.seq ∧ (holdTag tag s).pool = s.pool ∧
    (holdTag tag s).pau = s.pau ∧ (holdTag tag s).mem = s.mem ∧ (holdTag tag s).table = s.table ∧
    (holdTag tag s).rolls = s.rolls ∧ (holdTag tag s).recipes = s.recipes ∧ (holdTag tag s).dark = s.dark ∧
    (holdTag tag s).dev = s.dev ∧ (holdTag tag s).cache = s.cache ∧ (holdTag tag s).card = s.card ∧
    (holdTag tag s).free = s.free := by
  unfold holdTag
  simp

@[simp] theorem discardPacket_keeps (s : State) :
    (discardPacket s).pending = s.pending ∧ (discardPacket s).held = s.held ∧
    (discardPacket s).part = s.part ∧ (discardPacket s).causes = s.causes ∧
    (discardPacket s).timeBase = s.timeBase ∧ (discardPacket s).wallOffset = s.wallOffset ∧
    (discardPacket s).sync = s.sync ∧ (discardPacket s).seq = s.seq ∧ (discardPacket s).pool = s.pool ∧
    (discardPacket s).pau = s.pau ∧ (discardPacket s).mem = s.mem ∧ (discardPacket s).table = s.table ∧
    (discardPacket s).rolls = s.rolls ∧ (discardPacket s).recipes = s.recipes ∧
    (discardPacket s).dark = s.dark ∧ (discardPacket s).dev = s.dev ∧ (discardPacket s).cache = s.cache ∧
    (discardPacket s).card = s.card ∧ (discardPacket s).free = s.free := by
  unfold discardPacket
  simp

@[simp] theorem answerTagBusy_keeps (tag : Nat) (s : State) :
    (answerTagBusy tag s).pending = s.pending ∧ (answerTagBusy tag s).held = s.held ∧
    (answerTagBusy tag s).part = s.part ∧ (answerTagBusy tag s).causes = s.causes ∧
    (answerTagBusy tag s).timeBase = s.timeBase ∧ (answerTagBusy tag s).wallOffset = s.wallOffset ∧
    (answerTagBusy tag s).sync = s.sync ∧ (answerTagBusy tag s).seq = s.seq ∧
    (answerTagBusy tag s).pool = s.pool ∧ (answerTagBusy tag s).pau = s.pau ∧
    (answerTagBusy tag s).mem = s.mem ∧ (answerTagBusy tag s).table = s.table ∧
    (answerTagBusy tag s).rolls = s.rolls ∧ (answerTagBusy tag s).recipes = s.recipes ∧
    (answerTagBusy tag s).dark = s.dark ∧ (answerTagBusy tag s).dev = s.dev ∧
    (answerTagBusy tag s).cache = s.cache ∧ (answerTagBusy tag s).card = s.card ∧
    (answerTagBusy tag s).free = s.free := by
  unfold answerTagBusy
  try dsimp only
  repeat' split
  all_goals simp

@[simp] theorem updateRoll_keeps (i : Nat) (f : Roll → Roll) (s : State) :
    (updateRoll i f s).pending = s.pending ∧ (updateRoll i f s).held = s.held ∧
    (updateRoll i f s).part = s.part ∧ (updateRoll i f s).causes = s.causes ∧
    (updateRoll i f s).timeBase = s.timeBase ∧ (updateRoll i f s).wallOffset = s.wallOffset ∧
    (updateRoll i f s).link = s.link ∧ (updateRoll i f s).notices = s.notices ∧
    (updateRoll i f s).sync = s.sync ∧ (updateRoll i f s).seq = s.seq ∧ (updateRoll i f s).pool = s.pool ∧
    (updateRoll i f s).pau = s.pau ∧ (updateRoll i f s).mem = s.mem ∧ (updateRoll i f s).table = s.table ∧
    (updateRoll i f s).recipes = s.recipes ∧ (updateRoll i f s).dark = s.dark ∧
    (updateRoll i f s).dev = s.dev ∧ (updateRoll i f s).cache = s.cache ∧ (updateRoll i f s).card = s.card ∧
    (updateRoll i f s).free = s.free := by
  unfold updateRoll
  simp

@[simp] theorem updateRecord_keeps (n : Nat) (f : Record → Record) (s : State) :
    (updateRecord n f s).pending = s.pending ∧ (updateRecord n f s).held = s.held ∧
    (updateRecord n f s).part = s.part ∧ (updateRecord n f s).causes = s.causes ∧
    (updateRecord n f s).timeBase = s.timeBase ∧ (updateRecord n f s).wallOffset = s.wallOffset ∧
    (updateRecord n f s).link = s.link ∧ (updateRecord n f s).notices = s.notices ∧
    (updateRecord n f s).sync = s.sync ∧ (updateRecord n f s).seq = s.seq ∧
    (updateRecord n f s).pool = s.pool ∧ (updateRecord n f s).pau = s.pau ∧
    (updateRecord n f s).mem = s.mem ∧ (updateRecord n f s).rolls = s.rolls ∧
    (updateRecord n f s).recipes = s.recipes ∧ (updateRecord n f s).dark = s.dark ∧
    (updateRecord n f s).dev = s.dev ∧ (updateRecord n f s).cache = s.cache ∧
    (updateRecord n f s).card = s.card ∧ (updateRecord n f s).free = s.free := by
  unfold updateRecord
  simp

@[simp] theorem updateRecords_keeps (f : Record → Record) (s : State) :
    (updateRecords f s).pending = s.pending ∧ (updateRecords f s).held = s.held ∧
    (updateRecords f s).part = s.part ∧ (updateRecords f s).causes = s.causes ∧
    (updateRecords f s).timeBase = s.timeBase ∧ (updateRecords f s).wallOffset = s.wallOffset ∧
    (updateRecords f s).link = s.link ∧ (updateRecords f s).notices = s.notices ∧
    (updateRecords f s).sync = s.sync ∧ (updateRecords f s).seq = s.seq ∧
    (updateRecords f s).pool = s.pool ∧ (updateRecords f s).pau = s.pau ∧ (updateRecords f s).mem = s.mem ∧
    (updateRecords f s).rolls = s.rolls ∧ (updateRecords f s).recipes = s.recipes ∧
    (updateRecords f s).dark = s.dark ∧ (updateRecords f s).dev = s.dev ∧
    (updateRecords f s).cache = s.cache ∧ (updateRecords f s).card = s.card ∧
    (updateRecords f s).free = s.free := by
  unfold updateRecords
  simp

@[simp] theorem setSlot_keeps (i : Nat) (x : RecordSlot) (s : State) :
    (setSlot i x s).pending = s.pending ∧ (setSlot i x s).held = s.held ∧ (setSlot i x s).part = s.part ∧
    (setSlot i x s).causes = s.causes ∧ (setSlot i x s).timeBase = s.timeBase ∧
    (setSlot i x s).wallOffset = s.wallOffset ∧ (setSlot i x s).link = s.link ∧
    (setSlot i x s).notices = s.notices ∧ (setSlot i x s).sync = s.sync ∧ (setSlot i x s).seq = s.seq ∧
    (setSlot i x s).pool = s.pool ∧ (setSlot i x s).pau = s.pau ∧ (setSlot i x s).mem = s.mem ∧
    (setSlot i x s).rolls = s.rolls ∧ (setSlot i x s).recipes = s.recipes ∧ (setSlot i x s).dark = s.dark ∧
    (setSlot i x s).dev = s.dev ∧ (setSlot i x s).cache = s.cache ∧ (setSlot i x s).card = s.card ∧
    (setSlot i x s).free = s.free := by
  unfold setSlot
  simp

@[simp] theorem leaveUseOrder_keeps (i : Nat) (s : State) :
    (leaveUseOrder i s).pending = s.pending ∧ (leaveUseOrder i s).held = s.held ∧
    (leaveUseOrder i s).part = s.part ∧ (leaveUseOrder i s).causes = s.causes ∧
    (leaveUseOrder i s).timeBase = s.timeBase ∧ (leaveUseOrder i s).wallOffset = s.wallOffset ∧
    (leaveUseOrder i s).link = s.link ∧ (leaveUseOrder i s).notices = s.notices ∧
    (leaveUseOrder i s).sync = s.sync ∧ (leaveUseOrder i s).seq = s.seq ∧
    (leaveUseOrder i s).pool = s.pool ∧ (leaveUseOrder i s).pau = s.pau ∧ (leaveUseOrder i s).mem = s.mem ∧
    (leaveUseOrder i s).rolls = s.rolls ∧ (leaveUseOrder i s).recipes = s.recipes ∧
    (leaveUseOrder i s).dark = s.dark ∧ (leaveUseOrder i s).dev = s.dev ∧
    (leaveUseOrder i s).cache = s.cache ∧ (leaveUseOrder i s).card = s.card ∧
    (leaveUseOrder i s).free = s.free := by
  unfold leaveUseOrder
  simp

@[simp] theorem touchSlot_keeps (i : Nat) (s : State) :
    (touchSlot i s).pending = s.pending ∧ (touchSlot i s).held = s.held ∧ (touchSlot i s).part = s.part ∧
    (touchSlot i s).causes = s.causes ∧ (touchSlot i s).timeBase = s.timeBase ∧
    (touchSlot i s).wallOffset = s.wallOffset ∧ (touchSlot i s).link = s.link ∧
    (touchSlot i s).notices = s.notices ∧ (touchSlot i s).sync = s.sync ∧ (touchSlot i s).seq = s.seq ∧
    (touchSlot i s).pool = s.pool ∧ (touchSlot i s).pau = s.pau ∧ (touchSlot i s).mem = s.mem ∧
    (touchSlot i s).rolls = s.rolls ∧ (touchSlot i s).recipes = s.recipes ∧ (touchSlot i s).dark = s.dark ∧
    (touchSlot i s).dev = s.dev ∧ (touchSlot i s).cache = s.cache ∧ (touchSlot i s).card = s.card ∧
    (touchSlot i s).free = s.free := by
  unfold touchSlot
  simp

@[simp] theorem touchRecord_keeps (n : Nat) (s : State) :
    (touchRecord n s).pending = s.pending ∧ (touchRecord n s).held = s.held ∧
    (touchRecord n s).part = s.part ∧ (touchRecord n s).causes = s.causes ∧
    (touchRecord n s).timeBase = s.timeBase ∧ (touchRecord n s).wallOffset = s.wallOffset ∧
    (touchRecord n s).link = s.link ∧ (touchRecord n s).notices = s.notices ∧
    (touchRecord n s).sync = s.sync ∧ (touchRecord n s).seq = s.seq ∧ (touchRecord n s).pool = s.pool ∧
    (touchRecord n s).pau = s.pau ∧ (touchRecord n s).mem = s.mem ∧ (touchRecord n s).rolls = s.rolls ∧
    (touchRecord n s).recipes = s.recipes ∧ (touchRecord n s).dark = s.dark ∧
    (touchRecord n s).dev = s.dev ∧ (touchRecord n s).cache = s.cache ∧ (touchRecord n s).card = s.card ∧
    (touchRecord n s).free = s.free := by
  unfold touchRecord
  try dsimp only
  repeat' split
  all_goals simp

@[simp] theorem leaveAmended_keeps (n : Nat) (s : State) :
    (leaveAmended n s).pending = s.pending ∧ (leaveAmended n s).held = s.held ∧
    (leaveAmended n s).part = s.part ∧ (leaveAmended n s).causes = s.causes ∧
    (leaveAmended n s).timeBase = s.timeBase ∧ (leaveAmended n s).wallOffset = s.wallOffset ∧
    (leaveAmended n s).link = s.link ∧ (leaveAmended n s).notices = s.notices ∧
    (leaveAmended n s).sync = s.sync ∧ (leaveAmended n s).seq = s.seq ∧ (leaveAmended n s).pool = s.pool ∧
    (leaveAmended n s).pau = s.pau ∧ (leaveAmended n s).mem = s.mem ∧ (leaveAmended n s).rolls = s.rolls ∧
    (leaveAmended n s).recipes = s.recipes ∧ (leaveAmended n s).dark = s.dark ∧
    (leaveAmended n s).dev = s.dev ∧ (leaveAmended n s).cache = s.cache ∧ (leaveAmended n s).card = s.card ∧
    (leaveAmended n s).free = s.free := by
  unfold leaveAmended
  simp

@[simp] theorem removeRecord_keeps (n : Nat) (s : State) :
    (removeRecord n s).pending = s.pending ∧ (removeRecord n s).held = s.held ∧
    (removeRecord n s).part = s.part ∧ (removeRecord n s).causes = s.causes ∧
    (removeRecord n s).timeBase = s.timeBase ∧ (removeRecord n s).wallOffset = s.wallOffset ∧
    (removeRecord n s).link = s.link ∧ (removeRecord n s).notices = s.notices ∧
    (removeRecord n s).sync = s.sync ∧ (removeRecord n s).seq = s.seq ∧ (removeRecord n s).pool = s.pool ∧
    (removeRecord n s).pau = s.pau ∧ (removeRecord n s).mem = s.mem ∧ (removeRecord n s).rolls = s.rolls ∧
    (removeRecord n s).recipes = s.recipes ∧ (removeRecord n s).dark = s.dark ∧
    (removeRecord n s).dev = s.dev ∧ (removeRecord n s).cache = s.cache ∧ (removeRecord n s).card = s.card ∧
    (removeRecord n s).free = s.free := by
  unfold removeRecord
  try dsimp only
  repeat' split
  all_goals simp

@[simp] theorem setOwner_keeps (plane : Nat) (o : Owner) (s : State) :
    (setOwner plane o s).pending = s.pending ∧ (setOwner plane o s).held = s.held ∧
    (setOwner plane o s).part = s.part ∧ (setOwner plane o s).causes = s.causes ∧
    (setOwner plane o s).timeBase = s.timeBase ∧ (setOwner plane o s).wallOffset = s.wallOffset ∧
    (setOwner plane o s).link = s.link ∧ (setOwner plane o s).notices = s.notices ∧
    (setOwner plane o s).sync = s.sync ∧ (setOwner plane o s).seq = s.seq ∧
    (setOwner plane o s).pau = s.pau ∧ (setOwner plane o s).mem = s.mem ∧
    (setOwner plane o s).table = s.table ∧ (setOwner plane o s).rolls = s.rolls ∧
    (setOwner plane o s).recipes = s.recipes ∧ (setOwner plane o s).dark = s.dark ∧
    (setOwner plane o s).dev = s.dev ∧ (setOwner plane o s).cache = s.cache ∧
    (setOwner plane o s).card = s.card ∧ (setOwner plane o s).free = s.free := by
  unfold setOwner
  simp

@[simp] theorem releasePlane_keeps (plane : Option Nat) (s : State) :
    (releasePlane plane s).pending = s.pending ∧ (releasePlane plane s).held = s.held ∧
    (releasePlane plane s).part = s.part ∧ (releasePlane plane s).causes = s.causes ∧
    (releasePlane plane s).timeBase = s.timeBase ∧ (releasePlane plane s).wallOffset = s.wallOffset ∧
    (releasePlane plane s).link = s.link ∧ (releasePlane plane s).notices = s.notices ∧
    (releasePlane plane s).sync = s.sync ∧ (releasePlane plane s).seq = s.seq ∧
    (releasePlane plane s).pau = s.pau ∧ (releasePlane plane s).mem = s.mem ∧
    (releasePlane plane s).table = s.table ∧ (releasePlane plane s).rolls = s.rolls ∧
    (releasePlane plane s).recipes = s.recipes ∧ (releasePlane plane s).dark = s.dark ∧
    (releasePlane plane s).dev = s.dev ∧ (releasePlane plane s).cache = s.cache ∧
    (releasePlane plane s).card = s.card ∧ (releasePlane plane s).free = s.free := by
  unfold releasePlane
  try dsimp only
  repeat' split
  all_goals simp

@[simp] theorem setDarkEntry_keeps (e : Nat) (x : DarkEntry) (s : State) :
    (setDarkEntry e x s).pending = s.pending ∧ (setDarkEntry e x s).held = s.held ∧
    (setDarkEntry e x s).part = s.part ∧ (setDarkEntry e x s).causes = s.causes ∧
    (setDarkEntry e x s).timeBase = s.timeBase ∧ (setDarkEntry e x s).wallOffset = s.wallOffset ∧
    (setDarkEntry e x s).link = s.link ∧ (setDarkEntry e x s).notices = s.notices ∧
    (setDarkEntry e x s).sync = s.sync ∧ (setDarkEntry e x s).seq = s.seq ∧
    (setDarkEntry e x s).pool = s.pool ∧ (setDarkEntry e x s).pau = s.pau ∧
    (setDarkEntry e x s).mem = s.mem ∧ (setDarkEntry e x s).table = s.table ∧
    (setDarkEntry e x s).rolls = s.rolls ∧ (setDarkEntry e x s).recipes = s.recipes ∧
    (setDarkEntry e x s).dev = s.dev ∧ (setDarkEntry e x s).cache = s.cache ∧
    (setDarkEntry e x s).card = s.card ∧ (setDarkEntry e x s).free = s.free := by
  unfold setDarkEntry
  simp

@[simp] theorem startPau_keeps (s : State) :
    (startPau s).pending = s.pending ∧ (startPau s).held = s.held ∧ (startPau s).part = s.part ∧
    (startPau s).causes = s.causes ∧ (startPau s).timeBase = s.timeBase ∧
    (startPau s).wallOffset = s.wallOffset ∧ (startPau s).link = s.link ∧ (startPau s).notices = s.notices ∧
    (startPau s).sync = s.sync ∧ (startPau s).seq = s.seq ∧ (startPau s).pool = s.pool ∧
    (startPau s).mem = s.mem ∧ (startPau s).table = s.table ∧ (startPau s).rolls = s.rolls ∧
    (startPau s).recipes = s.recipes ∧ (startPau s).dark = s.dark ∧ (startPau s).dev = s.dev ∧
    (startPau s).cache = s.cache ∧ (startPau s).card = s.card ∧ (startPau s).free = s.free := by
  unfold startPau
  try dsimp only
  repeat' split
  all_goals simp

@[simp] theorem joinPau_keeps (q : PauRequest) (s : State) :
    (joinPau q s).pending = s.pending ∧ (joinPau q s).held = s.held ∧ (joinPau q s).part = s.part ∧
    (joinPau q s).causes = s.causes ∧ (joinPau q s).timeBase = s.timeBase ∧
    (joinPau q s).wallOffset = s.wallOffset ∧ (joinPau q s).link = s.link ∧
    (joinPau q s).notices = s.notices ∧ (joinPau q s).sync = s.sync ∧ (joinPau q s).seq = s.seq ∧
    (joinPau q s).pool = s.pool ∧ (joinPau q s).mem = s.mem ∧ (joinPau q s).table = s.table ∧
    (joinPau q s).rolls = s.rolls ∧ (joinPau q s).recipes = s.recipes ∧ (joinPau q s).dark = s.dark ∧
    (joinPau q s).dev = s.dev ∧ (joinPau q s).cache = s.cache ∧ (joinPau q s).card = s.card ∧
    (joinPau q s).free = s.free := by
  unfold joinPau
  simp

@[simp] theorem placeApplyDark_keeps (n e resume : Nat) (s : State) :
    (placeApplyDark n e resume s).pending = s.pending ∧ (placeApplyDark n e resume s).held = s.held ∧
    (placeApplyDark n e resume s).part = s.part ∧ (placeApplyDark n e resume s).causes = s.causes ∧
    (placeApplyDark n e resume s).timeBase = s.timeBase ∧
    (placeApplyDark n e resume s).wallOffset = s.wallOffset ∧ (placeApplyDark n e resume s).link = s.link ∧
    (placeApplyDark n e resume s).notices = s.notices ∧ (placeApplyDark n e resume s).sync = s.sync ∧
    (placeApplyDark n e resume s).seq = s.seq ∧ (placeApplyDark n e resume s).pool = s.pool ∧
    (placeApplyDark n e resume s).mem = s.mem ∧ (placeApplyDark n e resume s).table = s.table ∧
    (placeApplyDark n e resume s).rolls = s.rolls ∧ (placeApplyDark n e resume s).recipes = s.recipes ∧
    (placeApplyDark n e resume s).dark = s.dark ∧ (placeApplyDark n e resume s).dev = s.dev ∧
    (placeApplyDark n e resume s).cache = s.cache ∧ (placeApplyDark n e resume s).card = s.card ∧
    (placeApplyDark n e resume s).free = s.free := by
  unfold placeApplyDark
  try dsimp only
  repeat' split
  all_goals simp

@[simp] theorem placeDeferred_keeps (s : State) :
    (placeDeferred s).pending = s.pending ∧ (placeDeferred s).held = s.held ∧
    (placeDeferred s).part = s.part ∧ (placeDeferred s).causes = s.causes ∧
    (placeDeferred s).timeBase = s.timeBase ∧ (placeDeferred s).wallOffset = s.wallOffset ∧
    (placeDeferred s).link = s.link ∧ (placeDeferred s).notices = s.notices ∧
    (placeDeferred s).sync = s.sync ∧ (placeDeferred s).seq = s.seq ∧ (placeDeferred s).pool = s.pool ∧
    (placeDeferred s).mem = s.mem ∧ (placeDeferred s).table = s.table ∧ (placeDeferred s).rolls = s.rolls ∧
    (placeDeferred s).recipes = s.recipes ∧ (placeDeferred s).dark = s.dark ∧
    (placeDeferred s).dev = s.dev ∧ (placeDeferred s).cache = s.cache ∧ (placeDeferred s).card = s.card ∧
    (placeDeferred s).free = s.free := by
  unfold placeDeferred
  try dsimp only
  repeat' split
  all_goals simp

@[simp] theorem leavePau_keeps (p : PauRequest → Bool) (s : State) :
    (leavePau p s).pending = s.pending ∧ (leavePau p s).held = s.held ∧ (leavePau p s).part = s.part ∧
    (leavePau p s).causes = s.causes ∧ (leavePau p s).timeBase = s.timeBase ∧
    (leavePau p s).wallOffset = s.wallOffset ∧ (leavePau p s).link = s.link ∧
    (leavePau p s).notices = s.notices ∧ (leavePau p s).sync = s.sync ∧ (leavePau p s).seq = s.seq ∧
    (leavePau p s).pool = s.pool ∧ (leavePau p s).mem = s.mem ∧ (leavePau p s).table = s.table ∧
    (leavePau p s).rolls = s.rolls ∧ (leavePau p s).recipes = s.recipes ∧ (leavePau p s).dark = s.dark ∧
    (leavePau p s).dev = s.dev ∧ (leavePau p s).cache = s.cache ∧ (leavePau p s).card = s.card ∧
    (leavePau p s).free = s.free := by
  unfold leavePau
  simp

@[simp] theorem partialWork_keeps (q : PauRequest) (s : State) :
    (partialWork q s).pending = s.pending ∧ (partialWork q s).held = s.held ∧
    (partialWork q s).part = s.part ∧ (partialWork q s).causes = s.causes ∧
    (partialWork q s).timeBase = s.timeBase ∧ (partialWork q s).wallOffset = s.wallOffset ∧
    (partialWork q s).link = s.link ∧ (partialWork q s).notices = s.notices ∧
    (partialWork q s).sync = s.sync ∧ (partialWork q s).seq = s.seq ∧ (partialWork q s).pool = s.pool ∧
    (partialWork q s).pau = s.pau ∧ (partialWork q s).table = s.table ∧ (partialWork q s).rolls = s.rolls ∧
    (partialWork q s).recipes = s.recipes ∧ (partialWork q s).dark = s.dark ∧
    (partialWork q s).dev = s.dev ∧ (partialWork q s).cache = s.cache ∧
    (partialWork q s).card = s.card := by
  unfold partialWork
  simp

@[simp] theorem abandonPau_keeps (n : Nat) (s : State) :
    (abandonPau n s).pending = s.pending ∧ (abandonPau n s).held = s.held ∧ (abandonPau n s).part = s.part ∧
    (abandonPau n s).causes = s.causes ∧ (abandonPau n s).timeBase = s.timeBase ∧
    (abandonPau n s).wallOffset = s.wallOffset ∧ (abandonPau n s).link = s.link ∧
    (abandonPau n s).notices = s.notices ∧ (abandonPau n s).sync = s.sync ∧ (abandonPau n s).seq = s.seq ∧
    (abandonPau n s).pool = s.pool ∧ (abandonPau n s).table = s.table ∧ (abandonPau n s).rolls = s.rolls ∧
    (abandonPau n s).recipes = s.recipes ∧ (abandonPau n s).dark = s.dark ∧ (abandonPau n s).dev = s.dev ∧
    (abandonPau n s).cache = s.cache ∧ (abandonPau n s).card = s.card := by
  unfold abandonPau
  try dsimp only
  repeat' split
  all_goals simp

@[simp] theorem dropQueuedPau_keeps (n : Nat) (s : State) :
    (dropQueuedPau n s).pending = s.pending ∧ (dropQueuedPau n s).held = s.held ∧
    (dropQueuedPau n s).part = s.part ∧ (dropQueuedPau n s).causes = s.causes ∧
    (dropQueuedPau n s).timeBase = s.timeBase ∧ (dropQueuedPau n s).wallOffset = s.wallOffset ∧
    (dropQueuedPau n s).link = s.link ∧ (dropQueuedPau n s).notices = s.notices ∧
    (dropQueuedPau n s).sync = s.sync ∧ (dropQueuedPau n s).seq = s.seq ∧
    (dropQueuedPau n s).pool = s.pool ∧ (dropQueuedPau n s).mem = s.mem ∧
    (dropQueuedPau n s).table = s.table ∧ (dropQueuedPau n s).rolls = s.rolls ∧
    (dropQueuedPau n s).recipes = s.recipes ∧ (dropQueuedPau n s).dark = s.dark ∧
    (dropQueuedPau n s).dev = s.dev ∧ (dropQueuedPau n s).cache = s.cache ∧
    (dropQueuedPau n s).card = s.card ∧ (dropQueuedPau n s).free = s.free := by
  unfold dropQueuedPau
  simp

@[simp] theorem setPreview_keeps (i : Nat) (x : PreviewSlot) (s : State) :
    (setPreview i x s).pending = s.pending ∧ (setPreview i x s).held = s.held ∧
    (setPreview i x s).part = s.part ∧ (setPreview i x s).causes = s.causes ∧
    (setPreview i x s).timeBase = s.timeBase ∧ (setPreview i x s).wallOffset = s.wallOffset ∧
    (setPreview i x s).link = s.link ∧ (setPreview i x s).notices = s.notices ∧
    (setPreview i x s).sync = s.sync ∧ (setPreview i x s).seq = s.seq ∧ (setPreview i x s).pool = s.pool ∧
    (setPreview i x s).pau = s.pau ∧ (setPreview i x s).mem = s.mem ∧ (setPreview i x s).table = s.table ∧
    (setPreview i x s).rolls = s.rolls ∧ (setPreview i x s).recipes = s.recipes ∧
    (setPreview i x s).dark = s.dark ∧ (setPreview i x s).dev = s.dev ∧ (setPreview i x s).card = s.card ∧
    (setPreview i x s).free = s.free := by
  unfold setPreview
  simp

@[simp] theorem fillSlot_keeps (i : Nat) (s : State) :
    (fillSlot i s).pending = s.pending ∧ (fillSlot i s).held = s.held ∧ (fillSlot i s).part = s.part ∧
    (fillSlot i s).causes = s.causes ∧ (fillSlot i s).timeBase = s.timeBase ∧
    (fillSlot i s).wallOffset = s.wallOffset ∧ (fillSlot i s).link = s.link ∧
    (fillSlot i s).notices = s.notices ∧ (fillSlot i s).sync = s.sync ∧ (fillSlot i s).seq = s.seq ∧
    (fillSlot i s).pool = s.pool ∧ (fillSlot i s).pau = s.pau ∧ (fillSlot i s).mem = s.mem ∧
    (fillSlot i s).table = s.table ∧ (fillSlot i s).rolls = s.rolls ∧ (fillSlot i s).recipes = s.recipes ∧
    (fillSlot i s).dark = s.dark ∧ (fillSlot i s).dev = s.dev ∧ (fillSlot i s).card = s.card ∧
    (fillSlot i s).free = s.free := by
  unfold fillSlot
  simp

@[simp] theorem freeSlot_keeps (i : Nat) (s : State) :
    (freeSlot i s).pending = s.pending ∧ (freeSlot i s).held = s.held ∧ (freeSlot i s).part = s.part ∧
    (freeSlot i s).causes = s.causes ∧ (freeSlot i s).timeBase = s.timeBase ∧
    (freeSlot i s).wallOffset = s.wallOffset ∧ (freeSlot i s).link = s.link ∧
    (freeSlot i s).notices = s.notices ∧ (freeSlot i s).sync = s.sync ∧ (freeSlot i s).seq = s.seq ∧
    (freeSlot i s).pool = s.pool ∧ (freeSlot i s).pau = s.pau ∧ (freeSlot i s).mem = s.mem ∧
    (freeSlot i s).table = s.table ∧ (freeSlot i s).rolls = s.rolls ∧ (freeSlot i s).recipes = s.recipes ∧
    (freeSlot i s).dark = s.dark ∧ (freeSlot i s).dev = s.dev ∧ (freeSlot i s).card = s.card ∧
    (freeSlot i s).free = s.free := by
  unfold freeSlot
  simp

@[simp] theorem touchPreview_keeps (i : Nat) (s : State) :
    (touchPreview i s).pending = s.pending ∧ (touchPreview i s).held = s.held ∧
    (touchPreview i s).part = s.part ∧ (touchPreview i s).causes = s.causes ∧
    (touchPreview i s).timeBase = s.timeBase ∧ (touchPreview i s).wallOffset = s.wallOffset ∧
    (touchPreview i s).link = s.link ∧ (touchPreview i s).notices = s.notices ∧
    (touchPreview i s).sync = s.sync ∧ (touchPreview i s).seq = s.seq ∧ (touchPreview i s).pool = s.pool ∧
    (touchPreview i s).pau = s.pau ∧ (touchPreview i s).mem = s.mem ∧ (touchPreview i s).table = s.table ∧
    (touchPreview i s).rolls = s.rolls ∧ (touchPreview i s).recipes = s.recipes ∧
    (touchPreview i s).dark = s.dark ∧ (touchPreview i s).dev = s.dev ∧ (touchPreview i s).card = s.card ∧
    (touchPreview i s).free = s.free := by
  unfold touchPreview
  simp

@[simp] theorem mapSlots_keeps (f : PreviewSlot → PreviewSlot) (s : State) :
    (mapSlots f s).pending = s.pending ∧ (mapSlots f s).held = s.held ∧ (mapSlots f s).part = s.part ∧
    (mapSlots f s).causes = s.causes ∧ (mapSlots f s).timeBase = s.timeBase ∧
    (mapSlots f s).wallOffset = s.wallOffset ∧ (mapSlots f s).link = s.link ∧
    (mapSlots f s).notices = s.notices ∧ (mapSlots f s).sync = s.sync ∧ (mapSlots f s).seq = s.seq ∧
    (mapSlots f s).pool = s.pool ∧ (mapSlots f s).pau = s.pau ∧ (mapSlots f s).mem = s.mem ∧
    (mapSlots f s).table = s.table ∧ (mapSlots f s).rolls = s.rolls ∧ (mapSlots f s).recipes = s.recipes ∧
    (mapSlots f s).dark = s.dark ∧ (mapSlots f s).dev = s.dev ∧ (mapSlots f s).card = s.card ∧
    (mapSlots f s).free = s.free := by
  unfold mapSlots
  simp

@[simp] theorem leaveSlots_keeps (gone : Nat → Bool) (s : State) :
    (leaveSlots gone s).pending = s.pending ∧ (leaveSlots gone s).held = s.held ∧
    (leaveSlots gone s).part = s.part ∧ (leaveSlots gone s).causes = s.causes ∧
    (leaveSlots gone s).timeBase = s.timeBase ∧ (leaveSlots gone s).wallOffset = s.wallOffset ∧
    (leaveSlots gone s).link = s.link ∧ (leaveSlots gone s).notices = s.notices ∧
    (leaveSlots gone s).sync = s.sync ∧ (leaveSlots gone s).seq = s.seq ∧
    (leaveSlots gone s).pool = s.pool ∧ (leaveSlots gone s).pau = s.pau ∧ (leaveSlots gone s).mem = s.mem ∧
    (leaveSlots gone s).table = s.table ∧ (leaveSlots gone s).rolls = s.rolls ∧
    (leaveSlots gone s).recipes = s.recipes ∧ (leaveSlots gone s).dark = s.dark ∧
    (leaveSlots gone s).dev = s.dev ∧ (leaveSlots gone s).card = s.card ∧
    (leaveSlots gone s).free = s.free := by
  unfold leaveSlots
  simp

@[simp] theorem pinSlot_keeps (i : Nat) (s : State) :
    (pinSlot i s).pending = s.pending ∧ (pinSlot i s).held = s.held ∧ (pinSlot i s).part = s.part ∧
    (pinSlot i s).causes = s.causes ∧ (pinSlot i s).timeBase = s.timeBase ∧
    (pinSlot i s).wallOffset = s.wallOffset ∧ (pinSlot i s).link = s.link ∧
    (pinSlot i s).notices = s.notices ∧ (pinSlot i s).sync = s.sync ∧ (pinSlot i s).seq = s.seq ∧
    (pinSlot i s).pool = s.pool ∧ (pinSlot i s).pau = s.pau ∧ (pinSlot i s).mem = s.mem ∧
    (pinSlot i s).table = s.table ∧ (pinSlot i s).rolls = s.rolls ∧ (pinSlot i s).recipes = s.recipes ∧
    (pinSlot i s).dark = s.dark ∧ (pinSlot i s).dev = s.dev ∧ (pinSlot i s).card = s.card ∧
    (pinSlot i s).free = s.free := by
  unfold pinSlot
  simp

end Sys2Proof.Machine
end

