-- ==== Sys2Proof/Laws/Blocks.lean ====
section
/-! SUPPORT. The fields each operation of the engine, the Dark Unit and the Card Store leaves as they were, and what
`service` leaves. -/

namespace Sys2Proof.Machine

@[simp] theorem placeJob_keeps (n : Nat) (k : JobKind) (priority : Nat) (tag : Option Nat) (s : State) :
    (placeJob n k priority tag s).pending = s.pending ∧ (placeJob n k priority tag s).held = s.held ∧
    (placeJob n k priority tag s).part = s.part ∧ (placeJob n k priority tag s).causes = s.causes ∧
    (placeJob n k priority tag s).timeBase = s.timeBase ∧
    (placeJob n k priority tag s).wallOffset = s.wallOffset ∧ (placeJob n k priority tag s).link = s.link ∧
    (placeJob n k priority tag s).notices = s.notices ∧ (placeJob n k priority tag s).sync = s.sync ∧
    (placeJob n k priority tag s).seq = s.seq ∧ (placeJob n k priority tag s).pool = s.pool ∧
    (placeJob n k priority tag s).pau = s.pau ∧ (placeJob n k priority tag s).mem = s.mem ∧
    (placeJob n k priority tag s).table = s.table ∧ (placeJob n k priority tag s).rolls = s.rolls ∧
    (placeJob n k priority tag s).recipes = s.recipes ∧ (placeJob n k priority tag s).dark = s.dark ∧
    (placeJob n k priority tag s).cache = s.cache ∧ (placeJob n k priority tag s).card = s.card ∧
    (placeJob n k priority tag s).free = s.free := by
  unfold placeJob
  try dsimp only
  repeat' split
  all_goals simp

@[simp] theorem claimPlane_keeps (plane : Option Nat) (o : Owner) (s : State) :
    (claimPlane plane o s).pending = s.pending ∧ (claimPlane plane o s).held = s.held ∧
    (claimPlane plane o s).part = s.part ∧ (claimPlane plane o s).causes = s.causes ∧
    (claimPlane plane o s).timeBase = s.timeBase ∧ (claimPlane plane o s).wallOffset = s.wallOffset ∧
    (claimPlane plane o s).link = s.link ∧ (claimPlane plane o s).notices = s.notices ∧
    (claimPlane plane o s).sync = s.sync ∧ (claimPlane plane o s).seq = s.seq ∧
    (claimPlane plane o s).pau = s.pau ∧ (claimPlane plane o s).mem = s.mem ∧
    (claimPlane plane o s).table = s.table ∧ (claimPlane plane o s).rolls = s.rolls ∧
    (claimPlane plane o s).recipes = s.recipes ∧ (claimPlane plane o s).dark = s.dark ∧
    (claimPlane plane o s).dev = s.dev ∧ (claimPlane plane o s).cache = s.cache ∧
    (claimPlane plane o s).card = s.card ∧ (claimPlane plane o s).free = s.free := by
  unfold claimPlane
  try dsimp only
  repeat' split
  all_goals simp

@[simp] theorem joinReads_keeps (r : CardRead) (s : State) :
    (joinReads r s).pending = s.pending ∧ (joinReads r s).held = s.held ∧ (joinReads r s).part = s.part ∧
    (joinReads r s).causes = s.causes ∧ (joinReads r s).timeBase = s.timeBase ∧
    (joinReads r s).wallOffset = s.wallOffset ∧ (joinReads r s).link = s.link ∧
    (joinReads r s).notices = s.notices ∧ (joinReads r s).sync = s.sync ∧ (joinReads r s).seq = s.seq ∧
    (joinReads r s).pool = s.pool ∧ (joinReads r s).pau = s.pau ∧ (joinReads r s).mem = s.mem ∧
    (joinReads r s).table = s.table ∧ (joinReads r s).rolls = s.rolls ∧
    (joinReads r s).recipes = s.recipes ∧ (joinReads r s).dark = s.dark ∧ (joinReads r s).dev = s.dev ∧
    (joinReads r s).cache = s.cache ∧ (joinReads r s).free = s.free := by
  unfold joinReads
  simp

@[simp] theorem dispatchJob_keeps (j : Job) (r : Record) (s : State) :
    (dispatchJob j r s).pending = s.pending ∧ (dispatchJob j r s).held = s.held ∧
    (dispatchJob j r s).part = s.part ∧ (dispatchJob j r s).causes = s.causes ∧
    (dispatchJob j r s).timeBase = s.timeBase ∧ (dispatchJob j r s).wallOffset = s.wallOffset ∧
    (dispatchJob j r s).link = s.link ∧ (dispatchJob j r s).notices = s.notices ∧
    (dispatchJob j r s).sync = s.sync ∧ (dispatchJob j r s).seq = s.seq ∧ (dispatchJob j r s).pau = s.pau ∧
    (dispatchJob j r s).mem = s.mem ∧ (dispatchJob j r s).table = s.table ∧
    (dispatchJob j r s).rolls = s.rolls ∧ (dispatchJob j r s).recipes = s.recipes ∧
    (dispatchJob j r s).dark = s.dark ∧ (dispatchJob j r s).free = s.free := by
  unfold dispatchJob
  try dsimp only
  repeat' split
  all_goals simp

@[simp] theorem setEngineClaim_keeps (b : Bool) (s : State) :
    (setEngineClaim b s).pending = s.pending ∧ (setEngineClaim b s).held = s.held ∧
    (setEngineClaim b s).part = s.part ∧ (setEngineClaim b s).causes = s.causes ∧
    (setEngineClaim b s).timeBase = s.timeBase ∧ (setEngineClaim b s).wallOffset = s.wallOffset ∧
    (setEngineClaim b s).link = s.link ∧ (setEngineClaim b s).notices = s.notices ∧
    (setEngineClaim b s).sync = s.sync ∧ (setEngineClaim b s).seq = s.seq ∧
    (setEngineClaim b s).pau = s.pau ∧ (setEngineClaim b s).mem = s.mem ∧
    (setEngineClaim b s).table = s.table ∧ (setEngineClaim b s).rolls = s.rolls ∧
    (setEngineClaim b s).recipes = s.recipes ∧ (setEngineClaim b s).dark = s.dark ∧
    (setEngineClaim b s).dev = s.dev ∧ (setEngineClaim b s).cache = s.cache ∧
    (setEngineClaim b s).card = s.card ∧ (setEngineClaim b s).free = s.free := by
  unfold setEngineClaim
  simp

@[simp] theorem refreshEngineClaim_keeps (s : State) :
    (refreshEngineClaim s).pending = s.pending ∧ (refreshEngineClaim s).held = s.held ∧
    (refreshEngineClaim s).part = s.part ∧ (refreshEngineClaim s).causes = s.causes ∧
    (refreshEngineClaim s).timeBase = s.timeBase ∧ (refreshEngineClaim s).wallOffset = s.wallOffset ∧
    (refreshEngineClaim s).link = s.link ∧ (refreshEngineClaim s).notices = s.notices ∧
    (refreshEngineClaim s).sync = s.sync ∧ (refreshEngineClaim s).seq = s.seq ∧
    (refreshEngineClaim s).pau = s.pau ∧ (refreshEngineClaim s).mem = s.mem ∧
    (refreshEngineClaim s).table = s.table ∧ (refreshEngineClaim s).rolls = s.rolls ∧
    (refreshEngineClaim s).recipes = s.recipes ∧ (refreshEngineClaim s).dark = s.dark ∧
    (refreshEngineClaim s).dev = s.dev ∧ (refreshEngineClaim s).cache = s.cache ∧
    (refreshEngineClaim s).card = s.card ∧ (refreshEngineClaim s).free = s.free := by
  unfold refreshEngineClaim
  try dsimp only
  repeat' split
  all_goals simp

@[simp] theorem attemptDispatch_keeps (s : State) :
    (attemptDispatch s).pending = s.pending ∧ (attemptDispatch s).held = s.held ∧
    (attemptDispatch s).part = s.part ∧ (attemptDispatch s).causes = s.causes ∧
    (attemptDispatch s).timeBase = s.timeBase ∧ (attemptDispatch s).wallOffset = s.wallOffset ∧
    (attemptDispatch s).link = s.link ∧ (attemptDispatch s).notices = s.notices ∧
    (attemptDispatch s).sync = s.sync ∧ (attemptDispatch s).seq = s.seq ∧ (attemptDispatch s).pau = s.pau ∧
    (attemptDispatch s).mem = s.mem ∧ (attemptDispatch s).table = s.table ∧
    (attemptDispatch s).rolls = s.rolls ∧ (attemptDispatch s).recipes = s.recipes ∧
    (attemptDispatch s).dark = s.dark ∧ (attemptDispatch s).free = s.free := by
  unfold attemptDispatch
  try dsimp only
  repeat' split
  all_goals simp

@[simp] theorem serveEngineClaim_keeps (s : State) :
    (serveEngineClaim s).pending = s.pending ∧ (serveEngineClaim s).held = s.held ∧
    (serveEngineClaim s).part = s.part ∧ (serveEngineClaim s).causes = s.causes ∧
    (serveEngineClaim s).timeBase = s.timeBase ∧ (serveEngineClaim s).wallOffset = s.wallOffset ∧
    (serveEngineClaim s).link = s.link ∧ (serveEngineClaim s).notices = s.notices ∧
    (serveEngineClaim s).sync = s.sync ∧ (serveEngineClaim s).seq = s.seq ∧
    (serveEngineClaim s).pau = s.pau ∧ (serveEngineClaim s).mem = s.mem ∧
    (serveEngineClaim s).table = s.table ∧ (serveEngineClaim s).rolls = s.rolls ∧
    (serveEngineClaim s).recipes = s.recipes ∧ (serveEngineClaim s).dark = s.dark ∧
    (serveEngineClaim s).free = s.free := by
  unfold serveEngineClaim
  try dsimp only
  repeat' split
  all_goals simp

@[simp] theorem readoutBegins_keeps (s : State) :
    (readoutBegins s).pending = s.pending ∧ (readoutBegins s).held = s.held ∧
    (readoutBegins s).part = s.part ∧ (readoutBegins s).causes = s.causes ∧
    (readoutBegins s).timeBase = s.timeBase ∧ (readoutBegins s).wallOffset = s.wallOffset ∧
    (readoutBegins s).link = s.link ∧ (readoutBegins s).notices = s.notices ∧
    (readoutBegins s).sync = s.sync ∧ (readoutBegins s).seq = s.seq ∧ (readoutBegins s).pool = s.pool ∧
    (readoutBegins s).pau = s.pau ∧ (readoutBegins s).mem = s.mem ∧ (readoutBegins s).table = s.table ∧
    (readoutBegins s).rolls = s.rolls ∧ (readoutBegins s).recipes = s.recipes ∧
    (readoutBegins s).dark = s.dark ∧ (readoutBegins s).cache = s.cache ∧ (readoutBegins s).card = s.card ∧
    (readoutBegins s).free = s.free := by
  unfold readoutBegins
  simp

@[simp] theorem readoutEnds_keeps (s : State) :
    (readoutEnds s).pending = s.pending ∧ (readoutEnds s).held = s.held ∧ (readoutEnds s).part = s.part ∧
    (readoutEnds s).causes = s.causes ∧ (readoutEnds s).timeBase = s.timeBase ∧
    (readoutEnds s).wallOffset = s.wallOffset ∧ (readoutEnds s).link = s.link ∧
    (readoutEnds s).notices = s.notices ∧ (readoutEnds s).sync = s.sync ∧ (readoutEnds s).seq = s.seq ∧
    (readoutEnds s).pool = s.pool ∧ (readoutEnds s).pau = s.pau ∧ (readoutEnds s).mem = s.mem ∧
    (readoutEnds s).table = s.table ∧ (readoutEnds s).rolls = s.rolls ∧
    (readoutEnds s).recipes = s.recipes ∧ (readoutEnds s).dark = s.dark ∧ (readoutEnds s).cache = s.cache ∧
    (readoutEnds s).card = s.card ∧ (readoutEnds s).free = s.free := by
  unfold readoutEnds
  simp

@[simp] theorem settle_keeps (n : Nat) (s : State) :
    (settle n s).pending = s.pending ∧ (settle n s).held = s.held ∧ (settle n s).part = s.part ∧
    (settle n s).causes = s.causes ∧ (settle n s).timeBase = s.timeBase ∧
    (settle n s).wallOffset = s.wallOffset ∧ (settle n s).link = s.link ∧ (settle n s).notices = s.notices ∧
    (settle n s).sync = s.sync ∧ (settle n s).seq = s.seq ∧ (settle n s).pau = s.pau ∧
    (settle n s).mem = s.mem ∧ (settle n s).rolls = s.rolls ∧ (settle n s).recipes = s.recipes ∧
    (settle n s).dark = s.dark ∧ (settle n s).dev = s.dev ∧ (settle n s).cache = s.cache ∧
    (settle n s).card = s.card ∧ (settle n s).free = s.free := by
  unfold settle
  try dsimp only
  repeat' split
  all_goals simp

@[simp] theorem orphanBus_keeps (s : State) :
    (orphanBus s).pending = s.pending ∧ (orphanBus s).held = s.held ∧ (orphanBus s).part = s.part ∧
    (orphanBus s).causes = s.causes ∧ (orphanBus s).timeBase = s.timeBase ∧
    (orphanBus s).wallOffset = s.wallOffset ∧ (orphanBus s).link = s.link ∧
    (orphanBus s).notices = s.notices ∧ (orphanBus s).sync = s.sync ∧ (orphanBus s).seq = s.seq ∧
    (orphanBus s).pool = s.pool ∧ (orphanBus s).pau = s.pau ∧ (orphanBus s).mem = s.mem ∧
    (orphanBus s).table = s.table ∧ (orphanBus s).rolls = s.rolls ∧ (orphanBus s).recipes = s.recipes ∧
    (orphanBus s).dark = s.dark ∧ (orphanBus s).dev = s.dev ∧ (orphanBus s).cache = s.cache ∧
    (orphanBus s).free = s.free := by
  unfold orphanBus
  simp

@[simp] theorem abandonFetch_keeps (s : State) :
    (abandonFetch s).pending = s.pending ∧ (abandonFetch s).held = s.held ∧ (abandonFetch s).part = s.part ∧
    (abandonFetch s).causes = s.causes ∧ (abandonFetch s).timeBase = s.timeBase ∧
    (abandonFetch s).wallOffset = s.wallOffset ∧ (abandonFetch s).link = s.link ∧
    (abandonFetch s).notices = s.notices ∧ (abandonFetch s).sync = s.sync ∧ (abandonFetch s).seq = s.seq ∧
    (abandonFetch s).pool = s.pool ∧ (abandonFetch s).pau = s.pau ∧ (abandonFetch s).mem = s.mem ∧
    (abandonFetch s).table = s.table ∧ (abandonFetch s).rolls = s.rolls ∧
    (abandonFetch s).recipes = s.recipes ∧ (abandonFetch s).dark = s.dark ∧ (abandonFetch s).dev = s.dev ∧
    (abandonFetch s).cache = s.cache ∧ (abandonFetch s).free = s.free := by
  unfold abandonFetch
  try dsimp only
  repeat' split
  all_goals simp

@[simp] theorem endHolds_keeps (s : State) :
    (endHolds s).pending = s.pending ∧ (endHolds s).held = s.held ∧ (endHolds s).part = s.part ∧
    (endHolds s).causes = s.causes ∧ (endHolds s).timeBase = s.timeBase ∧
    (endHolds s).wallOffset = s.wallOffset ∧ (endHolds s).link = s.link ∧ (endHolds s).notices = s.notices ∧
    (endHolds s).sync = s.sync ∧ (endHolds s).seq = s.seq ∧ (endHolds s).pau = s.pau ∧
    (endHolds s).mem = s.mem ∧ (endHolds s).table = s.table ∧ (endHolds s).rolls = s.rolls ∧
    (endHolds s).recipes = s.recipes ∧ (endHolds s).dark = s.dark ∧ (endHolds s).cache = s.cache ∧
    (endHolds s).card = s.card ∧ (endHolds s).free = s.free := by
  unfold endHolds
  simp

@[simp] theorem dropHolds_keeps (s : State) :
    (dropHolds s).pending = s.pending ∧ (dropHolds s).held = s.held ∧ (dropHolds s).part = s.part ∧
    (dropHolds s).causes = s.causes ∧ (dropHolds s).timeBase = s.timeBase ∧
    (dropHolds s).wallOffset = s.wallOffset ∧ (dropHolds s).link = s.link ∧
    (dropHolds s).notices = s.notices ∧ (dropHolds s).sync = s.sync ∧ (dropHolds s).seq = s.seq ∧
    (dropHolds s).pau = s.pau ∧ (dropHolds s).mem = s.mem ∧ (dropHolds s).table = s.table ∧
    (dropHolds s).rolls = s.rolls ∧ (dropHolds s).recipes = s.recipes ∧ (dropHolds s).dark = s.dark ∧
    (dropHolds s).card = s.card ∧ (dropHolds s).free = s.free := by
  unfold dropHolds
  cases s.dev.holds with
  | none => simp
  | some h => cases h.slot <;> simp_all

@[simp] theorem requeueRunning_keeps (s : State) :
    (requeueRunning s).pending = s.pending ∧ (requeueRunning s).held = s.held ∧
    (requeueRunning s).part = s.part ∧ (requeueRunning s).causes = s.causes ∧
    (requeueRunning s).timeBase = s.timeBase ∧ (requeueRunning s).wallOffset = s.wallOffset ∧
    (requeueRunning s).link = s.link ∧ (requeueRunning s).notices = s.notices ∧
    (requeueRunning s).sync = s.sync ∧ (requeueRunning s).seq = s.seq ∧ (requeueRunning s).pau = s.pau ∧
    (requeueRunning s).mem = s.mem ∧ (requeueRunning s).table = s.table ∧
    (requeueRunning s).rolls = s.rolls ∧ (requeueRunning s).recipes = s.recipes ∧
    (requeueRunning s).dark = s.dark ∧ (requeueRunning s).card = s.card ∧
    (requeueRunning s).free = s.free := by
  unfold requeueRunning
  simp

@[simp] theorem dropJobs_keeps (p : Job → Bool) (s : State) :
    (dropJobs p s).pending = s.pending ∧ (dropJobs p s).held = s.held ∧ (dropJobs p s).part = s.part ∧
    (dropJobs p s).causes = s.causes ∧ (dropJobs p s).timeBase = s.timeBase ∧
    (dropJobs p s).wallOffset = s.wallOffset ∧ (dropJobs p s).link = s.link ∧
    (dropJobs p s).notices = s.notices ∧ (dropJobs p s).sync = s.sync ∧ (dropJobs p s).seq = s.seq ∧
    (dropJobs p s).pool = s.pool ∧ (dropJobs p s).pau = s.pau ∧ (dropJobs p s).mem = s.mem ∧
    (dropJobs p s).table = s.table ∧ (dropJobs p s).rolls = s.rolls ∧ (dropJobs p s).recipes = s.recipes ∧
    (dropJobs p s).dark = s.dark ∧ (dropJobs p s).cache = s.cache ∧ (dropJobs p s).card = s.card ∧
    (dropJobs p s).free = s.free := by
  unfold dropJobs
  simp

@[simp] theorem removeJobs_keeps (n : Nat) (result : ResultCode) (s : State) :
    (removeJobs n result s).pending = s.pending ∧ (removeJobs n result s).held = s.held ∧
    (removeJobs n result s).part = s.part ∧ (removeJobs n result s).causes = s.causes ∧
    (removeJobs n result s).timeBase = s.timeBase ∧ (removeJobs n result s).wallOffset = s.wallOffset ∧
    (removeJobs n result s).notices = s.notices ∧ (removeJobs n result s).sync = s.sync ∧
    (removeJobs n result s).seq = s.seq ∧ (removeJobs n result s).pau = s.pau ∧
    (removeJobs n result s).mem = s.mem ∧ (removeJobs n result s).rolls = s.rolls ∧
    (removeJobs n result s).recipes = s.recipes ∧ (removeJobs n result s).dark = s.dark ∧
    (removeJobs n result s).free = s.free := by
  unfold removeJobs
  try dsimp only
  repeat' split
  all_goals simp

@[simp] theorem linkShot_keeps (e : Nat) (s : State) (n : Nat) :
    (linkShot e s n).pending = s.pending ∧ (linkShot e s n).held = s.held ∧ (linkShot e s n).part = s.part ∧
    (linkShot e s n).causes = s.causes ∧ (linkShot e s n).timeBase = s.timeBase ∧
    (linkShot e s n).wallOffset = s.wallOffset ∧ (linkShot e s n).link = s.link ∧
    (linkShot e s n).notices = s.notices ∧ (linkShot e s n).sync = s.sync ∧ (linkShot e s n).seq = s.seq ∧
    (linkShot e s n).pool = s.pool ∧ (linkShot e s n).mem = s.mem ∧ (linkShot e s n).rolls = s.rolls ∧
    (linkShot e s n).recipes = s.recipes ∧ (linkShot e s n).dark = s.dark ∧ (linkShot e s n).dev = s.dev ∧
    (linkShot e s n).cache = s.cache ∧ (linkShot e s n).card = s.card ∧ (linkShot e s n).free = s.free := by
  unfold linkShot
  try dsimp only
  repeat' split
  all_goals simp

@[simp] theorem matchShot_keeps (s : State) (n : Nat) :
    (matchShot s n).pending = s.pending ∧ (matchShot s n).held = s.held ∧ (matchShot s n).part = s.part ∧
    (matchShot s n).causes = s.causes ∧ (matchShot s n).timeBase = s.timeBase ∧
    (matchShot s n).wallOffset = s.wallOffset ∧ (matchShot s n).link = s.link ∧
    (matchShot s n).notices = s.notices ∧ (matchShot s n).sync = s.sync ∧ (matchShot s n).seq = s.seq ∧
    (matchShot s n).pool = s.pool ∧ (matchShot s n).mem = s.mem ∧ (matchShot s n).rolls = s.rolls ∧
    (matchShot s n).recipes = s.recipes ∧ (matchShot s n).dark = s.dark ∧ (matchShot s n).dev = s.dev ∧
    (matchShot s n).cache = s.cache ∧ (matchShot s n).card = s.card ∧ (matchShot s n).free = s.free := by
  unfold matchShot
  try dsimp only
  repeat' split
  all_goals simp

@[simp] theorem freeEntry_keeps (e : Nat) (s : State) :
    (freeEntry e s).pending = s.pending ∧ (freeEntry e s).held = s.held ∧ (freeEntry e s).part = s.part ∧
    (freeEntry e s).causes = s.causes ∧ (freeEntry e s).timeBase = s.timeBase ∧
    (freeEntry e s).wallOffset = s.wallOffset ∧ (freeEntry e s).link = s.link ∧
    (freeEntry e s).notices = s.notices ∧ (freeEntry e s).sync = s.sync ∧ (freeEntry e s).seq = s.seq ∧
    (freeEntry e s).pau = s.pau ∧ (freeEntry e s).mem = s.mem ∧ (freeEntry e s).table = s.table ∧
    (freeEntry e s).rolls = s.rolls ∧ (freeEntry e s).recipes = s.recipes ∧ (freeEntry e s).dev = s.dev ∧
    (freeEntry e s).cache = s.cache ∧ (freeEntry e s).card = s.card ∧ (freeEntry e s).free = s.free := by
  unfold freeEntry
  simp

@[simp] theorem planEntry_keeps (e : Nat) (r : Record) (s : State) :
    (planEntry e r s).pending = s.pending ∧ (planEntry e r s).held = s.held ∧
    (planEntry e r s).part = s.part ∧ (planEntry e r s).causes = s.causes ∧
    (planEntry e r s).timeBase = s.timeBase ∧ (planEntry e r s).wallOffset = s.wallOffset ∧
    (planEntry e r s).link = s.link ∧ (planEntry e r s).notices = s.notices ∧
    (planEntry e r s).sync = s.sync ∧ (planEntry e r s).seq = s.seq ∧ (planEntry e r s).pool = s.pool ∧
    (planEntry e r s).pau = s.pau ∧ (planEntry e r s).mem = s.mem ∧ (planEntry e r s).table = s.table ∧
    (planEntry e r s).rolls = s.rolls ∧ (planEntry e r s).recipes = s.recipes ∧
    (planEntry e r s).dev = s.dev ∧ (planEntry e r s).cache = s.cache ∧ (planEntry e r s).card = s.card ∧
    (planEntry e r s).free = s.free := by
  unfold planEntry
  simp

@[simp] theorem linkIfFits_keeps (e : Nat) (s : State) (n : Nat) :
    (linkIfFits e s n).pending = s.pending ∧ (linkIfFits e s n).held = s.held ∧
    (linkIfFits e s n).part = s.part ∧ (linkIfFits e s n).causes = s.causes ∧
    (linkIfFits e s n).timeBase = s.timeBase ∧ (linkIfFits e s n).wallOffset = s.wallOffset ∧
    (linkIfFits e s n).link = s.link ∧ (linkIfFits e s n).notices = s.notices ∧
    (linkIfFits e s n).sync = s.sync ∧ (linkIfFits e s n).seq = s.seq ∧ (linkIfFits e s n).pool = s.pool ∧
    (linkIfFits e s n).mem = s.mem ∧ (linkIfFits e s n).rolls = s.rolls ∧
    (linkIfFits e s n).recipes = s.recipes ∧ (linkIfFits e s n).dark = s.dark ∧
    (linkIfFits e s n).dev = s.dev ∧ (linkIfFits e s n).cache = s.cache ∧ (linkIfFits e s n).card = s.card ∧
    (linkIfFits e s n).free = s.free := by
  unfold linkIfFits
  try dsimp only
  repeat' split
  all_goals simp

@[simp] theorem planRounds_keeps (fuel : Nat) (s : State) :
    (planRounds fuel s).pending = s.pending ∧ (planRounds fuel s).held = s.held ∧
    (planRounds fuel s).part = s.part ∧ (planRounds fuel s).causes = s.causes ∧
    (planRounds fuel s).timeBase = s.timeBase ∧ (planRounds fuel s).wallOffset = s.wallOffset ∧
    (planRounds fuel s).link = s.link ∧ (planRounds fuel s).notices = s.notices ∧
    (planRounds fuel s).sync = s.sync ∧ (planRounds fuel s).seq = s.seq ∧ (planRounds fuel s).mem = s.mem ∧
    (planRounds fuel s).rolls = s.rolls ∧ (planRounds fuel s).recipes = s.recipes ∧
    (planRounds fuel s).dev = s.dev ∧ (planRounds fuel s).cache = s.cache ∧
    (planRounds fuel s).card = s.card ∧ (planRounds fuel s).free = s.free := by
  induction fuel generalizing s with
  | zero => simp [planRounds]
  | succ n ih => unfold planRounds; repeat' split
                 all_goals simp [ih]

@[simp] theorem matchingPass_keeps (s : State) :
    (matchingPass s).pending = s.pending ∧ (matchingPass s).held = s.held ∧ (matchingPass s).part = s.part ∧
    (matchingPass s).causes = s.causes ∧ (matchingPass s).timeBase = s.timeBase ∧
    (matchingPass s).wallOffset = s.wallOffset ∧ (matchingPass s).link = s.link ∧
    (matchingPass s).notices = s.notices ∧ (matchingPass s).sync = s.sync ∧ (matchingPass s).seq = s.seq ∧
    (matchingPass s).mem = s.mem ∧ (matchingPass s).rolls = s.rolls ∧ (matchingPass s).recipes = s.recipes ∧
    (matchingPass s).dev = s.dev ∧ (matchingPass s).cache = s.cache ∧ (matchingPass s).card = s.card ∧
    (matchingPass s).free = s.free := by
  unfold matchingPass
  try dsimp only
  repeat' split
  all_goals simp

@[simp] theorem unlinkFailed_keeps (s : State) (n : Nat) :
    (unlinkFailed s n).pending = s.pending ∧ (unlinkFailed s n).held = s.held ∧
    (unlinkFailed s n).part = s.part ∧ (unlinkFailed s n).causes = s.causes ∧
    (unlinkFailed s n).timeBase = s.timeBase ∧ (unlinkFailed s n).wallOffset = s.wallOffset ∧
    (unlinkFailed s n).link = s.link ∧ (unlinkFailed s n).sync = s.sync ∧ (unlinkFailed s n).seq = s.seq ∧
    (unlinkFailed s n).pool = s.pool ∧ (unlinkFailed s n).pau = s.pau ∧ (unlinkFailed s n).mem = s.mem ∧
    (unlinkFailed s n).rolls = s.rolls ∧ (unlinkFailed s n).recipes = s.recipes ∧
    (unlinkFailed s n).dark = s.dark ∧ (unlinkFailed s n).dev = s.dev ∧ (unlinkFailed s n).cache = s.cache ∧
    (unlinkFailed s n).card = s.card ∧ (unlinkFailed s n).free = s.free := by
  unfold unlinkFailed
  try dsimp only
  repeat' split
  all_goals simp

@[simp] theorem freeIfExpired_keeps (e : Nat) (s : State) :
    (freeIfExpired e s).pending = s.pending ∧ (freeIfExpired e s).held = s.held ∧
    (freeIfExpired e s).part = s.part ∧ (freeIfExpired e s).causes = s.causes ∧
    (freeIfExpired e s).timeBase = s.timeBase ∧ (freeIfExpired e s).wallOffset = s.wallOffset ∧
    (freeIfExpired e s).link = s.link ∧ (freeIfExpired e s).notices = s.notices ∧
    (freeIfExpired e s).sync = s.sync ∧ (freeIfExpired e s).seq = s.seq ∧ (freeIfExpired e s).pau = s.pau ∧
    (freeIfExpired e s).mem = s.mem ∧ (freeIfExpired e s).table = s.table ∧
    (freeIfExpired e s).rolls = s.rolls ∧ (freeIfExpired e s).recipes = s.recipes ∧
    (freeIfExpired e s).dev = s.dev ∧ (freeIfExpired e s).cache = s.cache ∧
    (freeIfExpired e s).card = s.card ∧ (freeIfExpired e s).free = s.free := by
  unfold freeIfExpired
  try dsimp only
  repeat' split
  all_goals simp

@[simp] theorem afterUnlink_keeps (e : Nat) (s : State) :
    (afterUnlink e s).pending = s.pending ∧ (afterUnlink e s).held = s.held ∧
    (afterUnlink e s).part = s.part ∧ (afterUnlink e s).causes = s.causes ∧
    (afterUnlink e s).timeBase = s.timeBase ∧ (afterUnlink e s).wallOffset = s.wallOffset ∧
    (afterUnlink e s).link = s.link ∧ (afterUnlink e s).notices = s.notices ∧
    (afterUnlink e s).sync = s.sync ∧ (afterUnlink e s).seq = s.seq ∧ (afterUnlink e s).mem = s.mem ∧
    (afterUnlink e s).rolls = s.rolls ∧ (afterUnlink e s).recipes = s.recipes ∧
    (afterUnlink e s).dev = s.dev ∧ (afterUnlink e s).cache = s.cache ∧ (afterUnlink e s).card = s.card ∧
    (afterUnlink e s).free = s.free := by
  unfold afterUnlink
  try dsimp only
  repeat' split
  all_goals simp

@[simp] theorem giveUpDark_keeps (n : Nat) (s : State) :
    (giveUpDark n s).pending = s.pending ∧ (giveUpDark n s).held = s.held ∧ (giveUpDark n s).part = s.part ∧
    (giveUpDark n s).causes = s.causes ∧ (giveUpDark n s).timeBase = s.timeBase ∧
    (giveUpDark n s).wallOffset = s.wallOffset ∧ (giveUpDark n s).link = s.link ∧
    (giveUpDark n s).notices = s.notices ∧ (giveUpDark n s).sync = s.sync ∧ (giveUpDark n s).seq = s.seq ∧
    (giveUpDark n s).mem = s.mem ∧ (giveUpDark n s).rolls = s.rolls ∧ (giveUpDark n s).recipes = s.recipes ∧
    (giveUpDark n s).dev = s.dev ∧ (giveUpDark n s).cache = s.cache ∧ (giveUpDark n s).card = s.card ∧
    (giveUpDark n s).free = s.free := by
  unfold giveUpDark
  try dsimp only
  repeat' split
  all_goals simp

@[simp] theorem leaveDark_keeps (s : State) :
    (leaveDark s).pending = s.pending ∧ (leaveDark s).held = s.held ∧ (leaveDark s).part = s.part ∧
    (leaveDark s).causes = s.causes ∧ (leaveDark s).timeBase = s.timeBase ∧
    (leaveDark s).wallOffset = s.wallOffset ∧ (leaveDark s).link = s.link ∧
    (leaveDark s).notices = s.notices ∧ (leaveDark s).sync = s.sync ∧ (leaveDark s).pool = s.pool ∧
    (leaveDark s).pau = s.pau ∧ (leaveDark s).mem = s.mem ∧ (leaveDark s).table = s.table ∧
    (leaveDark s).rolls = s.rolls ∧ (leaveDark s).recipes = s.recipes ∧ (leaveDark s).dark = s.dark ∧
    (leaveDark s).cache = s.cache ∧ (leaveDark s).card = s.card ∧ (leaveDark s).free = s.free := by
  unfold leaveDark
  try dsimp only
  repeat' split
  all_goals simp

@[simp] theorem failEntry_keeps (e : Nat) (s : State) :
    (failEntry e s).pending = s.pending ∧ (failEntry e s).held = s.held ∧ (failEntry e s).part = s.part ∧
    (failEntry e s).causes = s.causes ∧ (failEntry e s).timeBase = s.timeBase ∧
    (failEntry e s).wallOffset = s.wallOffset ∧ (failEntry e s).link = s.link ∧
    (failEntry e s).sync = s.sync ∧ (failEntry e s).seq = s.seq ∧ (failEntry e s).pau = s.pau ∧
    (failEntry e s).mem = s.mem ∧ (failEntry e s).rolls = s.rolls ∧ (failEntry e s).recipes = s.recipes ∧
    (failEntry e s).dev = s.dev ∧ (failEntry e s).cache = s.cache ∧ (failEntry e s).card = s.card ∧
    (failEntry e s).free = s.free := by
  unfold failEntry
  simp

@[simp] theorem abandonDark_keeps (s : State) :
    (abandonDark s).pending = s.pending ∧ (abandonDark s).held = s.held ∧ (abandonDark s).part = s.part ∧
    (abandonDark s).causes = s.causes ∧ (abandonDark s).timeBase = s.timeBase ∧
    (abandonDark s).wallOffset = s.wallOffset ∧ (abandonDark s).link = s.link ∧
    (abandonDark s).sync = s.sync ∧ (abandonDark s).pau = s.pau ∧ (abandonDark s).mem = s.mem ∧
    (abandonDark s).rolls = s.rolls ∧ (abandonDark s).recipes = s.recipes ∧
    (abandonDark s).cache = s.cache ∧ (abandonDark s).card = s.card ∧ (abandonDark s).free = s.free := by
  unfold abandonDark
  try dsimp only
  repeat' split
  all_goals simp

@[simp] theorem enterDark_keeps (e p : Nat) (s : State) :
    (enterDark e p s).pending = s.pending ∧ (enterDark e p s).held = s.held ∧
    (enterDark e p s).part = s.part ∧ (enterDark e p s).causes = s.causes ∧
    (enterDark e p s).timeBase = s.timeBase ∧ (enterDark e p s).wallOffset = s.wallOffset ∧
    (enterDark e p s).link = s.link ∧ (enterDark e p s).notices = s.notices ∧
    (enterDark e p s).sync = s.sync ∧ (enterDark e p s).pau = s.pau ∧ (enterDark e p s).mem = s.mem ∧
    (enterDark e p s).table = s.table ∧ (enterDark e p s).rolls = s.rolls ∧
    (enterDark e p s).recipes = s.recipes ∧ (enterDark e p s).dev = s.dev ∧
    (enterDark e p s).cache = s.cache ∧ (enterDark e p s).card = s.card ∧
    (enterDark e p s).free = s.free := by
  unfold enterDark
  simp

@[simp] theorem setDarkClaim_keeps (b : Bool) (s : State) :
    (setDarkClaim b s).pending = s.pending ∧ (setDarkClaim b s).held = s.held ∧
    (setDarkClaim b s).part = s.part ∧ (setDarkClaim b s).causes = s.causes ∧
    (setDarkClaim b s).timeBase = s.timeBase ∧ (setDarkClaim b s).wallOffset = s.wallOffset ∧
    (setDarkClaim b s).link = s.link ∧ (setDarkClaim b s).notices = s.notices ∧
    (setDarkClaim b s).sync = s.sync ∧ (setDarkClaim b s).seq = s.seq ∧ (setDarkClaim b s).pau = s.pau ∧
    (setDarkClaim b s).mem = s.mem ∧ (setDarkClaim b s).table = s.table ∧
    (setDarkClaim b s).rolls = s.rolls ∧ (setDarkClaim b s).recipes = s.recipes ∧
    (setDarkClaim b s).dark = s.dark ∧ (setDarkClaim b s).dev = s.dev ∧ (setDarkClaim b s).cache = s.cache ∧
    (setDarkClaim b s).card = s.card ∧ (setDarkClaim b s).free = s.free := by
  unfold setDarkClaim
  simp

@[simp] theorem attemptDark_keeps (s : State) :
    (attemptDark s).pending = s.pending ∧ (attemptDark s).held = s.held ∧ (attemptDark s).part = s.part ∧
    (attemptDark s).causes = s.causes ∧ (attemptDark s).timeBase = s.timeBase ∧
    (attemptDark s).wallOffset = s.wallOffset ∧ (attemptDark s).link = s.link ∧
    (attemptDark s).notices = s.notices ∧ (attemptDark s).sync = s.sync ∧ (attemptDark s).pau = s.pau ∧
    (attemptDark s).mem = s.mem ∧ (attemptDark s).table = s.table ∧ (attemptDark s).rolls = s.rolls ∧
    (attemptDark s).recipes = s.recipes ∧ (attemptDark s).dev = s.dev ∧ (attemptDark s).cache = s.cache ∧
    (attemptDark s).card = s.card ∧ (attemptDark s).free = s.free := by
  unfold attemptDark
  try dsimp only
  repeat' split
  all_goals simp

@[simp] theorem serveDarkClaim_keeps (s : State) :
    (serveDarkClaim s).pending = s.pending ∧ (serveDarkClaim s).held = s.held ∧
    (serveDarkClaim s).part = s.part ∧ (serveDarkClaim s).causes = s.causes ∧
    (serveDarkClaim s).timeBase = s.timeBase ∧ (serveDarkClaim s).wallOffset = s.wallOffset ∧
    (serveDarkClaim s).link = s.link ∧ (serveDarkClaim s).notices = s.notices ∧
    (serveDarkClaim s).sync = s.sync ∧ (serveDarkClaim s).pau = s.pau ∧ (serveDarkClaim s).mem = s.mem ∧
    (serveDarkClaim s).table = s.table ∧ (serveDarkClaim s).rolls = s.rolls ∧
    (serveDarkClaim s).recipes = s.recipes ∧ (serveDarkClaim s).dev = s.dev ∧
    (serveDarkClaim s).cache = s.cache ∧ (serveDarkClaim s).card = s.card ∧
    (serveDarkClaim s).free = s.free := by
  unfold serveDarkClaim
  try dsimp only
  repeat' split
  all_goals simp

@[simp] theorem applyTo_keeps (e : Nat) (s : State) (n : Nat) :
    (applyTo e s n).pending = s.pending ∧ (applyTo e s n).held = s.held ∧ (applyTo e s n).part = s.part ∧
    (applyTo e s n).causes = s.causes ∧ (applyTo e s n).timeBase = s.timeBase ∧
    (applyTo e s n).wallOffset = s.wallOffset ∧ (applyTo e s n).link = s.link ∧
    (applyTo e s n).notices = s.notices ∧ (applyTo e s n).sync = s.sync ∧ (applyTo e s n).seq = s.seq ∧
    (applyTo e s n).pool = s.pool ∧ (applyTo e s n).mem = s.mem ∧ (applyTo e s n).table = s.table ∧
    (applyTo e s n).rolls = s.rolls ∧ (applyTo e s n).recipes = s.recipes ∧ (applyTo e s n).dark = s.dark ∧
    (applyTo e s n).dev = s.dev ∧ (applyTo e s n).cache = s.cache ∧ (applyTo e s n).card = s.card ∧
    (applyTo e s n).free = s.free := by
  unfold applyTo
  simp

@[simp] theorem finishDark_keeps (temperature : Int) (s : State) :
    (finishDark temperature s).pending = s.pending ∧ (finishDark temperature s).held = s.held ∧
    (finishDark temperature s).part = s.part ∧ (finishDark temperature s).causes = s.causes ∧
    (finishDark temperature s).timeBase = s.timeBase ∧
    (finishDark temperature s).wallOffset = s.wallOffset ∧ (finishDark temperature s).link = s.link ∧
    (finishDark temperature s).sync = s.sync ∧ (finishDark temperature s).mem = s.mem ∧
    (finishDark temperature s).rolls = s.rolls ∧ (finishDark temperature s).recipes = s.recipes ∧
    (finishDark temperature s).cache = s.cache ∧ (finishDark temperature s).card = s.card ∧
    (finishDark temperature s).free = s.free := by
  unfold finishDark
  try dsimp only
  repeat' split
  all_goals simp

@[simp] theorem clearFull_keeps (s : State) :
    (clearFull s).pending = s.pending ∧ (clearFull s).held = s.held ∧ (clearFull s).part = s.part ∧
    (clearFull s).causes = s.causes ∧ (clearFull s).timeBase = s.timeBase ∧
    (clearFull s).wallOffset = s.wallOffset ∧ (clearFull s).link = s.link ∧
    (clearFull s).notices = s.notices ∧ (clearFull s).sync = s.sync ∧ (clearFull s).seq = s.seq ∧
    (clearFull s).pool = s.pool ∧ (clearFull s).pau = s.pau ∧ (clearFull s).mem = s.mem ∧
    (clearFull s).table = s.table ∧ (clearFull s).rolls = s.rolls ∧ (clearFull s).recipes = s.recipes ∧
    (clearFull s).dark = s.dark ∧ (clearFull s).dev = s.dev ∧ (clearFull s).cache = s.cache ∧
    (clearFull s).free = s.free := by
  unfold clearFull
  simp

@[simp] theorem returnRuns_keeps (rs : List Run) (s : State) :
    (returnRuns rs s).pending = s.pending ∧ (returnRuns rs s).held = s.held ∧
    (returnRuns rs s).part = s.part ∧ (returnRuns rs s).causes = s.causes ∧
    (returnRuns rs s).timeBase = s.timeBase ∧ (returnRuns rs s).wallOffset = s.wallOffset ∧
    (returnRuns rs s).link = s.link ∧ (returnRuns rs s).notices = s.notices ∧
    (returnRuns rs s).sync = s.sync ∧ (returnRuns rs s).seq = s.seq ∧ (returnRuns rs s).pool = s.pool ∧
    (returnRuns rs s).pau = s.pau ∧ (returnRuns rs s).mem = s.mem ∧ (returnRuns rs s).table = s.table ∧
    (returnRuns rs s).rolls = s.rolls ∧ (returnRuns rs s).recipes = s.recipes ∧
    (returnRuns rs s).dark = s.dark ∧ (returnRuns rs s).dev = s.dev ∧ (returnRuns rs s).cache = s.cache ∧
    (returnRuns rs s).free = s.free := by
  unfold returnRuns
  simp

@[simp] theorem kick_keeps (s : State) :
    (kick s).pending = s.pending ∧ (kick s).held = s.held ∧ (kick s).part = s.part ∧
    (kick s).causes = s.causes ∧ (kick s).timeBase = s.timeBase ∧ (kick s).wallOffset = s.wallOffset ∧
    (kick s).link = s.link ∧ (kick s).notices = s.notices ∧ (kick s).sync = s.sync ∧ (kick s).seq = s.seq ∧
    (kick s).pool = s.pool ∧ (kick s).pau = s.pau ∧ (kick s).mem = s.mem ∧ (kick s).table = s.table ∧
    (kick s).rolls = s.rolls ∧ (kick s).recipes = s.recipes ∧ (kick s).dark = s.dark ∧
    (kick s).dev = s.dev ∧ (kick s).cache = s.cache ∧ (kick s).free = s.free := by
  unfold kick
  try dsimp only
  repeat' split
  all_goals simp

@[simp] theorem clearBus_keeps (s : State) :
    (clearBus s).pending = s.pending ∧ (clearBus s).held = s.held ∧ (clearBus s).part = s.part ∧
    (clearBus s).causes = s.causes ∧ (clearBus s).timeBase = s.timeBase ∧
    (clearBus s).wallOffset = s.wallOffset ∧ (clearBus s).link = s.link ∧ (clearBus s).notices = s.notices ∧
    (clearBus s).sync = s.sync ∧ (clearBus s).seq = s.seq ∧ (clearBus s).pool = s.pool ∧
    (clearBus s).pau = s.pau ∧ (clearBus s).mem = s.mem ∧ (clearBus s).table = s.table ∧
    (clearBus s).rolls = s.rolls ∧ (clearBus s).recipes = s.recipes ∧ (clearBus s).dark = s.dark ∧
    (clearBus s).dev = s.dev ∧ (clearBus s).cache = s.cache ∧ (clearBus s).free = s.free := by
  unfold clearBus
  simp

@[simp] theorem setWork_keeps (w : Option CardWork) (s : State) :
    (setWork w s).pending = s.pending ∧ (setWork w s).held = s.held ∧ (setWork w s).part = s.part ∧
    (setWork w s).causes = s.causes ∧ (setWork w s).timeBase = s.timeBase ∧
    (setWork w s).wallOffset = s.wallOffset ∧ (setWork w s).link = s.link ∧
    (setWork w s).notices = s.notices ∧ (setWork w s).sync = s.sync ∧ (setWork w s).seq = s.seq ∧
    (setWork w s).pool = s.pool ∧ (setWork w s).pau = s.pau ∧ (setWork w s).mem = s.mem ∧
    (setWork w s).table = s.table ∧ (setWork w s).rolls = s.rolls ∧ (setWork w s).recipes = s.recipes ∧
    (setWork w s).dark = s.dark ∧ (setWork w s).dev = s.dev ∧ (setWork w s).cache = s.cache ∧
    (setWork w s).free = s.free := by
  unfold setWork
  simp

@[simp] theorem endWork_keeps (s : State) :
    (endWork s).pending = s.pending ∧ (endWork s).held = s.held ∧ (endWork s).part = s.part ∧
    (endWork s).causes = s.causes ∧ (endWork s).timeBase = s.timeBase ∧
    (endWork s).wallOffset = s.wallOffset ∧ (endWork s).link = s.link ∧ (endWork s).notices = s.notices ∧
    (endWork s).sync = s.sync ∧ (endWork s).seq = s.seq ∧ (endWork s).pool = s.pool ∧
    (endWork s).pau = s.pau ∧ (endWork s).mem = s.mem ∧ (endWork s).table = s.table ∧
    (endWork s).rolls = s.rolls ∧ (endWork s).recipes = s.recipes ∧ (endWork s).dark = s.dark ∧
    (endWork s).dev = s.dev ∧ (endWork s).cache = s.cache ∧ (endWork s).free = s.free := by
  unfold endWork
  simp

@[simp] theorem nextWork_keeps (w : CardWork) (s : State) :
    (nextWork w s).pending = s.pending ∧ (nextWork w s).held = s.held ∧ (nextWork w s).part = s.part ∧
    (nextWork w s).causes = s.causes ∧ (nextWork w s).timeBase = s.timeBase ∧
    (nextWork w s).wallOffset = s.wallOffset ∧ (nextWork w s).link = s.link ∧
    (nextWork w s).notices = s.notices ∧ (nextWork w s).sync = s.sync ∧ (nextWork w s).seq = s.seq ∧
    (nextWork w s).pool = s.pool ∧ (nextWork w s).pau = s.pau ∧ (nextWork w s).mem = s.mem ∧
    (nextWork w s).table = s.table ∧ (nextWork w s).rolls = s.rolls ∧ (nextWork w s).recipes = s.recipes ∧
    (nextWork w s).dark = s.dark ∧ (nextWork w s).dev = s.dev ∧ (nextWork w s).cache = s.cache ∧
    (nextWork w s).free = s.free := by
  unfold nextWork
  simp

@[simp] theorem setCardState_keeps (x : CardState) (s : State) :
    (setCardState x s).pending = s.pending ∧ (setCardState x s).held = s.held ∧
    (setCardState x s).part = s.part ∧ (setCardState x s).causes = s.causes ∧
    (setCardState x s).timeBase = s.timeBase ∧ (setCardState x s).wallOffset = s.wallOffset ∧
    (setCardState x s).link = s.link ∧ (setCardState x s).notices = s.notices ∧
    (setCardState x s).sync = s.sync ∧ (setCardState x s).seq = s.seq ∧ (setCardState x s).pool = s.pool ∧
    (setCardState x s).pau = s.pau ∧ (setCardState x s).mem = s.mem ∧ (setCardState x s).table = s.table ∧
    (setCardState x s).rolls = s.rolls ∧ (setCardState x s).recipes = s.recipes ∧
    (setCardState x s).dark = s.dark ∧ (setCardState x s).dev = s.dev ∧ (setCardState x s).cache = s.cache ∧
    (setCardState x s).free = s.free := by
  unfold setCardState
  simp

@[simp] theorem markTaken_keeps (n : Nat) (s : State) :
    (markTaken n s).pending = s.pending ∧ (markTaken n s).held = s.held ∧ (markTaken n s).part = s.part ∧
    (markTaken n s).causes = s.causes ∧ (markTaken n s).timeBase = s.timeBase ∧
    (markTaken n s).wallOffset = s.wallOffset ∧ (markTaken n s).link = s.link ∧
    (markTaken n s).notices = s.notices ∧ (markTaken n s).sync = s.sync ∧ (markTaken n s).seq = s.seq ∧
    (markTaken n s).pool = s.pool ∧ (markTaken n s).pau = s.pau ∧ (markTaken n s).mem = s.mem ∧
    (markTaken n s).rolls = s.rolls ∧ (markTaken n s).recipes = s.recipes ∧ (markTaken n s).dark = s.dark ∧
    (markTaken n s).dev = s.dev ∧ (markTaken n s).cache = s.cache ∧ (markTaken n s).card = s.card ∧
    (markTaken n s).free = s.free := by
  unfold markTaken
  simp

@[simp] theorem allocationFailed_keeps (shot : Nat) (s : State) :
    (allocationFailed shot s).pending = s.pending ∧ (allocationFailed shot s).held = s.held ∧
    (allocationFailed shot s).part = s.part ∧ (allocationFailed shot s).causes = s.causes ∧
    (allocationFailed shot s).timeBase = s.timeBase ∧ (allocationFailed shot s).wallOffset = s.wallOffset ∧
    (allocationFailed shot s).link = s.link ∧ (allocationFailed shot s).sync = s.sync ∧
    (allocationFailed shot s).seq = s.seq ∧ (allocationFailed shot s).pool = s.pool ∧
    (allocationFailed shot s).pau = s.pau ∧ (allocationFailed shot s).mem = s.mem ∧
    (allocationFailed shot s).table = s.table ∧ (allocationFailed shot s).rolls = s.rolls ∧
    (allocationFailed shot s).recipes = s.recipes ∧ (allocationFailed shot s).dark = s.dark ∧
    (allocationFailed shot s).dev = s.dev ∧ (allocationFailed shot s).cache = s.cache ∧
    (allocationFailed shot s).free = s.free := by
  unfold allocationFailed
  try dsimp only
  repeat' split
  all_goals simp

@[simp] theorem updateHandoff_keeps (h : Handoff) (f : Handoff → Handoff) (s : State) :
    (updateHandoff h f s).pending = s.pending ∧ (updateHandoff h f s).held = s.held ∧
    (updateHandoff h f s).part = s.part ∧ (updateHandoff h f s).causes = s.causes ∧
    (updateHandoff h f s).timeBase = s.timeBase ∧ (updateHandoff h f s).wallOffset = s.wallOffset ∧
    (updateHandoff h f s).link = s.link ∧ (updateHandoff h f s).notices = s.notices ∧
    (updateHandoff h f s).sync = s.sync ∧ (updateHandoff h f s).seq = s.seq ∧
    (updateHandoff h f s).pool = s.pool ∧ (updateHandoff h f s).pau = s.pau ∧
    (updateHandoff h f s).mem = s.mem ∧ (updateHandoff h f s).table = s.table ∧
    (updateHandoff h f s).rolls = s.rolls ∧ (updateHandoff h f s).recipes = s.recipes ∧
    (updateHandoff h f s).dark = s.dark ∧ (updateHandoff h f s).dev = s.dev ∧
    (updateHandoff h f s).cache = s.cache ∧ (updateHandoff h f s).free = s.free := by
  unfold updateHandoff
  simp

@[simp] theorem startDeveloped_keeps (h : Handoff) (s : State) :
    (startDeveloped h s).pending = s.pending ∧ (startDeveloped h s).held = s.held ∧
    (startDeveloped h s).part = s.part ∧ (startDeveloped h s).causes = s.causes ∧
    (startDeveloped h s).timeBase = s.timeBase ∧ (startDeveloped h s).wallOffset = s.wallOffset ∧
    (startDeveloped h s).link = s.link ∧ (startDeveloped h s).sync = s.sync ∧
    (startDeveloped h s).seq = s.seq ∧ (startDeveloped h s).pool = s.pool ∧
    (startDeveloped h s).pau = s.pau ∧ (startDeveloped h s).mem = s.mem ∧
    (startDeveloped h s).rolls = s.rolls ∧ (startDeveloped h s).recipes = s.recipes ∧
    (startDeveloped h s).dark = s.dark ∧ (startDeveloped h s).dev = s.dev ∧
    (startDeveloped h s).cache = s.cache ∧ (startDeveloped h s).free = s.free := by
  unfold startDeveloped
  try dsimp only
  repeat' split
  all_goals simp

@[simp] theorem startRaw_keeps (r : Record) (s : State) :
    (startRaw r s).pending = s.pending ∧ (startRaw r s).held = s.held ∧ (startRaw r s).part = s.part ∧
    (startRaw r s).causes = s.causes ∧ (startRaw r s).timeBase = s.timeBase ∧
    (startRaw r s).wallOffset = s.wallOffset ∧ (startRaw r s).link = s.link ∧ (startRaw r s).sync = s.sync ∧
    (startRaw r s).seq = s.seq ∧ (startRaw r s).pool = s.pool ∧ (startRaw r s).pau = s.pau ∧
    (startRaw r s).mem = s.mem ∧ (startRaw r s).rolls = s.rolls ∧ (startRaw r s).recipes = s.recipes ∧
    (startRaw r s).dark = s.dark ∧ (startRaw r s).dev = s.dev ∧ (startRaw r s).cache = s.cache ∧
    (startRaw r s).free = s.free := by
  unfold startRaw
  try dsimp only
  repeat' split
  all_goals simp

@[simp] theorem startEntry_keeps (e : EntryWork) (s : State) :
    (startEntry e s).pending = s.pending ∧ (startEntry e s).held = s.held ∧ (startEntry e s).part = s.part ∧
    (startEntry e s).causes = s.causes ∧ (startEntry e s).timeBase = s.timeBase ∧
    (startEntry e s).wallOffset = s.wallOffset ∧ (startEntry e s).link = s.link ∧
    (startEntry e s).notices = s.notices ∧ (startEntry e s).sync = s.sync ∧ (startEntry e s).seq = s.seq ∧
    (startEntry e s).pool = s.pool ∧ (startEntry e s).pau = s.pau ∧ (startEntry e s).mem = s.mem ∧
    (startEntry e s).rolls = s.rolls ∧ (startEntry e s).recipes = s.recipes ∧
    (startEntry e s).dark = s.dark ∧ (startEntry e s).dev = s.dev ∧ (startEntry e s).cache = s.cache ∧
    (startEntry e s).free = s.free := by
  unfold startEntry
  try dsimp only
  repeat' split
  all_goals simp

@[simp] theorem takeChoice_keeps (c : Choice) (s : State) :
    (takeChoice c s).pending = s.pending ∧ (takeChoice c s).held = s.held ∧ (takeChoice c s).part = s.part ∧
    (takeChoice c s).causes = s.causes ∧ (takeChoice c s).timeBase = s.timeBase ∧
    (takeChoice c s).wallOffset = s.wallOffset ∧ (takeChoice c s).link = s.link ∧
    (takeChoice c s).sync = s.sync ∧ (takeChoice c s).seq = s.seq ∧ (takeChoice c s).pool = s.pool ∧
    (takeChoice c s).pau = s.pau ∧ (takeChoice c s).mem = s.mem ∧ (takeChoice c s).rolls = s.rolls ∧
    (takeChoice c s).recipes = s.recipes ∧ (takeChoice c s).dark = s.dark ∧ (takeChoice c s).dev = s.dev ∧
    (takeChoice c s).cache = s.cache ∧ (takeChoice c s).free = s.free := by
  unfold takeChoice
  try dsimp only
  repeat' split
  all_goals simp

@[simp] theorem chooseWork_keeps (fuel : Nat) (s : State) :
    (chooseWork fuel s).pending = s.pending ∧ (chooseWork fuel s).held = s.held ∧
    (chooseWork fuel s).part = s.part ∧ (chooseWork fuel s).causes = s.causes ∧
    (chooseWork fuel s).timeBase = s.timeBase ∧ (chooseWork fuel s).wallOffset = s.wallOffset ∧
    (chooseWork fuel s).link = s.link ∧ (chooseWork fuel s).sync = s.sync ∧
    (chooseWork fuel s).seq = s.seq ∧ (chooseWork fuel s).pool = s.pool ∧ (chooseWork fuel s).pau = s.pau ∧
    (chooseWork fuel s).mem = s.mem ∧ (chooseWork fuel s).rolls = s.rolls ∧
    (chooseWork fuel s).recipes = s.recipes ∧ (chooseWork fuel s).dark = s.dark ∧
    (chooseWork fuel s).dev = s.dev ∧ (chooseWork fuel s).cache = s.cache ∧
    (chooseWork fuel s).free = s.free := by
  induction fuel generalizing s with
  | zero => simp [chooseWork]
  | succ n ih => unfold chooseWork; repeat' split
                 all_goals simp [ih]

@[simp] theorem startCardWork_keeps (s : State) :
    (startCardWork s).pending = s.pending ∧ (startCardWork s).held = s.held ∧
    (startCardWork s).part = s.part ∧ (startCardWork s).causes = s.causes ∧
    (startCardWork s).timeBase = s.timeBase ∧ (startCardWork s).wallOffset = s.wallOffset ∧
    (startCardWork s).link = s.link ∧ (startCardWork s).sync = s.sync ∧ (startCardWork s).seq = s.seq ∧
    (startCardWork s).pool = s.pool ∧ (startCardWork s).pau = s.pau ∧ (startCardWork s).mem = s.mem ∧
    (startCardWork s).rolls = s.rolls ∧ (startCardWork s).recipes = s.recipes ∧
    (startCardWork s).dark = s.dark ∧ (startCardWork s).dev = s.dev ∧ (startCardWork s).cache = s.cache ∧
    (startCardWork s).free = s.free := by
  unfold startCardWork
  try dsimp only
  repeat' split
  all_goals simp

@[simp] theorem failLoad_keeps (result : ResultCode) (s : State) (n : Nat) :
    (failLoad result s n).pending = s.pending ∧ (failLoad result s n).held = s.held ∧
    (failLoad result s n).part = s.part ∧ (failLoad result s n).causes = s.causes ∧
    (failLoad result s n).timeBase = s.timeBase ∧ (failLoad result s n).wallOffset = s.wallOffset ∧
    (failLoad result s n).notices = s.notices ∧ (failLoad result s n).sync = s.sync ∧
    (failLoad result s n).seq = s.seq ∧ (failLoad result s n).pool = s.pool ∧
    (failLoad result s n).pau = s.pau ∧ (failLoad result s n).mem = s.mem ∧
    (failLoad result s n).rolls = s.rolls ∧ (failLoad result s n).recipes = s.recipes ∧
    (failLoad result s n).dark = s.dark ∧ (failLoad result s n).dev = s.dev ∧
    (failLoad result s n).cache = s.cache ∧ (failLoad result s n).card = s.card ∧
    (failLoad result s n).free = s.free := by
  unfold failLoad
  try dsimp only
  repeat' split
  all_goals simp

@[simp] theorem refuseReads_keeps (rs : List CardRead) (result : ResultCode) (s : State) :
    (refuseReads rs result s).pending = s.pending ∧ (refuseReads rs result s).held = s.held ∧
    (refuseReads rs result s).part = s.part ∧ (refuseReads rs result s).causes = s.causes ∧
    (refuseReads rs result s).timeBase = s.timeBase ∧ (refuseReads rs result s).wallOffset = s.wallOffset ∧
    (refuseReads rs result s).notices = s.notices ∧ (refuseReads rs result s).sync = s.sync ∧
    (refuseReads rs result s).seq = s.seq ∧ (refuseReads rs result s).pau = s.pau ∧
    (refuseReads rs result s).mem = s.mem ∧ (refuseReads rs result s).rolls = s.rolls ∧
    (refuseReads rs result s).recipes = s.recipes ∧ (refuseReads rs result s).dark = s.dark ∧
    (refuseReads rs result s).free = s.free := by
  unfold refuseReads
  try dsimp only
  repeat' split
  all_goals simp

@[simp] theorem failAllLoads_keeps (result : ResultCode) (s : State) :
    (failAllLoads result s).pending = s.pending ∧ (failAllLoads result s).held = s.held ∧
    (failAllLoads result s).part = s.part ∧ (failAllLoads result s).causes = s.causes ∧
    (failAllLoads result s).timeBase = s.timeBase ∧ (failAllLoads result s).wallOffset = s.wallOffset ∧
    (failAllLoads result s).notices = s.notices ∧ (failAllLoads result s).sync = s.sync ∧
    (failAllLoads result s).seq = s.seq ∧ (failAllLoads result s).pool = s.pool ∧
    (failAllLoads result s).pau = s.pau ∧ (failAllLoads result s).mem = s.mem ∧
    (failAllLoads result s).rolls = s.rolls ∧ (failAllLoads result s).recipes = s.recipes ∧
    (failAllLoads result s).dark = s.dark ∧ (failAllLoads result s).dev = s.dev ∧
    (failAllLoads result s).cache = s.cache ∧ (failAllLoads result s).card = s.card ∧
    (failAllLoads result s).free = s.free := by
  unfold failAllLoads
  simp

@[simp] theorem endReads_keeps (result : ResultCode) (s : State) :
    (endReads result s).pending = s.pending ∧ (endReads result s).held = s.held ∧
    (endReads result s).part = s.part ∧ (endReads result s).causes = s.causes ∧
    (endReads result s).timeBase = s.timeBase ∧ (endReads result s).wallOffset = s.wallOffset ∧
    (endReads result s).notices = s.notices ∧ (endReads result s).sync = s.sync ∧
    (endReads result s).seq = s.seq ∧ (endReads result s).pau = s.pau ∧ (endReads result s).mem = s.mem ∧
    (endReads result s).rolls = s.rolls ∧ (endReads result s).recipes = s.recipes ∧
    (endReads result s).dark = s.dark ∧ (endReads result s).free = s.free := by
  unfold endReads
  try dsimp only
  repeat' split
  all_goals simp

@[simp] theorem returnRecords_keeps (goes : Record → Bool) (s : State) :
    (returnRecords goes s).pending = s.pending ∧ (returnRecords goes s).held = s.held ∧
    (returnRecords goes s).part = s.part ∧ (returnRecords goes s).causes = s.causes ∧
    (returnRecords goes s).timeBase = s.timeBase ∧ (returnRecords goes s).wallOffset = s.wallOffset ∧
    (returnRecords goes s).link = s.link ∧ (returnRecords goes s).notices = s.notices ∧
    (returnRecords goes s).sync = s.sync ∧ (returnRecords goes s).seq = s.seq ∧
    (returnRecords goes s).pool = s.pool ∧ (returnRecords goes s).pau = s.pau ∧
    (returnRecords goes s).mem = s.mem ∧ (returnRecords goes s).rolls = s.rolls ∧
    (returnRecords goes s).recipes = s.recipes ∧ (returnRecords goes s).dark = s.dark ∧
    (returnRecords goes s).dev = s.dev ∧ (returnRecords goes s).cache = s.cache ∧
    (returnRecords goes s).free = s.free := by
  unfold returnRecords
  simp

@[simp] theorem returnHeld_keeps (s : State) :
    (returnHeld s).pending = s.pending ∧ (returnHeld s).held = s.held ∧ (returnHeld s).part = s.part ∧
    (returnHeld s).causes = s.causes ∧ (returnHeld s).timeBase = s.timeBase ∧
    (returnHeld s).wallOffset = s.wallOffset ∧ (returnHeld s).link = s.link ∧
    (returnHeld s).notices = s.notices ∧ (returnHeld s).sync = s.sync ∧ (returnHeld s).seq = s.seq ∧
    (returnHeld s).pool = s.pool ∧ (returnHeld s).pau = s.pau ∧ (returnHeld s).mem = s.mem ∧
    (returnHeld s).rolls = s.rolls ∧ (returnHeld s).recipes = s.recipes ∧ (returnHeld s).dark = s.dark ∧
    (returnHeld s).dev = s.dev ∧ (returnHeld s).cache = s.cache ∧ (returnHeld s).free = s.free := by
  unfold returnHeld
  simp

@[simp] theorem freeHandoffs_keeps (n : Nat) (s : State) :
    (freeHandoffs n s).pending = s.pending ∧ (freeHandoffs n s).held = s.held ∧
    (freeHandoffs n s).part = s.part ∧ (freeHandoffs n s).causes = s.causes ∧
    (freeHandoffs n s).timeBase = s.timeBase ∧ (freeHandoffs n s).wallOffset = s.wallOffset ∧
    (freeHandoffs n s).link = s.link ∧ (freeHandoffs n s).notices = s.notices ∧
    (freeHandoffs n s).sync = s.sync ∧ (freeHandoffs n s).seq = s.seq ∧ (freeHandoffs n s).pau = s.pau ∧
    (freeHandoffs n s).mem = s.mem ∧ (freeHandoffs n s).table = s.table ∧
    (freeHandoffs n s).rolls = s.rolls ∧ (freeHandoffs n s).recipes = s.recipes ∧
    (freeHandoffs n s).dark = s.dark ∧ (freeHandoffs n s).dev = s.dev ∧ (freeHandoffs n s).cache = s.cache ∧
    (freeHandoffs n s).free = s.free := by
  unfold freeHandoffs
  simp

@[simp] theorem dropRecord_keeps (s : State) (n : Nat) :
    (dropRecord s n).pending = s.pending ∧ (dropRecord s n).held = s.held ∧ (dropRecord s n).part = s.part ∧
    (dropRecord s n).causes = s.causes ∧ (dropRecord s n).timeBase = s.timeBase ∧
    (dropRecord s n).wallOffset = s.wallOffset ∧ (dropRecord s n).notices = s.notices ∧
    (dropRecord s n).sync = s.sync ∧ (dropRecord s n).seq = s.seq ∧ (dropRecord s n).pau = s.pau ∧
    (dropRecord s n).mem = s.mem ∧ (dropRecord s n).rolls = s.rolls ∧ (dropRecord s n).recipes = s.recipes ∧
    (dropRecord s n).dark = s.dark ∧ (dropRecord s n).free = s.free := by
  unfold dropRecord
  simp

@[simp] theorem dropSettled_keeps (s : State) :
    (dropSettled s).pending = s.pending ∧ (dropSettled s).held = s.held ∧ (dropSettled s).part = s.part ∧
    (dropSettled s).causes = s.causes ∧ (dropSettled s).timeBase = s.timeBase ∧
    (dropSettled s).wallOffset = s.wallOffset ∧ (dropSettled s).notices = s.notices ∧
    (dropSettled s).sync = s.sync ∧ (dropSettled s).seq = s.seq ∧ (dropSettled s).pau = s.pau ∧
    (dropSettled s).mem = s.mem ∧ (dropSettled s).rolls = s.rolls ∧ (dropSettled s).recipes = s.recipes ∧
    (dropSettled s).dark = s.dark ∧ (dropSettled s).free = s.free := by
  unfold dropSettled
  simp

@[simp] theorem raiseAmendLost_keeps (lost : List Nat) (s : State) :
    (raiseAmendLost lost s).pending = s.pending ∧ (raiseAmendLost lost s).held = s.held ∧
    (raiseAmendLost lost s).part = s.part ∧ (raiseAmendLost lost s).causes = s.causes ∧
    (raiseAmendLost lost s).timeBase = s.timeBase ∧ (raiseAmendLost lost s).wallOffset = s.wallOffset ∧
    (raiseAmendLost lost s).link = s.link ∧ (raiseAmendLost lost s).sync = s.sync ∧
    (raiseAmendLost lost s).seq = s.seq ∧ (raiseAmendLost lost s).pool = s.pool ∧
    (raiseAmendLost lost s).pau = s.pau ∧ (raiseAmendLost lost s).mem = s.mem ∧
    (raiseAmendLost lost s).table = s.table ∧ (raiseAmendLost lost s).rolls = s.rolls ∧
    (raiseAmendLost lost s).recipes = s.recipes ∧ (raiseAmendLost lost s).dark = s.dark ∧
    (raiseAmendLost lost s).dev = s.dev ∧ (raiseAmendLost lost s).cache = s.cache ∧
    (raiseAmendLost lost s).card = s.card ∧ (raiseAmendLost lost s).free = s.free := by
  unfold raiseAmendLost
  try dsimp only
  repeat' split
  all_goals simp

@[simp] theorem emptyIndex_keeps (s : State) :
    (emptyIndex s).pending = s.pending ∧ (emptyIndex s).held = s.held ∧ (emptyIndex s).part = s.part ∧
    (emptyIndex s).causes = s.causes ∧ (emptyIndex s).timeBase = s.timeBase ∧
    (emptyIndex s).wallOffset = s.wallOffset ∧ (emptyIndex s).link = s.link ∧
    (emptyIndex s).notices = s.notices ∧ (emptyIndex s).sync = s.sync ∧ (emptyIndex s).seq = s.seq ∧
    (emptyIndex s).pool = s.pool ∧ (emptyIndex s).pau = s.pau ∧ (emptyIndex s).mem = s.mem ∧
    (emptyIndex s).table = s.table ∧ (emptyIndex s).rolls = s.rolls ∧ (emptyIndex s).recipes = s.recipes ∧
    (emptyIndex s).dark = s.dark ∧ (emptyIndex s).dev = s.dev ∧ (emptyIndex s).cache = s.cache ∧
    (emptyIndex s).free = s.free := by
  unfold emptyIndex
  simp

@[simp] theorem answerWaiting_keeps (tag : Option Nat) (result : ResultCode) (s : State) :
    (answerWaiting tag result s).pending = s.pending ∧ (answerWaiting tag result s).held = s.held ∧
    (answerWaiting tag result s).part = s.part ∧ (answerWaiting tag result s).causes = s.causes ∧
    (answerWaiting tag result s).timeBase = s.timeBase ∧
    (answerWaiting tag result s).wallOffset = s.wallOffset ∧
    (answerWaiting tag result s).notices = s.notices ∧ (answerWaiting tag result s).sync = s.sync ∧
    (answerWaiting tag result s).seq = s.seq ∧ (answerWaiting tag result s).pool = s.pool ∧
    (answerWaiting tag result s).pau = s.pau ∧ (answerWaiting tag result s).mem = s.mem ∧
    (answerWaiting tag result s).table = s.table ∧ (answerWaiting tag result s).rolls = s.rolls ∧
    (answerWaiting tag result s).recipes = s.recipes ∧ (answerWaiting tag result s).dark = s.dark ∧
    (answerWaiting tag result s).dev = s.dev ∧ (answerWaiting tag result s).cache = s.cache ∧
    (answerWaiting tag result s).card = s.card ∧ (answerWaiting tag result s).free = s.free := by
  unfold answerWaiting
  try dsimp only
  repeat' split
  all_goals simp

@[simp] theorem answerCardTags_keeps (result : ResultCode) (s : State) :
    (answerCardTags result s).pending = s.pending ∧ (answerCardTags result s).held = s.held ∧
    (answerCardTags result s).part = s.part ∧ (answerCardTags result s).causes = s.causes ∧
    (answerCardTags result s).timeBase = s.timeBase ∧ (answerCardTags result s).wallOffset = s.wallOffset ∧
    (answerCardTags result s).notices = s.notices ∧ (answerCardTags result s).sync = s.sync ∧
    (answerCardTags result s).seq = s.seq ∧ (answerCardTags result s).pool = s.pool ∧
    (answerCardTags result s).pau = s.pau ∧ (answerCardTags result s).mem = s.mem ∧
    (answerCardTags result s).table = s.table ∧ (answerCardTags result s).rolls = s.rolls ∧
    (answerCardTags result s).recipes = s.recipes ∧ (answerCardTags result s).dark = s.dark ∧
    (answerCardTags result s).dev = s.dev ∧ (answerCardTags result s).cache = s.cache ∧
    (answerCardTags result s).free = s.free := by
  unfold answerCardTags
  simp

@[simp] theorem finishDrain_keeps (s : State) :
    (finishDrain s).pending = s.pending ∧ (finishDrain s).held = s.held ∧ (finishDrain s).part = s.part ∧
    (finishDrain s).causes = s.causes ∧ (finishDrain s).timeBase = s.timeBase ∧
    (finishDrain s).wallOffset = s.wallOffset ∧ (finishDrain s).notices = s.notices ∧
    (finishDrain s).sync = s.sync ∧ (finishDrain s).seq = s.seq ∧ (finishDrain s).pau = s.pau ∧
    (finishDrain s).mem = s.mem ∧ (finishDrain s).rolls = s.rolls ∧ (finishDrain s).recipes = s.recipes ∧
    (finishDrain s).dark = s.dark ∧ (finishDrain s).free = s.free := by
  unfold finishDrain
  simp

@[simp] theorem claimForDark_keeps (s : State) :
    (claimForDark s).pending = s.pending ∧ (claimForDark s).held = s.held ∧ (claimForDark s).part = s.part ∧
    (claimForDark s).causes = s.causes ∧ (claimForDark s).timeBase = s.timeBase ∧
    (claimForDark s).wallOffset = s.wallOffset ∧ (claimForDark s).link = s.link ∧
    (claimForDark s).notices = s.notices ∧ (claimForDark s).sync = s.sync ∧ (claimForDark s).seq = s.seq ∧
    (claimForDark s).pau = s.pau ∧ (claimForDark s).mem = s.mem ∧ (claimForDark s).table = s.table ∧
    (claimForDark s).rolls = s.rolls ∧ (claimForDark s).recipes = s.recipes ∧
    (claimForDark s).dark = s.dark ∧ (claimForDark s).dev = s.dev ∧ (claimForDark s).cache = s.cache ∧
    (claimForDark s).card = s.card ∧ (claimForDark s).free = s.free := by
  unfold claimForDark
  try dsimp only
  repeat' split
  all_goals simp

@[simp] theorem serveBlocks_keeps (s : State) :
    (serveBlocks s).pending = s.pending ∧ (serveBlocks s).held = s.held ∧ (serveBlocks s).part = s.part ∧
    (serveBlocks s).causes = s.causes ∧ (serveBlocks s).timeBase = s.timeBase ∧
    (serveBlocks s).wallOffset = s.wallOffset ∧ (serveBlocks s).link = s.link ∧
    (serveBlocks s).sync = s.sync ∧ (serveBlocks s).pau = s.pau ∧ (serveBlocks s).mem = s.mem ∧
    (serveBlocks s).rolls = s.rolls ∧ (serveBlocks s).recipes = s.recipes ∧
    (serveBlocks s).free = s.free := by
  unfold serveBlocks
  simp

@[simp] theorem service_keeps (s : State) :
    (service s).pending = s.pending ∧ (service s).held = s.held ∧ (service s).part = s.part ∧
    (service s).causes = s.causes ∧ (service s).timeBase = s.timeBase ∧
    (service s).wallOffset = s.wallOffset ∧ (service s).sync = s.sync ∧ (service s).pau = s.pau ∧
    (service s).mem = s.mem ∧ (service s).rolls = s.rolls ∧ (service s).recipes = s.recipes ∧
    (service s).free = s.free := by
  unfold service
  try dsimp only
  repeat' split
  all_goals simp

@[simp] theorem enterRunning_keeps (s : State) :
    (enterRunning s).pending = s.pending ∧ (enterRunning s).held = s.held ∧
    (enterRunning s).causes = s.causes ∧ (enterRunning s).timeBase = s.timeBase ∧
    (enterRunning s).wallOffset = s.wallOffset ∧ (enterRunning s).sync = s.sync ∧
    (enterRunning s).mem = s.mem ∧ (enterRunning s).rolls = s.rolls ∧ (enterRunning s).recipes = s.recipes ∧
    (enterRunning s).free = s.free := by
  unfold enterRunning
  simp

end Sys2Proof.Machine
end

