-- ==== Sys2Proof/Laws/Shots.lean ====
section
/-! SUPPORT. The fields each operation of the sequencer, of retirement and of the mount leaves as they were. -/

namespace Sys2Proof.Machine

@[simp] theorem evictSlot_keeps (i : Nat) (s : State) :
    (evictSlot i s).pending = s.pending ∧ (evictSlot i s).held = s.held ∧ (evictSlot i s).part = s.part ∧
    (evictSlot i s).causes = s.causes ∧ (evictSlot i s).timeBase = s.timeBase ∧
    (evictSlot i s).wallOffset = s.wallOffset ∧ (evictSlot i s).link = s.link ∧
    (evictSlot i s).notices = s.notices ∧ (evictSlot i s).sync = s.sync ∧ (evictSlot i s).seq = s.seq ∧
    (evictSlot i s).pool = s.pool ∧ (evictSlot i s).pau = s.pau ∧ (evictSlot i s).mem = s.mem ∧
    (evictSlot i s).rolls = s.rolls ∧ (evictSlot i s).recipes = s.recipes ∧ (evictSlot i s).dark = s.dark ∧
    (evictSlot i s).dev = s.dev ∧ (evictSlot i s).card = s.card ∧ (evictSlot i s).free = s.free := by
  unfold evictSlot
  try dsimp only
  repeat' split
  all_goals simp

@[simp] theorem updateOpen_keeps (f : Record → Record) (s : State) :
    (updateOpen f s).pending = s.pending ∧ (updateOpen f s).held = s.held ∧ (updateOpen f s).part = s.part ∧
    (updateOpen f s).causes = s.causes ∧ (updateOpen f s).timeBase = s.timeBase ∧
    (updateOpen f s).wallOffset = s.wallOffset ∧ (updateOpen f s).link = s.link ∧
    (updateOpen f s).notices = s.notices ∧ (updateOpen f s).sync = s.sync ∧ (updateOpen f s).seq = s.seq ∧
    (updateOpen f s).pool = s.pool ∧ (updateOpen f s).pau = s.pau ∧ (updateOpen f s).mem = s.mem ∧
    (updateOpen f s).rolls = s.rolls ∧ (updateOpen f s).recipes = s.recipes ∧
    (updateOpen f s).dark = s.dark ∧ (updateOpen f s).dev = s.dev ∧ (updateOpen f s).cache = s.cache ∧
    (updateOpen f s).card = s.card ∧ (updateOpen f s).free = s.free := by
  unfold updateOpen
  try dsimp only
  repeat' split
  all_goals simp

@[simp] theorem updateEntry_keeps (f : ExpEntry → ExpEntry) (s : State) :
    (updateEntry f s).pending = s.pending ∧ (updateEntry f s).held = s.held ∧
    (updateEntry f s).part = s.part ∧ (updateEntry f s).causes = s.causes ∧
    (updateEntry f s).timeBase = s.timeBase ∧ (updateEntry f s).wallOffset = s.wallOffset ∧
    (updateEntry f s).link = s.link ∧ (updateEntry f s).notices = s.notices ∧
    (updateEntry f s).sync = s.sync ∧ (updateEntry f s).seq = s.seq ∧ (updateEntry f s).pool = s.pool ∧
    (updateEntry f s).pau = s.pau ∧ (updateEntry f s).mem = s.mem ∧ (updateEntry f s).rolls = s.rolls ∧
    (updateEntry f s).recipes = s.recipes ∧ (updateEntry f s).dark = s.dark ∧
    (updateEntry f s).dev = s.dev ∧ (updateEntry f s).cache = s.cache ∧ (updateEntry f s).card = s.card ∧
    (updateEntry f s).free = s.free := by
  unfold updateEntry
  simp

@[simp] theorem idleSeq_keeps (s : State) :
    (idleSeq s).pending = s.pending ∧ (idleSeq s).held = s.held ∧ (idleSeq s).part = s.part ∧
    (idleSeq s).causes = s.causes ∧ (idleSeq s).timeBase = s.timeBase ∧
    (idleSeq s).wallOffset = s.wallOffset ∧ (idleSeq s).link = s.link ∧ (idleSeq s).notices = s.notices ∧
    (idleSeq s).sync = s.sync ∧ (idleSeq s).pool = s.pool ∧ (idleSeq s).pau = s.pau ∧
    (idleSeq s).mem = s.mem ∧ (idleSeq s).table = s.table ∧ (idleSeq s).rolls = s.rolls ∧
    (idleSeq s).recipes = s.recipes ∧ (idleSeq s).dark = s.dark ∧ (idleSeq s).dev = s.dev ∧
    (idleSeq s).cache = s.cache ∧ (idleSeq s).card = s.card ∧ (idleSeq s).free = s.free := by
  unfold idleSeq
  simp

@[simp] theorem freeScratch_keeps (s : State) :
    (freeScratch s).pending = s.pending ∧ (freeScratch s).held = s.held ∧ (freeScratch s).part = s.part ∧
    (freeScratch s).causes = s.causes ∧ (freeScratch s).timeBase = s.timeBase ∧
    (freeScratch s).wallOffset = s.wallOffset ∧ (freeScratch s).link = s.link ∧
    (freeScratch s).notices = s.notices ∧ (freeScratch s).sync = s.sync ∧ (freeScratch s).pau = s.pau ∧
    (freeScratch s).mem = s.mem ∧ (freeScratch s).table = s.table ∧ (freeScratch s).rolls = s.rolls ∧
    (freeScratch s).recipes = s.recipes ∧ (freeScratch s).dark = s.dark ∧ (freeScratch s).dev = s.dev ∧
    (freeScratch s).cache = s.cache ∧ (freeScratch s).card = s.card ∧ (freeScratch s).free = s.free := by
  unfold freeScratch
  simp

@[simp] theorem takeSeqPlane_keeps (c : Nat × Option Nat) (o : Owner) (s : State) :
    (takeSeqPlane c o s).pending = s.pending ∧ (takeSeqPlane c o s).held = s.held ∧
    (takeSeqPlane c o s).part = s.part ∧ (takeSeqPlane c o s).causes = s.causes ∧
    (takeSeqPlane c o s).timeBase = s.timeBase ∧ (takeSeqPlane c o s).wallOffset = s.wallOffset ∧
    (takeSeqPlane c o s).link = s.link ∧ (takeSeqPlane c o s).notices = s.notices ∧
    (takeSeqPlane c o s).sync = s.sync ∧ (takeSeqPlane c o s).seq = s.seq ∧
    (takeSeqPlane c o s).pau = s.pau ∧ (takeSeqPlane c o s).mem = s.mem ∧
    (takeSeqPlane c o s).table = s.table ∧ (takeSeqPlane c o s).rolls = s.rolls ∧
    (takeSeqPlane c o s).recipes = s.recipes ∧ (takeSeqPlane c o s).dev = s.dev ∧
    (takeSeqPlane c o s).cache = s.cache ∧ (takeSeqPlane c o s).card = s.card ∧
    (takeSeqPlane c o s).free = s.free := by
  unfold takeSeqPlane
  try dsimp only
  repeat' split
  all_goals simp

@[simp] theorem passAfterReclaim_keeps (c : Nat × Option Nat) (s : State) :
    (passAfterReclaim c s).pending = s.pending ∧ (passAfterReclaim c s).held = s.held ∧
    (passAfterReclaim c s).part = s.part ∧ (passAfterReclaim c s).causes = s.causes ∧
    (passAfterReclaim c s).timeBase = s.timeBase ∧ (passAfterReclaim c s).wallOffset = s.wallOffset ∧
    (passAfterReclaim c s).link = s.link ∧ (passAfterReclaim c s).notices = s.notices ∧
    (passAfterReclaim c s).sync = s.sync ∧ (passAfterReclaim c s).seq = s.seq ∧
    (passAfterReclaim c s).mem = s.mem ∧ (passAfterReclaim c s).rolls = s.rolls ∧
    (passAfterReclaim c s).recipes = s.recipes ∧ (passAfterReclaim c s).dev = s.dev ∧
    (passAfterReclaim c s).cache = s.cache ∧ (passAfterReclaim c s).card = s.card ∧
    (passAfterReclaim c s).free = s.free := by
  unfold passAfterReclaim
  try dsimp only
  repeat' split
  all_goals simp

@[simp] theorem arm_keeps (roll : Roll) (s : State) :
    (arm roll s).pending = s.pending ∧ (arm roll s).held = s.held ∧ (arm roll s).part = s.part ∧
    (arm roll s).causes = s.causes ∧ (arm roll s).timeBase = s.timeBase ∧
    (arm roll s).wallOffset = s.wallOffset ∧ (arm roll s).link = s.link ∧ (arm roll s).notices = s.notices ∧
    (arm roll s).sync = s.sync ∧ (arm roll s).pool = s.pool ∧ (arm roll s).pau = s.pau ∧
    (arm roll s).mem = s.mem ∧ (arm roll s).table = s.table ∧ (arm roll s).rolls = s.rolls ∧
    (arm roll s).recipes = s.recipes ∧ (arm roll s).dark = s.dark ∧ (arm roll s).dev = s.dev ∧
    (arm roll s).cache = s.cache ∧ (arm roll s).card = s.card ∧ (arm roll s).free = s.free := by
  unfold arm
  simp

@[simp] theorem requestPulse_keeps (s : State) :
    (requestPulse s).pending = s.pending ∧ (requestPulse s).held = s.held ∧ (requestPulse s).part = s.part ∧
    (requestPulse s).causes = s.causes ∧ (requestPulse s).timeBase = s.timeBase ∧
    (requestPulse s).wallOffset = s.wallOffset ∧ (requestPulse s).link = s.link ∧
    (requestPulse s).notices = s.notices ∧ (requestPulse s).seq = s.seq ∧ (requestPulse s).pool = s.pool ∧
    (requestPulse s).pau = s.pau ∧ (requestPulse s).mem = s.mem ∧ (requestPulse s).table = s.table ∧
    (requestPulse s).rolls = s.rolls ∧ (requestPulse s).recipes = s.recipes ∧
    (requestPulse s).dark = s.dark ∧ (requestPulse s).dev = s.dev ∧ (requestPulse s).cache = s.cache ∧
    (requestPulse s).card = s.card ∧ (requestPulse s).free = s.free := by
  unfold requestPulse
  simp

@[simp] theorem openEntry_keeps (t : Time) (s : State) :
    (openEntry t s).pending = s.pending ∧ (openEntry t s).held = s.held ∧ (openEntry t s).part = s.part ∧
    (openEntry t s).causes = s.causes ∧ (openEntry t s).timeBase = s.timeBase ∧
    (openEntry t s).wallOffset = s.wallOffset ∧ (openEntry t s).link = s.link ∧
    (openEntry t s).notices = s.notices ∧ (openEntry t s).sync = s.sync ∧ (openEntry t s).seq = s.seq ∧
    (openEntry t s).pool = s.pool ∧ (openEntry t s).pau = s.pau ∧ (openEntry t s).mem = s.mem ∧
    (openEntry t s).rolls = s.rolls ∧ (openEntry t s).recipes = s.recipes ∧ (openEntry t s).dark = s.dark ∧
    (openEntry t s).dev = s.dev ∧ (openEntry t s).cache = s.cache ∧ (openEntry t s).card = s.card ∧
    (openEntry t s).free = s.free := by
  unfold openEntry
  try dsimp only
  repeat' split
  all_goals simp

@[simp] theorem openTimed_keeps (duration : Nat) (s : State) :
    (openTimed duration s).pending = s.pending ∧ (openTimed duration s).held = s.held ∧
    (openTimed duration s).part = s.part ∧ (openTimed duration s).causes = s.causes ∧
    (openTimed duration s).timeBase = s.timeBase ∧ (openTimed duration s).wallOffset = s.wallOffset ∧
    (openTimed duration s).link = s.link ∧ (openTimed duration s).notices = s.notices ∧
    (openTimed duration s).sync = s.sync ∧ (openTimed duration s).pool = s.pool ∧
    (openTimed duration s).pau = s.pau ∧ (openTimed duration s).mem = s.mem ∧
    (openTimed duration s).rolls = s.rolls ∧ (openTimed duration s).recipes = s.recipes ∧
    (openTimed duration s).dark = s.dark ∧ (openTimed duration s).dev = s.dev ∧
    (openTimed duration s).cache = s.cache ∧ (openTimed duration s).card = s.card ∧
    (openTimed duration s).free = s.free := by
  unfold openTimed
  simp

@[simp] theorem beginExposure_keeps (k : Start) (roll : Roll) (s : State) :
    (beginExposure k roll s).pending = s.pending ∧ (beginExposure k roll s).held = s.held ∧
    (beginExposure k roll s).part = s.part ∧ (beginExposure k roll s).causes = s.causes ∧
    (beginExposure k roll s).timeBase = s.timeBase ∧ (beginExposure k roll s).wallOffset = s.wallOffset ∧
    (beginExposure k roll s).link = s.link ∧ (beginExposure k roll s).notices = s.notices ∧
    (beginExposure k roll s).pool = s.pool ∧ (beginExposure k roll s).pau = s.pau ∧
    (beginExposure k roll s).mem = s.mem ∧ (beginExposure k roll s).rolls = s.rolls ∧
    (beginExposure k roll s).recipes = s.recipes ∧ (beginExposure k roll s).dark = s.dark ∧
    (beginExposure k roll s).dev = s.dev ∧ (beginExposure k roll s).cache = s.cache ∧
    (beginExposure k roll s).card = s.card ∧ (beginExposure k roll s).free = s.free := by
  unfold beginExposure
  try dsimp only
  repeat' split
  all_goals simp

@[simp] theorem stepFrame_keeps (rollSlot : Nat) (roll : Roll) (shot : Nat) (s : State) :
    (stepFrame rollSlot roll shot s).pending = s.pending ∧ (stepFrame rollSlot roll shot s).held = s.held ∧
    (stepFrame rollSlot roll shot s).part = s.part ∧ (stepFrame rollSlot roll shot s).causes = s.causes ∧
    (stepFrame rollSlot roll shot s).timeBase = s.timeBase ∧
    (stepFrame rollSlot roll shot s).wallOffset = s.wallOffset ∧
    (stepFrame rollSlot roll shot s).link = s.link ∧ (stepFrame rollSlot roll shot s).sync = s.sync ∧
    (stepFrame rollSlot roll shot s).seq = s.seq ∧ (stepFrame rollSlot roll shot s).pool = s.pool ∧
    (stepFrame rollSlot roll shot s).pau = s.pau ∧ (stepFrame rollSlot roll shot s).mem = s.mem ∧
    (stepFrame rollSlot roll shot s).table = s.table ∧
    (stepFrame rollSlot roll shot s).recipes = s.recipes ∧ (stepFrame rollSlot roll shot s).dark = s.dark ∧
    (stepFrame rollSlot roll shot s).dev = s.dev ∧ (stepFrame rollSlot roll shot s).cache = s.cache ∧
    (stepFrame rollSlot roll shot s).card = s.card ∧ (stepFrame rollSlot roll shot s).free = s.free := by
  unfold stepFrame
  try dsimp only
  repeat' split
  all_goals simp

@[simp] theorem createShot_keeps (k : Start) (rollSlot : Nat) (roll : Roll) (slot : Nat) (c : Nat × Option Nat) (s : State) :
    (createShot k rollSlot roll slot c s).pending = s.pending ∧
    (createShot k rollSlot roll slot c s).held = s.held ∧
    (createShot k rollSlot roll slot c s).part = s.part ∧
    (createShot k rollSlot roll slot c s).causes = s.causes ∧
    (createShot k rollSlot roll slot c s).timeBase = s.timeBase ∧
    (createShot k rollSlot roll slot c s).wallOffset = s.wallOffset ∧
    (createShot k rollSlot roll slot c s).link = s.link ∧
    (createShot k rollSlot roll slot c s).mem = s.mem ∧
    (createShot k rollSlot roll slot c s).recipes = s.recipes ∧
    (createShot k rollSlot roll slot c s).dev = s.dev ∧
    (createShot k rollSlot roll slot c s).cache = s.cache ∧
    (createShot k rollSlot roll slot c s).card = s.card ∧
    (createShot k rollSlot roll slot c s).free = s.free := by
  unfold createShot
  simp

@[simp] theorem claimStart_keeps (k : Start) (rollSlot : Nat) (roll : Roll) (s : State) :
    (claimStart k rollSlot roll s).2.pending = s.pending ∧ (claimStart k rollSlot roll s).2.held = s.held ∧
    (claimStart k rollSlot roll s).2.part = s.part ∧ (claimStart k rollSlot roll s).2.causes = s.causes ∧
    (claimStart k rollSlot roll s).2.timeBase = s.timeBase ∧
    (claimStart k rollSlot roll s).2.wallOffset = s.wallOffset ∧
    (claimStart k rollSlot roll s).2.link = s.link ∧ (claimStart k rollSlot roll s).2.mem = s.mem ∧
    (claimStart k rollSlot roll s).2.recipes = s.recipes ∧ (claimStart k rollSlot roll s).2.dev = s.dev ∧
    (claimStart k rollSlot roll s).2.card = s.card ∧ (claimStart k rollSlot roll s).2.free = s.free := by
  unfold claimStart
  try dsimp only
  repeat' split
  all_goals simp

@[simp] theorem startIdle_keeps (k : Start) (s : State) :
    (startIdle k s).2.pending = s.pending ∧ (startIdle k s).2.held = s.held ∧
    (startIdle k s).2.part = s.part ∧ (startIdle k s).2.causes = s.causes ∧
    (startIdle k s).2.timeBase = s.timeBase ∧ (startIdle k s).2.wallOffset = s.wallOffset ∧
    (startIdle k s).2.link = s.link ∧ (startIdle k s).2.mem = s.mem ∧
    (startIdle k s).2.recipes = s.recipes ∧ (startIdle k s).2.dev = s.dev ∧
    (startIdle k s).2.card = s.card ∧ (startIdle k s).2.free = s.free := by
  unfold startIdle
  try dsimp only
  repeat' split
  all_goals simp

@[simp] theorem startDark_keeps (k : Start) (s : State) :
    (startDark k s).2.pending = s.pending ∧ (startDark k s).2.held = s.held ∧
    (startDark k s).2.part = s.part ∧ (startDark k s).2.causes = s.causes ∧
    (startDark k s).2.timeBase = s.timeBase ∧ (startDark k s).2.wallOffset = s.wallOffset ∧
    (startDark k s).2.link = s.link ∧ (startDark k s).2.mem = s.mem ∧
    (startDark k s).2.recipes = s.recipes ∧ (startDark k s).2.free = s.free := by
  unfold startDark
  try dsimp only
  repeat' split
  all_goals simp

@[simp] theorem startArmed_keeps (k : Start) (s : State) :
    (startArmed k s).2.pending = s.pending ∧ (startArmed k s).2.held = s.held ∧
    (startArmed k s).2.part = s.part ∧ (startArmed k s).2.causes = s.causes ∧
    (startArmed k s).2.timeBase = s.timeBase ∧ (startArmed k s).2.wallOffset = s.wallOffset ∧
    (startArmed k s).2.link = s.link ∧ (startArmed k s).2.notices = s.notices ∧
    (startArmed k s).2.pool = s.pool ∧ (startArmed k s).2.pau = s.pau ∧ (startArmed k s).2.mem = s.mem ∧
    (startArmed k s).2.table = s.table ∧ (startArmed k s).2.rolls = s.rolls ∧
    (startArmed k s).2.recipes = s.recipes ∧ (startArmed k s).2.dark = s.dark ∧
    (startArmed k s).2.dev = s.dev ∧ (startArmed k s).2.cache = s.cache ∧ (startArmed k s).2.card = s.card ∧
    (startArmed k s).2.free = s.free := by
  unfold startArmed
  try dsimp only
  repeat' split
  all_goals simp

@[simp] theorem nextExposure_keeps (k : Start) (roll : Roll) (s : State) :
    (nextExposure k roll s).pending = s.pending ∧ (nextExposure k roll s).held = s.held ∧
    (nextExposure k roll s).part = s.part ∧ (nextExposure k roll s).causes = s.causes ∧
    (nextExposure k roll s).timeBase = s.timeBase ∧ (nextExposure k roll s).wallOffset = s.wallOffset ∧
    (nextExposure k roll s).link = s.link ∧ (nextExposure k roll s).notices = s.notices ∧
    (nextExposure k roll s).pool = s.pool ∧ (nextExposure k roll s).pau = s.pau ∧
    (nextExposure k roll s).mem = s.mem ∧ (nextExposure k roll s).rolls = s.rolls ∧
    (nextExposure k roll s).recipes = s.recipes ∧ (nextExposure k roll s).dark = s.dark ∧
    (nextExposure k roll s).dev = s.dev ∧ (nextExposure k roll s).cache = s.cache ∧
    (nextExposure k roll s).card = s.card ∧ (nextExposure k roll s).free = s.free := by
  unfold nextExposure
  simp

@[simp] theorem startStack_keeps (k : Start) (s : State) :
    (startStack k s).2.pending = s.pending ∧ (startStack k s).2.held = s.held ∧
    (startStack k s).2.part = s.part ∧ (startStack k s).2.causes = s.causes ∧
    (startStack k s).2.timeBase = s.timeBase ∧ (startStack k s).2.wallOffset = s.wallOffset ∧
    (startStack k s).2.link = s.link ∧ (startStack k s).2.notices = s.notices ∧
    (startStack k s).2.mem = s.mem ∧ (startStack k s).2.rolls = s.rolls ∧
    (startStack k s).2.recipes = s.recipes ∧ (startStack k s).2.dev = s.dev ∧
    (startStack k s).2.cache = s.cache ∧ (startStack k s).2.card = s.card ∧
    (startStack k s).2.free = s.free := by
  unfold startStack
  try dsimp only
  repeat' split
  all_goals simp

@[simp] theorem decideStart_keeps (k : Start) (s : State) :
    (decideStart k s).2.pending = s.pending ∧ (decideStart k s).2.held = s.held ∧
    (decideStart k s).2.part = s.part ∧ (decideStart k s).2.causes = s.causes ∧
    (decideStart k s).2.timeBase = s.timeBase ∧ (decideStart k s).2.wallOffset = s.wallOffset ∧
    (decideStart k s).2.link = s.link ∧ (decideStart k s).2.mem = s.mem ∧
    (decideStart k s).2.recipes = s.recipes ∧ (decideStart k s).2.free = s.free := by
  unfold decideStart
  try dsimp only
  repeat' split
  all_goals simp

@[simp] theorem release_keeps (s : State) :
    (release s).pending = s.pending ∧ (release s).held = s.held ∧ (release s).part = s.part ∧
    (release s).causes = s.causes ∧ (release s).timeBase = s.timeBase ∧
    (release s).wallOffset = s.wallOffset ∧ (release s).link = s.link ∧ (release s).mem = s.mem ∧
    (release s).recipes = s.recipes ∧ (release s).free = s.free := by
  unfold release
  try dsimp only
  repeat' split
  all_goals simp

@[simp] theorem autoJob_keeps (n : Nat) (k : JobKind) (setting : Option Nat) (s : State) :
    (autoJob n k setting s).pending = s.pending ∧ (autoJob n k setting s).held = s.held ∧
    (autoJob n k setting s).part = s.part ∧ (autoJob n k setting s).causes = s.causes ∧
    (autoJob n k setting s).timeBase = s.timeBase ∧ (autoJob n k setting s).wallOffset = s.wallOffset ∧
    (autoJob n k setting s).link = s.link ∧ (autoJob n k setting s).notices = s.notices ∧
    (autoJob n k setting s).sync = s.sync ∧ (autoJob n k setting s).seq = s.seq ∧
    (autoJob n k setting s).pool = s.pool ∧ (autoJob n k setting s).pau = s.pau ∧
    (autoJob n k setting s).mem = s.mem ∧ (autoJob n k setting s).table = s.table ∧
    (autoJob n k setting s).rolls = s.rolls ∧ (autoJob n k setting s).recipes = s.recipes ∧
    (autoJob n k setting s).dark = s.dark ∧ (autoJob n k setting s).cache = s.cache ∧
    (autoJob n k setting s).card = s.card ∧ (autoJob n k setting s).free = s.free := by
  unfold autoJob
  try dsimp only
  repeat' split
  all_goals simp

@[simp] theorem autoJobs_keeps (n : Nat) (roll : Option Roll) (s : State) :
    (autoJobs n roll s).pending = s.pending ∧ (autoJobs n roll s).held = s.held ∧
    (autoJobs n roll s).part = s.part ∧ (autoJobs n roll s).causes = s.causes ∧
    (autoJobs n roll s).timeBase = s.timeBase ∧ (autoJobs n roll s).wallOffset = s.wallOffset ∧
    (autoJobs n roll s).link = s.link ∧ (autoJobs n roll s).notices = s.notices ∧
    (autoJobs n roll s).sync = s.sync ∧ (autoJobs n roll s).seq = s.seq ∧
    (autoJobs n roll s).pool = s.pool ∧ (autoJobs n roll s).pau = s.pau ∧ (autoJobs n roll s).mem = s.mem ∧
    (autoJobs n roll s).table = s.table ∧ (autoJobs n roll s).rolls = s.rolls ∧
    (autoJobs n roll s).recipes = s.recipes ∧ (autoJobs n roll s).dark = s.dark ∧
    (autoJobs n roll s).cache = s.cache ∧ (autoJobs n roll s).card = s.card ∧
    (autoJobs n roll s).free = s.free := by
  unfold autoJobs
  simp

@[simp] theorem holdShot_keeps (s : State) :
    (holdShot s).pending = s.pending ∧ (holdShot s).held = s.held ∧ (holdShot s).part = s.part ∧
    (holdShot s).causes = s.causes ∧ (holdShot s).timeBase = s.timeBase ∧
    (holdShot s).wallOffset = s.wallOffset ∧ (holdShot s).link = s.link ∧ (holdShot s).notices = s.notices ∧
    (holdShot s).sync = s.sync ∧ (holdShot s).pau = s.pau ∧ (holdShot s).mem = s.mem ∧
    (holdShot s).rolls = s.rolls ∧ (holdShot s).recipes = s.recipes ∧ (holdShot s).dark = s.dark ∧
    (holdShot s).dev = s.dev ∧ (holdShot s).cache = s.cache ∧ (holdShot s).card = s.card ∧
    (holdShot s).free = s.free := by
  unfold holdShot
  simp

@[simp] theorem finishShot_keeps (s : State) :
    (finishShot s).pending = s.pending ∧ (finishShot s).held = s.held ∧ (finishShot s).part = s.part ∧
    (finishShot s).causes = s.causes ∧ (finishShot s).timeBase = s.timeBase ∧
    (finishShot s).wallOffset = s.wallOffset ∧ (finishShot s).link = s.link ∧ (finishShot s).sync = s.sync ∧
    (finishShot s).mem = s.mem ∧ (finishShot s).rolls = s.rolls ∧ (finishShot s).recipes = s.recipes ∧
    (finishShot s).cache = s.cache ∧ (finishShot s).card = s.card ∧ (finishShot s).free = s.free := by
  unfold finishShot
  try dsimp only
  repeat' split
  all_goals simp

@[simp] theorem giveFrameBack_keeps (s : State) :
    (giveFrameBack s).pending = s.pending ∧ (giveFrameBack s).held = s.held ∧
    (giveFrameBack s).part = s.part ∧ (giveFrameBack s).causes = s.causes ∧
    (giveFrameBack s).timeBase = s.timeBase ∧ (giveFrameBack s).wallOffset = s.wallOffset ∧
    (giveFrameBack s).link = s.link ∧ (giveFrameBack s).notices = s.notices ∧
    (giveFrameBack s).sync = s.sync ∧ (giveFrameBack s).seq = s.seq ∧ (giveFrameBack s).pool = s.pool ∧
    (giveFrameBack s).pau = s.pau ∧ (giveFrameBack s).mem = s.mem ∧ (giveFrameBack s).table = s.table ∧
    (giveFrameBack s).recipes = s.recipes ∧ (giveFrameBack s).dark = s.dark ∧
    (giveFrameBack s).dev = s.dev ∧ (giveFrameBack s).cache = s.cache ∧ (giveFrameBack s).card = s.card ∧
    (giveFrameBack s).free = s.free := by
  unfold giveFrameBack
  try dsimp only
  repeat' split
  all_goals simp

@[simp] theorem removeOpen_keeps (s : State) :
    (removeOpen s).pending = s.pending ∧ (removeOpen s).held = s.held ∧ (removeOpen s).part = s.part ∧
    (removeOpen s).causes = s.causes ∧ (removeOpen s).timeBase = s.timeBase ∧
    (removeOpen s).wallOffset = s.wallOffset ∧ (removeOpen s).link = s.link ∧
    (removeOpen s).notices = s.notices ∧ (removeOpen s).sync = s.sync ∧ (removeOpen s).pau = s.pau ∧
    (removeOpen s).mem = s.mem ∧ (removeOpen s).recipes = s.recipes ∧ (removeOpen s).dark = s.dark ∧
    (removeOpen s).dev = s.dev ∧ (removeOpen s).cache = s.cache ∧ (removeOpen s).card = s.card ∧
    (removeOpen s).free = s.free := by
  unfold removeOpen
  try dsimp only
  repeat' split
  all_goals simp

@[simp] theorem closeEntry_keeps (t : Time) (source : TimeSource) (cause : EndingCause) (truncated : Bool) (s : State) :
    (closeEntry t source cause truncated s).pending = s.pending ∧
    (closeEntry t source cause truncated s).held = s.held ∧
    (closeEntry t source cause truncated s).part = s.part ∧
    (closeEntry t source cause truncated s).causes = s.causes ∧
    (closeEntry t source cause truncated s).timeBase = s.timeBase ∧
    (closeEntry t source cause truncated s).wallOffset = s.wallOffset ∧
    (closeEntry t source cause truncated s).link = s.link ∧
    (closeEntry t source cause truncated s).notices = s.notices ∧
    (closeEntry t source cause truncated s).sync = s.sync ∧
    (closeEntry t source cause truncated s).pool = s.pool ∧
    (closeEntry t source cause truncated s).pau = s.pau ∧
    (closeEntry t source cause truncated s).mem = s.mem ∧
    (closeEntry t source cause truncated s).rolls = s.rolls ∧
    (closeEntry t source cause truncated s).recipes = s.recipes ∧
    (closeEntry t source cause truncated s).dark = s.dark ∧
    (closeEntry t source cause truncated s).dev = s.dev ∧
    (closeEntry t source cause truncated s).cache = s.cache ∧
    (closeEntry t source cause truncated s).card = s.card ∧
    (closeEntry t source cause truncated s).free = s.free := by
  unfold closeEntry
  simp

@[simp] theorem openBySync_keeps (t : Time) (roll : Roll) (s : State) :
    (openBySync t roll s).pending = s.pending ∧ (openBySync t roll s).held = s.held ∧
    (openBySync t roll s).part = s.part ∧ (openBySync t roll s).causes = s.causes ∧
    (openBySync t roll s).timeBase = s.timeBase ∧ (openBySync t roll s).wallOffset = s.wallOffset ∧
    (openBySync t roll s).link = s.link ∧ (openBySync t roll s).notices = s.notices ∧
    (openBySync t roll s).sync = s.sync ∧ (openBySync t roll s).pool = s.pool ∧
    (openBySync t roll s).pau = s.pau ∧ (openBySync t roll s).mem = s.mem ∧
    (openBySync t roll s).rolls = s.rolls ∧ (openBySync t roll s).recipes = s.recipes ∧
    (openBySync t roll s).dark = s.dark ∧ (openBySync t roll s).dev = s.dev ∧
    (openBySync t roll s).cache = s.cache ∧ (openBySync t roll s).card = s.card ∧
    (openBySync t roll s).free = s.free := by
  unfold openBySync
  simp

@[simp] theorem reopen_keeps (s : State) :
    (reopen s).pending = s.pending ∧ (reopen s).held = s.held ∧ (reopen s).part = s.part ∧
    (reopen s).causes = s.causes ∧ (reopen s).timeBase = s.timeBase ∧ (reopen s).wallOffset = s.wallOffset ∧
    (reopen s).link = s.link ∧ (reopen s).notices = s.notices ∧ (reopen s).sync = s.sync ∧
    (reopen s).pool = s.pool ∧ (reopen s).pau = s.pau ∧ (reopen s).mem = s.mem ∧
    (reopen s).rolls = s.rolls ∧ (reopen s).recipes = s.recipes ∧ (reopen s).dark = s.dark ∧
    (reopen s).dev = s.dev ∧ (reopen s).cache = s.cache ∧ (reopen s).card = s.card ∧
    (reopen s).free = s.free := by
  unfold reopen
  simp

@[simp] theorem xsyncClose_keeps (t : Time) (s : State) :
    (xsyncClose t s).pending = s.pending ∧ (xsyncClose t s).held = s.held ∧ (xsyncClose t s).part = s.part ∧
    (xsyncClose t s).causes = s.causes ∧ (xsyncClose t s).timeBase = s.timeBase ∧
    (xsyncClose t s).wallOffset = s.wallOffset ∧ (xsyncClose t s).link = s.link ∧
    (xsyncClose t s).notices = s.notices ∧ (xsyncClose t s).sync = s.sync ∧ (xsyncClose t s).pool = s.pool ∧
    (xsyncClose t s).pau = s.pau ∧ (xsyncClose t s).mem = s.mem ∧ (xsyncClose t s).rolls = s.rolls ∧
    (xsyncClose t s).recipes = s.recipes ∧ (xsyncClose t s).dark = s.dark ∧ (xsyncClose t s).dev = s.dev ∧
    (xsyncClose t s).cache = s.cache ∧ (xsyncClose t s).card = s.card ∧ (xsyncClose t s).free = s.free := by
  unfold xsyncClose
  try dsimp only
  repeat' split
  all_goals simp

@[simp] theorem xsyncOpening_keeps (t : Time) (s : State) :
    (xsyncOpening t s).pending = s.pending ∧ (xsyncOpening t s).held = s.held ∧
    (xsyncOpening t s).part = s.part ∧ (xsyncOpening t s).causes = s.causes ∧
    (xsyncOpening t s).timeBase = s.timeBase ∧ (xsyncOpening t s).wallOffset = s.wallOffset ∧
    (xsyncOpening t s).link = s.link ∧ (xsyncOpening t s).notices = s.notices ∧
    (xsyncOpening t s).sync = s.sync ∧ (xsyncOpening t s).pool = s.pool ∧ (xsyncOpening t s).pau = s.pau ∧
    (xsyncOpening t s).mem = s.mem ∧ (xsyncOpening t s).rolls = s.rolls ∧
    (xsyncOpening t s).recipes = s.recipes ∧ (xsyncOpening t s).dark = s.dark ∧
    (xsyncOpening t s).dev = s.dev ∧ (xsyncOpening t s).cache = s.cache ∧ (xsyncOpening t s).card = s.card ∧
    (xsyncOpening t s).free = s.free := by
  unfold xsyncOpening
  try dsimp only
  repeat' split
  all_goals simp

@[simp] theorem auxEnd_keeps (t : Time) (s : State) :
    (auxEnd t s).pending = s.pending ∧ (auxEnd t s).held = s.held ∧ (auxEnd t s).part = s.part ∧
    (auxEnd t s).causes = s.causes ∧ (auxEnd t s).timeBase = s.timeBase ∧
    (auxEnd t s).wallOffset = s.wallOffset ∧ (auxEnd t s).link = s.link ∧ (auxEnd t s).notices = s.notices ∧
    (auxEnd t s).sync = s.sync ∧ (auxEnd t s).pool = s.pool ∧ (auxEnd t s).pau = s.pau ∧
    (auxEnd t s).mem = s.mem ∧ (auxEnd t s).rolls = s.rolls ∧ (auxEnd t s).recipes = s.recipes ∧
    (auxEnd t s).dark = s.dark ∧ (auxEnd t s).dev = s.dev ∧ (auxEnd t s).cache = s.cache ∧
    (auxEnd t s).card = s.card ∧ (auxEnd t s).free = s.free := by
  unfold auxEnd
  try dsimp only
  repeat' split
  all_goals simp

@[simp] theorem beginReadout_keeps (x : SeqState) (s : State) :
    (beginReadout x s).pending = s.pending ∧ (beginReadout x s).held = s.held ∧
    (beginReadout x s).part = s.part ∧ (beginReadout x s).causes = s.causes ∧
    (beginReadout x s).timeBase = s.timeBase ∧ (beginReadout x s).wallOffset = s.wallOffset ∧
    (beginReadout x s).link = s.link ∧ (beginReadout x s).notices = s.notices ∧
    (beginReadout x s).sync = s.sync ∧ (beginReadout x s).pool = s.pool ∧ (beginReadout x s).pau = s.pau ∧
    (beginReadout x s).mem = s.mem ∧ (beginReadout x s).table = s.table ∧
    (beginReadout x s).rolls = s.rolls ∧ (beginReadout x s).recipes = s.recipes ∧
    (beginReadout x s).dark = s.dark ∧ (beginReadout x s).cache = s.cache ∧
    (beginReadout x s).card = s.card ∧ (beginReadout x s).free = s.free := by
  unfold beginReadout
  simp

@[simp] theorem waitForStack_keeps (s : State) :
    (waitForStack s).pending = s.pending ∧ (waitForStack s).held = s.held ∧ (waitForStack s).part = s.part ∧
    (waitForStack s).causes = s.causes ∧ (waitForStack s).timeBase = s.timeBase ∧
    (waitForStack s).wallOffset = s.wallOffset ∧ (waitForStack s).link = s.link ∧
    (waitForStack s).notices = s.notices ∧ (waitForStack s).sync = s.sync ∧ (waitForStack s).pool = s.pool ∧
    (waitForStack s).pau = s.pau ∧ (waitForStack s).mem = s.mem ∧ (waitForStack s).table = s.table ∧
    (waitForStack s).rolls = s.rolls ∧ (waitForStack s).recipes = s.recipes ∧
    (waitForStack s).dark = s.dark ∧ (waitForStack s).dev = s.dev ∧ (waitForStack s).cache = s.cache ∧
    (waitForStack s).card = s.card ∧ (waitForStack s).free = s.free := by
  unfold waitForStack
  simp

@[simp] theorem requestAccumulate_keeps (s : State) :
    (requestAccumulate s).pending = s.pending ∧ (requestAccumulate s).held = s.held ∧
    (requestAccumulate s).part = s.part ∧ (requestAccumulate s).causes = s.causes ∧
    (requestAccumulate s).timeBase = s.timeBase ∧ (requestAccumulate s).wallOffset = s.wallOffset ∧
    (requestAccumulate s).link = s.link ∧ (requestAccumulate s).notices = s.notices ∧
    (requestAccumulate s).sync = s.sync ∧ (requestAccumulate s).pool = s.pool ∧
    (requestAccumulate s).mem = s.mem ∧ (requestAccumulate s).table = s.table ∧
    (requestAccumulate s).rolls = s.rolls ∧ (requestAccumulate s).recipes = s.recipes ∧
    (requestAccumulate s).dark = s.dark ∧ (requestAccumulate s).dev = s.dev ∧
    (requestAccumulate s).cache = s.cache ∧ (requestAccumulate s).card = s.card ∧
    (requestAccumulate s).free = s.free := by
  unfold requestAccumulate
  simp

@[simp] theorem goodReadout_keeps (temperature : Int) (s : State) :
    (goodReadout temperature s).pending = s.pending ∧ (goodReadout temperature s).held = s.held ∧
    (goodReadout temperature s).part = s.part ∧ (goodReadout temperature s).causes = s.causes ∧
    (goodReadout temperature s).timeBase = s.timeBase ∧
    (goodReadout temperature s).wallOffset = s.wallOffset ∧ (goodReadout temperature s).link = s.link ∧
    (goodReadout temperature s).sync = s.sync ∧ (goodReadout temperature s).mem = s.mem ∧
    (goodReadout temperature s).rolls = s.rolls ∧ (goodReadout temperature s).recipes = s.recipes ∧
    (goodReadout temperature s).cache = s.cache ∧ (goodReadout temperature s).card = s.card ∧
    (goodReadout temperature s).free = s.free := by
  unfold goodReadout
  try dsimp only
  repeat' split
  all_goals simp

@[simp] theorem voidShot_keeps (s : State) :
    (voidShot s).pending = s.pending ∧ (voidShot s).held = s.held ∧ (voidShot s).part = s.part ∧
    (voidShot s).causes = s.causes ∧ (voidShot s).timeBase = s.timeBase ∧
    (voidShot s).wallOffset = s.wallOffset ∧ (voidShot s).link = s.link ∧ (voidShot s).sync = s.sync ∧
    (voidShot s).pau = s.pau ∧ (voidShot s).mem = s.mem ∧ (voidShot s).rolls = s.rolls ∧
    (voidShot s).recipes = s.recipes ∧ (voidShot s).dark = s.dark ∧ (voidShot s).dev = s.dev ∧
    (voidShot s).cache = s.cache ∧ (voidShot s).card = s.card ∧ (voidShot s).free = s.free := by
  unfold voidShot
  try dsimp only
  repeat' split
  all_goals simp

@[simp] theorem failedReadout_keeps (s : State) :
    (failedReadout s).pending = s.pending ∧ (failedReadout s).held = s.held ∧
    (failedReadout s).part = s.part ∧ (failedReadout s).causes = s.causes ∧
    (failedReadout s).timeBase = s.timeBase ∧ (failedReadout s).wallOffset = s.wallOffset ∧
    (failedReadout s).link = s.link ∧ (failedReadout s).sync = s.sync ∧ (failedReadout s).mem = s.mem ∧
    (failedReadout s).rolls = s.rolls ∧ (failedReadout s).recipes = s.recipes ∧
    (failedReadout s).cache = s.cache ∧ (failedReadout s).card = s.card ∧
    (failedReadout s).free = s.free := by
  unfold failedReadout
  try dsimp only
  repeat' split
  all_goals simp

@[simp] theorem failedDark_keeps (s : State) :
    (failedDark s).pending = s.pending ∧ (failedDark s).held = s.held ∧ (failedDark s).part = s.part ∧
    (failedDark s).causes = s.causes ∧ (failedDark s).timeBase = s.timeBase ∧
    (failedDark s).wallOffset = s.wallOffset ∧ (failedDark s).link = s.link ∧ (failedDark s).sync = s.sync ∧
    (failedDark s).mem = s.mem ∧ (failedDark s).rolls = s.rolls ∧ (failedDark s).recipes = s.recipes ∧
    (failedDark s).cache = s.cache ∧ (failedDark s).card = s.card ∧ (failedDark s).free = s.free := by
  unfold failedDark
  simp

@[simp] theorem lookupResident_keeps (tag : Nat) (r : Record) (s : State) :
    (lookupResident tag r s).pending = s.pending ∧ (lookupResident tag r s).held = s.held ∧
    (lookupResident tag r s).part = s.part ∧ (lookupResident tag r s).causes = s.causes ∧
    (lookupResident tag r s).timeBase = s.timeBase ∧ (lookupResident tag r s).wallOffset = s.wallOffset ∧
    (lookupResident tag r s).notices = s.notices ∧ (lookupResident tag r s).sync = s.sync ∧
    (lookupResident tag r s).seq = s.seq ∧ (lookupResident tag r s).pool = s.pool ∧
    (lookupResident tag r s).pau = s.pau ∧ (lookupResident tag r s).mem = s.mem ∧
    (lookupResident tag r s).rolls = s.rolls ∧ (lookupResident tag r s).recipes = s.recipes ∧
    (lookupResident tag r s).dark = s.dark ∧ (lookupResident tag r s).dev = s.dev ∧
    (lookupResident tag r s).cache = s.cache ∧ (lookupResident tag r s).card = s.card ∧
    (lookupResident tag r s).free = s.free := by
  unfold lookupResident
  simp

@[simp] theorem makeDirty_keeps (n : Nat) (s : State) :
    (makeDirty n s).pending = s.pending ∧ (makeDirty n s).held = s.held ∧ (makeDirty n s).part = s.part ∧
    (makeDirty n s).causes = s.causes ∧ (makeDirty n s).timeBase = s.timeBase ∧
    (makeDirty n s).wallOffset = s.wallOffset ∧ (makeDirty n s).link = s.link ∧
    (makeDirty n s).notices = s.notices ∧ (makeDirty n s).sync = s.sync ∧ (makeDirty n s).seq = s.seq ∧
    (makeDirty n s).pool = s.pool ∧ (makeDirty n s).pau = s.pau ∧ (makeDirty n s).mem = s.mem ∧
    (makeDirty n s).rolls = s.rolls ∧ (makeDirty n s).recipes = s.recipes ∧ (makeDirty n s).dark = s.dark ∧
    (makeDirty n s).dev = s.dev ∧ (makeDirty n s).cache = s.cache ∧ (makeDirty n s).card = s.card ∧
    (makeDirty n s).free = s.free := by
  unfold makeDirty
  simp

@[simp] theorem applyAmend_keeps (r : Record) (o : AmendOperands) (s : State) :
    (applyAmend r o s).pending = s.pending ∧ (applyAmend r o s).held = s.held ∧
    (applyAmend r o s).part = s.part ∧ (applyAmend r o s).causes = s.causes ∧
    (applyAmend r o s).timeBase = s.timeBase ∧ (applyAmend r o s).wallOffset = s.wallOffset ∧
    (applyAmend r o s).link = s.link ∧ (applyAmend r o s).notices = s.notices ∧
    (applyAmend r o s).sync = s.sync ∧ (applyAmend r o s).seq = s.seq ∧ (applyAmend r o s).mem = s.mem ∧
    (applyAmend r o s).rolls = s.rolls ∧ (applyAmend r o s).recipes = s.recipes ∧
    (applyAmend r o s).dev = s.dev ∧ (applyAmend r o s).cache = s.cache ∧ (applyAmend r o s).card = s.card ∧
    (applyAmend r o s).free = s.free := by
  unfold applyAmend
  try dsimp only
  repeat' split
  all_goals simp

@[simp] theorem amendResident_keeps (tag : Nat) (r : Record) (o : AmendOperands) (s : State) :
    (amendResident tag r o s).pending = s.pending ∧ (amendResident tag r o s).held = s.held ∧
    (amendResident tag r o s).part = s.part ∧ (amendResident tag r o s).causes = s.causes ∧
    (amendResident tag r o s).timeBase = s.timeBase ∧ (amendResident tag r o s).wallOffset = s.wallOffset ∧
    (amendResident tag r o s).notices = s.notices ∧ (amendResident tag r o s).sync = s.sync ∧
    (amendResident tag r o s).seq = s.seq ∧ (amendResident tag r o s).mem = s.mem ∧
    (amendResident tag r o s).rolls = s.rolls ∧ (amendResident tag r o s).recipes = s.recipes ∧
    (amendResident tag r o s).dev = s.dev ∧ (amendResident tag r o s).cache = s.cache ∧
    (amendResident tag r o s).card = s.card ∧ (amendResident tag r o s).free = s.free := by
  unfold amendResident
  try dsimp only
  repeat' split
  all_goals simp

@[simp] theorem stopDeveloped_keeps (n : Nat) (s : State) :
    (stopDeveloped n s).pending = s.pending ∧ (stopDeveloped n s).held = s.held ∧
    (stopDeveloped n s).part = s.part ∧ (stopDeveloped n s).causes = s.causes ∧
    (stopDeveloped n s).timeBase = s.timeBase ∧ (stopDeveloped n s).wallOffset = s.wallOffset ∧
    (stopDeveloped n s).link = s.link ∧ (stopDeveloped n s).notices = s.notices ∧
    (stopDeveloped n s).sync = s.sync ∧ (stopDeveloped n s).seq = s.seq ∧
    (stopDeveloped n s).pool = s.pool ∧ (stopDeveloped n s).pau = s.pau ∧ (stopDeveloped n s).mem = s.mem ∧
    (stopDeveloped n s).table = s.table ∧ (stopDeveloped n s).rolls = s.rolls ∧
    (stopDeveloped n s).recipes = s.recipes ∧ (stopDeveloped n s).dark = s.dark ∧
    (stopDeveloped n s).dev = s.dev ∧ (stopDeveloped n s).cache = s.cache ∧
    (stopDeveloped n s).free = s.free := by
  unfold stopDeveloped
  try dsimp only
  repeat' split
  all_goals simp

@[simp] theorem requestEnded_keeps (e : Nat) (s : State) :
    (requestEnded e s).pending = s.pending ∧ (requestEnded e s).held = s.held ∧
    (requestEnded e s).part = s.part ∧ (requestEnded e s).causes = s.causes ∧
    (requestEnded e s).timeBase = s.timeBase ∧ (requestEnded e s).wallOffset = s.wallOffset ∧
    (requestEnded e s).link = s.link ∧ (requestEnded e s).notices = s.notices ∧
    (requestEnded e s).sync = s.sync ∧ (requestEnded e s).seq = s.seq ∧ (requestEnded e s).mem = s.mem ∧
    (requestEnded e s).rolls = s.rolls ∧ (requestEnded e s).recipes = s.recipes ∧
    (requestEnded e s).dev = s.dev ∧ (requestEnded e s).cache = s.cache ∧ (requestEnded e s).card = s.card ∧
    (requestEnded e s).free = s.free := by
  unfold requestEnded
  try dsimp only
  repeat' split
  all_goals simp

@[simp] theorem leaveDarkUnit_keeps (n : Nat) (link : DarkLink) (s : State) :
    (leaveDarkUnit n link s).pending = s.pending ∧ (leaveDarkUnit n link s).held = s.held ∧
    (leaveDarkUnit n link s).part = s.part ∧ (leaveDarkUnit n link s).causes = s.causes ∧
    (leaveDarkUnit n link s).timeBase = s.timeBase ∧ (leaveDarkUnit n link s).wallOffset = s.wallOffset ∧
    (leaveDarkUnit n link s).link = s.link ∧ (leaveDarkUnit n link s).notices = s.notices ∧
    (leaveDarkUnit n link s).sync = s.sync ∧ (leaveDarkUnit n link s).seq = s.seq ∧
    (leaveDarkUnit n link s).rolls = s.rolls ∧ (leaveDarkUnit n link s).recipes = s.recipes ∧
    (leaveDarkUnit n link s).dev = s.dev ∧ (leaveDarkUnit n link s).cache = s.cache ∧
    (leaveDarkUnit n link s).card = s.card := by
  unfold leaveDarkUnit
  try dsimp only
  repeat' split
  all_goals simp

@[simp] theorem takeFromBlocks_keeps (r : Record) (s : State) :
    (takeFromBlocks r s).pending = s.pending ∧ (takeFromBlocks r s).held = s.held ∧
    (takeFromBlocks r s).part = s.part ∧ (takeFromBlocks r s).causes = s.causes ∧
    (takeFromBlocks r s).timeBase = s.timeBase ∧ (takeFromBlocks r s).wallOffset = s.wallOffset ∧
    (takeFromBlocks r s).notices = s.notices ∧ (takeFromBlocks r s).sync = s.sync ∧
    (takeFromBlocks r s).seq = s.seq ∧ (takeFromBlocks r s).rolls = s.rolls ∧
    (takeFromBlocks r s).recipes = s.recipes := by
  unfold takeFromBlocks
  simp

@[simp] theorem joinEntries_keeps (e : EntryWork) (s : State) :
    (joinEntries e s).pending = s.pending ∧ (joinEntries e s).held = s.held ∧
    (joinEntries e s).part = s.part ∧ (joinEntries e s).causes = s.causes ∧
    (joinEntries e s).timeBase = s.timeBase ∧ (joinEntries e s).wallOffset = s.wallOffset ∧
    (joinEntries e s).link = s.link ∧ (joinEntries e s).notices = s.notices ∧
    (joinEntries e s).sync = s.sync ∧ (joinEntries e s).seq = s.seq ∧ (joinEntries e s).pool = s.pool ∧
    (joinEntries e s).pau = s.pau ∧ (joinEntries e s).mem = s.mem ∧ (joinEntries e s).table = s.table ∧
    (joinEntries e s).rolls = s.rolls ∧ (joinEntries e s).recipes = s.recipes ∧
    (joinEntries e s).dark = s.dark ∧ (joinEntries e s).dev = s.dev ∧ (joinEntries e s).cache = s.cache ∧
    (joinEntries e s).free = s.free := by
  unfold joinEntries
  simp

@[simp] theorem endRetirement_keeps (result : ResultCode) (s : State) (n : Nat) :
    (endRetirement result s n).pending = s.pending ∧ (endRetirement result s n).held = s.held ∧
    (endRetirement result s n).part = s.part ∧ (endRetirement result s n).causes = s.causes ∧
    (endRetirement result s n).timeBase = s.timeBase ∧
    (endRetirement result s n).wallOffset = s.wallOffset ∧ (endRetirement result s n).notices = s.notices ∧
    (endRetirement result s n).sync = s.sync ∧ (endRetirement result s n).seq = s.seq ∧
    (endRetirement result s n).pool = s.pool ∧ (endRetirement result s n).pau = s.pau ∧
    (endRetirement result s n).mem = s.mem ∧ (endRetirement result s n).rolls = s.rolls ∧
    (endRetirement result s n).recipes = s.recipes ∧ (endRetirement result s n).dark = s.dark ∧
    (endRetirement result s n).dev = s.dev ∧ (endRetirement result s n).cache = s.cache ∧
    (endRetirement result s n).card = s.card ∧ (endRetirement result s n).free = s.free := by
  unfold endRetirement
  simp

@[simp] theorem continueRetirement_keeps (r : Record) (s : State) :
    (continueRetirement r s).pending = s.pending ∧ (continueRetirement r s).held = s.held ∧
    (continueRetirement r s).part = s.part ∧ (continueRetirement r s).causes = s.causes ∧
    (continueRetirement r s).timeBase = s.timeBase ∧ (continueRetirement r s).wallOffset = s.wallOffset ∧
    (continueRetirement r s).notices = s.notices ∧ (continueRetirement r s).sync = s.sync ∧
    (continueRetirement r s).seq = s.seq ∧ (continueRetirement r s).pool = s.pool ∧
    (continueRetirement r s).pau = s.pau ∧ (continueRetirement r s).mem = s.mem ∧
    (continueRetirement r s).rolls = s.rolls ∧ (continueRetirement r s).recipes = s.recipes ∧
    (continueRetirement r s).dark = s.dark ∧ (continueRetirement r s).dev = s.dev ∧
    (continueRetirement r s).cache = s.cache ∧ (continueRetirement r s).free = s.free := by
  unfold continueRetirement
  try dsimp only
  repeat' split
  all_goals simp

@[simp] theorem acceptRetire_keeps (tag : Nat) (r : Record) (s : State) :
    (acceptRetire tag r s).pending = s.pending ∧ (acceptRetire tag r s).held = s.held ∧
    (acceptRetire tag r s).part = s.part ∧ (acceptRetire tag r s).causes = s.causes ∧
    (acceptRetire tag r s).timeBase = s.timeBase ∧ (acceptRetire tag r s).wallOffset = s.wallOffset ∧
    (acceptRetire tag r s).notices = s.notices ∧ (acceptRetire tag r s).sync = s.sync ∧
    (acceptRetire tag r s).seq = s.seq ∧ (acceptRetire tag r s).rolls = s.rolls ∧
    (acceptRetire tag r s).recipes = s.recipes := by
  unfold acceptRetire
  simp

@[simp] theorem retireResident_keeps (tag : Nat) (r : Record) (s : State) :
    (retireResident tag r s).pending = s.pending ∧ (retireResident tag r s).held = s.held ∧
    (retireResident tag r s).part = s.part ∧ (retireResident tag r s).causes = s.causes ∧
    (retireResident tag r s).timeBase = s.timeBase ∧ (retireResident tag r s).wallOffset = s.wallOffset ∧
    (retireResident tag r s).notices = s.notices ∧ (retireResident tag r s).sync = s.sync ∧
    (retireResident tag r s).seq = s.seq ∧ (retireResident tag r s).rolls = s.rolls ∧
    (retireResident tag r s).recipes = s.recipes := by
  unfold retireResident
  try dsimp only
  repeat' split
  all_goals simp

@[simp] theorem onResident_keeps (tag : Nat) (q : LoadRequest) (r : Record) (s : State) :
    (onResident tag q r s).pending = s.pending ∧ (onResident tag q r s).held = s.held ∧
    (onResident tag q r s).part = s.part ∧ (onResident tag q r s).causes = s.causes ∧
    (onResident tag q r s).timeBase = s.timeBase ∧ (onResident tag q r s).wallOffset = s.wallOffset ∧
    (onResident tag q r s).notices = s.notices ∧ (onResident tag q r s).sync = s.sync ∧
    (onResident tag q r s).seq = s.seq ∧ (onResident tag q r s).rolls = s.rolls ∧
    (onResident tag q r s).recipes = s.recipes := by
  unfold onResident
  try dsimp only
  repeat' split
  all_goals simp

@[simp] theorem joinLoad_keeps (n : Nat) (w : LoadWaiter) (s : State) :
    (joinLoad n w s).pending = s.pending ∧ (joinLoad n w s).held = s.held ∧ (joinLoad n w s).part = s.part ∧
    (joinLoad n w s).causes = s.causes ∧ (joinLoad n w s).timeBase = s.timeBase ∧
    (joinLoad n w s).wallOffset = s.wallOffset ∧ (joinLoad n w s).link = s.link ∧
    (joinLoad n w s).notices = s.notices ∧ (joinLoad n w s).sync = s.sync ∧ (joinLoad n w s).seq = s.seq ∧
    (joinLoad n w s).pool = s.pool ∧ (joinLoad n w s).pau = s.pau ∧ (joinLoad n w s).mem = s.mem ∧
    (joinLoad n w s).rolls = s.rolls ∧ (joinLoad n w s).recipes = s.recipes ∧
    (joinLoad n w s).dark = s.dark ∧ (joinLoad n w s).dev = s.dev ∧ (joinLoad n w s).cache = s.cache ∧
    (joinLoad n w s).card = s.card ∧ (joinLoad n w s).free = s.free := by
  unfold joinLoad
  simp

@[simp] theorem startLoad_keeps (i n slot : Nat) (w : LoadWaiter) (s : State) :
    (startLoad i n slot w s).pending = s.pending ∧ (startLoad i n slot w s).held = s.held ∧
    (startLoad i n slot w s).part = s.part ∧ (startLoad i n slot w s).causes = s.causes ∧
    (startLoad i n slot w s).timeBase = s.timeBase ∧ (startLoad i n slot w s).wallOffset = s.wallOffset ∧
    (startLoad i n slot w s).link = s.link ∧ (startLoad i n slot w s).notices = s.notices ∧
    (startLoad i n slot w s).sync = s.sync ∧ (startLoad i n slot w s).seq = s.seq ∧
    (startLoad i n slot w s).pool = s.pool ∧ (startLoad i n slot w s).pau = s.pau ∧
    (startLoad i n slot w s).mem = s.mem ∧ (startLoad i n slot w s).rolls = s.rolls ∧
    (startLoad i n slot w s).recipes = s.recipes ∧ (startLoad i n slot w s).dark = s.dark ∧
    (startLoad i n slot w s).dev = s.dev ∧ (startLoad i n slot w s).free = s.free := by
  unfold startLoad
  simp

@[simp] theorem requestLoad_keeps (tag n : Nat) (q : LoadRequest) (s : State) :
    (requestLoad tag n q s).pending = s.pending ∧ (requestLoad tag n q s).held = s.held ∧
    (requestLoad tag n q s).part = s.part ∧ (requestLoad tag n q s).causes = s.causes ∧
    (requestLoad tag n q s).timeBase = s.timeBase ∧ (requestLoad tag n q s).wallOffset = s.wallOffset ∧
    (requestLoad tag n q s).notices = s.notices ∧ (requestLoad tag n q s).sync = s.sync ∧
    (requestLoad tag n q s).seq = s.seq ∧ (requestLoad tag n q s).pool = s.pool ∧
    (requestLoad tag n q s).pau = s.pau ∧ (requestLoad tag n q s).mem = s.mem ∧
    (requestLoad tag n q s).rolls = s.rolls ∧ (requestLoad tag n q s).recipes = s.recipes ∧
    (requestLoad tag n q s).dark = s.dark ∧ (requestLoad tag n q s).dev = s.dev ∧
    (requestLoad tag n q s).free = s.free := by
  unfold requestLoad
  try dsimp only
  repeat' split
  all_goals simp

@[simp] theorem onShot_keeps (tag n : Nat) (q : LoadRequest) (s : State) :
    (onShot tag n q s).pending = s.pending ∧ (onShot tag n q s).held = s.held ∧
    (onShot tag n q s).part = s.part ∧ (onShot tag n q s).causes = s.causes ∧
    (onShot tag n q s).timeBase = s.timeBase ∧ (onShot tag n q s).wallOffset = s.wallOffset ∧
    (onShot tag n q s).notices = s.notices ∧ (onShot tag n q s).sync = s.sync ∧
    (onShot tag n q s).seq = s.seq ∧ (onShot tag n q s).rolls = s.rolls ∧
    (onShot tag n q s).recipes = s.recipes := by
  unfold onShot
  try dsimp only
  repeat' split
  all_goals simp

@[simp] theorem proceed_keeps (n : Nat) (s : State) (w : LoadWaiter) :
    (proceed n s w).pending = s.pending ∧ (proceed n s w).held = s.held ∧ (proceed n s w).part = s.part ∧
    (proceed n s w).causes = s.causes ∧ (proceed n s w).timeBase = s.timeBase ∧
    (proceed n s w).wallOffset = s.wallOffset ∧ (proceed n s w).notices = s.notices ∧
    (proceed n s w).sync = s.sync ∧ (proceed n s w).seq = s.seq ∧ (proceed n s w).rolls = s.rolls ∧
    (proceed n s w).recipes = s.recipes := by
  unfold proceed
  try dsimp only
  repeat' split
  all_goals simp

@[simp] theorem completeLoad_keeps (n slot : Nat) (block : List Byte) (s : State) :
    (completeLoad n slot block s).pending = s.pending ∧ (completeLoad n slot block s).held = s.held ∧
    (completeLoad n slot block s).part = s.part ∧ (completeLoad n slot block s).causes = s.causes ∧
    (completeLoad n slot block s).timeBase = s.timeBase ∧
    (completeLoad n slot block s).wallOffset = s.wallOffset ∧
    (completeLoad n slot block s).notices = s.notices ∧ (completeLoad n slot block s).sync = s.sync ∧
    (completeLoad n slot block s).seq = s.seq ∧ (completeLoad n slot block s).rolls = s.rolls ∧
    (completeLoad n slot block s).recipes = s.recipes := by
  unfold completeLoad
  try dsimp only
  repeat' split
  all_goals simp

@[simp] theorem damageLoad_keeps (n slot : Nat) (s : State) :
    (damageLoad n slot s).pending = s.pending ∧ (damageLoad n slot s).held = s.held ∧
    (damageLoad n slot s).part = s.part ∧ (damageLoad n slot s).causes = s.causes ∧
    (damageLoad n slot s).timeBase = s.timeBase ∧ (damageLoad n slot s).wallOffset = s.wallOffset ∧
    (damageLoad n slot s).notices = s.notices ∧ (damageLoad n slot s).sync = s.sync ∧
    (damageLoad n slot s).seq = s.seq ∧ (damageLoad n slot s).pool = s.pool ∧
    (damageLoad n slot s).pau = s.pau ∧ (damageLoad n slot s).mem = s.mem ∧
    (damageLoad n slot s).rolls = s.rolls ∧ (damageLoad n slot s).recipes = s.recipes ∧
    (damageLoad n slot s).dark = s.dark ∧ (damageLoad n slot s).dev = s.dev ∧
    (damageLoad n slot s).cache = s.cache ∧ (damageLoad n slot s).free = s.free := by
  unfold damageLoad
  simp

@[simp] theorem loadDone_keeps (n slot : Nat) (block : List Byte) (s : State) :
    (loadDone n slot block s).pending = s.pending ∧ (loadDone n slot block s).held = s.held ∧
    (loadDone n slot block s).part = s.part ∧ (loadDone n slot block s).causes = s.causes ∧
    (loadDone n slot block s).timeBase = s.timeBase ∧ (loadDone n slot block s).wallOffset = s.wallOffset ∧
    (loadDone n slot block s).notices = s.notices ∧ (loadDone n slot block s).sync = s.sync ∧
    (loadDone n slot block s).seq = s.seq ∧ (loadDone n slot block s).rolls = s.rolls ∧
    (loadDone n slot block s).recipes = s.recipes := by
  unfold loadDone
  try dsimp only
  repeat' split
  all_goals simp

@[simp] theorem renumberTo_keeps (old new : Nat) (s : State) :
    (renumberTo old new s).pending = s.pending ∧ (renumberTo old new s).held = s.held ∧
    (renumberTo old new s).part = s.part ∧ (renumberTo old new s).causes = s.causes ∧
    (renumberTo old new s).timeBase = s.timeBase ∧ (renumberTo old new s).wallOffset = s.wallOffset ∧
    (renumberTo old new s).link = s.link ∧ (renumberTo old new s).notices = s.notices ∧
    (renumberTo old new s).sync = s.sync ∧ (renumberTo old new s).mem = s.mem ∧
    (renumberTo old new s).rolls = s.rolls ∧ (renumberTo old new s).recipes = s.recipes ∧
    (renumberTo old new s).dark = s.dark ∧ (renumberTo old new s).free = s.free := by
  unfold renumberTo
  simp

@[simp] theorem renumberShot_keeps (s : State) (old : Nat) :
    (renumberShot s old).pending = s.pending ∧ (renumberShot s old).held = s.held ∧
    (renumberShot s old).part = s.part ∧ (renumberShot s old).causes = s.causes ∧
    (renumberShot s old).timeBase = s.timeBase ∧ (renumberShot s old).wallOffset = s.wallOffset ∧
    (renumberShot s old).link = s.link ∧ (renumberShot s old).sync = s.sync ∧
    (renumberShot s old).mem = s.mem ∧ (renumberShot s old).rolls = s.rolls ∧
    (renumberShot s old).recipes = s.recipes ∧ (renumberShot s old).dark = s.dark ∧
    (renumberShot s old).free = s.free := by
  unfold renumberShot
  try dsimp only
  repeat' split
  all_goals simp

@[simp] theorem renumberAll_keeps (next : Nat) (s : State) :
    (renumberAll next s).pending = s.pending ∧ (renumberAll next s).held = s.held ∧
    (renumberAll next s).part = s.part ∧ (renumberAll next s).causes = s.causes ∧
    (renumberAll next s).timeBase = s.timeBase ∧ (renumberAll next s).wallOffset = s.wallOffset ∧
    (renumberAll next s).link = s.link ∧ (renumberAll next s).sync = s.sync ∧
    (renumberAll next s).mem = s.mem ∧ (renumberAll next s).rolls = s.rolls ∧
    (renumberAll next s).recipes = s.recipes ∧ (renumberAll next s).dark = s.dark ∧
    (renumberAll next s).free = s.free := by
  unfold renumberAll
  simp

@[simp] theorem beginMount_keeps (s : State) :
    (beginMount s).pending = s.pending ∧ (beginMount s).held = s.held ∧ (beginMount s).part = s.part ∧
    (beginMount s).causes = s.causes ∧ (beginMount s).timeBase = s.timeBase ∧
    (beginMount s).wallOffset = s.wallOffset ∧ (beginMount s).link = s.link ∧
    (beginMount s).notices = s.notices ∧ (beginMount s).sync = s.sync ∧ (beginMount s).seq = s.seq ∧
    (beginMount s).pool = s.pool ∧ (beginMount s).pau = s.pau ∧ (beginMount s).mem = s.mem ∧
    (beginMount s).table = s.table ∧ (beginMount s).rolls = s.rolls ∧ (beginMount s).recipes = s.recipes ∧
    (beginMount s).dark = s.dark ∧ (beginMount s).dev = s.dev ∧ (beginMount s).cache = s.cache ∧
    (beginMount s).free = s.free := by
  unfold beginMount
  simp

@[simp] theorem answerFormat_keeps (result : ResultCode) (s : State) :
    (answerFormat result s).pending = s.pending ∧ (answerFormat result s).held = s.held ∧
    (answerFormat result s).part = s.part ∧ (answerFormat result s).causes = s.causes ∧
    (answerFormat result s).timeBase = s.timeBase ∧ (answerFormat result s).wallOffset = s.wallOffset ∧
    (answerFormat result s).notices = s.notices ∧ (answerFormat result s).sync = s.sync ∧
    (answerFormat result s).seq = s.seq ∧ (answerFormat result s).pool = s.pool ∧
    (answerFormat result s).pau = s.pau ∧ (answerFormat result s).mem = s.mem ∧
    (answerFormat result s).table = s.table ∧ (answerFormat result s).rolls = s.rolls ∧
    (answerFormat result s).recipes = s.recipes ∧ (answerFormat result s).dark = s.dark ∧
    (answerFormat result s).dev = s.dev ∧ (answerFormat result s).cache = s.cache ∧
    (answerFormat result s).free = s.free := by
  unfold answerFormat
  simp

@[simp] theorem unformatted_keeps (s : State) :
    (unformatted s).pending = s.pending ∧ (unformatted s).held = s.held ∧ (unformatted s).part = s.part ∧
    (unformatted s).causes = s.causes ∧ (unformatted s).timeBase = s.timeBase ∧
    (unformatted s).wallOffset = s.wallOffset ∧ (unformatted s).notices = s.notices ∧
    (unformatted s).sync = s.sync ∧ (unformatted s).seq = s.seq ∧ (unformatted s).pool = s.pool ∧
    (unformatted s).pau = s.pau ∧ (unformatted s).mem = s.mem ∧ (unformatted s).table = s.table ∧
    (unformatted s).rolls = s.rolls ∧ (unformatted s).recipes = s.recipes ∧ (unformatted s).dark = s.dark ∧
    (unformatted s).dev = s.dev ∧ (unformatted s).cache = s.cache ∧ (unformatted s).free = s.free := by
  unfold unformatted
  simp

@[simp] theorem finishMount_keeps (blocks : List (Nat × List Byte)) (s : State) :
    (finishMount blocks s).pending = s.pending ∧ (finishMount blocks s).held = s.held ∧
    (finishMount blocks s).part = s.part ∧ (finishMount blocks s).causes = s.causes ∧
    (finishMount blocks s).timeBase = s.timeBase ∧ (finishMount blocks s).wallOffset = s.wallOffset ∧
    (finishMount blocks s).sync = s.sync ∧ (finishMount blocks s).mem = s.mem ∧
    (finishMount blocks s).rolls = s.rolls ∧ (finishMount blocks s).recipes = s.recipes ∧
    (finishMount blocks s).dark = s.dark ∧ (finishMount blocks s).free = s.free := by
  unfold finishMount
  try dsimp only
  repeat' split
  all_goals simp

end Sys2Proof.Machine
end

