-- ==== Sys2Proof/Laws/Commands.lean ====
section
/-! SUPPORT. The fields each operation that a command is made of leaves as they were. -/

namespace Sys2Proof.Machine

@[simp] theorem endRetirements_keeps (s : State) :
    (endRetirements s).pending = s.pending ∧ (endRetirements s).held = s.held ∧
    (endRetirements s).part = s.part ∧ (endRetirements s).causes = s.causes ∧
    (endRetirements s).timeBase = s.timeBase ∧ (endRetirements s).wallOffset = s.wallOffset ∧
    (endRetirements s).notices = s.notices ∧ (endRetirements s).sync = s.sync ∧
    (endRetirements s).seq = s.seq ∧ (endRetirements s).pool = s.pool ∧ (endRetirements s).pau = s.pau ∧
    (endRetirements s).mem = s.mem ∧ (endRetirements s).rolls = s.rolls ∧
    (endRetirements s).recipes = s.recipes ∧ (endRetirements s).dark = s.dark ∧
    (endRetirements s).dev = s.dev ∧ (endRetirements s).cache = s.cache ∧ (endRetirements s).card = s.card ∧
    (endRetirements s).free = s.free := by
  unfold endRetirements
  simp

@[simp] theorem startFormat_keeps (volumeId : Nat) (s : State) :
    (startFormat volumeId s).pending = s.pending ∧ (startFormat volumeId s).held = s.held ∧
    (startFormat volumeId s).part = s.part ∧ (startFormat volumeId s).causes = s.causes ∧
    (startFormat volumeId s).timeBase = s.timeBase ∧ (startFormat volumeId s).wallOffset = s.wallOffset ∧
    (startFormat volumeId s).notices = s.notices ∧ (startFormat volumeId s).sync = s.sync ∧
    (startFormat volumeId s).seq = s.seq ∧ (startFormat volumeId s).pool = s.pool ∧
    (startFormat volumeId s).pau = s.pau ∧ (startFormat volumeId s).mem = s.mem ∧
    (startFormat volumeId s).table = s.table ∧ (startFormat volumeId s).rolls = s.rolls ∧
    (startFormat volumeId s).recipes = s.recipes ∧ (startFormat volumeId s).dark = s.dark ∧
    (startFormat volumeId s).dev = s.dev ∧ (startFormat volumeId s).cache = s.cache ∧
    (startFormat volumeId s).free = s.free := by
  unfold startFormat
  try dsimp only
  repeat' split
  all_goals simp

@[simp] theorem failWaitingLoads_keeps (result : ResultCode) (s : State) :
    (failWaitingLoads result s).pending = s.pending ∧ (failWaitingLoads result s).held = s.held ∧
    (failWaitingLoads result s).part = s.part ∧ (failWaitingLoads result s).causes = s.causes ∧
    (failWaitingLoads result s).timeBase = s.timeBase ∧
    (failWaitingLoads result s).wallOffset = s.wallOffset ∧ (failWaitingLoads result s).notices = s.notices ∧
    (failWaitingLoads result s).sync = s.sync ∧ (failWaitingLoads result s).seq = s.seq ∧
    (failWaitingLoads result s).pau = s.pau ∧ (failWaitingLoads result s).mem = s.mem ∧
    (failWaitingLoads result s).rolls = s.rolls ∧ (failWaitingLoads result s).recipes = s.recipes ∧
    (failWaitingLoads result s).dark = s.dark ∧ (failWaitingLoads result s).free = s.free := by
  unfold failWaitingLoads
  simp

@[simp] theorem clearForFormat_keeps (s : State) :
    (clearForFormat s).pending = s.pending ∧ (clearForFormat s).held = s.held ∧
    (clearForFormat s).part = s.part ∧ (clearForFormat s).causes = s.causes ∧
    (clearForFormat s).timeBase = s.timeBase ∧ (clearForFormat s).wallOffset = s.wallOffset ∧
    (clearForFormat s).notices = s.notices ∧ (clearForFormat s).sync = s.sync ∧
    (clearForFormat s).seq = s.seq ∧ (clearForFormat s).pau = s.pau ∧ (clearForFormat s).mem = s.mem ∧
    (clearForFormat s).rolls = s.rolls ∧ (clearForFormat s).recipes = s.recipes ∧
    (clearForFormat s).dark = s.dark ∧ (clearForFormat s).free = s.free := by
  unfold clearForFormat
  simp

@[simp] theorem endForFormat_keeps (volumeId : Nat) (s : State) :
    (endForFormat volumeId s).pending = s.pending ∧ (endForFormat volumeId s).held = s.held ∧
    (endForFormat volumeId s).part = s.part ∧ (endForFormat volumeId s).causes = s.causes ∧
    (endForFormat volumeId s).timeBase = s.timeBase ∧ (endForFormat volumeId s).wallOffset = s.wallOffset ∧
    (endForFormat volumeId s).notices = s.notices ∧ (endForFormat volumeId s).sync = s.sync ∧
    (endForFormat volumeId s).seq = s.seq ∧ (endForFormat volumeId s).pau = s.pau ∧
    (endForFormat volumeId s).mem = s.mem ∧ (endForFormat volumeId s).rolls = s.rolls ∧
    (endForFormat volumeId s).recipes = s.recipes ∧ (endForFormat volumeId s).dark = s.dark ∧
    (endForFormat volumeId s).free = s.free := by
  unfold endForFormat
  simp

@[simp] theorem awaitBus_keeps (volumeId : Nat) (s : State) :
    (awaitBus volumeId s).pending = s.pending ∧ (awaitBus volumeId s).held = s.held ∧
    (awaitBus volumeId s).part = s.part ∧ (awaitBus volumeId s).causes = s.causes ∧
    (awaitBus volumeId s).timeBase = s.timeBase ∧ (awaitBus volumeId s).wallOffset = s.wallOffset ∧
    (awaitBus volumeId s).notices = s.notices ∧ (awaitBus volumeId s).sync = s.sync ∧
    (awaitBus volumeId s).seq = s.seq ∧ (awaitBus volumeId s).pau = s.pau ∧
    (awaitBus volumeId s).mem = s.mem ∧ (awaitBus volumeId s).rolls = s.rolls ∧
    (awaitBus volumeId s).recipes = s.recipes ∧ (awaitBus volumeId s).dark = s.dark ∧
    (awaitBus volumeId s).free = s.free := by
  unfold awaitBus
  try dsimp only
  repeat' split
  all_goals simp

@[simp] theorem beginFormat_keeps (tag : Nat) (s : State) :
    (beginFormat tag s).pending = s.pending ∧ (beginFormat tag s).held = s.held ∧
    (beginFormat tag s).part = s.part ∧ (beginFormat tag s).causes = s.causes ∧
    (beginFormat tag s).timeBase = s.timeBase ∧ (beginFormat tag s).wallOffset = s.wallOffset ∧
    (beginFormat tag s).notices = s.notices ∧ (beginFormat tag s).sync = s.sync ∧
    (beginFormat tag s).seq = s.seq ∧ (beginFormat tag s).pau = s.pau ∧ (beginFormat tag s).mem = s.mem ∧
    (beginFormat tag s).rolls = s.rolls ∧ (beginFormat tag s).recipes = s.recipes ∧
    (beginFormat tag s).dark = s.dark ∧ (beginFormat tag s).free = s.free := by
  unfold beginFormat
  try dsimp only
  repeat' split
  all_goals simp

@[simp] theorem endRetiredRaw_keeps (n : Nat) (s : State) :
    (endRetiredRaw n s).pending = s.pending ∧ (endRetiredRaw n s).held = s.held ∧
    (endRetiredRaw n s).part = s.part ∧ (endRetiredRaw n s).causes = s.causes ∧
    (endRetiredRaw n s).timeBase = s.timeBase ∧ (endRetiredRaw n s).wallOffset = s.wallOffset ∧
    (endRetiredRaw n s).notices = s.notices ∧ (endRetiredRaw n s).sync = s.sync ∧
    (endRetiredRaw n s).seq = s.seq ∧ (endRetiredRaw n s).pool = s.pool ∧ (endRetiredRaw n s).pau = s.pau ∧
    (endRetiredRaw n s).mem = s.mem ∧ (endRetiredRaw n s).rolls = s.rolls ∧
    (endRetiredRaw n s).recipes = s.recipes ∧ (endRetiredRaw n s).dark = s.dark ∧
    (endRetiredRaw n s).dev = s.dev ∧ (endRetiredRaw n s).cache = s.cache ∧
    (endRetiredRaw n s).free = s.free := by
  unfold endRetiredRaw
  simp

@[simp] theorem endStoppedDeveloped_keeps (n : Nat) (runs : List Run) (s : State) :
    (endStoppedDeveloped n runs s).pending = s.pending ∧ (endStoppedDeveloped n runs s).held = s.held ∧
    (endStoppedDeveloped n runs s).part = s.part ∧ (endStoppedDeveloped n runs s).causes = s.causes ∧
    (endStoppedDeveloped n runs s).timeBase = s.timeBase ∧
    (endStoppedDeveloped n runs s).wallOffset = s.wallOffset ∧
    (endStoppedDeveloped n runs s).link = s.link ∧ (endStoppedDeveloped n runs s).notices = s.notices ∧
    (endStoppedDeveloped n runs s).sync = s.sync ∧ (endStoppedDeveloped n runs s).seq = s.seq ∧
    (endStoppedDeveloped n runs s).pool = s.pool ∧ (endStoppedDeveloped n runs s).pau = s.pau ∧
    (endStoppedDeveloped n runs s).mem = s.mem ∧ (endStoppedDeveloped n runs s).rolls = s.rolls ∧
    (endStoppedDeveloped n runs s).recipes = s.recipes ∧ (endStoppedDeveloped n runs s).dark = s.dark ∧
    (endStoppedDeveloped n runs s).dev = s.dev ∧ (endStoppedDeveloped n runs s).cache = s.cache ∧
    (endStoppedDeveloped n runs s).free = s.free := by
  unfold endStoppedDeveloped
  simp

@[simp] theorem failRaws_keeps (s : State) :
    (failRaws s).pending = s.pending ∧ (failRaws s).held = s.held ∧ (failRaws s).part = s.part ∧
    (failRaws s).causes = s.causes ∧ (failRaws s).timeBase = s.timeBase ∧
    (failRaws s).wallOffset = s.wallOffset ∧ (failRaws s).link = s.link ∧ (failRaws s).notices = s.notices ∧
    (failRaws s).sync = s.sync ∧ (failRaws s).seq = s.seq ∧ (failRaws s).pool = s.pool ∧
    (failRaws s).pau = s.pau ∧ (failRaws s).mem = s.mem ∧ (failRaws s).rolls = s.rolls ∧
    (failRaws s).recipes = s.recipes ∧ (failRaws s).dark = s.dark ∧ (failRaws s).dev = s.dev ∧
    (failRaws s).cache = s.cache ∧ (failRaws s).free = s.free := by
  unfold failRaws
  try dsimp only
  repeat' split
  all_goals simp

@[simp] theorem failDeveloped_keeps (s : State) :
    (failDeveloped s).pending = s.pending ∧ (failDeveloped s).held = s.held ∧
    (failDeveloped s).part = s.part ∧ (failDeveloped s).causes = s.causes ∧
    (failDeveloped s).timeBase = s.timeBase ∧ (failDeveloped s).wallOffset = s.wallOffset ∧
    (failDeveloped s).link = s.link ∧ (failDeveloped s).notices = s.notices ∧
    (failDeveloped s).sync = s.sync ∧ (failDeveloped s).seq = s.seq ∧ (failDeveloped s).pool = s.pool ∧
    (failDeveloped s).pau = s.pau ∧ (failDeveloped s).mem = s.mem ∧ (failDeveloped s).rolls = s.rolls ∧
    (failDeveloped s).recipes = s.recipes ∧ (failDeveloped s).dark = s.dark ∧
    (failDeveloped s).dev = s.dev ∧ (failDeveloped s).cache = s.cache ∧
    (failDeveloped s).free = s.free := by
  unfold failDeveloped
  try dsimp only
  repeat' split
  all_goals simp

@[simp] theorem untake_keeps (s : State) :
    (untake s).pending = s.pending ∧ (untake s).held = s.held ∧ (untake s).part = s.part ∧
    (untake s).causes = s.causes ∧ (untake s).timeBase = s.timeBase ∧ (untake s).wallOffset = s.wallOffset ∧
    (untake s).link = s.link ∧ (untake s).notices = s.notices ∧ (untake s).sync = s.sync ∧
    (untake s).seq = s.seq ∧ (untake s).pool = s.pool ∧ (untake s).pau = s.pau ∧ (untake s).mem = s.mem ∧
    (untake s).rolls = s.rolls ∧ (untake s).recipes = s.recipes ∧ (untake s).dark = s.dark ∧
    (untake s).dev = s.dev ∧ (untake s).cache = s.cache ∧ (untake s).card = s.card ∧
    (untake s).free = s.free := by
  unfold untake
  simp

@[simp] theorem cardFault_keeps (s : State) :
    (cardFault s).pending = s.pending ∧ (cardFault s).held = s.held ∧ (cardFault s).part = s.part ∧
    (cardFault s).causes = s.causes ∧ (cardFault s).timeBase = s.timeBase ∧
    (cardFault s).wallOffset = s.wallOffset ∧ (cardFault s).sync = s.sync ∧ (cardFault s).seq = s.seq ∧
    (cardFault s).pau = s.pau ∧ (cardFault s).mem = s.mem ∧ (cardFault s).rolls = s.rolls ∧
    (cardFault s).recipes = s.recipes ∧ (cardFault s).dark = s.dark ∧ (cardFault s).free = s.free := by
  unfold cardFault
  simp

@[simp] theorem reissue_keeps (b : Bus) (s : State) :
    (reissue b s).pending = s.pending ∧ (reissue b s).held = s.held ∧ (reissue b s).part = s.part ∧
    (reissue b s).causes = s.causes ∧ (reissue b s).timeBase = s.timeBase ∧
    (reissue b s).wallOffset = s.wallOffset ∧ (reissue b s).link = s.link ∧
    (reissue b s).notices = s.notices ∧ (reissue b s).sync = s.sync ∧ (reissue b s).seq = s.seq ∧
    (reissue b s).pool = s.pool ∧ (reissue b s).pau = s.pau ∧ (reissue b s).mem = s.mem ∧
    (reissue b s).table = s.table ∧ (reissue b s).rolls = s.rolls ∧ (reissue b s).recipes = s.recipes ∧
    (reissue b s).dark = s.dark ∧ (reissue b s).dev = s.dev ∧ (reissue b s).cache = s.cache ∧
    (reissue b s).free = s.free := by
  unfold reissue
  simp

@[simp] theorem orphanAnswered_keeps (s : State) :
    (orphanAnswered s).pending = s.pending ∧ (orphanAnswered s).held = s.held ∧
    (orphanAnswered s).causes = s.causes ∧ (orphanAnswered s).timeBase = s.timeBase ∧
    (orphanAnswered s).wallOffset = s.wallOffset ∧ (orphanAnswered s).sync = s.sync ∧
    (orphanAnswered s).mem = s.mem ∧ (orphanAnswered s).rolls = s.rolls ∧
    (orphanAnswered s).recipes = s.recipes ∧ (orphanAnswered s).free = s.free := by
  unfold orphanAnswered
  try dsimp only
  repeat' split
  all_goals simp

theorem stopAtAnswer_keeps {s t : State} (h : stopAtAnswer s = some t) :
    t.pending = s.pending ∧ t.held = s.held ∧ t.part = s.part ∧ t.causes = s.causes ∧
    t.timeBase = s.timeBase ∧ t.wallOffset = s.wallOffset ∧ t.notices = s.notices ∧ t.sync = s.sync ∧
    t.seq = s.seq ∧ t.pau = s.pau ∧ t.mem = s.mem ∧ t.rolls = s.rolls ∧
    t.recipes = s.recipes ∧ t.dark = s.dark ∧ t.free = s.free := by
  unfold stopAtAnswer at h
  split at h
  · cases h; simp
  · split at h
    · cases h; simp
    · cases h
  · cases h; simp
  · cases h

@[simp] theorem answeredError_keeps (s : State) :
    (answeredError s).pending = s.pending ∧ (answeredError s).held = s.held ∧
    (answeredError s).causes = s.causes ∧ (answeredError s).timeBase = s.timeBase ∧
    (answeredError s).wallOffset = s.wallOffset ∧ (answeredError s).sync = s.sync ∧
    (answeredError s).mem = s.mem ∧ (answeredError s).rolls = s.rolls ∧
    (answeredError s).recipes = s.recipes ∧ (answeredError s).free = s.free := by
  unfold answeredError
  repeat' split
  any_goals simp
  next h => simp [stopAtAnswer_keeps h]

@[simp] theorem answeredOk_pending (g : State → State) (h : ∀ s, (g s).pending = s.pending) (s : State) :
    (answeredOk g s).pending = s.pending := by
  unfold answeredOk
  repeat' split
  any_goals simp [h]
  next h => simp [stopAtAnswer_keeps h]

@[simp] theorem answeredOk_held (g : State → State) (h : ∀ s, (g s).held = s.held) (s : State) :
    (answeredOk g s).held = s.held := by
  unfold answeredOk
  repeat' split
  any_goals simp [h]
  next h => simp [stopAtAnswer_keeps h]

@[simp] theorem answeredOk_causes (g : State → State) (h : ∀ s, (g s).causes = s.causes) (s : State) :
    (answeredOk g s).causes = s.causes := by
  unfold answeredOk
  repeat' split
  any_goals simp [h]
  next h => simp [stopAtAnswer_keeps h]

@[simp] theorem answeredOk_timeBase (g : State → State) (h : ∀ s, (g s).timeBase = s.timeBase) (s : State) :
    (answeredOk g s).timeBase = s.timeBase := by
  unfold answeredOk
  repeat' split
  any_goals simp [h]
  next h => simp [stopAtAnswer_keeps h]

@[simp] theorem answeredOk_wallOffset (g : State → State) (h : ∀ s, (g s).wallOffset = s.wallOffset) (s : State) :
    (answeredOk g s).wallOffset = s.wallOffset := by
  unfold answeredOk
  repeat' split
  any_goals simp [h]
  next h => simp [stopAtAnswer_keeps h]

@[simp] theorem answeredOk_sync (g : State → State) (h : ∀ s, (g s).sync = s.sync) (s : State) :
    (answeredOk g s).sync = s.sync := by
  unfold answeredOk
  repeat' split
  any_goals simp [h]
  next h => simp [stopAtAnswer_keeps h]

@[simp] theorem answeredOk_mem (g : State → State) (h : ∀ s, (g s).mem = s.mem) (s : State) :
    (answeredOk g s).mem = s.mem := by
  unfold answeredOk
  repeat' split
  any_goals simp [h]
  next h => simp [stopAtAnswer_keeps h]

@[simp] theorem answeredOk_rolls (g : State → State) (h : ∀ s, (g s).rolls = s.rolls) (s : State) :
    (answeredOk g s).rolls = s.rolls := by
  unfold answeredOk
  repeat' split
  any_goals simp [h]
  next h => simp [stopAtAnswer_keeps h]

@[simp] theorem answeredOk_recipes (g : State → State) (h : ∀ s, (g s).recipes = s.recipes) (s : State) :
    (answeredOk g s).recipes = s.recipes := by
  unfold answeredOk
  repeat' split
  any_goals simp [h]
  next h => simp [stopAtAnswer_keeps h]

@[simp] theorem answeredOk_free (g : State → State) (h : ∀ s, (g s).free = s.free) (s : State) :
    (answeredOk g s).free = s.free := by
  unfold answeredOk
  repeat' split
  any_goals simp [h]
  next h => simp [stopAtAnswer_keeps h]

@[simp] theorem endCardWork_keeps (s : State) :
    (endCardWork s).pending = s.pending ∧ (endCardWork s).held = s.held ∧ (endCardWork s).part = s.part ∧
    (endCardWork s).causes = s.causes ∧ (endCardWork s).timeBase = s.timeBase ∧
    (endCardWork s).wallOffset = s.wallOffset ∧ (endCardWork s).notices = s.notices ∧
    (endCardWork s).sync = s.sync ∧ (endCardWork s).seq = s.seq ∧ (endCardWork s).pau = s.pau ∧
    (endCardWork s).mem = s.mem ∧ (endCardWork s).rolls = s.rolls ∧ (endCardWork s).recipes = s.recipes ∧
    (endCardWork s).dark = s.dark ∧ (endCardWork s).free = s.free := by
  unfold endCardWork
  simp

@[simp] theorem emptyStore_keeps (s : State) :
    (emptyStore s).pending = s.pending ∧ (emptyStore s).held = s.held ∧ (emptyStore s).part = s.part ∧
    (emptyStore s).causes = s.causes ∧ (emptyStore s).timeBase = s.timeBase ∧
    (emptyStore s).wallOffset = s.wallOffset ∧ (emptyStore s).link = s.link ∧
    (emptyStore s).notices = s.notices ∧ (emptyStore s).sync = s.sync ∧ (emptyStore s).seq = s.seq ∧
    (emptyStore s).pool = s.pool ∧ (emptyStore s).pau = s.pau ∧ (emptyStore s).mem = s.mem ∧
    (emptyStore s).table = s.table ∧ (emptyStore s).rolls = s.rolls ∧ (emptyStore s).recipes = s.recipes ∧
    (emptyStore s).dark = s.dark ∧ (emptyStore s).dev = s.dev ∧ (emptyStore s).cache = s.cache ∧
    (emptyStore s).free = s.free := by
  unfold emptyStore
  simp

@[simp] theorem removeCard_keeps (s : State) :
    (removeCard s).pending = s.pending ∧ (removeCard s).held = s.held ∧ (removeCard s).part = s.part ∧
    (removeCard s).causes = s.causes ∧ (removeCard s).timeBase = s.timeBase ∧
    (removeCard s).wallOffset = s.wallOffset ∧ (removeCard s).sync = s.sync ∧ (removeCard s).seq = s.seq ∧
    (removeCard s).pau = s.pau ∧ (removeCard s).mem = s.mem ∧ (removeCard s).rolls = s.rolls ∧
    (removeCard s).recipes = s.recipes ∧ (removeCard s).dark = s.dark ∧ (removeCard s).free = s.free := by
  unfold removeCard
  simp

@[simp] theorem acceptLevel_keeps (t : Timer) (s : State) :
    (acceptLevel t s).pending = s.pending ∧ (acceptLevel t s).held = s.held ∧
    (acceptLevel t s).part = s.part ∧ (acceptLevel t s).causes = s.causes ∧
    (acceptLevel t s).wallOffset = s.wallOffset ∧ (acceptLevel t s).link = s.link ∧
    (acceptLevel t s).notices = s.notices ∧ (acceptLevel t s).seq = s.seq ∧
    (acceptLevel t s).pool = s.pool ∧ (acceptLevel t s).pau = s.pau ∧ (acceptLevel t s).mem = s.mem ∧
    (acceptLevel t s).table = s.table ∧ (acceptLevel t s).rolls = s.rolls ∧
    (acceptLevel t s).recipes = s.recipes ∧ (acceptLevel t s).dark = s.dark ∧
    (acceptLevel t s).dev = s.dev ∧ (acceptLevel t s).cache = s.cache ∧
    (acceptLevel t s).free = s.free := by
  unfold acceptLevel
  simp

@[simp] theorem leaveReads_keeps (s : State) :
    (leaveReads s).pending = s.pending ∧ (leaveReads s).held = s.held ∧ (leaveReads s).part = s.part ∧
    (leaveReads s).causes = s.causes ∧ (leaveReads s).timeBase = s.timeBase ∧
    (leaveReads s).wallOffset = s.wallOffset ∧ (leaveReads s).link = s.link ∧
    (leaveReads s).notices = s.notices ∧ (leaveReads s).sync = s.sync ∧ (leaveReads s).seq = s.seq ∧
    (leaveReads s).pool = s.pool ∧ (leaveReads s).pau = s.pau ∧ (leaveReads s).mem = s.mem ∧
    (leaveReads s).table = s.table ∧ (leaveReads s).rolls = s.rolls ∧ (leaveReads s).recipes = s.recipes ∧
    (leaveReads s).dark = s.dark ∧ (leaveReads s).dev = s.dev ∧ (leaveReads s).cache = s.cache ∧
    (leaveReads s).free = s.free := by
  unfold leaveReads
  simp

@[simp] theorem fetchDone_keeps (s : State) :
    (fetchDone s).pending = s.pending ∧ (fetchDone s).held = s.held ∧ (fetchDone s).part = s.part ∧
    (fetchDone s).causes = s.causes ∧ (fetchDone s).timeBase = s.timeBase ∧
    (fetchDone s).wallOffset = s.wallOffset ∧ (fetchDone s).link = s.link ∧
    (fetchDone s).notices = s.notices ∧ (fetchDone s).sync = s.sync ∧ (fetchDone s).seq = s.seq ∧
    (fetchDone s).pool = s.pool ∧ (fetchDone s).pau = s.pau ∧ (fetchDone s).mem = s.mem ∧
    (fetchDone s).table = s.table ∧ (fetchDone s).rolls = s.rolls ∧ (fetchDone s).recipes = s.recipes ∧
    (fetchDone s).dark = s.dark ∧ (fetchDone s).cache = s.cache ∧ (fetchDone s).card = s.card ∧
    (fetchDone s).free = s.free := by
  unfold fetchDone
  simp

@[simp] theorem endRawData_keeps (n : Nat) (s : State) :
    (endRawData n s).pending = s.pending ∧ (endRawData n s).held = s.held ∧ (endRawData n s).part = s.part ∧
    (endRawData n s).causes = s.causes ∧ (endRawData n s).timeBase = s.timeBase ∧
    (endRawData n s).wallOffset = s.wallOffset ∧ (endRawData n s).link = s.link ∧
    (endRawData n s).notices = s.notices ∧ (endRawData n s).sync = s.sync ∧ (endRawData n s).seq = s.seq ∧
    (endRawData n s).pool = s.pool ∧ (endRawData n s).pau = s.pau ∧ (endRawData n s).mem = s.mem ∧
    (endRawData n s).rolls = s.rolls ∧ (endRawData n s).recipes = s.recipes ∧
    (endRawData n s).dark = s.dark ∧ (endRawData n s).dev = s.dev ∧ (endRawData n s).cache = s.cache ∧
    (endRawData n s).free = s.free := by
  unfold endRawData
  try dsimp only
  repeat' split
  all_goals simp

@[simp] theorem resolveTaken_keeps (n : Nat) (s : State) :
    (resolveTaken n s).pending = s.pending ∧ (resolveTaken n s).held = s.held ∧
    (resolveTaken n s).part = s.part ∧ (resolveTaken n s).causes = s.causes ∧
    (resolveTaken n s).timeBase = s.timeBase ∧ (resolveTaken n s).wallOffset = s.wallOffset ∧
    (resolveTaken n s).link = s.link ∧ (resolveTaken n s).notices = s.notices ∧
    (resolveTaken n s).sync = s.sync ∧ (resolveTaken n s).seq = s.seq ∧ (resolveTaken n s).pool = s.pool ∧
    (resolveTaken n s).pau = s.pau ∧ (resolveTaken n s).mem = s.mem ∧ (resolveTaken n s).rolls = s.rolls ∧
    (resolveTaken n s).recipes = s.recipes ∧ (resolveTaken n s).dark = s.dark ∧
    (resolveTaken n s).dev = s.dev ∧ (resolveTaken n s).cache = s.cache ∧ (resolveTaken n s).card = s.card ∧
    (resolveTaken n s).free = s.free := by
  unfold resolveTaken
  try dsimp only
  repeat' split
  all_goals simp

@[simp] theorem copyProtect_keeps (n : Nat) (s : State) :
    (copyProtect n s).pending = s.pending ∧ (copyProtect n s).held = s.held ∧
    (copyProtect n s).part = s.part ∧ (copyProtect n s).causes = s.causes ∧
    (copyProtect n s).timeBase = s.timeBase ∧ (copyProtect n s).wallOffset = s.wallOffset ∧
    (copyProtect n s).link = s.link ∧ (copyProtect n s).notices = s.notices ∧
    (copyProtect n s).sync = s.sync ∧ (copyProtect n s).seq = s.seq ∧ (copyProtect n s).pool = s.pool ∧
    (copyProtect n s).pau = s.pau ∧ (copyProtect n s).mem = s.mem ∧ (copyProtect n s).table = s.table ∧
    (copyProtect n s).rolls = s.rolls ∧ (copyProtect n s).recipes = s.recipes ∧
    (copyProtect n s).dark = s.dark ∧ (copyProtect n s).dev = s.dev ∧ (copyProtect n s).cache = s.cache ∧
    (copyProtect n s).free = s.free := by
  unfold copyProtect
  try dsimp only
  repeat' split
  all_goals simp

@[simp] theorem entryWritten_keeps (n slot : Nat) (s : State) :
    (entryWritten n slot s).pending = s.pending ∧ (entryWritten n slot s).held = s.held ∧
    (entryWritten n slot s).part = s.part ∧ (entryWritten n slot s).causes = s.causes ∧
    (entryWritten n slot s).timeBase = s.timeBase ∧ (entryWritten n slot s).wallOffset = s.wallOffset ∧
    (entryWritten n slot s).link = s.link ∧ (entryWritten n slot s).notices = s.notices ∧
    (entryWritten n slot s).sync = s.sync ∧ (entryWritten n slot s).seq = s.seq ∧
    (entryWritten n slot s).pau = s.pau ∧ (entryWritten n slot s).mem = s.mem ∧
    (entryWritten n slot s).rolls = s.rolls ∧ (entryWritten n slot s).recipes = s.recipes ∧
    (entryWritten n slot s).dark = s.dark ∧ (entryWritten n slot s).dev = s.dev ∧
    (entryWritten n slot s).cache = s.cache ∧ (entryWritten n slot s).free = s.free := by
  unfold entryWritten
  try dsimp only
  repeat' split
  all_goals simp

@[simp] theorem finishHandoff_keeps (h : Handoff) (s : State) :
    (finishHandoff h s).pending = s.pending ∧ (finishHandoff h s).held = s.held ∧
    (finishHandoff h s).part = s.part ∧ (finishHandoff h s).causes = s.causes ∧
    (finishHandoff h s).timeBase = s.timeBase ∧ (finishHandoff h s).wallOffset = s.wallOffset ∧
    (finishHandoff h s).link = s.link ∧ (finishHandoff h s).notices = s.notices ∧
    (finishHandoff h s).sync = s.sync ∧ (finishHandoff h s).seq = s.seq ∧ (finishHandoff h s).pau = s.pau ∧
    (finishHandoff h s).mem = s.mem ∧ (finishHandoff h s).table = s.table ∧
    (finishHandoff h s).rolls = s.rolls ∧ (finishHandoff h s).recipes = s.recipes ∧
    (finishHandoff h s).dark = s.dark ∧ (finishHandoff h s).dev = s.dev ∧
    (finishHandoff h s).cache = s.cache ∧ (finishHandoff h s).free = s.free := by
  unfold finishHandoff
  try dsimp only
  repeat' split
  all_goals simp

@[simp] theorem developedWritten_keeps (h : Handoff) (runs : List Run) (s : State) :
    (developedWritten h runs s).pending = s.pending ∧ (developedWritten h runs s).held = s.held ∧
    (developedWritten h runs s).part = s.part ∧ (developedWritten h runs s).causes = s.causes ∧
    (developedWritten h runs s).timeBase = s.timeBase ∧
    (developedWritten h runs s).wallOffset = s.wallOffset ∧ (developedWritten h runs s).link = s.link ∧
    (developedWritten h runs s).notices = s.notices ∧ (developedWritten h runs s).sync = s.sync ∧
    (developedWritten h runs s).seq = s.seq ∧ (developedWritten h runs s).pau = s.pau ∧
    (developedWritten h runs s).mem = s.mem ∧ (developedWritten h runs s).rolls = s.rolls ∧
    (developedWritten h runs s).recipes = s.recipes ∧ (developedWritten h runs s).dark = s.dark ∧
    (developedWritten h runs s).dev = s.dev ∧ (developedWritten h runs s).cache = s.cache ∧
    (developedWritten h runs s).free = s.free := by
  unfold developedWritten
  dsimp only
  split <;> simp [-Option.map_bind, -Option.map_map]

@[simp] theorem emptied_keeps (n : Nat) (s : State) :
    (emptied n s).pending = s.pending ∧ (emptied n s).held = s.held ∧ (emptied n s).part = s.part ∧
    (emptied n s).causes = s.causes ∧ (emptied n s).timeBase = s.timeBase ∧
    (emptied n s).wallOffset = s.wallOffset ∧ (emptied n s).notices = s.notices ∧
    (emptied n s).sync = s.sync ∧ (emptied n s).seq = s.seq ∧ (emptied n s).pool = s.pool ∧
    (emptied n s).pau = s.pau ∧ (emptied n s).mem = s.mem ∧ (emptied n s).rolls = s.rolls ∧
    (emptied n s).recipes = s.recipes ∧ (emptied n s).dark = s.dark ∧ (emptied n s).dev = s.dev ∧
    (emptied n s).cache = s.cache ∧ (emptied n s).free = s.free := by
  unfold emptied
  try dsimp only
  repeat' split
  all_goals simp

@[simp] theorem acceptEject_keeps (tag : Nat) (s : State) :
    (acceptEject tag s).pending = s.pending ∧ (acceptEject tag s).held = s.held ∧
    (acceptEject tag s).part = s.part ∧ (acceptEject tag s).causes = s.causes ∧
    (acceptEject tag s).timeBase = s.timeBase ∧ (acceptEject tag s).wallOffset = s.wallOffset ∧
    (acceptEject tag s).sync = s.sync ∧ (acceptEject tag s).pau = s.pau ∧ (acceptEject tag s).mem = s.mem ∧
    (acceptEject tag s).rolls = s.rolls ∧ (acceptEject tag s).recipes = s.recipes ∧
    (acceptEject tag s).free = s.free := by
  unfold acceptEject
  simp

@[simp] theorem setRollSlot_keeps (i : Nat) (x : RollSlot) (s : State) :
    (setRollSlot i x s).pending = s.pending ∧ (setRollSlot i x s).held = s.held ∧
    (setRollSlot i x s).part = s.part ∧ (setRollSlot i x s).causes = s.causes ∧
    (setRollSlot i x s).timeBase = s.timeBase ∧ (setRollSlot i x s).wallOffset = s.wallOffset ∧
    (setRollSlot i x s).link = s.link ∧ (setRollSlot i x s).notices = s.notices ∧
    (setRollSlot i x s).sync = s.sync ∧ (setRollSlot i x s).seq = s.seq ∧
    (setRollSlot i x s).pool = s.pool ∧ (setRollSlot i x s).pau = s.pau ∧ (setRollSlot i x s).mem = s.mem ∧
    (setRollSlot i x s).table = s.table ∧ (setRollSlot i x s).recipes = s.recipes ∧
    (setRollSlot i x s).dark = s.dark ∧ (setRollSlot i x s).dev = s.dev ∧
    (setRollSlot i x s).cache = s.cache ∧ (setRollSlot i x s).card = s.card ∧
    (setRollSlot i x s).free = s.free := by
  unfold setRollSlot
  simp

@[simp] theorem setCurrent_keeps (i : Option Nat) (s : State) :
    (setCurrent i s).pending = s.pending ∧ (setCurrent i s).held = s.held ∧ (setCurrent i s).part = s.part ∧
    (setCurrent i s).causes = s.causes ∧ (setCurrent i s).timeBase = s.timeBase ∧
    (setCurrent i s).wallOffset = s.wallOffset ∧ (setCurrent i s).link = s.link ∧
    (setCurrent i s).notices = s.notices ∧ (setCurrent i s).sync = s.sync ∧ (setCurrent i s).seq = s.seq ∧
    (setCurrent i s).pool = s.pool ∧ (setCurrent i s).pau = s.pau ∧ (setCurrent i s).mem = s.mem ∧
    (setCurrent i s).table = s.table ∧ (setCurrent i s).recipes = s.recipes ∧
    (setCurrent i s).dark = s.dark ∧ (setCurrent i s).dev = s.dev ∧ (setCurrent i s).cache = s.cache ∧
    (setCurrent i s).card = s.card ∧ (setCurrent i s).free = s.free := by
  unfold setCurrent
  simp

@[simp] theorem closeRoll_keeps (i : Nat) (r : Roll) (s : State) :
    (closeRoll i r s).pending = s.pending ∧ (closeRoll i r s).held = s.held ∧
    (closeRoll i r s).part = s.part ∧ (closeRoll i r s).causes = s.causes ∧
    (closeRoll i r s).timeBase = s.timeBase ∧ (closeRoll i r s).wallOffset = s.wallOffset ∧
    (closeRoll i r s).link = s.link ∧ (closeRoll i r s).notices = s.notices ∧
    (closeRoll i r s).sync = s.sync ∧ (closeRoll i r s).seq = s.seq ∧ (closeRoll i r s).pool = s.pool ∧
    (closeRoll i r s).pau = s.pau ∧ (closeRoll i r s).mem = s.mem ∧ (closeRoll i r s).table = s.table ∧
    (closeRoll i r s).recipes = s.recipes ∧ (closeRoll i r s).dark = s.dark ∧
    (closeRoll i r s).dev = s.dev ∧ (closeRoll i r s).cache = s.cache ∧ (closeRoll i r s).card = s.card ∧
    (closeRoll i r s).free = s.free := by
  unfold closeRoll
  try dsimp only
  repeat' split
  all_goals simp

@[simp] theorem setRecipe_keeps (i : Nat) (r : Recipe) (s : State) :
    (setRecipe i r s).pending = s.pending ∧ (setRecipe i r s).held = s.held ∧
    (setRecipe i r s).part = s.part ∧ (setRecipe i r s).causes = s.causes ∧
    (setRecipe i r s).timeBase = s.timeBase ∧ (setRecipe i r s).wallOffset = s.wallOffset ∧
    (setRecipe i r s).link = s.link ∧ (setRecipe i r s).notices = s.notices ∧
    (setRecipe i r s).sync = s.sync ∧ (setRecipe i r s).seq = s.seq ∧ (setRecipe i r s).pool = s.pool ∧
    (setRecipe i r s).pau = s.pau ∧ (setRecipe i r s).mem = s.mem ∧ (setRecipe i r s).table = s.table ∧
    (setRecipe i r s).rolls = s.rolls ∧ (setRecipe i r s).dark = s.dark ∧ (setRecipe i r s).dev = s.dev ∧
    (setRecipe i r s).cache = s.cache ∧ (setRecipe i r s).card = s.card ∧
    (setRecipe i r s).free = s.free := by
  unfold setRecipe
  simp

@[simp] theorem restartQualifiers_keeps (s : State) :
    (restartQualifiers s).pending = s.pending ∧ (restartQualifiers s).held = s.held ∧
    (restartQualifiers s).part = s.part ∧ (restartQualifiers s).causes = s.causes ∧
    (restartQualifiers s).timeBase = s.timeBase ∧ (restartQualifiers s).wallOffset = s.wallOffset ∧
    (restartQualifiers s).link = s.link ∧ (restartQualifiers s).notices = s.notices ∧
    (restartQualifiers s).seq = s.seq ∧ (restartQualifiers s).pool = s.pool ∧
    (restartQualifiers s).pau = s.pau ∧ (restartQualifiers s).mem = s.mem ∧
    (restartQualifiers s).table = s.table ∧ (restartQualifiers s).rolls = s.rolls ∧
    (restartQualifiers s).recipes = s.recipes ∧ (restartQualifiers s).dark = s.dark ∧
    (restartQualifiers s).dev = s.dev ∧ (restartQualifiers s).cache = s.cache ∧
    (restartQualifiers s).card = s.card ∧ (restartQualifiers s).free = s.free := by
  unfold restartQualifiers
  simp

@[simp] theorem setLine_keeps (i : SyncInput) (l : SyncLine) (s : State) :
    (setLine i l s).pending = s.pending ∧ (setLine i l s).held = s.held ∧ (setLine i l s).part = s.part ∧
    (setLine i l s).causes = s.causes ∧ (setLine i l s).timeBase = s.timeBase ∧
    (setLine i l s).wallOffset = s.wallOffset ∧ (setLine i l s).link = s.link ∧
    (setLine i l s).notices = s.notices ∧ (setLine i l s).seq = s.seq ∧ (setLine i l s).pool = s.pool ∧
    (setLine i l s).pau = s.pau ∧ (setLine i l s).mem = s.mem ∧ (setLine i l s).table = s.table ∧
    (setLine i l s).rolls = s.rolls ∧ (setLine i l s).recipes = s.recipes ∧ (setLine i l s).dark = s.dark ∧
    (setLine i l s).dev = s.dev ∧ (setLine i l s).cache = s.cache ∧ (setLine i l s).card = s.card ∧
    (setLine i l s).free = s.free := by
  unfold setLine
  simp

@[simp] theorem deliver_keeps (i : SyncInput) (level : Contact) (t : Time) (s : State) :
    (deliver i level t s).pending = s.pending ∧ (deliver i level t s).held = s.held ∧
    (deliver i level t s).part = s.part ∧ (deliver i level t s).causes = s.causes ∧
    (deliver i level t s).timeBase = s.timeBase ∧ (deliver i level t s).wallOffset = s.wallOffset ∧
    (deliver i level t s).link = s.link ∧ (deliver i level t s).mem = s.mem ∧
    (deliver i level t s).recipes = s.recipes ∧ (deliver i level t s).free = s.free := by
  unfold deliver
  try dsimp only
  repeat' split
  all_goals simp

@[simp] theorem qualify_keeps (i : SyncInput) (s : State) :
    (qualify i s).pending = s.pending ∧ (qualify i s).held = s.held ∧ (qualify i s).part = s.part ∧
    (qualify i s).causes = s.causes ∧ (qualify i s).wallOffset = s.wallOffset ∧ (qualify i s).mem = s.mem ∧
    (qualify i s).recipes = s.recipes ∧ (qualify i s).free = s.free := by
  unfold qualify
  try dsimp only
  repeat' split
  all_goals simp

@[simp] theorem mapLines_keeps (f : SyncInput → SyncLine → SyncLine) (s : State) :
    (mapLines f s).pending = s.pending ∧ (mapLines f s).held = s.held ∧ (mapLines f s).part = s.part ∧
    (mapLines f s).causes = s.causes ∧ (mapLines f s).timeBase = s.timeBase ∧
    (mapLines f s).wallOffset = s.wallOffset ∧ (mapLines f s).link = s.link ∧
    (mapLines f s).notices = s.notices ∧ (mapLines f s).seq = s.seq ∧ (mapLines f s).pool = s.pool ∧
    (mapLines f s).pau = s.pau ∧ (mapLines f s).mem = s.mem ∧ (mapLines f s).table = s.table ∧
    (mapLines f s).rolls = s.rolls ∧ (mapLines f s).recipes = s.recipes ∧ (mapLines f s).dark = s.dark ∧
    (mapLines f s).dev = s.dev ∧ (mapLines f s).cache = s.cache ∧ (mapLines f s).card = s.card ∧
    (mapLines f s).free = s.free := by
  unfold mapLines
  simp

@[simp] theorem takeSample_keeps (gap : Nat) (pin : SyncInput → PinLevel) (s : State) :
    (takeSample gap pin s).pending = s.pending ∧ (takeSample gap pin s).held = s.held ∧
    (takeSample gap pin s).part = s.part ∧ (takeSample gap pin s).causes = s.causes ∧
    (takeSample gap pin s).wallOffset = s.wallOffset ∧ (takeSample gap pin s).link = s.link ∧
    (takeSample gap pin s).notices = s.notices ∧ (takeSample gap pin s).seq = s.seq ∧
    (takeSample gap pin s).pool = s.pool ∧ (takeSample gap pin s).pau = s.pau ∧
    (takeSample gap pin s).mem = s.mem ∧ (takeSample gap pin s).table = s.table ∧
    (takeSample gap pin s).rolls = s.rolls ∧ (takeSample gap pin s).recipes = s.recipes ∧
    (takeSample gap pin s).dark = s.dark ∧ (takeSample gap pin s).dev = s.dev ∧
    (takeSample gap pin s).cache = s.cache ∧ (takeSample gap pin s).card = s.card ∧
    (takeSample gap pin s).free = s.free := by
  unfold takeSample
  try dsimp only
  repeat' split
  all_goals simp

@[simp] theorem setWall_keeps (wall : Int) (s : State) :
    (setWall wall s).pending = s.pending ∧ (setWall wall s).held = s.held ∧ (setWall wall s).part = s.part ∧
    (setWall wall s).causes = s.causes ∧ (setWall wall s).timeBase = s.timeBase ∧
    (setWall wall s).link = s.link ∧ (setWall wall s).notices = s.notices ∧ (setWall wall s).sync = s.sync ∧
    (setWall wall s).seq = s.seq ∧ (setWall wall s).pool = s.pool ∧ (setWall wall s).pau = s.pau ∧
    (setWall wall s).mem = s.mem ∧ (setWall wall s).table = s.table ∧ (setWall wall s).rolls = s.rolls ∧
    (setWall wall s).recipes = s.recipes ∧ (setWall wall s).dark = s.dark ∧ (setWall wall s).dev = s.dev ∧
    (setWall wall s).cache = s.cache ∧ (setWall wall s).card = s.card ∧ (setWall wall s).free = s.free := by
  unfold setWall
  simp

@[simp] theorem answerStart_keeps (tag : Nat) (d : ResultCode × State) :
    (answerStart tag d).pending = d.2.pending ∧ (answerStart tag d).held = d.2.held ∧
    (answerStart tag d).part = d.2.part ∧ (answerStart tag d).causes = d.2.causes ∧
    (answerStart tag d).timeBase = d.2.timeBase ∧ (answerStart tag d).wallOffset = d.2.wallOffset ∧
    (answerStart tag d).notices = d.2.notices ∧ (answerStart tag d).sync = d.2.sync ∧
    (answerStart tag d).seq = d.2.seq ∧ (answerStart tag d).pool = d.2.pool ∧
    (answerStart tag d).pau = d.2.pau ∧ (answerStart tag d).mem = d.2.mem ∧
    (answerStart tag d).table = d.2.table ∧ (answerStart tag d).rolls = d.2.rolls ∧
    (answerStart tag d).recipes = d.2.recipes ∧ (answerStart tag d).dark = d.2.dark ∧
    (answerStart tag d).dev = d.2.dev ∧ (answerStart tag d).cache = d.2.cache ∧
    (answerStart tag d).card = d.2.card ∧ (answerStart tag d).free = d.2.free := by
  unfold answerStart
  try dsimp only
  repeat' split
  all_goals simp

@[simp] theorem armExpired_keeps (s : State) :
    (armExpired s).pending = s.pending ∧ (armExpired s).held = s.held ∧ (armExpired s).part = s.part ∧
    (armExpired s).causes = s.causes ∧ (armExpired s).timeBase = s.timeBase ∧
    (armExpired s).wallOffset = s.wallOffset ∧ (armExpired s).link = s.link ∧ (armExpired s).sync = s.sync ∧
    (armExpired s).mem = s.mem ∧ (armExpired s).recipes = s.recipes ∧ (armExpired s).cache = s.cache ∧
    (armExpired s).card = s.card ∧ (armExpired s).free = s.free := by
  unfold armExpired
  try dsimp only
  repeat' split
  all_goals simp

@[simp] theorem maxOpenExpired_keeps (t : Time) (s : State) :
    (maxOpenExpired t s).pending = s.pending ∧ (maxOpenExpired t s).held = s.held ∧
    (maxOpenExpired t s).part = s.part ∧ (maxOpenExpired t s).causes = s.causes ∧
    (maxOpenExpired t s).timeBase = s.timeBase ∧ (maxOpenExpired t s).wallOffset = s.wallOffset ∧
    (maxOpenExpired t s).link = s.link ∧ (maxOpenExpired t s).sync = s.sync ∧
    (maxOpenExpired t s).pool = s.pool ∧ (maxOpenExpired t s).pau = s.pau ∧
    (maxOpenExpired t s).mem = s.mem ∧ (maxOpenExpired t s).rolls = s.rolls ∧
    (maxOpenExpired t s).recipes = s.recipes ∧ (maxOpenExpired t s).dark = s.dark ∧
    (maxOpenExpired t s).dev = s.dev ∧ (maxOpenExpired t s).cache = s.cache ∧
    (maxOpenExpired t s).card = s.card ∧ (maxOpenExpired t s).free = s.free := by
  unfold maxOpenExpired
  try dsimp only
  repeat' split
  all_goals simp

@[simp] theorem settleExpired_keeps (s : State) :
    (settleExpired s).pending = s.pending ∧ (settleExpired s).held = s.held ∧
    (settleExpired s).part = s.part ∧ (settleExpired s).causes = s.causes ∧
    (settleExpired s).timeBase = s.timeBase ∧ (settleExpired s).wallOffset = s.wallOffset ∧
    (settleExpired s).link = s.link ∧ (settleExpired s).notices = s.notices ∧
    (settleExpired s).sync = s.sync ∧ (settleExpired s).pool = s.pool ∧ (settleExpired s).pau = s.pau ∧
    (settleExpired s).mem = s.mem ∧ (settleExpired s).rolls = s.rolls ∧
    (settleExpired s).recipes = s.recipes ∧ (settleExpired s).dark = s.dark ∧
    (settleExpired s).cache = s.cache ∧ (settleExpired s).card = s.card ∧
    (settleExpired s).free = s.free := by
  unfold settleExpired
  simp

@[simp] theorem freeReady_keeps (s : State) :
    (freeReady s).pending = s.pending ∧ (freeReady s).held = s.held ∧ (freeReady s).part = s.part ∧
    (freeReady s).causes = s.causes ∧ (freeReady s).timeBase = s.timeBase ∧
    (freeReady s).wallOffset = s.wallOffset ∧ (freeReady s).link = s.link ∧
    (freeReady s).notices = s.notices ∧ (freeReady s).sync = s.sync ∧ (freeReady s).seq = s.seq ∧
    (freeReady s).pau = s.pau ∧ (freeReady s).mem = s.mem ∧ (freeReady s).table = s.table ∧
    (freeReady s).rolls = s.rolls ∧ (freeReady s).recipes = s.recipes ∧ (freeReady s).dev = s.dev ∧
    (freeReady s).cache = s.cache ∧ (freeReady s).card = s.card ∧ (freeReady s).free = s.free := by
  unfold freeReady
  simp

@[simp] theorem setGeometry_keeps (columns rows : Nat) (s : State) :
    (setGeometry columns rows s).pending = s.pending ∧ (setGeometry columns rows s).held = s.held ∧
    (setGeometry columns rows s).part = s.part ∧ (setGeometry columns rows s).causes = s.causes ∧
    (setGeometry columns rows s).timeBase = s.timeBase ∧
    (setGeometry columns rows s).wallOffset = s.wallOffset ∧ (setGeometry columns rows s).link = s.link ∧
    (setGeometry columns rows s).notices = s.notices ∧ (setGeometry columns rows s).sync = s.sync ∧
    (setGeometry columns rows s).mem = s.mem ∧ (setGeometry columns rows s).rolls = s.rolls ∧
    (setGeometry columns rows s).recipes = s.recipes ∧ (setGeometry columns rows s).dev = s.dev ∧
    (setGeometry columns rows s).cache = s.cache ∧ (setGeometry columns rows s).card = s.card ∧
    (setGeometry columns rows s).free = s.free := by
  unfold setGeometry
  simp

@[simp] theorem accumulated_keeps (q : PauRequest) (s : State) :
    (accumulated q s).pending = s.pending ∧ (accumulated q s).held = s.held ∧
    (accumulated q s).part = s.part ∧ (accumulated q s).causes = s.causes ∧
    (accumulated q s).timeBase = s.timeBase ∧ (accumulated q s).wallOffset = s.wallOffset ∧
    (accumulated q s).link = s.link ∧ (accumulated q s).notices = s.notices ∧
    (accumulated q s).sync = s.sync ∧ (accumulated q s).seq = s.seq ∧ (accumulated q s).pool = s.pool ∧
    (accumulated q s).table = s.table ∧ (accumulated q s).rolls = s.rolls ∧
    (accumulated q s).recipes = s.recipes ∧ (accumulated q s).dark = s.dark ∧
    (accumulated q s).dev = s.dev ∧ (accumulated q s).cache = s.cache ∧ (accumulated q s).card = s.card ∧
    (accumulated q s).free = s.free := by
  unfold accumulated
  simp

@[simp] theorem afterAccumulate_keeps (s : State) :
    (afterAccumulate s).pending = s.pending ∧ (afterAccumulate s).held = s.held ∧
    (afterAccumulate s).part = s.part ∧ (afterAccumulate s).causes = s.causes ∧
    (afterAccumulate s).timeBase = s.timeBase ∧ (afterAccumulate s).wallOffset = s.wallOffset ∧
    (afterAccumulate s).link = s.link ∧ (afterAccumulate s).sync = s.sync ∧
    (afterAccumulate s).mem = s.mem ∧ (afterAccumulate s).rolls = s.rolls ∧
    (afterAccumulate s).recipes = s.recipes ∧ (afterAccumulate s).cache = s.cache ∧
    (afterAccumulate s).card = s.card ∧ (afterAccumulate s).free = s.free := by
  unfold afterAccumulate
  try dsimp only
  repeat' split
  all_goals simp

@[simp] theorem darkApplied_keeps (q : PauRequest) (e : Nat) (s : State) :
    (darkApplied q e s).pending = s.pending ∧ (darkApplied q e s).held = s.held ∧
    (darkApplied q e s).part = s.part ∧ (darkApplied q e s).causes = s.causes ∧
    (darkApplied q e s).timeBase = s.timeBase ∧ (darkApplied q e s).wallOffset = s.wallOffset ∧
    (darkApplied q e s).link = s.link ∧ (darkApplied q e s).notices = s.notices ∧
    (darkApplied q e s).sync = s.sync ∧ (darkApplied q e s).seq = s.seq ∧
    (darkApplied q e s).rolls = s.rolls ∧ (darkApplied q e s).recipes = s.recipes ∧
    (darkApplied q e s).dev = s.dev ∧ (darkApplied q e s).cache = s.cache ∧
    (darkApplied q e s).card = s.card ∧ (darkApplied q e s).free = s.free := by
  unfold darkApplied
  try dsimp only
  repeat' split
  all_goals simp

@[simp] theorem setEngine_keeps (x : EngineState) (s : State) :
    (setEngine x s).pending = s.pending ∧ (setEngine x s).held = s.held ∧ (setEngine x s).part = s.part ∧
    (setEngine x s).causes = s.causes ∧ (setEngine x s).timeBase = s.timeBase ∧
    (setEngine x s).wallOffset = s.wallOffset ∧ (setEngine x s).link = s.link ∧
    (setEngine x s).notices = s.notices ∧ (setEngine x s).sync = s.sync ∧ (setEngine x s).seq = s.seq ∧
    (setEngine x s).pool = s.pool ∧ (setEngine x s).pau = s.pau ∧ (setEngine x s).mem = s.mem ∧
    (setEngine x s).table = s.table ∧ (setEngine x s).rolls = s.rolls ∧
    (setEngine x s).recipes = s.recipes ∧ (setEngine x s).dark = s.dark ∧ (setEngine x s).cache = s.cache ∧
    (setEngine x s).card = s.card ∧ (setEngine x s).free = s.free := by
  unfold setEngine
  simp

@[simp] theorem answerPreview_keeps (i : Nat) (key : DevKey) (result : ResultCode) (s : State) (tag : Nat) :
    (answerPreview i key result s tag).pending = s.pending ∧
    (answerPreview i key result s tag).held = s.held ∧ (answerPreview i key result s tag).part = s.part ∧
    (answerPreview i key result s tag).causes = s.causes ∧
    (answerPreview i key result s tag).timeBase = s.timeBase ∧
    (answerPreview i key result s tag).wallOffset = s.wallOffset ∧
    (answerPreview i key result s tag).notices = s.notices ∧
    (answerPreview i key result s tag).sync = s.sync ∧ (answerPreview i key result s tag).seq = s.seq ∧
    (answerPreview i key result s tag).pool = s.pool ∧ (answerPreview i key result s tag).pau = s.pau ∧
    (answerPreview i key result s tag).mem = s.mem ∧ (answerPreview i key result s tag).table = s.table ∧
    (answerPreview i key result s tag).rolls = s.rolls ∧
    (answerPreview i key result s tag).recipes = s.recipes ∧
    (answerPreview i key result s tag).dark = s.dark ∧ (answerPreview i key result s tag).dev = s.dev ∧
    (answerPreview i key result s tag).card = s.card ∧
    (answerPreview i key result s tag).free = s.free := by
  unfold answerPreview
  try dsimp only
  repeat' split
  all_goals simp

@[simp] theorem validSlot_keeps (i : Nat) (j : Job) (size : Nat × Nat) (s : State) :
    (validSlot i j size s).pending = s.pending ∧ (validSlot i j size s).held = s.held ∧
    (validSlot i j size s).part = s.part ∧ (validSlot i j size s).causes = s.causes ∧
    (validSlot i j size s).timeBase = s.timeBase ∧ (validSlot i j size s).wallOffset = s.wallOffset ∧
    (validSlot i j size s).link = s.link ∧ (validSlot i j size s).notices = s.notices ∧
    (validSlot i j size s).sync = s.sync ∧ (validSlot i j size s).seq = s.seq ∧
    (validSlot i j size s).pool = s.pool ∧ (validSlot i j size s).pau = s.pau ∧
    (validSlot i j size s).mem = s.mem ∧ (validSlot i j size s).table = s.table ∧
    (validSlot i j size s).rolls = s.rolls ∧ (validSlot i j size s).recipes = s.recipes ∧
    (validSlot i j size s).dark = s.dark ∧ (validSlot i j size s).dev = s.dev ∧
    (validSlot i j size s).card = s.card := by
  unfold validSlot
  simp

@[simp] theorem writeRendition_keeps (base room : Nat) (size : Nat × Nat) (s : State) :
    (writeRendition base room size s).pending = s.pending ∧
    (writeRendition base room size s).held = s.held ∧ (writeRendition base room size s).part = s.part ∧
    (writeRendition base room size s).causes = s.causes ∧
    (writeRendition base room size s).timeBase = s.timeBase ∧
    (writeRendition base room size s).wallOffset = s.wallOffset ∧
    (writeRendition base room size s).link = s.link ∧
    (writeRendition base room size s).notices = s.notices ∧
    (writeRendition base room size s).sync = s.sync ∧ (writeRendition base room size s).seq = s.seq ∧
    (writeRendition base room size s).pool = s.pool ∧ (writeRendition base room size s).pau = s.pau ∧
    (writeRendition base room size s).table = s.table ∧ (writeRendition base room size s).rolls = s.rolls ∧
    (writeRendition base room size s).recipes = s.recipes ∧
    (writeRendition base room size s).dark = s.dark ∧ (writeRendition base room size s).dev = s.dev ∧
    (writeRendition base room size s).cache = s.cache ∧ (writeRendition base room size s).card = s.card ∧
    (writeRendition base room size s).free = s.free := by
  unfold writeRendition
  simp

@[simp] theorem completePreview_keeps (j : Job) (h : RunHolds) (s : State) :
    (completePreview j h s).pending = s.pending ∧ (completePreview j h s).held = s.held ∧
    (completePreview j h s).part = s.part ∧ (completePreview j h s).causes = s.causes ∧
    (completePreview j h s).timeBase = s.timeBase ∧ (completePreview j h s).wallOffset = s.wallOffset ∧
    (completePreview j h s).notices = s.notices ∧ (completePreview j h s).sync = s.sync ∧
    (completePreview j h s).seq = s.seq ∧ (completePreview j h s).pool = s.pool ∧
    (completePreview j h s).pau = s.pau ∧ (completePreview j h s).table = s.table ∧
    (completePreview j h s).rolls = s.rolls ∧ (completePreview j h s).recipes = s.recipes ∧
    (completePreview j h s).dark = s.dark ∧ (completePreview j h s).card = s.card := by
  unfold completePreview
  try dsimp only
  repeat' split
  all_goals simp

@[simp] theorem supersedeHandoffs_keeps (n : Nat) (s : State) :
    (supersedeHandoffs n s).pending = s.pending ∧ (supersedeHandoffs n s).held = s.held ∧
    (supersedeHandoffs n s).part = s.part ∧ (supersedeHandoffs n s).causes = s.causes ∧
    (supersedeHandoffs n s).timeBase = s.timeBase ∧ (supersedeHandoffs n s).wallOffset = s.wallOffset ∧
    (supersedeHandoffs n s).link = s.link ∧ (supersedeHandoffs n s).notices = s.notices ∧
    (supersedeHandoffs n s).sync = s.sync ∧ (supersedeHandoffs n s).seq = s.seq ∧
    (supersedeHandoffs n s).pau = s.pau ∧ (supersedeHandoffs n s).mem = s.mem ∧
    (supersedeHandoffs n s).table = s.table ∧ (supersedeHandoffs n s).rolls = s.rolls ∧
    (supersedeHandoffs n s).recipes = s.recipes ∧ (supersedeHandoffs n s).dark = s.dark ∧
    (supersedeHandoffs n s).dev = s.dev ∧ (supersedeHandoffs n s).cache = s.cache ∧
    (supersedeHandoffs n s).free = s.free := by
  unfold supersedeHandoffs
  simp

@[simp] theorem handOff_keeps (j : Job) (plane : Nat) (size : Nat × Nat) (s : State) :
    (handOff j plane size s).pending = s.pending ∧ (handOff j plane size s).held = s.held ∧
    (handOff j plane size s).part = s.part ∧ (handOff j plane size s).causes = s.causes ∧
    (handOff j plane size s).timeBase = s.timeBase ∧ (handOff j plane size s).wallOffset = s.wallOffset ∧
    (handOff j plane size s).link = s.link ∧ (handOff j plane size s).notices = s.notices ∧
    (handOff j plane size s).sync = s.sync ∧ (handOff j plane size s).seq = s.seq ∧
    (handOff j plane size s).pau = s.pau ∧ (handOff j plane size s).mem = s.mem ∧
    (handOff j plane size s).table = s.table ∧ (handOff j plane size s).rolls = s.rolls ∧
    (handOff j plane size s).recipes = s.recipes ∧ (handOff j plane size s).dark = s.dark ∧
    (handOff j plane size s).dev = s.dev ∧ (handOff j plane size s).cache = s.cache := by
  unfold handOff
  simp

@[simp] theorem answerKey_keeps (k : DevKey) (s : State) (tag : Nat) :
    (answerKey k s tag).pending = s.pending ∧ (answerKey k s tag).held = s.held ∧
    (answerKey k s tag).part = s.part ∧ (answerKey k s tag).causes = s.causes ∧
    (answerKey k s tag).timeBase = s.timeBase ∧ (answerKey k s tag).wallOffset = s.wallOffset ∧
    (answerKey k s tag).notices = s.notices ∧ (answerKey k s tag).sync = s.sync ∧
    (answerKey k s tag).seq = s.seq ∧ (answerKey k s tag).pool = s.pool ∧ (answerKey k s tag).pau = s.pau ∧
    (answerKey k s tag).mem = s.mem ∧ (answerKey k s tag).table = s.table ∧
    (answerKey k s tag).rolls = s.rolls ∧ (answerKey k s tag).recipes = s.recipes ∧
    (answerKey k s tag).dark = s.dark ∧ (answerKey k s tag).dev = s.dev ∧
    (answerKey k s tag).cache = s.cache ∧ (answerKey k s tag).card = s.card ∧
    (answerKey k s tag).free = s.free := by
  unfold answerKey
  simp

@[simp] theorem completeFull_keeps (j : Job) (plane : Nat) (size : Nat × Nat) (s : State) :
    (completeFull j plane size s).pending = s.pending ∧ (completeFull j plane size s).held = s.held ∧
    (completeFull j plane size s).part = s.part ∧ (completeFull j plane size s).causes = s.causes ∧
    (completeFull j plane size s).timeBase = s.timeBase ∧
    (completeFull j plane size s).wallOffset = s.wallOffset ∧
    (completeFull j plane size s).notices = s.notices ∧ (completeFull j plane size s).sync = s.sync ∧
    (completeFull j plane size s).seq = s.seq ∧ (completeFull j plane size s).pau = s.pau ∧
    (completeFull j plane size s).mem = s.mem ∧ (completeFull j plane size s).table = s.table ∧
    (completeFull j plane size s).rolls = s.rolls ∧ (completeFull j plane size s).recipes = s.recipes ∧
    (completeFull j plane size s).dark = s.dark ∧ (completeFull j plane size s).cache = s.cache := by
  unfold completeFull
  simp

@[simp] theorem requeueStale_keeps (j : Job) (plane : Nat) (s : State) :
    (requeueStale j plane s).pending = s.pending ∧ (requeueStale j plane s).held = s.held ∧
    (requeueStale j plane s).part = s.part ∧ (requeueStale j plane s).causes = s.causes ∧
    (requeueStale j plane s).timeBase = s.timeBase ∧ (requeueStale j plane s).wallOffset = s.wallOffset ∧
    (requeueStale j plane s).link = s.link ∧ (requeueStale j plane s).notices = s.notices ∧
    (requeueStale j plane s).sync = s.sync ∧ (requeueStale j plane s).seq = s.seq ∧
    (requeueStale j plane s).pau = s.pau ∧ (requeueStale j plane s).mem = s.mem ∧
    (requeueStale j plane s).table = s.table ∧ (requeueStale j plane s).rolls = s.rolls ∧
    (requeueStale j plane s).recipes = s.recipes ∧ (requeueStale j plane s).dark = s.dark ∧
    (requeueStale j plane s).cache = s.cache ∧ (requeueStale j plane s).card = s.card ∧
    (requeueStale j plane s).free = s.free := by
  unfold requeueStale
  simp

@[simp] theorem endFull_keeps (j : Job) (h : RunHolds) (s : State) :
    (endFull j h s).pending = s.pending ∧ (endFull j h s).held = s.held ∧ (endFull j h s).part = s.part ∧
    (endFull j h s).causes = s.causes ∧ (endFull j h s).timeBase = s.timeBase ∧
    (endFull j h s).wallOffset = s.wallOffset ∧ (endFull j h s).notices = s.notices ∧
    (endFull j h s).sync = s.sync ∧ (endFull j h s).seq = s.seq ∧ (endFull j h s).pau = s.pau ∧
    (endFull j h s).table = s.table ∧ (endFull j h s).rolls = s.rolls ∧
    (endFull j h s).recipes = s.recipes ∧ (endFull j h s).dark = s.dark ∧
    (endFull j h s).cache = s.cache := by
  unfold endFull
  try dsimp only
  repeat' split
  all_goals simp

@[simp] theorem completeJob_keeps (j : Job) (h : RunHolds) (s : State) :
    (completeJob j h s).pending = s.pending ∧ (completeJob j h s).held = s.held ∧
    (completeJob j h s).part = s.part ∧ (completeJob j h s).causes = s.causes ∧
    (completeJob j h s).timeBase = s.timeBase ∧ (completeJob j h s).wallOffset = s.wallOffset ∧
    (completeJob j h s).notices = s.notices ∧ (completeJob j h s).sync = s.sync ∧
    (completeJob j h s).seq = s.seq ∧ (completeJob j h s).pau = s.pau ∧
    (completeJob j h s).rolls = s.rolls ∧ (completeJob j h s).recipes = s.recipes ∧
    (completeJob j h s).dark = s.dark := by
  unfold completeJob
  try dsimp only
  repeat' split
  all_goals simp

@[simp] theorem placeWaiting_keeps (tag n : Nat) (k : JobKind) (priority : Nat) (s : State) :
    (placeWaiting tag n k priority s).pending = s.pending ∧
    (placeWaiting tag n k priority s).held = s.held ∧ (placeWaiting tag n k priority s).part = s.part ∧
    (placeWaiting tag n k priority s).causes = s.causes ∧
    (placeWaiting tag n k priority s).timeBase = s.timeBase ∧
    (placeWaiting tag n k priority s).wallOffset = s.wallOffset ∧
    (placeWaiting tag n k priority s).notices = s.notices ∧
    (placeWaiting tag n k priority s).sync = s.sync ∧ (placeWaiting tag n k priority s).seq = s.seq ∧
    (placeWaiting tag n k priority s).pool = s.pool ∧ (placeWaiting tag n k priority s).pau = s.pau ∧
    (placeWaiting tag n k priority s).mem = s.mem ∧ (placeWaiting tag n k priority s).table = s.table ∧
    (placeWaiting tag n k priority s).rolls = s.rolls ∧
    (placeWaiting tag n k priority s).recipes = s.recipes ∧
    (placeWaiting tag n k priority s).dark = s.dark ∧ (placeWaiting tag n k priority s).cache = s.cache ∧
    (placeWaiting tag n k priority s).card = s.card ∧ (placeWaiting tag n k priority s).free = s.free := by
  unfold placeWaiting
  try dsimp only
  repeat' split
  all_goals simp

@[simp] theorem placeAndAnswer_keeps (tag n : Nat) (k : JobKind) (priority : Nat) (s : State) :
    (placeAndAnswer tag n k priority s).pending = s.pending ∧
    (placeAndAnswer tag n k priority s).held = s.held ∧ (placeAndAnswer tag n k priority s).part = s.part ∧
    (placeAndAnswer tag n k priority s).causes = s.causes ∧
    (placeAndAnswer tag n k priority s).timeBase = s.timeBase ∧
    (placeAndAnswer tag n k priority s).wallOffset = s.wallOffset ∧
    (placeAndAnswer tag n k priority s).notices = s.notices ∧
    (placeAndAnswer tag n k priority s).sync = s.sync ∧ (placeAndAnswer tag n k priority s).seq = s.seq ∧
    (placeAndAnswer tag n k priority s).pool = s.pool ∧ (placeAndAnswer tag n k priority s).pau = s.pau ∧
    (placeAndAnswer tag n k priority s).mem = s.mem ∧ (placeAndAnswer tag n k priority s).table = s.table ∧
    (placeAndAnswer tag n k priority s).rolls = s.rolls ∧
    (placeAndAnswer tag n k priority s).recipes = s.recipes ∧
    (placeAndAnswer tag n k priority s).dark = s.dark ∧
    (placeAndAnswer tag n k priority s).cache = s.cache ∧
    (placeAndAnswer tag n k priority s).card = s.card ∧
    (placeAndAnswer tag n k priority s).free = s.free := by
  unfold placeAndAnswer
  try dsimp only
  repeat' split
  all_goals simp

@[simp] theorem developResident_keeps (tag : Nat) (k : JobKind) (priority : Nat) (r : Record) (s : State) :
    (developResident tag k priority r s).pending = s.pending ∧
    (developResident tag k priority r s).held = s.held ∧
    (developResident tag k priority r s).part = s.part ∧
    (developResident tag k priority r s).causes = s.causes ∧
    (developResident tag k priority r s).timeBase = s.timeBase ∧
    (developResident tag k priority r s).wallOffset = s.wallOffset ∧
    (developResident tag k priority r s).sync = s.sync ∧ (developResident tag k priority r s).pau = s.pau ∧
    (developResident tag k priority r s).mem = s.mem ∧
    (developResident tag k priority r s).rolls = s.rolls ∧
    (developResident tag k priority r s).recipes = s.recipes ∧
    (developResident tag k priority r s).free = s.free := by
  unfold developResident
  try dsimp only
  repeat' split
  all_goals simp

@[simp] theorem previewHit_keeps (tag i : Nat) (s : State) :
    (previewHit tag i s).pending = s.pending ∧ (previewHit tag i s).held = s.held ∧
    (previewHit tag i s).part = s.part ∧ (previewHit tag i s).causes = s.causes ∧
    (previewHit tag i s).timeBase = s.timeBase ∧ (previewHit tag i s).wallOffset = s.wallOffset ∧
    (previewHit tag i s).notices = s.notices ∧ (previewHit tag i s).sync = s.sync ∧
    (previewHit tag i s).seq = s.seq ∧ (previewHit tag i s).pau = s.pau ∧ (previewHit tag i s).mem = s.mem ∧
    (previewHit tag i s).table = s.table ∧ (previewHit tag i s).rolls = s.rolls ∧
    (previewHit tag i s).recipes = s.recipes ∧ (previewHit tag i s).dark = s.dark ∧
    (previewHit tag i s).dev = s.dev ∧ (previewHit tag i s).card = s.card ∧
    (previewHit tag i s).free = s.free := by
  unfold previewHit
  try dsimp only
  repeat' split
  all_goals simp

@[simp] theorem getResident_keeps (tag : Nat) (r : Record) (s : State) :
    (getResident tag r s).pending = s.pending ∧ (getResident tag r s).held = s.held ∧
    (getResident tag r s).part = s.part ∧ (getResident tag r s).causes = s.causes ∧
    (getResident tag r s).timeBase = s.timeBase ∧ (getResident tag r s).wallOffset = s.wallOffset ∧
    (getResident tag r s).sync = s.sync ∧ (getResident tag r s).pau = s.pau ∧
    (getResident tag r s).mem = s.mem ∧ (getResident tag r s).rolls = s.rolls ∧
    (getResident tag r s).recipes = s.recipes ∧ (getResident tag r s).free = s.free := by
  unfold getResident
  try dsimp only
  repeat' split
  all_goals simp

@[simp] theorem getAbsent_keeps (tag n : Nat) (s : State) :
    (getAbsent tag n s).pending = s.pending ∧ (getAbsent tag n s).held = s.held ∧
    (getAbsent tag n s).part = s.part ∧ (getAbsent tag n s).causes = s.causes ∧
    (getAbsent tag n s).timeBase = s.timeBase ∧ (getAbsent tag n s).wallOffset = s.wallOffset ∧
    (getAbsent tag n s).notices = s.notices ∧ (getAbsent tag n s).sync = s.sync ∧
    (getAbsent tag n s).seq = s.seq ∧ (getAbsent tag n s).pau = s.pau ∧ (getAbsent tag n s).mem = s.mem ∧
    (getAbsent tag n s).table = s.table ∧ (getAbsent tag n s).rolls = s.rolls ∧
    (getAbsent tag n s).recipes = s.recipes ∧ (getAbsent tag n s).dark = s.dark ∧
    (getAbsent tag n s).dev = s.dev ∧ (getAbsent tag n s).card = s.card ∧
    (getAbsent tag n s).free = s.free := by
  unfold getAbsent
  try dsimp only
  repeat' split
  all_goals simp

@[simp] theorem readPinned_keeps (tag slot offset length : Nat) (x : PreviewSlot) (s : State) :
    (readPinned tag slot offset length x s).pending = s.pending ∧
    (readPinned tag slot offset length x s).held = s.held ∧
    (readPinned tag slot offset length x s).part = s.part ∧
    (readPinned tag slot offset length x s).causes = s.causes ∧
    (readPinned tag slot offset length x s).timeBase = s.timeBase ∧
    (readPinned tag slot offset length x s).wallOffset = s.wallOffset ∧
    (readPinned tag slot offset length x s).notices = s.notices ∧
    (readPinned tag slot offset length x s).sync = s.sync ∧
    (readPinned tag slot offset length x s).seq = s.seq ∧
    (readPinned tag slot offset length x s).pool = s.pool ∧
    (readPinned tag slot offset length x s).pau = s.pau ∧
    (readPinned tag slot offset length x s).mem = s.mem ∧
    (readPinned tag slot offset length x s).table = s.table ∧
    (readPinned tag slot offset length x s).rolls = s.rolls ∧
    (readPinned tag slot offset length x s).recipes = s.recipes ∧
    (readPinned tag slot offset length x s).dark = s.dark ∧
    (readPinned tag slot offset length x s).dev = s.dev ∧
    (readPinned tag slot offset length x s).cache = s.cache ∧
    (readPinned tag slot offset length x s).card = s.card ∧
    (readPinned tag slot offset length x s).free = s.free := by
  unfold readPinned
  try dsimp only
  repeat' split
  all_goals simp

@[simp] theorem unpin_keeps (i : Nat) (s : State) :
    (unpin i s).pending = s.pending ∧ (unpin i s).held = s.held ∧ (unpin i s).part = s.part ∧
    (unpin i s).causes = s.causes ∧ (unpin i s).timeBase = s.timeBase ∧
    (unpin i s).wallOffset = s.wallOffset ∧ (unpin i s).link = s.link ∧ (unpin i s).notices = s.notices ∧
    (unpin i s).sync = s.sync ∧ (unpin i s).seq = s.seq ∧ (unpin i s).pool = s.pool ∧
    (unpin i s).pau = s.pau ∧ (unpin i s).mem = s.mem ∧ (unpin i s).table = s.table ∧
    (unpin i s).rolls = s.rolls ∧ (unpin i s).recipes = s.recipes ∧ (unpin i s).dark = s.dark ∧
    (unpin i s).dev = s.dev ∧ (unpin i s).card = s.card ∧ (unpin i s).free = s.free := by
  unfold unpin
  try dsimp only
  repeat' split
  all_goals simp

@[simp] theorem clearKind_keeps (i : Nat) (s : State) :
    (clearKind i s).pending = s.pending ∧ (clearKind i s).held = s.held ∧ (clearKind i s).part = s.part ∧
    (clearKind i s).causes = s.causes ∧ (clearKind i s).timeBase = s.timeBase ∧
    (clearKind i s).wallOffset = s.wallOffset ∧ (clearKind i s).link = s.link ∧
    (clearKind i s).sync = s.sync ∧ (clearKind i s).seq = s.seq ∧ (clearKind i s).pool = s.pool ∧
    (clearKind i s).pau = s.pau ∧ (clearKind i s).mem = s.mem ∧ (clearKind i s).table = s.table ∧
    (clearKind i s).rolls = s.rolls ∧ (clearKind i s).recipes = s.recipes ∧ (clearKind i s).dark = s.dark ∧
    (clearKind i s).dev = s.dev ∧ (clearKind i s).cache = s.cache ∧ (clearKind i s).card = s.card ∧
    (clearKind i s).free = s.free := by
  unfold clearKind
  simp

@[simp] theorem setLevels_keeps (levels : List (Option Nat)) (floor : Option Nat) (s : State) :
    (setLevels levels floor s).pending = s.pending ∧ (setLevels levels floor s).held = s.held ∧
    (setLevels levels floor s).part = s.part ∧ (setLevels levels floor s).causes = s.causes ∧
    (setLevels levels floor s).timeBase = s.timeBase ∧
    (setLevels levels floor s).wallOffset = s.wallOffset ∧ (setLevels levels floor s).link = s.link ∧
    (setLevels levels floor s).sync = s.sync ∧ (setLevels levels floor s).seq = s.seq ∧
    (setLevels levels floor s).pool = s.pool ∧ (setLevels levels floor s).pau = s.pau ∧
    (setLevels levels floor s).mem = s.mem ∧ (setLevels levels floor s).table = s.table ∧
    (setLevels levels floor s).rolls = s.rolls ∧ (setLevels levels floor s).recipes = s.recipes ∧
    (setLevels levels floor s).dark = s.dark ∧ (setLevels levels floor s).dev = s.dev ∧
    (setLevels levels floor s).cache = s.cache ∧ (setLevels levels floor s).card = s.card ∧
    (setLevels levels floor s).free = s.free := by
  unfold setLevels
  simp

@[simp] theorem holdInReset_keeps (s : State) :
    (holdInReset s).pending = s.pending ∧ (holdInReset s).part = s.part ∧
    (holdInReset s).causes = s.causes ∧ (holdInReset s).timeBase = s.timeBase ∧
    (holdInReset s).wallOffset = s.wallOffset ∧ (holdInReset s).link = s.link ∧
    (holdInReset s).notices = s.notices ∧ (holdInReset s).sync = s.sync ∧ (holdInReset s).seq = s.seq ∧
    (holdInReset s).pool = s.pool ∧ (holdInReset s).pau = s.pau ∧ (holdInReset s).mem = s.mem ∧
    (holdInReset s).table = s.table ∧ (holdInReset s).rolls = s.rolls ∧
    (holdInReset s).recipes = s.recipes ∧ (holdInReset s).dark = s.dark ∧ (holdInReset s).dev = s.dev ∧
    (holdInReset s).cache = s.cache ∧ (holdInReset s).card = s.card ∧ (holdInReset s).free = s.free := by
  unfold holdInReset
  simp

@[simp] theorem endReset_keeps (release xsync aux : PinLevel) (card : Bool) (causes : Causes) (mem : Memory) (s : State) :
    (endReset release xsync aux card causes mem s).pending = s.pending ∧
    (endReset release xsync aux card causes mem s).free = s.free := by
  unfold endReset State.afterReset
  simp

@[simp] theorem clearInternal_keeps (s : State) :
    (clearInternal s).pending = s.pending ∧ (clearInternal s).held = s.held ∧
    (clearInternal s).part = s.part ∧ (clearInternal s).causes = s.causes ∧
    (clearInternal s).timeBase = s.timeBase ∧ (clearInternal s).wallOffset = s.wallOffset ∧
    (clearInternal s).link = s.link ∧ (clearInternal s).notices = s.notices ∧
    (clearInternal s).sync = s.sync ∧ (clearInternal s).seq = s.seq ∧ (clearInternal s).pool = s.pool ∧
    (clearInternal s).pau = s.pau ∧ (clearInternal s).table = s.table ∧ (clearInternal s).rolls = s.rolls ∧
    (clearInternal s).recipes = s.recipes ∧ (clearInternal s).dark = s.dark ∧
    (clearInternal s).dev = s.dev ∧ (clearInternal s).cache = s.cache ∧ (clearInternal s).card = s.card ∧
    (clearInternal s).free = s.free := by
  unfold clearInternal
  simp

@[simp] theorem stopPau_keeps (s : State) :
    (stopPau s).pending = s.pending ∧ (stopPau s).held = s.held ∧ (stopPau s).part = s.part ∧
    (stopPau s).causes = s.causes ∧ (stopPau s).timeBase = s.timeBase ∧
    (stopPau s).wallOffset = s.wallOffset ∧ (stopPau s).link = s.link ∧ (stopPau s).notices = s.notices ∧
    (stopPau s).sync = s.sync ∧ (stopPau s).seq = s.seq ∧ (stopPau s).pool = s.pool ∧
    (stopPau s).table = s.table ∧ (stopPau s).rolls = s.rolls ∧ (stopPau s).recipes = s.recipes ∧
    (stopPau s).dark = s.dark ∧ (stopPau s).dev = s.dev ∧ (stopPau s).cache = s.cache ∧
    (stopPau s).card = s.card := by
  unfold stopPau
  try dsimp only
  repeat' split
  all_goals simp

@[simp] theorem settleOpen_keeps (s : State) :
    (settleOpen s).pending = s.pending ∧ (settleOpen s).held = s.held ∧ (settleOpen s).part = s.part ∧
    (settleOpen s).causes = s.causes ∧ (settleOpen s).timeBase = s.timeBase ∧
    (settleOpen s).wallOffset = s.wallOffset ∧ (settleOpen s).link = s.link ∧
    (settleOpen s).notices = s.notices ∧ (settleOpen s).sync = s.sync ∧ (settleOpen s).pau = s.pau ∧
    (settleOpen s).mem = s.mem ∧ (settleOpen s).recipes = s.recipes ∧ (settleOpen s).dark = s.dark ∧
    (settleOpen s).dev = s.dev ∧ (settleOpen s).cache = s.cache ∧ (settleOpen s).card = s.card ∧
    (settleOpen s).free = s.free := by
  unfold settleOpen
  try dsimp only
  repeat' split
  all_goals simp

@[simp] theorem restartSequencer_keeps (s : State) :
    (restartSequencer s).pending = s.pending ∧ (restartSequencer s).held = s.held ∧
    (restartSequencer s).part = s.part ∧ (restartSequencer s).causes = s.causes ∧
    (restartSequencer s).timeBase = s.timeBase ∧ (restartSequencer s).wallOffset = s.wallOffset ∧
    (restartSequencer s).link = s.link ∧ (restartSequencer s).sync = s.sync ∧
    (restartSequencer s).pau = s.pau ∧ (restartSequencer s).mem = s.mem ∧
    (restartSequencer s).recipes = s.recipes ∧ (restartSequencer s).cache = s.cache ∧
    (restartSequencer s).card = s.card ∧ (restartSequencer s).free = s.free := by
  unfold restartSequencer
  try dsimp only
  repeat' split
  all_goals simp

@[simp] theorem restartDark_keeps (s : State) :
    (restartDark s).pending = s.pending ∧ (restartDark s).held = s.held ∧ (restartDark s).part = s.part ∧
    (restartDark s).causes = s.causes ∧ (restartDark s).timeBase = s.timeBase ∧
    (restartDark s).wallOffset = s.wallOffset ∧ (restartDark s).link = s.link ∧
    (restartDark s).sync = s.sync ∧ (restartDark s).seq = s.seq ∧ (restartDark s).pau = s.pau ∧
    (restartDark s).mem = s.mem ∧ (restartDark s).rolls = s.rolls ∧ (restartDark s).recipes = s.recipes ∧
    (restartDark s).dev = s.dev ∧ (restartDark s).cache = s.cache ∧ (restartDark s).card = s.card ∧
    (restartDark s).free = s.free := by
  unfold restartDark
  simp

@[simp] theorem restartDev_keeps (s : State) :
    (restartDev s).pending = s.pending ∧ (restartDev s).held = s.held ∧ (restartDev s).part = s.part ∧
    (restartDev s).causes = s.causes ∧ (restartDev s).timeBase = s.timeBase ∧
    (restartDev s).wallOffset = s.wallOffset ∧ (restartDev s).link = s.link ∧
    (restartDev s).notices = s.notices ∧ (restartDev s).sync = s.sync ∧ (restartDev s).seq = s.seq ∧
    (restartDev s).pau = s.pau ∧ (restartDev s).mem = s.mem ∧ (restartDev s).rolls = s.rolls ∧
    (restartDev s).recipes = s.recipes ∧ (restartDev s).dark = s.dark ∧ (restartDev s).card = s.card ∧
    (restartDev s).free = s.free := by
  unfold restartDev
  simp

@[simp] theorem discardRecord_keeps (s : State) (n : Nat) :
    (discardRecord s n).pending = s.pending ∧ (discardRecord s n).held = s.held ∧
    (discardRecord s n).part = s.part ∧ (discardRecord s n).causes = s.causes ∧
    (discardRecord s n).timeBase = s.timeBase ∧ (discardRecord s n).wallOffset = s.wallOffset ∧
    (discardRecord s n).link = s.link ∧ (discardRecord s n).notices = s.notices ∧
    (discardRecord s n).sync = s.sync ∧ (discardRecord s n).seq = s.seq ∧
    (discardRecord s n).pau = s.pau ∧ (discardRecord s n).mem = s.mem ∧
    (discardRecord s n).rolls = s.rolls ∧ (discardRecord s n).recipes = s.recipes ∧
    (discardRecord s n).dark = s.dark ∧ (discardRecord s n).dev = s.dev ∧
    (discardRecord s n).cache = s.cache ∧ (discardRecord s n).free = s.free := by
  unfold discardRecord
  simp

@[simp] theorem discardLoads_keeps (s : State) :
    (discardLoads s).pending = s.pending ∧ (discardLoads s).held = s.held ∧ (discardLoads s).part = s.part ∧
    (discardLoads s).causes = s.causes ∧ (discardLoads s).timeBase = s.timeBase ∧
    (discardLoads s).wallOffset = s.wallOffset ∧ (discardLoads s).link = s.link ∧
    (discardLoads s).notices = s.notices ∧ (discardLoads s).sync = s.sync ∧ (discardLoads s).seq = s.seq ∧
    (discardLoads s).pool = s.pool ∧ (discardLoads s).pau = s.pau ∧ (discardLoads s).mem = s.mem ∧
    (discardLoads s).rolls = s.rolls ∧ (discardLoads s).recipes = s.recipes ∧
    (discardLoads s).dark = s.dark ∧ (discardLoads s).dev = s.dev ∧ (discardLoads s).cache = s.cache ∧
    (discardLoads s).card = s.card ∧ (discardLoads s).free = s.free := by
  unfold discardLoads
  simp

@[simp] theorem restartCardWork_keeps (s : State) :
    (restartCardWork s).pending = s.pending ∧ (restartCardWork s).held = s.held ∧
    (restartCardWork s).part = s.part ∧ (restartCardWork s).causes = s.causes ∧
    (restartCardWork s).timeBase = s.timeBase ∧ (restartCardWork s).wallOffset = s.wallOffset ∧
    (restartCardWork s).link = s.link ∧ (restartCardWork s).notices = s.notices ∧
    (restartCardWork s).sync = s.sync ∧ (restartCardWork s).seq = s.seq ∧
    (restartCardWork s).pau = s.pau ∧ (restartCardWork s).mem = s.mem ∧
    (restartCardWork s).rolls = s.rolls ∧ (restartCardWork s).recipes = s.recipes ∧
    (restartCardWork s).dark = s.dark ∧ (restartCardWork s).dev = s.dev ∧
    (restartCardWork s).cache = s.cache ∧ (restartCardWork s).free = s.free := by
  unfold restartCardWork
  simp

@[simp] theorem waitHandoffs_keeps (s : State) :
    (waitHandoffs s).pending = s.pending ∧ (waitHandoffs s).held = s.held ∧ (waitHandoffs s).part = s.part ∧
    (waitHandoffs s).causes = s.causes ∧ (waitHandoffs s).timeBase = s.timeBase ∧
    (waitHandoffs s).wallOffset = s.wallOffset ∧ (waitHandoffs s).link = s.link ∧
    (waitHandoffs s).notices = s.notices ∧ (waitHandoffs s).sync = s.sync ∧ (waitHandoffs s).seq = s.seq ∧
    (waitHandoffs s).pool = s.pool ∧ (waitHandoffs s).pau = s.pau ∧ (waitHandoffs s).mem = s.mem ∧
    (waitHandoffs s).table = s.table ∧ (waitHandoffs s).rolls = s.rolls ∧
    (waitHandoffs s).recipes = s.recipes ∧ (waitHandoffs s).dark = s.dark ∧ (waitHandoffs s).dev = s.dev ∧
    (waitHandoffs s).cache = s.cache ∧ (waitHandoffs s).free = s.free := by
  unfold waitHandoffs
  simp

@[simp] theorem restartCard_keeps (s : State) :
    (restartCard s).pending = s.pending ∧ (restartCard s).held = s.held ∧ (restartCard s).part = s.part ∧
    (restartCard s).causes = s.causes ∧ (restartCard s).timeBase = s.timeBase ∧
    (restartCard s).wallOffset = s.wallOffset ∧ (restartCard s).sync = s.sync ∧
    (restartCard s).seq = s.seq ∧ (restartCard s).pau = s.pau ∧ (restartCard s).mem = s.mem ∧
    (restartCard s).rolls = s.rolls ∧ (restartCard s).recipes = s.recipes ∧ (restartCard s).dark = s.dark ∧
    (restartCard s).free = s.free := by
  unfold restartCard
  simp

@[simp] theorem restartMount_keeps (s : State) :
    (restartMount s).pending = s.pending ∧ (restartMount s).held = s.held ∧ (restartMount s).part = s.part ∧
    (restartMount s).causes = s.causes ∧ (restartMount s).timeBase = s.timeBase ∧
    (restartMount s).wallOffset = s.wallOffset ∧ (restartMount s).link = s.link ∧
    (restartMount s).notices = s.notices ∧ (restartMount s).sync = s.sync ∧ (restartMount s).seq = s.seq ∧
    (restartMount s).pool = s.pool ∧ (restartMount s).pau = s.pau ∧ (restartMount s).mem = s.mem ∧
    (restartMount s).table = s.table ∧ (restartMount s).rolls = s.rolls ∧
    (restartMount s).recipes = s.recipes ∧ (restartMount s).dark = s.dark ∧ (restartMount s).dev = s.dev ∧
    (restartMount s).cache = s.cache ∧ (restartMount s).free = s.free := by
  unfold restartMount
  try dsimp only
  repeat' split
  all_goals simp

@[simp] theorem replaceRunning_keeps (q : Option (PauRequest × Nat)) (s : State) :
    (replaceRunning q s).pending = s.pending ∧ (replaceRunning q s).held = s.held ∧
    (replaceRunning q s).part = s.part ∧ (replaceRunning q s).causes = s.causes ∧
    (replaceRunning q s).timeBase = s.timeBase ∧ (replaceRunning q s).wallOffset = s.wallOffset ∧
    (replaceRunning q s).link = s.link ∧ (replaceRunning q s).notices = s.notices ∧
    (replaceRunning q s).sync = s.sync ∧ (replaceRunning q s).seq = s.seq ∧
    (replaceRunning q s).pool = s.pool ∧ (replaceRunning q s).mem = s.mem ∧
    (replaceRunning q s).table = s.table ∧ (replaceRunning q s).rolls = s.rolls ∧
    (replaceRunning q s).recipes = s.recipes ∧ (replaceRunning q s).dark = s.dark ∧
    (replaceRunning q s).dev = s.dev ∧ (replaceRunning q s).cache = s.cache ∧
    (replaceRunning q s).card = s.card ∧ (replaceRunning q s).free = s.free := by
  unfold replaceRunning
  try dsimp only
  repeat' split
  all_goals simp

@[simp] theorem replaceRequest_keeps (s : State) (n : Nat) :
    (replaceRequest s n).pending = s.pending ∧ (replaceRequest s n).held = s.held ∧
    (replaceRequest s n).part = s.part ∧ (replaceRequest s n).causes = s.causes ∧
    (replaceRequest s n).timeBase = s.timeBase ∧ (replaceRequest s n).wallOffset = s.wallOffset ∧
    (replaceRequest s n).link = s.link ∧ (replaceRequest s n).notices = s.notices ∧
    (replaceRequest s n).sync = s.sync ∧ (replaceRequest s n).seq = s.seq ∧
    (replaceRequest s n).pool = s.pool ∧ (replaceRequest s n).mem = s.mem ∧
    (replaceRequest s n).table = s.table ∧ (replaceRequest s n).rolls = s.rolls ∧
    (replaceRequest s n).recipes = s.recipes ∧ (replaceRequest s n).dark = s.dark ∧
    (replaceRequest s n).dev = s.dev ∧ (replaceRequest s n).cache = s.cache ∧
    (replaceRequest s n).card = s.card ∧ (replaceRequest s n).free = s.free := by
  unfold replaceRequest
  try dsimp only
  repeat' split
  all_goals simp

@[simp] theorem replacePau_keeps (q : Option (PauRequest × Nat)) (s : State) :
    (replacePau q s).pending = s.pending ∧ (replacePau q s).held = s.held ∧ (replacePau q s).part = s.part ∧
    (replacePau q s).causes = s.causes ∧ (replacePau q s).timeBase = s.timeBase ∧
    (replacePau q s).wallOffset = s.wallOffset ∧ (replacePau q s).link = s.link ∧
    (replacePau q s).notices = s.notices ∧ (replacePau q s).sync = s.sync ∧ (replacePau q s).seq = s.seq ∧
    (replacePau q s).pool = s.pool ∧ (replacePau q s).mem = s.mem ∧ (replacePau q s).table = s.table ∧
    (replacePau q s).rolls = s.rolls ∧ (replacePau q s).recipes = s.recipes ∧
    (replacePau q s).dark = s.dark ∧ (replacePau q s).dev = s.dev ∧ (replacePau q s).cache = s.cache ∧
    (replacePau q s).card = s.card ∧ (replacePau q s).free = s.free := by
  unfold replacePau
  simp

@[simp] theorem clearNotices_keeps (s : State) :
    (clearNotices s).pending = s.pending ∧ (clearNotices s).held = s.held ∧ (clearNotices s).part = s.part ∧
    (clearNotices s).causes = s.causes ∧ (clearNotices s).timeBase = s.timeBase ∧
    (clearNotices s).wallOffset = s.wallOffset ∧ (clearNotices s).link = s.link ∧
    (clearNotices s).sync = s.sync ∧ (clearNotices s).seq = s.seq ∧ (clearNotices s).pool = s.pool ∧
    (clearNotices s).pau = s.pau ∧ (clearNotices s).mem = s.mem ∧ (clearNotices s).table = s.table ∧
    (clearNotices s).rolls = s.rolls ∧ (clearNotices s).recipes = s.recipes ∧
    (clearNotices s).dark = s.dark ∧ (clearNotices s).dev = s.dev ∧ (clearNotices s).cache = s.cache ∧
    (clearNotices s).card = s.card ∧ (clearNotices s).free = s.free := by
  unfold clearNotices
  simp

@[simp] theorem restartLink_keeps (tag : Nat) (causes : Causes) (s : State) :
    (restartLink tag causes s).pending = s.pending ∧ (restartLink tag causes s).part = s.part ∧
    (restartLink tag causes s).causes = s.causes ∧ (restartLink tag causes s).timeBase = s.timeBase ∧
    (restartLink tag causes s).wallOffset = s.wallOffset ∧ (restartLink tag causes s).notices = s.notices ∧
    (restartLink tag causes s).sync = s.sync ∧ (restartLink tag causes s).seq = s.seq ∧
    (restartLink tag causes s).pool = s.pool ∧ (restartLink tag causes s).pau = s.pau ∧
    (restartLink tag causes s).mem = s.mem ∧ (restartLink tag causes s).table = s.table ∧
    (restartLink tag causes s).rolls = s.rolls ∧ (restartLink tag causes s).recipes = s.recipes ∧
    (restartLink tag causes s).dark = s.dark ∧ (restartLink tag causes s).dev = s.dev ∧
    (restartLink tag causes s).cache = s.cache ∧ (restartLink tag causes s).card = s.card ∧
    (restartLink tag causes s).free = s.free := by
  unfold restartLink
  simp

@[simp] theorem restartBlocks_keeps (s : State) :
    (restartBlocks s).pending = s.pending ∧ (restartBlocks s).held = s.held ∧
    (restartBlocks s).part = s.part ∧ (restartBlocks s).causes = s.causes ∧
    (restartBlocks s).timeBase = s.timeBase ∧ (restartBlocks s).wallOffset = s.wallOffset ∧
    (restartBlocks s).link = s.link ∧ (restartBlocks s).sync = s.sync ∧
    (restartBlocks s).recipes = s.recipes ∧ (restartBlocks s).card = s.card := by
  unfold restartBlocks
  simp

@[simp] theorem restartStores_keeps (s : State) :
    (restartStores s).pending = s.pending ∧ (restartStores s).held = s.held ∧
    (restartStores s).part = s.part ∧ (restartStores s).causes = s.causes ∧
    (restartStores s).timeBase = s.timeBase ∧ (restartStores s).wallOffset = s.wallOffset ∧
    (restartStores s).seq = s.seq ∧ (restartStores s).pau = s.pau ∧ (restartStores s).mem = s.mem ∧
    (restartStores s).rolls = s.rolls ∧ (restartStores s).recipes = s.recipes ∧
    (restartStores s).dark = s.dark ∧ (restartStores s).free = s.free := by
  unfold restartStores
  simp

@[simp] theorem restartEnds_keeps (s : State) :
    (restartEnds s).pending = s.pending ∧ (restartEnds s).held = s.held ∧
    (restartEnds s).causes = s.causes ∧ (restartEnds s).timeBase = s.timeBase ∧
    (restartEnds s).wallOffset = s.wallOffset ∧ (restartEnds s).sync = s.sync ∧
    (restartEnds s).mem = s.mem ∧ (restartEnds s).rolls = s.rolls ∧ (restartEnds s).recipes = s.recipes ∧
    (restartEnds s).free = s.free := by
  unfold restartEnds
  try dsimp only
  repeat' split
  all_goals simp

@[simp] theorem restartPart_keeps (tag : Nat) (s : State) :
    (restartPart tag s).pending = s.pending ∧ (restartPart tag s).timeBase = s.timeBase ∧
    (restartPart tag s).wallOffset = s.wallOffset ∧ (restartPart tag s).recipes = s.recipes := by
  unfold restartPart
  simp

@[simp] theorem deselect_keeps (s : State) :
    (deselect s).pending = s.pending ∧ (deselect s).held = s.held ∧ (deselect s).part = s.part ∧
    (deselect s).causes = s.causes ∧ (deselect s).timeBase = s.timeBase ∧
    (deselect s).wallOffset = s.wallOffset ∧ (deselect s).notices = s.notices ∧ (deselect s).sync = s.sync ∧
    (deselect s).seq = s.seq ∧ (deselect s).pool = s.pool ∧ (deselect s).pau = s.pau ∧
    (deselect s).mem = s.mem ∧ (deselect s).table = s.table ∧ (deselect s).rolls = s.rolls ∧
    (deselect s).recipes = s.recipes ∧ (deselect s).dark = s.dark ∧ (deselect s).dev = s.dev ∧
    (deselect s).cache = s.cache ∧ (deselect s).card = s.card ∧ (deselect s).free = s.free := by
  unfold deselect
  simp

@[simp] theorem refusalLeaves_keeps (s : State) :
    (refusalLeaves s).pending = s.pending ∧ (refusalLeaves s).held = s.held ∧
    (refusalLeaves s).part = s.part ∧ (refusalLeaves s).causes = s.causes ∧
    (refusalLeaves s).timeBase = s.timeBase ∧ (refusalLeaves s).wallOffset = s.wallOffset ∧
    (refusalLeaves s).notices = s.notices ∧ (refusalLeaves s).sync = s.sync ∧
    (refusalLeaves s).seq = s.seq ∧ (refusalLeaves s).pool = s.pool ∧ (refusalLeaves s).pau = s.pau ∧
    (refusalLeaves s).mem = s.mem ∧ (refusalLeaves s).table = s.table ∧ (refusalLeaves s).rolls = s.rolls ∧
    (refusalLeaves s).recipes = s.recipes ∧ (refusalLeaves s).dark = s.dark ∧
    (refusalLeaves s).dev = s.dev ∧ (refusalLeaves s).cache = s.cache ∧ (refusalLeaves s).card = s.card ∧
    (refusalLeaves s).free = s.free := by
  unfold refusalLeaves
  simp

@[simp] theorem headLeaves_keeps (s : State) :
    (headLeaves s).pending = s.pending ∧ (headLeaves s).part = s.part ∧ (headLeaves s).causes = s.causes ∧
    (headLeaves s).timeBase = s.timeBase ∧ (headLeaves s).wallOffset = s.wallOffset ∧
    (headLeaves s).notices = s.notices ∧ (headLeaves s).sync = s.sync ∧ (headLeaves s).seq = s.seq ∧
    (headLeaves s).pool = s.pool ∧ (headLeaves s).pau = s.pau ∧ (headLeaves s).mem = s.mem ∧
    (headLeaves s).table = s.table ∧ (headLeaves s).rolls = s.rolls ∧ (headLeaves s).recipes = s.recipes ∧
    (headLeaves s).dark = s.dark ∧ (headLeaves s).dev = s.dev ∧ (headLeaves s).cache = s.cache ∧
    (headLeaves s).card = s.card ∧ (headLeaves s).free = s.free := by
  unfold headLeaves
  try dsimp only
  repeat' split
  all_goals simp

@[simp] theorem sentLeaves_keeps (s : State) :
    (sentLeaves s).pending = s.pending ∧ (sentLeaves s).part = s.part ∧ (sentLeaves s).causes = s.causes ∧
    (sentLeaves s).timeBase = s.timeBase ∧ (sentLeaves s).wallOffset = s.wallOffset ∧
    (sentLeaves s).notices = s.notices ∧ (sentLeaves s).sync = s.sync ∧ (sentLeaves s).seq = s.seq ∧
    (sentLeaves s).pool = s.pool ∧ (sentLeaves s).pau = s.pau ∧ (sentLeaves s).mem = s.mem ∧
    (sentLeaves s).table = s.table ∧ (sentLeaves s).rolls = s.rolls ∧ (sentLeaves s).recipes = s.recipes ∧
    (sentLeaves s).dark = s.dark ∧ (sentLeaves s).dev = s.dev ∧ (sentLeaves s).cache = s.cache ∧
    (sentLeaves s).card = s.card ∧ (sentLeaves s).free = s.free := by
  unfold sentLeaves
  try dsimp only
  repeat' split
  all_goals simp

@[simp] theorem shiftOut_keeps (s : State) :
    (shiftOut s).pending = s.pending ∧ (shiftOut s).part = s.part ∧ (shiftOut s).causes = s.causes ∧
    (shiftOut s).timeBase = s.timeBase ∧ (shiftOut s).wallOffset = s.wallOffset ∧
    (shiftOut s).notices = s.notices ∧ (shiftOut s).sync = s.sync ∧ (shiftOut s).seq = s.seq ∧
    (shiftOut s).pool = s.pool ∧ (shiftOut s).pau = s.pau ∧ (shiftOut s).mem = s.mem ∧
    (shiftOut s).table = s.table ∧ (shiftOut s).rolls = s.rolls ∧ (shiftOut s).recipes = s.recipes ∧
    (shiftOut s).dark = s.dark ∧ (shiftOut s).dev = s.dev ∧ (shiftOut s).cache = s.cache ∧
    (shiftOut s).card = s.card ∧ (shiftOut s).free = s.free := by
  unfold shiftOut
  try dsimp only
  repeat' split
  all_goals simp

@[simp] theorem setFramer_keeps (f : Framer) (bytes : List Byte) (s : State) :
    (setFramer f bytes s).pending = s.pending ∧ (setFramer f bytes s).held = s.held ∧
    (setFramer f bytes s).part = s.part ∧ (setFramer f bytes s).causes = s.causes ∧
    (setFramer f bytes s).timeBase = s.timeBase ∧ (setFramer f bytes s).wallOffset = s.wallOffset ∧
    (setFramer f bytes s).notices = s.notices ∧ (setFramer f bytes s).sync = s.sync ∧
    (setFramer f bytes s).seq = s.seq ∧ (setFramer f bytes s).pool = s.pool ∧
    (setFramer f bytes s).pau = s.pau ∧ (setFramer f bytes s).mem = s.mem ∧
    (setFramer f bytes s).table = s.table ∧ (setFramer f bytes s).rolls = s.rolls ∧
    (setFramer f bytes s).recipes = s.recipes ∧ (setFramer f bytes s).dark = s.dark ∧
    (setFramer f bytes s).dev = s.dev ∧ (setFramer f bytes s).cache = s.cache ∧
    (setFramer f bytes s).card = s.card ∧ (setFramer f bytes s).free = s.free := by
  unfold setFramer
  simp

@[simp] theorem headerByte_keeps (bytes : List Byte) (s : State) :
    (headerByte bytes s).pending = s.pending ∧ (headerByte bytes s).held = s.held ∧
    (headerByte bytes s).part = s.part ∧ (headerByte bytes s).causes = s.causes ∧
    (headerByte bytes s).timeBase = s.timeBase ∧ (headerByte bytes s).wallOffset = s.wallOffset ∧
    (headerByte bytes s).sync = s.sync ∧ (headerByte bytes s).seq = s.seq ∧
    (headerByte bytes s).pool = s.pool ∧ (headerByte bytes s).pau = s.pau ∧
    (headerByte bytes s).mem = s.mem ∧ (headerByte bytes s).table = s.table ∧
    (headerByte bytes s).rolls = s.rolls ∧ (headerByte bytes s).recipes = s.recipes ∧
    (headerByte bytes s).dark = s.dark ∧ (headerByte bytes s).dev = s.dev ∧
    (headerByte bytes s).cache = s.cache ∧ (headerByte bytes s).card = s.card ∧
    (headerByte bytes s).free = s.free := by
  unfold headerByte
  try dsimp only
  repeat' split
  all_goals simp

@[simp] theorem operandByte_keeps (bytes : List Byte) (s : State) :
    (operandByte bytes s).pending = s.pending ∧ (operandByte bytes s).held = s.held ∧
    (operandByte bytes s).part = s.part ∧ (operandByte bytes s).causes = s.causes ∧
    (operandByte bytes s).timeBase = s.timeBase ∧ (operandByte bytes s).wallOffset = s.wallOffset ∧
    (operandByte bytes s).notices = s.notices ∧ (operandByte bytes s).sync = s.sync ∧
    (operandByte bytes s).seq = s.seq ∧ (operandByte bytes s).pool = s.pool ∧
    (operandByte bytes s).pau = s.pau ∧ (operandByte bytes s).mem = s.mem ∧
    (operandByte bytes s).table = s.table ∧ (operandByte bytes s).rolls = s.rolls ∧
    (operandByte bytes s).recipes = s.recipes ∧ (operandByte bytes s).dark = s.dark ∧
    (operandByte bytes s).dev = s.dev ∧ (operandByte bytes s).cache = s.cache ∧
    (operandByte bytes s).card = s.card ∧ (operandByte bytes s).free = s.free := by
  unfold operandByte
  try dsimp only
  repeat' split
  all_goals simp

end Sys2Proof.Machine
end

