-- ==== Sys2Proof/Laws/Layout.lean ====
section
/-! SUPPORT. A block that the part builds is 512 bytes with a good check code (Section 9.13). -/

namespace Sys2Proof.Machine

@[simp] theorem length_beBytes (n v : Nat) : (beBytes n v).length = n := by
  induction n with
  | zero => rfl
  | succ k ih => simp [beBytes, ih]

@[simp] theorem length_padTo (n : Nat) (bs : List Byte) : (padTo n bs).length = n := by
  simp only [padTo, List.length_take, List.length_append, List.length_replicate]
  omega

@[simp] theorem length_sealBlock (bs : List Byte) : (sealBlock bs).length = 512 := by
  simp [sealBlock, crcBytes]

/-- A sealed block carries its own check code (R170). -/
@[simp] theorem blockCrcGood_sealBlock (bs : List Byte) : blockCrcGood (sealBlock bs) = true := by
  have hl : (padTo 510 bs).length = 510 := length_padTo _ _
  simp [blockCrcGood, sealBlock, slice, List.take_append, List.drop_append, hl, crcBytes]

/-- A sealed block is LIVE, or EMPTY, by its first byte alone (R147). -/
theorem entryLive_sealBlock (bs : List Byte) : entryLive (sealBlock bs) = (field (sealBlock bs) 0 1 == 1) := by
  simp [entryLive]

theorem entryEmpty_sealBlock (bs : List Byte) : entryEmpty (sealBlock bs) = (field (sealBlock bs) 0 1 == 0) := by
  simp [entryEmpty]

end Sys2Proof.Machine
end

