-- ==== Sys2Proof/Laws/Memory.lean ====
section
/-! SUPPORT. Frame memory: what a write leaves at every address, and that every operation on it keeps the
canonical form. -/

namespace Sys2Proof.Machine

/-! ### The list of bytes -/

theorem Cells.read_write_other {a b : Nat} (h : b ≠ a) (v : Byte) :
    ∀ m : List Host.Cell, Cells.read (Cells.write m a v) b = Cells.read m b
  | [] => by
    by_cases hv : v = Memory.blank <;> simp [Cells.write, hv, Cells.read, h]
  | (k, w) :: rest => by
    have ih := Cells.read_write_other h v rest
    simp only [Cells.write]
    split
    · split <;> simp [Cells.read, h]
    · split
      · subst_vars
        split <;> simp [Cells.read, h]
      · simp only [Cells.read, ih]

/-- An address below every listed one reads as a blank byte. -/
theorem Cells.read_below {a : Nat} : ∀ m : List Host.Cell, (∀ c ∈ m, a < c.1) →
    Cells.read m a = Memory.blank
  | [], _ => rfl
  | (k, w) :: rest, h => by
    have hk := h (k, w) (by simp)
    have : a ≠ k := by simp at hk; omega
    simp only [Cells.read, this, if_false]
    exact Cells.read_below rest fun c hc => h c (by simp [hc])

theorem Cells.read_write_same (a : Nat) (v : Byte) : ∀ m : List Host.Cell, Cells.wf m →
    Cells.read (Cells.write m a v) a = v
  | [], _ => by
    by_cases hv : v = Memory.blank <;> simp [Cells.write, hv, Cells.read]
  | (k, w) :: rest, h => by
    obtain ⟨hp, hn⟩ := h
    rw [List.pairwise_cons] at hp
    have ih := Cells.read_write_same a v rest ⟨hp.2, fun c hc => hn c (by simp [hc])⟩
    simp only [Cells.write]
    split
    · rename_i hak
      split
      · rename_i hv
        rw [hv]
        refine Cells.read_below _ fun c hc => ?_
        rcases List.mem_cons.1 hc with rfl | hc
        · exact hak
        · have h1 := hp.1 c hc
          simp only at h1
          omega
      · simp [Cells.read]
    · split
      · subst_vars
        split
        · rename_i hv
          rw [hv]
          exact Cells.read_below _ hp.1
        · simp [Cells.read]
      · simp only [Cells.read]
        rename_i h2
        rw [if_neg h2, ih]

/-- Every listed address of a written memory was listed or is the address written. -/
theorem Cells.mem_write {a : Nat} {v : Byte} {c : Host.Cell} : ∀ m : List Host.Cell,
    c ∈ Cells.write m a v → c ∈ m ∨ (c = (a, v) ∧ v ≠ Memory.blank)
  | [], h => by
    by_cases hv : v = Memory.blank <;> simp_all [Cells.write]
  | (k, w) :: rest, h => by
    have ih := Cells.mem_write (a := a) (v := v) (c := c) rest
    simp only [Cells.write] at h
    split at h
    · split at h
      · exact .inl h
      · rcases List.mem_cons.1 h with h | h
        · exact .inr ⟨h, by assumption⟩
        · exact .inl h
    · split at h
      · split at h
        · exact .inl (by simp [h])
        · rcases List.mem_cons.1 h with h | h
          · exact .inr ⟨h, by assumption⟩
          · exact .inl (by simp [h])
      · rcases List.mem_cons.1 h with h | h
        · exact .inl (by simp [h])
        · rcases ih h with h | h
          · exact .inl (by simp [h])
          · exact .inr h

theorem Cells.wf_write (a : Nat) (v : Byte) : ∀ m : List Host.Cell, Cells.wf m →
    Cells.wf (Cells.write m a v)
  | [], _ => by
    by_cases hv : v = Memory.blank <;> simp [Cells.write, hv, Cells.wf]
  | (k, w) :: rest, h => by
    obtain ⟨hp, hn⟩ := h
    rw [List.pairwise_cons] at hp
    have hr : Cells.wf rest := ⟨hp.2, fun c hc => hn c (by simp [hc])⟩
    have ih := Cells.wf_write a v rest hr
    simp only [Cells.write]
    split
    · rename_i hak
      split
      · exact ⟨List.pairwise_cons.2 hp, hn⟩
      · rename_i hv
        refine ⟨List.pairwise_cons.2 ⟨fun c hc => ?_, List.pairwise_cons.2 hp⟩, fun c hc => ?_⟩
        · rcases List.mem_cons.1 hc with rfl | hc
          · exact hak
          · have h1 := hp.1 c hc
            simp only at h1 ⊢
            omega
        · rcases List.mem_cons.1 hc with rfl | hc
          · exact hv
          · exact hn c hc
    · rename_i hak
      split
      · subst_vars
        split
        · exact hr
        · rename_i hv
          refine ⟨List.pairwise_cons.2 ⟨hp.1, hp.2⟩, fun c hc => ?_⟩
          rcases List.mem_cons.1 hc with rfl | hc
          · exact hv
          · exact hn c (by simp [hc])
      · rename_i hne
        refine ⟨List.pairwise_cons.2 ⟨fun c hc => ?_, ih.1⟩, fun c hc => ?_⟩
        · rcases Cells.mem_write rest hc with hc | ⟨rfl, _⟩
          · exact hp.1 c hc
          · simp only
            omega
        · rcases List.mem_cons.1 hc with rfl | hc
          · exact hn _ (by simp)
          · exact ih.2 c hc

theorem Cells.read_clear_other {lo hi b : Nat} (h : b < lo ∨ hi ≤ b) :
    ∀ m : List Host.Cell, Cells.read (Cells.clear m lo hi) b = Cells.read m b
  | [] => rfl
  | (k, w) :: rest => by
    have ih := Cells.read_clear_other h rest
    unfold Cells.clear at ih ⊢
    rw [List.filter_cons]
    split
    · simp only [Cells.read, ih]
    · rename_i hk
      have : b ≠ k := by
        rcases h with h | h
        · intro e; subst e; simp at hk; omega
        · intro e; subst e; simp at hk; omega
      simp only [Cells.read, this, if_false, ih]

/-- An address not listed reads as a blank byte. -/
theorem Cells.read_absent {a : Nat} : ∀ m : List Host.Cell, (∀ c ∈ m, c.1 ≠ a) →
    Cells.read m a = Memory.blank
  | [], _ => rfl
  | (k, w) :: rest, h => by
    have hk := h (k, w) (by simp)
    simp only [Cells.read]
    rw [if_neg (fun e => hk e.symm)]
    exact Cells.read_absent rest fun c hc => h c (List.mem_cons_of_mem _ hc)

theorem Cells.read_clear_same {lo hi b : Nat} (h1 : lo ≤ b) (h2 : b < hi) (m : List Host.Cell) :
    Cells.read (Cells.clear m lo hi) b = Memory.blank := by
  refine Cells.read_absent _ fun c hc he => ?_
  unfold Cells.clear at hc
  rw [List.mem_filter] at hc
  simp only [he, Bool.not_eq_true', Bool.and_eq_false_iff, decide_eq_false_iff_not] at hc
  omega

theorem Cells.wf_clear (lo hi : Nat) {m : List Host.Cell} (h : Cells.wf m) : Cells.wf (Cells.clear m lo hi) :=
  ⟨h.1.filter _, fun c hc => h.2 c (List.mem_of_mem_filter hc)⟩

/-! ### Fills -/

theorem Fill.covers_iff {a : Nat} {f : Fill} : f.covers a = true ↔ f.base ≤ a ∧ a < f.last := by
  simp [Fill.covers]

theorem Fill.mem_cut {lo hi : Nat} {f g : Fill} (h : g ∈ f.cut lo hi) :
    f.base ≤ g.base ∧ g.last ≤ f.last ∧ 0 < g.length ∧ (g.last ≤ lo ∨ hi ≤ g.base) ∧
      ∀ a, g.byte a = f.byte a ∨ a < g.base := by
  unfold Fill.cut at h
  rw [List.mem_append] at h
  unfold Fill.last at *
  rcases h with h | h
  · split at h
    · rw [List.mem_singleton] at h
      subst h
      dsimp only
      refine ⟨le_refl _, by omega, by omega, .inl (by omega), fun a => .inl rfl⟩
    · simp at h
  · split at h
    · rw [List.mem_singleton] at h
      subst h
      dsimp only
      refine ⟨by omega, by omega, by omega, .inr (by omega), fun a => ?_⟩
      by_cases ha : a < max hi f.base
      · exact .inr ha
      · left
        unfold Fill.byte
        dsimp only
        congr 1
        omega
    · simp at h

/-- What covers an address outside the part taken out. -/
theorem Fill.cut_covers {lo hi a : Nat} (f : Fill) (h : a < lo ∨ hi ≤ a) :
    (∃ g ∈ f.cut lo hi, g.covers a = true) ↔ f.covers a = true := by
  constructor
  · rintro ⟨g, hg, hc⟩
    obtain ⟨h1, h2, _⟩ := Fill.mem_cut hg
    rw [Fill.covers_iff] at hc ⊢
    omega
  · intro hc
    rw [Fill.covers_iff] at hc
    unfold Fill.cut
    unfold Fill.last at *
    rcases h with h | h
    · refine ⟨{ f with length := min lo (f.base + f.length) - f.base }, ?_, ?_⟩
      · rw [if_pos (by omega)]
        exact List.mem_append_left _ (List.mem_singleton.2 rfl)
      · rw [Fill.covers_iff]
        unfold Fill.last
        dsimp only
        omega
    · refine ⟨{ f with
        base := max hi f.base
        length := f.base + f.length - max hi f.base
        offset := f.offset + (max hi f.base - f.base) }, ?_, ?_⟩
      · refine List.mem_append_right _ ?_
        rw [if_pos (by omega)]
        exact List.mem_singleton.2 rfl
      · rw [Fill.covers_iff]
        unfold Fill.last
        dsimp only
        omega

/-- The byte that fills give an address, when one covers it. -/
def fillRead (fs : List Fill) (a : Nat) : Option Byte := (fs.find? (Fill.covers a)).map fun f => f.byte a

theorem Memory.read_eq (m : Memory) (a : Nat) :
    m.read a = (fillRead m.fills a).getD (Cells.read m.cells a) := by
  unfold Memory.read fillRead
  cases m.fills.find? (Fill.covers a) <;> rfl

theorem fillRead_append (fs gs : List Fill) (a : Nat) :
    fillRead (fs ++ gs) a = (fillRead fs a).or (fillRead gs a) := by
  unfold fillRead
  rw [List.find?_append]
  cases fs.find? (Fill.covers a) <;> simp

theorem fillRead_none {fs : List Fill} {a : Nat} (h : ∀ f ∈ fs, f.covers a = false) :
    fillRead fs a = none := by
  unfold fillRead
  rw [List.find?_eq_none.2 (fun f hf => by simp [h f hf])]
  rfl

theorem fillRead_all {fs : List Fill} {a : Nat} {b : Byte} (hex : ∃ f ∈ fs, f.covers a = true)
    (h : ∀ f ∈ fs, f.covers a = true → f.byte a = b) : fillRead fs a = some b := by
  unfold fillRead
  cases hf : fs.find? (Fill.covers a) with
  | none =>
    obtain ⟨f, h1, h2⟩ := hex
    exact absurd h2 (List.find?_eq_none.1 hf f h1)
  | some f =>
    have h2 : f.covers a = true := List.find?_some hf
    rw [Option.map_some, h f (List.mem_of_find?_eq_some hf) h2]

theorem fillRead_cut_other {lo hi a : Nat} (h : a < lo ∨ hi ≤ a) :
    ∀ fs : List Fill, fillRead (cutFills fs lo hi) a = fillRead fs a := by
  intro fs
  unfold cutFills
  split
  · rename_i hlh
    induction fs with
    | nil => rfl
    | cons f fs ih =>
      rw [List.flatMap_cons, fillRead_append, ih]
      have hs : fillRead (f :: fs) a = (fillRead [f] a).or (fillRead fs a) := fillRead_append [f] fs a
      rw [hs]
      congr 1
      by_cases hc : f.covers a = true
      · have h1 : fillRead [f] a = some (f.byte a) :=
          fillRead_all ⟨f, List.mem_singleton.2 rfl, hc⟩ fun g hg _ => by rw [List.mem_singleton.1 hg]
        rw [h1]
        refine fillRead_all ((Fill.cut_covers f h).2 hc) fun g hg hga => ?_
        rcases (Fill.mem_cut hg).2.2.2.2 a with h2 | h2
        · exact h2
        · rw [Fill.covers_iff] at hga
          omega
      · rw [fillRead_none fun g hg => ?_, fillRead_none fun g hg => ?_]
        · rw [List.mem_singleton.1 hg]
          simpa using hc
        · by_contra hg2
          exact hc ((Fill.cut_covers f h).1 ⟨g, hg, by simpa using hg2⟩)
  · rfl

theorem cutFills_apart {fs : List Fill} {lo hi : Nat} (hlh : lo < hi) {g : Fill} (hg : g ∈ cutFills fs lo hi) :
    g.last ≤ lo ∨ hi ≤ g.base := by
  unfold cutFills at hg
  rw [if_pos hlh, List.mem_flatMap] at hg
  obtain ⟨f, _, hg⟩ := hg
  exact (Fill.mem_cut hg).2.2.2.1

theorem fillRead_cut_same {lo hi a : Nat} (h1 : lo ≤ a) (h2 : a < hi) (fs : List Fill) :
    fillRead (cutFills fs lo hi) a = none := by
  refine fillRead_none fun g hg => ?_
  have := cutFills_apart (by omega) hg
  by_contra hc
  rw [Bool.not_eq_false, Fill.covers_iff] at hc
  omega

/-- A list of fills in rising order, apart and none empty. -/
abbrev Fills.wf (fs : List Fill) : Prop :=
  fs.Pairwise (fun f g => f.last ≤ g.base) ∧ ∀ f ∈ fs, 0 < f.length

theorem mem_cutFills {fs : List Fill} {lo hi : Nat} {g : Fill} (hg : g ∈ cutFills fs lo hi) :
    ∃ f ∈ fs, f.base ≤ g.base ∧ g.last ≤ f.last := by
  unfold cutFills at hg
  split at hg
  · rw [List.mem_flatMap] at hg
    obtain ⟨f, hf, hg⟩ := hg
    exact ⟨f, hf, (Fill.mem_cut hg).1, (Fill.mem_cut hg).2.1⟩
  · exact ⟨g, hg, le_refl _, le_refl _⟩

theorem Fill.cut_wf (lo hi : Nat) (hlh : lo < hi) (f : Fill) : Fills.wf (f.cut lo hi) := by
  constructor
  · unfold Fill.cut
    split
    · split
      · rw [List.singleton_append, List.pairwise_cons]
        refine ⟨fun g hg => ?_, List.pairwise_singleton ..⟩
        rw [List.mem_singleton.1 hg]
        unfold Fill.last
        dsimp only
        omega
      · simp
    · split
      · simp
      · simp
  · exact fun g hg => (Fill.mem_cut hg).2.2.1

theorem Fills.wf_cut (lo hi : Nat) {fs : List Fill} (h : Fills.wf fs) : Fills.wf (cutFills fs lo hi) := by
  unfold cutFills
  split
  · rename_i hlh
    induction fs with
    | nil => exact ⟨List.Pairwise.nil, fun f hf => by simp at hf⟩
    | cons f fs ih =>
      rw [List.flatMap_cons]
      obtain ⟨hp, hn⟩ := h
      rw [List.pairwise_cons] at hp
      have ih := ih ⟨hp.2, fun g hg => hn g (List.mem_cons_of_mem _ hg)⟩
      refine ⟨List.pairwise_append.2 ⟨(Fill.cut_wf lo hi hlh f).1, ih.1, fun a ha b hb => ?_⟩,
        fun g hg => ?_⟩
      · have hb' : b ∈ cutFills fs lo hi := by
          unfold cutFills
          rwa [if_pos hlh]
        obtain ⟨g, hg, h1, _⟩ := mem_cutFills hb'
        have h2 := hp.1 g hg
        have h3 := (Fill.mem_cut ha).2.1
        omega
      · rcases List.mem_append.1 hg with hg | hg
        · exact (Fill.cut_wf lo hi hlh f).2 g hg
        · exact ih.2 g hg
  · exact h

theorem mem_insertFill {f g : Fill} : ∀ fs : List Fill, g ∈ insertFill f fs ↔ g = f ∨ g ∈ fs
  | [] => by simp [insertFill]
  | x :: xs => by
    have ih := mem_insertFill (f := f) (g := g) xs
    unfold insertFill
    split
    · simp
    · simp only [List.mem_cons, ih]
      tauto

theorem Fills.wf_insert {f : Fill} (hf : 0 < f.length) : ∀ fs : List Fill, Fills.wf fs →
    (∀ g ∈ fs, g.last ≤ f.base ∨ f.last ≤ g.base) → Fills.wf (insertFill f fs)
  | [], _, _ => ⟨List.pairwise_singleton .., fun g hg => by rw [List.mem_singleton.1 hg]; exact hf⟩
  | x :: xs, h, ha => by
    obtain ⟨hp, hn⟩ := h
    have hp' := List.pairwise_cons.1 hp
    have ih := Fills.wf_insert hf xs ⟨hp'.2, fun g hg => hn g (List.mem_cons_of_mem _ hg)⟩
      (fun g hg => ha g (List.mem_cons_of_mem _ hg))
    have hx := ha x (List.mem_cons_self ..)
    have hxl := hn x (List.mem_cons_self ..)
    unfold insertFill
    split
    · rename_i hlt
      refine ⟨List.pairwise_cons.2 ⟨fun g hg => ?_, hp⟩, fun g hg => ?_⟩
      · rcases List.mem_cons.1 hg with rfl | hg
        · unfold Fill.last at *
          omega
        · have h1 := hp'.1 g hg
          unfold Fill.last at *
          omega
      · rcases List.mem_cons.1 hg with rfl | hg
        · exact hf
        · exact hn g hg
    · rename_i hlt
      refine ⟨List.pairwise_cons.2 ⟨fun g hg => ?_, ih.1⟩, fun g hg => ?_⟩
      · rcases (mem_insertFill xs).1 hg with rfl | hg
        · unfold Fill.last at *
          omega
        · exact hp'.1 g hg
      · rcases List.mem_cons.1 hg with rfl | hg
        · exact hxl
        · exact ih.2 g hg

theorem fillRead_insert {f : Fill} {a : Nat} : ∀ fs : List Fill,
    (∀ g ∈ fs, f.covers a = true → g.covers a = false) →
    fillRead (insertFill f fs) a = (fillRead [f] a).or (fillRead fs a)
  | [], _ => by
    show fillRead [f] a = _
    rw [show fillRead [] a = none from rfl]
    cases fillRead [f] a <;> rfl
  | x :: xs, h => by
    have ih := fillRead_insert (f := f) (a := a) xs (fun g hg => h g (List.mem_cons_of_mem _ hg))
    unfold insertFill
    split
    · exact fillRead_append [f] (x :: xs) a
    · have h1 : fillRead (x :: insertFill f xs) a = (fillRead [x] a).or (fillRead (insertFill f xs) a) :=
        fillRead_append [x] _ a
      have h2 : fillRead (x :: xs) a = (fillRead [x] a).or (fillRead xs a) := fillRead_append [x] _ a
      rw [h1, h2, ih]
      by_cases hf : f.covers a = true
      · have hx := h x (List.mem_cons_self ..) hf
        rw [fillRead_none (fs := [x]) fun g hg => by rw [List.mem_singleton.1 hg, hx]]
        simp
      · rw [fillRead_none (fs := [f]) fun g hg => by rw [List.mem_singleton.1 hg]; simpa using hf]
        simp

/-! ### One byte -/

theorem Memory.read_write_other {a b : Nat} (h : b ≠ a) (v : Byte) (m : Memory) :
    (m.write a v).read b = m.read b := by
  rw [Memory.read_eq, Memory.read_eq]
  unfold Memory.write
  dsimp only
  rw [fillRead_cut_other (by omega), Cells.read_write_other h]

theorem Memory.read_write_same (a : Nat) (v : Byte) (m : Memory) (h : Memory.wf m) :
    (m.write a v).read a = v := by
  rw [Memory.read_eq]
  unfold Memory.write
  dsimp only
  rw [fillRead_cut_same (le_refl a) (Nat.lt_succ_self a), Option.getD_none, Cells.read_write_same _ _ _ h.1]

theorem Memory.wf_fills {m : Memory} (h : Memory.wf m) : Fills.wf m.fills := ⟨h.2.1, h.2.2.1⟩

theorem Memory.wf_mk {cells : List Host.Cell} {fills : List Fill} (h1 : Cells.wf cells)
    (h2 : Fills.wf fills) (h3 : ∀ c ∈ cells, ∀ f ∈ fills, Fill.covers c.1 f = false) :
    Memory.wf { cells, fills } := ⟨h1, h2.1, h2.2, h3⟩

theorem covers_cutFills {fs : List Fill} {lo hi a : Nat} (h : ∀ f ∈ fs, f.covers a = false) :
    ∀ g ∈ cutFills fs lo hi, g.covers a = false := by
  intro g hg
  obtain ⟨f, hf, h1, h2⟩ := mem_cutFills hg
  have := h f hf
  by_contra hc
  rw [Bool.not_eq_false, Fill.covers_iff] at hc
  rw [← Bool.not_eq_true, Fill.covers_iff] at this
  omega

theorem Memory.wf_write (a : Nat) (v : Byte) (m : Memory) (h : Memory.wf m) : Memory.wf (m.write a v) := by
  refine Memory.wf_mk (Cells.wf_write a v _ h.1) (Fills.wf_cut _ _ (Memory.wf_fills h)) fun c hc => ?_
  rcases Cells.mem_write _ hc with hc | ⟨rfl, _⟩
  · exact covers_cutFills (h.2.2.2 c hc)
  · intro g hg
    have := cutFills_apart (Nat.lt_succ_self a) hg
    by_contra hcov
    rw [Bool.not_eq_false, Fill.covers_iff] at hcov
    simp only at hcov
    omega

theorem Memory.read_clearBytes_other {lo hi b : Nat} (h : b < lo ∨ hi ≤ b) (m : Memory) :
    (clearBytes m lo hi).read b = m.read b := by
  rw [Memory.read_eq, Memory.read_eq]
  unfold clearBytes
  dsimp only
  rw [fillRead_cut_other h, Cells.read_clear_other h]

/-- A cleared byte is 0. -/
theorem Memory.read_clearBytes_same {lo hi b : Nat} (h1 : lo ≤ b) (h2 : b < hi) (m : Memory) :
    (clearBytes m lo hi).read b = 0#8 := by
  rw [Memory.read_eq]
  unfold clearBytes
  dsimp only
  rw [fillRead_cut_same h1 h2, Option.getD_none, Cells.read_clear_same h1 h2]
  rfl

theorem Memory.wf_clearBytes (lo hi : Nat) {m : Memory} (h : Memory.wf m) : Memory.wf (clearBytes m lo hi) :=
  Memory.wf_mk (Cells.wf_clear lo hi h.1) (Fills.wf_cut _ _ (Memory.wf_fills h)) fun c hc =>
    covers_cutFills (h.2.2.2 c (List.mem_of_mem_filter hc))

theorem fills_clearBytes_apart {m : Memory} {lo hi : Nat} (hlh : lo < hi) {g : Fill}
    (hg : g ∈ (clearBytes m lo hi).fills) : g.last ≤ lo ∨ hi ≤ g.base := cutFills_apart hlh hg

/-- A rendition is written at its place and nowhere else. -/
theorem Memory.read_fillBytes_other {base length seed b : Nat} (h : b < base ∨ base + length ≤ b)
    (m : Memory) : (fillBytes m base length seed).read b = m.read b := by
  unfold fillBytes
  dsimp only
  split
  · exact Memory.read_clearBytes_other h m
  · rename_i hl
    rw [← Memory.read_clearBytes_other h m, Memory.read_eq, Memory.read_eq]
    dsimp only
    rw [fillRead_insert _ fun g hg hc => ?_]
    · rw [fillRead_none (fs := [_]) fun g hg => ?_]
      · simp
      · rw [List.mem_singleton.1 hg]
        by_contra hc
        rw [Bool.not_eq_false, Fill.covers_iff] at hc
        unfold Fill.last at hc
        dsimp only at hc
        omega
    · rw [Fill.covers_iff] at hc
      unfold Fill.last at hc
      dsimp only at hc
      omega

/-- Each byte of a rendition is the byte its seed names (log 14). -/
theorem Memory.read_fillBytes_same {base length seed i : Nat} (h : i < length) (m : Memory) :
    (fillBytes m base length seed).read (base + i) = Config.renditionByte seed i := by
  unfold fillBytes
  dsimp only
  rw [if_neg (by omega), Memory.read_eq]
  dsimp only
  rw [fillRead_insert _ fun g hg _ => ?_]
  · rw [fillRead_all (fs := [_]) (b := Config.renditionByte seed i) ⟨_, List.mem_singleton.2 rfl, ?_⟩
      fun g hg _ => ?_]
    · rfl
    · rw [Fill.covers_iff]
      unfold Fill.last
      dsimp only
      omega
    · rw [List.mem_singleton.1 hg]
      unfold Fill.byte
      dsimp only
      congr 1
      omega
  · have := fills_clearBytes_apart (by omega) hg
    by_contra hc
    rw [Bool.not_eq_false, Fill.covers_iff] at hc
    omega

theorem Memory.wf_fillBytes (base length seed : Nat) {m : Memory} (h : Memory.wf m) :
    Memory.wf (fillBytes m base length seed) := by
  have hw := Memory.wf_clearBytes base (base + length) h
  unfold fillBytes
  dsimp only
  split
  · exact hw
  · rename_i hl
    refine Memory.wf_mk hw.1 (Fills.wf_insert (by dsimp only; omega) _ (Memory.wf_fills hw) fun g hg => ?_)
      fun c hc g hg => ?_
    · have := fills_clearBytes_apart (m := m) (by omega) hg
      unfold Fill.last at *
      dsimp only
      omega
    · rcases (mem_insertFill _).1 hg with rfl | hg
      · unfold clearBytes Cells.clear at hc
        dsimp only at hc
        rw [List.mem_filter] at hc
        by_contra hcov
        rw [Bool.not_eq_false, Fill.covers_iff] at hcov
        unfold Fill.last at hcov
        simp at hc hcov
        omega
      · exact hw.2.2.2 c hc g hg

/-! ### Words and values -/

theorem Memory.wf_writeWord (a : Nat) (v : BitVec 32) {m : Memory} (h : Memory.wf m) :
    Memory.wf (writeWord m a v) :=
  Memory.wf_write _ _ _ (Memory.wf_write _ _ _ (Memory.wf_write _ _ _ (Memory.wf_write _ _ _ h)))

theorem Memory.wf_writeValue (p i : Nat) (v : BitVec 32) {m : Memory} (h : Memory.wf m) :
    Memory.wf (writeValue m p i v) := by
  unfold writeValue
  split
  · exact Memory.wf_writeWord _ _ h
  · exact h

/-- A word's write changes its four bytes and no other. -/
theorem Memory.read_writeWord_other {a b : Nat} (v : BitVec 32) (m : Memory)
    (h : b < a ∨ a + 4 ≤ b) : Memory.read (writeWord m a v) b = Memory.read m b := by
  unfold writeWord
  rw [Memory.read_write_other (by omega), Memory.read_write_other (by omega),
    Memory.read_write_other (by omega), Memory.read_write_other (by omega)]

/-- A value's write changes only bytes of its own place. -/
theorem Memory.read_writeValue_other {p i b : Nat} (v : BitVec 32) (m : Memory)
    (h : b < valueAddress p i ∨ valueAddress p i + 4 ≤ b) :
    Memory.read (writeValue m p i v) b = Memory.read m b := by
  unfold writeValue
  split
  · exact Memory.read_writeWord_other v m h
  · rfl

/-- A value's write changes only bytes of its plane. -/
theorem Memory.read_writeValue_outside {p i b : Nat} (v : BitVec 32) (m : Memory)
    (h : b < planeBase p ∨ planeBase p + Config.planeBytes ≤ b) :
    Memory.read (writeValue m p i v) b = Memory.read m b := by
  unfold writeValue
  split
  · rename_i hi
    refine Memory.read_writeWord_other v m ?_
    unfold planeValues Config.planeBytes at hi
    unfold valueAddress
    unfold Config.planeBytes at h
    omega
  · rfl

/-- The value written is the value read. -/
theorem readValue_writeValue_same {p i : Nat} (v : BitVec 32) {m : Memory} (hw : Memory.wf m)
    (hi : i < planeValues) : readValue (writeValue m p i v) p i = v := by
  unfold readValue writeValue
  rw [if_pos hi]
  generalize valueAddress p i = a
  unfold writeWord
  dsimp only
  have h0 := hw
  have h1 := Memory.wf_write a (v.extractLsb' 24 8) m h0
  have h2 := Memory.wf_write (a + 1) (v.extractLsb' 16 8) _ h1
  have h3 := Memory.wf_write (a + 2) (v.extractLsb' 8 8) _ h2
  rw [Memory.read_write_same _ _ _ h3]
  rw [Memory.read_write_other (by omega), Memory.read_write_other (by omega),
    Memory.read_write_other (by omega), Memory.read_write_same _ _ _ h0]
  rw [Memory.read_write_other (by omega), Memory.read_write_other (by omega),
    Memory.read_write_same _ _ _ h1]
  rw [Memory.read_write_other (by omega), Memory.read_write_same _ _ _ h2]
  ext j hj
  simp only [BitVec.getElem_append, BitVec.getElem_extractLsb']
  repeat' split
  all_goals (rw [← BitVec.getLsbD_eq_getElem]; congr 1; omega)

/-! ### Folds of writes -/

theorem foldl_preserves {α β : Type} (P : β → Prop) (f : β → α → β) (h : ∀ m x, P m → P (f m x)) :
    ∀ (l : List α) (m : β), P m → P (l.foldl f m)
  | [], _, hm => hm
  | x :: l, m, hm => foldl_preserves P f h l (f m x) (h m x hm)

theorem Memory.wf_accumulateValues (a b n : Nat) (pick : Nat → Bool) {m : Memory}
    (h : Memory.wf m) : Memory.wf (accumulateValues m a b n pick) :=
  foldl_preserves Memory.wf _ (fun _ _ hm => Memory.wf_writeValue _ _ _ hm) _ _ h

theorem Memory.wf_applyDarkValues (a b k i j : Nat) {m : Memory} (h : Memory.wf m) :
    Memory.wf (applyDarkValues m a b k i j) :=
  foldl_preserves Memory.wf _ (fun _ _ hm => Memory.wf_writeValue _ _ _ hm) _ _ h

theorem Memory.wf_loadClusters (p a i n : Nat) (vs : List (Nat × BitVec 32)) {m : Memory}
    (h : Memory.wf m) : Memory.wf (loadClusters m p a i n vs) :=
  foldl_preserves Memory.wf _ (fun _ _ hm => Memory.wf_writeValue _ _ _ hm) _ _
    (Memory.wf_clearBytes _ _ h)

theorem foldl_read {α : Type} (f : Memory → α → Memory) (a : Nat)
    (h : ∀ m x, Memory.read (f m x) a = Memory.read m a) :
    ∀ (l : List α) (m : Memory), Memory.read (l.foldl f m) a = Memory.read m a
  | [], _ => rfl
  | x :: l, m => (foldl_read f a h l (f m x)).trans (h m x)

/-- ACCUMULATE changes only bytes of its destination plane. -/
theorem Memory.read_accumulateValues {b : Nat} (p q n : Nat) (pick : Nat → Bool) (m : Memory)
    (h : b < planeBase q ∨ planeBase q + Config.planeBytes ≤ b) :
    Memory.read (accumulateValues m p q n pick) b = Memory.read m b :=
  foldl_read _ _ (fun _ _ => Memory.read_writeValue_outside _ _ h) _ _

/-- APPLY_DARK changes only bytes of its destination plane. -/
theorem Memory.read_applyDarkValues {b : Nat} (p q k i j : Nat) (m : Memory)
    (h : b < planeBase q ∨ planeBase q + Config.planeBytes ≤ b) :
    Memory.read (applyDarkValues m p q k i j) b = Memory.read m b :=
  foldl_read _ _ (fun _ _ => Memory.read_writeValue_outside _ _ h) _ _

/-- A fetch changes only bytes of its plane. -/
theorem Memory.read_loadClusters {b : Nat} (p a i n : Nat) (vs : List (Nat × BitVec 32))
    (m : Memory) (h : b < planeBase p ∨ planeBase p + Config.planeBytes ≤ b) :
    Memory.read (loadClusters m p a i n vs) b = Memory.read m b := by
  unfold loadClusters
  dsimp only
  rw [foldl_read _ _ (fun _ _ => Memory.read_writeValue_outside _ _ h),
    Memory.read_clearBytes_other]
  rcases h with h | h
  · exact .inl (by omega)
  · refine .inr ?_
    have := Nat.min_le_right (min ((i + n) * Config.clusterBytes) (4 * a)) Config.planeBytes
    omega

/-- A fold whose steps leave a byte, for the elements it runs over, leaves it. -/
theorem foldl_read_mem {α : Type} (f : Memory → α → Memory) (a : Nat) :
    ∀ (l : List α) (m : Memory), (∀ m, ∀ x ∈ l, Memory.read (f m x) a = Memory.read m a) →
      Memory.read (l.foldl f m) a = Memory.read m a
  | [], _, _ => rfl
  | x :: l, m, h =>
    (foldl_read_mem f a l (f m x) fun m y hy => h m y (List.mem_cons_of_mem _ hy)).trans
      (h m x (List.mem_cons_self ..))

/-- A fetch changes no byte beyond the part of its plane within the sensor area (R89). -/
theorem Memory.read_loadClusters_beyond {b : Nat} (p area i n : Nat) (vs : List (Nat × BitVec 32))
    (m : Memory) (h : planeBase p + 4 * area ≤ b) :
    Memory.read (loadClusters m p area i n vs) b = Memory.read m b := by
  have hi : min (min ((i + n) * Config.clusterBytes) (4 * area)) Config.planeBytes ≤ 4 * area :=
    (Nat.min_le_left _ _).trans (Nat.min_le_right _ _)
  unfold loadClusters
  dsimp only
  rw [foldl_read_mem, Memory.read_clearBytes_other]
  · exact .inr (by omega)
  · intro m x hx
    have hx := (List.mem_filter.1 hx).2
    simp only [Bool.and_eq_true, decide_eq_true_eq] at hx
    exact Memory.read_writeValue_other _ _ (.inr (by unfold valueAddress; omega))

/-! ### Operations on the state -/

theorem partialWork_wf (q : PauRequest) {s : State} (h : Memory.wf s.mem) :
    Memory.wf (partialWork q s).mem := by
  unfold partialWork
  dsimp only
  split
  · exact Memory.wf_accumulateValues _ _ _ _ h
  · exact Memory.wf_applyDarkValues _ _ _ _ _ h

/-- A stopped request has changed only bytes of its destination plane. -/
theorem partialWork_read (q : PauRequest) (s : State) {b : Nat}
    (h : b < planeBase q.destination ∨ planeBase q.destination + Config.planeBytes ≤ b) :
    Memory.read (partialWork q s).mem b = Memory.read s.mem b := by
  unfold partialWork
  dsimp only
  split
  · exact Memory.read_accumulateValues _ _ _ _ _ h
  · exact Memory.read_applyDarkValues _ _ _ _ _ _ h

theorem writeRendition_wf (base room : Nat) (size : Nat × Nat) {s : State} (h : Memory.wf s.mem) :
    Memory.wf (writeRendition base room size s).mem := Memory.wf_fillBytes _ _ _ h

theorem clearInternal_wf {s : State} (h : Memory.wf s.mem) : Memory.wf (clearInternal s).mem :=
  Memory.wf_clearBytes _ _ h

theorem abandonPau_wf (n : Nat) {s : State} (h : Memory.wf s.mem) : Memory.wf (abandonPau n s).mem := by
  unfold abandonPau
  repeat' split
  · simpa using h
  · simpa using partialWork_wf _ h
  · simpa using h

end Sys2Proof.Machine
end

