-- ==== Sys2Proof/Laws/Limits.lean ====
section
/-! SUPPORT. The laws of frame memory, the development queue, the pins and the current roll, operation by
operation: each holds after an operation where it held before. -/

namespace Sys2Proof.Machine

/-- Frame memory is in its canonical form. -/
def MemGood (m : Memory) : Prop := Memory.wf m

/-- The development queue is within its room. -/
def QueueGood (q : List Job) : Prop := q.length ≤ 16

/-- The pin count of a slot is within its limit, and only a VALID slot is pinned. -/
def PinGood (x : PreviewSlot) : Prop := x.pins ≤ 7 ∧ (0 < x.pins → x.isValid = true)

def PinsGood (l : List PreviewSlot) : Prop := ∀ x ∈ l, PinGood x

/-- The current roll is OPEN. -/
def RollsGood (r : Rolls) : Prop := ∀ i, r.current = some i → ∃ x, r.slots[i]? = some (.opened x)

@[simp] theorem foldl_memGood {α : Type} (f : State → α → State)
    (h : ∀ s a, MemGood s.mem → MemGood (f s a).mem) :
    ∀ (l : List α) (s : State), MemGood s.mem → MemGood (l.foldl f s).mem
  | [], _, hs => hs
  | a :: l, s, hs => foldl_memGood f h l (f s a) (h s a hs)

@[simp] theorem optional_memGood {α : Type} (f : α → State → State)
    (h : ∀ a s, MemGood s.mem → MemGood (f a s).mem) (o : Option α) (s : State) (hs : MemGood s.mem) :
    MemGood ((o.map f).getD id s).mem := by
  cases o <;> simp_all

@[simp] theorem partialWork_memGood (q : PauRequest) (s : State) (hs : MemGood s.mem) :
    MemGood (partialWork q s).mem := by
  exact partialWork_wf q hs

@[simp] theorem abandonPau_memGood (n : Nat) (s : State) (hs : MemGood s.mem) :
    MemGood (abandonPau n s).mem := by
  exact abandonPau_wf n hs

@[simp] theorem leaveDarkUnit_memGood (n : Nat) (link : DarkLink) (s : State) (hs : MemGood s.mem) :
    MemGood (leaveDarkUnit n link s).mem := by
  unfold leaveDarkUnit
  try dsimp only
  repeat' split
  all_goals first | (simp only; assumption) | (simp (maxDischargeDepth := 20) [hs]; done) | simp_all

@[simp] theorem takeFromBlocks_memGood (r : Record) (s : State) (hs : MemGood s.mem) :
    MemGood (takeFromBlocks r s).mem := by
  unfold takeFromBlocks
  try dsimp only
  repeat' split
  all_goals first | (simp only; assumption) | (simp (maxDischargeDepth := 20) [hs]; done) | simp_all

@[simp] theorem acceptRetire_memGood (tag : Nat) (r : Record) (s : State) (hs : MemGood s.mem) :
    MemGood (acceptRetire tag r s).mem := by
  unfold acceptRetire
  try dsimp only
  repeat' split
  all_goals first | (simp only; assumption) | (simp (maxDischargeDepth := 20) [hs]; done) | simp_all

@[simp] theorem retireResident_memGood (tag : Nat) (r : Record) (s : State) (hs : MemGood s.mem) :
    MemGood (retireResident tag r s).mem := by
  unfold retireResident
  try dsimp only
  repeat' split
  all_goals first | (simp only; assumption) | (simp (maxDischargeDepth := 20) [hs]; done) | simp_all

@[simp] theorem onResident_memGood (tag : Nat) (q : LoadRequest) (r : Record) (s : State) (hs : MemGood s.mem) :
    MemGood (onResident tag q r s).mem := by
  unfold onResident
  try dsimp only
  repeat' split
  all_goals first | (simp only; assumption) | (simp (maxDischargeDepth := 20) [hs]; done) | simp_all

@[simp] theorem onShot_memGood (tag n : Nat) (q : LoadRequest) (s : State) (hs : MemGood s.mem) :
    MemGood (onShot tag n q s).mem := by
  unfold onShot
  try dsimp only
  repeat' split
  all_goals first | (simp only; assumption) | (simp (maxDischargeDepth := 20) [hs]; done) | simp_all

@[simp] theorem proceed_memGood (n : Nat) (s : State) (w : LoadWaiter) (hs : MemGood s.mem) :
    MemGood (proceed n s w).mem := by
  unfold proceed
  try dsimp only
  repeat' split
  all_goals first | (simp only; assumption) | (simp (maxDischargeDepth := 20) [hs]; done) | simp_all

@[simp] theorem completeLoad_memGood (n slot : Nat) (block : List Byte) (s : State) (hs : MemGood s.mem) :
    MemGood (completeLoad n slot block s).mem := by
  unfold completeLoad
  try dsimp only
  repeat' split
  all_goals first | (simp only; assumption) | (simp (maxDischargeDepth := 20) [hs]; done) | simp_all

@[simp] theorem loadDone_memGood (n slot : Nat) (block : List Byte) (s : State) (hs : MemGood s.mem) :
    MemGood (loadDone n slot block s).mem := by
  unfold loadDone
  try dsimp only
  repeat' split
  all_goals first | (simp only; assumption) | (simp (maxDischargeDepth := 20) [hs]; done) | simp_all

@[simp] theorem accumulated_memGood (q : PauRequest) (s : State) (hs : MemGood s.mem) :
    MemGood (accumulated q s).mem := by
  unfold accumulated
  simp only [leavePau_keeps]
  exact Memory.wf_accumulateValues _ _ _ _ hs

@[simp] theorem darkApplied_memGood (q : PauRequest) (e : Nat) (s : State) (hs : MemGood s.mem) :
    MemGood (darkApplied q e s).mem := by
  unfold darkApplied
  dsimp only
  split <;> simp <;> exact Memory.wf_applyDarkValues _ _ _ _ _ hs

@[simp] theorem writeRendition_memGood (base room : Nat) (size : Nat × Nat) (s : State) (hs : MemGood s.mem) :
    MemGood (writeRendition base room size s).mem := by
  exact writeRendition_wf base room size hs

@[simp] theorem completePreview_memGood (j : Job) (h : RunHolds) (s : State) (hs : MemGood s.mem) :
    MemGood (completePreview j h s).mem := by
  unfold completePreview
  try dsimp only
  repeat' split
  all_goals first | (simp only; assumption) | (simp (maxDischargeDepth := 20) [hs]; done) | simp_all

@[simp] theorem endFull_memGood (j : Job) (h : RunHolds) (s : State) (hs : MemGood s.mem) :
    MemGood (endFull j h s).mem := by
  unfold endFull
  try dsimp only
  repeat' split
  all_goals first | (simp only; assumption) | (simp (maxDischargeDepth := 20) [hs]; done) | simp_all

@[simp] theorem completeJob_memGood (j : Job) (h : RunHolds) (s : State) (hs : MemGood s.mem) :
    MemGood (completeJob j h s).mem := by
  unfold completeJob
  try dsimp only
  repeat' split
  all_goals first | (simp only; assumption) | (simp (maxDischargeDepth := 20) [hs]; done) | simp_all

@[simp] theorem clearInternal_memGood (s : State) (hs : MemGood s.mem) :
    MemGood (clearInternal s).mem := by
  exact clearInternal_wf hs

@[simp] theorem stopPau_memGood (s : State) (hs : MemGood s.mem) :
    MemGood (stopPau s).mem := by
  unfold stopPau
  try dsimp only
  repeat' split
  all_goals first | (simp only; assumption) | (simp (maxDischargeDepth := 20) [hs]; done) | simp_all

@[simp] theorem restartBlocks_memGood (s : State) (hs : MemGood s.mem) :
    MemGood (restartBlocks s).mem := by
  unfold restartBlocks
  try dsimp only
  repeat' split
  all_goals first | (simp only; assumption) | (simp (maxDischargeDepth := 20) [hs]; done) | simp_all

@[simp] theorem restartPart_memGood (tag : Nat) (s : State) (hs : MemGood s.mem) :
    MemGood (restartPart tag s).mem := by
  unfold restartPart
  try dsimp only
  repeat' split
  all_goals first | (simp only; assumption) | (simp (maxDischargeDepth := 20) [hs]; done) | simp_all

@[simp] theorem foldl_queueGood {α : Type} (f : State → α → State)
    (h : ∀ s a, QueueGood s.dev.queue → QueueGood (f s a).dev.queue) :
    ∀ (l : List α) (s : State), QueueGood s.dev.queue → QueueGood (l.foldl f s).dev.queue
  | [], _, hs => hs
  | a :: l, s, hs => foldl_queueGood f h l (f s a) (h s a hs)

@[simp] theorem optional_queueGood {α : Type} (f : α → State → State)
    (h : ∀ a s, QueueGood s.dev.queue → QueueGood (f a s).dev.queue) (o : Option α) (s : State) (hs : QueueGood s.dev.queue) :
    QueueGood ((o.map f).getD id s).dev.queue := by
  cases o <;> simp_all

@[simp] theorem placeJob_queueGood (n : Nat) (k : JobKind) (priority : Nat) (tag : Option Nat) (s : State) (hs : QueueGood s.dev.queue) :
    QueueGood (placeJob n k priority tag s).dev.queue := by
  unfold placeJob
  split
  · exact hs
  · simpa [QueueGood] using hs
  · next hp =>
    have hp : s.dev.queue.length < 16 := by
      by_contra hn
      unfold placingOutcome at hp
      simp only [Config.devQueueMax, hn] at hp
      split at hp <;> cases hp
    simp only [QueueGood, List.length_append, List.length_singleton]
    omega

@[simp] theorem dispatchJob_queueGood (j : Job) (r : Record) (s : State) (hs : QueueGood s.dev.queue) :
    QueueGood (dispatchJob j r s).dev.queue := by
  unfold dispatchJob
  dsimp only
  repeat' split
  all_goals
    simp only [QueueGood, List.length_map]
    simpa [QueueGood] using hs

@[simp] theorem attemptDispatch_queueGood (s : State) (hs : QueueGood s.dev.queue) :
    QueueGood (attemptDispatch s).dev.queue := by
  unfold attemptDispatch
  try dsimp only
  repeat' split
  all_goals first | (simp only; assumption) | (simp (maxDischargeDepth := 20) [hs]; done) | simp_all

@[simp] theorem serveEngineClaim_queueGood (s : State) (hs : QueueGood s.dev.queue) :
    QueueGood (serveEngineClaim s).dev.queue := by
  unfold serveEngineClaim
  try dsimp only
  repeat' split
  all_goals first | (simp only; assumption) | (simp (maxDischargeDepth := 20) [hs]; done) | simp_all

@[simp] theorem readoutBegins_queueGood (s : State) (hs : QueueGood s.dev.queue) :
    QueueGood (readoutBegins s).dev.queue := by
  unfold readoutBegins
  try dsimp only
  repeat' split
  all_goals first | (simp only; assumption) | (simp (maxDischargeDepth := 20) [hs]; done) | simp_all

@[simp] theorem readoutEnds_queueGood (s : State) (hs : QueueGood s.dev.queue) :
    QueueGood (readoutEnds s).dev.queue := by
  unfold readoutEnds
  try dsimp only
  repeat' split
  all_goals first | (simp only; assumption) | (simp (maxDischargeDepth := 20) [hs]; done) | simp_all

@[simp] theorem endHolds_queueGood (s : State) (hs : QueueGood s.dev.queue) :
    QueueGood (endHolds s).dev.queue := by
  unfold endHolds
  try dsimp only
  repeat' split
  all_goals first | (simp only; assumption) | (simp (maxDischargeDepth := 20) [hs]; done) | simp_all

@[simp] theorem dropHolds_queueGood (s : State) (hs : QueueGood s.dev.queue) :
    QueueGood (dropHolds s).dev.queue := by
  unfold dropHolds
  cases s.dev.holds with
  | none => simp [hs]
  | some h => cases hh : h.slot <;> simp_all

@[simp] theorem requeueRunning_queueGood (s : State) (hs : QueueGood s.dev.queue) :
    QueueGood (requeueRunning s).dev.queue := by
  unfold requeueRunning
  simp only [QueueGood, List.length_map]
  exact dropHolds_queueGood s hs

@[simp] theorem dropJobs_queueGood (p : Job → Bool) (s : State) (hs : QueueGood s.dev.queue) :
    QueueGood (dropJobs p s).dev.queue := by
  exact Nat.le_trans (List.length_filter_le _ _) hs

@[simp] theorem removeJobs_queueGood (n : Nat) (result : ResultCode) (s : State) (hs : QueueGood s.dev.queue) :
    QueueGood (removeJobs n result s).dev.queue := by
  unfold removeJobs
  try dsimp only
  repeat' split
  all_goals first | (simp only; assumption) | (simp (maxDischargeDepth := 20) [hs]; done) | simp_all

@[simp] theorem leaveDark_queueGood (s : State) (hs : QueueGood s.dev.queue) :
    QueueGood (leaveDark s).dev.queue := by
  unfold leaveDark
  try dsimp only
  repeat' split
  all_goals first | (simp only; assumption) | (simp (maxDischargeDepth := 20) [hs]; done) | simp_all

@[simp] theorem abandonDark_queueGood (s : State) (hs : QueueGood s.dev.queue) :
    QueueGood (abandonDark s).dev.queue := by
  unfold abandonDark
  try dsimp only
  repeat' split
  all_goals first | (simp only; assumption) | (simp (maxDischargeDepth := 20) [hs]; done) | simp_all

@[simp] theorem finishDark_queueGood (temperature : Int) (s : State) (hs : QueueGood s.dev.queue) :
    QueueGood (finishDark temperature s).dev.queue := by
  unfold finishDark
  try dsimp only
  repeat' split
  all_goals first | (simp only; assumption) | (simp (maxDischargeDepth := 20) [hs]; done) | simp_all

@[simp] theorem refuseReads_queueGood (rs : List CardRead) (result : ResultCode) (s : State) (hs : QueueGood s.dev.queue) :
    QueueGood (refuseReads rs result s).dev.queue := by
  unfold refuseReads
  try dsimp only
  repeat' split
  all_goals first | (simp only; assumption) | (simp (maxDischargeDepth := 20) [hs]; done) | simp_all

@[simp] theorem endReads_queueGood (result : ResultCode) (s : State) (hs : QueueGood s.dev.queue) :
    QueueGood (endReads result s).dev.queue := by
  unfold endReads
  try dsimp only
  repeat' split
  all_goals first | (simp only; assumption) | (simp (maxDischargeDepth := 20) [hs]; done) | simp_all

@[simp] theorem dropRecord_queueGood (s : State) (n : Nat) (hs : QueueGood s.dev.queue) :
    QueueGood (dropRecord s n).dev.queue := by
  unfold dropRecord
  try dsimp only
  repeat' split
  all_goals first | (simp only; assumption) | (simp (maxDischargeDepth := 20) [hs]; done) | simp_all

@[simp] theorem dropSettled_queueGood (s : State) (hs : QueueGood s.dev.queue) :
    QueueGood (dropSettled s).dev.queue := by
  unfold dropSettled
  try dsimp only
  repeat' split
  all_goals first | (simp only; assumption) | (simp (maxDischargeDepth := 20) [hs]; done) | simp_all

@[simp] theorem finishDrain_queueGood (s : State) (hs : QueueGood s.dev.queue) :
    QueueGood (finishDrain s).dev.queue := by
  unfold finishDrain
  try dsimp only
  repeat' split
  all_goals first | (simp only; assumption) | (simp (maxDischargeDepth := 20) [hs]; done) | simp_all

@[simp] theorem serveBlocks_queueGood (s : State) (hs : QueueGood s.dev.queue) :
    QueueGood (serveBlocks s).dev.queue := by
  unfold serveBlocks
  try dsimp only
  repeat' split
  all_goals first | (simp only; assumption) | (simp (maxDischargeDepth := 20) [hs]; done) | simp_all

@[simp] theorem service_queueGood (s : State) (hs : QueueGood s.dev.queue) :
    QueueGood (service s).dev.queue := by
  unfold service
  try dsimp only
  repeat' split
  all_goals first | (simp only; assumption) | (simp (maxDischargeDepth := 20) [hs]; done) | simp_all

@[simp] theorem enterRunning_queueGood (s : State) (hs : QueueGood s.dev.queue) :
    QueueGood (enterRunning s).dev.queue := by
  unfold enterRunning
  try dsimp only
  repeat' split
  all_goals first | (simp only; assumption) | (simp (maxDischargeDepth := 20) [hs]; done) | simp_all

@[simp] theorem startDark_queueGood (k : Start) (s : State) (hs : QueueGood s.dev.queue) :
    QueueGood (startDark k s).2.dev.queue := by
  unfold startDark
  try dsimp only
  repeat' split
  all_goals first | (simp only; assumption) | (simp (maxDischargeDepth := 20) [hs]; done) | simp_all

@[simp] theorem decideStart_queueGood (k : Start) (s : State) (hs : QueueGood s.dev.queue) :
    QueueGood (decideStart k s).2.dev.queue := by
  unfold decideStart
  try dsimp only
  repeat' split
  all_goals first | (simp only; assumption) | (simp (maxDischargeDepth := 20) [hs]; done) | simp_all

@[simp] theorem release_queueGood (s : State) (hs : QueueGood s.dev.queue) :
    QueueGood (release s).dev.queue := by
  unfold release
  try dsimp only
  repeat' split
  all_goals first | (simp only; assumption) | (simp (maxDischargeDepth := 20) [hs]; done) | simp_all

@[simp] theorem autoJob_queueGood (n : Nat) (k : JobKind) (setting : Option Nat) (s : State) (hs : QueueGood s.dev.queue) :
    QueueGood (autoJob n k setting s).dev.queue := by
  unfold autoJob
  try dsimp only
  repeat' split
  all_goals first | (simp only; assumption) | (simp (maxDischargeDepth := 20) [hs]; done) | simp_all

@[simp] theorem autoJobs_queueGood (n : Nat) (roll : Option Roll) (s : State) (hs : QueueGood s.dev.queue) :
    QueueGood (autoJobs n roll s).dev.queue := by
  unfold autoJobs
  try dsimp only
  repeat' split
  all_goals first | (simp only; assumption) | (simp (maxDischargeDepth := 20) [hs]; done) | simp_all

@[simp] theorem finishShot_queueGood (s : State) (hs : QueueGood s.dev.queue) :
    QueueGood (finishShot s).dev.queue := by
  unfold finishShot
  try dsimp only
  repeat' split
  all_goals first | (simp only; assumption) | (simp (maxDischargeDepth := 20) [hs]; done) | simp_all

@[simp] theorem beginReadout_queueGood (x : SeqState) (s : State) (hs : QueueGood s.dev.queue) :
    QueueGood (beginReadout x s).dev.queue := by
  unfold beginReadout
  try dsimp only
  repeat' split
  all_goals first | (simp only; assumption) | (simp (maxDischargeDepth := 20) [hs]; done) | simp_all

@[simp] theorem goodReadout_queueGood (temperature : Int) (s : State) (hs : QueueGood s.dev.queue) :
    QueueGood (goodReadout temperature s).dev.queue := by
  unfold goodReadout
  try dsimp only
  repeat' split
  all_goals first | (simp only; assumption) | (simp (maxDischargeDepth := 20) [hs]; done) | simp_all

@[simp] theorem failedReadout_queueGood (s : State) (hs : QueueGood s.dev.queue) :
    QueueGood (failedReadout s).dev.queue := by
  unfold failedReadout
  try dsimp only
  repeat' split
  all_goals first | (simp only; assumption) | (simp (maxDischargeDepth := 20) [hs]; done) | simp_all

@[simp] theorem failedDark_queueGood (s : State) (hs : QueueGood s.dev.queue) :
    QueueGood (failedDark s).dev.queue := by
  unfold failedDark
  try dsimp only
  repeat' split
  all_goals first | (simp only; assumption) | (simp (maxDischargeDepth := 20) [hs]; done) | simp_all

@[simp] theorem takeFromBlocks_queueGood (r : Record) (s : State) (hs : QueueGood s.dev.queue) :
    QueueGood (takeFromBlocks r s).dev.queue := by
  unfold takeFromBlocks
  try dsimp only
  repeat' split
  all_goals first | (simp only; assumption) | (simp (maxDischargeDepth := 20) [hs]; done) | simp_all

@[simp] theorem acceptRetire_queueGood (tag : Nat) (r : Record) (s : State) (hs : QueueGood s.dev.queue) :
    QueueGood (acceptRetire tag r s).dev.queue := by
  unfold acceptRetire
  try dsimp only
  repeat' split
  all_goals first | (simp only; assumption) | (simp (maxDischargeDepth := 20) [hs]; done) | simp_all

@[simp] theorem retireResident_queueGood (tag : Nat) (r : Record) (s : State) (hs : QueueGood s.dev.queue) :
    QueueGood (retireResident tag r s).dev.queue := by
  unfold retireResident
  try dsimp only
  repeat' split
  all_goals first | (simp only; assumption) | (simp (maxDischargeDepth := 20) [hs]; done) | simp_all

@[simp] theorem onResident_queueGood (tag : Nat) (q : LoadRequest) (r : Record) (s : State) (hs : QueueGood s.dev.queue) :
    QueueGood (onResident tag q r s).dev.queue := by
  unfold onResident
  try dsimp only
  repeat' split
  all_goals first | (simp only; assumption) | (simp (maxDischargeDepth := 20) [hs]; done) | simp_all

@[simp] theorem onShot_queueGood (tag n : Nat) (q : LoadRequest) (s : State) (hs : QueueGood s.dev.queue) :
    QueueGood (onShot tag n q s).dev.queue := by
  unfold onShot
  try dsimp only
  repeat' split
  all_goals first | (simp only; assumption) | (simp (maxDischargeDepth := 20) [hs]; done) | simp_all

@[simp] theorem proceed_queueGood (n : Nat) (s : State) (w : LoadWaiter) (hs : QueueGood s.dev.queue) :
    QueueGood (proceed n s w).dev.queue := by
  unfold proceed
  try dsimp only
  repeat' split
  all_goals first | (simp only; assumption) | (simp (maxDischargeDepth := 20) [hs]; done) | simp_all

@[simp] theorem completeLoad_queueGood (n slot : Nat) (block : List Byte) (s : State) (hs : QueueGood s.dev.queue) :
    QueueGood (completeLoad n slot block s).dev.queue := by
  unfold completeLoad
  try dsimp only
  repeat' split
  all_goals first | (simp only; assumption) | (simp (maxDischargeDepth := 20) [hs]; done) | simp_all

@[simp] theorem loadDone_queueGood (n slot : Nat) (block : List Byte) (s : State) (hs : QueueGood s.dev.queue) :
    QueueGood (loadDone n slot block s).dev.queue := by
  unfold loadDone
  try dsimp only
  repeat' split
  all_goals first | (simp only; assumption) | (simp (maxDischargeDepth := 20) [hs]; done) | simp_all

@[simp] theorem renumberTo_queueGood (old new : Nat) (s : State) (hs : QueueGood s.dev.queue) :
    QueueGood (renumberTo old new s).dev.queue := by
  unfold renumberTo
  simp only [QueueGood]
  simpa [QueueGood] using hs

@[simp] theorem renumberShot_queueGood (s : State) (old : Nat) (hs : QueueGood s.dev.queue) :
    QueueGood (renumberShot s old).dev.queue := by
  unfold renumberShot
  try dsimp only
  repeat' split
  all_goals first | (simp only; assumption) | (simp (maxDischargeDepth := 20) [hs]; done) | simp_all

@[simp] theorem renumberAll_queueGood (next : Nat) (s : State) (hs : QueueGood s.dev.queue) :
    QueueGood (renumberAll next s).dev.queue := by
  unfold renumberAll
  try dsimp only
  repeat' split
  all_goals first | (simp only; assumption) | (simp (maxDischargeDepth := 20) [hs]; done) | simp_all

@[simp] theorem finishMount_queueGood (blocks : List (Nat × List Byte)) (s : State) (hs : QueueGood s.dev.queue) :
    QueueGood (finishMount blocks s).dev.queue := by
  unfold finishMount
  try dsimp only
  repeat' split
  all_goals first | (simp only; assumption) | (simp (maxDischargeDepth := 20) [hs]; done) | simp_all

@[simp] theorem failWaitingLoads_queueGood (result : ResultCode) (s : State) (hs : QueueGood s.dev.queue) :
    QueueGood (failWaitingLoads result s).dev.queue := by
  unfold failWaitingLoads
  try dsimp only
  repeat' split
  all_goals first | (simp only; assumption) | (simp (maxDischargeDepth := 20) [hs]; done) | simp_all

@[simp] theorem clearForFormat_queueGood (s : State) (hs : QueueGood s.dev.queue) :
    QueueGood (clearForFormat s).dev.queue := by
  unfold clearForFormat
  try dsimp only
  repeat' split
  all_goals first | (simp only; assumption) | (simp (maxDischargeDepth := 20) [hs]; done) | simp_all

@[simp] theorem endForFormat_queueGood (volumeId : Nat) (s : State) (hs : QueueGood s.dev.queue) :
    QueueGood (endForFormat volumeId s).dev.queue := by
  unfold endForFormat
  try dsimp only
  repeat' split
  all_goals first | (simp only; assumption) | (simp (maxDischargeDepth := 20) [hs]; done) | simp_all

@[simp] theorem awaitBus_queueGood (volumeId : Nat) (s : State) (hs : QueueGood s.dev.queue) :
    QueueGood (awaitBus volumeId s).dev.queue := by
  unfold awaitBus
  try dsimp only
  repeat' split
  all_goals first | (simp only; assumption) | (simp (maxDischargeDepth := 20) [hs]; done) | simp_all

@[simp] theorem beginFormat_queueGood (tag : Nat) (s : State) (hs : QueueGood s.dev.queue) :
    QueueGood (beginFormat tag s).dev.queue := by
  unfold beginFormat
  try dsimp only
  repeat' split
  all_goals first | (simp only; assumption) | (simp (maxDischargeDepth := 20) [hs]; done) | simp_all

@[simp] theorem cardFault_queueGood (s : State) (hs : QueueGood s.dev.queue) :
    QueueGood (cardFault s).dev.queue := by
  unfold cardFault
  try dsimp only
  repeat' split
  all_goals first | (simp only; assumption) | (simp (maxDischargeDepth := 20) [hs]; done) | simp_all

@[simp] theorem orphanAnswered_queueGood (s : State) (hs : QueueGood s.dev.queue) :
    QueueGood (orphanAnswered s).dev.queue := by
  unfold orphanAnswered
  try dsimp only
  repeat' split
  all_goals first | (simp only; assumption) | (simp (maxDischargeDepth := 20) [hs]; done) | simp_all

theorem stopAtAnswer_queueGood {s t : State} (h : stopAtAnswer s = some t) (hs : QueueGood s.dev.queue) :
    QueueGood t.dev.queue := by
  unfold stopAtAnswer at h
  split at h
  · cases h; simp [hs]
  · split at h
    · cases h; simpa using hs
    · cases h
  · cases h; simpa using hs
  · cases h

@[simp] theorem answeredError_queueGood (s : State) (hs : QueueGood s.dev.queue) :
    QueueGood (answeredError s).dev.queue := by
  unfold answeredError
  repeat' split
  any_goals simp (maxDischargeDepth := 20) [hs]
  next h' => simp [stopAtAnswer_queueGood h' hs]

@[simp] theorem answeredOk_queueGood (g : State → State) (hg : ∀ s, QueueGood s.dev.queue → QueueGood (g s).dev.queue)
    (s : State) (h : QueueGood s.dev.queue) : QueueGood (answeredOk g s).dev.queue := by
  unfold answeredOk
  repeat' split
  any_goals simp [h, hg]
  next h' => simp [stopAtAnswer_queueGood h' h]

@[simp] theorem endCardWork_queueGood (s : State) (hs : QueueGood s.dev.queue) :
    QueueGood (endCardWork s).dev.queue := by
  unfold endCardWork
  try dsimp only
  repeat' split
  all_goals first | (simp only; assumption) | (simp (maxDischargeDepth := 20) [hs]; done) | simp_all

@[simp] theorem removeCard_queueGood (s : State) (hs : QueueGood s.dev.queue) :
    QueueGood (removeCard s).dev.queue := by
  unfold removeCard
  try dsimp only
  repeat' split
  all_goals first | (simp only; assumption) | (simp (maxDischargeDepth := 20) [hs]; done) | simp_all

@[simp] theorem fetchDone_queueGood (s : State) (hs : QueueGood s.dev.queue) :
    QueueGood (fetchDone s).dev.queue := by
  unfold fetchDone
  try dsimp only
  repeat' split
  all_goals first | (simp only; assumption) | (simp (maxDischargeDepth := 20) [hs]; done) | simp_all

@[simp] theorem acceptEject_queueGood (tag : Nat) (s : State) (hs : QueueGood s.dev.queue) :
    QueueGood (acceptEject tag s).dev.queue := by
  unfold acceptEject
  try dsimp only
  repeat' split
  all_goals first | (simp only; assumption) | (simp (maxDischargeDepth := 20) [hs]; done) | simp_all

@[simp] theorem deliver_queueGood (i : SyncInput) (level : Contact) (t : Time) (s : State) (hs : QueueGood s.dev.queue) :
    QueueGood (deliver i level t s).dev.queue := by
  unfold deliver
  try dsimp only
  repeat' split
  all_goals first | (simp only; assumption) | (simp (maxDischargeDepth := 20) [hs]; done) | simp_all

@[simp] theorem qualify_queueGood (i : SyncInput) (s : State) (hs : QueueGood s.dev.queue) :
    QueueGood (qualify i s).dev.queue := by
  unfold qualify
  try dsimp only
  repeat' split
  all_goals first | (simp only; assumption) | (simp (maxDischargeDepth := 20) [hs]; done) | simp_all

@[simp] theorem armExpired_queueGood (s : State) (hs : QueueGood s.dev.queue) :
    QueueGood (armExpired s).dev.queue := by
  unfold armExpired
  try dsimp only
  repeat' split
  all_goals first | (simp only; assumption) | (simp (maxDischargeDepth := 20) [hs]; done) | simp_all

@[simp] theorem settleExpired_queueGood (s : State) (hs : QueueGood s.dev.queue) :
    QueueGood (settleExpired s).dev.queue := by
  unfold settleExpired
  try dsimp only
  repeat' split
  all_goals first | (simp only; assumption) | (simp (maxDischargeDepth := 20) [hs]; done) | simp_all

@[simp] theorem afterAccumulate_queueGood (s : State) (hs : QueueGood s.dev.queue) :
    QueueGood (afterAccumulate s).dev.queue := by
  unfold afterAccumulate
  try dsimp only
  repeat' split
  all_goals first | (simp only; assumption) | (simp (maxDischargeDepth := 20) [hs]; done) | simp_all

@[simp] theorem setEngine_queueGood (x : EngineState) (s : State) (hs : QueueGood s.dev.queue) :
    QueueGood (setEngine x s).dev.queue := by
  unfold setEngine
  try dsimp only
  repeat' split
  all_goals first | (simp only; assumption) | (simp (maxDischargeDepth := 20) [hs]; done) | simp_all

@[simp] theorem completePreview_queueGood (j : Job) (h : RunHolds) (s : State) (hs : QueueGood s.dev.queue) :
    QueueGood (completePreview j h s).dev.queue := by
  unfold completePreview
  try dsimp only
  repeat' split
  all_goals first | (simp only; assumption) | (simp (maxDischargeDepth := 20) [hs]; done) | simp_all

@[simp] theorem completeFull_queueGood (j : Job) (plane : Nat) (size : Nat × Nat) (s : State) (hs : QueueGood s.dev.queue) :
    QueueGood (completeFull j plane size s).dev.queue := by
  unfold completeFull
  try dsimp only
  repeat' split
  all_goals first | (simp only; assumption) | (simp (maxDischargeDepth := 20) [hs]; done) | simp_all

@[simp] theorem requeueStale_queueGood (j : Job) (plane : Nat) (s : State) (hs : QueueGood s.dev.queue) :
    QueueGood (requeueStale j plane s).dev.queue := by
  unfold requeueStale
  simp only [QueueGood]
  simpa [QueueGood] using hs

@[simp] theorem endFull_queueGood (j : Job) (h : RunHolds) (s : State) (hs : QueueGood s.dev.queue) :
    QueueGood (endFull j h s).dev.queue := by
  unfold endFull
  try dsimp only
  repeat' split
  all_goals first | (simp only; assumption) | (simp (maxDischargeDepth := 20) [hs]; done) | simp_all

@[simp] theorem completeJob_queueGood (j : Job) (h : RunHolds) (s : State) (hs : QueueGood s.dev.queue) :
    QueueGood (completeJob j h s).dev.queue := by
  unfold completeJob
  try dsimp only
  repeat' split
  all_goals first | (simp only; assumption) | (simp (maxDischargeDepth := 20) [hs]; done) | simp_all

@[simp] theorem placeWaiting_queueGood (tag n : Nat) (k : JobKind) (priority : Nat) (s : State) (hs : QueueGood s.dev.queue) :
    QueueGood (placeWaiting tag n k priority s).dev.queue := by
  unfold placeWaiting
  try dsimp only
  repeat' split
  all_goals first | (simp only; assumption) | (simp (maxDischargeDepth := 20) [hs]; done) | simp_all

@[simp] theorem placeAndAnswer_queueGood (tag n : Nat) (k : JobKind) (priority : Nat) (s : State) (hs : QueueGood s.dev.queue) :
    QueueGood (placeAndAnswer tag n k priority s).dev.queue := by
  unfold placeAndAnswer
  try dsimp only
  repeat' split
  all_goals first | (simp only; assumption) | (simp (maxDischargeDepth := 20) [hs]; done) | simp_all

@[simp] theorem developResident_queueGood (tag : Nat) (k : JobKind) (priority : Nat) (r : Record) (s : State) (hs : QueueGood s.dev.queue) :
    QueueGood (developResident tag k priority r s).dev.queue := by
  unfold developResident
  try dsimp only
  repeat' split
  all_goals first | (simp only; assumption) | (simp (maxDischargeDepth := 20) [hs]; done) | simp_all

@[simp] theorem getResident_queueGood (tag : Nat) (r : Record) (s : State) (hs : QueueGood s.dev.queue) :
    QueueGood (getResident tag r s).dev.queue := by
  unfold getResident
  try dsimp only
  repeat' split
  all_goals first | (simp only; assumption) | (simp (maxDischargeDepth := 20) [hs]; done) | simp_all

@[simp] theorem restartSequencer_queueGood (s : State) (hs : QueueGood s.dev.queue) :
    QueueGood (restartSequencer s).dev.queue := by
  unfold restartSequencer
  try dsimp only
  repeat' split
  all_goals first | (simp only; assumption) | (simp (maxDischargeDepth := 20) [hs]; done) | simp_all

@[simp] theorem restartDev_queueGood (s : State) (hs : QueueGood s.dev.queue) :
    QueueGood (restartDev s).dev.queue := by
  unfold restartDev
  simp [QueueGood]

@[simp] theorem restartCard_queueGood (s : State) (hs : QueueGood s.dev.queue) :
    QueueGood (restartCard s).dev.queue := by
  unfold restartCard
  try dsimp only
  repeat' split
  all_goals first | (simp only; assumption) | (simp (maxDischargeDepth := 20) [hs]; done) | simp_all

@[simp] theorem restartBlocks_queueGood (s : State) (hs : QueueGood s.dev.queue) :
    QueueGood (restartBlocks s).dev.queue := by
  unfold restartBlocks
  try dsimp only
  repeat' split
  all_goals first | (simp only; assumption) | (simp (maxDischargeDepth := 20) [hs]; done) | simp_all

@[simp] theorem restartStores_queueGood (s : State) (hs : QueueGood s.dev.queue) :
    QueueGood (restartStores s).dev.queue := by
  unfold restartStores
  try dsimp only
  repeat' split
  all_goals first | (simp only; assumption) | (simp (maxDischargeDepth := 20) [hs]; done) | simp_all

@[simp] theorem restartEnds_queueGood (s : State) (hs : QueueGood s.dev.queue) :
    QueueGood (restartEnds s).dev.queue := by
  unfold restartEnds
  try dsimp only
  repeat' split
  all_goals first | (simp only; assumption) | (simp (maxDischargeDepth := 20) [hs]; done) | simp_all

@[simp] theorem restartPart_queueGood (tag : Nat) (s : State) (hs : QueueGood s.dev.queue) :
    QueueGood (restartPart tag s).dev.queue := by
  unfold restartPart
  exact restartEnds_queueGood _ (by simp [hs])

theorem pinsGood_reset : PinsGood Cache.reset.slots := by
  intro x hx
  have := List.eq_of_mem_replicate hx
  subst this
  exact ⟨by decide, by simp⟩

theorem pinGood_leave (gone : Nat → Bool) (x : PreviewSlot) (h : PinGood x) :
    PinGood (x.leave gone) := by
  unfold PreviewSlot.leave
  repeat' split
  all_goals simp_all [PinGood, PreviewSlot.isValid]

theorem pinGood_evict (n : Nat) (k : DevKey) (x : PreviewSlot) (h : PinGood x) :
    PinGood (x.evict n k) := by
  unfold PreviewSlot.evict
  repeat' split
  all_goals simp_all [PinGood, PreviewSlot.isValid]

theorem pinGood_renumber (old new : Nat) (x : PreviewSlot) (h : PinGood x) :
    PinGood (x.renumber old new) := by
  unfold PreviewSlot.renumber
  repeat' split
  all_goals simp_all [PinGood, PreviewSlot.isValid]

theorem pinGood_supersede (n : Nat) (k : DevKey) (x : PreviewSlot) (h : PinGood x) :
    PinGood (supersedeSlot n k x) := by
  unfold supersedeSlot
  split
  · exact ⟨by decide, by simp⟩
  · exact h

/-- A slot of the cache set to one with one pin fewer. -/
theorem setPinned_pinsGood (i : Nat) (s : State) (hs : PinsGood s.cache.slots) :
    PinsGood (s.cache.slots.set i
      { state := (previewSlot s i).state, pins := (previewSlot s i).pins - 1 }) := by
  intro y hy
  obtain ⟨j, hj, rfl⟩ := List.mem_iff_getElem.1 hy
  rw [List.length_set] at hj
  rw [List.getElem_set]
  split
  · next e =>
    subst e
    have hg := hs _ (List.getElem_mem hj)
    simp only [previewSlot, List.getD_eq_getElem?_getD, List.getElem?_eq_getElem hj, Option.getD_some]
    exact ⟨by have := hg.1; simp only; omega, fun h0 => hg.2 (by simp only at h0; omega)⟩
  · exact hs _ (List.getElem_mem hj)

@[simp] theorem foldl_pinsGood {α : Type} (f : State → α → State)
    (h : ∀ s a, PinsGood s.cache.slots → PinsGood (f s a).cache.slots) :
    ∀ (l : List α) (s : State), PinsGood s.cache.slots → PinsGood (l.foldl f s).cache.slots
  | [], _, hs => hs
  | a :: l, s, hs => foldl_pinsGood f h l (f s a) (h s a hs)

@[simp] theorem optional_pinsGood {α : Type} (f : α → State → State)
    (h : ∀ a s, PinsGood s.cache.slots → PinsGood (f a s).cache.slots) (o : Option α) (s : State) (hs : PinsGood s.cache.slots) :
    PinsGood ((o.map f).getD id s).cache.slots := by
  cases o <;> simp_all

@[simp] theorem setPreview_pinsGood (i : Nat) (x : PreviewSlot) (s : State) (hs : PinsGood s.cache.slots) (hx : PinGood x) :
    PinsGood (setPreview i x s).cache.slots := by
  intro y hy
  rcases List.mem_or_eq_of_mem_set hy with hy | rfl
  · exact hs y hy
  · exact hx

@[simp] theorem fillSlot_pinsGood (i : Nat) (s : State) (hs : PinsGood s.cache.slots) :
    PinsGood (fillSlot i s).cache.slots := by
  exact setPreview_pinsGood i _ s hs ⟨by decide, by simp⟩

@[simp] theorem freeSlot_pinsGood (i : Nat) (s : State) (hs : PinsGood s.cache.slots) :
    PinsGood (freeSlot i s).cache.slots := by
  exact setPreview_pinsGood i _ s hs ⟨by decide, by simp⟩

@[simp] theorem touchPreview_pinsGood (i : Nat) (s : State) (hs : PinsGood s.cache.slots) :
    PinsGood (touchPreview i s).cache.slots := by
  exact hs

@[simp] theorem mapSlots_pinsGood (f : PreviewSlot → PreviewSlot) (s : State) (hs : PinsGood s.cache.slots) (hf : ∀ x, PinGood x → PinGood (f x)) :
    PinsGood (mapSlots f s).cache.slots := by
  intro y hy
  obtain ⟨z, hz, rfl⟩ := List.mem_map.1 hy
  exact hf z (hs z hz)

@[simp] theorem leaveSlots_pinsGood (gone : Nat → Bool) (s : State) (hs : PinsGood s.cache.slots) :
    PinsGood (leaveSlots gone s).cache.slots := by
  exact mapSlots_pinsGood _ s hs (pinGood_leave gone)

@[simp] theorem pinSlot_pinsGood (i : Nat) (s : State) (hs : PinsGood s.cache.slots) (hp : (previewSlot s i).pins < 7)
    (hv : i < s.cache.slots.length → (previewSlot s i).isValid = true) :
    PinsGood (pinSlot i s).cache.slots := by
  intro y hy
  obtain ⟨j, hj, rfl⟩ := List.mem_iff_getElem.1 hy
  simp only [pinSlot, List.length_modify] at hj
  have hg := hs _ (List.getElem_mem hj)
  simp only [pinSlot, List.getElem_modify]
  split
  · next e =>
    subst e
    have hv := hv hj
    simp only [previewSlot, List.getD_eq_getElem?_getD, List.getElem?_eq_getElem hj, Option.getD_some] at hp hv
    exact ⟨by simp only; omega, fun _ => hv⟩
  · exact hg

@[simp] theorem dispatchJob_pinsGood (j : Job) (r : Record) (s : State) (hs : PinsGood s.cache.slots) :
    PinsGood (dispatchJob j r s).cache.slots := by
  unfold dispatchJob
  try dsimp only
  repeat' split
  all_goals first | (simp only; assumption) | (simp (maxDischargeDepth := 20) [hs]; done) | simp_all

@[simp] theorem attemptDispatch_pinsGood (s : State) (hs : PinsGood s.cache.slots) :
    PinsGood (attemptDispatch s).cache.slots := by
  unfold attemptDispatch
  try dsimp only
  repeat' split
  all_goals first | (simp only; assumption) | (simp (maxDischargeDepth := 20) [hs]; done) | simp_all

@[simp] theorem serveEngineClaim_pinsGood (s : State) (hs : PinsGood s.cache.slots) :
    PinsGood (serveEngineClaim s).cache.slots := by
  unfold serveEngineClaim
  try dsimp only
  repeat' split
  all_goals first | (simp only; assumption) | (simp (maxDischargeDepth := 20) [hs]; done) | simp_all

@[simp] theorem dropHolds_pinsGood (s : State) (hs : PinsGood s.cache.slots) :
    PinsGood (dropHolds s).cache.slots := by
  unfold dropHolds
  cases s.dev.holds with
  | none => simp [hs]
  | some h => cases hh : h.slot <;> simp_all

@[simp] theorem requeueRunning_pinsGood (s : State) (hs : PinsGood s.cache.slots) :
    PinsGood (requeueRunning s).cache.slots := by
  unfold requeueRunning
  try dsimp only
  repeat' split
  all_goals first | (simp only; assumption) | (simp (maxDischargeDepth := 20) [hs]; done) | simp_all

@[simp] theorem removeJobs_pinsGood (n : Nat) (result : ResultCode) (s : State) (hs : PinsGood s.cache.slots) :
    PinsGood (removeJobs n result s).cache.slots := by
  unfold removeJobs
  try dsimp only
  repeat' split
  all_goals first | (simp only; assumption) | (simp (maxDischargeDepth := 20) [hs]; done) | simp_all

@[simp] theorem refuseReads_pinsGood (rs : List CardRead) (result : ResultCode) (s : State) (hs : PinsGood s.cache.slots) :
    PinsGood (refuseReads rs result s).cache.slots := by
  unfold refuseReads
  try dsimp only
  repeat' split
  all_goals first | (simp only; assumption) | (simp (maxDischargeDepth := 20) [hs]; done) | simp_all

@[simp] theorem endReads_pinsGood (result : ResultCode) (s : State) (hs : PinsGood s.cache.slots) :
    PinsGood (endReads result s).cache.slots := by
  unfold endReads
  try dsimp only
  repeat' split
  all_goals first | (simp only; assumption) | (simp (maxDischargeDepth := 20) [hs]; done) | simp_all

@[simp] theorem dropRecord_pinsGood (s : State) (n : Nat) (hs : PinsGood s.cache.slots) :
    PinsGood (dropRecord s n).cache.slots := by
  unfold dropRecord
  try dsimp only
  repeat' split
  all_goals first | (simp only; assumption) | (simp (maxDischargeDepth := 20) [hs]; done) | simp_all

@[simp] theorem dropSettled_pinsGood (s : State) (hs : PinsGood s.cache.slots) :
    PinsGood (dropSettled s).cache.slots := by
  unfold dropSettled
  exact leaveSlots_pinsGood _ _ (foldl_pinsGood _ (fun s a h => dropRecord_pinsGood s a h) _ _ hs)

@[simp] theorem finishDrain_pinsGood (s : State) (hs : PinsGood s.cache.slots) :
    PinsGood (finishDrain s).cache.slots := by
  unfold finishDrain
  try dsimp only
  repeat' split
  all_goals first | (simp only; assumption) | (simp (maxDischargeDepth := 20) [hs]; done) | simp_all

@[simp] theorem serveBlocks_pinsGood (s : State) (hs : PinsGood s.cache.slots) :
    PinsGood (serveBlocks s).cache.slots := by
  unfold serveBlocks
  try dsimp only
  repeat' split
  all_goals first | (simp only; assumption) | (simp (maxDischargeDepth := 20) [hs]; done) | simp_all

@[simp] theorem service_pinsGood (s : State) (hs : PinsGood s.cache.slots) :
    PinsGood (service s).cache.slots := by
  unfold service
  try dsimp only
  repeat' split
  all_goals first | (simp only; assumption) | (simp (maxDischargeDepth := 20) [hs]; done) | simp_all

@[simp] theorem enterRunning_pinsGood (s : State) (hs : PinsGood s.cache.slots) :
    PinsGood (enterRunning s).cache.slots := by
  unfold enterRunning
  try dsimp only
  repeat' split
  all_goals first | (simp only; assumption) | (simp (maxDischargeDepth := 20) [hs]; done) | simp_all

@[simp] theorem evictSlot_pinsGood (i : Nat) (s : State) (hs : PinsGood s.cache.slots) :
    PinsGood (evictSlot i s).cache.slots := by
  unfold evictSlot
  try dsimp only
  repeat' split
  any_goals simpa using hs
  exact mapSlots_pinsGood _ _ (by simpa using hs) (pinGood_evict _ _)

@[simp] theorem claimStart_pinsGood (k : Start) (rollSlot : Nat) (roll : Roll) (s : State) (hs : PinsGood s.cache.slots) :
    PinsGood (claimStart k rollSlot roll s).2.cache.slots := by
  unfold claimStart
  try dsimp only
  repeat' split
  all_goals first | (simp only; assumption) | (simp (maxDischargeDepth := 20) [hs]; done) | simp_all

@[simp] theorem startIdle_pinsGood (k : Start) (s : State) (hs : PinsGood s.cache.slots) :
    PinsGood (startIdle k s).2.cache.slots := by
  unfold startIdle
  try dsimp only
  repeat' split
  all_goals first | (simp only; assumption) | (simp (maxDischargeDepth := 20) [hs]; done) | simp_all

@[simp] theorem startDark_pinsGood (k : Start) (s : State) (hs : PinsGood s.cache.slots) :
    PinsGood (startDark k s).2.cache.slots := by
  unfold startDark
  try dsimp only
  repeat' split
  all_goals first | (simp only; assumption) | (simp (maxDischargeDepth := 20) [hs]; done) | simp_all

@[simp] theorem decideStart_pinsGood (k : Start) (s : State) (hs : PinsGood s.cache.slots) :
    PinsGood (decideStart k s).2.cache.slots := by
  unfold decideStart
  try dsimp only
  repeat' split
  all_goals first | (simp only; assumption) | (simp (maxDischargeDepth := 20) [hs]; done) | simp_all

@[simp] theorem release_pinsGood (s : State) (hs : PinsGood s.cache.slots) :
    PinsGood (release s).cache.slots := by
  unfold release
  try dsimp only
  repeat' split
  all_goals first | (simp only; assumption) | (simp (maxDischargeDepth := 20) [hs]; done) | simp_all

@[simp] theorem takeFromBlocks_pinsGood (r : Record) (s : State) (hs : PinsGood s.cache.slots) :
    PinsGood (takeFromBlocks r s).cache.slots := by
  unfold takeFromBlocks
  try dsimp only
  repeat' split
  all_goals first | (simp only; assumption) | (simp (maxDischargeDepth := 20) [hs]; done) | simp_all

@[simp] theorem acceptRetire_pinsGood (tag : Nat) (r : Record) (s : State) (hs : PinsGood s.cache.slots) :
    PinsGood (acceptRetire tag r s).cache.slots := by
  unfold acceptRetire
  try dsimp only
  repeat' split
  all_goals first | (simp only; assumption) | (simp (maxDischargeDepth := 20) [hs]; done) | simp_all

@[simp] theorem retireResident_pinsGood (tag : Nat) (r : Record) (s : State) (hs : PinsGood s.cache.slots) :
    PinsGood (retireResident tag r s).cache.slots := by
  unfold retireResident
  try dsimp only
  repeat' split
  all_goals first | (simp only; assumption) | (simp (maxDischargeDepth := 20) [hs]; done) | simp_all

@[simp] theorem onResident_pinsGood (tag : Nat) (q : LoadRequest) (r : Record) (s : State) (hs : PinsGood s.cache.slots) :
    PinsGood (onResident tag q r s).cache.slots := by
  unfold onResident
  try dsimp only
  repeat' split
  all_goals first | (simp only; assumption) | (simp (maxDischargeDepth := 20) [hs]; done) | simp_all

@[simp] theorem startLoad_pinsGood (i n slot : Nat) (w : LoadWaiter) (s : State) (hs : PinsGood s.cache.slots) :
    PinsGood (startLoad i n slot w s).cache.slots := by
  unfold startLoad
  try dsimp only
  repeat' split
  all_goals first | (simp only; assumption) | (simp (maxDischargeDepth := 20) [hs]; done) | simp_all

@[simp] theorem requestLoad_pinsGood (tag n : Nat) (q : LoadRequest) (s : State) (hs : PinsGood s.cache.slots) :
    PinsGood (requestLoad tag n q s).cache.slots := by
  unfold requestLoad
  try dsimp only
  repeat' split
  all_goals first | (simp only; assumption) | (simp (maxDischargeDepth := 20) [hs]; done) | simp_all

@[simp] theorem onShot_pinsGood (tag n : Nat) (q : LoadRequest) (s : State) (hs : PinsGood s.cache.slots) :
    PinsGood (onShot tag n q s).cache.slots := by
  unfold onShot
  try dsimp only
  repeat' split
  all_goals first | (simp only; assumption) | (simp (maxDischargeDepth := 20) [hs]; done) | simp_all

@[simp] theorem proceed_pinsGood (n : Nat) (s : State) (w : LoadWaiter) (hs : PinsGood s.cache.slots) :
    PinsGood (proceed n s w).cache.slots := by
  unfold proceed
  try dsimp only
  repeat' split
  all_goals first | (simp only; assumption) | (simp (maxDischargeDepth := 20) [hs]; done) | simp_all

@[simp] theorem completeLoad_pinsGood (n slot : Nat) (block : List Byte) (s : State) (hs : PinsGood s.cache.slots) :
    PinsGood (completeLoad n slot block s).cache.slots := by
  unfold completeLoad
  try dsimp only
  repeat' split
  all_goals first | (simp only; assumption) | (simp (maxDischargeDepth := 20) [hs]; done) | simp_all

@[simp] theorem loadDone_pinsGood (n slot : Nat) (block : List Byte) (s : State) (hs : PinsGood s.cache.slots) :
    PinsGood (loadDone n slot block s).cache.slots := by
  unfold loadDone
  try dsimp only
  repeat' split
  all_goals first | (simp only; assumption) | (simp (maxDischargeDepth := 20) [hs]; done) | simp_all

@[simp] theorem renumberTo_pinsGood (old new : Nat) (s : State) (hs : PinsGood s.cache.slots) :
    PinsGood (renumberTo old new s).cache.slots := by
  unfold renumberTo
  simp only
  exact mapSlots_pinsGood _ _ (by simpa using hs) (pinGood_renumber _ _)

@[simp] theorem renumberShot_pinsGood (s : State) (old : Nat) (hs : PinsGood s.cache.slots) :
    PinsGood (renumberShot s old).cache.slots := by
  unfold renumberShot
  try dsimp only
  repeat' split
  all_goals first | (simp only; assumption) | (simp (maxDischargeDepth := 20) [hs]; done) | simp_all

@[simp] theorem renumberAll_pinsGood (next : Nat) (s : State) (hs : PinsGood s.cache.slots) :
    PinsGood (renumberAll next s).cache.slots := by
  unfold renumberAll
  try dsimp only
  repeat' split
  all_goals first | (simp only; assumption) | (simp (maxDischargeDepth := 20) [hs]; done) | simp_all

@[simp] theorem finishMount_pinsGood (blocks : List (Nat × List Byte)) (s : State) (hs : PinsGood s.cache.slots) :
    PinsGood (finishMount blocks s).cache.slots := by
  unfold finishMount
  try dsimp only
  repeat' split
  all_goals first | (simp only; assumption) | (simp (maxDischargeDepth := 20) [hs]; done) | simp_all

@[simp] theorem failWaitingLoads_pinsGood (result : ResultCode) (s : State) (hs : PinsGood s.cache.slots) :
    PinsGood (failWaitingLoads result s).cache.slots := by
  unfold failWaitingLoads
  try dsimp only
  repeat' split
  all_goals first | (simp only; assumption) | (simp (maxDischargeDepth := 20) [hs]; done) | simp_all

@[simp] theorem clearForFormat_pinsGood (s : State) (hs : PinsGood s.cache.slots) :
    PinsGood (clearForFormat s).cache.slots := by
  unfold clearForFormat
  try dsimp only
  repeat' split
  all_goals first | (simp only; assumption) | (simp (maxDischargeDepth := 20) [hs]; done) | simp_all

@[simp] theorem endForFormat_pinsGood (volumeId : Nat) (s : State) (hs : PinsGood s.cache.slots) :
    PinsGood (endForFormat volumeId s).cache.slots := by
  unfold endForFormat
  try dsimp only
  repeat' split
  all_goals first | (simp only; assumption) | (simp (maxDischargeDepth := 20) [hs]; done) | simp_all

@[simp] theorem awaitBus_pinsGood (volumeId : Nat) (s : State) (hs : PinsGood s.cache.slots) :
    PinsGood (awaitBus volumeId s).cache.slots := by
  unfold awaitBus
  try dsimp only
  repeat' split
  all_goals first | (simp only; assumption) | (simp (maxDischargeDepth := 20) [hs]; done) | simp_all

@[simp] theorem beginFormat_pinsGood (tag : Nat) (s : State) (hs : PinsGood s.cache.slots) :
    PinsGood (beginFormat tag s).cache.slots := by
  unfold beginFormat
  try dsimp only
  repeat' split
  all_goals first | (simp only; assumption) | (simp (maxDischargeDepth := 20) [hs]; done) | simp_all

@[simp] theorem cardFault_pinsGood (s : State) (hs : PinsGood s.cache.slots) :
    PinsGood (cardFault s).cache.slots := by
  unfold cardFault
  try dsimp only
  repeat' split
  all_goals first | (simp only; assumption) | (simp (maxDischargeDepth := 20) [hs]; done) | simp_all

@[simp] theorem orphanAnswered_pinsGood (s : State) (hs : PinsGood s.cache.slots) :
    PinsGood (orphanAnswered s).cache.slots := by
  unfold orphanAnswered
  try dsimp only
  repeat' split
  all_goals first | (simp only; assumption) | (simp (maxDischargeDepth := 20) [hs]; done) | simp_all

theorem stopAtAnswer_pinsGood {s t : State} (h : stopAtAnswer s = some t) (hs : PinsGood s.cache.slots) :
    PinsGood t.cache.slots := by
  unfold stopAtAnswer at h
  split at h
  · cases h; simp [hs]
  · split at h
    · cases h; simpa using hs
    · cases h
  · cases h; simpa using hs
  · cases h

@[simp] theorem answeredError_pinsGood (s : State) (hs : PinsGood s.cache.slots) :
    PinsGood (answeredError s).cache.slots := by
  unfold answeredError
  repeat' split
  any_goals simp (maxDischargeDepth := 20) [hs]
  next h' => simp [stopAtAnswer_pinsGood h' hs]

@[simp] theorem answeredOk_pinsGood (g : State → State) (hg : ∀ s, PinsGood s.cache.slots → PinsGood (g s).cache.slots)
    (s : State) (h : PinsGood s.cache.slots) : PinsGood (answeredOk g s).cache.slots := by
  unfold answeredOk
  repeat' split
  any_goals simp [h, hg]
  next h' => simp [stopAtAnswer_pinsGood h' h]

@[simp] theorem endCardWork_pinsGood (s : State) (hs : PinsGood s.cache.slots) :
    PinsGood (endCardWork s).cache.slots := by
  unfold endCardWork
  try dsimp only
  repeat' split
  all_goals first | (simp only; assumption) | (simp (maxDischargeDepth := 20) [hs]; done) | simp_all

@[simp] theorem removeCard_pinsGood (s : State) (hs : PinsGood s.cache.slots) :
    PinsGood (removeCard s).cache.slots := by
  unfold removeCard
  try dsimp only
  repeat' split
  all_goals first | (simp only; assumption) | (simp (maxDischargeDepth := 20) [hs]; done) | simp_all

@[simp] theorem acceptEject_pinsGood (tag : Nat) (s : State) (hs : PinsGood s.cache.slots) :
    PinsGood (acceptEject tag s).cache.slots := by
  unfold acceptEject
  try dsimp only
  repeat' split
  all_goals first | (simp only; assumption) | (simp (maxDischargeDepth := 20) [hs]; done) | simp_all

@[simp] theorem deliver_pinsGood (i : SyncInput) (level : Contact) (t : Time) (s : State) (hs : PinsGood s.cache.slots) :
    PinsGood (deliver i level t s).cache.slots := by
  unfold deliver
  try dsimp only
  repeat' split
  all_goals first | (simp only; assumption) | (simp (maxDischargeDepth := 20) [hs]; done) | simp_all

@[simp] theorem qualify_pinsGood (i : SyncInput) (s : State) (hs : PinsGood s.cache.slots) :
    PinsGood (qualify i s).cache.slots := by
  unfold qualify
  try dsimp only
  repeat' split
  all_goals first | (simp only; assumption) | (simp (maxDischargeDepth := 20) [hs]; done) | simp_all

@[simp] theorem answerPreview_pinsGood (i : Nat) (key : DevKey) (result : ResultCode) (s : State) (tag : Nat) (hs : PinsGood s.cache.slots)
    (hv : i < s.cache.slots.length → (previewSlot s i).isValid = true) :
    PinsGood (answerPreview i key result s tag).cache.slots := by
  unfold answerPreview
  split
  · next hp => simpa using pinSlot_pinsGood i s hs hp hv
  · simpa using hs

@[simp] theorem validSlot_pinsGood (i : Nat) (j : Job) (size : Nat × Nat) (s : State) (hs : PinsGood s.cache.slots) :
    PinsGood (validSlot i j size s).cache.slots := by
  unfold validSlot
  exact setPreview_pinsGood _ _ _ (mapSlots_pinsGood _ _ hs (pinGood_supersede _ _)) ⟨by simp, by simp⟩

/-- The slot that a completion fills is VALID, unless there is no such slot. -/
theorem validSlot_valid (i : Nat) (j : Job) (size : Nat × Nat) (s : State) :
    i < (validSlot i j size s).cache.slots.length →
      (previewSlot (validSlot i j size s) i).isValid = true := by
  intro hi
  simp only [validSlot, touchPreview, State.draw, setPreview, List.length_set] at hi
  simp [previewSlot, validSlot, touchPreview, State.draw, setPreview, PreviewSlot.isValid, hi]

/-- Answering a waiter leaves which slots are VALID. -/
theorem answerPreview_valid (i : Nat) (k : DevKey) (r : ResultCode) (s : State) (tag : Nat)
    (hv : i < s.cache.slots.length → (previewSlot s i).isValid = true) :
    i < (answerPreview i k r s tag).cache.slots.length →
      (previewSlot (answerPreview i k r s tag) i).isValid = true := by
  unfold answerPreview
  split
  · intro hi
    simp only [answer_keeps, pinSlot, List.length_modify] at hi
    have := hv hi
    simp only [previewSlot, answer_keeps, pinSlot, List.getD_eq_getElem?_getD, List.getElem?_modify,
      List.getElem?_eq_getElem hi, if_true, Option.map_some, Option.getD_some] at this ⊢
    exact this
  · intro hi
    simpa [previewSlot] using hv (by simpa using hi)

/-- The waiters of a completion answered one after another. -/
theorem answerPreviews_pins (i : Nat) (k : DevKey) (r : ResultCode) :
    ∀ (tags : List Nat) (s : State), PinsGood s.cache.slots →
      (i < s.cache.slots.length → (previewSlot s i).isValid = true) →
      PinsGood (tags.foldl (answerPreview i k r) s).cache.slots ∧
        (i < (tags.foldl (answerPreview i k r) s).cache.slots.length →
          (previewSlot (tags.foldl (answerPreview i k r) s) i).isValid = true)
  | [], _, hs, hv => ⟨hs, hv⟩
  | t :: tags, s, hs, hv =>
    answerPreviews_pins i k r tags _ (answerPreview_pinsGood i k r s t hs hv)
      (answerPreview_valid i k r s t hv)

@[simp] theorem completePreview_pinsGood (j : Job) (h : RunHolds) (s : State) (hs : PinsGood s.cache.slots) :
    PinsGood (completePreview j h s).cache.slots := by
  unfold completePreview
  split
  · exact hs
  · simp only [dropJobs_keeps]
    exact (answerPreviews_pins _ _ _ _ _
      (validSlot_pinsGood _ _ _ (writeRendition _ _ _ s) (by simpa using hs))
      (validSlot_valid _ _ _ (writeRendition _ _ _ s))).1

@[simp] theorem completeJob_pinsGood (j : Job) (h : RunHolds) (s : State) (hs : PinsGood s.cache.slots) :
    PinsGood (completeJob j h s).cache.slots := by
  unfold completeJob
  try dsimp only
  repeat' split
  all_goals first | (simp only; assumption) | (simp (maxDischargeDepth := 20) [hs]; done) | simp_all

@[simp] theorem developResident_pinsGood (tag : Nat) (k : JobKind) (priority : Nat) (r : Record) (s : State) (hs : PinsGood s.cache.slots) :
    PinsGood (developResident tag k priority r s).cache.slots := by
  unfold developResident
  try dsimp only
  repeat' split
  all_goals first | (simp only; assumption) | (simp (maxDischargeDepth := 20) [hs]; done) | simp_all

@[simp] theorem previewHit_pinsGood (tag i : Nat) (s : State) (hs : PinsGood s.cache.slots)
    (hv : i < s.cache.slots.length → (previewSlot s i).isValid = true) :
    PinsGood (previewHit tag i s).cache.slots := by
  unfold previewHit
  split
  · next hp => simp [pinSlot_pinsGood i s hs hp hv]
  · simpa using hs

/-- A hit is a slot that passes its test. -/
theorem hitSlot_passes {s : State} {p : PreviewSlot → Bool} {i : Nat} (h : hitSlot s p = some i) :
    p (previewSlot s i) = true :=
  (List.mem_filter.1 (List.mem_of_getLast? h)).2

theorem isValid_of_carries {n : Nat} {k : DevKey} {x : PreviewSlot} (h : x.carries n k = true) :
    x.isValid = true := by
  unfold PreviewSlot.carries at h
  unfold PreviewSlot.isValid
  split at h
  · simp_all
  · cases h

theorem isValid_of_stands {s : State} {n : Nat} {x : PreviewSlot} (h : x.stands s n = true) :
    x.isValid = true := by
  unfold PreviewSlot.stands at h
  unfold PreviewSlot.isValid
  split at h
  · simp_all
  · cases h

@[simp] theorem getResident_pinsGood (tag : Nat) (r : Record) (s : State) (hs : PinsGood s.cache.slots) :
    PinsGood (getResident tag r s).cache.slots := by
  unfold getResident
  repeat' split
  any_goals simp [hs]
  · next h => exact previewHit_pinsGood _ _ _ hs fun _ => isValid_of_carries (hitSlot_passes h)

@[simp] theorem getAbsent_pinsGood (tag n : Nat) (s : State) (hs : PinsGood s.cache.slots) :
    PinsGood (getAbsent tag n s).cache.slots := by
  unfold getAbsent
  repeat' split
  any_goals simpa using hs
  · next h => exact previewHit_pinsGood _ _ _ hs fun _ => isValid_of_stands (hitSlot_passes h)

@[simp] theorem unpin_pinsGood (i : Nat) (s : State) (hs : PinsGood s.cache.slots) :
    PinsGood (unpin i s).cache.slots := by
  unfold unpin
  dsimp only
  split
  · simp [hs]
  · exact setPinned_pinsGood i s hs

@[simp] theorem restartDev_pinsGood (s : State) (hs : PinsGood s.cache.slots) :
    PinsGood (restartDev s).cache.slots := by
  unfold restartDev
  try dsimp only
  repeat' split
  all_goals first | (simp only; assumption) | (simp (maxDischargeDepth := 20) [hs]; done) | simp_all

@[simp] theorem restartCard_pinsGood (s : State) (hs : PinsGood s.cache.slots) :
    PinsGood (restartCard s).cache.slots := by
  unfold restartCard
  try dsimp only
  repeat' split
  all_goals first | (simp only; assumption) | (simp (maxDischargeDepth := 20) [hs]; done) | simp_all

@[simp] theorem restartBlocks_pinsGood (s : State) (hs : PinsGood s.cache.slots) :
    PinsGood (restartBlocks s).cache.slots := by
  unfold restartBlocks
  try dsimp only
  repeat' split
  all_goals first | (simp only; assumption) | (simp (maxDischargeDepth := 20) [hs]; done) | simp_all

@[simp] theorem restartStores_pinsGood (s : State) (hs : PinsGood s.cache.slots) :
    PinsGood (restartStores s).cache.slots := by
  unfold restartStores
  simp only [restartQualifiers_keeps]
  exact restartCard_pinsGood _ pinsGood_reset

@[simp] theorem restartEnds_pinsGood (s : State) (hs : PinsGood s.cache.slots) :
    PinsGood (restartEnds s).cache.slots := by
  unfold restartEnds
  try dsimp only
  repeat' split
  all_goals first | (simp only; assumption) | (simp (maxDischargeDepth := 20) [hs]; done) | simp_all

@[simp] theorem restartPart_pinsGood (tag : Nat) (s : State) (hs : PinsGood s.cache.slots) :
    PinsGood (restartPart tag s).cache.slots := by
  unfold restartPart
  exact restartEnds_pinsGood _ (by simp [hs])

@[simp] theorem foldl_rollsGood {α : Type} (f : State → α → State)
    (h : ∀ s a, RollsGood s.rolls → RollsGood (f s a).rolls) :
    ∀ (l : List α) (s : State), RollsGood s.rolls → RollsGood (l.foldl f s).rolls
  | [], _, hs => hs
  | a :: l, s, hs => foldl_rollsGood f h l (f s a) (h s a hs)

@[simp] theorem optional_rollsGood {α : Type} (f : α → State → State)
    (h : ∀ a s, RollsGood s.rolls → RollsGood (f a s).rolls) (o : Option α) (s : State) (hs : RollsGood s.rolls) :
    RollsGood ((o.map f).getD id s).rolls := by
  cases o <;> simp_all

@[simp] theorem updateRoll_rollsGood (i : Nat) (f : Roll → Roll) (s : State) (hs : RollsGood s.rolls) :
    RollsGood (updateRoll i f s).rolls := by
  intro j hj
  obtain ⟨x, hx⟩ := hs j hj
  simp only [updateRoll, List.getElem?_modify, hx]
  split
  · exact ⟨f x, rfl⟩
  · exact ⟨x, rfl⟩

@[simp] theorem stepFrame_rollsGood (rollSlot : Nat) (roll : Roll) (shot : Nat) (s : State) (hs : RollsGood s.rolls) :
    RollsGood (stepFrame rollSlot roll shot s).rolls := by
  unfold stepFrame
  try dsimp only
  repeat' split
  all_goals first | (simp only; assumption) | (simp (maxDischargeDepth := 20) [hs]; done) | simp_all

@[simp] theorem createShot_rollsGood (k : Start) (rollSlot : Nat) (roll : Roll) (slot : Nat) (c : Nat × Option Nat) (s : State) (hs : RollsGood s.rolls) :
    RollsGood (createShot k rollSlot roll slot c s).rolls := by
  unfold createShot
  try dsimp only
  repeat' split
  all_goals first | (simp only; assumption) | (simp (maxDischargeDepth := 20) [hs]; done) | simp_all

@[simp] theorem claimStart_rollsGood (k : Start) (rollSlot : Nat) (roll : Roll) (s : State) (hs : RollsGood s.rolls) :
    RollsGood (claimStart k rollSlot roll s).2.rolls := by
  unfold claimStart
  try dsimp only
  repeat' split
  all_goals first | (simp only; assumption) | (simp (maxDischargeDepth := 20) [hs]; done) | simp_all

@[simp] theorem startIdle_rollsGood (k : Start) (s : State) (hs : RollsGood s.rolls) :
    RollsGood (startIdle k s).2.rolls := by
  unfold startIdle
  try dsimp only
  repeat' split
  all_goals first | (simp only; assumption) | (simp (maxDischargeDepth := 20) [hs]; done) | simp_all

@[simp] theorem startDark_rollsGood (k : Start) (s : State) (hs : RollsGood s.rolls) :
    RollsGood (startDark k s).2.rolls := by
  unfold startDark
  try dsimp only
  repeat' split
  all_goals first | (simp only; assumption) | (simp (maxDischargeDepth := 20) [hs]; done) | simp_all

@[simp] theorem decideStart_rollsGood (k : Start) (s : State) (hs : RollsGood s.rolls) :
    RollsGood (decideStart k s).2.rolls := by
  unfold decideStart
  try dsimp only
  repeat' split
  all_goals first | (simp only; assumption) | (simp (maxDischargeDepth := 20) [hs]; done) | simp_all

@[simp] theorem release_rollsGood (s : State) (hs : RollsGood s.rolls) :
    RollsGood (release s).rolls := by
  unfold release
  try dsimp only
  repeat' split
  all_goals first | (simp only; assumption) | (simp (maxDischargeDepth := 20) [hs]; done) | simp_all

@[simp] theorem giveFrameBack_rollsGood (s : State) (hs : RollsGood s.rolls) :
    RollsGood (giveFrameBack s).rolls := by
  unfold giveFrameBack
  try dsimp only
  repeat' split
  all_goals first | (simp only; assumption) | (simp (maxDischargeDepth := 20) [hs]; done) | simp_all

@[simp] theorem removeOpen_rollsGood (s : State) (hs : RollsGood s.rolls) :
    RollsGood (removeOpen s).rolls := by
  unfold removeOpen
  try dsimp only
  repeat' split
  all_goals first | (simp only; assumption) | (simp (maxDischargeDepth := 20) [hs]; done) | simp_all

@[simp] theorem closeRoll_rollsGood (i : Nat) (r : Roll) (s : State) (hs : RollsGood s.rolls) :
    RollsGood (closeRoll i r s).rolls := by
  intro j hj
  unfold closeRoll at hj ⊢
  dsimp only [setCurrent, setRollSlot] at hj ⊢
  split at hj
  · cases hj
  · next hc =>
    obtain ⟨x, hx⟩ := hs j hj
    refine ⟨x, ?_⟩
    rw [List.getElem?_set]
    split
    · next e => subst e; exact absurd hj hc
    · exact hx

@[simp] theorem deliver_rollsGood (i : SyncInput) (level : Contact) (t : Time) (s : State) (hs : RollsGood s.rolls) :
    RollsGood (deliver i level t s).rolls := by
  unfold deliver
  try dsimp only
  repeat' split
  all_goals first | (simp only; assumption) | (simp (maxDischargeDepth := 20) [hs]; done) | simp_all

@[simp] theorem qualify_rollsGood (i : SyncInput) (s : State) (hs : RollsGood s.rolls) :
    RollsGood (qualify i s).rolls := by
  unfold qualify
  try dsimp only
  repeat' split
  all_goals first | (simp only; assumption) | (simp (maxDischargeDepth := 20) [hs]; done) | simp_all

@[simp] theorem armExpired_rollsGood (s : State) (hs : RollsGood s.rolls) :
    RollsGood (armExpired s).rolls := by
  unfold armExpired
  try dsimp only
  repeat' split
  all_goals first | (simp only; assumption) | (simp (maxDischargeDepth := 20) [hs]; done) | simp_all

@[simp] theorem settleOpen_rollsGood (s : State) (hs : RollsGood s.rolls) :
    RollsGood (settleOpen s).rolls := by
  unfold settleOpen
  try dsimp only
  repeat' split
  all_goals first | (simp only; assumption) | (simp (maxDischargeDepth := 20) [hs]; done) | simp_all

@[simp] theorem restartSequencer_rollsGood (s : State) (hs : RollsGood s.rolls) :
    RollsGood (restartSequencer s).rolls := by
  unfold restartSequencer
  try dsimp only
  repeat' split
  all_goals first | (simp only; assumption) | (simp (maxDischargeDepth := 20) [hs]; done) | simp_all

@[simp] theorem restartBlocks_rollsGood (s : State) (hs : RollsGood s.rolls) :
    RollsGood (restartBlocks s).rolls := by
  unfold restartBlocks
  try dsimp only
  repeat' split
  all_goals first | (simp only; assumption) | (simp (maxDischargeDepth := 20) [hs]; done) | simp_all

@[simp] theorem restartPart_rollsGood (tag : Nat) (s : State) (hs : RollsGood s.rolls) :
    RollsGood (restartPart tag s).rolls := by
  unfold restartPart
  try dsimp only
  repeat' split
  all_goals first | (simp only; assumption) | (simp (maxDischargeDepth := 20) [hs]; done) | simp_all

@[simp] theorem answeredOk_memGood (g : State → State) (hg : ∀ s, MemGood s.mem → MemGood (g s).mem)
    (s : State) (hs : MemGood s.mem) : MemGood (answeredOk g s).mem := by
  unfold answeredOk
  repeat' split
  any_goals simp [hs, hg]
  next h' => simp [stopAtAnswer_keeps h', hs]

@[simp] theorem answeredOk_rollsGood (g : State → State) (hg : ∀ s, RollsGood s.rolls → RollsGood (g s).rolls)
    (s : State) (hs : RollsGood s.rolls) : RollsGood (answeredOk g s).rolls := by
  unfold answeredOk
  repeat' split
  any_goals simp [hs, hg]
  next h' => simp [stopAtAnswer_keeps h', hs]

end Sys2Proof.Machine
end

