-- ==== Sys2Proof/Laws/PartsBlocks.lean ====
section
/-! SUPPORT. Parts of a block that operations on the block leave as they were: the development floor, the readout flag, and the sizes of the cache, the pool and the Dark Reference Table. -/

namespace Sys2Proof.Machine

@[simp] theorem foldl_devFloor {α : Type} (f : State → α → State)
    (h : ∀ s a, (f s a).dev.floor = s.dev.floor) :
    ∀ (l : List α) (s : State), (l.foldl f s).dev.floor = s.dev.floor
  | [], _ => rfl
  | a :: l, s => (foldl_devFloor f h l (f s a)).trans (h s a)

@[simp] theorem optional_devFloor {α : Type} (f : α → State → State) (h : ∀ a s, (f a s).dev.floor = s.dev.floor)
    (o : Option α) (s : State) : ((o.map f).getD id s).dev.floor = s.dev.floor := by
  cases o <;> simp [h]

@[simp] theorem placeJob_devFloor (n : Nat) (k : JobKind) (priority : Nat) (tag : Option Nat) (s : State) :
    (placeJob n k priority tag s).dev.floor = s.dev.floor := by
  unfold placeJob
  try dsimp only
  repeat' split
  all_goals simp

@[simp] theorem dispatchJob_devFloor (j : Job) (r : Record) (s : State) :
    (dispatchJob j r s).dev.floor = s.dev.floor := by
  unfold dispatchJob
  try dsimp only
  repeat' split
  all_goals simp

@[simp] theorem attemptDispatch_devFloor (s : State) :
    (attemptDispatch s).dev.floor = s.dev.floor := by
  unfold attemptDispatch
  try dsimp only
  repeat' split
  all_goals simp

@[simp] theorem serveEngineClaim_devFloor (s : State) :
    (serveEngineClaim s).dev.floor = s.dev.floor := by
  unfold serveEngineClaim
  try dsimp only
  repeat' split
  all_goals simp

@[simp] theorem readoutBegins_devFloor (s : State) :
    (readoutBegins s).dev.floor = s.dev.floor := by
  unfold readoutBegins
  simp

@[simp] theorem readoutEnds_devFloor (s : State) :
    (readoutEnds s).dev.floor = s.dev.floor := by
  unfold readoutEnds
  simp

@[simp] theorem endHolds_devFloor (s : State) :
    (endHolds s).dev.floor = s.dev.floor := by
  unfold endHolds
  simp

@[simp] theorem dropHolds_devFloor (s : State) :
    (dropHolds s).dev.floor = s.dev.floor := by
  unfold dropHolds
  cases s.dev.holds with
  | none => simp
  | some h => cases h.slot <;> simp_all

@[simp] theorem requeueRunning_devFloor (s : State) :
    (requeueRunning s).dev.floor = s.dev.floor := by
  unfold requeueRunning
  simp

@[simp] theorem dropJobs_devFloor (p : Job → Bool) (s : State) :
    (dropJobs p s).dev.floor = s.dev.floor := by
  unfold dropJobs
  simp

@[simp] theorem removeJobs_devFloor (n : Nat) (result : ResultCode) (s : State) :
    (removeJobs n result s).dev.floor = s.dev.floor := by
  unfold removeJobs
  try dsimp only
  repeat' split
  all_goals simp

@[simp] theorem leaveDark_devFloor (s : State) :
    (leaveDark s).dev.floor = s.dev.floor := by
  unfold leaveDark
  try dsimp only
  repeat' split
  all_goals simp

@[simp] theorem abandonDark_devFloor (s : State) :
    (abandonDark s).dev.floor = s.dev.floor := by
  unfold abandonDark
  try dsimp only
  repeat' split
  all_goals simp

@[simp] theorem finishDark_devFloor (temperature : Int) (s : State) :
    (finishDark temperature s).dev.floor = s.dev.floor := by
  unfold finishDark
  try dsimp only
  repeat' split
  all_goals simp

@[simp] theorem refuseReads_devFloor (rs : List CardRead) (result : ResultCode) (s : State) :
    (refuseReads rs result s).dev.floor = s.dev.floor := by
  unfold refuseReads
  try dsimp only
  repeat' split
  all_goals simp

@[simp] theorem endReads_devFloor (result : ResultCode) (s : State) :
    (endReads result s).dev.floor = s.dev.floor := by
  unfold endReads
  try dsimp only
  repeat' split
  all_goals simp

@[simp] theorem dropRecord_devFloor (s : State) (n : Nat) :
    (dropRecord s n).dev.floor = s.dev.floor := by
  unfold dropRecord
  simp

@[simp] theorem dropSettled_devFloor (s : State) :
    (dropSettled s).dev.floor = s.dev.floor := by
  unfold dropSettled
  simp

@[simp] theorem finishDrain_devFloor (s : State) :
    (finishDrain s).dev.floor = s.dev.floor := by
  unfold finishDrain
  simp

@[simp] theorem serveBlocks_devFloor (s : State) :
    (serveBlocks s).dev.floor = s.dev.floor := by
  unfold serveBlocks
  simp

@[simp] theorem service_devFloor (s : State) :
    (service s).dev.floor = s.dev.floor := by
  unfold service
  try dsimp only
  repeat' split
  all_goals simp

@[simp] theorem enterRunning_devFloor (s : State) :
    (enterRunning s).dev.floor = s.dev.floor := by
  unfold enterRunning
  simp

@[simp] theorem startDark_devFloor (k : Start) (s : State) :
    (startDark k s).2.dev.floor = s.dev.floor := by
  unfold startDark
  try dsimp only
  repeat' split
  all_goals simp

@[simp] theorem decideStart_devFloor (k : Start) (s : State) :
    (decideStart k s).2.dev.floor = s.dev.floor := by
  unfold decideStart
  try dsimp only
  repeat' split
  all_goals simp

@[simp] theorem release_devFloor (s : State) :
    (release s).dev.floor = s.dev.floor := by
  unfold release
  try dsimp only
  repeat' split
  all_goals simp

@[simp] theorem autoJob_devFloor (n : Nat) (k : JobKind) (setting : Option Nat) (s : State) :
    (autoJob n k setting s).dev.floor = s.dev.floor := by
  unfold autoJob
  try dsimp only
  repeat' split
  all_goals simp

@[simp] theorem autoJobs_devFloor (n : Nat) (roll : Option Roll) (s : State) :
    (autoJobs n roll s).dev.floor = s.dev.floor := by
  unfold autoJobs
  simp

@[simp] theorem finishShot_devFloor (s : State) :
    (finishShot s).dev.floor = s.dev.floor := by
  unfold finishShot
  try dsimp only
  repeat' split
  all_goals simp

@[simp] theorem beginReadout_devFloor (x : SeqState) (s : State) :
    (beginReadout x s).dev.floor = s.dev.floor := by
  unfold beginReadout
  simp

@[simp] theorem goodReadout_devFloor (temperature : Int) (s : State) :
    (goodReadout temperature s).dev.floor = s.dev.floor := by
  unfold goodReadout
  try dsimp only
  repeat' split
  all_goals simp

@[simp] theorem failedReadout_devFloor (s : State) :
    (failedReadout s).dev.floor = s.dev.floor := by
  unfold failedReadout
  try dsimp only
  repeat' split
  all_goals simp

@[simp] theorem failedDark_devFloor (s : State) :
    (failedDark s).dev.floor = s.dev.floor := by
  unfold failedDark
  simp

@[simp] theorem takeFromBlocks_devFloor (r : Record) (s : State) :
    (takeFromBlocks r s).dev.floor = s.dev.floor := by
  unfold takeFromBlocks
  simp

@[simp] theorem acceptRetire_devFloor (tag : Nat) (r : Record) (s : State) :
    (acceptRetire tag r s).dev.floor = s.dev.floor := by
  unfold acceptRetire
  simp

@[simp] theorem retireResident_devFloor (tag : Nat) (r : Record) (s : State) :
    (retireResident tag r s).dev.floor = s.dev.floor := by
  unfold retireResident
  try dsimp only
  repeat' split
  all_goals simp

@[simp] theorem onResident_devFloor (tag : Nat) (q : LoadRequest) (r : Record) (s : State) :
    (onResident tag q r s).dev.floor = s.dev.floor := by
  unfold onResident
  try dsimp only
  repeat' split
  all_goals simp

@[simp] theorem onShot_devFloor (tag n : Nat) (q : LoadRequest) (s : State) :
    (onShot tag n q s).dev.floor = s.dev.floor := by
  unfold onShot
  try dsimp only
  repeat' split
  all_goals simp

@[simp] theorem proceed_devFloor (n : Nat) (s : State) (w : LoadWaiter) :
    (proceed n s w).dev.floor = s.dev.floor := by
  unfold proceed
  try dsimp only
  repeat' split
  all_goals simp

@[simp] theorem completeLoad_devFloor (n slot : Nat) (block : List Byte) (s : State) :
    (completeLoad n slot block s).dev.floor = s.dev.floor := by
  unfold completeLoad
  try dsimp only
  repeat' split
  all_goals simp

@[simp] theorem loadDone_devFloor (n slot : Nat) (block : List Byte) (s : State) :
    (loadDone n slot block s).dev.floor = s.dev.floor := by
  unfold loadDone
  try dsimp only
  repeat' split
  all_goals simp

@[simp] theorem renumberTo_devFloor (old new : Nat) (s : State) :
    (renumberTo old new s).dev.floor = s.dev.floor := by
  unfold renumberTo
  simp

@[simp] theorem renumberShot_devFloor (s : State) (old : Nat) :
    (renumberShot s old).dev.floor = s.dev.floor := by
  unfold renumberShot
  try dsimp only
  repeat' split
  all_goals simp

@[simp] theorem renumberAll_devFloor (next : Nat) (s : State) :
    (renumberAll next s).dev.floor = s.dev.floor := by
  unfold renumberAll
  simp

@[simp] theorem finishMount_devFloor (blocks : List (Nat × List Byte)) (s : State) :
    (finishMount blocks s).dev.floor = s.dev.floor := by
  unfold finishMount
  try dsimp only
  repeat' split
  all_goals simp

@[simp] theorem failWaitingLoads_devFloor (result : ResultCode) (s : State) :
    (failWaitingLoads result s).dev.floor = s.dev.floor := by
  unfold failWaitingLoads
  simp

@[simp] theorem clearForFormat_devFloor (s : State) :
    (clearForFormat s).dev.floor = s.dev.floor := by
  unfold clearForFormat
  simp

@[simp] theorem endForFormat_devFloor (volumeId : Nat) (s : State) :
    (endForFormat volumeId s).dev.floor = s.dev.floor := by
  unfold endForFormat
  simp

@[simp] theorem awaitBus_devFloor (volumeId : Nat) (s : State) :
    (awaitBus volumeId s).dev.floor = s.dev.floor := by
  unfold awaitBus
  try dsimp only
  repeat' split
  all_goals simp

@[simp] theorem beginFormat_devFloor (tag : Nat) (s : State) :
    (beginFormat tag s).dev.floor = s.dev.floor := by
  unfold beginFormat
  try dsimp only
  repeat' split
  all_goals simp

@[simp] theorem cardFault_devFloor (s : State) :
    (cardFault s).dev.floor = s.dev.floor := by
  unfold cardFault
  simp

@[simp] theorem orphanAnswered_devFloor (s : State) :
    (orphanAnswered s).dev.floor = s.dev.floor := by
  unfold orphanAnswered
  try dsimp only
  repeat' split
  all_goals simp

theorem stopAtAnswer_devFloor {s t : State} (h : stopAtAnswer s = some t) : t.dev.floor = s.dev.floor := by
  unfold stopAtAnswer at h
  split at h
  · cases h; simp
  · split at h
    · cases h; simp
    · cases h
  · cases h; simp
  · cases h

@[simp] theorem answeredError_devFloor (s : State) :
    (answeredError s).dev.floor = s.dev.floor := by
  unfold answeredError
  repeat' split
  any_goals simp
  next h => simp [stopAtAnswer_devFloor h]

@[simp] theorem answeredOk_devFloor (g : State → State) (h : ∀ s, (g s).dev.floor = s.dev.floor) (s : State) :
    (answeredOk g s).dev.floor = s.dev.floor := by
  unfold answeredOk
  repeat' split
  any_goals simp [h]
  next h => simp [stopAtAnswer_devFloor h]

@[simp] theorem endCardWork_devFloor (s : State) :
    (endCardWork s).dev.floor = s.dev.floor := by
  unfold endCardWork
  simp

@[simp] theorem removeCard_devFloor (s : State) :
    (removeCard s).dev.floor = s.dev.floor := by
  unfold removeCard
  simp

@[simp] theorem fetchDone_devFloor (s : State) :
    (fetchDone s).dev.floor = s.dev.floor := by
  unfold fetchDone
  simp

@[simp] theorem acceptEject_devFloor (tag : Nat) (s : State) :
    (acceptEject tag s).dev.floor = s.dev.floor := by
  unfold acceptEject
  simp

@[simp] theorem deliver_devFloor (i : SyncInput) (level : Contact) (t : Time) (s : State) :
    (deliver i level t s).dev.floor = s.dev.floor := by
  unfold deliver
  try dsimp only
  repeat' split
  all_goals simp

@[simp] theorem qualify_devFloor (i : SyncInput) (s : State) :
    (qualify i s).dev.floor = s.dev.floor := by
  unfold qualify
  try dsimp only
  repeat' split
  all_goals simp

@[simp] theorem armExpired_devFloor (s : State) :
    (armExpired s).dev.floor = s.dev.floor := by
  unfold armExpired
  try dsimp only
  repeat' split
  all_goals simp

@[simp] theorem settleExpired_devFloor (s : State) :
    (settleExpired s).dev.floor = s.dev.floor := by
  unfold settleExpired
  simp

@[simp] theorem afterAccumulate_devFloor (s : State) :
    (afterAccumulate s).dev.floor = s.dev.floor := by
  unfold afterAccumulate
  try dsimp only
  repeat' split
  all_goals simp

@[simp] theorem setEngine_devFloor (x : EngineState) (s : State) :
    (setEngine x s).dev.floor = s.dev.floor := by
  unfold setEngine
  simp

@[simp] theorem completePreview_devFloor (j : Job) (h : RunHolds) (s : State) :
    (completePreview j h s).dev.floor = s.dev.floor := by
  unfold completePreview
  try dsimp only
  repeat' split
  all_goals simp

@[simp] theorem completeFull_devFloor (j : Job) (plane : Nat) (size : Nat × Nat) (s : State) :
    (completeFull j plane size s).dev.floor = s.dev.floor := by
  unfold completeFull
  simp

@[simp] theorem requeueStale_devFloor (j : Job) (plane : Nat) (s : State) :
    (requeueStale j plane s).dev.floor = s.dev.floor := by
  unfold requeueStale
  simp

@[simp] theorem endFull_devFloor (j : Job) (h : RunHolds) (s : State) :
    (endFull j h s).dev.floor = s.dev.floor := by
  unfold endFull
  try dsimp only
  repeat' split
  all_goals simp

@[simp] theorem completeJob_devFloor (j : Job) (h : RunHolds) (s : State) :
    (completeJob j h s).dev.floor = s.dev.floor := by
  unfold completeJob
  try dsimp only
  repeat' split
  all_goals simp

@[simp] theorem placeWaiting_devFloor (tag n : Nat) (k : JobKind) (priority : Nat) (s : State) :
    (placeWaiting tag n k priority s).dev.floor = s.dev.floor := by
  unfold placeWaiting
  try dsimp only
  repeat' split
  all_goals simp

@[simp] theorem placeAndAnswer_devFloor (tag n : Nat) (k : JobKind) (priority : Nat) (s : State) :
    (placeAndAnswer tag n k priority s).dev.floor = s.dev.floor := by
  unfold placeAndAnswer
  try dsimp only
  repeat' split
  all_goals simp

@[simp] theorem developResident_devFloor (tag : Nat) (k : JobKind) (priority : Nat) (r : Record) (s : State) :
    (developResident tag k priority r s).dev.floor = s.dev.floor := by
  unfold developResident
  try dsimp only
  repeat' split
  all_goals simp

@[simp] theorem getResident_devFloor (tag : Nat) (r : Record) (s : State) :
    (getResident tag r s).dev.floor = s.dev.floor := by
  unfold getResident
  try dsimp only
  repeat' split
  all_goals simp

@[simp] theorem restartSequencer_devFloor (s : State) :
    (restartSequencer s).dev.floor = s.dev.floor := by
  unfold restartSequencer
  try dsimp only
  repeat' split
  all_goals simp

@[simp] theorem restartDev_devFloor (s : State) :
    (restartDev s).dev.floor = s.dev.floor := by
  unfold restartDev
  simp

@[simp] theorem restartCard_devFloor (s : State) :
    (restartCard s).dev.floor = s.dev.floor := by
  unfold restartCard
  simp

@[simp] theorem restartBlocks_devFloor (s : State) :
    (restartBlocks s).dev.floor = s.dev.floor := by
  unfold restartBlocks
  simp

@[simp] theorem restartStores_devFloor (s : State) :
    (restartStores s).dev.floor = s.dev.floor := by
  unfold restartStores
  simp

@[simp] theorem restartEnds_devFloor (s : State) :
    (restartEnds s).dev.floor = s.dev.floor := by
  unfold restartEnds
  try dsimp only
  repeat' split
  all_goals simp

@[simp] theorem restartPart_devFloor (tag : Nat) (s : State) :
    (restartPart tag s).dev.floor = s.dev.floor := by
  unfold restartPart
  simp

@[simp] theorem foldl_devReadout {α : Type} (f : State → α → State)
    (h : ∀ s a, (f s a).dev.readout = s.dev.readout) :
    ∀ (l : List α) (s : State), (l.foldl f s).dev.readout = s.dev.readout
  | [], _ => rfl
  | a :: l, s => (foldl_devReadout f h l (f s a)).trans (h s a)

@[simp] theorem optional_devReadout {α : Type} (f : α → State → State) (h : ∀ a s, (f a s).dev.readout = s.dev.readout)
    (o : Option α) (s : State) : ((o.map f).getD id s).dev.readout = s.dev.readout := by
  cases o <;> simp [h]

@[simp] theorem placeJob_devReadout (n : Nat) (k : JobKind) (priority : Nat) (tag : Option Nat) (s : State) :
    (placeJob n k priority tag s).dev.readout = s.dev.readout := by
  unfold placeJob
  try dsimp only
  repeat' split
  all_goals simp

@[simp] theorem dispatchJob_devReadout (j : Job) (r : Record) (s : State) :
    (dispatchJob j r s).dev.readout = s.dev.readout := by
  unfold dispatchJob
  try dsimp only
  repeat' split
  all_goals simp

@[simp] theorem attemptDispatch_devReadout (s : State) :
    (attemptDispatch s).dev.readout = s.dev.readout := by
  unfold attemptDispatch
  try dsimp only
  repeat' split
  all_goals simp

@[simp] theorem serveEngineClaim_devReadout (s : State) :
    (serveEngineClaim s).dev.readout = s.dev.readout := by
  unfold serveEngineClaim
  try dsimp only
  repeat' split
  all_goals simp

@[simp] theorem endHolds_devReadout (s : State) :
    (endHolds s).dev.readout = s.dev.readout := by
  unfold endHolds
  simp

@[simp] theorem dropHolds_devReadout (s : State) :
    (dropHolds s).dev.readout = s.dev.readout := by
  unfold dropHolds
  cases s.dev.holds with
  | none => simp
  | some h => cases h.slot <;> simp_all

@[simp] theorem requeueRunning_devReadout (s : State) :
    (requeueRunning s).dev.readout = s.dev.readout := by
  unfold requeueRunning
  simp

@[simp] theorem dropJobs_devReadout (p : Job → Bool) (s : State) :
    (dropJobs p s).dev.readout = s.dev.readout := by
  unfold dropJobs
  simp

@[simp] theorem removeJobs_devReadout (n : Nat) (result : ResultCode) (s : State) :
    (removeJobs n result s).dev.readout = s.dev.readout := by
  unfold removeJobs
  try dsimp only
  repeat' split
  all_goals simp

@[simp] theorem refuseReads_devReadout (rs : List CardRead) (result : ResultCode) (s : State) :
    (refuseReads rs result s).dev.readout = s.dev.readout := by
  unfold refuseReads
  try dsimp only
  repeat' split
  all_goals simp

@[simp] theorem endReads_devReadout (result : ResultCode) (s : State) :
    (endReads result s).dev.readout = s.dev.readout := by
  unfold endReads
  try dsimp only
  repeat' split
  all_goals simp

@[simp] theorem dropRecord_devReadout (s : State) (n : Nat) :
    (dropRecord s n).dev.readout = s.dev.readout := by
  unfold dropRecord
  simp

@[simp] theorem dropSettled_devReadout (s : State) :
    (dropSettled s).dev.readout = s.dev.readout := by
  unfold dropSettled
  simp

@[simp] theorem finishDrain_devReadout (s : State) :
    (finishDrain s).dev.readout = s.dev.readout := by
  unfold finishDrain
  simp

@[simp] theorem serveBlocks_devReadout (s : State) :
    (serveBlocks s).dev.readout = s.dev.readout := by
  unfold serveBlocks
  simp

@[simp] theorem service_devReadout (s : State) :
    (service s).dev.readout = s.dev.readout := by
  unfold service
  try dsimp only
  repeat' split
  all_goals simp

@[simp] theorem enterRunning_devReadout (s : State) :
    (enterRunning s).dev.readout = s.dev.readout := by
  unfold enterRunning
  simp

@[simp] theorem autoJob_devReadout (n : Nat) (k : JobKind) (setting : Option Nat) (s : State) :
    (autoJob n k setting s).dev.readout = s.dev.readout := by
  unfold autoJob
  try dsimp only
  repeat' split
  all_goals simp

@[simp] theorem autoJobs_devReadout (n : Nat) (roll : Option Roll) (s : State) :
    (autoJobs n roll s).dev.readout = s.dev.readout := by
  unfold autoJobs
  simp

@[simp] theorem finishShot_devReadout (s : State) :
    (finishShot s).dev.readout = s.dev.readout := by
  unfold finishShot
  try dsimp only
  repeat' split
  all_goals simp

@[simp] theorem takeFromBlocks_devReadout (r : Record) (s : State) :
    (takeFromBlocks r s).dev.readout = s.dev.readout := by
  unfold takeFromBlocks
  simp

@[simp] theorem acceptRetire_devReadout (tag : Nat) (r : Record) (s : State) :
    (acceptRetire tag r s).dev.readout = s.dev.readout := by
  unfold acceptRetire
  simp

@[simp] theorem retireResident_devReadout (tag : Nat) (r : Record) (s : State) :
    (retireResident tag r s).dev.readout = s.dev.readout := by
  unfold retireResident
  try dsimp only
  repeat' split
  all_goals simp

@[simp] theorem onResident_devReadout (tag : Nat) (q : LoadRequest) (r : Record) (s : State) :
    (onResident tag q r s).dev.readout = s.dev.readout := by
  unfold onResident
  try dsimp only
  repeat' split
  all_goals simp

@[simp] theorem onShot_devReadout (tag n : Nat) (q : LoadRequest) (s : State) :
    (onShot tag n q s).dev.readout = s.dev.readout := by
  unfold onShot
  try dsimp only
  repeat' split
  all_goals simp

@[simp] theorem proceed_devReadout (n : Nat) (s : State) (w : LoadWaiter) :
    (proceed n s w).dev.readout = s.dev.readout := by
  unfold proceed
  try dsimp only
  repeat' split
  all_goals simp

@[simp] theorem completeLoad_devReadout (n slot : Nat) (block : List Byte) (s : State) :
    (completeLoad n slot block s).dev.readout = s.dev.readout := by
  unfold completeLoad
  try dsimp only
  repeat' split
  all_goals simp

@[simp] theorem loadDone_devReadout (n slot : Nat) (block : List Byte) (s : State) :
    (loadDone n slot block s).dev.readout = s.dev.readout := by
  unfold loadDone
  try dsimp only
  repeat' split
  all_goals simp

@[simp] theorem renumberTo_devReadout (old new : Nat) (s : State) :
    (renumberTo old new s).dev.readout = s.dev.readout := by
  unfold renumberTo
  simp

@[simp] theorem renumberShot_devReadout (s : State) (old : Nat) :
    (renumberShot s old).dev.readout = s.dev.readout := by
  unfold renumberShot
  try dsimp only
  repeat' split
  all_goals simp

@[simp] theorem renumberAll_devReadout (next : Nat) (s : State) :
    (renumberAll next s).dev.readout = s.dev.readout := by
  unfold renumberAll
  simp

@[simp] theorem finishMount_devReadout (blocks : List (Nat × List Byte)) (s : State) :
    (finishMount blocks s).dev.readout = s.dev.readout := by
  unfold finishMount
  try dsimp only
  repeat' split
  all_goals simp

@[simp] theorem failWaitingLoads_devReadout (result : ResultCode) (s : State) :
    (failWaitingLoads result s).dev.readout = s.dev.readout := by
  unfold failWaitingLoads
  simp

@[simp] theorem clearForFormat_devReadout (s : State) :
    (clearForFormat s).dev.readout = s.dev.readout := by
  unfold clearForFormat
  simp

@[simp] theorem endForFormat_devReadout (volumeId : Nat) (s : State) :
    (endForFormat volumeId s).dev.readout = s.dev.readout := by
  unfold endForFormat
  simp

@[simp] theorem awaitBus_devReadout (volumeId : Nat) (s : State) :
    (awaitBus volumeId s).dev.readout = s.dev.readout := by
  unfold awaitBus
  try dsimp only
  repeat' split
  all_goals simp

@[simp] theorem beginFormat_devReadout (tag : Nat) (s : State) :
    (beginFormat tag s).dev.readout = s.dev.readout := by
  unfold beginFormat
  try dsimp only
  repeat' split
  all_goals simp

@[simp] theorem cardFault_devReadout (s : State) :
    (cardFault s).dev.readout = s.dev.readout := by
  unfold cardFault
  simp

@[simp] theorem orphanAnswered_devReadout (s : State) :
    (orphanAnswered s).dev.readout = s.dev.readout := by
  unfold orphanAnswered
  try dsimp only
  repeat' split
  all_goals simp

theorem stopAtAnswer_devReadout {s t : State} (h : stopAtAnswer s = some t) : t.dev.readout = s.dev.readout := by
  unfold stopAtAnswer at h
  split at h
  · cases h; simp
  · split at h
    · cases h; simp
    · cases h
  · cases h; simp
  · cases h

@[simp] theorem answeredError_devReadout (s : State) :
    (answeredError s).dev.readout = s.dev.readout := by
  unfold answeredError
  repeat' split
  any_goals simp
  next h => simp [stopAtAnswer_devReadout h]

@[simp] theorem answeredOk_devReadout (g : State → State) (h : ∀ s, (g s).dev.readout = s.dev.readout) (s : State) :
    (answeredOk g s).dev.readout = s.dev.readout := by
  unfold answeredOk
  repeat' split
  any_goals simp [h]
  next h => simp [stopAtAnswer_devReadout h]

@[simp] theorem endCardWork_devReadout (s : State) :
    (endCardWork s).dev.readout = s.dev.readout := by
  unfold endCardWork
  simp

@[simp] theorem removeCard_devReadout (s : State) :
    (removeCard s).dev.readout = s.dev.readout := by
  unfold removeCard
  simp

@[simp] theorem fetchDone_devReadout (s : State) :
    (fetchDone s).dev.readout = s.dev.readout := by
  unfold fetchDone
  simp

@[simp] theorem acceptEject_devReadout (tag : Nat) (s : State) :
    (acceptEject tag s).dev.readout = s.dev.readout := by
  unfold acceptEject
  simp

@[simp] theorem armExpired_devReadout (s : State) :
    (armExpired s).dev.readout = s.dev.readout := by
  unfold armExpired
  try dsimp only
  repeat' split
  all_goals simp

@[simp] theorem afterAccumulate_devReadout (s : State) :
    (afterAccumulate s).dev.readout = s.dev.readout := by
  unfold afterAccumulate
  try dsimp only
  repeat' split
  all_goals simp

@[simp] theorem setEngine_devReadout (x : EngineState) (s : State) :
    (setEngine x s).dev.readout = s.dev.readout := by
  unfold setEngine
  simp

@[simp] theorem completePreview_devReadout (j : Job) (h : RunHolds) (s : State) :
    (completePreview j h s).dev.readout = s.dev.readout := by
  unfold completePreview
  try dsimp only
  repeat' split
  all_goals simp

@[simp] theorem completeFull_devReadout (j : Job) (plane : Nat) (size : Nat × Nat) (s : State) :
    (completeFull j plane size s).dev.readout = s.dev.readout := by
  unfold completeFull
  simp

@[simp] theorem requeueStale_devReadout (j : Job) (plane : Nat) (s : State) :
    (requeueStale j plane s).dev.readout = s.dev.readout := by
  unfold requeueStale
  simp

@[simp] theorem endFull_devReadout (j : Job) (h : RunHolds) (s : State) :
    (endFull j h s).dev.readout = s.dev.readout := by
  unfold endFull
  try dsimp only
  repeat' split
  all_goals simp

@[simp] theorem completeJob_devReadout (j : Job) (h : RunHolds) (s : State) :
    (completeJob j h s).dev.readout = s.dev.readout := by
  unfold completeJob
  try dsimp only
  repeat' split
  all_goals simp

@[simp] theorem placeWaiting_devReadout (tag n : Nat) (k : JobKind) (priority : Nat) (s : State) :
    (placeWaiting tag n k priority s).dev.readout = s.dev.readout := by
  unfold placeWaiting
  try dsimp only
  repeat' split
  all_goals simp

@[simp] theorem placeAndAnswer_devReadout (tag n : Nat) (k : JobKind) (priority : Nat) (s : State) :
    (placeAndAnswer tag n k priority s).dev.readout = s.dev.readout := by
  unfold placeAndAnswer
  try dsimp only
  repeat' split
  all_goals simp

@[simp] theorem developResident_devReadout (tag : Nat) (k : JobKind) (priority : Nat) (r : Record) (s : State) :
    (developResident tag k priority r s).dev.readout = s.dev.readout := by
  unfold developResident
  try dsimp only
  repeat' split
  all_goals simp

@[simp] theorem getResident_devReadout (tag : Nat) (r : Record) (s : State) :
    (getResident tag r s).dev.readout = s.dev.readout := by
  unfold getResident
  try dsimp only
  repeat' split
  all_goals simp

@[simp] theorem restartCard_devReadout (s : State) :
    (restartCard s).dev.readout = s.dev.readout := by
  unfold restartCard
  simp

@[simp] theorem restartStores_devReadout (s : State) :
    (restartStores s).dev.readout = s.dev.readout := by
  unfold restartStores
  simp

@[simp] theorem restartEnds_devReadout (s : State) :
    (restartEnds s).dev.readout = s.dev.readout := by
  unfold restartEnds
  try dsimp only
  repeat' split
  all_goals simp

@[simp] theorem foldl_cacheCount {α : Type} (f : State → α → State)
    (h : ∀ s a, (f s a).cache.slots.length = s.cache.slots.length) :
    ∀ (l : List α) (s : State), (l.foldl f s).cache.slots.length = s.cache.slots.length
  | [], _ => rfl
  | a :: l, s => (foldl_cacheCount f h l (f s a)).trans (h s a)

@[simp] theorem optional_cacheCount {α : Type} (f : α → State → State) (h : ∀ a s, (f a s).cache.slots.length = s.cache.slots.length)
    (o : Option α) (s : State) : ((o.map f).getD id s).cache.slots.length = s.cache.slots.length := by
  cases o <;> simp [h]

@[simp] theorem setPreview_cacheCount (i : Nat) (x : PreviewSlot) (s : State) :
    (setPreview i x s).cache.slots.length = s.cache.slots.length := by
  unfold setPreview
  simp

@[simp] theorem fillSlot_cacheCount (i : Nat) (s : State) :
    (fillSlot i s).cache.slots.length = s.cache.slots.length := by
  unfold fillSlot
  simp

@[simp] theorem freeSlot_cacheCount (i : Nat) (s : State) :
    (freeSlot i s).cache.slots.length = s.cache.slots.length := by
  unfold freeSlot
  simp

@[simp] theorem touchPreview_cacheCount (i : Nat) (s : State) :
    (touchPreview i s).cache.slots.length = s.cache.slots.length := by
  unfold touchPreview
  simp

@[simp] theorem mapSlots_cacheCount (f : PreviewSlot → PreviewSlot) (s : State) :
    (mapSlots f s).cache.slots.length = s.cache.slots.length := by
  unfold mapSlots
  simp

@[simp] theorem leaveSlots_cacheCount (gone : Nat → Bool) (s : State) :
    (leaveSlots gone s).cache.slots.length = s.cache.slots.length := by
  unfold leaveSlots
  simp

@[simp] theorem pinSlot_cacheCount (i : Nat) (s : State) :
    (pinSlot i s).cache.slots.length = s.cache.slots.length := by
  unfold pinSlot
  simp

@[simp] theorem dispatchJob_cacheCount (j : Job) (r : Record) (s : State) :
    (dispatchJob j r s).cache.slots.length = s.cache.slots.length := by
  unfold dispatchJob
  try dsimp only
  repeat' split
  all_goals simp

@[simp] theorem attemptDispatch_cacheCount (s : State) :
    (attemptDispatch s).cache.slots.length = s.cache.slots.length := by
  unfold attemptDispatch
  try dsimp only
  repeat' split
  all_goals simp

@[simp] theorem serveEngineClaim_cacheCount (s : State) :
    (serveEngineClaim s).cache.slots.length = s.cache.slots.length := by
  unfold serveEngineClaim
  try dsimp only
  repeat' split
  all_goals simp

@[simp] theorem dropHolds_cacheCount (s : State) :
    (dropHolds s).cache.slots.length = s.cache.slots.length := by
  unfold dropHolds
  cases s.dev.holds with
  | none => simp
  | some h => cases h.slot <;> simp_all

@[simp] theorem requeueRunning_cacheCount (s : State) :
    (requeueRunning s).cache.slots.length = s.cache.slots.length := by
  unfold requeueRunning
  simp

@[simp] theorem removeJobs_cacheCount (n : Nat) (result : ResultCode) (s : State) :
    (removeJobs n result s).cache.slots.length = s.cache.slots.length := by
  unfold removeJobs
  try dsimp only
  repeat' split
  all_goals simp

@[simp] theorem refuseReads_cacheCount (rs : List CardRead) (result : ResultCode) (s : State) :
    (refuseReads rs result s).cache.slots.length = s.cache.slots.length := by
  unfold refuseReads
  try dsimp only
  repeat' split
  all_goals simp

@[simp] theorem endReads_cacheCount (result : ResultCode) (s : State) :
    (endReads result s).cache.slots.length = s.cache.slots.length := by
  unfold endReads
  try dsimp only
  repeat' split
  all_goals simp

@[simp] theorem dropRecord_cacheCount (s : State) (n : Nat) :
    (dropRecord s n).cache.slots.length = s.cache.slots.length := by
  unfold dropRecord
  simp

@[simp] theorem dropSettled_cacheCount (s : State) :
    (dropSettled s).cache.slots.length = s.cache.slots.length := by
  unfold dropSettled
  simp

@[simp] theorem finishDrain_cacheCount (s : State) :
    (finishDrain s).cache.slots.length = s.cache.slots.length := by
  unfold finishDrain
  simp

@[simp] theorem serveBlocks_cacheCount (s : State) :
    (serveBlocks s).cache.slots.length = s.cache.slots.length := by
  unfold serveBlocks
  simp

@[simp] theorem service_cacheCount (s : State) :
    (service s).cache.slots.length = s.cache.slots.length := by
  unfold service
  try dsimp only
  repeat' split
  all_goals simp

@[simp] theorem enterRunning_cacheCount (s : State) :
    (enterRunning s).cache.slots.length = s.cache.slots.length := by
  unfold enterRunning
  simp

@[simp] theorem evictSlot_cacheCount (i : Nat) (s : State) :
    (evictSlot i s).cache.slots.length = s.cache.slots.length := by
  unfold evictSlot
  try dsimp only
  repeat' split
  all_goals simp

@[simp] theorem claimStart_cacheCount (k : Start) (rollSlot : Nat) (roll : Roll) (s : State) :
    (claimStart k rollSlot roll s).2.cache.slots.length = s.cache.slots.length := by
  unfold claimStart
  try dsimp only
  repeat' split
  all_goals simp

@[simp] theorem startIdle_cacheCount (k : Start) (s : State) :
    (startIdle k s).2.cache.slots.length = s.cache.slots.length := by
  unfold startIdle
  try dsimp only
  repeat' split
  all_goals simp

@[simp] theorem startDark_cacheCount (k : Start) (s : State) :
    (startDark k s).2.cache.slots.length = s.cache.slots.length := by
  unfold startDark
  try dsimp only
  repeat' split
  all_goals simp

@[simp] theorem decideStart_cacheCount (k : Start) (s : State) :
    (decideStart k s).2.cache.slots.length = s.cache.slots.length := by
  unfold decideStart
  try dsimp only
  repeat' split
  all_goals simp

@[simp] theorem release_cacheCount (s : State) :
    (release s).cache.slots.length = s.cache.slots.length := by
  unfold release
  try dsimp only
  repeat' split
  all_goals simp

@[simp] theorem takeFromBlocks_cacheCount (r : Record) (s : State) :
    (takeFromBlocks r s).cache.slots.length = s.cache.slots.length := by
  unfold takeFromBlocks
  simp

@[simp] theorem acceptRetire_cacheCount (tag : Nat) (r : Record) (s : State) :
    (acceptRetire tag r s).cache.slots.length = s.cache.slots.length := by
  unfold acceptRetire
  simp

@[simp] theorem retireResident_cacheCount (tag : Nat) (r : Record) (s : State) :
    (retireResident tag r s).cache.slots.length = s.cache.slots.length := by
  unfold retireResident
  try dsimp only
  repeat' split
  all_goals simp

@[simp] theorem onResident_cacheCount (tag : Nat) (q : LoadRequest) (r : Record) (s : State) :
    (onResident tag q r s).cache.slots.length = s.cache.slots.length := by
  unfold onResident
  try dsimp only
  repeat' split
  all_goals simp

@[simp] theorem startLoad_cacheCount (i n slot : Nat) (w : LoadWaiter) (s : State) :
    (startLoad i n slot w s).cache.slots.length = s.cache.slots.length := by
  unfold startLoad
  simp

@[simp] theorem requestLoad_cacheCount (tag n : Nat) (q : LoadRequest) (s : State) :
    (requestLoad tag n q s).cache.slots.length = s.cache.slots.length := by
  unfold requestLoad
  try dsimp only
  repeat' split
  all_goals simp

@[simp] theorem onShot_cacheCount (tag n : Nat) (q : LoadRequest) (s : State) :
    (onShot tag n q s).cache.slots.length = s.cache.slots.length := by
  unfold onShot
  try dsimp only
  repeat' split
  all_goals simp

@[simp] theorem proceed_cacheCount (n : Nat) (s : State) (w : LoadWaiter) :
    (proceed n s w).cache.slots.length = s.cache.slots.length := by
  unfold proceed
  try dsimp only
  repeat' split
  all_goals simp

@[simp] theorem completeLoad_cacheCount (n slot : Nat) (block : List Byte) (s : State) :
    (completeLoad n slot block s).cache.slots.length = s.cache.slots.length := by
  unfold completeLoad
  try dsimp only
  repeat' split
  all_goals simp

@[simp] theorem loadDone_cacheCount (n slot : Nat) (block : List Byte) (s : State) :
    (loadDone n slot block s).cache.slots.length = s.cache.slots.length := by
  unfold loadDone
  try dsimp only
  repeat' split
  all_goals simp

@[simp] theorem renumberTo_cacheCount (old new : Nat) (s : State) :
    (renumberTo old new s).cache.slots.length = s.cache.slots.length := by
  unfold renumberTo
  simp

@[simp] theorem renumberShot_cacheCount (s : State) (old : Nat) :
    (renumberShot s old).cache.slots.length = s.cache.slots.length := by
  unfold renumberShot
  try dsimp only
  repeat' split
  all_goals simp

@[simp] theorem renumberAll_cacheCount (next : Nat) (s : State) :
    (renumberAll next s).cache.slots.length = s.cache.slots.length := by
  unfold renumberAll
  simp

@[simp] theorem finishMount_cacheCount (blocks : List (Nat × List Byte)) (s : State) :
    (finishMount blocks s).cache.slots.length = s.cache.slots.length := by
  unfold finishMount
  try dsimp only
  repeat' split
  all_goals simp

@[simp] theorem failWaitingLoads_cacheCount (result : ResultCode) (s : State) :
    (failWaitingLoads result s).cache.slots.length = s.cache.slots.length := by
  unfold failWaitingLoads
  simp

@[simp] theorem clearForFormat_cacheCount (s : State) :
    (clearForFormat s).cache.slots.length = s.cache.slots.length := by
  unfold clearForFormat
  simp

@[simp] theorem endForFormat_cacheCount (volumeId : Nat) (s : State) :
    (endForFormat volumeId s).cache.slots.length = s.cache.slots.length := by
  unfold endForFormat
  simp

@[simp] theorem awaitBus_cacheCount (volumeId : Nat) (s : State) :
    (awaitBus volumeId s).cache.slots.length = s.cache.slots.length := by
  unfold awaitBus
  try dsimp only
  repeat' split
  all_goals simp

@[simp] theorem beginFormat_cacheCount (tag : Nat) (s : State) :
    (beginFormat tag s).cache.slots.length = s.cache.slots.length := by
  unfold beginFormat
  try dsimp only
  repeat' split
  all_goals simp

@[simp] theorem cardFault_cacheCount (s : State) :
    (cardFault s).cache.slots.length = s.cache.slots.length := by
  unfold cardFault
  simp

@[simp] theorem orphanAnswered_cacheCount (s : State) :
    (orphanAnswered s).cache.slots.length = s.cache.slots.length := by
  unfold orphanAnswered
  try dsimp only
  repeat' split
  all_goals simp

theorem stopAtAnswer_cacheCount {s t : State} (h : stopAtAnswer s = some t) : t.cache.slots.length = s.cache.slots.length := by
  unfold stopAtAnswer at h
  split at h
  · cases h; simp
  · split at h
    · cases h; simp
    · cases h
  · cases h; simp
  · cases h

@[simp] theorem answeredError_cacheCount (s : State) :
    (answeredError s).cache.slots.length = s.cache.slots.length := by
  unfold answeredError
  repeat' split
  any_goals simp
  next h => simp [stopAtAnswer_cacheCount h]

@[simp] theorem answeredOk_cacheCount (g : State → State) (h : ∀ s, (g s).cache.slots.length = s.cache.slots.length) (s : State) :
    (answeredOk g s).cache.slots.length = s.cache.slots.length := by
  unfold answeredOk
  repeat' split
  any_goals simp [h]
  next h => simp [stopAtAnswer_cacheCount h]

@[simp] theorem endCardWork_cacheCount (s : State) :
    (endCardWork s).cache.slots.length = s.cache.slots.length := by
  unfold endCardWork
  simp

@[simp] theorem removeCard_cacheCount (s : State) :
    (removeCard s).cache.slots.length = s.cache.slots.length := by
  unfold removeCard
  simp

@[simp] theorem acceptEject_cacheCount (tag : Nat) (s : State) :
    (acceptEject tag s).cache.slots.length = s.cache.slots.length := by
  unfold acceptEject
  simp

@[simp] theorem deliver_cacheCount (i : SyncInput) (level : Contact) (t : Time) (s : State) :
    (deliver i level t s).cache.slots.length = s.cache.slots.length := by
  unfold deliver
  try dsimp only
  repeat' split
  all_goals simp

@[simp] theorem qualify_cacheCount (i : SyncInput) (s : State) :
    (qualify i s).cache.slots.length = s.cache.slots.length := by
  unfold qualify
  try dsimp only
  repeat' split
  all_goals simp

@[simp] theorem answerPreview_cacheCount (i : Nat) (key : DevKey) (result : ResultCode) (s : State) (tag : Nat) :
    (answerPreview i key result s tag).cache.slots.length = s.cache.slots.length := by
  unfold answerPreview
  try dsimp only
  repeat' split
  all_goals simp

@[simp] theorem validSlot_cacheCount (i : Nat) (j : Job) (size : Nat × Nat) (s : State) :
    (validSlot i j size s).cache.slots.length = s.cache.slots.length := by
  unfold validSlot
  simp

@[simp] theorem completePreview_cacheCount (j : Job) (h : RunHolds) (s : State) :
    (completePreview j h s).cache.slots.length = s.cache.slots.length := by
  unfold completePreview
  try dsimp only
  repeat' split
  all_goals simp

@[simp] theorem completeJob_cacheCount (j : Job) (h : RunHolds) (s : State) :
    (completeJob j h s).cache.slots.length = s.cache.slots.length := by
  unfold completeJob
  try dsimp only
  repeat' split
  all_goals simp

@[simp] theorem developResident_cacheCount (tag : Nat) (k : JobKind) (priority : Nat) (r : Record) (s : State) :
    (developResident tag k priority r s).cache.slots.length = s.cache.slots.length := by
  unfold developResident
  try dsimp only
  repeat' split
  all_goals simp

@[simp] theorem previewHit_cacheCount (tag i : Nat) (s : State) :
    (previewHit tag i s).cache.slots.length = s.cache.slots.length := by
  unfold previewHit
  try dsimp only
  repeat' split
  all_goals simp

@[simp] theorem getResident_cacheCount (tag : Nat) (r : Record) (s : State) :
    (getResident tag r s).cache.slots.length = s.cache.slots.length := by
  unfold getResident
  try dsimp only
  repeat' split
  all_goals simp

@[simp] theorem getAbsent_cacheCount (tag n : Nat) (s : State) :
    (getAbsent tag n s).cache.slots.length = s.cache.slots.length := by
  unfold getAbsent
  try dsimp only
  repeat' split
  all_goals simp

@[simp] theorem unpin_cacheCount (i : Nat) (s : State) :
    (unpin i s).cache.slots.length = s.cache.slots.length := by
  unfold unpin
  try dsimp only
  repeat' split
  all_goals simp

@[simp] theorem restartDev_cacheCount (s : State) :
    (restartDev s).cache.slots.length = s.cache.slots.length := by
  unfold restartDev
  simp

@[simp] theorem restartCard_cacheCount (s : State) :
    (restartCard s).cache.slots.length = s.cache.slots.length := by
  unfold restartCard
  simp

@[simp] theorem restartBlocks_cacheCount (s : State) :
    (restartBlocks s).cache.slots.length = s.cache.slots.length := by
  unfold restartBlocks
  simp

@[simp] theorem restartEnds_cacheCount (s : State) :
    (restartEnds s).cache.slots.length = s.cache.slots.length := by
  unfold restartEnds
  try dsimp only
  repeat' split
  all_goals simp

@[simp] theorem foldl_planeCount {α : Type} (f : State → α → State)
    (h : ∀ s a, (f s a).pool.owners.length = s.pool.owners.length) :
    ∀ (l : List α) (s : State), (l.foldl f s).pool.owners.length = s.pool.owners.length
  | [], _ => rfl
  | a :: l, s => (foldl_planeCount f h l (f s a)).trans (h s a)

@[simp] theorem optional_planeCount {α : Type} (f : α → State → State) (h : ∀ a s, (f a s).pool.owners.length = s.pool.owners.length)
    (o : Option α) (s : State) : ((o.map f).getD id s).pool.owners.length = s.pool.owners.length := by
  cases o <;> simp [h]

@[simp] theorem setOwner_planeCount (plane : Nat) (o : Owner) (s : State) :
    (setOwner plane o s).pool.owners.length = s.pool.owners.length := by
  unfold setOwner
  simp

@[simp] theorem releasePlane_planeCount (plane : Option Nat) (s : State) :
    (releasePlane plane s).pool.owners.length = s.pool.owners.length := by
  unfold releasePlane
  try dsimp only
  repeat' split
  all_goals simp

@[simp] theorem claimPlane_planeCount (plane : Option Nat) (o : Owner) (s : State) :
    (claimPlane plane o s).pool.owners.length = s.pool.owners.length := by
  unfold claimPlane
  try dsimp only
  repeat' split
  all_goals simp

@[simp] theorem dispatchJob_planeCount (j : Job) (r : Record) (s : State) :
    (dispatchJob j r s).pool.owners.length = s.pool.owners.length := by
  unfold dispatchJob
  try dsimp only
  repeat' split
  all_goals simp

@[simp] theorem setEngineClaim_planeCount (b : Bool) (s : State) :
    (setEngineClaim b s).pool.owners.length = s.pool.owners.length := by
  unfold setEngineClaim
  simp

@[simp] theorem refreshEngineClaim_planeCount (s : State) :
    (refreshEngineClaim s).pool.owners.length = s.pool.owners.length := by
  unfold refreshEngineClaim
  simp

@[simp] theorem attemptDispatch_planeCount (s : State) :
    (attemptDispatch s).pool.owners.length = s.pool.owners.length := by
  unfold attemptDispatch
  try dsimp only
  repeat' split
  all_goals simp

@[simp] theorem serveEngineClaim_planeCount (s : State) :
    (serveEngineClaim s).pool.owners.length = s.pool.owners.length := by
  unfold serveEngineClaim
  try dsimp only
  repeat' split
  all_goals simp

@[simp] theorem settle_planeCount (n : Nat) (s : State) :
    (settle n s).pool.owners.length = s.pool.owners.length := by
  unfold settle
  try dsimp only
  repeat' split
  all_goals simp

@[simp] theorem endHolds_planeCount (s : State) :
    (endHolds s).pool.owners.length = s.pool.owners.length := by
  unfold endHolds
  simp

@[simp] theorem dropHolds_planeCount (s : State) :
    (dropHolds s).pool.owners.length = s.pool.owners.length := by
  unfold dropHolds
  cases s.dev.holds with
  | none => simp
  | some h => cases h.slot <;> simp_all

@[simp] theorem requeueRunning_planeCount (s : State) :
    (requeueRunning s).pool.owners.length = s.pool.owners.length := by
  unfold requeueRunning
  simp

@[simp] theorem removeJobs_planeCount (n : Nat) (result : ResultCode) (s : State) :
    (removeJobs n result s).pool.owners.length = s.pool.owners.length := by
  unfold removeJobs
  try dsimp only
  repeat' split
  all_goals simp

@[simp] theorem freeEntry_planeCount (e : Nat) (s : State) :
    (freeEntry e s).pool.owners.length = s.pool.owners.length := by
  unfold freeEntry
  simp

@[simp] theorem planRounds_planeCount (fuel : Nat) (s : State) :
    (planRounds fuel s).pool.owners.length = s.pool.owners.length := by
  induction fuel generalizing s with
  | zero => simp [planRounds]
  | succ n ih => unfold planRounds; repeat' split
                 all_goals simp [ih]

@[simp] theorem matchingPass_planeCount (s : State) :
    (matchingPass s).pool.owners.length = s.pool.owners.length := by
  unfold matchingPass
  try dsimp only
  repeat' split
  all_goals simp

@[simp] theorem freeIfExpired_planeCount (e : Nat) (s : State) :
    (freeIfExpired e s).pool.owners.length = s.pool.owners.length := by
  unfold freeIfExpired
  try dsimp only
  repeat' split
  all_goals simp

@[simp] theorem afterUnlink_planeCount (e : Nat) (s : State) :
    (afterUnlink e s).pool.owners.length = s.pool.owners.length := by
  unfold afterUnlink
  try dsimp only
  repeat' split
  all_goals simp

@[simp] theorem giveUpDark_planeCount (n : Nat) (s : State) :
    (giveUpDark n s).pool.owners.length = s.pool.owners.length := by
  unfold giveUpDark
  try dsimp only
  repeat' split
  all_goals simp

@[simp] theorem failEntry_planeCount (e : Nat) (s : State) :
    (failEntry e s).pool.owners.length = s.pool.owners.length := by
  unfold failEntry
  simp

@[simp] theorem abandonDark_planeCount (s : State) :
    (abandonDark s).pool.owners.length = s.pool.owners.length := by
  unfold abandonDark
  try dsimp only
  repeat' split
  all_goals simp

@[simp] theorem enterDark_planeCount (e p : Nat) (s : State) :
    (enterDark e p s).pool.owners.length = s.pool.owners.length := by
  unfold enterDark
  simp

@[simp] theorem setDarkClaim_planeCount (b : Bool) (s : State) :
    (setDarkClaim b s).pool.owners.length = s.pool.owners.length := by
  unfold setDarkClaim
  simp

@[simp] theorem attemptDark_planeCount (s : State) :
    (attemptDark s).pool.owners.length = s.pool.owners.length := by
  unfold attemptDark
  try dsimp only
  repeat' split
  all_goals simp

@[simp] theorem serveDarkClaim_planeCount (s : State) :
    (serveDarkClaim s).pool.owners.length = s.pool.owners.length := by
  unfold serveDarkClaim
  try dsimp only
  repeat' split
  all_goals simp

@[simp] theorem finishDark_planeCount (temperature : Int) (s : State) :
    (finishDark temperature s).pool.owners.length = s.pool.owners.length := by
  unfold finishDark
  try dsimp only
  repeat' split
  all_goals simp

@[simp] theorem refuseReads_planeCount (rs : List CardRead) (result : ResultCode) (s : State) :
    (refuseReads rs result s).pool.owners.length = s.pool.owners.length := by
  unfold refuseReads
  try dsimp only
  repeat' split
  all_goals simp

@[simp] theorem endReads_planeCount (result : ResultCode) (s : State) :
    (endReads result s).pool.owners.length = s.pool.owners.length := by
  unfold endReads
  try dsimp only
  repeat' split
  all_goals simp

@[simp] theorem freeHandoffs_planeCount (n : Nat) (s : State) :
    (freeHandoffs n s).pool.owners.length = s.pool.owners.length := by
  unfold freeHandoffs
  simp

@[simp] theorem dropRecord_planeCount (s : State) (n : Nat) :
    (dropRecord s n).pool.owners.length = s.pool.owners.length := by
  unfold dropRecord
  simp

@[simp] theorem dropSettled_planeCount (s : State) :
    (dropSettled s).pool.owners.length = s.pool.owners.length := by
  unfold dropSettled
  simp

@[simp] theorem finishDrain_planeCount (s : State) :
    (finishDrain s).pool.owners.length = s.pool.owners.length := by
  unfold finishDrain
  simp

@[simp] theorem claimForDark_planeCount (s : State) :
    (claimForDark s).pool.owners.length = s.pool.owners.length := by
  unfold claimForDark
  try dsimp only
  repeat' split
  all_goals simp

@[simp] theorem serveBlocks_planeCount (s : State) :
    (serveBlocks s).pool.owners.length = s.pool.owners.length := by
  unfold serveBlocks
  simp

@[simp] theorem service_planeCount (s : State) :
    (service s).pool.owners.length = s.pool.owners.length := by
  unfold service
  try dsimp only
  repeat' split
  all_goals simp

@[simp] theorem enterRunning_planeCount (s : State) :
    (enterRunning s).pool.owners.length = s.pool.owners.length := by
  unfold enterRunning
  simp

@[simp] theorem freeScratch_planeCount (s : State) :
    (freeScratch s).pool.owners.length = s.pool.owners.length := by
  unfold freeScratch
  simp

@[simp] theorem takeSeqPlane_planeCount (c : Nat × Option Nat) (o : Owner) (s : State) :
    (takeSeqPlane c o s).pool.owners.length = s.pool.owners.length := by
  unfold takeSeqPlane
  try dsimp only
  repeat' split
  all_goals simp

@[simp] theorem passAfterReclaim_planeCount (c : Nat × Option Nat) (s : State) :
    (passAfterReclaim c s).pool.owners.length = s.pool.owners.length := by
  unfold passAfterReclaim
  try dsimp only
  repeat' split
  all_goals simp

@[simp] theorem createShot_planeCount (k : Start) (rollSlot : Nat) (roll : Roll) (slot : Nat) (c : Nat × Option Nat) (s : State) :
    (createShot k rollSlot roll slot c s).pool.owners.length = s.pool.owners.length := by
  unfold createShot
  simp

@[simp] theorem claimStart_planeCount (k : Start) (rollSlot : Nat) (roll : Roll) (s : State) :
    (claimStart k rollSlot roll s).2.pool.owners.length = s.pool.owners.length := by
  unfold claimStart
  try dsimp only
  repeat' split
  all_goals simp

@[simp] theorem startIdle_planeCount (k : Start) (s : State) :
    (startIdle k s).2.pool.owners.length = s.pool.owners.length := by
  unfold startIdle
  try dsimp only
  repeat' split
  all_goals simp

@[simp] theorem startDark_planeCount (k : Start) (s : State) :
    (startDark k s).2.pool.owners.length = s.pool.owners.length := by
  unfold startDark
  try dsimp only
  repeat' split
  all_goals simp

@[simp] theorem startStack_planeCount (k : Start) (s : State) :
    (startStack k s).2.pool.owners.length = s.pool.owners.length := by
  unfold startStack
  try dsimp only
  repeat' split
  all_goals simp

@[simp] theorem decideStart_planeCount (k : Start) (s : State) :
    (decideStart k s).2.pool.owners.length = s.pool.owners.length := by
  unfold decideStart
  try dsimp only
  repeat' split
  all_goals simp

@[simp] theorem release_planeCount (s : State) :
    (release s).pool.owners.length = s.pool.owners.length := by
  unfold release
  try dsimp only
  repeat' split
  all_goals simp

@[simp] theorem holdShot_planeCount (s : State) :
    (holdShot s).pool.owners.length = s.pool.owners.length := by
  unfold holdShot
  simp

@[simp] theorem finishShot_planeCount (s : State) :
    (finishShot s).pool.owners.length = s.pool.owners.length := by
  unfold finishShot
  try dsimp only
  repeat' split
  all_goals simp

@[simp] theorem removeOpen_planeCount (s : State) :
    (removeOpen s).pool.owners.length = s.pool.owners.length := by
  unfold removeOpen
  try dsimp only
  repeat' split
  all_goals simp

@[simp] theorem goodReadout_planeCount (temperature : Int) (s : State) :
    (goodReadout temperature s).pool.owners.length = s.pool.owners.length := by
  unfold goodReadout
  try dsimp only
  repeat' split
  all_goals simp

@[simp] theorem voidShot_planeCount (s : State) :
    (voidShot s).pool.owners.length = s.pool.owners.length := by
  unfold voidShot
  try dsimp only
  repeat' split
  all_goals simp

@[simp] theorem failedReadout_planeCount (s : State) :
    (failedReadout s).pool.owners.length = s.pool.owners.length := by
  unfold failedReadout
  try dsimp only
  repeat' split
  all_goals simp

@[simp] theorem failedDark_planeCount (s : State) :
    (failedDark s).pool.owners.length = s.pool.owners.length := by
  unfold failedDark
  simp

@[simp] theorem applyAmend_planeCount (r : Record) (o : AmendOperands) (s : State) :
    (applyAmend r o s).pool.owners.length = s.pool.owners.length := by
  unfold applyAmend
  try dsimp only
  repeat' split
  all_goals simp

@[simp] theorem amendResident_planeCount (tag : Nat) (r : Record) (o : AmendOperands) (s : State) :
    (amendResident tag r o s).pool.owners.length = s.pool.owners.length := by
  unfold amendResident
  try dsimp only
  repeat' split
  all_goals simp

@[simp] theorem requestEnded_planeCount (e : Nat) (s : State) :
    (requestEnded e s).pool.owners.length = s.pool.owners.length := by
  unfold requestEnded
  try dsimp only
  repeat' split
  all_goals simp

@[simp] theorem leaveDarkUnit_planeCount (n : Nat) (link : DarkLink) (s : State) :
    (leaveDarkUnit n link s).pool.owners.length = s.pool.owners.length := by
  unfold leaveDarkUnit
  try dsimp only
  repeat' split
  all_goals simp

@[simp] theorem takeFromBlocks_planeCount (r : Record) (s : State) :
    (takeFromBlocks r s).pool.owners.length = s.pool.owners.length := by
  unfold takeFromBlocks
  simp

@[simp] theorem acceptRetire_planeCount (tag : Nat) (r : Record) (s : State) :
    (acceptRetire tag r s).pool.owners.length = s.pool.owners.length := by
  unfold acceptRetire
  simp

@[simp] theorem retireResident_planeCount (tag : Nat) (r : Record) (s : State) :
    (retireResident tag r s).pool.owners.length = s.pool.owners.length := by
  unfold retireResident
  try dsimp only
  repeat' split
  all_goals simp

@[simp] theorem onResident_planeCount (tag : Nat) (q : LoadRequest) (r : Record) (s : State) :
    (onResident tag q r s).pool.owners.length = s.pool.owners.length := by
  unfold onResident
  try dsimp only
  repeat' split
  all_goals simp

@[simp] theorem onShot_planeCount (tag n : Nat) (q : LoadRequest) (s : State) :
    (onShot tag n q s).pool.owners.length = s.pool.owners.length := by
  unfold onShot
  try dsimp only
  repeat' split
  all_goals simp

@[simp] theorem proceed_planeCount (n : Nat) (s : State) (w : LoadWaiter) :
    (proceed n s w).pool.owners.length = s.pool.owners.length := by
  unfold proceed
  try dsimp only
  repeat' split
  all_goals simp

@[simp] theorem completeLoad_planeCount (n slot : Nat) (block : List Byte) (s : State) :
    (completeLoad n slot block s).pool.owners.length = s.pool.owners.length := by
  unfold completeLoad
  try dsimp only
  repeat' split
  all_goals simp

@[simp] theorem loadDone_planeCount (n slot : Nat) (block : List Byte) (s : State) :
    (loadDone n slot block s).pool.owners.length = s.pool.owners.length := by
  unfold loadDone
  try dsimp only
  repeat' split
  all_goals simp

@[simp] theorem renumberTo_planeCount (old new : Nat) (s : State) :
    (renumberTo old new s).pool.owners.length = s.pool.owners.length := by
  unfold renumberTo
  simp

@[simp] theorem renumberShot_planeCount (s : State) (old : Nat) :
    (renumberShot s old).pool.owners.length = s.pool.owners.length := by
  unfold renumberShot
  try dsimp only
  repeat' split
  all_goals simp

@[simp] theorem renumberAll_planeCount (next : Nat) (s : State) :
    (renumberAll next s).pool.owners.length = s.pool.owners.length := by
  unfold renumberAll
  simp

@[simp] theorem finishMount_planeCount (blocks : List (Nat × List Byte)) (s : State) :
    (finishMount blocks s).pool.owners.length = s.pool.owners.length := by
  unfold finishMount
  try dsimp only
  repeat' split
  all_goals simp

@[simp] theorem failWaitingLoads_planeCount (result : ResultCode) (s : State) :
    (failWaitingLoads result s).pool.owners.length = s.pool.owners.length := by
  unfold failWaitingLoads
  simp

@[simp] theorem clearForFormat_planeCount (s : State) :
    (clearForFormat s).pool.owners.length = s.pool.owners.length := by
  unfold clearForFormat
  simp

@[simp] theorem endForFormat_planeCount (volumeId : Nat) (s : State) :
    (endForFormat volumeId s).pool.owners.length = s.pool.owners.length := by
  unfold endForFormat
  simp

@[simp] theorem awaitBus_planeCount (volumeId : Nat) (s : State) :
    (awaitBus volumeId s).pool.owners.length = s.pool.owners.length := by
  unfold awaitBus
  try dsimp only
  repeat' split
  all_goals simp

@[simp] theorem beginFormat_planeCount (tag : Nat) (s : State) :
    (beginFormat tag s).pool.owners.length = s.pool.owners.length := by
  unfold beginFormat
  try dsimp only
  repeat' split
  all_goals simp

@[simp] theorem cardFault_planeCount (s : State) :
    (cardFault s).pool.owners.length = s.pool.owners.length := by
  unfold cardFault
  simp

@[simp] theorem orphanAnswered_planeCount (s : State) :
    (orphanAnswered s).pool.owners.length = s.pool.owners.length := by
  unfold orphanAnswered
  try dsimp only
  repeat' split
  all_goals simp

theorem stopAtAnswer_planeCount {s t : State} (h : stopAtAnswer s = some t) : t.pool.owners.length = s.pool.owners.length := by
  unfold stopAtAnswer at h
  split at h
  · cases h; simp
  · split at h
    · cases h; simp
    · cases h
  · cases h; simp
  · cases h

@[simp] theorem answeredError_planeCount (s : State) :
    (answeredError s).pool.owners.length = s.pool.owners.length := by
  unfold answeredError
  repeat' split
  any_goals simp
  next h => simp [stopAtAnswer_planeCount h]

@[simp] theorem answeredOk_planeCount (g : State → State) (h : ∀ s, (g s).pool.owners.length = s.pool.owners.length) (s : State) :
    (answeredOk g s).pool.owners.length = s.pool.owners.length := by
  unfold answeredOk
  repeat' split
  any_goals simp [h]
  next h => simp [stopAtAnswer_planeCount h]

@[simp] theorem endCardWork_planeCount (s : State) :
    (endCardWork s).pool.owners.length = s.pool.owners.length := by
  unfold endCardWork
  simp

@[simp] theorem removeCard_planeCount (s : State) :
    (removeCard s).pool.owners.length = s.pool.owners.length := by
  unfold removeCard
  simp

@[simp] theorem entryWritten_planeCount (n slot : Nat) (s : State) :
    (entryWritten n slot s).pool.owners.length = s.pool.owners.length := by
  unfold entryWritten
  try dsimp only
  repeat' split
  all_goals simp

@[simp] theorem finishHandoff_planeCount (h : Handoff) (s : State) :
    (finishHandoff h s).pool.owners.length = s.pool.owners.length := by
  unfold finishHandoff
  try dsimp only
  repeat' split
  all_goals simp

@[simp] theorem developedWritten_planeCount (h : Handoff) (runs : List Run) (s : State) :
    (developedWritten h runs s).pool.owners.length = s.pool.owners.length := by
  unfold developedWritten
  dsimp only
  split <;> simp [-Option.map_bind, -Option.map_map]

@[simp] theorem acceptEject_planeCount (tag : Nat) (s : State) :
    (acceptEject tag s).pool.owners.length = s.pool.owners.length := by
  unfold acceptEject
  simp

@[simp] theorem deliver_planeCount (i : SyncInput) (level : Contact) (t : Time) (s : State) :
    (deliver i level t s).pool.owners.length = s.pool.owners.length := by
  unfold deliver
  try dsimp only
  repeat' split
  all_goals simp

@[simp] theorem qualify_planeCount (i : SyncInput) (s : State) :
    (qualify i s).pool.owners.length = s.pool.owners.length := by
  unfold qualify
  try dsimp only
  repeat' split
  all_goals simp

@[simp] theorem armExpired_planeCount (s : State) :
    (armExpired s).pool.owners.length = s.pool.owners.length := by
  unfold armExpired
  try dsimp only
  repeat' split
  all_goals simp

@[simp] theorem freeReady_planeCount (s : State) :
    (freeReady s).pool.owners.length = s.pool.owners.length := by
  unfold freeReady
  simp

@[simp] theorem setGeometry_planeCount (columns rows : Nat) (s : State) :
    (setGeometry columns rows s).pool.owners.length = s.pool.owners.length := by
  unfold setGeometry
  simp

@[simp] theorem afterAccumulate_planeCount (s : State) :
    (afterAccumulate s).pool.owners.length = s.pool.owners.length := by
  unfold afterAccumulate
  try dsimp only
  repeat' split
  all_goals simp

@[simp] theorem darkApplied_planeCount (q : PauRequest) (e : Nat) (s : State) :
    (darkApplied q e s).pool.owners.length = s.pool.owners.length := by
  unfold darkApplied
  try dsimp only
  repeat' split
  all_goals simp

@[simp] theorem supersedeHandoffs_planeCount (n : Nat) (s : State) :
    (supersedeHandoffs n s).pool.owners.length = s.pool.owners.length := by
  unfold supersedeHandoffs
  simp

@[simp] theorem handOff_planeCount (j : Job) (plane : Nat) (size : Nat × Nat) (s : State) :
    (handOff j plane size s).pool.owners.length = s.pool.owners.length := by
  unfold handOff
  simp

@[simp] theorem completeFull_planeCount (j : Job) (plane : Nat) (size : Nat × Nat) (s : State) :
    (completeFull j plane size s).pool.owners.length = s.pool.owners.length := by
  unfold completeFull
  simp

@[simp] theorem requeueStale_planeCount (j : Job) (plane : Nat) (s : State) :
    (requeueStale j plane s).pool.owners.length = s.pool.owners.length := by
  unfold requeueStale
  simp

@[simp] theorem endFull_planeCount (j : Job) (h : RunHolds) (s : State) :
    (endFull j h s).pool.owners.length = s.pool.owners.length := by
  unfold endFull
  try dsimp only
  repeat' split
  all_goals simp

@[simp] theorem completeJob_planeCount (j : Job) (h : RunHolds) (s : State) :
    (completeJob j h s).pool.owners.length = s.pool.owners.length := by
  unfold completeJob
  try dsimp only
  repeat' split
  all_goals simp

@[simp] theorem developResident_planeCount (tag : Nat) (k : JobKind) (priority : Nat) (r : Record) (s : State) :
    (developResident tag k priority r s).pool.owners.length = s.pool.owners.length := by
  unfold developResident
  try dsimp only
  repeat' split
  all_goals simp

@[simp] theorem previewHit_planeCount (tag i : Nat) (s : State) :
    (previewHit tag i s).pool.owners.length = s.pool.owners.length := by
  unfold previewHit
  try dsimp only
  repeat' split
  all_goals simp

@[simp] theorem getResident_planeCount (tag : Nat) (r : Record) (s : State) :
    (getResident tag r s).pool.owners.length = s.pool.owners.length := by
  unfold getResident
  try dsimp only
  repeat' split
  all_goals simp

@[simp] theorem getAbsent_planeCount (tag n : Nat) (s : State) :
    (getAbsent tag n s).pool.owners.length = s.pool.owners.length := by
  unfold getAbsent
  try dsimp only
  repeat' split
  all_goals simp

@[simp] theorem settleOpen_planeCount (s : State) :
    (settleOpen s).pool.owners.length = s.pool.owners.length := by
  unfold settleOpen
  try dsimp only
  repeat' split
  all_goals simp

@[simp] theorem restartSequencer_planeCount (s : State) :
    (restartSequencer s).pool.owners.length = s.pool.owners.length := by
  unfold restartSequencer
  try dsimp only
  repeat' split
  all_goals simp

@[simp] theorem restartDark_planeCount (s : State) :
    (restartDark s).pool.owners.length = s.pool.owners.length := by
  unfold restartDark
  simp

@[simp] theorem restartDev_planeCount (s : State) :
    (restartDev s).pool.owners.length = s.pool.owners.length := by
  unfold restartDev
  simp

@[simp] theorem discardRecord_planeCount (s : State) (n : Nat) :
    (discardRecord s n).pool.owners.length = s.pool.owners.length := by
  unfold discardRecord
  simp

@[simp] theorem restartCardWork_planeCount (s : State) :
    (restartCardWork s).pool.owners.length = s.pool.owners.length := by
  unfold restartCardWork
  simp

@[simp] theorem restartCard_planeCount (s : State) :
    (restartCard s).pool.owners.length = s.pool.owners.length := by
  unfold restartCard
  simp

@[simp] theorem restartBlocks_planeCount (s : State) :
    (restartBlocks s).pool.owners.length = s.pool.owners.length := by
  unfold restartBlocks
  simp

@[simp] theorem restartStores_planeCount (s : State) :
    (restartStores s).pool.owners.length = s.pool.owners.length := by
  unfold restartStores
  simp

@[simp] theorem restartEnds_planeCount (s : State) :
    (restartEnds s).pool.owners.length = s.pool.owners.length := by
  unfold restartEnds
  try dsimp only
  repeat' split
  all_goals simp

@[simp] theorem restartPart_planeCount (tag : Nat) (s : State) :
    (restartPart tag s).pool.owners.length = s.pool.owners.length := by
  unfold restartPart
  simp

@[simp] theorem foldl_darkCount {α : Type} (f : State → α → State)
    (h : ∀ s a, (f s a).dark.entries.length = s.dark.entries.length) :
    ∀ (l : List α) (s : State), (l.foldl f s).dark.entries.length = s.dark.entries.length
  | [], _ => rfl
  | a :: l, s => (foldl_darkCount f h l (f s a)).trans (h s a)

@[simp] theorem optional_darkCount {α : Type} (f : α → State → State) (h : ∀ a s, (f a s).dark.entries.length = s.dark.entries.length)
    (o : Option α) (s : State) : ((o.map f).getD id s).dark.entries.length = s.dark.entries.length := by
  cases o <;> simp [h]

@[simp] theorem setDarkEntry_darkCount (e : Nat) (x : DarkEntry) (s : State) :
    (setDarkEntry e x s).dark.entries.length = s.dark.entries.length := by
  unfold setDarkEntry
  simp

@[simp] theorem freeEntry_darkCount (e : Nat) (s : State) :
    (freeEntry e s).dark.entries.length = s.dark.entries.length := by
  unfold freeEntry
  simp

@[simp] theorem planEntry_darkCount (e : Nat) (r : Record) (s : State) :
    (planEntry e r s).dark.entries.length = s.dark.entries.length := by
  unfold planEntry
  simp

@[simp] theorem planRounds_darkCount (fuel : Nat) (s : State) :
    (planRounds fuel s).dark.entries.length = s.dark.entries.length := by
  induction fuel generalizing s with
  | zero => simp [planRounds]
  | succ n ih => unfold planRounds; repeat' split
                 all_goals simp [ih]

@[simp] theorem matchingPass_darkCount (s : State) :
    (matchingPass s).dark.entries.length = s.dark.entries.length := by
  unfold matchingPass
  try dsimp only
  repeat' split
  all_goals simp

@[simp] theorem freeIfExpired_darkCount (e : Nat) (s : State) :
    (freeIfExpired e s).dark.entries.length = s.dark.entries.length := by
  unfold freeIfExpired
  try dsimp only
  repeat' split
  all_goals simp

@[simp] theorem afterUnlink_darkCount (e : Nat) (s : State) :
    (afterUnlink e s).dark.entries.length = s.dark.entries.length := by
  unfold afterUnlink
  try dsimp only
  repeat' split
  all_goals simp

@[simp] theorem giveUpDark_darkCount (n : Nat) (s : State) :
    (giveUpDark n s).dark.entries.length = s.dark.entries.length := by
  unfold giveUpDark
  try dsimp only
  repeat' split
  all_goals simp

@[simp] theorem failEntry_darkCount (e : Nat) (s : State) :
    (failEntry e s).dark.entries.length = s.dark.entries.length := by
  unfold failEntry
  simp

@[simp] theorem abandonDark_darkCount (s : State) :
    (abandonDark s).dark.entries.length = s.dark.entries.length := by
  unfold abandonDark
  try dsimp only
  repeat' split
  all_goals simp

@[simp] theorem enterDark_darkCount (e p : Nat) (s : State) :
    (enterDark e p s).dark.entries.length = s.dark.entries.length := by
  unfold enterDark
  simp

@[simp] theorem attemptDark_darkCount (s : State) :
    (attemptDark s).dark.entries.length = s.dark.entries.length := by
  unfold attemptDark
  try dsimp only
  repeat' split
  all_goals simp

@[simp] theorem serveDarkClaim_darkCount (s : State) :
    (serveDarkClaim s).dark.entries.length = s.dark.entries.length := by
  unfold serveDarkClaim
  try dsimp only
  repeat' split
  all_goals simp

@[simp] theorem finishDark_darkCount (temperature : Int) (s : State) :
    (finishDark temperature s).dark.entries.length = s.dark.entries.length := by
  unfold finishDark
  try dsimp only
  repeat' split
  all_goals simp

@[simp] theorem serveBlocks_darkCount (s : State) :
    (serveBlocks s).dark.entries.length = s.dark.entries.length := by
  unfold serveBlocks
  simp

@[simp] theorem service_darkCount (s : State) :
    (service s).dark.entries.length = s.dark.entries.length := by
  unfold service
  try dsimp only
  repeat' split
  all_goals simp

@[simp] theorem enterRunning_darkCount (s : State) :
    (enterRunning s).dark.entries.length = s.dark.entries.length := by
  unfold enterRunning
  simp

@[simp] theorem takeSeqPlane_darkCount (c : Nat × Option Nat) (o : Owner) (s : State) :
    (takeSeqPlane c o s).dark.entries.length = s.dark.entries.length := by
  unfold takeSeqPlane
  try dsimp only
  repeat' split
  all_goals simp

@[simp] theorem passAfterReclaim_darkCount (c : Nat × Option Nat) (s : State) :
    (passAfterReclaim c s).dark.entries.length = s.dark.entries.length := by
  unfold passAfterReclaim
  try dsimp only
  repeat' split
  all_goals simp

@[simp] theorem createShot_darkCount (k : Start) (rollSlot : Nat) (roll : Roll) (slot : Nat) (c : Nat × Option Nat) (s : State) :
    (createShot k rollSlot roll slot c s).dark.entries.length = s.dark.entries.length := by
  unfold createShot
  simp

@[simp] theorem claimStart_darkCount (k : Start) (rollSlot : Nat) (roll : Roll) (s : State) :
    (claimStart k rollSlot roll s).2.dark.entries.length = s.dark.entries.length := by
  unfold claimStart
  try dsimp only
  repeat' split
  all_goals simp

@[simp] theorem startIdle_darkCount (k : Start) (s : State) :
    (startIdle k s).2.dark.entries.length = s.dark.entries.length := by
  unfold startIdle
  try dsimp only
  repeat' split
  all_goals simp

@[simp] theorem startDark_darkCount (k : Start) (s : State) :
    (startDark k s).2.dark.entries.length = s.dark.entries.length := by
  unfold startDark
  try dsimp only
  repeat' split
  all_goals simp

@[simp] theorem startStack_darkCount (k : Start) (s : State) :
    (startStack k s).2.dark.entries.length = s.dark.entries.length := by
  unfold startStack
  try dsimp only
  repeat' split
  all_goals simp

@[simp] theorem decideStart_darkCount (k : Start) (s : State) :
    (decideStart k s).2.dark.entries.length = s.dark.entries.length := by
  unfold decideStart
  try dsimp only
  repeat' split
  all_goals simp

@[simp] theorem release_darkCount (s : State) :
    (release s).dark.entries.length = s.dark.entries.length := by
  unfold release
  try dsimp only
  repeat' split
  all_goals simp

@[simp] theorem finishShot_darkCount (s : State) :
    (finishShot s).dark.entries.length = s.dark.entries.length := by
  unfold finishShot
  try dsimp only
  repeat' split
  all_goals simp

@[simp] theorem goodReadout_darkCount (temperature : Int) (s : State) :
    (goodReadout temperature s).dark.entries.length = s.dark.entries.length := by
  unfold goodReadout
  try dsimp only
  repeat' split
  all_goals simp

@[simp] theorem failedReadout_darkCount (s : State) :
    (failedReadout s).dark.entries.length = s.dark.entries.length := by
  unfold failedReadout
  try dsimp only
  repeat' split
  all_goals simp

@[simp] theorem failedDark_darkCount (s : State) :
    (failedDark s).dark.entries.length = s.dark.entries.length := by
  unfold failedDark
  simp

@[simp] theorem applyAmend_darkCount (r : Record) (o : AmendOperands) (s : State) :
    (applyAmend r o s).dark.entries.length = s.dark.entries.length := by
  unfold applyAmend
  try dsimp only
  repeat' split
  all_goals simp

@[simp] theorem amendResident_darkCount (tag : Nat) (r : Record) (o : AmendOperands) (s : State) :
    (amendResident tag r o s).dark.entries.length = s.dark.entries.length := by
  unfold amendResident
  try dsimp only
  repeat' split
  all_goals simp

@[simp] theorem requestEnded_darkCount (e : Nat) (s : State) :
    (requestEnded e s).dark.entries.length = s.dark.entries.length := by
  unfold requestEnded
  try dsimp only
  repeat' split
  all_goals simp

@[simp] theorem leaveDarkUnit_darkCount (n : Nat) (link : DarkLink) (s : State) :
    (leaveDarkUnit n link s).dark.entries.length = s.dark.entries.length := by
  unfold leaveDarkUnit
  try dsimp only
  repeat' split
  all_goals simp

@[simp] theorem takeFromBlocks_darkCount (r : Record) (s : State) :
    (takeFromBlocks r s).dark.entries.length = s.dark.entries.length := by
  unfold takeFromBlocks
  simp

@[simp] theorem acceptRetire_darkCount (tag : Nat) (r : Record) (s : State) :
    (acceptRetire tag r s).dark.entries.length = s.dark.entries.length := by
  unfold acceptRetire
  simp

@[simp] theorem retireResident_darkCount (tag : Nat) (r : Record) (s : State) :
    (retireResident tag r s).dark.entries.length = s.dark.entries.length := by
  unfold retireResident
  try dsimp only
  repeat' split
  all_goals simp

@[simp] theorem onResident_darkCount (tag : Nat) (q : LoadRequest) (r : Record) (s : State) :
    (onResident tag q r s).dark.entries.length = s.dark.entries.length := by
  unfold onResident
  try dsimp only
  repeat' split
  all_goals simp

@[simp] theorem onShot_darkCount (tag n : Nat) (q : LoadRequest) (s : State) :
    (onShot tag n q s).dark.entries.length = s.dark.entries.length := by
  unfold onShot
  try dsimp only
  repeat' split
  all_goals simp

@[simp] theorem proceed_darkCount (n : Nat) (s : State) (w : LoadWaiter) :
    (proceed n s w).dark.entries.length = s.dark.entries.length := by
  unfold proceed
  try dsimp only
  repeat' split
  all_goals simp

@[simp] theorem completeLoad_darkCount (n slot : Nat) (block : List Byte) (s : State) :
    (completeLoad n slot block s).dark.entries.length = s.dark.entries.length := by
  unfold completeLoad
  try dsimp only
  repeat' split
  all_goals simp

@[simp] theorem loadDone_darkCount (n slot : Nat) (block : List Byte) (s : State) :
    (loadDone n slot block s).dark.entries.length = s.dark.entries.length := by
  unfold loadDone
  try dsimp only
  repeat' split
  all_goals simp

@[simp] theorem orphanAnswered_darkCount (s : State) :
    (orphanAnswered s).dark.entries.length = s.dark.entries.length := by
  unfold orphanAnswered
  try dsimp only
  repeat' split
  all_goals simp

theorem stopAtAnswer_darkCount {s t : State} (h : stopAtAnswer s = some t) : t.dark.entries.length = s.dark.entries.length := by
  unfold stopAtAnswer at h
  split at h
  · cases h; simp
  · split at h
    · cases h; simp
    · cases h
  · cases h; simp
  · cases h

@[simp] theorem answeredError_darkCount (s : State) :
    (answeredError s).dark.entries.length = s.dark.entries.length := by
  unfold answeredError
  repeat' split
  any_goals simp
  next h => simp [stopAtAnswer_darkCount h]

@[simp] theorem answeredOk_darkCount (g : State → State) (h : ∀ s, (g s).dark.entries.length = s.dark.entries.length) (s : State) :
    (answeredOk g s).dark.entries.length = s.dark.entries.length := by
  unfold answeredOk
  repeat' split
  any_goals simp [h]
  next h => simp [stopAtAnswer_darkCount h]

@[simp] theorem acceptEject_darkCount (tag : Nat) (s : State) :
    (acceptEject tag s).dark.entries.length = s.dark.entries.length := by
  unfold acceptEject
  simp

@[simp] theorem deliver_darkCount (i : SyncInput) (level : Contact) (t : Time) (s : State) :
    (deliver i level t s).dark.entries.length = s.dark.entries.length := by
  unfold deliver
  try dsimp only
  repeat' split
  all_goals simp

@[simp] theorem qualify_darkCount (i : SyncInput) (s : State) :
    (qualify i s).dark.entries.length = s.dark.entries.length := by
  unfold qualify
  try dsimp only
  repeat' split
  all_goals simp

@[simp] theorem armExpired_darkCount (s : State) :
    (armExpired s).dark.entries.length = s.dark.entries.length := by
  unfold armExpired
  try dsimp only
  repeat' split
  all_goals simp

@[simp] theorem freeReady_darkCount (s : State) :
    (freeReady s).dark.entries.length = s.dark.entries.length := by
  unfold freeReady
  simp

@[simp] theorem setGeometry_darkCount (columns rows : Nat) (s : State) :
    (setGeometry columns rows s).dark.entries.length = s.dark.entries.length := by
  unfold setGeometry
  simp

@[simp] theorem afterAccumulate_darkCount (s : State) :
    (afterAccumulate s).dark.entries.length = s.dark.entries.length := by
  unfold afterAccumulate
  try dsimp only
  repeat' split
  all_goals simp

@[simp] theorem darkApplied_darkCount (q : PauRequest) (e : Nat) (s : State) :
    (darkApplied q e s).dark.entries.length = s.dark.entries.length := by
  unfold darkApplied
  try dsimp only
  repeat' split
  all_goals simp

@[simp] theorem developResident_darkCount (tag : Nat) (k : JobKind) (priority : Nat) (r : Record) (s : State) :
    (developResident tag k priority r s).dark.entries.length = s.dark.entries.length := by
  unfold developResident
  try dsimp only
  repeat' split
  all_goals simp

@[simp] theorem getResident_darkCount (tag : Nat) (r : Record) (s : State) :
    (getResident tag r s).dark.entries.length = s.dark.entries.length := by
  unfold getResident
  try dsimp only
  repeat' split
  all_goals simp

@[simp] theorem restartSequencer_darkCount (s : State) :
    (restartSequencer s).dark.entries.length = s.dark.entries.length := by
  unfold restartSequencer
  try dsimp only
  repeat' split
  all_goals simp

@[simp] theorem restartDark_darkCount (s : State) :
    (restartDark s).dark.entries.length = s.dark.entries.length := by
  unfold restartDark
  simp

@[simp] theorem restartBlocks_darkCount (s : State) :
    (restartBlocks s).dark.entries.length = s.dark.entries.length := by
  unfold restartBlocks
  simp

@[simp] theorem restartEnds_darkCount (s : State) :
    (restartEnds s).dark.entries.length = s.dark.entries.length := by
  unfold restartEnds
  try dsimp only
  repeat' split
  all_goals simp

@[simp] theorem restartPart_darkCount (tag : Nat) (s : State) :
    (restartPart tag s).dark.entries.length = s.dark.entries.length := by
  unfold restartPart
  simp

end Sys2Proof.Machine
end

