-- ==== Sys2Proof/Laws/PartsLink.lean ====
section
/-! SUPPORT. Parts of a block that operations on the block leave as they were: the HELD tags, the framer, and the notice levels. -/

namespace Sys2Proof.Machine

@[simp] theorem level_raised (x : Option Subject) (n : Nat) (k : Notice) :
    (k.raised x n).level = k.level := by
  unfold Notice.raised
  split <;> rfl

@[simp] theorem level_cleared (k : Notice) : k.cleared.level = k.level := rfl

/-- The levels are kept by a change of one kind that keeps its level. -/
theorem levels_modify (f : Notice → Notice) (hf : ∀ k, (f k).level = k.level) (i : Nat)
    (l : List Notice) : (l.modify i f).map Notice.level = l.map Notice.level := by
  induction l generalizing i with
  | nil => cases i <;> rfl
  | cons a l ih => cases i <;> simp [hf, ih]

@[simp] theorem raiseCount_noticeLevels (k : NoticeKind) (x : Option Subject) (n : Nat) (s : State) :
    (raiseCount k x n s).notices.kinds.map Notice.level = s.notices.kinds.map Notice.level :=
  levels_modify _ (by simp) _ _

@[simp] theorem foldl_linkHeld {α : Type} (f : State → α → State)
    (h : ∀ s a, (f s a).link.held = s.link.held) :
    ∀ (l : List α) (s : State), (l.foldl f s).link.held = s.link.held
  | [], _ => rfl
  | a :: l, s => (foldl_linkHeld f h l (f s a)).trans (h s a)

@[simp] theorem optional_linkHeld {α : Type} (f : α → State → State) (h : ∀ a s, (f a s).link.held = s.link.held)
    (o : Option α) (s : State) : ((o.map f).getD id s).link.held = s.link.held := by
  cases o <;> simp [h]

@[simp] theorem answer_linkHeld (tag : Nat) (result : ResultCode) (payload : Payload) (s : State) :
    (answer tag result payload s).link.held = s.link.held := by
  unfold answer
  simp

@[simp] theorem answerCode_linkHeld (tag : Nat) (result : ResultCode) (s : State) :
    (answerCode tag result s).link.held = s.link.held := by
  unfold answerCode
  simp

@[simp] theorem answerAll_linkHeld (tags : List Nat) (result : ResultCode) (s : State) :
    (answerAll tags result s).link.held = s.link.held := by
  unfold answerAll
  simp

@[simp] theorem discardPacket_linkHeld (s : State) :
    (discardPacket s).link.held = s.link.held := by
  unfold discardPacket
  simp

@[simp] theorem answerTagBusy_linkHeld (tag : Nat) (s : State) :
    (answerTagBusy tag s).link.held = s.link.held := by
  unfold answerTagBusy
  try dsimp only
  repeat' split
  all_goals simp

@[simp] theorem removeJobs_linkHeld (n : Nat) (result : ResultCode) (s : State) :
    (removeJobs n result s).link.held = s.link.held := by
  unfold removeJobs
  try dsimp only
  repeat' split
  all_goals simp

@[simp] theorem failLoad_linkHeld (result : ResultCode) (s : State) (n : Nat) :
    (failLoad result s n).link.held = s.link.held := by
  unfold failLoad
  try dsimp only
  repeat' split
  all_goals simp

@[simp] theorem refuseReads_linkHeld (rs : List CardRead) (result : ResultCode) (s : State) :
    (refuseReads rs result s).link.held = s.link.held := by
  unfold refuseReads
  try dsimp only
  repeat' split
  all_goals simp

@[simp] theorem failAllLoads_linkHeld (result : ResultCode) (s : State) :
    (failAllLoads result s).link.held = s.link.held := by
  unfold failAllLoads
  simp

@[simp] theorem endReads_linkHeld (result : ResultCode) (s : State) :
    (endReads result s).link.held = s.link.held := by
  unfold endReads
  try dsimp only
  repeat' split
  all_goals simp

@[simp] theorem dropRecord_linkHeld (s : State) (n : Nat) :
    (dropRecord s n).link.held = s.link.held := by
  unfold dropRecord
  simp

@[simp] theorem dropSettled_linkHeld (s : State) :
    (dropSettled s).link.held = s.link.held := by
  unfold dropSettled
  simp

@[simp] theorem answerWaiting_linkHeld (tag : Option Nat) (result : ResultCode) (s : State) :
    (answerWaiting tag result s).link.held = s.link.held := by
  unfold answerWaiting
  try dsimp only
  repeat' split
  all_goals simp

@[simp] theorem answerCardTags_linkHeld (result : ResultCode) (s : State) :
    (answerCardTags result s).link.held = s.link.held := by
  unfold answerCardTags
  simp

@[simp] theorem finishDrain_linkHeld (s : State) :
    (finishDrain s).link.held = s.link.held := by
  unfold finishDrain
  simp

@[simp] theorem service_linkHeld (s : State) :
    (service s).link.held = s.link.held := by
  unfold service
  try dsimp only
  repeat' split
  all_goals simp

@[simp] theorem enterRunning_linkHeld (s : State) :
    (enterRunning s).link.held = s.link.held := by
  unfold enterRunning
  simp

@[simp] theorem lookupResident_linkHeld (tag : Nat) (r : Record) (s : State) :
    (lookupResident tag r s).link.held = s.link.held := by
  unfold lookupResident
  simp

@[simp] theorem amendResident_linkHeld (tag : Nat) (r : Record) (o : AmendOperands) (s : State) :
    (amendResident tag r o s).link.held = s.link.held := by
  unfold amendResident
  try dsimp only
  repeat' split
  all_goals simp

@[simp] theorem takeFromBlocks_linkHeld (r : Record) (s : State) :
    (takeFromBlocks r s).link.held = s.link.held := by
  unfold takeFromBlocks
  simp

@[simp] theorem endRetirement_linkHeld (result : ResultCode) (s : State) (n : Nat) :
    (endRetirement result s n).link.held = s.link.held := by
  unfold endRetirement
  simp

@[simp] theorem continueRetirement_linkHeld (r : Record) (s : State) :
    (continueRetirement r s).link.held = s.link.held := by
  unfold continueRetirement
  try dsimp only
  repeat' split
  all_goals simp

@[simp] theorem acceptRetire_linkHeld (tag : Nat) (r : Record) (s : State) :
    (acceptRetire tag r s).link.held = s.link.held := by
  unfold acceptRetire
  simp

@[simp] theorem retireResident_linkHeld (tag : Nat) (r : Record) (s : State) :
    (retireResident tag r s).link.held = s.link.held := by
  unfold retireResident
  try dsimp only
  repeat' split
  all_goals simp

@[simp] theorem onResident_linkHeld (tag : Nat) (q : LoadRequest) (r : Record) (s : State) :
    (onResident tag q r s).link.held = s.link.held := by
  unfold onResident
  try dsimp only
  repeat' split
  all_goals simp

@[simp] theorem requestLoad_linkHeld (tag n : Nat) (q : LoadRequest) (s : State) :
    (requestLoad tag n q s).link.held = s.link.held := by
  unfold requestLoad
  try dsimp only
  repeat' split
  all_goals simp

@[simp] theorem onShot_linkHeld (tag n : Nat) (q : LoadRequest) (s : State) :
    (onShot tag n q s).link.held = s.link.held := by
  unfold onShot
  try dsimp only
  repeat' split
  all_goals simp

@[simp] theorem proceed_linkHeld (n : Nat) (s : State) (w : LoadWaiter) :
    (proceed n s w).link.held = s.link.held := by
  unfold proceed
  try dsimp only
  repeat' split
  all_goals simp

@[simp] theorem completeLoad_linkHeld (n slot : Nat) (block : List Byte) (s : State) :
    (completeLoad n slot block s).link.held = s.link.held := by
  unfold completeLoad
  try dsimp only
  repeat' split
  all_goals simp

@[simp] theorem damageLoad_linkHeld (n slot : Nat) (s : State) :
    (damageLoad n slot s).link.held = s.link.held := by
  unfold damageLoad
  simp

@[simp] theorem loadDone_linkHeld (n slot : Nat) (block : List Byte) (s : State) :
    (loadDone n slot block s).link.held = s.link.held := by
  unfold loadDone
  try dsimp only
  repeat' split
  all_goals simp

@[simp] theorem answerFormat_linkHeld (result : ResultCode) (s : State) :
    (answerFormat result s).link.held = s.link.held := by
  unfold answerFormat
  simp

@[simp] theorem unformatted_linkHeld (s : State) :
    (unformatted s).link.held = s.link.held := by
  unfold unformatted
  simp

@[simp] theorem finishMount_linkHeld (blocks : List (Nat × List Byte)) (s : State) :
    (finishMount blocks s).link.held = s.link.held := by
  unfold finishMount
  try dsimp only
  repeat' split
  all_goals simp

@[simp] theorem endRetirements_linkHeld (s : State) :
    (endRetirements s).link.held = s.link.held := by
  unfold endRetirements
  simp

@[simp] theorem startFormat_linkHeld (volumeId : Nat) (s : State) :
    (startFormat volumeId s).link.held = s.link.held := by
  unfold startFormat
  try dsimp only
  repeat' split
  all_goals simp

@[simp] theorem failWaitingLoads_linkHeld (result : ResultCode) (s : State) :
    (failWaitingLoads result s).link.held = s.link.held := by
  unfold failWaitingLoads
  simp

@[simp] theorem clearForFormat_linkHeld (s : State) :
    (clearForFormat s).link.held = s.link.held := by
  unfold clearForFormat
  simp

@[simp] theorem endForFormat_linkHeld (volumeId : Nat) (s : State) :
    (endForFormat volumeId s).link.held = s.link.held := by
  unfold endForFormat
  simp

@[simp] theorem awaitBus_linkHeld (volumeId : Nat) (s : State) :
    (awaitBus volumeId s).link.held = s.link.held := by
  unfold awaitBus
  try dsimp only
  repeat' split
  all_goals simp

@[simp] theorem beginFormat_linkHeld (tag : Nat) (s : State) :
    (beginFormat tag s).link.held = s.link.held := by
  unfold beginFormat
  try dsimp only
  repeat' split
  all_goals simp

@[simp] theorem endRetiredRaw_linkHeld (n : Nat) (s : State) :
    (endRetiredRaw n s).link.held = s.link.held := by
  unfold endRetiredRaw
  simp

@[simp] theorem cardFault_linkHeld (s : State) :
    (cardFault s).link.held = s.link.held := by
  unfold cardFault
  simp

@[simp] theorem orphanAnswered_linkHeld (s : State) :
    (orphanAnswered s).link.held = s.link.held := by
  unfold orphanAnswered
  try dsimp only
  repeat' split
  all_goals simp

theorem stopAtAnswer_linkHeld {s t : State} (h : stopAtAnswer s = some t) : t.link.held = s.link.held := by
  unfold stopAtAnswer at h
  split at h
  · cases h; simp
  · split at h
    · cases h; simp
    · cases h
  · cases h; simp
  · cases h

@[simp] theorem answeredError_linkHeld (s : State) :
    (answeredError s).link.held = s.link.held := by
  unfold answeredError
  repeat' split
  any_goals simp
  next h => simp [stopAtAnswer_linkHeld h]

@[simp] theorem answeredOk_linkHeld (g : State → State) (h : ∀ s, (g s).link.held = s.link.held) (s : State) :
    (answeredOk g s).link.held = s.link.held := by
  unfold answeredOk
  repeat' split
  any_goals simp [h]
  next h => simp [stopAtAnswer_linkHeld h]

@[simp] theorem endCardWork_linkHeld (s : State) :
    (endCardWork s).link.held = s.link.held := by
  unfold endCardWork
  simp

@[simp] theorem removeCard_linkHeld (s : State) :
    (removeCard s).link.held = s.link.held := by
  unfold removeCard
  simp

@[simp] theorem emptied_linkHeld (n : Nat) (s : State) :
    (emptied n s).link.held = s.link.held := by
  unfold emptied
  try dsimp only
  repeat' split
  all_goals simp

@[simp] theorem acceptEject_linkHeld (tag : Nat) (s : State) :
    (acceptEject tag s).link.held = s.link.held := by
  unfold acceptEject
  simp

@[simp] theorem qualify_linkHeld (i : SyncInput) (s : State) :
    (qualify i s).link.held = s.link.held := by
  unfold qualify
  try dsimp only
  repeat' split
  all_goals simp

@[simp] theorem answerStart_linkHeld (tag : Nat) (d : ResultCode × State) :
    (answerStart tag d).link.held = d.2.link.held := by
  unfold answerStart
  try dsimp only
  repeat' split
  all_goals simp

@[simp] theorem answerPreview_linkHeld (i : Nat) (key : DevKey) (result : ResultCode) (s : State) (tag : Nat) :
    (answerPreview i key result s tag).link.held = s.link.held := by
  unfold answerPreview
  try dsimp only
  repeat' split
  all_goals simp

@[simp] theorem completePreview_linkHeld (j : Job) (h : RunHolds) (s : State) :
    (completePreview j h s).link.held = s.link.held := by
  unfold completePreview
  try dsimp only
  repeat' split
  all_goals simp

@[simp] theorem answerKey_linkHeld (k : DevKey) (s : State) (tag : Nat) :
    (answerKey k s tag).link.held = s.link.held := by
  unfold answerKey
  simp

@[simp] theorem completeFull_linkHeld (j : Job) (plane : Nat) (size : Nat × Nat) (s : State) :
    (completeFull j plane size s).link.held = s.link.held := by
  unfold completeFull
  simp

@[simp] theorem endFull_linkHeld (j : Job) (h : RunHolds) (s : State) :
    (endFull j h s).link.held = s.link.held := by
  unfold endFull
  try dsimp only
  repeat' split
  all_goals simp

@[simp] theorem completeJob_linkHeld (j : Job) (h : RunHolds) (s : State) :
    (completeJob j h s).link.held = s.link.held := by
  unfold completeJob
  try dsimp only
  repeat' split
  all_goals simp

@[simp] theorem placeWaiting_linkHeld (tag n : Nat) (k : JobKind) (priority : Nat) (s : State) :
    (placeWaiting tag n k priority s).link.held = s.link.held := by
  unfold placeWaiting
  try dsimp only
  repeat' split
  all_goals simp

@[simp] theorem placeAndAnswer_linkHeld (tag n : Nat) (k : JobKind) (priority : Nat) (s : State) :
    (placeAndAnswer tag n k priority s).link.held = s.link.held := by
  unfold placeAndAnswer
  try dsimp only
  repeat' split
  all_goals simp

@[simp] theorem developResident_linkHeld (tag : Nat) (k : JobKind) (priority : Nat) (r : Record) (s : State) :
    (developResident tag k priority r s).link.held = s.link.held := by
  unfold developResident
  try dsimp only
  repeat' split
  all_goals simp

@[simp] theorem previewHit_linkHeld (tag i : Nat) (s : State) :
    (previewHit tag i s).link.held = s.link.held := by
  unfold previewHit
  try dsimp only
  repeat' split
  all_goals simp

@[simp] theorem getResident_linkHeld (tag : Nat) (r : Record) (s : State) :
    (getResident tag r s).link.held = s.link.held := by
  unfold getResident
  try dsimp only
  repeat' split
  all_goals simp

@[simp] theorem getAbsent_linkHeld (tag n : Nat) (s : State) :
    (getAbsent tag n s).link.held = s.link.held := by
  unfold getAbsent
  try dsimp only
  repeat' split
  all_goals simp

@[simp] theorem readPinned_linkHeld (tag slot offset length : Nat) (x : PreviewSlot) (s : State) :
    (readPinned tag slot offset length x s).link.held = s.link.held := by
  unfold readPinned
  try dsimp only
  repeat' split
  all_goals simp

@[simp] theorem restartCard_linkHeld (s : State) :
    (restartCard s).link.held = s.link.held := by
  unfold restartCard
  simp

@[simp] theorem restartStores_linkHeld (s : State) :
    (restartStores s).link.held = s.link.held := by
  unfold restartStores
  simp

@[simp] theorem restartEnds_linkHeld (s : State) :
    (restartEnds s).link.held = s.link.held := by
  unfold restartEnds
  try dsimp only
  repeat' split
  all_goals simp

@[simp] theorem deselect_linkHeld (s : State) :
    (deselect s).link.held = s.link.held := by
  unfold deselect
  simp

@[simp] theorem refusalLeaves_linkHeld (s : State) :
    (refusalLeaves s).link.held = s.link.held := by
  unfold refusalLeaves
  simp

@[simp] theorem setFramer_linkHeld (f : Framer) (bytes : List Byte) (s : State) :
    (setFramer f bytes s).link.held = s.link.held := by
  unfold setFramer
  simp

@[simp] theorem headerByte_linkHeld (bytes : List Byte) (s : State) :
    (headerByte bytes s).link.held = s.link.held := by
  unfold headerByte
  try dsimp only
  repeat' split
  all_goals simp

@[simp] theorem operandByte_linkHeld (bytes : List Byte) (s : State) :
    (operandByte bytes s).link.held = s.link.held := by
  unfold operandByte
  try dsimp only
  repeat' split
  all_goals simp

@[simp] theorem foldl_linkFramer {α : Type} (f : State → α → State)
    (h : ∀ s a, (f s a).link.framer = s.link.framer) :
    ∀ (l : List α) (s : State), (l.foldl f s).link.framer = s.link.framer
  | [], _ => rfl
  | a :: l, s => (foldl_linkFramer f h l (f s a)).trans (h s a)

@[simp] theorem optional_linkFramer {α : Type} (f : α → State → State) (h : ∀ a s, (f a s).link.framer = s.link.framer)
    (o : Option α) (s : State) : ((o.map f).getD id s).link.framer = s.link.framer := by
  cases o <;> simp [h]

@[simp] theorem answer_linkFramer (tag : Nat) (result : ResultCode) (payload : Payload) (s : State) :
    (answer tag result payload s).link.framer = s.link.framer := by
  unfold answer
  simp

@[simp] theorem answerCode_linkFramer (tag : Nat) (result : ResultCode) (s : State) :
    (answerCode tag result s).link.framer = s.link.framer := by
  unfold answerCode
  simp

@[simp] theorem answerAll_linkFramer (tags : List Nat) (result : ResultCode) (s : State) :
    (answerAll tags result s).link.framer = s.link.framer := by
  unfold answerAll
  simp

@[simp] theorem holdTag_linkFramer (tag : Nat) (s : State) :
    (holdTag tag s).link.framer = s.link.framer := by
  unfold holdTag
  simp

@[simp] theorem removeJobs_linkFramer (n : Nat) (result : ResultCode) (s : State) :
    (removeJobs n result s).link.framer = s.link.framer := by
  unfold removeJobs
  try dsimp only
  repeat' split
  all_goals simp

@[simp] theorem failLoad_linkFramer (result : ResultCode) (s : State) (n : Nat) :
    (failLoad result s n).link.framer = s.link.framer := by
  unfold failLoad
  try dsimp only
  repeat' split
  all_goals simp

@[simp] theorem refuseReads_linkFramer (rs : List CardRead) (result : ResultCode) (s : State) :
    (refuseReads rs result s).link.framer = s.link.framer := by
  unfold refuseReads
  try dsimp only
  repeat' split
  all_goals simp

@[simp] theorem failAllLoads_linkFramer (result : ResultCode) (s : State) :
    (failAllLoads result s).link.framer = s.link.framer := by
  unfold failAllLoads
  simp

@[simp] theorem endReads_linkFramer (result : ResultCode) (s : State) :
    (endReads result s).link.framer = s.link.framer := by
  unfold endReads
  try dsimp only
  repeat' split
  all_goals simp

@[simp] theorem dropRecord_linkFramer (s : State) (n : Nat) :
    (dropRecord s n).link.framer = s.link.framer := by
  unfold dropRecord
  simp

@[simp] theorem dropSettled_linkFramer (s : State) :
    (dropSettled s).link.framer = s.link.framer := by
  unfold dropSettled
  simp

@[simp] theorem answerWaiting_linkFramer (tag : Option Nat) (result : ResultCode) (s : State) :
    (answerWaiting tag result s).link.framer = s.link.framer := by
  unfold answerWaiting
  try dsimp only
  repeat' split
  all_goals simp

@[simp] theorem answerCardTags_linkFramer (result : ResultCode) (s : State) :
    (answerCardTags result s).link.framer = s.link.framer := by
  unfold answerCardTags
  simp

@[simp] theorem finishDrain_linkFramer (s : State) :
    (finishDrain s).link.framer = s.link.framer := by
  unfold finishDrain
  simp

@[simp] theorem service_linkFramer (s : State) :
    (service s).link.framer = s.link.framer := by
  unfold service
  try dsimp only
  repeat' split
  all_goals simp

@[simp] theorem enterRunning_linkFramer (s : State) :
    (enterRunning s).link.framer = s.link.framer := by
  unfold enterRunning
  simp

@[simp] theorem lookupResident_linkFramer (tag : Nat) (r : Record) (s : State) :
    (lookupResident tag r s).link.framer = s.link.framer := by
  unfold lookupResident
  simp

@[simp] theorem amendResident_linkFramer (tag : Nat) (r : Record) (o : AmendOperands) (s : State) :
    (amendResident tag r o s).link.framer = s.link.framer := by
  unfold amendResident
  try dsimp only
  repeat' split
  all_goals simp

@[simp] theorem takeFromBlocks_linkFramer (r : Record) (s : State) :
    (takeFromBlocks r s).link.framer = s.link.framer := by
  unfold takeFromBlocks
  simp

@[simp] theorem endRetirement_linkFramer (result : ResultCode) (s : State) (n : Nat) :
    (endRetirement result s n).link.framer = s.link.framer := by
  unfold endRetirement
  simp

@[simp] theorem continueRetirement_linkFramer (r : Record) (s : State) :
    (continueRetirement r s).link.framer = s.link.framer := by
  unfold continueRetirement
  try dsimp only
  repeat' split
  all_goals simp

@[simp] theorem acceptRetire_linkFramer (tag : Nat) (r : Record) (s : State) :
    (acceptRetire tag r s).link.framer = s.link.framer := by
  unfold acceptRetire
  simp

@[simp] theorem retireResident_linkFramer (tag : Nat) (r : Record) (s : State) :
    (retireResident tag r s).link.framer = s.link.framer := by
  unfold retireResident
  try dsimp only
  repeat' split
  all_goals simp

@[simp] theorem onResident_linkFramer (tag : Nat) (q : LoadRequest) (r : Record) (s : State) :
    (onResident tag q r s).link.framer = s.link.framer := by
  unfold onResident
  try dsimp only
  repeat' split
  all_goals simp

@[simp] theorem requestLoad_linkFramer (tag n : Nat) (q : LoadRequest) (s : State) :
    (requestLoad tag n q s).link.framer = s.link.framer := by
  unfold requestLoad
  try dsimp only
  repeat' split
  all_goals simp

@[simp] theorem onShot_linkFramer (tag n : Nat) (q : LoadRequest) (s : State) :
    (onShot tag n q s).link.framer = s.link.framer := by
  unfold onShot
  try dsimp only
  repeat' split
  all_goals simp

@[simp] theorem proceed_linkFramer (n : Nat) (s : State) (w : LoadWaiter) :
    (proceed n s w).link.framer = s.link.framer := by
  unfold proceed
  try dsimp only
  repeat' split
  all_goals simp

@[simp] theorem completeLoad_linkFramer (n slot : Nat) (block : List Byte) (s : State) :
    (completeLoad n slot block s).link.framer = s.link.framer := by
  unfold completeLoad
  try dsimp only
  repeat' split
  all_goals simp

@[simp] theorem damageLoad_linkFramer (n slot : Nat) (s : State) :
    (damageLoad n slot s).link.framer = s.link.framer := by
  unfold damageLoad
  simp

@[simp] theorem loadDone_linkFramer (n slot : Nat) (block : List Byte) (s : State) :
    (loadDone n slot block s).link.framer = s.link.framer := by
  unfold loadDone
  try dsimp only
  repeat' split
  all_goals simp

@[simp] theorem answerFormat_linkFramer (result : ResultCode) (s : State) :
    (answerFormat result s).link.framer = s.link.framer := by
  unfold answerFormat
  simp

@[simp] theorem unformatted_linkFramer (s : State) :
    (unformatted s).link.framer = s.link.framer := by
  unfold unformatted
  simp

@[simp] theorem finishMount_linkFramer (blocks : List (Nat × List Byte)) (s : State) :
    (finishMount blocks s).link.framer = s.link.framer := by
  unfold finishMount
  try dsimp only
  repeat' split
  all_goals simp

@[simp] theorem endRetirements_linkFramer (s : State) :
    (endRetirements s).link.framer = s.link.framer := by
  unfold endRetirements
  simp

@[simp] theorem startFormat_linkFramer (volumeId : Nat) (s : State) :
    (startFormat volumeId s).link.framer = s.link.framer := by
  unfold startFormat
  try dsimp only
  repeat' split
  all_goals simp

@[simp] theorem failWaitingLoads_linkFramer (result : ResultCode) (s : State) :
    (failWaitingLoads result s).link.framer = s.link.framer := by
  unfold failWaitingLoads
  simp

@[simp] theorem clearForFormat_linkFramer (s : State) :
    (clearForFormat s).link.framer = s.link.framer := by
  unfold clearForFormat
  simp

@[simp] theorem endForFormat_linkFramer (volumeId : Nat) (s : State) :
    (endForFormat volumeId s).link.framer = s.link.framer := by
  unfold endForFormat
  simp

@[simp] theorem awaitBus_linkFramer (volumeId : Nat) (s : State) :
    (awaitBus volumeId s).link.framer = s.link.framer := by
  unfold awaitBus
  try dsimp only
  repeat' split
  all_goals simp

@[simp] theorem beginFormat_linkFramer (tag : Nat) (s : State) :
    (beginFormat tag s).link.framer = s.link.framer := by
  unfold beginFormat
  try dsimp only
  repeat' split
  all_goals simp

@[simp] theorem endRetiredRaw_linkFramer (n : Nat) (s : State) :
    (endRetiredRaw n s).link.framer = s.link.framer := by
  unfold endRetiredRaw
  simp

@[simp] theorem cardFault_linkFramer (s : State) :
    (cardFault s).link.framer = s.link.framer := by
  unfold cardFault
  simp

@[simp] theorem orphanAnswered_linkFramer (s : State) :
    (orphanAnswered s).link.framer = s.link.framer := by
  unfold orphanAnswered
  try dsimp only
  repeat' split
  all_goals simp

theorem stopAtAnswer_linkFramer {s t : State} (h : stopAtAnswer s = some t) : t.link.framer = s.link.framer := by
  unfold stopAtAnswer at h
  split at h
  · cases h; simp
  · split at h
    · cases h; simp
    · cases h
  · cases h; simp
  · cases h

@[simp] theorem answeredError_linkFramer (s : State) :
    (answeredError s).link.framer = s.link.framer := by
  unfold answeredError
  repeat' split
  any_goals simp
  next h => simp [stopAtAnswer_linkFramer h]

@[simp] theorem answeredOk_linkFramer (g : State → State) (h : ∀ s, (g s).link.framer = s.link.framer) (s : State) :
    (answeredOk g s).link.framer = s.link.framer := by
  unfold answeredOk
  repeat' split
  any_goals simp [h]
  next h => simp [stopAtAnswer_linkFramer h]

@[simp] theorem endCardWork_linkFramer (s : State) :
    (endCardWork s).link.framer = s.link.framer := by
  unfold endCardWork
  simp

@[simp] theorem removeCard_linkFramer (s : State) :
    (removeCard s).link.framer = s.link.framer := by
  unfold removeCard
  simp

@[simp] theorem emptied_linkFramer (n : Nat) (s : State) :
    (emptied n s).link.framer = s.link.framer := by
  unfold emptied
  try dsimp only
  repeat' split
  all_goals simp

@[simp] theorem acceptEject_linkFramer (tag : Nat) (s : State) :
    (acceptEject tag s).link.framer = s.link.framer := by
  unfold acceptEject
  simp

@[simp] theorem qualify_linkFramer (i : SyncInput) (s : State) :
    (qualify i s).link.framer = s.link.framer := by
  unfold qualify
  try dsimp only
  repeat' split
  all_goals simp

@[simp] theorem answerStart_linkFramer (tag : Nat) (d : ResultCode × State) :
    (answerStart tag d).link.framer = d.2.link.framer := by
  unfold answerStart
  try dsimp only
  repeat' split
  all_goals simp

@[simp] theorem answerPreview_linkFramer (i : Nat) (key : DevKey) (result : ResultCode) (s : State) (tag : Nat) :
    (answerPreview i key result s tag).link.framer = s.link.framer := by
  unfold answerPreview
  try dsimp only
  repeat' split
  all_goals simp

@[simp] theorem completePreview_linkFramer (j : Job) (h : RunHolds) (s : State) :
    (completePreview j h s).link.framer = s.link.framer := by
  unfold completePreview
  try dsimp only
  repeat' split
  all_goals simp

@[simp] theorem answerKey_linkFramer (k : DevKey) (s : State) (tag : Nat) :
    (answerKey k s tag).link.framer = s.link.framer := by
  unfold answerKey
  simp

@[simp] theorem completeFull_linkFramer (j : Job) (plane : Nat) (size : Nat × Nat) (s : State) :
    (completeFull j plane size s).link.framer = s.link.framer := by
  unfold completeFull
  simp

@[simp] theorem endFull_linkFramer (j : Job) (h : RunHolds) (s : State) :
    (endFull j h s).link.framer = s.link.framer := by
  unfold endFull
  try dsimp only
  repeat' split
  all_goals simp

@[simp] theorem completeJob_linkFramer (j : Job) (h : RunHolds) (s : State) :
    (completeJob j h s).link.framer = s.link.framer := by
  unfold completeJob
  try dsimp only
  repeat' split
  all_goals simp

@[simp] theorem placeWaiting_linkFramer (tag n : Nat) (k : JobKind) (priority : Nat) (s : State) :
    (placeWaiting tag n k priority s).link.framer = s.link.framer := by
  unfold placeWaiting
  try dsimp only
  repeat' split
  all_goals simp

@[simp] theorem placeAndAnswer_linkFramer (tag n : Nat) (k : JobKind) (priority : Nat) (s : State) :
    (placeAndAnswer tag n k priority s).link.framer = s.link.framer := by
  unfold placeAndAnswer
  try dsimp only
  repeat' split
  all_goals simp

@[simp] theorem developResident_linkFramer (tag : Nat) (k : JobKind) (priority : Nat) (r : Record) (s : State) :
    (developResident tag k priority r s).link.framer = s.link.framer := by
  unfold developResident
  try dsimp only
  repeat' split
  all_goals simp

@[simp] theorem previewHit_linkFramer (tag i : Nat) (s : State) :
    (previewHit tag i s).link.framer = s.link.framer := by
  unfold previewHit
  try dsimp only
  repeat' split
  all_goals simp

@[simp] theorem getResident_linkFramer (tag : Nat) (r : Record) (s : State) :
    (getResident tag r s).link.framer = s.link.framer := by
  unfold getResident
  try dsimp only
  repeat' split
  all_goals simp

@[simp] theorem getAbsent_linkFramer (tag n : Nat) (s : State) :
    (getAbsent tag n s).link.framer = s.link.framer := by
  unfold getAbsent
  try dsimp only
  repeat' split
  all_goals simp

@[simp] theorem readPinned_linkFramer (tag slot offset length : Nat) (x : PreviewSlot) (s : State) :
    (readPinned tag slot offset length x s).link.framer = s.link.framer := by
  unfold readPinned
  try dsimp only
  repeat' split
  all_goals simp

@[simp] theorem restartCard_linkFramer (s : State) :
    (restartCard s).link.framer = s.link.framer := by
  unfold restartCard
  simp

@[simp] theorem restartLink_linkFramer (tag : Nat) (causes : Causes) (s : State) :
    (restartLink tag causes s).link.framer = s.link.framer := by
  unfold restartLink
  simp

@[simp] theorem restartStores_linkFramer (s : State) :
    (restartStores s).link.framer = s.link.framer := by
  unfold restartStores
  simp

@[simp] theorem restartEnds_linkFramer (s : State) :
    (restartEnds s).link.framer = s.link.framer := by
  unfold restartEnds
  try dsimp only
  repeat' split
  all_goals simp

@[simp] theorem restartPart_linkFramer (tag : Nat) (s : State) :
    (restartPart tag s).link.framer = s.link.framer := by
  unfold restartPart
  simp

@[simp] theorem deselect_linkFramer (s : State) :
    (deselect s).link.framer = s.link.framer := by
  unfold deselect
  simp

@[simp] theorem refusalLeaves_linkFramer (s : State) :
    (refusalLeaves s).link.framer = s.link.framer := by
  unfold refusalLeaves
  simp

@[simp] theorem headLeaves_linkFramer (s : State) :
    (headLeaves s).link.framer = s.link.framer := by
  unfold headLeaves
  try dsimp only
  repeat' split
  all_goals simp

@[simp] theorem sentLeaves_linkFramer (s : State) :
    (sentLeaves s).link.framer = s.link.framer := by
  unfold sentLeaves
  try dsimp only
  repeat' split
  all_goals simp

@[simp] theorem shiftOut_linkFramer (s : State) :
    (shiftOut s).link.framer = s.link.framer := by
  unfold shiftOut
  try dsimp only
  repeat' split
  all_goals simp

@[simp] theorem foldl_linkBytes {α : Type} (f : State → α → State)
    (h : ∀ s a, (f s a).link.bytes = s.link.bytes) :
    ∀ (l : List α) (s : State), (l.foldl f s).link.bytes = s.link.bytes
  | [], _ => rfl
  | a :: l, s => (foldl_linkBytes f h l (f s a)).trans (h s a)

@[simp] theorem optional_linkBytes {α : Type} (f : α → State → State) (h : ∀ a s, (f a s).link.bytes = s.link.bytes)
    (o : Option α) (s : State) : ((o.map f).getD id s).link.bytes = s.link.bytes := by
  cases o <;> simp [h]

@[simp] theorem answer_linkBytes (tag : Nat) (result : ResultCode) (payload : Payload) (s : State) :
    (answer tag result payload s).link.bytes = s.link.bytes := by
  unfold answer
  simp

@[simp] theorem answerCode_linkBytes (tag : Nat) (result : ResultCode) (s : State) :
    (answerCode tag result s).link.bytes = s.link.bytes := by
  unfold answerCode
  simp

@[simp] theorem answerAll_linkBytes (tags : List Nat) (result : ResultCode) (s : State) :
    (answerAll tags result s).link.bytes = s.link.bytes := by
  unfold answerAll
  simp

@[simp] theorem holdTag_linkBytes (tag : Nat) (s : State) :
    (holdTag tag s).link.bytes = s.link.bytes := by
  unfold holdTag
  simp

@[simp] theorem removeJobs_linkBytes (n : Nat) (result : ResultCode) (s : State) :
    (removeJobs n result s).link.bytes = s.link.bytes := by
  unfold removeJobs
  try dsimp only
  repeat' split
  all_goals simp

@[simp] theorem failLoad_linkBytes (result : ResultCode) (s : State) (n : Nat) :
    (failLoad result s n).link.bytes = s.link.bytes := by
  unfold failLoad
  try dsimp only
  repeat' split
  all_goals simp

@[simp] theorem refuseReads_linkBytes (rs : List CardRead) (result : ResultCode) (s : State) :
    (refuseReads rs result s).link.bytes = s.link.bytes := by
  unfold refuseReads
  try dsimp only
  repeat' split
  all_goals simp

@[simp] theorem failAllLoads_linkBytes (result : ResultCode) (s : State) :
    (failAllLoads result s).link.bytes = s.link.bytes := by
  unfold failAllLoads
  simp

@[simp] theorem endReads_linkBytes (result : ResultCode) (s : State) :
    (endReads result s).link.bytes = s.link.bytes := by
  unfold endReads
  try dsimp only
  repeat' split
  all_goals simp

@[simp] theorem dropRecord_linkBytes (s : State) (n : Nat) :
    (dropRecord s n).link.bytes = s.link.bytes := by
  unfold dropRecord
  simp

@[simp] theorem dropSettled_linkBytes (s : State) :
    (dropSettled s).link.bytes = s.link.bytes := by
  unfold dropSettled
  simp

@[simp] theorem answerWaiting_linkBytes (tag : Option Nat) (result : ResultCode) (s : State) :
    (answerWaiting tag result s).link.bytes = s.link.bytes := by
  unfold answerWaiting
  try dsimp only
  repeat' split
  all_goals simp

@[simp] theorem answerCardTags_linkBytes (result : ResultCode) (s : State) :
    (answerCardTags result s).link.bytes = s.link.bytes := by
  unfold answerCardTags
  simp

@[simp] theorem finishDrain_linkBytes (s : State) :
    (finishDrain s).link.bytes = s.link.bytes := by
  unfold finishDrain
  simp

@[simp] theorem service_linkBytes (s : State) :
    (service s).link.bytes = s.link.bytes := by
  unfold service
  try dsimp only
  repeat' split
  all_goals simp

@[simp] theorem enterRunning_linkBytes (s : State) :
    (enterRunning s).link.bytes = s.link.bytes := by
  unfold enterRunning
  simp

@[simp] theorem lookupResident_linkBytes (tag : Nat) (r : Record) (s : State) :
    (lookupResident tag r s).link.bytes = s.link.bytes := by
  unfold lookupResident
  simp

@[simp] theorem amendResident_linkBytes (tag : Nat) (r : Record) (o : AmendOperands) (s : State) :
    (amendResident tag r o s).link.bytes = s.link.bytes := by
  unfold amendResident
  try dsimp only
  repeat' split
  all_goals simp

@[simp] theorem takeFromBlocks_linkBytes (r : Record) (s : State) :
    (takeFromBlocks r s).link.bytes = s.link.bytes := by
  unfold takeFromBlocks
  simp

@[simp] theorem endRetirement_linkBytes (result : ResultCode) (s : State) (n : Nat) :
    (endRetirement result s n).link.bytes = s.link.bytes := by
  unfold endRetirement
  simp

@[simp] theorem continueRetirement_linkBytes (r : Record) (s : State) :
    (continueRetirement r s).link.bytes = s.link.bytes := by
  unfold continueRetirement
  try dsimp only
  repeat' split
  all_goals simp

@[simp] theorem acceptRetire_linkBytes (tag : Nat) (r : Record) (s : State) :
    (acceptRetire tag r s).link.bytes = s.link.bytes := by
  unfold acceptRetire
  simp

@[simp] theorem retireResident_linkBytes (tag : Nat) (r : Record) (s : State) :
    (retireResident tag r s).link.bytes = s.link.bytes := by
  unfold retireResident
  try dsimp only
  repeat' split
  all_goals simp

@[simp] theorem onResident_linkBytes (tag : Nat) (q : LoadRequest) (r : Record) (s : State) :
    (onResident tag q r s).link.bytes = s.link.bytes := by
  unfold onResident
  try dsimp only
  repeat' split
  all_goals simp

@[simp] theorem requestLoad_linkBytes (tag n : Nat) (q : LoadRequest) (s : State) :
    (requestLoad tag n q s).link.bytes = s.link.bytes := by
  unfold requestLoad
  try dsimp only
  repeat' split
  all_goals simp

@[simp] theorem onShot_linkBytes (tag n : Nat) (q : LoadRequest) (s : State) :
    (onShot tag n q s).link.bytes = s.link.bytes := by
  unfold onShot
  try dsimp only
  repeat' split
  all_goals simp

@[simp] theorem proceed_linkBytes (n : Nat) (s : State) (w : LoadWaiter) :
    (proceed n s w).link.bytes = s.link.bytes := by
  unfold proceed
  try dsimp only
  repeat' split
  all_goals simp

@[simp] theorem completeLoad_linkBytes (n slot : Nat) (block : List Byte) (s : State) :
    (completeLoad n slot block s).link.bytes = s.link.bytes := by
  unfold completeLoad
  try dsimp only
  repeat' split
  all_goals simp

@[simp] theorem damageLoad_linkBytes (n slot : Nat) (s : State) :
    (damageLoad n slot s).link.bytes = s.link.bytes := by
  unfold damageLoad
  simp

@[simp] theorem loadDone_linkBytes (n slot : Nat) (block : List Byte) (s : State) :
    (loadDone n slot block s).link.bytes = s.link.bytes := by
  unfold loadDone
  try dsimp only
  repeat' split
  all_goals simp

@[simp] theorem answerFormat_linkBytes (result : ResultCode) (s : State) :
    (answerFormat result s).link.bytes = s.link.bytes := by
  unfold answerFormat
  simp

@[simp] theorem unformatted_linkBytes (s : State) :
    (unformatted s).link.bytes = s.link.bytes := by
  unfold unformatted
  simp

@[simp] theorem finishMount_linkBytes (blocks : List (Nat × List Byte)) (s : State) :
    (finishMount blocks s).link.bytes = s.link.bytes := by
  unfold finishMount
  try dsimp only
  repeat' split
  all_goals simp

@[simp] theorem endRetirements_linkBytes (s : State) :
    (endRetirements s).link.bytes = s.link.bytes := by
  unfold endRetirements
  simp

@[simp] theorem startFormat_linkBytes (volumeId : Nat) (s : State) :
    (startFormat volumeId s).link.bytes = s.link.bytes := by
  unfold startFormat
  try dsimp only
  repeat' split
  all_goals simp

@[simp] theorem failWaitingLoads_linkBytes (result : ResultCode) (s : State) :
    (failWaitingLoads result s).link.bytes = s.link.bytes := by
  unfold failWaitingLoads
  simp

@[simp] theorem clearForFormat_linkBytes (s : State) :
    (clearForFormat s).link.bytes = s.link.bytes := by
  unfold clearForFormat
  simp

@[simp] theorem endForFormat_linkBytes (volumeId : Nat) (s : State) :
    (endForFormat volumeId s).link.bytes = s.link.bytes := by
  unfold endForFormat
  simp

@[simp] theorem awaitBus_linkBytes (volumeId : Nat) (s : State) :
    (awaitBus volumeId s).link.bytes = s.link.bytes := by
  unfold awaitBus
  try dsimp only
  repeat' split
  all_goals simp

@[simp] theorem beginFormat_linkBytes (tag : Nat) (s : State) :
    (beginFormat tag s).link.bytes = s.link.bytes := by
  unfold beginFormat
  try dsimp only
  repeat' split
  all_goals simp

@[simp] theorem endRetiredRaw_linkBytes (n : Nat) (s : State) :
    (endRetiredRaw n s).link.bytes = s.link.bytes := by
  unfold endRetiredRaw
  simp

@[simp] theorem cardFault_linkBytes (s : State) :
    (cardFault s).link.bytes = s.link.bytes := by
  unfold cardFault
  simp

@[simp] theorem orphanAnswered_linkBytes (s : State) :
    (orphanAnswered s).link.bytes = s.link.bytes := by
  unfold orphanAnswered
  try dsimp only
  repeat' split
  all_goals simp

theorem stopAtAnswer_linkBytes {s t : State} (h : stopAtAnswer s = some t) : t.link.bytes = s.link.bytes := by
  unfold stopAtAnswer at h
  split at h
  · cases h; simp
  · split at h
    · cases h; simp
    · cases h
  · cases h; simp
  · cases h

@[simp] theorem answeredError_linkBytes (s : State) :
    (answeredError s).link.bytes = s.link.bytes := by
  unfold answeredError
  repeat' split
  any_goals simp
  next h => simp [stopAtAnswer_linkBytes h]

@[simp] theorem answeredOk_linkBytes (g : State → State) (h : ∀ s, (g s).link.bytes = s.link.bytes) (s : State) :
    (answeredOk g s).link.bytes = s.link.bytes := by
  unfold answeredOk
  repeat' split
  any_goals simp [h]
  next h => simp [stopAtAnswer_linkBytes h]

@[simp] theorem endCardWork_linkBytes (s : State) :
    (endCardWork s).link.bytes = s.link.bytes := by
  unfold endCardWork
  simp

@[simp] theorem removeCard_linkBytes (s : State) :
    (removeCard s).link.bytes = s.link.bytes := by
  unfold removeCard
  simp

@[simp] theorem emptied_linkBytes (n : Nat) (s : State) :
    (emptied n s).link.bytes = s.link.bytes := by
  unfold emptied
  try dsimp only
  repeat' split
  all_goals simp

@[simp] theorem acceptEject_linkBytes (tag : Nat) (s : State) :
    (acceptEject tag s).link.bytes = s.link.bytes := by
  unfold acceptEject
  simp

@[simp] theorem qualify_linkBytes (i : SyncInput) (s : State) :
    (qualify i s).link.bytes = s.link.bytes := by
  unfold qualify
  try dsimp only
  repeat' split
  all_goals simp

@[simp] theorem answerStart_linkBytes (tag : Nat) (d : ResultCode × State) :
    (answerStart tag d).link.bytes = d.2.link.bytes := by
  unfold answerStart
  try dsimp only
  repeat' split
  all_goals simp

@[simp] theorem answerPreview_linkBytes (i : Nat) (key : DevKey) (result : ResultCode) (s : State) (tag : Nat) :
    (answerPreview i key result s tag).link.bytes = s.link.bytes := by
  unfold answerPreview
  try dsimp only
  repeat' split
  all_goals simp

@[simp] theorem completePreview_linkBytes (j : Job) (h : RunHolds) (s : State) :
    (completePreview j h s).link.bytes = s.link.bytes := by
  unfold completePreview
  try dsimp only
  repeat' split
  all_goals simp

@[simp] theorem answerKey_linkBytes (k : DevKey) (s : State) (tag : Nat) :
    (answerKey k s tag).link.bytes = s.link.bytes := by
  unfold answerKey
  simp

@[simp] theorem completeFull_linkBytes (j : Job) (plane : Nat) (size : Nat × Nat) (s : State) :
    (completeFull j plane size s).link.bytes = s.link.bytes := by
  unfold completeFull
  simp

@[simp] theorem endFull_linkBytes (j : Job) (h : RunHolds) (s : State) :
    (endFull j h s).link.bytes = s.link.bytes := by
  unfold endFull
  try dsimp only
  repeat' split
  all_goals simp

@[simp] theorem completeJob_linkBytes (j : Job) (h : RunHolds) (s : State) :
    (completeJob j h s).link.bytes = s.link.bytes := by
  unfold completeJob
  try dsimp only
  repeat' split
  all_goals simp

@[simp] theorem placeWaiting_linkBytes (tag n : Nat) (k : JobKind) (priority : Nat) (s : State) :
    (placeWaiting tag n k priority s).link.bytes = s.link.bytes := by
  unfold placeWaiting
  try dsimp only
  repeat' split
  all_goals simp

@[simp] theorem placeAndAnswer_linkBytes (tag n : Nat) (k : JobKind) (priority : Nat) (s : State) :
    (placeAndAnswer tag n k priority s).link.bytes = s.link.bytes := by
  unfold placeAndAnswer
  try dsimp only
  repeat' split
  all_goals simp

@[simp] theorem developResident_linkBytes (tag : Nat) (k : JobKind) (priority : Nat) (r : Record) (s : State) :
    (developResident tag k priority r s).link.bytes = s.link.bytes := by
  unfold developResident
  try dsimp only
  repeat' split
  all_goals simp

@[simp] theorem previewHit_linkBytes (tag i : Nat) (s : State) :
    (previewHit tag i s).link.bytes = s.link.bytes := by
  unfold previewHit
  try dsimp only
  repeat' split
  all_goals simp

@[simp] theorem getResident_linkBytes (tag : Nat) (r : Record) (s : State) :
    (getResident tag r s).link.bytes = s.link.bytes := by
  unfold getResident
  try dsimp only
  repeat' split
  all_goals simp

@[simp] theorem getAbsent_linkBytes (tag n : Nat) (s : State) :
    (getAbsent tag n s).link.bytes = s.link.bytes := by
  unfold getAbsent
  try dsimp only
  repeat' split
  all_goals simp

@[simp] theorem readPinned_linkBytes (tag slot offset length : Nat) (x : PreviewSlot) (s : State) :
    (readPinned tag slot offset length x s).link.bytes = s.link.bytes := by
  unfold readPinned
  try dsimp only
  repeat' split
  all_goals simp

@[simp] theorem restartCard_linkBytes (s : State) :
    (restartCard s).link.bytes = s.link.bytes := by
  unfold restartCard
  simp

@[simp] theorem restartLink_linkBytes (tag : Nat) (causes : Causes) (s : State) :
    (restartLink tag causes s).link.bytes = s.link.bytes := by
  unfold restartLink
  simp

@[simp] theorem restartStores_linkBytes (s : State) :
    (restartStores s).link.bytes = s.link.bytes := by
  unfold restartStores
  simp

@[simp] theorem restartEnds_linkBytes (s : State) :
    (restartEnds s).link.bytes = s.link.bytes := by
  unfold restartEnds
  try dsimp only
  repeat' split
  all_goals simp

@[simp] theorem restartPart_linkBytes (tag : Nat) (s : State) :
    (restartPart tag s).link.bytes = s.link.bytes := by
  unfold restartPart
  simp

@[simp] theorem deselect_linkBytes (s : State) :
    (deselect s).link.bytes = s.link.bytes := by
  unfold deselect
  simp

@[simp] theorem refusalLeaves_linkBytes (s : State) :
    (refusalLeaves s).link.bytes = s.link.bytes := by
  unfold refusalLeaves
  simp

@[simp] theorem headLeaves_linkBytes (s : State) :
    (headLeaves s).link.bytes = s.link.bytes := by
  unfold headLeaves
  try dsimp only
  repeat' split
  all_goals simp

@[simp] theorem sentLeaves_linkBytes (s : State) :
    (sentLeaves s).link.bytes = s.link.bytes := by
  unfold sentLeaves
  try dsimp only
  repeat' split
  all_goals simp

@[simp] theorem shiftOut_linkBytes (s : State) :
    (shiftOut s).link.bytes = s.link.bytes := by
  unfold shiftOut
  try dsimp only
  repeat' split
  all_goals simp

@[simp] theorem foldl_noticeFloor {α : Type} (f : State → α → State)
    (h : ∀ s a, (f s a).notices.floor = s.notices.floor) :
    ∀ (l : List α) (s : State), (l.foldl f s).notices.floor = s.notices.floor
  | [], _ => rfl
  | a :: l, s => (foldl_noticeFloor f h l (f s a)).trans (h s a)

@[simp] theorem optional_noticeFloor {α : Type} (f : α → State → State) (h : ∀ a s, (f a s).notices.floor = s.notices.floor)
    (o : Option α) (s : State) : ((o.map f).getD id s).notices.floor = s.notices.floor := by
  cases o <;> simp [h]

@[simp] theorem raiseCount_noticeFloor (k : NoticeKind) (subject : Option Subject) (n : Nat) (s : State) :
    (raiseCount k subject n s).notices.floor = s.notices.floor := by
  unfold raiseCount
  simp

@[simp] theorem raise_noticeFloor (k : NoticeKind) (subject : Option Subject) (s : State) :
    (raise k subject s).notices.floor = s.notices.floor := by
  unfold raise
  simp

@[simp] theorem raiseShot_noticeFloor (k : NoticeKind) (shot : Nat) (s : State) :
    (raiseShot k shot s).notices.floor = s.notices.floor := by
  unfold raiseShot
  simp

@[simp] theorem discardPacket_noticeFloor (s : State) :
    (discardPacket s).notices.floor = s.notices.floor := by
  unfold discardPacket
  simp

@[simp] theorem answerTagBusy_noticeFloor (tag : Nat) (s : State) :
    (answerTagBusy tag s).notices.floor = s.notices.floor := by
  unfold answerTagBusy
  try dsimp only
  repeat' split
  all_goals simp

@[simp] theorem unlinkFailed_noticeFloor (s : State) (n : Nat) :
    (unlinkFailed s n).notices.floor = s.notices.floor := by
  unfold unlinkFailed
  try dsimp only
  repeat' split
  all_goals simp

@[simp] theorem failEntry_noticeFloor (e : Nat) (s : State) :
    (failEntry e s).notices.floor = s.notices.floor := by
  unfold failEntry
  simp

@[simp] theorem abandonDark_noticeFloor (s : State) :
    (abandonDark s).notices.floor = s.notices.floor := by
  unfold abandonDark
  try dsimp only
  repeat' split
  all_goals simp

@[simp] theorem finishDark_noticeFloor (temperature : Int) (s : State) :
    (finishDark temperature s).notices.floor = s.notices.floor := by
  unfold finishDark
  try dsimp only
  repeat' split
  all_goals simp

@[simp] theorem allocationFailed_noticeFloor (shot : Nat) (s : State) :
    (allocationFailed shot s).notices.floor = s.notices.floor := by
  unfold allocationFailed
  try dsimp only
  repeat' split
  all_goals simp

@[simp] theorem startDeveloped_noticeFloor (h : Handoff) (s : State) :
    (startDeveloped h s).notices.floor = s.notices.floor := by
  unfold startDeveloped
  try dsimp only
  repeat' split
  all_goals simp

@[simp] theorem startRaw_noticeFloor (r : Record) (s : State) :
    (startRaw r s).notices.floor = s.notices.floor := by
  unfold startRaw
  try dsimp only
  repeat' split
  all_goals simp

@[simp] theorem takeChoice_noticeFloor (c : Choice) (s : State) :
    (takeChoice c s).notices.floor = s.notices.floor := by
  unfold takeChoice
  try dsimp only
  repeat' split
  all_goals simp

@[simp] theorem chooseWork_noticeFloor (fuel : Nat) (s : State) :
    (chooseWork fuel s).notices.floor = s.notices.floor := by
  induction fuel generalizing s with
  | zero => simp [chooseWork]
  | succ n ih => unfold chooseWork; repeat' split
                 all_goals simp [ih]

@[simp] theorem startCardWork_noticeFloor (s : State) :
    (startCardWork s).notices.floor = s.notices.floor := by
  unfold startCardWork
  try dsimp only
  repeat' split
  all_goals simp

@[simp] theorem raiseAmendLost_noticeFloor (lost : List Nat) (s : State) :
    (raiseAmendLost lost s).notices.floor = s.notices.floor := by
  unfold raiseAmendLost
  try dsimp only
  repeat' split
  all_goals simp

@[simp] theorem serveBlocks_noticeFloor (s : State) :
    (serveBlocks s).notices.floor = s.notices.floor := by
  unfold serveBlocks
  simp

@[simp] theorem service_noticeFloor (s : State) :
    (service s).notices.floor = s.notices.floor := by
  unfold service
  try dsimp only
  repeat' split
  all_goals simp

@[simp] theorem enterRunning_noticeFloor (s : State) :
    (enterRunning s).notices.floor = s.notices.floor := by
  unfold enterRunning
  simp

@[simp] theorem stepFrame_noticeFloor (rollSlot : Nat) (roll : Roll) (shot : Nat) (s : State) :
    (stepFrame rollSlot roll shot s).notices.floor = s.notices.floor := by
  unfold stepFrame
  try dsimp only
  repeat' split
  all_goals simp

@[simp] theorem createShot_noticeFloor (k : Start) (rollSlot : Nat) (roll : Roll) (slot : Nat) (c : Nat × Option Nat) (s : State) :
    (createShot k rollSlot roll slot c s).notices.floor = s.notices.floor := by
  unfold createShot
  simp

@[simp] theorem claimStart_noticeFloor (k : Start) (rollSlot : Nat) (roll : Roll) (s : State) :
    (claimStart k rollSlot roll s).2.notices.floor = s.notices.floor := by
  unfold claimStart
  try dsimp only
  repeat' split
  all_goals simp

@[simp] theorem startIdle_noticeFloor (k : Start) (s : State) :
    (startIdle k s).2.notices.floor = s.notices.floor := by
  unfold startIdle
  try dsimp only
  repeat' split
  all_goals simp

@[simp] theorem startDark_noticeFloor (k : Start) (s : State) :
    (startDark k s).2.notices.floor = s.notices.floor := by
  unfold startDark
  try dsimp only
  repeat' split
  all_goals simp

@[simp] theorem decideStart_noticeFloor (k : Start) (s : State) :
    (decideStart k s).2.notices.floor = s.notices.floor := by
  unfold decideStart
  try dsimp only
  repeat' split
  all_goals simp

@[simp] theorem release_noticeFloor (s : State) :
    (release s).notices.floor = s.notices.floor := by
  unfold release
  try dsimp only
  repeat' split
  all_goals simp

@[simp] theorem finishShot_noticeFloor (s : State) :
    (finishShot s).notices.floor = s.notices.floor := by
  unfold finishShot
  try dsimp only
  repeat' split
  all_goals simp

@[simp] theorem goodReadout_noticeFloor (temperature : Int) (s : State) :
    (goodReadout temperature s).notices.floor = s.notices.floor := by
  unfold goodReadout
  try dsimp only
  repeat' split
  all_goals simp

@[simp] theorem voidShot_noticeFloor (s : State) :
    (voidShot s).notices.floor = s.notices.floor := by
  unfold voidShot
  try dsimp only
  repeat' split
  all_goals simp

@[simp] theorem failedReadout_noticeFloor (s : State) :
    (failedReadout s).notices.floor = s.notices.floor := by
  unfold failedReadout
  try dsimp only
  repeat' split
  all_goals simp

@[simp] theorem failedDark_noticeFloor (s : State) :
    (failedDark s).notices.floor = s.notices.floor := by
  unfold failedDark
  simp

@[simp] theorem renumberShot_noticeFloor (s : State) (old : Nat) :
    (renumberShot s old).notices.floor = s.notices.floor := by
  unfold renumberShot
  try dsimp only
  repeat' split
  all_goals simp

@[simp] theorem renumberAll_noticeFloor (next : Nat) (s : State) :
    (renumberAll next s).notices.floor = s.notices.floor := by
  unfold renumberAll
  simp

@[simp] theorem finishMount_noticeFloor (blocks : List (Nat × List Byte)) (s : State) :
    (finishMount blocks s).notices.floor = s.notices.floor := by
  unfold finishMount
  try dsimp only
  repeat' split
  all_goals simp

@[simp] theorem cardFault_noticeFloor (s : State) :
    (cardFault s).notices.floor = s.notices.floor := by
  unfold cardFault
  simp

@[simp] theorem orphanAnswered_noticeFloor (s : State) :
    (orphanAnswered s).notices.floor = s.notices.floor := by
  unfold orphanAnswered
  try dsimp only
  repeat' split
  all_goals simp

theorem stopAtAnswer_noticeFloor {s t : State} (h : stopAtAnswer s = some t) : t.notices.floor = s.notices.floor := by
  unfold stopAtAnswer at h
  split at h
  · cases h; simp
  · split at h
    · cases h; simp
    · cases h
  · cases h; simp
  · cases h

@[simp] theorem answeredError_noticeFloor (s : State) :
    (answeredError s).notices.floor = s.notices.floor := by
  unfold answeredError
  repeat' split
  any_goals simp
  next h => simp [stopAtAnswer_noticeFloor h]

@[simp] theorem answeredOk_noticeFloor (g : State → State) (h : ∀ s, (g s).notices.floor = s.notices.floor) (s : State) :
    (answeredOk g s).notices.floor = s.notices.floor := by
  unfold answeredOk
  repeat' split
  any_goals simp [h]
  next h => simp [stopAtAnswer_noticeFloor h]

@[simp] theorem removeCard_noticeFloor (s : State) :
    (removeCard s).notices.floor = s.notices.floor := by
  unfold removeCard
  simp

@[simp] theorem acceptEject_noticeFloor (tag : Nat) (s : State) :
    (acceptEject tag s).notices.floor = s.notices.floor := by
  unfold acceptEject
  simp

@[simp] theorem deliver_noticeFloor (i : SyncInput) (level : Contact) (t : Time) (s : State) :
    (deliver i level t s).notices.floor = s.notices.floor := by
  unfold deliver
  try dsimp only
  repeat' split
  all_goals simp

@[simp] theorem qualify_noticeFloor (i : SyncInput) (s : State) :
    (qualify i s).notices.floor = s.notices.floor := by
  unfold qualify
  try dsimp only
  repeat' split
  all_goals simp

@[simp] theorem armExpired_noticeFloor (s : State) :
    (armExpired s).notices.floor = s.notices.floor := by
  unfold armExpired
  try dsimp only
  repeat' split
  all_goals simp

@[simp] theorem maxOpenExpired_noticeFloor (t : Time) (s : State) :
    (maxOpenExpired t s).notices.floor = s.notices.floor := by
  unfold maxOpenExpired
  try dsimp only
  repeat' split
  all_goals simp

@[simp] theorem afterAccumulate_noticeFloor (s : State) :
    (afterAccumulate s).notices.floor = s.notices.floor := by
  unfold afterAccumulate
  try dsimp only
  repeat' split
  all_goals simp

@[simp] theorem developResident_noticeFloor (tag : Nat) (k : JobKind) (priority : Nat) (r : Record) (s : State) :
    (developResident tag k priority r s).notices.floor = s.notices.floor := by
  unfold developResident
  try dsimp only
  repeat' split
  all_goals simp

@[simp] theorem getResident_noticeFloor (tag : Nat) (r : Record) (s : State) :
    (getResident tag r s).notices.floor = s.notices.floor := by
  unfold getResident
  try dsimp only
  repeat' split
  all_goals simp

@[simp] theorem clearKind_noticeFloor (i : Nat) (s : State) :
    (clearKind i s).notices.floor = s.notices.floor := by
  unfold clearKind
  simp

@[simp] theorem restartSequencer_noticeFloor (s : State) :
    (restartSequencer s).notices.floor = s.notices.floor := by
  unfold restartSequencer
  try dsimp only
  repeat' split
  all_goals simp

@[simp] theorem restartDark_noticeFloor (s : State) :
    (restartDark s).notices.floor = s.notices.floor := by
  unfold restartDark
  simp

@[simp] theorem restartCard_noticeFloor (s : State) :
    (restartCard s).notices.floor = s.notices.floor := by
  unfold restartCard
  simp

@[simp] theorem clearNotices_noticeFloor (s : State) :
    (clearNotices s).notices.floor = s.notices.floor := by
  unfold clearNotices
  simp

@[simp] theorem restartBlocks_noticeFloor (s : State) :
    (restartBlocks s).notices.floor = s.notices.floor := by
  unfold restartBlocks
  simp

@[simp] theorem restartStores_noticeFloor (s : State) :
    (restartStores s).notices.floor = s.notices.floor := by
  unfold restartStores
  simp

@[simp] theorem restartEnds_noticeFloor (s : State) :
    (restartEnds s).notices.floor = s.notices.floor := by
  unfold restartEnds
  try dsimp only
  repeat' split
  all_goals simp

@[simp] theorem restartPart_noticeFloor (tag : Nat) (s : State) :
    (restartPart tag s).notices.floor = s.notices.floor := by
  unfold restartPart
  simp

@[simp] theorem headerByte_noticeFloor (bytes : List Byte) (s : State) :
    (headerByte bytes s).notices.floor = s.notices.floor := by
  unfold headerByte
  try dsimp only
  repeat' split
  all_goals simp

@[simp] theorem foldl_noticeLevels {α : Type} (f : State → α → State)
    (h : ∀ s a, (f s a).notices.kinds.map Notice.level = s.notices.kinds.map Notice.level) :
    ∀ (l : List α) (s : State), (l.foldl f s).notices.kinds.map Notice.level = s.notices.kinds.map Notice.level
  | [], _ => rfl
  | a :: l, s => (foldl_noticeLevels f h l (f s a)).trans (h s a)

@[simp] theorem optional_noticeLevels {α : Type} (f : α → State → State) (h : ∀ a s, (f a s).notices.kinds.map Notice.level = s.notices.kinds.map Notice.level)
    (o : Option α) (s : State) : ((o.map f).getD id s).notices.kinds.map Notice.level = s.notices.kinds.map Notice.level := by
  cases o <;> simp [h]

@[simp] theorem raise_noticeLevels (k : NoticeKind) (subject : Option Subject) (s : State) :
    (raise k subject s).notices.kinds.map Notice.level = s.notices.kinds.map Notice.level := by
  unfold raise
  simp

@[simp] theorem raiseShot_noticeLevels (k : NoticeKind) (shot : Nat) (s : State) :
    (raiseShot k shot s).notices.kinds.map Notice.level = s.notices.kinds.map Notice.level := by
  unfold raiseShot
  simp

@[simp] theorem discardPacket_noticeLevels (s : State) :
    (discardPacket s).notices.kinds.map Notice.level = s.notices.kinds.map Notice.level := by
  unfold discardPacket
  simp

@[simp] theorem answerTagBusy_noticeLevels (tag : Nat) (s : State) :
    (answerTagBusy tag s).notices.kinds.map Notice.level = s.notices.kinds.map Notice.level := by
  unfold answerTagBusy
  try dsimp only
  repeat' split
  all_goals simp

@[simp] theorem unlinkFailed_noticeLevels (s : State) (n : Nat) :
    (unlinkFailed s n).notices.kinds.map Notice.level = s.notices.kinds.map Notice.level := by
  unfold unlinkFailed
  try dsimp only
  repeat' split
  all_goals simp

@[simp] theorem failEntry_noticeLevels (e : Nat) (s : State) :
    (failEntry e s).notices.kinds.map Notice.level = s.notices.kinds.map Notice.level := by
  unfold failEntry
  simp

@[simp] theorem abandonDark_noticeLevels (s : State) :
    (abandonDark s).notices.kinds.map Notice.level = s.notices.kinds.map Notice.level := by
  unfold abandonDark
  try dsimp only
  repeat' split
  all_goals simp

@[simp] theorem finishDark_noticeLevels (temperature : Int) (s : State) :
    (finishDark temperature s).notices.kinds.map Notice.level = s.notices.kinds.map Notice.level := by
  unfold finishDark
  try dsimp only
  repeat' split
  all_goals simp

@[simp] theorem allocationFailed_noticeLevels (shot : Nat) (s : State) :
    (allocationFailed shot s).notices.kinds.map Notice.level = s.notices.kinds.map Notice.level := by
  unfold allocationFailed
  try dsimp only
  repeat' split
  all_goals simp

@[simp] theorem startDeveloped_noticeLevels (h : Handoff) (s : State) :
    (startDeveloped h s).notices.kinds.map Notice.level = s.notices.kinds.map Notice.level := by
  unfold startDeveloped
  try dsimp only
  repeat' split
  all_goals simp

@[simp] theorem startRaw_noticeLevels (r : Record) (s : State) :
    (startRaw r s).notices.kinds.map Notice.level = s.notices.kinds.map Notice.level := by
  unfold startRaw
  try dsimp only
  repeat' split
  all_goals simp

@[simp] theorem takeChoice_noticeLevels (c : Choice) (s : State) :
    (takeChoice c s).notices.kinds.map Notice.level = s.notices.kinds.map Notice.level := by
  unfold takeChoice
  try dsimp only
  repeat' split
  all_goals simp

@[simp] theorem chooseWork_noticeLevels (fuel : Nat) (s : State) :
    (chooseWork fuel s).notices.kinds.map Notice.level = s.notices.kinds.map Notice.level := by
  induction fuel generalizing s with
  | zero => simp [chooseWork]
  | succ n ih => unfold chooseWork; repeat' split
                 all_goals simp [ih]

@[simp] theorem startCardWork_noticeLevels (s : State) :
    (startCardWork s).notices.kinds.map Notice.level = s.notices.kinds.map Notice.level := by
  unfold startCardWork
  try dsimp only
  repeat' split
  all_goals simp

@[simp] theorem raiseAmendLost_noticeLevels (lost : List Nat) (s : State) :
    (raiseAmendLost lost s).notices.kinds.map Notice.level = s.notices.kinds.map Notice.level := by
  unfold raiseAmendLost
  try dsimp only
  repeat' split
  all_goals simp

@[simp] theorem serveBlocks_noticeLevels (s : State) :
    (serveBlocks s).notices.kinds.map Notice.level = s.notices.kinds.map Notice.level := by
  unfold serveBlocks
  simp

@[simp] theorem service_noticeLevels (s : State) :
    (service s).notices.kinds.map Notice.level = s.notices.kinds.map Notice.level := by
  unfold service
  try dsimp only
  repeat' split
  all_goals simp

@[simp] theorem enterRunning_noticeLevels (s : State) :
    (enterRunning s).notices.kinds.map Notice.level = s.notices.kinds.map Notice.level := by
  unfold enterRunning
  simp

@[simp] theorem stepFrame_noticeLevels (rollSlot : Nat) (roll : Roll) (shot : Nat) (s : State) :
    (stepFrame rollSlot roll shot s).notices.kinds.map Notice.level = s.notices.kinds.map Notice.level := by
  unfold stepFrame
  try dsimp only
  repeat' split
  all_goals simp

@[simp] theorem createShot_noticeLevels (k : Start) (rollSlot : Nat) (roll : Roll) (slot : Nat) (c : Nat × Option Nat) (s : State) :
    (createShot k rollSlot roll slot c s).notices.kinds.map Notice.level = s.notices.kinds.map Notice.level := by
  unfold createShot
  simp

@[simp] theorem claimStart_noticeLevels (k : Start) (rollSlot : Nat) (roll : Roll) (s : State) :
    (claimStart k rollSlot roll s).2.notices.kinds.map Notice.level = s.notices.kinds.map Notice.level := by
  unfold claimStart
  try dsimp only
  repeat' split
  all_goals simp

@[simp] theorem startIdle_noticeLevels (k : Start) (s : State) :
    (startIdle k s).2.notices.kinds.map Notice.level = s.notices.kinds.map Notice.level := by
  unfold startIdle
  try dsimp only
  repeat' split
  all_goals simp

@[simp] theorem startDark_noticeLevels (k : Start) (s : State) :
    (startDark k s).2.notices.kinds.map Notice.level = s.notices.kinds.map Notice.level := by
  unfold startDark
  try dsimp only
  repeat' split
  all_goals simp

@[simp] theorem decideStart_noticeLevels (k : Start) (s : State) :
    (decideStart k s).2.notices.kinds.map Notice.level = s.notices.kinds.map Notice.level := by
  unfold decideStart
  try dsimp only
  repeat' split
  all_goals simp

@[simp] theorem release_noticeLevels (s : State) :
    (release s).notices.kinds.map Notice.level = s.notices.kinds.map Notice.level := by
  unfold release
  try dsimp only
  repeat' split
  all_goals simp

@[simp] theorem finishShot_noticeLevels (s : State) :
    (finishShot s).notices.kinds.map Notice.level = s.notices.kinds.map Notice.level := by
  unfold finishShot
  try dsimp only
  repeat' split
  all_goals simp

@[simp] theorem goodReadout_noticeLevels (temperature : Int) (s : State) :
    (goodReadout temperature s).notices.kinds.map Notice.level = s.notices.kinds.map Notice.level := by
  unfold goodReadout
  try dsimp only
  repeat' split
  all_goals simp

@[simp] theorem voidShot_noticeLevels (s : State) :
    (voidShot s).notices.kinds.map Notice.level = s.notices.kinds.map Notice.level := by
  unfold voidShot
  try dsimp only
  repeat' split
  all_goals simp

@[simp] theorem failedReadout_noticeLevels (s : State) :
    (failedReadout s).notices.kinds.map Notice.level = s.notices.kinds.map Notice.level := by
  unfold failedReadout
  try dsimp only
  repeat' split
  all_goals simp

@[simp] theorem failedDark_noticeLevels (s : State) :
    (failedDark s).notices.kinds.map Notice.level = s.notices.kinds.map Notice.level := by
  unfold failedDark
  simp

@[simp] theorem renumberShot_noticeLevels (s : State) (old : Nat) :
    (renumberShot s old).notices.kinds.map Notice.level = s.notices.kinds.map Notice.level := by
  unfold renumberShot
  try dsimp only
  repeat' split
  all_goals simp

@[simp] theorem renumberAll_noticeLevels (next : Nat) (s : State) :
    (renumberAll next s).notices.kinds.map Notice.level = s.notices.kinds.map Notice.level := by
  unfold renumberAll
  simp

@[simp] theorem finishMount_noticeLevels (blocks : List (Nat × List Byte)) (s : State) :
    (finishMount blocks s).notices.kinds.map Notice.level = s.notices.kinds.map Notice.level := by
  unfold finishMount
  try dsimp only
  repeat' split
  all_goals simp

@[simp] theorem cardFault_noticeLevels (s : State) :
    (cardFault s).notices.kinds.map Notice.level = s.notices.kinds.map Notice.level := by
  unfold cardFault
  simp

@[simp] theorem orphanAnswered_noticeLevels (s : State) :
    (orphanAnswered s).notices.kinds.map Notice.level = s.notices.kinds.map Notice.level := by
  unfold orphanAnswered
  try dsimp only
  repeat' split
  all_goals simp

theorem stopAtAnswer_noticeLevels {s t : State} (h : stopAtAnswer s = some t) : t.notices.kinds.map Notice.level = s.notices.kinds.map Notice.level := by
  unfold stopAtAnswer at h
  split at h
  · cases h; simp
  · split at h
    · cases h; simp
    · cases h
  · cases h; simp
  · cases h

@[simp] theorem answeredError_noticeLevels (s : State) :
    (answeredError s).notices.kinds.map Notice.level = s.notices.kinds.map Notice.level := by
  unfold answeredError
  repeat' split
  any_goals simp
  next h => simp [stopAtAnswer_noticeLevels h]

@[simp] theorem answeredOk_noticeLevels (g : State → State) (h : ∀ s, (g s).notices.kinds.map Notice.level = s.notices.kinds.map Notice.level) (s : State) :
    (answeredOk g s).notices.kinds.map Notice.level = s.notices.kinds.map Notice.level := by
  unfold answeredOk
  repeat' split
  any_goals simp [h]
  next h => simp [stopAtAnswer_noticeLevels h]

@[simp] theorem removeCard_noticeLevels (s : State) :
    (removeCard s).notices.kinds.map Notice.level = s.notices.kinds.map Notice.level := by
  unfold removeCard
  simp

@[simp] theorem acceptEject_noticeLevels (tag : Nat) (s : State) :
    (acceptEject tag s).notices.kinds.map Notice.level = s.notices.kinds.map Notice.level := by
  unfold acceptEject
  simp

@[simp] theorem deliver_noticeLevels (i : SyncInput) (level : Contact) (t : Time) (s : State) :
    (deliver i level t s).notices.kinds.map Notice.level = s.notices.kinds.map Notice.level := by
  unfold deliver
  try dsimp only
  repeat' split
  all_goals simp

@[simp] theorem qualify_noticeLevels (i : SyncInput) (s : State) :
    (qualify i s).notices.kinds.map Notice.level = s.notices.kinds.map Notice.level := by
  unfold qualify
  try dsimp only
  repeat' split
  all_goals simp

@[simp] theorem armExpired_noticeLevels (s : State) :
    (armExpired s).notices.kinds.map Notice.level = s.notices.kinds.map Notice.level := by
  unfold armExpired
  try dsimp only
  repeat' split
  all_goals simp

@[simp] theorem maxOpenExpired_noticeLevels (t : Time) (s : State) :
    (maxOpenExpired t s).notices.kinds.map Notice.level = s.notices.kinds.map Notice.level := by
  unfold maxOpenExpired
  try dsimp only
  repeat' split
  all_goals simp

@[simp] theorem afterAccumulate_noticeLevels (s : State) :
    (afterAccumulate s).notices.kinds.map Notice.level = s.notices.kinds.map Notice.level := by
  unfold afterAccumulate
  try dsimp only
  repeat' split
  all_goals simp

@[simp] theorem developResident_noticeLevels (tag : Nat) (k : JobKind) (priority : Nat) (r : Record) (s : State) :
    (developResident tag k priority r s).notices.kinds.map Notice.level = s.notices.kinds.map Notice.level := by
  unfold developResident
  try dsimp only
  repeat' split
  all_goals simp

@[simp] theorem getResident_noticeLevels (tag : Nat) (r : Record) (s : State) :
    (getResident tag r s).notices.kinds.map Notice.level = s.notices.kinds.map Notice.level := by
  unfold getResident
  try dsimp only
  repeat' split
  all_goals simp

@[simp] theorem clearKind_noticeLevels (i : Nat) (s : State) :
    (clearKind i s).notices.kinds.map Notice.level = s.notices.kinds.map Notice.level := by
  exact levels_modify _ (by simp) _ _

@[simp] theorem restartSequencer_noticeLevels (s : State) :
    (restartSequencer s).notices.kinds.map Notice.level = s.notices.kinds.map Notice.level := by
  unfold restartSequencer
  try dsimp only
  repeat' split
  all_goals simp

@[simp] theorem restartDark_noticeLevels (s : State) :
    (restartDark s).notices.kinds.map Notice.level = s.notices.kinds.map Notice.level := by
  unfold restartDark
  simp

@[simp] theorem restartCard_noticeLevels (s : State) :
    (restartCard s).notices.kinds.map Notice.level = s.notices.kinds.map Notice.level := by
  unfold restartCard
  simp

@[simp] theorem clearNotices_noticeLevels (s : State) :
    (clearNotices s).notices.kinds.map Notice.level = s.notices.kinds.map Notice.level := by
  unfold clearNotices
  simp

@[simp] theorem restartBlocks_noticeLevels (s : State) :
    (restartBlocks s).notices.kinds.map Notice.level = s.notices.kinds.map Notice.level := by
  unfold restartBlocks
  simp

@[simp] theorem restartStores_noticeLevels (s : State) :
    (restartStores s).notices.kinds.map Notice.level = s.notices.kinds.map Notice.level := by
  unfold restartStores
  simp

@[simp] theorem restartEnds_noticeLevels (s : State) :
    (restartEnds s).notices.kinds.map Notice.level = s.notices.kinds.map Notice.level := by
  unfold restartEnds
  try dsimp only
  repeat' split
  all_goals simp

@[simp] theorem restartPart_noticeLevels (tag : Nat) (s : State) :
    (restartPart tag s).notices.kinds.map Notice.level = s.notices.kinds.map Notice.level := by
  unfold restartPart
  simp

@[simp] theorem headerByte_noticeLevels (bytes : List Byte) (s : State) :
    (headerByte bytes s).notices.kinds.map Notice.level = s.notices.kinds.map Notice.level := by
  unfold headerByte
  try dsimp only
  repeat' split
  all_goals simp

@[simp] theorem foldl_noticeCount {α : Type} (f : State → α → State)
    (h : ∀ s a, (f s a).notices.kinds.length = s.notices.kinds.length) :
    ∀ (l : List α) (s : State), (l.foldl f s).notices.kinds.length = s.notices.kinds.length
  | [], _ => rfl
  | a :: l, s => (foldl_noticeCount f h l (f s a)).trans (h s a)

@[simp] theorem optional_noticeCount {α : Type} (f : α → State → State) (h : ∀ a s, (f a s).notices.kinds.length = s.notices.kinds.length)
    (o : Option α) (s : State) : ((o.map f).getD id s).notices.kinds.length = s.notices.kinds.length := by
  cases o <;> simp [h]

@[simp] theorem raiseCount_noticeCount (k : NoticeKind) (subject : Option Subject) (n : Nat) (s : State) :
    (raiseCount k subject n s).notices.kinds.length = s.notices.kinds.length := by
  unfold raiseCount
  simp

@[simp] theorem raise_noticeCount (k : NoticeKind) (subject : Option Subject) (s : State) :
    (raise k subject s).notices.kinds.length = s.notices.kinds.length := by
  unfold raise
  simp

@[simp] theorem raiseShot_noticeCount (k : NoticeKind) (shot : Nat) (s : State) :
    (raiseShot k shot s).notices.kinds.length = s.notices.kinds.length := by
  unfold raiseShot
  simp

@[simp] theorem discardPacket_noticeCount (s : State) :
    (discardPacket s).notices.kinds.length = s.notices.kinds.length := by
  unfold discardPacket
  simp

@[simp] theorem answerTagBusy_noticeCount (tag : Nat) (s : State) :
    (answerTagBusy tag s).notices.kinds.length = s.notices.kinds.length := by
  unfold answerTagBusy
  try dsimp only
  repeat' split
  all_goals simp

@[simp] theorem unlinkFailed_noticeCount (s : State) (n : Nat) :
    (unlinkFailed s n).notices.kinds.length = s.notices.kinds.length := by
  unfold unlinkFailed
  try dsimp only
  repeat' split
  all_goals simp

@[simp] theorem failEntry_noticeCount (e : Nat) (s : State) :
    (failEntry e s).notices.kinds.length = s.notices.kinds.length := by
  unfold failEntry
  simp

@[simp] theorem abandonDark_noticeCount (s : State) :
    (abandonDark s).notices.kinds.length = s.notices.kinds.length := by
  unfold abandonDark
  try dsimp only
  repeat' split
  all_goals simp

@[simp] theorem finishDark_noticeCount (temperature : Int) (s : State) :
    (finishDark temperature s).notices.kinds.length = s.notices.kinds.length := by
  unfold finishDark
  try dsimp only
  repeat' split
  all_goals simp

@[simp] theorem allocationFailed_noticeCount (shot : Nat) (s : State) :
    (allocationFailed shot s).notices.kinds.length = s.notices.kinds.length := by
  unfold allocationFailed
  try dsimp only
  repeat' split
  all_goals simp

@[simp] theorem startDeveloped_noticeCount (h : Handoff) (s : State) :
    (startDeveloped h s).notices.kinds.length = s.notices.kinds.length := by
  unfold startDeveloped
  try dsimp only
  repeat' split
  all_goals simp

@[simp] theorem startRaw_noticeCount (r : Record) (s : State) :
    (startRaw r s).notices.kinds.length = s.notices.kinds.length := by
  unfold startRaw
  try dsimp only
  repeat' split
  all_goals simp

@[simp] theorem takeChoice_noticeCount (c : Choice) (s : State) :
    (takeChoice c s).notices.kinds.length = s.notices.kinds.length := by
  unfold takeChoice
  try dsimp only
  repeat' split
  all_goals simp

@[simp] theorem chooseWork_noticeCount (fuel : Nat) (s : State) :
    (chooseWork fuel s).notices.kinds.length = s.notices.kinds.length := by
  induction fuel generalizing s with
  | zero => simp [chooseWork]
  | succ n ih => unfold chooseWork; repeat' split
                 all_goals simp [ih]

@[simp] theorem startCardWork_noticeCount (s : State) :
    (startCardWork s).notices.kinds.length = s.notices.kinds.length := by
  unfold startCardWork
  try dsimp only
  repeat' split
  all_goals simp

@[simp] theorem raiseAmendLost_noticeCount (lost : List Nat) (s : State) :
    (raiseAmendLost lost s).notices.kinds.length = s.notices.kinds.length := by
  unfold raiseAmendLost
  try dsimp only
  repeat' split
  all_goals simp

@[simp] theorem serveBlocks_noticeCount (s : State) :
    (serveBlocks s).notices.kinds.length = s.notices.kinds.length := by
  unfold serveBlocks
  simp

@[simp] theorem service_noticeCount (s : State) :
    (service s).notices.kinds.length = s.notices.kinds.length := by
  unfold service
  try dsimp only
  repeat' split
  all_goals simp

@[simp] theorem enterRunning_noticeCount (s : State) :
    (enterRunning s).notices.kinds.length = s.notices.kinds.length := by
  unfold enterRunning
  simp

@[simp] theorem stepFrame_noticeCount (rollSlot : Nat) (roll : Roll) (shot : Nat) (s : State) :
    (stepFrame rollSlot roll shot s).notices.kinds.length = s.notices.kinds.length := by
  unfold stepFrame
  try dsimp only
  repeat' split
  all_goals simp

@[simp] theorem createShot_noticeCount (k : Start) (rollSlot : Nat) (roll : Roll) (slot : Nat) (c : Nat × Option Nat) (s : State) :
    (createShot k rollSlot roll slot c s).notices.kinds.length = s.notices.kinds.length := by
  unfold createShot
  simp

@[simp] theorem claimStart_noticeCount (k : Start) (rollSlot : Nat) (roll : Roll) (s : State) :
    (claimStart k rollSlot roll s).2.notices.kinds.length = s.notices.kinds.length := by
  unfold claimStart
  try dsimp only
  repeat' split
  all_goals simp

@[simp] theorem startIdle_noticeCount (k : Start) (s : State) :
    (startIdle k s).2.notices.kinds.length = s.notices.kinds.length := by
  unfold startIdle
  try dsimp only
  repeat' split
  all_goals simp

@[simp] theorem startDark_noticeCount (k : Start) (s : State) :
    (startDark k s).2.notices.kinds.length = s.notices.kinds.length := by
  unfold startDark
  try dsimp only
  repeat' split
  all_goals simp

@[simp] theorem decideStart_noticeCount (k : Start) (s : State) :
    (decideStart k s).2.notices.kinds.length = s.notices.kinds.length := by
  unfold decideStart
  try dsimp only
  repeat' split
  all_goals simp

@[simp] theorem release_noticeCount (s : State) :
    (release s).notices.kinds.length = s.notices.kinds.length := by
  unfold release
  try dsimp only
  repeat' split
  all_goals simp

@[simp] theorem finishShot_noticeCount (s : State) :
    (finishShot s).notices.kinds.length = s.notices.kinds.length := by
  unfold finishShot
  try dsimp only
  repeat' split
  all_goals simp

@[simp] theorem goodReadout_noticeCount (temperature : Int) (s : State) :
    (goodReadout temperature s).notices.kinds.length = s.notices.kinds.length := by
  unfold goodReadout
  try dsimp only
  repeat' split
  all_goals simp

@[simp] theorem voidShot_noticeCount (s : State) :
    (voidShot s).notices.kinds.length = s.notices.kinds.length := by
  unfold voidShot
  try dsimp only
  repeat' split
  all_goals simp

@[simp] theorem failedReadout_noticeCount (s : State) :
    (failedReadout s).notices.kinds.length = s.notices.kinds.length := by
  unfold failedReadout
  try dsimp only
  repeat' split
  all_goals simp

@[simp] theorem failedDark_noticeCount (s : State) :
    (failedDark s).notices.kinds.length = s.notices.kinds.length := by
  unfold failedDark
  simp

@[simp] theorem renumberShot_noticeCount (s : State) (old : Nat) :
    (renumberShot s old).notices.kinds.length = s.notices.kinds.length := by
  unfold renumberShot
  try dsimp only
  repeat' split
  all_goals simp

@[simp] theorem renumberAll_noticeCount (next : Nat) (s : State) :
    (renumberAll next s).notices.kinds.length = s.notices.kinds.length := by
  unfold renumberAll
  simp

@[simp] theorem finishMount_noticeCount (blocks : List (Nat × List Byte)) (s : State) :
    (finishMount blocks s).notices.kinds.length = s.notices.kinds.length := by
  unfold finishMount
  try dsimp only
  repeat' split
  all_goals simp

@[simp] theorem cardFault_noticeCount (s : State) :
    (cardFault s).notices.kinds.length = s.notices.kinds.length := by
  unfold cardFault
  simp

@[simp] theorem orphanAnswered_noticeCount (s : State) :
    (orphanAnswered s).notices.kinds.length = s.notices.kinds.length := by
  unfold orphanAnswered
  try dsimp only
  repeat' split
  all_goals simp

theorem stopAtAnswer_noticeCount {s t : State} (h : stopAtAnswer s = some t) : t.notices.kinds.length = s.notices.kinds.length := by
  unfold stopAtAnswer at h
  split at h
  · cases h; simp
  · split at h
    · cases h; simp
    · cases h
  · cases h; simp
  · cases h

@[simp] theorem answeredError_noticeCount (s : State) :
    (answeredError s).notices.kinds.length = s.notices.kinds.length := by
  unfold answeredError
  repeat' split
  any_goals simp
  next h => simp [stopAtAnswer_noticeCount h]

@[simp] theorem answeredOk_noticeCount (g : State → State) (h : ∀ s, (g s).notices.kinds.length = s.notices.kinds.length) (s : State) :
    (answeredOk g s).notices.kinds.length = s.notices.kinds.length := by
  unfold answeredOk
  repeat' split
  any_goals simp [h]
  next h => simp [stopAtAnswer_noticeCount h]

@[simp] theorem removeCard_noticeCount (s : State) :
    (removeCard s).notices.kinds.length = s.notices.kinds.length := by
  unfold removeCard
  simp

@[simp] theorem acceptEject_noticeCount (tag : Nat) (s : State) :
    (acceptEject tag s).notices.kinds.length = s.notices.kinds.length := by
  unfold acceptEject
  simp

@[simp] theorem deliver_noticeCount (i : SyncInput) (level : Contact) (t : Time) (s : State) :
    (deliver i level t s).notices.kinds.length = s.notices.kinds.length := by
  unfold deliver
  try dsimp only
  repeat' split
  all_goals simp

@[simp] theorem qualify_noticeCount (i : SyncInput) (s : State) :
    (qualify i s).notices.kinds.length = s.notices.kinds.length := by
  unfold qualify
  try dsimp only
  repeat' split
  all_goals simp

@[simp] theorem armExpired_noticeCount (s : State) :
    (armExpired s).notices.kinds.length = s.notices.kinds.length := by
  unfold armExpired
  try dsimp only
  repeat' split
  all_goals simp

@[simp] theorem maxOpenExpired_noticeCount (t : Time) (s : State) :
    (maxOpenExpired t s).notices.kinds.length = s.notices.kinds.length := by
  unfold maxOpenExpired
  try dsimp only
  repeat' split
  all_goals simp

@[simp] theorem afterAccumulate_noticeCount (s : State) :
    (afterAccumulate s).notices.kinds.length = s.notices.kinds.length := by
  unfold afterAccumulate
  try dsimp only
  repeat' split
  all_goals simp

@[simp] theorem developResident_noticeCount (tag : Nat) (k : JobKind) (priority : Nat) (r : Record) (s : State) :
    (developResident tag k priority r s).notices.kinds.length = s.notices.kinds.length := by
  unfold developResident
  try dsimp only
  repeat' split
  all_goals simp

@[simp] theorem getResident_noticeCount (tag : Nat) (r : Record) (s : State) :
    (getResident tag r s).notices.kinds.length = s.notices.kinds.length := by
  unfold getResident
  try dsimp only
  repeat' split
  all_goals simp

@[simp] theorem clearKind_noticeCount (i : Nat) (s : State) :
    (clearKind i s).notices.kinds.length = s.notices.kinds.length := by
  unfold clearKind
  simp

@[simp] theorem restartSequencer_noticeCount (s : State) :
    (restartSequencer s).notices.kinds.length = s.notices.kinds.length := by
  unfold restartSequencer
  try dsimp only
  repeat' split
  all_goals simp

@[simp] theorem restartDark_noticeCount (s : State) :
    (restartDark s).notices.kinds.length = s.notices.kinds.length := by
  unfold restartDark
  simp

@[simp] theorem restartCard_noticeCount (s : State) :
    (restartCard s).notices.kinds.length = s.notices.kinds.length := by
  unfold restartCard
  simp

@[simp] theorem clearNotices_noticeCount (s : State) :
    (clearNotices s).notices.kinds.length = s.notices.kinds.length := by
  unfold clearNotices
  simp

@[simp] theorem restartBlocks_noticeCount (s : State) :
    (restartBlocks s).notices.kinds.length = s.notices.kinds.length := by
  unfold restartBlocks
  simp

@[simp] theorem restartStores_noticeCount (s : State) :
    (restartStores s).notices.kinds.length = s.notices.kinds.length := by
  unfold restartStores
  simp

@[simp] theorem restartEnds_noticeCount (s : State) :
    (restartEnds s).notices.kinds.length = s.notices.kinds.length := by
  unfold restartEnds
  try dsimp only
  repeat' split
  all_goals simp

@[simp] theorem restartPart_noticeCount (tag : Nat) (s : State) :
    (restartPart tag s).notices.kinds.length = s.notices.kinds.length := by
  unfold restartPart
  simp

@[simp] theorem headerByte_noticeCount (bytes : List Byte) (s : State) :
    (headerByte bytes s).notices.kinds.length = s.notices.kinds.length := by
  unfold headerByte
  try dsimp only
  repeat' split
  all_goals simp

end Sys2Proof.Machine
end

