-- ==== Sys2Proof/Laws/PartsTables.lean ====
section
/-! SUPPORT. Parts of a block that operations on the block leave as they were: the current roll, the counter, the sensor geometry, and the sizes of the Roll Table and the Shot Table. -/

namespace Sys2Proof.Machine

@[simp] theorem foldl_rollCurrent {α : Type} (f : State → α → State)
    (h : ∀ s a, (f s a).rolls.current = s.rolls.current) :
    ∀ (l : List α) (s : State), (l.foldl f s).rolls.current = s.rolls.current
  | [], _ => rfl
  | a :: l, s => (foldl_rollCurrent f h l (f s a)).trans (h s a)

@[simp] theorem optional_rollCurrent {α : Type} (f : α → State → State) (h : ∀ a s, (f a s).rolls.current = s.rolls.current)
    (o : Option α) (s : State) : ((o.map f).getD id s).rolls.current = s.rolls.current := by
  cases o <;> simp [h]

@[simp] theorem updateRoll_rollCurrent (i : Nat) (f : Roll → Roll) (s : State) :
    (updateRoll i f s).rolls.current = s.rolls.current := by
  unfold updateRoll
  simp

@[simp] theorem stepFrame_rollCurrent (rollSlot : Nat) (roll : Roll) (shot : Nat) (s : State) :
    (stepFrame rollSlot roll shot s).rolls.current = s.rolls.current := by
  unfold stepFrame
  try dsimp only
  repeat' split
  all_goals simp

@[simp] theorem createShot_rollCurrent (k : Start) (rollSlot : Nat) (roll : Roll) (slot : Nat) (c : Nat × Option Nat) (s : State) :
    (createShot k rollSlot roll slot c s).rolls.current = s.rolls.current := by
  unfold createShot
  simp

@[simp] theorem claimStart_rollCurrent (k : Start) (rollSlot : Nat) (roll : Roll) (s : State) :
    (claimStart k rollSlot roll s).2.rolls.current = s.rolls.current := by
  unfold claimStart
  try dsimp only
  repeat' split
  all_goals simp

@[simp] theorem startIdle_rollCurrent (k : Start) (s : State) :
    (startIdle k s).2.rolls.current = s.rolls.current := by
  unfold startIdle
  try dsimp only
  repeat' split
  all_goals simp

@[simp] theorem startDark_rollCurrent (k : Start) (s : State) :
    (startDark k s).2.rolls.current = s.rolls.current := by
  unfold startDark
  try dsimp only
  repeat' split
  all_goals simp

@[simp] theorem decideStart_rollCurrent (k : Start) (s : State) :
    (decideStart k s).2.rolls.current = s.rolls.current := by
  unfold decideStart
  try dsimp only
  repeat' split
  all_goals simp

@[simp] theorem release_rollCurrent (s : State) :
    (release s).rolls.current = s.rolls.current := by
  unfold release
  try dsimp only
  repeat' split
  all_goals simp

@[simp] theorem giveFrameBack_rollCurrent (s : State) :
    (giveFrameBack s).rolls.current = s.rolls.current := by
  unfold giveFrameBack
  try dsimp only
  repeat' split
  all_goals simp

@[simp] theorem removeOpen_rollCurrent (s : State) :
    (removeOpen s).rolls.current = s.rolls.current := by
  unfold removeOpen
  try dsimp only
  repeat' split
  all_goals simp

@[simp] theorem setRollSlot_rollCurrent (i : Nat) (x : RollSlot) (s : State) :
    (setRollSlot i x s).rolls.current = s.rolls.current := by
  unfold setRollSlot
  simp

@[simp] theorem deliver_rollCurrent (i : SyncInput) (level : Contact) (t : Time) (s : State) :
    (deliver i level t s).rolls.current = s.rolls.current := by
  unfold deliver
  try dsimp only
  repeat' split
  all_goals simp

@[simp] theorem qualify_rollCurrent (i : SyncInput) (s : State) :
    (qualify i s).rolls.current = s.rolls.current := by
  unfold qualify
  try dsimp only
  repeat' split
  all_goals simp

@[simp] theorem armExpired_rollCurrent (s : State) :
    (armExpired s).rolls.current = s.rolls.current := by
  unfold armExpired
  try dsimp only
  repeat' split
  all_goals simp

@[simp] theorem settleOpen_rollCurrent (s : State) :
    (settleOpen s).rolls.current = s.rolls.current := by
  unfold settleOpen
  try dsimp only
  repeat' split
  all_goals simp

@[simp] theorem restartSequencer_rollCurrent (s : State) :
    (restartSequencer s).rolls.current = s.rolls.current := by
  unfold restartSequencer
  try dsimp only
  repeat' split
  all_goals simp

@[simp] theorem restartBlocks_rollCurrent (s : State) :
    (restartBlocks s).rolls.current = s.rolls.current := by
  unfold restartBlocks
  simp

@[simp] theorem restartPart_rollCurrent (tag : Nat) (s : State) :
    (restartPart tag s).rolls.current = s.rolls.current := by
  unfold restartPart
  simp

@[simp] theorem foldl_rollCount {α : Type} (f : State → α → State)
    (h : ∀ s a, (f s a).rolls.slots.length = s.rolls.slots.length) :
    ∀ (l : List α) (s : State), (l.foldl f s).rolls.slots.length = s.rolls.slots.length
  | [], _ => rfl
  | a :: l, s => (foldl_rollCount f h l (f s a)).trans (h s a)

@[simp] theorem optional_rollCount {α : Type} (f : α → State → State) (h : ∀ a s, (f a s).rolls.slots.length = s.rolls.slots.length)
    (o : Option α) (s : State) : ((o.map f).getD id s).rolls.slots.length = s.rolls.slots.length := by
  cases o <;> simp [h]

@[simp] theorem updateRoll_rollCount (i : Nat) (f : Roll → Roll) (s : State) :
    (updateRoll i f s).rolls.slots.length = s.rolls.slots.length := by
  unfold updateRoll
  simp

@[simp] theorem stepFrame_rollCount (rollSlot : Nat) (roll : Roll) (shot : Nat) (s : State) :
    (stepFrame rollSlot roll shot s).rolls.slots.length = s.rolls.slots.length := by
  unfold stepFrame
  try dsimp only
  repeat' split
  all_goals simp

@[simp] theorem createShot_rollCount (k : Start) (rollSlot : Nat) (roll : Roll) (slot : Nat) (c : Nat × Option Nat) (s : State) :
    (createShot k rollSlot roll slot c s).rolls.slots.length = s.rolls.slots.length := by
  unfold createShot
  simp

@[simp] theorem claimStart_rollCount (k : Start) (rollSlot : Nat) (roll : Roll) (s : State) :
    (claimStart k rollSlot roll s).2.rolls.slots.length = s.rolls.slots.length := by
  unfold claimStart
  try dsimp only
  repeat' split
  all_goals simp

@[simp] theorem startIdle_rollCount (k : Start) (s : State) :
    (startIdle k s).2.rolls.slots.length = s.rolls.slots.length := by
  unfold startIdle
  try dsimp only
  repeat' split
  all_goals simp

@[simp] theorem startDark_rollCount (k : Start) (s : State) :
    (startDark k s).2.rolls.slots.length = s.rolls.slots.length := by
  unfold startDark
  try dsimp only
  repeat' split
  all_goals simp

@[simp] theorem decideStart_rollCount (k : Start) (s : State) :
    (decideStart k s).2.rolls.slots.length = s.rolls.slots.length := by
  unfold decideStart
  try dsimp only
  repeat' split
  all_goals simp

@[simp] theorem release_rollCount (s : State) :
    (release s).rolls.slots.length = s.rolls.slots.length := by
  unfold release
  try dsimp only
  repeat' split
  all_goals simp

@[simp] theorem giveFrameBack_rollCount (s : State) :
    (giveFrameBack s).rolls.slots.length = s.rolls.slots.length := by
  unfold giveFrameBack
  try dsimp only
  repeat' split
  all_goals simp

@[simp] theorem removeOpen_rollCount (s : State) :
    (removeOpen s).rolls.slots.length = s.rolls.slots.length := by
  unfold removeOpen
  try dsimp only
  repeat' split
  all_goals simp

@[simp] theorem setRollSlot_rollCount (i : Nat) (x : RollSlot) (s : State) :
    (setRollSlot i x s).rolls.slots.length = s.rolls.slots.length := by
  unfold setRollSlot
  simp

@[simp] theorem setCurrent_rollCount (i : Option Nat) (s : State) :
    (setCurrent i s).rolls.slots.length = s.rolls.slots.length := by
  unfold setCurrent
  simp

@[simp] theorem closeRoll_rollCount (i : Nat) (r : Roll) (s : State) :
    (closeRoll i r s).rolls.slots.length = s.rolls.slots.length := by
  unfold closeRoll
  try dsimp only
  repeat' split
  all_goals simp

@[simp] theorem deliver_rollCount (i : SyncInput) (level : Contact) (t : Time) (s : State) :
    (deliver i level t s).rolls.slots.length = s.rolls.slots.length := by
  unfold deliver
  try dsimp only
  repeat' split
  all_goals simp

@[simp] theorem qualify_rollCount (i : SyncInput) (s : State) :
    (qualify i s).rolls.slots.length = s.rolls.slots.length := by
  unfold qualify
  try dsimp only
  repeat' split
  all_goals simp

@[simp] theorem armExpired_rollCount (s : State) :
    (armExpired s).rolls.slots.length = s.rolls.slots.length := by
  unfold armExpired
  try dsimp only
  repeat' split
  all_goals simp

@[simp] theorem settleOpen_rollCount (s : State) :
    (settleOpen s).rolls.slots.length = s.rolls.slots.length := by
  unfold settleOpen
  try dsimp only
  repeat' split
  all_goals simp

@[simp] theorem restartSequencer_rollCount (s : State) :
    (restartSequencer s).rolls.slots.length = s.rolls.slots.length := by
  unfold restartSequencer
  try dsimp only
  repeat' split
  all_goals simp

@[simp] theorem restartBlocks_rollCount (s : State) :
    (restartBlocks s).rolls.slots.length = s.rolls.slots.length := by
  unfold restartBlocks
  simp

@[simp] theorem restartPart_rollCount (tag : Nat) (s : State) :
    (restartPart tag s).rolls.slots.length = s.rolls.slots.length := by
  unfold restartPart
  simp

@[simp] theorem foldl_counter {α : Type} (f : State → α → State)
    (h : ∀ s a, (f s a).table.counter = s.table.counter) :
    ∀ (l : List α) (s : State), (l.foldl f s).table.counter = s.table.counter
  | [], _ => rfl
  | a :: l, s => (foldl_counter f h l (f s a)).trans (h s a)

@[simp] theorem optional_counter {α : Type} (f : α → State → State) (h : ∀ a s, (f a s).table.counter = s.table.counter)
    (o : Option α) (s : State) : ((o.map f).getD id s).table.counter = s.table.counter := by
  cases o <;> simp [h]

@[simp] theorem updateRecord_counter (n : Nat) (f : Record → Record) (s : State) :
    (updateRecord n f s).table.counter = s.table.counter := by
  unfold updateRecord
  simp

@[simp] theorem updateRecords_counter (f : Record → Record) (s : State) :
    (updateRecords f s).table.counter = s.table.counter := by
  unfold updateRecords
  simp

@[simp] theorem setSlot_counter (i : Nat) (x : RecordSlot) (s : State) :
    (setSlot i x s).table.counter = s.table.counter := by
  unfold setSlot
  simp

@[simp] theorem leaveUseOrder_counter (i : Nat) (s : State) :
    (leaveUseOrder i s).table.counter = s.table.counter := by
  unfold leaveUseOrder
  simp

@[simp] theorem touchSlot_counter (i : Nat) (s : State) :
    (touchSlot i s).table.counter = s.table.counter := by
  unfold touchSlot
  simp

@[simp] theorem touchRecord_counter (n : Nat) (s : State) :
    (touchRecord n s).table.counter = s.table.counter := by
  unfold touchRecord
  try dsimp only
  repeat' split
  all_goals simp

@[simp] theorem leaveAmended_counter (n : Nat) (s : State) :
    (leaveAmended n s).table.counter = s.table.counter := by
  unfold leaveAmended
  simp

@[simp] theorem removeRecord_counter (n : Nat) (s : State) :
    (removeRecord n s).table.counter = s.table.counter := by
  unfold removeRecord
  try dsimp only
  repeat' split
  all_goals simp

@[simp] theorem settle_counter (n : Nat) (s : State) :
    (settle n s).table.counter = s.table.counter := by
  unfold settle
  try dsimp only
  repeat' split
  all_goals simp

@[simp] theorem removeJobs_counter (n : Nat) (result : ResultCode) (s : State) :
    (removeJobs n result s).table.counter = s.table.counter := by
  unfold removeJobs
  try dsimp only
  repeat' split
  all_goals simp

@[simp] theorem linkShot_counter (e : Nat) (s : State) (n : Nat) :
    (linkShot e s n).table.counter = s.table.counter := by
  unfold linkShot
  try dsimp only
  repeat' split
  all_goals simp

@[simp] theorem matchShot_counter (s : State) (n : Nat) :
    (matchShot s n).table.counter = s.table.counter := by
  unfold matchShot
  try dsimp only
  repeat' split
  all_goals simp

@[simp] theorem linkIfFits_counter (e : Nat) (s : State) (n : Nat) :
    (linkIfFits e s n).table.counter = s.table.counter := by
  unfold linkIfFits
  try dsimp only
  repeat' split
  all_goals simp

@[simp] theorem planRounds_counter (fuel : Nat) (s : State) :
    (planRounds fuel s).table.counter = s.table.counter := by
  induction fuel generalizing s with
  | zero => simp [planRounds]
  | succ n ih => unfold planRounds; repeat' split
                 all_goals simp [ih]

@[simp] theorem matchingPass_counter (s : State) :
    (matchingPass s).table.counter = s.table.counter := by
  unfold matchingPass
  try dsimp only
  repeat' split
  all_goals simp

@[simp] theorem unlinkFailed_counter (s : State) (n : Nat) :
    (unlinkFailed s n).table.counter = s.table.counter := by
  unfold unlinkFailed
  try dsimp only
  repeat' split
  all_goals simp

@[simp] theorem afterUnlink_counter (e : Nat) (s : State) :
    (afterUnlink e s).table.counter = s.table.counter := by
  unfold afterUnlink
  try dsimp only
  repeat' split
  all_goals simp

@[simp] theorem giveUpDark_counter (n : Nat) (s : State) :
    (giveUpDark n s).table.counter = s.table.counter := by
  unfold giveUpDark
  try dsimp only
  repeat' split
  all_goals simp

@[simp] theorem failEntry_counter (e : Nat) (s : State) :
    (failEntry e s).table.counter = s.table.counter := by
  unfold failEntry
  simp

@[simp] theorem abandonDark_counter (s : State) :
    (abandonDark s).table.counter = s.table.counter := by
  unfold abandonDark
  try dsimp only
  repeat' split
  all_goals simp

@[simp] theorem finishDark_counter (temperature : Int) (s : State) :
    (finishDark temperature s).table.counter = s.table.counter := by
  unfold finishDark
  try dsimp only
  repeat' split
  all_goals simp

@[simp] theorem markTaken_counter (n : Nat) (s : State) :
    (markTaken n s).table.counter = s.table.counter := by
  unfold markTaken
  simp

@[simp] theorem startDeveloped_counter (h : Handoff) (s : State) :
    (startDeveloped h s).table.counter = s.table.counter := by
  unfold startDeveloped
  try dsimp only
  repeat' split
  all_goals simp

@[simp] theorem startRaw_counter (r : Record) (s : State) :
    (startRaw r s).table.counter = s.table.counter := by
  unfold startRaw
  try dsimp only
  repeat' split
  all_goals simp

@[simp] theorem startEntry_counter (e : EntryWork) (s : State) :
    (startEntry e s).table.counter = s.table.counter := by
  unfold startEntry
  try dsimp only
  repeat' split
  all_goals simp

@[simp] theorem takeChoice_counter (c : Choice) (s : State) :
    (takeChoice c s).table.counter = s.table.counter := by
  unfold takeChoice
  try dsimp only
  repeat' split
  all_goals simp

@[simp] theorem chooseWork_counter (fuel : Nat) (s : State) :
    (chooseWork fuel s).table.counter = s.table.counter := by
  induction fuel generalizing s with
  | zero => simp [chooseWork]
  | succ n ih => unfold chooseWork; repeat' split
                 all_goals simp [ih]

@[simp] theorem startCardWork_counter (s : State) :
    (startCardWork s).table.counter = s.table.counter := by
  unfold startCardWork
  try dsimp only
  repeat' split
  all_goals simp

@[simp] theorem failLoad_counter (result : ResultCode) (s : State) (n : Nat) :
    (failLoad result s n).table.counter = s.table.counter := by
  unfold failLoad
  try dsimp only
  repeat' split
  all_goals simp

@[simp] theorem refuseReads_counter (rs : List CardRead) (result : ResultCode) (s : State) :
    (refuseReads rs result s).table.counter = s.table.counter := by
  unfold refuseReads
  try dsimp only
  repeat' split
  all_goals simp

@[simp] theorem failAllLoads_counter (result : ResultCode) (s : State) :
    (failAllLoads result s).table.counter = s.table.counter := by
  unfold failAllLoads
  simp

@[simp] theorem endReads_counter (result : ResultCode) (s : State) :
    (endReads result s).table.counter = s.table.counter := by
  unfold endReads
  try dsimp only
  repeat' split
  all_goals simp

@[simp] theorem returnRecords_counter (goes : Record → Bool) (s : State) :
    (returnRecords goes s).table.counter = s.table.counter := by
  unfold returnRecords
  simp

@[simp] theorem returnHeld_counter (s : State) :
    (returnHeld s).table.counter = s.table.counter := by
  unfold returnHeld
  simp

@[simp] theorem dropRecord_counter (s : State) (n : Nat) :
    (dropRecord s n).table.counter = s.table.counter := by
  unfold dropRecord
  simp

@[simp] theorem dropSettled_counter (s : State) :
    (dropSettled s).table.counter = s.table.counter := by
  unfold dropSettled
  simp

@[simp] theorem finishDrain_counter (s : State) :
    (finishDrain s).table.counter = s.table.counter := by
  unfold finishDrain
  simp

@[simp] theorem serveBlocks_counter (s : State) :
    (serveBlocks s).table.counter = s.table.counter := by
  unfold serveBlocks
  simp

@[simp] theorem service_counter (s : State) :
    (service s).table.counter = s.table.counter := by
  unfold service
  try dsimp only
  repeat' split
  all_goals simp

@[simp] theorem enterRunning_counter (s : State) :
    (enterRunning s).table.counter = s.table.counter := by
  unfold enterRunning
  simp

@[simp] theorem evictSlot_counter (i : Nat) (s : State) :
    (evictSlot i s).table.counter = s.table.counter := by
  unfold evictSlot
  try dsimp only
  repeat' split
  all_goals simp

@[simp] theorem updateOpen_counter (f : Record → Record) (s : State) :
    (updateOpen f s).table.counter = s.table.counter := by
  unfold updateOpen
  try dsimp only
  repeat' split
  all_goals simp

@[simp] theorem updateEntry_counter (f : ExpEntry → ExpEntry) (s : State) :
    (updateEntry f s).table.counter = s.table.counter := by
  unfold updateEntry
  simp

@[simp] theorem passAfterReclaim_counter (c : Nat × Option Nat) (s : State) :
    (passAfterReclaim c s).table.counter = s.table.counter := by
  unfold passAfterReclaim
  try dsimp only
  repeat' split
  all_goals simp

@[simp] theorem openEntry_counter (t : Time) (s : State) :
    (openEntry t s).table.counter = s.table.counter := by
  unfold openEntry
  try dsimp only
  repeat' split
  all_goals simp

@[simp] theorem openTimed_counter (duration : Nat) (s : State) :
    (openTimed duration s).table.counter = s.table.counter := by
  unfold openTimed
  simp

@[simp] theorem beginExposure_counter (k : Start) (roll : Roll) (s : State) :
    (beginExposure k roll s).table.counter = s.table.counter := by
  unfold beginExposure
  try dsimp only
  repeat' split
  all_goals simp

@[simp] theorem nextExposure_counter (k : Start) (roll : Roll) (s : State) :
    (nextExposure k roll s).table.counter = s.table.counter := by
  unfold nextExposure
  simp

@[simp] theorem startStack_counter (k : Start) (s : State) :
    (startStack k s).2.table.counter = s.table.counter := by
  unfold startStack
  try dsimp only
  repeat' split
  all_goals simp

@[simp] theorem holdShot_counter (s : State) :
    (holdShot s).table.counter = s.table.counter := by
  unfold holdShot
  simp

@[simp] theorem finishShot_counter (s : State) :
    (finishShot s).table.counter = s.table.counter := by
  unfold finishShot
  try dsimp only
  repeat' split
  all_goals simp

@[simp] theorem removeOpen_counter (s : State) :
    (removeOpen s).table.counter = s.table.counter := by
  unfold removeOpen
  try dsimp only
  repeat' split
  all_goals simp

@[simp] theorem closeEntry_counter (t : Time) (source : TimeSource) (cause : EndingCause) (truncated : Bool) (s : State) :
    (closeEntry t source cause truncated s).table.counter = s.table.counter := by
  unfold closeEntry
  simp

@[simp] theorem openBySync_counter (t : Time) (roll : Roll) (s : State) :
    (openBySync t roll s).table.counter = s.table.counter := by
  unfold openBySync
  simp

@[simp] theorem reopen_counter (s : State) :
    (reopen s).table.counter = s.table.counter := by
  unfold reopen
  simp

@[simp] theorem xsyncClose_counter (t : Time) (s : State) :
    (xsyncClose t s).table.counter = s.table.counter := by
  unfold xsyncClose
  try dsimp only
  repeat' split
  all_goals simp

@[simp] theorem xsyncOpening_counter (t : Time) (s : State) :
    (xsyncOpening t s).table.counter = s.table.counter := by
  unfold xsyncOpening
  try dsimp only
  repeat' split
  all_goals simp

@[simp] theorem auxEnd_counter (t : Time) (s : State) :
    (auxEnd t s).table.counter = s.table.counter := by
  unfold auxEnd
  try dsimp only
  repeat' split
  all_goals simp

@[simp] theorem goodReadout_counter (temperature : Int) (s : State) :
    (goodReadout temperature s).table.counter = s.table.counter := by
  unfold goodReadout
  try dsimp only
  repeat' split
  all_goals simp

@[simp] theorem voidShot_counter (s : State) :
    (voidShot s).table.counter = s.table.counter := by
  unfold voidShot
  try dsimp only
  repeat' split
  all_goals simp

@[simp] theorem failedReadout_counter (s : State) :
    (failedReadout s).table.counter = s.table.counter := by
  unfold failedReadout
  try dsimp only
  repeat' split
  all_goals simp

@[simp] theorem failedDark_counter (s : State) :
    (failedDark s).table.counter = s.table.counter := by
  unfold failedDark
  simp

@[simp] theorem lookupResident_counter (tag : Nat) (r : Record) (s : State) :
    (lookupResident tag r s).table.counter = s.table.counter := by
  unfold lookupResident
  simp

@[simp] theorem makeDirty_counter (n : Nat) (s : State) :
    (makeDirty n s).table.counter = s.table.counter := by
  unfold makeDirty
  simp

@[simp] theorem applyAmend_counter (r : Record) (o : AmendOperands) (s : State) :
    (applyAmend r o s).table.counter = s.table.counter := by
  unfold applyAmend
  try dsimp only
  repeat' split
  all_goals simp

@[simp] theorem amendResident_counter (tag : Nat) (r : Record) (o : AmendOperands) (s : State) :
    (amendResident tag r o s).table.counter = s.table.counter := by
  unfold amendResident
  try dsimp only
  repeat' split
  all_goals simp

@[simp] theorem requestEnded_counter (e : Nat) (s : State) :
    (requestEnded e s).table.counter = s.table.counter := by
  unfold requestEnded
  try dsimp only
  repeat' split
  all_goals simp

@[simp] theorem leaveDarkUnit_counter (n : Nat) (link : DarkLink) (s : State) :
    (leaveDarkUnit n link s).table.counter = s.table.counter := by
  unfold leaveDarkUnit
  try dsimp only
  repeat' split
  all_goals simp

@[simp] theorem takeFromBlocks_counter (r : Record) (s : State) :
    (takeFromBlocks r s).table.counter = s.table.counter := by
  unfold takeFromBlocks
  simp

@[simp] theorem endRetirement_counter (result : ResultCode) (s : State) (n : Nat) :
    (endRetirement result s n).table.counter = s.table.counter := by
  unfold endRetirement
  simp

@[simp] theorem continueRetirement_counter (r : Record) (s : State) :
    (continueRetirement r s).table.counter = s.table.counter := by
  unfold continueRetirement
  try dsimp only
  repeat' split
  all_goals simp

@[simp] theorem acceptRetire_counter (tag : Nat) (r : Record) (s : State) :
    (acceptRetire tag r s).table.counter = s.table.counter := by
  unfold acceptRetire
  simp

@[simp] theorem retireResident_counter (tag : Nat) (r : Record) (s : State) :
    (retireResident tag r s).table.counter = s.table.counter := by
  unfold retireResident
  try dsimp only
  repeat' split
  all_goals simp

@[simp] theorem onResident_counter (tag : Nat) (q : LoadRequest) (r : Record) (s : State) :
    (onResident tag q r s).table.counter = s.table.counter := by
  unfold onResident
  try dsimp only
  repeat' split
  all_goals simp

@[simp] theorem joinLoad_counter (n : Nat) (w : LoadWaiter) (s : State) :
    (joinLoad n w s).table.counter = s.table.counter := by
  unfold joinLoad
  simp

@[simp] theorem startLoad_counter (i n slot : Nat) (w : LoadWaiter) (s : State) :
    (startLoad i n slot w s).table.counter = s.table.counter := by
  unfold startLoad
  simp

@[simp] theorem requestLoad_counter (tag n : Nat) (q : LoadRequest) (s : State) :
    (requestLoad tag n q s).table.counter = s.table.counter := by
  unfold requestLoad
  try dsimp only
  repeat' split
  all_goals simp

@[simp] theorem onShot_counter (tag n : Nat) (q : LoadRequest) (s : State) :
    (onShot tag n q s).table.counter = s.table.counter := by
  unfold onShot
  try dsimp only
  repeat' split
  all_goals simp

@[simp] theorem proceed_counter (n : Nat) (s : State) (w : LoadWaiter) :
    (proceed n s w).table.counter = s.table.counter := by
  unfold proceed
  try dsimp only
  repeat' split
  all_goals simp

@[simp] theorem completeLoad_counter (n slot : Nat) (block : List Byte) (s : State) :
    (completeLoad n slot block s).table.counter = s.table.counter := by
  unfold completeLoad
  try dsimp only
  repeat' split
  all_goals simp

@[simp] theorem damageLoad_counter (n slot : Nat) (s : State) :
    (damageLoad n slot s).table.counter = s.table.counter := by
  unfold damageLoad
  simp

@[simp] theorem loadDone_counter (n slot : Nat) (block : List Byte) (s : State) :
    (loadDone n slot block s).table.counter = s.table.counter := by
  unfold loadDone
  try dsimp only
  repeat' split
  all_goals simp

@[simp] theorem renumberTo_counter (old new : Nat) (s : State) :
    (renumberTo old new s).table.counter = s.table.counter := by
  unfold renumberTo
  simp

@[simp] theorem endRetirements_counter (s : State) :
    (endRetirements s).table.counter = s.table.counter := by
  unfold endRetirements
  simp

@[simp] theorem failWaitingLoads_counter (result : ResultCode) (s : State) :
    (failWaitingLoads result s).table.counter = s.table.counter := by
  unfold failWaitingLoads
  simp

@[simp] theorem clearForFormat_counter (s : State) :
    (clearForFormat s).table.counter = s.table.counter := by
  unfold clearForFormat
  simp

@[simp] theorem endForFormat_counter (volumeId : Nat) (s : State) :
    (endForFormat volumeId s).table.counter = s.table.counter := by
  unfold endForFormat
  simp

@[simp] theorem awaitBus_counter (volumeId : Nat) (s : State) :
    (awaitBus volumeId s).table.counter = s.table.counter := by
  unfold awaitBus
  try dsimp only
  repeat' split
  all_goals simp

@[simp] theorem beginFormat_counter (tag : Nat) (s : State) :
    (beginFormat tag s).table.counter = s.table.counter := by
  unfold beginFormat
  try dsimp only
  repeat' split
  all_goals simp

@[simp] theorem endRetiredRaw_counter (n : Nat) (s : State) :
    (endRetiredRaw n s).table.counter = s.table.counter := by
  unfold endRetiredRaw
  simp

@[simp] theorem endStoppedDeveloped_counter (n : Nat) (runs : List Run) (s : State) :
    (endStoppedDeveloped n runs s).table.counter = s.table.counter := by
  unfold endStoppedDeveloped
  simp

@[simp] theorem failRaws_counter (s : State) :
    (failRaws s).table.counter = s.table.counter := by
  unfold failRaws
  try dsimp only
  repeat' split
  all_goals simp

@[simp] theorem failDeveloped_counter (s : State) :
    (failDeveloped s).table.counter = s.table.counter := by
  unfold failDeveloped
  try dsimp only
  repeat' split
  all_goals simp

@[simp] theorem untake_counter (s : State) :
    (untake s).table.counter = s.table.counter := by
  unfold untake
  simp

@[simp] theorem cardFault_counter (s : State) :
    (cardFault s).table.counter = s.table.counter := by
  unfold cardFault
  simp

@[simp] theorem orphanAnswered_counter (s : State) :
    (orphanAnswered s).table.counter = s.table.counter := by
  unfold orphanAnswered
  try dsimp only
  repeat' split
  all_goals simp

theorem stopAtAnswer_counter {s t : State} (h : stopAtAnswer s = some t) : t.table.counter = s.table.counter := by
  unfold stopAtAnswer at h
  split at h
  · cases h; simp
  · split at h
    · cases h; simp
    · cases h
  · cases h; simp
  · cases h

@[simp] theorem answeredError_counter (s : State) :
    (answeredError s).table.counter = s.table.counter := by
  unfold answeredError
  repeat' split
  any_goals simp
  next h => simp [stopAtAnswer_counter h]

@[simp] theorem answeredOk_counter (g : State → State) (h : ∀ s, (g s).table.counter = s.table.counter) (s : State) :
    (answeredOk g s).table.counter = s.table.counter := by
  unfold answeredOk
  repeat' split
  any_goals simp [h]
  next h => simp [stopAtAnswer_counter h]

@[simp] theorem endCardWork_counter (s : State) :
    (endCardWork s).table.counter = s.table.counter := by
  unfold endCardWork
  simp

@[simp] theorem removeCard_counter (s : State) :
    (removeCard s).table.counter = s.table.counter := by
  unfold removeCard
  simp

@[simp] theorem endRawData_counter (n : Nat) (s : State) :
    (endRawData n s).table.counter = s.table.counter := by
  unfold endRawData
  try dsimp only
  repeat' split
  all_goals simp

@[simp] theorem resolveTaken_counter (n : Nat) (s : State) :
    (resolveTaken n s).table.counter = s.table.counter := by
  unfold resolveTaken
  try dsimp only
  repeat' split
  all_goals simp

@[simp] theorem entryWritten_counter (n slot : Nat) (s : State) :
    (entryWritten n slot s).table.counter = s.table.counter := by
  unfold entryWritten
  try dsimp only
  repeat' split
  all_goals simp

@[simp] theorem developedWritten_counter (h : Handoff) (runs : List Run) (s : State) :
    (developedWritten h runs s).table.counter = s.table.counter := by
  unfold developedWritten
  dsimp only
  split <;> simp [-Option.map_bind, -Option.map_map]

@[simp] theorem emptied_counter (n : Nat) (s : State) :
    (emptied n s).table.counter = s.table.counter := by
  unfold emptied
  try dsimp only
  repeat' split
  all_goals simp

@[simp] theorem acceptEject_counter (tag : Nat) (s : State) :
    (acceptEject tag s).table.counter = s.table.counter := by
  unfold acceptEject
  simp

@[simp] theorem armExpired_counter (s : State) :
    (armExpired s).table.counter = s.table.counter := by
  unfold armExpired
  try dsimp only
  repeat' split
  all_goals simp

@[simp] theorem maxOpenExpired_counter (t : Time) (s : State) :
    (maxOpenExpired t s).table.counter = s.table.counter := by
  unfold maxOpenExpired
  try dsimp only
  repeat' split
  all_goals simp

@[simp] theorem settleExpired_counter (s : State) :
    (settleExpired s).table.counter = s.table.counter := by
  unfold settleExpired
  simp

@[simp] theorem setGeometry_counter (columns rows : Nat) (s : State) :
    (setGeometry columns rows s).table.counter = s.table.counter := by
  unfold setGeometry
  simp

@[simp] theorem afterAccumulate_counter (s : State) :
    (afterAccumulate s).table.counter = s.table.counter := by
  unfold afterAccumulate
  try dsimp only
  repeat' split
  all_goals simp

@[simp] theorem darkApplied_counter (q : PauRequest) (e : Nat) (s : State) :
    (darkApplied q e s).table.counter = s.table.counter := by
  unfold darkApplied
  try dsimp only
  repeat' split
  all_goals simp

@[simp] theorem completeJob_counter (j : Job) (h : RunHolds) (s : State) :
    (completeJob j h s).table.counter = s.table.counter := by
  unfold completeJob
  try dsimp only
  repeat' split
  all_goals simp

@[simp] theorem developResident_counter (tag : Nat) (k : JobKind) (priority : Nat) (r : Record) (s : State) :
    (developResident tag k priority r s).table.counter = s.table.counter := by
  unfold developResident
  try dsimp only
  repeat' split
  all_goals simp

@[simp] theorem getResident_counter (tag : Nat) (r : Record) (s : State) :
    (getResident tag r s).table.counter = s.table.counter := by
  unfold getResident
  try dsimp only
  repeat' split
  all_goals simp

@[simp] theorem settleOpen_counter (s : State) :
    (settleOpen s).table.counter = s.table.counter := by
  unfold settleOpen
  try dsimp only
  repeat' split
  all_goals simp

@[simp] theorem restartSequencer_counter (s : State) :
    (restartSequencer s).table.counter = s.table.counter := by
  unfold restartSequencer
  try dsimp only
  repeat' split
  all_goals simp

@[simp] theorem restartDark_counter (s : State) :
    (restartDark s).table.counter = s.table.counter := by
  unfold restartDark
  simp

@[simp] theorem restartDev_counter (s : State) :
    (restartDev s).table.counter = s.table.counter := by
  unfold restartDev
  simp

@[simp] theorem discardRecord_counter (s : State) (n : Nat) :
    (discardRecord s n).table.counter = s.table.counter := by
  unfold discardRecord
  simp

@[simp] theorem discardLoads_counter (s : State) :
    (discardLoads s).table.counter = s.table.counter := by
  unfold discardLoads
  simp

@[simp] theorem restartCardWork_counter (s : State) :
    (restartCardWork s).table.counter = s.table.counter := by
  unfold restartCardWork
  simp

@[simp] theorem restartCard_counter (s : State) :
    (restartCard s).table.counter = s.table.counter := by
  unfold restartCard
  simp

@[simp] theorem restartBlocks_counter (s : State) :
    (restartBlocks s).table.counter = s.table.counter := by
  unfold restartBlocks
  simp

@[simp] theorem restartStores_counter (s : State) :
    (restartStores s).table.counter = s.table.counter := by
  unfold restartStores
  simp

@[simp] theorem restartEnds_counter (s : State) :
    (restartEnds s).table.counter = s.table.counter := by
  unfold restartEnds
  try dsimp only
  repeat' split
  all_goals simp

@[simp] theorem restartPart_counter (tag : Nat) (s : State) :
    (restartPart tag s).table.counter = s.table.counter := by
  unfold restartPart
  simp

@[simp] theorem foldl_slotCount {α : Type} (f : State → α → State)
    (h : ∀ s a, (f s a).table.slots.length = s.table.slots.length) :
    ∀ (l : List α) (s : State), (l.foldl f s).table.slots.length = s.table.slots.length
  | [], _ => rfl
  | a :: l, s => (foldl_slotCount f h l (f s a)).trans (h s a)

@[simp] theorem optional_slotCount {α : Type} (f : α → State → State) (h : ∀ a s, (f a s).table.slots.length = s.table.slots.length)
    (o : Option α) (s : State) : ((o.map f).getD id s).table.slots.length = s.table.slots.length := by
  cases o <;> simp [h]

@[simp] theorem updateRecord_slotCount (n : Nat) (f : Record → Record) (s : State) :
    (updateRecord n f s).table.slots.length = s.table.slots.length := by
  unfold updateRecord
  simp

@[simp] theorem updateRecords_slotCount (f : Record → Record) (s : State) :
    (updateRecords f s).table.slots.length = s.table.slots.length := by
  unfold updateRecords
  simp

@[simp] theorem setSlot_slotCount (i : Nat) (x : RecordSlot) (s : State) :
    (setSlot i x s).table.slots.length = s.table.slots.length := by
  unfold setSlot
  simp

@[simp] theorem leaveUseOrder_slotCount (i : Nat) (s : State) :
    (leaveUseOrder i s).table.slots.length = s.table.slots.length := by
  unfold leaveUseOrder
  simp

@[simp] theorem touchSlot_slotCount (i : Nat) (s : State) :
    (touchSlot i s).table.slots.length = s.table.slots.length := by
  unfold touchSlot
  simp

@[simp] theorem touchRecord_slotCount (n : Nat) (s : State) :
    (touchRecord n s).table.slots.length = s.table.slots.length := by
  unfold touchRecord
  try dsimp only
  repeat' split
  all_goals simp

@[simp] theorem leaveAmended_slotCount (n : Nat) (s : State) :
    (leaveAmended n s).table.slots.length = s.table.slots.length := by
  unfold leaveAmended
  simp

@[simp] theorem removeRecord_slotCount (n : Nat) (s : State) :
    (removeRecord n s).table.slots.length = s.table.slots.length := by
  unfold removeRecord
  try dsimp only
  repeat' split
  all_goals simp

@[simp] theorem settle_slotCount (n : Nat) (s : State) :
    (settle n s).table.slots.length = s.table.slots.length := by
  unfold settle
  try dsimp only
  repeat' split
  all_goals simp

@[simp] theorem removeJobs_slotCount (n : Nat) (result : ResultCode) (s : State) :
    (removeJobs n result s).table.slots.length = s.table.slots.length := by
  unfold removeJobs
  try dsimp only
  repeat' split
  all_goals simp

@[simp] theorem linkShot_slotCount (e : Nat) (s : State) (n : Nat) :
    (linkShot e s n).table.slots.length = s.table.slots.length := by
  unfold linkShot
  try dsimp only
  repeat' split
  all_goals simp

@[simp] theorem matchShot_slotCount (s : State) (n : Nat) :
    (matchShot s n).table.slots.length = s.table.slots.length := by
  unfold matchShot
  try dsimp only
  repeat' split
  all_goals simp

@[simp] theorem linkIfFits_slotCount (e : Nat) (s : State) (n : Nat) :
    (linkIfFits e s n).table.slots.length = s.table.slots.length := by
  unfold linkIfFits
  try dsimp only
  repeat' split
  all_goals simp

@[simp] theorem planRounds_slotCount (fuel : Nat) (s : State) :
    (planRounds fuel s).table.slots.length = s.table.slots.length := by
  induction fuel generalizing s with
  | zero => simp [planRounds]
  | succ n ih => unfold planRounds; repeat' split
                 all_goals simp [ih]

@[simp] theorem matchingPass_slotCount (s : State) :
    (matchingPass s).table.slots.length = s.table.slots.length := by
  unfold matchingPass
  try dsimp only
  repeat' split
  all_goals simp

@[simp] theorem unlinkFailed_slotCount (s : State) (n : Nat) :
    (unlinkFailed s n).table.slots.length = s.table.slots.length := by
  unfold unlinkFailed
  try dsimp only
  repeat' split
  all_goals simp

@[simp] theorem afterUnlink_slotCount (e : Nat) (s : State) :
    (afterUnlink e s).table.slots.length = s.table.slots.length := by
  unfold afterUnlink
  try dsimp only
  repeat' split
  all_goals simp

@[simp] theorem giveUpDark_slotCount (n : Nat) (s : State) :
    (giveUpDark n s).table.slots.length = s.table.slots.length := by
  unfold giveUpDark
  try dsimp only
  repeat' split
  all_goals simp

@[simp] theorem failEntry_slotCount (e : Nat) (s : State) :
    (failEntry e s).table.slots.length = s.table.slots.length := by
  unfold failEntry
  simp

@[simp] theorem abandonDark_slotCount (s : State) :
    (abandonDark s).table.slots.length = s.table.slots.length := by
  unfold abandonDark
  try dsimp only
  repeat' split
  all_goals simp

@[simp] theorem finishDark_slotCount (temperature : Int) (s : State) :
    (finishDark temperature s).table.slots.length = s.table.slots.length := by
  unfold finishDark
  try dsimp only
  repeat' split
  all_goals simp

@[simp] theorem markTaken_slotCount (n : Nat) (s : State) :
    (markTaken n s).table.slots.length = s.table.slots.length := by
  unfold markTaken
  simp

@[simp] theorem startDeveloped_slotCount (h : Handoff) (s : State) :
    (startDeveloped h s).table.slots.length = s.table.slots.length := by
  unfold startDeveloped
  try dsimp only
  repeat' split
  all_goals simp

@[simp] theorem startRaw_slotCount (r : Record) (s : State) :
    (startRaw r s).table.slots.length = s.table.slots.length := by
  unfold startRaw
  try dsimp only
  repeat' split
  all_goals simp

@[simp] theorem startEntry_slotCount (e : EntryWork) (s : State) :
    (startEntry e s).table.slots.length = s.table.slots.length := by
  unfold startEntry
  try dsimp only
  repeat' split
  all_goals simp

@[simp] theorem takeChoice_slotCount (c : Choice) (s : State) :
    (takeChoice c s).table.slots.length = s.table.slots.length := by
  unfold takeChoice
  try dsimp only
  repeat' split
  all_goals simp

@[simp] theorem chooseWork_slotCount (fuel : Nat) (s : State) :
    (chooseWork fuel s).table.slots.length = s.table.slots.length := by
  induction fuel generalizing s with
  | zero => simp [chooseWork]
  | succ n ih => unfold chooseWork; repeat' split
                 all_goals simp [ih]

@[simp] theorem startCardWork_slotCount (s : State) :
    (startCardWork s).table.slots.length = s.table.slots.length := by
  unfold startCardWork
  try dsimp only
  repeat' split
  all_goals simp

@[simp] theorem failLoad_slotCount (result : ResultCode) (s : State) (n : Nat) :
    (failLoad result s n).table.slots.length = s.table.slots.length := by
  unfold failLoad
  try dsimp only
  repeat' split
  all_goals simp

@[simp] theorem refuseReads_slotCount (rs : List CardRead) (result : ResultCode) (s : State) :
    (refuseReads rs result s).table.slots.length = s.table.slots.length := by
  unfold refuseReads
  try dsimp only
  repeat' split
  all_goals simp

@[simp] theorem failAllLoads_slotCount (result : ResultCode) (s : State) :
    (failAllLoads result s).table.slots.length = s.table.slots.length := by
  unfold failAllLoads
  simp

@[simp] theorem endReads_slotCount (result : ResultCode) (s : State) :
    (endReads result s).table.slots.length = s.table.slots.length := by
  unfold endReads
  try dsimp only
  repeat' split
  all_goals simp

@[simp] theorem returnRecords_slotCount (goes : Record → Bool) (s : State) :
    (returnRecords goes s).table.slots.length = s.table.slots.length := by
  unfold returnRecords
  simp

@[simp] theorem returnHeld_slotCount (s : State) :
    (returnHeld s).table.slots.length = s.table.slots.length := by
  unfold returnHeld
  simp

@[simp] theorem dropRecord_slotCount (s : State) (n : Nat) :
    (dropRecord s n).table.slots.length = s.table.slots.length := by
  unfold dropRecord
  simp

@[simp] theorem dropSettled_slotCount (s : State) :
    (dropSettled s).table.slots.length = s.table.slots.length := by
  unfold dropSettled
  simp

@[simp] theorem finishDrain_slotCount (s : State) :
    (finishDrain s).table.slots.length = s.table.slots.length := by
  unfold finishDrain
  simp

@[simp] theorem serveBlocks_slotCount (s : State) :
    (serveBlocks s).table.slots.length = s.table.slots.length := by
  unfold serveBlocks
  simp

@[simp] theorem service_slotCount (s : State) :
    (service s).table.slots.length = s.table.slots.length := by
  unfold service
  try dsimp only
  repeat' split
  all_goals simp

@[simp] theorem enterRunning_slotCount (s : State) :
    (enterRunning s).table.slots.length = s.table.slots.length := by
  unfold enterRunning
  simp

@[simp] theorem evictSlot_slotCount (i : Nat) (s : State) :
    (evictSlot i s).table.slots.length = s.table.slots.length := by
  unfold evictSlot
  try dsimp only
  repeat' split
  all_goals simp

@[simp] theorem updateOpen_slotCount (f : Record → Record) (s : State) :
    (updateOpen f s).table.slots.length = s.table.slots.length := by
  unfold updateOpen
  try dsimp only
  repeat' split
  all_goals simp

@[simp] theorem updateEntry_slotCount (f : ExpEntry → ExpEntry) (s : State) :
    (updateEntry f s).table.slots.length = s.table.slots.length := by
  unfold updateEntry
  simp

@[simp] theorem passAfterReclaim_slotCount (c : Nat × Option Nat) (s : State) :
    (passAfterReclaim c s).table.slots.length = s.table.slots.length := by
  unfold passAfterReclaim
  try dsimp only
  repeat' split
  all_goals simp

@[simp] theorem openEntry_slotCount (t : Time) (s : State) :
    (openEntry t s).table.slots.length = s.table.slots.length := by
  unfold openEntry
  try dsimp only
  repeat' split
  all_goals simp

@[simp] theorem openTimed_slotCount (duration : Nat) (s : State) :
    (openTimed duration s).table.slots.length = s.table.slots.length := by
  unfold openTimed
  simp

@[simp] theorem beginExposure_slotCount (k : Start) (roll : Roll) (s : State) :
    (beginExposure k roll s).table.slots.length = s.table.slots.length := by
  unfold beginExposure
  try dsimp only
  repeat' split
  all_goals simp

@[simp] theorem createShot_slotCount (k : Start) (rollSlot : Nat) (roll : Roll) (slot : Nat) (c : Nat × Option Nat) (s : State) :
    (createShot k rollSlot roll slot c s).table.slots.length = s.table.slots.length := by
  unfold createShot
  simp

@[simp] theorem claimStart_slotCount (k : Start) (rollSlot : Nat) (roll : Roll) (s : State) :
    (claimStart k rollSlot roll s).2.table.slots.length = s.table.slots.length := by
  unfold claimStart
  try dsimp only
  repeat' split
  all_goals simp

@[simp] theorem startIdle_slotCount (k : Start) (s : State) :
    (startIdle k s).2.table.slots.length = s.table.slots.length := by
  unfold startIdle
  try dsimp only
  repeat' split
  all_goals simp

@[simp] theorem startDark_slotCount (k : Start) (s : State) :
    (startDark k s).2.table.slots.length = s.table.slots.length := by
  unfold startDark
  try dsimp only
  repeat' split
  all_goals simp

@[simp] theorem nextExposure_slotCount (k : Start) (roll : Roll) (s : State) :
    (nextExposure k roll s).table.slots.length = s.table.slots.length := by
  unfold nextExposure
  simp

@[simp] theorem startStack_slotCount (k : Start) (s : State) :
    (startStack k s).2.table.slots.length = s.table.slots.length := by
  unfold startStack
  try dsimp only
  repeat' split
  all_goals simp

@[simp] theorem decideStart_slotCount (k : Start) (s : State) :
    (decideStart k s).2.table.slots.length = s.table.slots.length := by
  unfold decideStart
  try dsimp only
  repeat' split
  all_goals simp

@[simp] theorem release_slotCount (s : State) :
    (release s).table.slots.length = s.table.slots.length := by
  unfold release
  try dsimp only
  repeat' split
  all_goals simp

@[simp] theorem holdShot_slotCount (s : State) :
    (holdShot s).table.slots.length = s.table.slots.length := by
  unfold holdShot
  simp

@[simp] theorem finishShot_slotCount (s : State) :
    (finishShot s).table.slots.length = s.table.slots.length := by
  unfold finishShot
  try dsimp only
  repeat' split
  all_goals simp

@[simp] theorem removeOpen_slotCount (s : State) :
    (removeOpen s).table.slots.length = s.table.slots.length := by
  unfold removeOpen
  try dsimp only
  repeat' split
  all_goals simp

@[simp] theorem closeEntry_slotCount (t : Time) (source : TimeSource) (cause : EndingCause) (truncated : Bool) (s : State) :
    (closeEntry t source cause truncated s).table.slots.length = s.table.slots.length := by
  unfold closeEntry
  simp

@[simp] theorem openBySync_slotCount (t : Time) (roll : Roll) (s : State) :
    (openBySync t roll s).table.slots.length = s.table.slots.length := by
  unfold openBySync
  simp

@[simp] theorem reopen_slotCount (s : State) :
    (reopen s).table.slots.length = s.table.slots.length := by
  unfold reopen
  simp

@[simp] theorem xsyncClose_slotCount (t : Time) (s : State) :
    (xsyncClose t s).table.slots.length = s.table.slots.length := by
  unfold xsyncClose
  try dsimp only
  repeat' split
  all_goals simp

@[simp] theorem xsyncOpening_slotCount (t : Time) (s : State) :
    (xsyncOpening t s).table.slots.length = s.table.slots.length := by
  unfold xsyncOpening
  try dsimp only
  repeat' split
  all_goals simp

@[simp] theorem auxEnd_slotCount (t : Time) (s : State) :
    (auxEnd t s).table.slots.length = s.table.slots.length := by
  unfold auxEnd
  try dsimp only
  repeat' split
  all_goals simp

@[simp] theorem goodReadout_slotCount (temperature : Int) (s : State) :
    (goodReadout temperature s).table.slots.length = s.table.slots.length := by
  unfold goodReadout
  try dsimp only
  repeat' split
  all_goals simp

@[simp] theorem voidShot_slotCount (s : State) :
    (voidShot s).table.slots.length = s.table.slots.length := by
  unfold voidShot
  try dsimp only
  repeat' split
  all_goals simp

@[simp] theorem failedReadout_slotCount (s : State) :
    (failedReadout s).table.slots.length = s.table.slots.length := by
  unfold failedReadout
  try dsimp only
  repeat' split
  all_goals simp

@[simp] theorem failedDark_slotCount (s : State) :
    (failedDark s).table.slots.length = s.table.slots.length := by
  unfold failedDark
  simp

@[simp] theorem lookupResident_slotCount (tag : Nat) (r : Record) (s : State) :
    (lookupResident tag r s).table.slots.length = s.table.slots.length := by
  unfold lookupResident
  simp

@[simp] theorem makeDirty_slotCount (n : Nat) (s : State) :
    (makeDirty n s).table.slots.length = s.table.slots.length := by
  unfold makeDirty
  simp

@[simp] theorem applyAmend_slotCount (r : Record) (o : AmendOperands) (s : State) :
    (applyAmend r o s).table.slots.length = s.table.slots.length := by
  unfold applyAmend
  try dsimp only
  repeat' split
  all_goals simp

@[simp] theorem amendResident_slotCount (tag : Nat) (r : Record) (o : AmendOperands) (s : State) :
    (amendResident tag r o s).table.slots.length = s.table.slots.length := by
  unfold amendResident
  try dsimp only
  repeat' split
  all_goals simp

@[simp] theorem requestEnded_slotCount (e : Nat) (s : State) :
    (requestEnded e s).table.slots.length = s.table.slots.length := by
  unfold requestEnded
  try dsimp only
  repeat' split
  all_goals simp

@[simp] theorem leaveDarkUnit_slotCount (n : Nat) (link : DarkLink) (s : State) :
    (leaveDarkUnit n link s).table.slots.length = s.table.slots.length := by
  unfold leaveDarkUnit
  try dsimp only
  repeat' split
  all_goals simp

@[simp] theorem takeFromBlocks_slotCount (r : Record) (s : State) :
    (takeFromBlocks r s).table.slots.length = s.table.slots.length := by
  unfold takeFromBlocks
  simp

@[simp] theorem endRetirement_slotCount (result : ResultCode) (s : State) (n : Nat) :
    (endRetirement result s n).table.slots.length = s.table.slots.length := by
  unfold endRetirement
  simp

@[simp] theorem continueRetirement_slotCount (r : Record) (s : State) :
    (continueRetirement r s).table.slots.length = s.table.slots.length := by
  unfold continueRetirement
  try dsimp only
  repeat' split
  all_goals simp

@[simp] theorem acceptRetire_slotCount (tag : Nat) (r : Record) (s : State) :
    (acceptRetire tag r s).table.slots.length = s.table.slots.length := by
  unfold acceptRetire
  simp

@[simp] theorem retireResident_slotCount (tag : Nat) (r : Record) (s : State) :
    (retireResident tag r s).table.slots.length = s.table.slots.length := by
  unfold retireResident
  try dsimp only
  repeat' split
  all_goals simp

@[simp] theorem onResident_slotCount (tag : Nat) (q : LoadRequest) (r : Record) (s : State) :
    (onResident tag q r s).table.slots.length = s.table.slots.length := by
  unfold onResident
  try dsimp only
  repeat' split
  all_goals simp

@[simp] theorem joinLoad_slotCount (n : Nat) (w : LoadWaiter) (s : State) :
    (joinLoad n w s).table.slots.length = s.table.slots.length := by
  unfold joinLoad
  simp

@[simp] theorem startLoad_slotCount (i n slot : Nat) (w : LoadWaiter) (s : State) :
    (startLoad i n slot w s).table.slots.length = s.table.slots.length := by
  unfold startLoad
  simp

@[simp] theorem requestLoad_slotCount (tag n : Nat) (q : LoadRequest) (s : State) :
    (requestLoad tag n q s).table.slots.length = s.table.slots.length := by
  unfold requestLoad
  try dsimp only
  repeat' split
  all_goals simp

@[simp] theorem onShot_slotCount (tag n : Nat) (q : LoadRequest) (s : State) :
    (onShot tag n q s).table.slots.length = s.table.slots.length := by
  unfold onShot
  try dsimp only
  repeat' split
  all_goals simp

@[simp] theorem proceed_slotCount (n : Nat) (s : State) (w : LoadWaiter) :
    (proceed n s w).table.slots.length = s.table.slots.length := by
  unfold proceed
  try dsimp only
  repeat' split
  all_goals simp

@[simp] theorem completeLoad_slotCount (n slot : Nat) (block : List Byte) (s : State) :
    (completeLoad n slot block s).table.slots.length = s.table.slots.length := by
  unfold completeLoad
  try dsimp only
  repeat' split
  all_goals simp

@[simp] theorem damageLoad_slotCount (n slot : Nat) (s : State) :
    (damageLoad n slot s).table.slots.length = s.table.slots.length := by
  unfold damageLoad
  simp

@[simp] theorem loadDone_slotCount (n slot : Nat) (block : List Byte) (s : State) :
    (loadDone n slot block s).table.slots.length = s.table.slots.length := by
  unfold loadDone
  try dsimp only
  repeat' split
  all_goals simp

@[simp] theorem renumberTo_slotCount (old new : Nat) (s : State) :
    (renumberTo old new s).table.slots.length = s.table.slots.length := by
  unfold renumberTo
  simp

@[simp] theorem renumberShot_slotCount (s : State) (old : Nat) :
    (renumberShot s old).table.slots.length = s.table.slots.length := by
  unfold renumberShot
  try dsimp only
  repeat' split
  all_goals simp

@[simp] theorem renumberAll_slotCount (next : Nat) (s : State) :
    (renumberAll next s).table.slots.length = s.table.slots.length := by
  unfold renumberAll
  simp

@[simp] theorem finishMount_slotCount (blocks : List (Nat × List Byte)) (s : State) :
    (finishMount blocks s).table.slots.length = s.table.slots.length := by
  unfold finishMount
  try dsimp only
  repeat' split
  all_goals simp

@[simp] theorem endRetirements_slotCount (s : State) :
    (endRetirements s).table.slots.length = s.table.slots.length := by
  unfold endRetirements
  simp

@[simp] theorem failWaitingLoads_slotCount (result : ResultCode) (s : State) :
    (failWaitingLoads result s).table.slots.length = s.table.slots.length := by
  unfold failWaitingLoads
  simp

@[simp] theorem clearForFormat_slotCount (s : State) :
    (clearForFormat s).table.slots.length = s.table.slots.length := by
  unfold clearForFormat
  simp

@[simp] theorem endForFormat_slotCount (volumeId : Nat) (s : State) :
    (endForFormat volumeId s).table.slots.length = s.table.slots.length := by
  unfold endForFormat
  simp

@[simp] theorem awaitBus_slotCount (volumeId : Nat) (s : State) :
    (awaitBus volumeId s).table.slots.length = s.table.slots.length := by
  unfold awaitBus
  try dsimp only
  repeat' split
  all_goals simp

@[simp] theorem beginFormat_slotCount (tag : Nat) (s : State) :
    (beginFormat tag s).table.slots.length = s.table.slots.length := by
  unfold beginFormat
  try dsimp only
  repeat' split
  all_goals simp

@[simp] theorem endRetiredRaw_slotCount (n : Nat) (s : State) :
    (endRetiredRaw n s).table.slots.length = s.table.slots.length := by
  unfold endRetiredRaw
  simp

@[simp] theorem endStoppedDeveloped_slotCount (n : Nat) (runs : List Run) (s : State) :
    (endStoppedDeveloped n runs s).table.slots.length = s.table.slots.length := by
  unfold endStoppedDeveloped
  simp

@[simp] theorem failRaws_slotCount (s : State) :
    (failRaws s).table.slots.length = s.table.slots.length := by
  unfold failRaws
  try dsimp only
  repeat' split
  all_goals simp

@[simp] theorem failDeveloped_slotCount (s : State) :
    (failDeveloped s).table.slots.length = s.table.slots.length := by
  unfold failDeveloped
  try dsimp only
  repeat' split
  all_goals simp

@[simp] theorem untake_slotCount (s : State) :
    (untake s).table.slots.length = s.table.slots.length := by
  unfold untake
  simp

@[simp] theorem cardFault_slotCount (s : State) :
    (cardFault s).table.slots.length = s.table.slots.length := by
  unfold cardFault
  simp

@[simp] theorem orphanAnswered_slotCount (s : State) :
    (orphanAnswered s).table.slots.length = s.table.slots.length := by
  unfold orphanAnswered
  try dsimp only
  repeat' split
  all_goals simp

theorem stopAtAnswer_slotCount {s t : State} (h : stopAtAnswer s = some t) : t.table.slots.length = s.table.slots.length := by
  unfold stopAtAnswer at h
  split at h
  · cases h; simp
  · split at h
    · cases h; simp
    · cases h
  · cases h; simp
  · cases h

@[simp] theorem answeredError_slotCount (s : State) :
    (answeredError s).table.slots.length = s.table.slots.length := by
  unfold answeredError
  repeat' split
  any_goals simp
  next h => simp [stopAtAnswer_slotCount h]

@[simp] theorem answeredOk_slotCount (g : State → State) (h : ∀ s, (g s).table.slots.length = s.table.slots.length) (s : State) :
    (answeredOk g s).table.slots.length = s.table.slots.length := by
  unfold answeredOk
  repeat' split
  any_goals simp [h]
  next h => simp [stopAtAnswer_slotCount h]

@[simp] theorem endCardWork_slotCount (s : State) :
    (endCardWork s).table.slots.length = s.table.slots.length := by
  unfold endCardWork
  simp

@[simp] theorem removeCard_slotCount (s : State) :
    (removeCard s).table.slots.length = s.table.slots.length := by
  unfold removeCard
  simp

@[simp] theorem endRawData_slotCount (n : Nat) (s : State) :
    (endRawData n s).table.slots.length = s.table.slots.length := by
  unfold endRawData
  try dsimp only
  repeat' split
  all_goals simp

@[simp] theorem resolveTaken_slotCount (n : Nat) (s : State) :
    (resolveTaken n s).table.slots.length = s.table.slots.length := by
  unfold resolveTaken
  try dsimp only
  repeat' split
  all_goals simp

@[simp] theorem entryWritten_slotCount (n slot : Nat) (s : State) :
    (entryWritten n slot s).table.slots.length = s.table.slots.length := by
  unfold entryWritten
  try dsimp only
  repeat' split
  all_goals simp

@[simp] theorem developedWritten_slotCount (h : Handoff) (runs : List Run) (s : State) :
    (developedWritten h runs s).table.slots.length = s.table.slots.length := by
  unfold developedWritten
  dsimp only
  split <;> simp [-Option.map_bind, -Option.map_map]

@[simp] theorem emptied_slotCount (n : Nat) (s : State) :
    (emptied n s).table.slots.length = s.table.slots.length := by
  unfold emptied
  try dsimp only
  repeat' split
  all_goals simp

@[simp] theorem acceptEject_slotCount (tag : Nat) (s : State) :
    (acceptEject tag s).table.slots.length = s.table.slots.length := by
  unfold acceptEject
  simp

@[simp] theorem deliver_slotCount (i : SyncInput) (level : Contact) (t : Time) (s : State) :
    (deliver i level t s).table.slots.length = s.table.slots.length := by
  unfold deliver
  try dsimp only
  repeat' split
  all_goals simp

@[simp] theorem qualify_slotCount (i : SyncInput) (s : State) :
    (qualify i s).table.slots.length = s.table.slots.length := by
  unfold qualify
  try dsimp only
  repeat' split
  all_goals simp

@[simp] theorem armExpired_slotCount (s : State) :
    (armExpired s).table.slots.length = s.table.slots.length := by
  unfold armExpired
  try dsimp only
  repeat' split
  all_goals simp

@[simp] theorem maxOpenExpired_slotCount (t : Time) (s : State) :
    (maxOpenExpired t s).table.slots.length = s.table.slots.length := by
  unfold maxOpenExpired
  try dsimp only
  repeat' split
  all_goals simp

@[simp] theorem settleExpired_slotCount (s : State) :
    (settleExpired s).table.slots.length = s.table.slots.length := by
  unfold settleExpired
  simp

@[simp] theorem setGeometry_slotCount (columns rows : Nat) (s : State) :
    (setGeometry columns rows s).table.slots.length = s.table.slots.length := by
  unfold setGeometry
  simp

@[simp] theorem afterAccumulate_slotCount (s : State) :
    (afterAccumulate s).table.slots.length = s.table.slots.length := by
  unfold afterAccumulate
  try dsimp only
  repeat' split
  all_goals simp

@[simp] theorem darkApplied_slotCount (q : PauRequest) (e : Nat) (s : State) :
    (darkApplied q e s).table.slots.length = s.table.slots.length := by
  unfold darkApplied
  try dsimp only
  repeat' split
  all_goals simp

@[simp] theorem completeJob_slotCount (j : Job) (h : RunHolds) (s : State) :
    (completeJob j h s).table.slots.length = s.table.slots.length := by
  unfold completeJob
  try dsimp only
  repeat' split
  all_goals simp

@[simp] theorem developResident_slotCount (tag : Nat) (k : JobKind) (priority : Nat) (r : Record) (s : State) :
    (developResident tag k priority r s).table.slots.length = s.table.slots.length := by
  unfold developResident
  try dsimp only
  repeat' split
  all_goals simp

@[simp] theorem getResident_slotCount (tag : Nat) (r : Record) (s : State) :
    (getResident tag r s).table.slots.length = s.table.slots.length := by
  unfold getResident
  try dsimp only
  repeat' split
  all_goals simp

@[simp] theorem settleOpen_slotCount (s : State) :
    (settleOpen s).table.slots.length = s.table.slots.length := by
  unfold settleOpen
  try dsimp only
  repeat' split
  all_goals simp

@[simp] theorem restartSequencer_slotCount (s : State) :
    (restartSequencer s).table.slots.length = s.table.slots.length := by
  unfold restartSequencer
  try dsimp only
  repeat' split
  all_goals simp

@[simp] theorem restartDark_slotCount (s : State) :
    (restartDark s).table.slots.length = s.table.slots.length := by
  unfold restartDark
  simp

@[simp] theorem restartDev_slotCount (s : State) :
    (restartDev s).table.slots.length = s.table.slots.length := by
  unfold restartDev
  simp

@[simp] theorem discardRecord_slotCount (s : State) (n : Nat) :
    (discardRecord s n).table.slots.length = s.table.slots.length := by
  unfold discardRecord
  simp

@[simp] theorem discardLoads_slotCount (s : State) :
    (discardLoads s).table.slots.length = s.table.slots.length := by
  unfold discardLoads
  simp

@[simp] theorem restartCardWork_slotCount (s : State) :
    (restartCardWork s).table.slots.length = s.table.slots.length := by
  unfold restartCardWork
  simp

@[simp] theorem restartCard_slotCount (s : State) :
    (restartCard s).table.slots.length = s.table.slots.length := by
  unfold restartCard
  simp

@[simp] theorem restartBlocks_slotCount (s : State) :
    (restartBlocks s).table.slots.length = s.table.slots.length := by
  unfold restartBlocks
  simp

@[simp] theorem restartStores_slotCount (s : State) :
    (restartStores s).table.slots.length = s.table.slots.length := by
  unfold restartStores
  simp

@[simp] theorem restartEnds_slotCount (s : State) :
    (restartEnds s).table.slots.length = s.table.slots.length := by
  unfold restartEnds
  try dsimp only
  repeat' split
  all_goals simp

@[simp] theorem restartPart_slotCount (tag : Nat) (s : State) :
    (restartPart tag s).table.slots.length = s.table.slots.length := by
  unfold restartPart
  simp

@[simp] theorem foldl_columns {α : Type} (f : State → α → State)
    (h : ∀ s a, (f s a).seq.columns = s.seq.columns) :
    ∀ (l : List α) (s : State), (l.foldl f s).seq.columns = s.seq.columns
  | [], _ => rfl
  | a :: l, s => (foldl_columns f h l (f s a)).trans (h s a)

@[simp] theorem optional_columns {α : Type} (f : α → State → State) (h : ∀ a s, (f a s).seq.columns = s.seq.columns)
    (o : Option α) (s : State) : ((o.map f).getD id s).seq.columns = s.seq.columns := by
  cases o <;> simp [h]

@[simp] theorem leaveDark_columns (s : State) :
    (leaveDark s).seq.columns = s.seq.columns := by
  unfold leaveDark
  try dsimp only
  repeat' split
  all_goals simp

@[simp] theorem abandonDark_columns (s : State) :
    (abandonDark s).seq.columns = s.seq.columns := by
  unfold abandonDark
  try dsimp only
  repeat' split
  all_goals simp

@[simp] theorem enterDark_columns (e p : Nat) (s : State) :
    (enterDark e p s).seq.columns = s.seq.columns := by
  unfold enterDark
  simp

@[simp] theorem attemptDark_columns (s : State) :
    (attemptDark s).seq.columns = s.seq.columns := by
  unfold attemptDark
  try dsimp only
  repeat' split
  all_goals simp

@[simp] theorem serveDarkClaim_columns (s : State) :
    (serveDarkClaim s).seq.columns = s.seq.columns := by
  unfold serveDarkClaim
  try dsimp only
  repeat' split
  all_goals simp

@[simp] theorem finishDark_columns (temperature : Int) (s : State) :
    (finishDark temperature s).seq.columns = s.seq.columns := by
  unfold finishDark
  try dsimp only
  repeat' split
  all_goals simp

@[simp] theorem serveBlocks_columns (s : State) :
    (serveBlocks s).seq.columns = s.seq.columns := by
  unfold serveBlocks
  simp

@[simp] theorem service_columns (s : State) :
    (service s).seq.columns = s.seq.columns := by
  unfold service
  try dsimp only
  repeat' split
  all_goals simp

@[simp] theorem enterRunning_columns (s : State) :
    (enterRunning s).seq.columns = s.seq.columns := by
  unfold enterRunning
  simp

@[simp] theorem idleSeq_columns (s : State) :
    (idleSeq s).seq.columns = s.seq.columns := by
  unfold idleSeq Seq.idled
  rfl

@[simp] theorem freeScratch_columns (s : State) :
    (freeScratch s).seq.columns = s.seq.columns := by
  unfold freeScratch
  simp

@[simp] theorem arm_columns (roll : Roll) (s : State) :
    (arm roll s).seq.columns = s.seq.columns := by
  unfold arm
  simp

@[simp] theorem openTimed_columns (duration : Nat) (s : State) :
    (openTimed duration s).seq.columns = s.seq.columns := by
  unfold openTimed
  simp

@[simp] theorem beginExposure_columns (k : Start) (roll : Roll) (s : State) :
    (beginExposure k roll s).seq.columns = s.seq.columns := by
  unfold beginExposure
  try dsimp only
  repeat' split
  all_goals simp

@[simp] theorem createShot_columns (k : Start) (rollSlot : Nat) (roll : Roll) (slot : Nat) (c : Nat × Option Nat) (s : State) :
    (createShot k rollSlot roll slot c s).seq.columns = s.seq.columns := by
  unfold createShot
  simp

@[simp] theorem claimStart_columns (k : Start) (rollSlot : Nat) (roll : Roll) (s : State) :
    (claimStart k rollSlot roll s).2.seq.columns = s.seq.columns := by
  unfold claimStart
  try dsimp only
  repeat' split
  all_goals simp

@[simp] theorem startIdle_columns (k : Start) (s : State) :
    (startIdle k s).2.seq.columns = s.seq.columns := by
  unfold startIdle
  try dsimp only
  repeat' split
  all_goals simp

@[simp] theorem startDark_columns (k : Start) (s : State) :
    (startDark k s).2.seq.columns = s.seq.columns := by
  unfold startDark
  try dsimp only
  repeat' split
  all_goals simp

@[simp] theorem startArmed_columns (k : Start) (s : State) :
    (startArmed k s).2.seq.columns = s.seq.columns := by
  unfold startArmed
  try dsimp only
  repeat' split
  all_goals simp

@[simp] theorem nextExposure_columns (k : Start) (roll : Roll) (s : State) :
    (nextExposure k roll s).seq.columns = s.seq.columns := by
  unfold nextExposure
  simp

@[simp] theorem startStack_columns (k : Start) (s : State) :
    (startStack k s).2.seq.columns = s.seq.columns := by
  unfold startStack
  try dsimp only
  repeat' split
  all_goals simp

@[simp] theorem decideStart_columns (k : Start) (s : State) :
    (decideStart k s).2.seq.columns = s.seq.columns := by
  unfold decideStart
  try dsimp only
  repeat' split
  all_goals simp

@[simp] theorem release_columns (s : State) :
    (release s).seq.columns = s.seq.columns := by
  unfold release
  try dsimp only
  repeat' split
  all_goals simp

@[simp] theorem holdShot_columns (s : State) :
    (holdShot s).seq.columns = s.seq.columns := by
  unfold holdShot
  simp

@[simp] theorem finishShot_columns (s : State) :
    (finishShot s).seq.columns = s.seq.columns := by
  unfold finishShot
  try dsimp only
  repeat' split
  all_goals simp

@[simp] theorem removeOpen_columns (s : State) :
    (removeOpen s).seq.columns = s.seq.columns := by
  unfold removeOpen
  try dsimp only
  repeat' split
  all_goals simp

@[simp] theorem closeEntry_columns (t : Time) (source : TimeSource) (cause : EndingCause) (truncated : Bool) (s : State) :
    (closeEntry t source cause truncated s).seq.columns = s.seq.columns := by
  unfold closeEntry
  simp

@[simp] theorem openBySync_columns (t : Time) (roll : Roll) (s : State) :
    (openBySync t roll s).seq.columns = s.seq.columns := by
  unfold openBySync
  simp

@[simp] theorem reopen_columns (s : State) :
    (reopen s).seq.columns = s.seq.columns := by
  unfold reopen
  simp

@[simp] theorem xsyncClose_columns (t : Time) (s : State) :
    (xsyncClose t s).seq.columns = s.seq.columns := by
  unfold xsyncClose
  try dsimp only
  repeat' split
  all_goals simp

@[simp] theorem xsyncOpening_columns (t : Time) (s : State) :
    (xsyncOpening t s).seq.columns = s.seq.columns := by
  unfold xsyncOpening
  try dsimp only
  repeat' split
  all_goals simp

@[simp] theorem auxEnd_columns (t : Time) (s : State) :
    (auxEnd t s).seq.columns = s.seq.columns := by
  unfold auxEnd
  try dsimp only
  repeat' split
  all_goals simp

@[simp] theorem beginReadout_columns (x : SeqState) (s : State) :
    (beginReadout x s).seq.columns = s.seq.columns := by
  unfold beginReadout
  simp

@[simp] theorem waitForStack_columns (s : State) :
    (waitForStack s).seq.columns = s.seq.columns := by
  unfold waitForStack
  simp

@[simp] theorem requestAccumulate_columns (s : State) :
    (requestAccumulate s).seq.columns = s.seq.columns := by
  unfold requestAccumulate
  simp

@[simp] theorem goodReadout_columns (temperature : Int) (s : State) :
    (goodReadout temperature s).seq.columns = s.seq.columns := by
  unfold goodReadout
  try dsimp only
  repeat' split
  all_goals simp

@[simp] theorem voidShot_columns (s : State) :
    (voidShot s).seq.columns = s.seq.columns := by
  unfold voidShot
  try dsimp only
  repeat' split
  all_goals simp

@[simp] theorem failedReadout_columns (s : State) :
    (failedReadout s).seq.columns = s.seq.columns := by
  unfold failedReadout
  try dsimp only
  repeat' split
  all_goals simp

@[simp] theorem failedDark_columns (s : State) :
    (failedDark s).seq.columns = s.seq.columns := by
  unfold failedDark
  simp

@[simp] theorem renumberTo_columns (old new : Nat) (s : State) :
    (renumberTo old new s).seq.columns = s.seq.columns := by
  unfold renumberTo
  simp

@[simp] theorem renumberShot_columns (s : State) (old : Nat) :
    (renumberShot s old).seq.columns = s.seq.columns := by
  unfold renumberShot
  try dsimp only
  repeat' split
  all_goals simp

@[simp] theorem renumberAll_columns (next : Nat) (s : State) :
    (renumberAll next s).seq.columns = s.seq.columns := by
  unfold renumberAll
  simp

@[simp] theorem finishMount_columns (blocks : List (Nat × List Byte)) (s : State) :
    (finishMount blocks s).seq.columns = s.seq.columns := by
  unfold finishMount
  try dsimp only
  repeat' split
  all_goals simp

@[simp] theorem orphanAnswered_columns (s : State) :
    (orphanAnswered s).seq.columns = s.seq.columns := by
  unfold orphanAnswered
  try dsimp only
  repeat' split
  all_goals simp

theorem stopAtAnswer_columns {s t : State} (h : stopAtAnswer s = some t) : t.seq.columns = s.seq.columns := by
  unfold stopAtAnswer at h
  split at h
  · cases h; simp
  · split at h
    · cases h; simp
    · cases h
  · cases h; simp
  · cases h

@[simp] theorem answeredError_columns (s : State) :
    (answeredError s).seq.columns = s.seq.columns := by
  unfold answeredError
  repeat' split
  any_goals simp
  next h => simp [stopAtAnswer_columns h]

@[simp] theorem answeredOk_columns (g : State → State) (h : ∀ s, (g s).seq.columns = s.seq.columns) (s : State) :
    (answeredOk g s).seq.columns = s.seq.columns := by
  unfold answeredOk
  repeat' split
  any_goals simp [h]
  next h => simp [stopAtAnswer_columns h]

@[simp] theorem acceptEject_columns (tag : Nat) (s : State) :
    (acceptEject tag s).seq.columns = s.seq.columns := by
  unfold acceptEject
  simp

@[simp] theorem deliver_columns (i : SyncInput) (level : Contact) (t : Time) (s : State) :
    (deliver i level t s).seq.columns = s.seq.columns := by
  unfold deliver
  try dsimp only
  repeat' split
  all_goals simp

@[simp] theorem qualify_columns (i : SyncInput) (s : State) :
    (qualify i s).seq.columns = s.seq.columns := by
  unfold qualify
  try dsimp only
  repeat' split
  all_goals simp

@[simp] theorem armExpired_columns (s : State) :
    (armExpired s).seq.columns = s.seq.columns := by
  unfold armExpired
  try dsimp only
  repeat' split
  all_goals simp

@[simp] theorem maxOpenExpired_columns (t : Time) (s : State) :
    (maxOpenExpired t s).seq.columns = s.seq.columns := by
  unfold maxOpenExpired
  try dsimp only
  repeat' split
  all_goals simp

@[simp] theorem settleExpired_columns (s : State) :
    (settleExpired s).seq.columns = s.seq.columns := by
  unfold settleExpired
  simp

@[simp] theorem afterAccumulate_columns (s : State) :
    (afterAccumulate s).seq.columns = s.seq.columns := by
  unfold afterAccumulate
  try dsimp only
  repeat' split
  all_goals simp

@[simp] theorem developResident_columns (tag : Nat) (k : JobKind) (priority : Nat) (r : Record) (s : State) :
    (developResident tag k priority r s).seq.columns = s.seq.columns := by
  unfold developResident
  try dsimp only
  repeat' split
  all_goals simp

@[simp] theorem getResident_columns (tag : Nat) (r : Record) (s : State) :
    (getResident tag r s).seq.columns = s.seq.columns := by
  unfold getResident
  try dsimp only
  repeat' split
  all_goals simp

@[simp] theorem settleOpen_columns (s : State) :
    (settleOpen s).seq.columns = s.seq.columns := by
  unfold settleOpen
  try dsimp only
  repeat' split
  all_goals simp

@[simp] theorem restartSequencer_columns (s : State) :
    (restartSequencer s).seq.columns = s.seq.columns := by
  unfold restartSequencer
  try dsimp only
  repeat' split
  all_goals simp

@[simp] theorem restartBlocks_columns (s : State) :
    (restartBlocks s).seq.columns = s.seq.columns := by
  unfold restartBlocks
  simp

@[simp] theorem restartEnds_columns (s : State) :
    (restartEnds s).seq.columns = s.seq.columns := by
  unfold restartEnds
  try dsimp only
  repeat' split
  all_goals simp

@[simp] theorem restartPart_columns (tag : Nat) (s : State) :
    (restartPart tag s).seq.columns = s.seq.columns := by
  unfold restartPart
  simp

@[simp] theorem foldl_rows {α : Type} (f : State → α → State)
    (h : ∀ s a, (f s a).seq.rows = s.seq.rows) :
    ∀ (l : List α) (s : State), (l.foldl f s).seq.rows = s.seq.rows
  | [], _ => rfl
  | a :: l, s => (foldl_rows f h l (f s a)).trans (h s a)

@[simp] theorem optional_rows {α : Type} (f : α → State → State) (h : ∀ a s, (f a s).seq.rows = s.seq.rows)
    (o : Option α) (s : State) : ((o.map f).getD id s).seq.rows = s.seq.rows := by
  cases o <;> simp [h]

@[simp] theorem leaveDark_rows (s : State) :
    (leaveDark s).seq.rows = s.seq.rows := by
  unfold leaveDark
  try dsimp only
  repeat' split
  all_goals simp

@[simp] theorem abandonDark_rows (s : State) :
    (abandonDark s).seq.rows = s.seq.rows := by
  unfold abandonDark
  try dsimp only
  repeat' split
  all_goals simp

@[simp] theorem enterDark_rows (e p : Nat) (s : State) :
    (enterDark e p s).seq.rows = s.seq.rows := by
  unfold enterDark
  simp

@[simp] theorem attemptDark_rows (s : State) :
    (attemptDark s).seq.rows = s.seq.rows := by
  unfold attemptDark
  try dsimp only
  repeat' split
  all_goals simp

@[simp] theorem serveDarkClaim_rows (s : State) :
    (serveDarkClaim s).seq.rows = s.seq.rows := by
  unfold serveDarkClaim
  try dsimp only
  repeat' split
  all_goals simp

@[simp] theorem finishDark_rows (temperature : Int) (s : State) :
    (finishDark temperature s).seq.rows = s.seq.rows := by
  unfold finishDark
  try dsimp only
  repeat' split
  all_goals simp

@[simp] theorem serveBlocks_rows (s : State) :
    (serveBlocks s).seq.rows = s.seq.rows := by
  unfold serveBlocks
  simp

@[simp] theorem service_rows (s : State) :
    (service s).seq.rows = s.seq.rows := by
  unfold service
  try dsimp only
  repeat' split
  all_goals simp

@[simp] theorem enterRunning_rows (s : State) :
    (enterRunning s).seq.rows = s.seq.rows := by
  unfold enterRunning
  simp

@[simp] theorem idleSeq_rows (s : State) :
    (idleSeq s).seq.rows = s.seq.rows := by
  unfold idleSeq Seq.idled
  rfl

@[simp] theorem freeScratch_rows (s : State) :
    (freeScratch s).seq.rows = s.seq.rows := by
  unfold freeScratch
  simp

@[simp] theorem arm_rows (roll : Roll) (s : State) :
    (arm roll s).seq.rows = s.seq.rows := by
  unfold arm
  simp

@[simp] theorem openTimed_rows (duration : Nat) (s : State) :
    (openTimed duration s).seq.rows = s.seq.rows := by
  unfold openTimed
  simp

@[simp] theorem beginExposure_rows (k : Start) (roll : Roll) (s : State) :
    (beginExposure k roll s).seq.rows = s.seq.rows := by
  unfold beginExposure
  try dsimp only
  repeat' split
  all_goals simp

@[simp] theorem createShot_rows (k : Start) (rollSlot : Nat) (roll : Roll) (slot : Nat) (c : Nat × Option Nat) (s : State) :
    (createShot k rollSlot roll slot c s).seq.rows = s.seq.rows := by
  unfold createShot
  simp

@[simp] theorem claimStart_rows (k : Start) (rollSlot : Nat) (roll : Roll) (s : State) :
    (claimStart k rollSlot roll s).2.seq.rows = s.seq.rows := by
  unfold claimStart
  try dsimp only
  repeat' split
  all_goals simp

@[simp] theorem startIdle_rows (k : Start) (s : State) :
    (startIdle k s).2.seq.rows = s.seq.rows := by
  unfold startIdle
  try dsimp only
  repeat' split
  all_goals simp

@[simp] theorem startDark_rows (k : Start) (s : State) :
    (startDark k s).2.seq.rows = s.seq.rows := by
  unfold startDark
  try dsimp only
  repeat' split
  all_goals simp

@[simp] theorem startArmed_rows (k : Start) (s : State) :
    (startArmed k s).2.seq.rows = s.seq.rows := by
  unfold startArmed
  try dsimp only
  repeat' split
  all_goals simp

@[simp] theorem nextExposure_rows (k : Start) (roll : Roll) (s : State) :
    (nextExposure k roll s).seq.rows = s.seq.rows := by
  unfold nextExposure
  simp

@[simp] theorem startStack_rows (k : Start) (s : State) :
    (startStack k s).2.seq.rows = s.seq.rows := by
  unfold startStack
  try dsimp only
  repeat' split
  all_goals simp

@[simp] theorem decideStart_rows (k : Start) (s : State) :
    (decideStart k s).2.seq.rows = s.seq.rows := by
  unfold decideStart
  try dsimp only
  repeat' split
  all_goals simp

@[simp] theorem release_rows (s : State) :
    (release s).seq.rows = s.seq.rows := by
  unfold release
  try dsimp only
  repeat' split
  all_goals simp

@[simp] theorem holdShot_rows (s : State) :
    (holdShot s).seq.rows = s.seq.rows := by
  unfold holdShot
  simp

@[simp] theorem finishShot_rows (s : State) :
    (finishShot s).seq.rows = s.seq.rows := by
  unfold finishShot
  try dsimp only
  repeat' split
  all_goals simp

@[simp] theorem removeOpen_rows (s : State) :
    (removeOpen s).seq.rows = s.seq.rows := by
  unfold removeOpen
  try dsimp only
  repeat' split
  all_goals simp

@[simp] theorem closeEntry_rows (t : Time) (source : TimeSource) (cause : EndingCause) (truncated : Bool) (s : State) :
    (closeEntry t source cause truncated s).seq.rows = s.seq.rows := by
  unfold closeEntry
  simp

@[simp] theorem openBySync_rows (t : Time) (roll : Roll) (s : State) :
    (openBySync t roll s).seq.rows = s.seq.rows := by
  unfold openBySync
  simp

@[simp] theorem reopen_rows (s : State) :
    (reopen s).seq.rows = s.seq.rows := by
  unfold reopen
  simp

@[simp] theorem xsyncClose_rows (t : Time) (s : State) :
    (xsyncClose t s).seq.rows = s.seq.rows := by
  unfold xsyncClose
  try dsimp only
  repeat' split
  all_goals simp

@[simp] theorem xsyncOpening_rows (t : Time) (s : State) :
    (xsyncOpening t s).seq.rows = s.seq.rows := by
  unfold xsyncOpening
  try dsimp only
  repeat' split
  all_goals simp

@[simp] theorem auxEnd_rows (t : Time) (s : State) :
    (auxEnd t s).seq.rows = s.seq.rows := by
  unfold auxEnd
  try dsimp only
  repeat' split
  all_goals simp

@[simp] theorem beginReadout_rows (x : SeqState) (s : State) :
    (beginReadout x s).seq.rows = s.seq.rows := by
  unfold beginReadout
  simp

@[simp] theorem waitForStack_rows (s : State) :
    (waitForStack s).seq.rows = s.seq.rows := by
  unfold waitForStack
  simp

@[simp] theorem requestAccumulate_rows (s : State) :
    (requestAccumulate s).seq.rows = s.seq.rows := by
  unfold requestAccumulate
  simp

@[simp] theorem goodReadout_rows (temperature : Int) (s : State) :
    (goodReadout temperature s).seq.rows = s.seq.rows := by
  unfold goodReadout
  try dsimp only
  repeat' split
  all_goals simp

@[simp] theorem voidShot_rows (s : State) :
    (voidShot s).seq.rows = s.seq.rows := by
  unfold voidShot
  try dsimp only
  repeat' split
  all_goals simp

@[simp] theorem failedReadout_rows (s : State) :
    (failedReadout s).seq.rows = s.seq.rows := by
  unfold failedReadout
  try dsimp only
  repeat' split
  all_goals simp

@[simp] theorem failedDark_rows (s : State) :
    (failedDark s).seq.rows = s.seq.rows := by
  unfold failedDark
  simp

@[simp] theorem renumberTo_rows (old new : Nat) (s : State) :
    (renumberTo old new s).seq.rows = s.seq.rows := by
  unfold renumberTo
  simp

@[simp] theorem renumberShot_rows (s : State) (old : Nat) :
    (renumberShot s old).seq.rows = s.seq.rows := by
  unfold renumberShot
  try dsimp only
  repeat' split
  all_goals simp

@[simp] theorem renumberAll_rows (next : Nat) (s : State) :
    (renumberAll next s).seq.rows = s.seq.rows := by
  unfold renumberAll
  simp

@[simp] theorem finishMount_rows (blocks : List (Nat × List Byte)) (s : State) :
    (finishMount blocks s).seq.rows = s.seq.rows := by
  unfold finishMount
  try dsimp only
  repeat' split
  all_goals simp

@[simp] theorem orphanAnswered_rows (s : State) :
    (orphanAnswered s).seq.rows = s.seq.rows := by
  unfold orphanAnswered
  try dsimp only
  repeat' split
  all_goals simp

theorem stopAtAnswer_rows {s t : State} (h : stopAtAnswer s = some t) : t.seq.rows = s.seq.rows := by
  unfold stopAtAnswer at h
  split at h
  · cases h; simp
  · split at h
    · cases h; simp
    · cases h
  · cases h; simp
  · cases h

@[simp] theorem answeredError_rows (s : State) :
    (answeredError s).seq.rows = s.seq.rows := by
  unfold answeredError
  repeat' split
  any_goals simp
  next h => simp [stopAtAnswer_rows h]

@[simp] theorem answeredOk_rows (g : State → State) (h : ∀ s, (g s).seq.rows = s.seq.rows) (s : State) :
    (answeredOk g s).seq.rows = s.seq.rows := by
  unfold answeredOk
  repeat' split
  any_goals simp [h]
  next h => simp [stopAtAnswer_rows h]

@[simp] theorem acceptEject_rows (tag : Nat) (s : State) :
    (acceptEject tag s).seq.rows = s.seq.rows := by
  unfold acceptEject
  simp

@[simp] theorem deliver_rows (i : SyncInput) (level : Contact) (t : Time) (s : State) :
    (deliver i level t s).seq.rows = s.seq.rows := by
  unfold deliver
  try dsimp only
  repeat' split
  all_goals simp

@[simp] theorem qualify_rows (i : SyncInput) (s : State) :
    (qualify i s).seq.rows = s.seq.rows := by
  unfold qualify
  try dsimp only
  repeat' split
  all_goals simp

@[simp] theorem armExpired_rows (s : State) :
    (armExpired s).seq.rows = s.seq.rows := by
  unfold armExpired
  try dsimp only
  repeat' split
  all_goals simp

@[simp] theorem maxOpenExpired_rows (t : Time) (s : State) :
    (maxOpenExpired t s).seq.rows = s.seq.rows := by
  unfold maxOpenExpired
  try dsimp only
  repeat' split
  all_goals simp

@[simp] theorem settleExpired_rows (s : State) :
    (settleExpired s).seq.rows = s.seq.rows := by
  unfold settleExpired
  simp

@[simp] theorem afterAccumulate_rows (s : State) :
    (afterAccumulate s).seq.rows = s.seq.rows := by
  unfold afterAccumulate
  try dsimp only
  repeat' split
  all_goals simp

@[simp] theorem developResident_rows (tag : Nat) (k : JobKind) (priority : Nat) (r : Record) (s : State) :
    (developResident tag k priority r s).seq.rows = s.seq.rows := by
  unfold developResident
  try dsimp only
  repeat' split
  all_goals simp

@[simp] theorem getResident_rows (tag : Nat) (r : Record) (s : State) :
    (getResident tag r s).seq.rows = s.seq.rows := by
  unfold getResident
  try dsimp only
  repeat' split
  all_goals simp

@[simp] theorem settleOpen_rows (s : State) :
    (settleOpen s).seq.rows = s.seq.rows := by
  unfold settleOpen
  try dsimp only
  repeat' split
  all_goals simp

@[simp] theorem restartSequencer_rows (s : State) :
    (restartSequencer s).seq.rows = s.seq.rows := by
  unfold restartSequencer
  try dsimp only
  repeat' split
  all_goals simp

@[simp] theorem restartBlocks_rows (s : State) :
    (restartBlocks s).seq.rows = s.seq.rows := by
  unfold restartBlocks
  simp

@[simp] theorem restartEnds_rows (s : State) :
    (restartEnds s).seq.rows = s.seq.rows := by
  unfold restartEnds
  try dsimp only
  repeat' split
  all_goals simp

@[simp] theorem restartPart_rows (tag : Nat) (s : State) :
    (restartPart tag s).seq.rows = s.seq.rows := by
  unfold restartPart
  simp

end Sys2Proof.Machine
end

