-- ==== Sys2Proof/Laws/PerInstr.lean ====
section
/-! SUPPORT. What holds of each command as syntax: the tag of a command that can be sent lies from 0 to 7
(Table 11-1). -/

namespace Sys2Proof.Laws.TagBound

/-- A request that can be sent has a tag from 0 to 7. -/
def Statement (i : Instr) : Prop := i.wellFormed = true → ∀ t, i.tag? = some t → t ≤ 7

/-- The check of `Instr.wellFormed` on the tag is all the statement needs. -/
theorem holds (i : Instr) : Statement i := by
  intro h t ht
  simp only [Instr.wellFormed, ht, Bool.and_eq_true, decide_eq_true_eq] at h
  exact h.1

theorem powerOnReset (release xsync aux : PinLevel) (card : Bool) : Statement (.powerOnReset release xsync aux card) := holds _
theorem pinReset (release xsync aux : PinLevel) (card : Bool) : Statement (.pinReset release xsync aux card) := holds _
theorem startupComplete : Statement (.startupComplete) := holds _
theorem restartComplete : Statement (.restartComplete) := holds _
theorem csnAsserted : Statement (.csnAsserted) := holds _
theorem csnNegated : Statement (.csnNegated) := holds _
theorem packetDiscard : Statement (.packetDiscard) := holds _
theorem answerLeaves : Statement (.answerLeaves) := holds _
theorem badRequest (tag : Nat) : Statement (.badRequest tag) := holds _
theorem shotLookup (tag shot : Nat) : Statement (.shotLookup tag shot) := holds _
theorem shotList (tag first maxCount : Nat) (label : Option Label) : Statement (.shotList tag first maxCount label) := holds _
theorem rollOpen (tag : Nat) (ops : RollOperands) : Statement (.rollOpen tag ops) := holds _
theorem rollSet (tag slot : Nat) (ops : RollOperands) : Statement (.rollSet tag slot ops) := holds _
theorem rollSelect (tag : Nat) (slot : Option Nat) : Statement (.rollSelect tag slot) := holds _
theorem rollClose (tag slot : Nat) : Statement (.rollClose tag slot) := holds _
theorem rollFree (tag slot : Nat) : Statement (.rollFree tag slot) := holds _
theorem rollQuery (tag : Nat) (slot : Option Nat) : Statement (.rollQuery tag slot) := holds _
theorem recipeSet (tag recipe : Nat) (ops : RecipeOperands) : Statement (.recipeSet tag recipe ops) := holds _
theorem recipeQuery (tag recipe : Nat) : Statement (.recipeQuery tag recipe) := holds _
theorem setSync (tag : Nat) (ops : SyncOperands) : Statement (.setSync tag ops) := holds _
theorem setClock (tag : Nat) (wall : Option Int) : Statement (.setClock tag wall) := holds _
theorem triggerFire (tag : Nat) : Statement (.triggerFire tag) := holds _
theorem triggerTimed (tag : Nat) (duration : Option Nat) : Statement (.triggerTimed tag duration) := holds _
theorem setSensor (tag columns rows : Nat) : Statement (.setSensor tag columns rows) := holds _
theorem develop (tag shot kind priority : Nat) : Statement (.develop tag shot kind priority) := holds _
theorem devFloor (tag : Nat) (floor : Option Nat) : Statement (.devFloor tag floor) := holds _
theorem getPreview (tag shot : Nat) : Statement (.getPreview tag shot) := holds _
theorem readPreview (tag slot offset length : Nat) : Statement (.readPreview tag slot offset length) := holds _
theorem unpinPreview (tag slot : Nat) : Statement (.unpinPreview tag slot) := holds _
theorem cardQuery (tag : Nat) : Statement (.cardQuery tag) := holds _
theorem cardEject (tag : Nat) : Statement (.cardEject tag) := holds _
theorem cardFormat (tag discard : Nat) : Statement (.cardFormat tag discard) := holds _
theorem shotAmend (tag shot : Nat) (ops : AmendOperands) : Statement (.shotAmend tag shot ops) := holds _
theorem shotRetire (tag shot : Nat) : Statement (.shotRetire tag shot) := holds _
theorem status (tag : Nat) : Statement (.status tag) := holds _
theorem clearCauses (tag : Nat) : Statement (.clearCauses tag) := holds _
theorem restart (tag : Nat) : Statement (.restart tag) := holds _
theorem takeNotice (tag : Nat) : Statement (.takeNotice tag) := holds _
theorem noticeLevels (tag : Nat) (levels : List (Option Nat)) (floor : Option Nat) : Statement (.noticeLevels tag levels floor) := holds _
theorem edgeQualified (input : SyncInput) : Statement (.edgeQualified input) := holds _
theorem reloutPulseEnd : Statement (.reloutPulseEnd) := holds _
theorem cdetChange (present : Bool) : Statement (.cdetChange present) := holds _
theorem insertion : Statement (.insertion) := holds _
theorem removal : Statement (.removal) := holds _
theorem armWindowExpiry : Statement (.armWindowExpiry) := holds _
theorem maxOpenExpiry : Statement (.maxOpenExpiry) := holds _
theorem timedDurationExpiry : Statement (.timedDurationExpiry) := holds _
theorem settleExpiry : Statement (.settleExpiry) := holds _
theorem stackWindowExpiry : Statement (.stackWindowExpiry) := holds _
theorem darkDurationExpiry : Statement (.darkDurationExpiry) := holds _
theorem readoutHeader (good : Bool) (columns rows : Nat) (temperature : Int) : Statement (.readoutHeader good columns rows temperature) := holds _
theorem darkExposureStart : Statement (.darkExposureStart) := holds _
theorem pauStart : Statement (.pauStart) := holds _
theorem accumulateDone : Statement (.accumulateDone) := holds _
theorem applyDarkDone : Statement (.applyDarkDone) := holds _
theorem darkExpiry (entry : Nat) : Statement (.darkExpiry entry) := holds _
theorem dispatch : Statement (.dispatch) := holds _
theorem stageEnd : Statement (.stageEnd) := holds _
theorem outputEnd : Statement (.outputEnd) := holds _
theorem cardWorkStart : Statement (.cardWorkStart) := holds _
theorem cardCommandError : Statement (.cardCommandError) := holds _
theorem cardCommandTimeout : Statement (.cardCommandTimeout) := holds _
theorem identifyDone (serial capacity : Nat) (writeProtected : Bool) : Statement (.identifyDone serial capacity writeProtected) := holds _
theorem headerReadDone (block : List Byte) : Statement (.headerReadDone block) := holds _
theorem catalogueReadDone (clusters : Nat) (blocks : List (Nat × List Byte)) : Statement (.catalogueReadDone clusters blocks) := holds _
theorem loadReadDone (block : List Byte) : Statement (.loadReadDone block) := holds _
theorem fetchReadDone (clusters : Nat) (values : List (Nat × BitVec 32)) : Statement (.fetchReadDone clusters values) := holds _
theorem rawWriteClusterDone : Statement (.rawWriteClusterDone) := holds _
theorem entryWriteDone : Statement (.entryWriteDone) := holds _
theorem developedWriteClusterDone : Statement (.developedWriteClusterDone) := holds _
theorem developedEntryWriteDone : Statement (.developedEntryWriteDone) := holds _
theorem emptyWriteDone : Statement (.emptyWriteDone) := holds _
theorem dirtyRewriteDone : Statement (.dirtyRewriteDone) := holds _
theorem formatWriteDone : Statement (.formatWriteDone) := holds _
theorem syncSample (gap : Nat) (release xsync aux : PinLevel) : Statement (.syncSample gap release xsync aux) := holds _
theorem pixelSample (value : BitVec 16) : Statement (.pixelSample value) := holds _
theorem mosiByte (byte : Byte) : Statement (.mosiByte byte) := holds _

end Sys2Proof.Laws.TagBound
end

