-- ==== Sys2Proof/Laws/Ranges.lean ====
section
/-! SUPPORT. The operand tests of the requests are the ranges of the tables, and the settings they apply are
the changes the rules give. -/

namespace Sys2Proof.Machine

theorem inRange_iff (v lo hi : Nat) : inRange v lo hi = true ↔ lo ≤ v ∧ v ≤ hi := by
  simp [inRange]

theorem inRangeInt_iff (v lo hi : Int) : inRangeInt v lo hi = true ↔ lo ≤ v ∧ v ≤ hi := by
  simp [inRangeInt]

theorem all_inRange (o : Option Nat) (lo hi : Nat) :
    o.all (inRange · lo hi) = true ↔ GivenIn o lo hi := by
  cases o <;> simp [GivenIn, inRange_iff]

theorem all_inRangeInt (o : Option Int) (lo hi : Int) :
    o.all (inRangeInt · lo hi) = true ↔ GivenInInt o lo hi := by
  cases o <;> simp [GivenInInt, inRangeInt_iff]

/-- The bytes of a list up to the first that fails a test, and the rest, all equal to the failing value. -/
theorem labelGood_iff (l : Label) : labelGood l = true ↔ LabelInRange l := by
  unfold labelGood LabelInRange
  simp only [Bool.and_eq_true, beq_iff_eq, List.all_eq_true, decide_eq_true_eq]
  constructor
  · rintro ⟨⟨hlen, ht⟩, hd⟩
    refine ⟨l.takeWhile (· != 0#8), ?_, ht, ?_⟩
    · rw [← hlen]
      exact (List.takeWhile_prefix _).length_le
    · have h1 := List.takeWhile_append_dropWhile (p := (· != 0#8)) (l := l)
      have h2 : l.dropWhile (· != 0#8) =
          List.replicate (16 - (l.takeWhile (· != 0#8)).length) 0#8 := by
        rw [List.eq_replicate_iff]
        refine ⟨?_, hd⟩
        have := congrArg List.length h1
        rw [List.length_append, hlen] at this
        omega
      rw [← h2, h1]
  · rintro ⟨text, hlen, hp, rfl⟩
    have hne : ∀ b ∈ text, (b != 0#8) = true := by
      intro b hb
      have := hp b hb
      simp only [bne_iff_ne, ne_eq]
      rintro rfl
      simp at this
    have hz : ∀ n, (List.replicate n 0#8).takeWhile (· != 0#8) = [] := by
      intro n
      cases n <;> simp [List.replicate_succ]
    have hz' : ∀ n, (List.replicate n 0#8).dropWhile (· != 0#8) = List.replicate n 0#8 := by
      intro n
      cases n <;> simp [List.replicate_succ]
    rw [List.takeWhile_append_of_pos hne, List.dropWhile_append_of_pos hne, hz, hz']
    refine ⟨⟨?_, ?_⟩, ?_⟩
    · simp
      omega
    · simpa using hp
    · intro b hb
      exact (List.mem_replicate.1 hb).2

theorem kindGood_iff (o : Option (Nat × Nat)) :
    o.all kindGood = true ↔ ∀ k n, o = some (k, n) → k = 0 ∨ (k = 1 ∧ 2 ≤ n ∧ n ≤ 8) := by
  rcases o with _ | ⟨_ | _ | k, n⟩ <;> simp [kindGood, inRange_iff]

theorem policyGood_iff (o : Option (Nat × Nat)) :
    o.all policyGood = true ↔
      ∀ k n, o = some (k, n) → k = 0 ∨ k = 1 ∨ (k = 2 ∧ n ≤ 4294967295) := by
  rcases o with _ | ⟨_ | _ | _ | k, n⟩ <;> simp [policyGood, inRange_iff]

theorem autoGood_iff (o : Option (Nat × Option Nat)) : o.all autoGood = true ↔ AutoInRange o := by
  unfold AutoInRange
  rcases o with _ | ⟨_ | _ | k, p⟩ <;> simp [autoGood, all_inRange]

theorem rollGood_iff (o : RollOperands) : rollGood o = true ↔ RollInRange o := by
  unfold rollGood RollInRange
  simp only [Bool.and_eq_true, all_inRange, kindGood_iff, policyGood_iff, autoGood_iff]
  have hl : o.label.all labelGood = true ↔ ∀ l, o.label = some l → LabelInRange l := by
    cases o.label <;> simp [labelGood_iff]
  rw [hl]
  simp only [and_assoc]

theorem cropGood_iff (o : Option (Nat × Crop)) :
    o.all cropGood = true ↔ ∀ k c, o = some (k, c) → k = 0 ∨
      (k = 1 ∧ 1 ≤ c.width ∧ 1 ≤ c.height ∧ c.left + c.width ≤ 12000 ∧ c.top + c.height ≤ 12000) := by
  rcases o with _ | ⟨_ | _ | k, c⟩ <;> simp [cropGood, and_assoc]

theorem recipeGood_iff (o : RecipeOperands) : recipeGood o = true ↔ RecipeInRange o := by
  unfold recipeGood RecipeInRange
  simp only [Bool.and_eq_true, all_inRange, all_inRangeInt, cropGood_iff, and_assoc]

theorem syncGood_iff (o : SyncOperands) : syncGood o = true ↔ SyncInRange o := by
  unfold syncGood SyncInRange
  simp only [Bool.and_eq_true, all_inRange, and_assoc]

theorem rollDefaults_default : RollDefaults Roll.default := by
  simp [RollDefaults, Roll.default]

/-- The settings applied are the change of R36, for settings in range. -/
theorem rollChanged_applyRoll (o : RollOperands) (r : Roll) : RollChanged o r (applyRoll o r) := by
  unfold RollChanged applyRoll
  refine ⟨rfl, rfl, rfl, rfl, ?_, ?_, ?_, ?_, ?_, ?_, ?_, rfl, ?_, ?_, ?_, ?_, ?_, ?_, ?_, ?_, rfl, rfl,
    rfl, rfl, ?_, ?_, ?_, ?_, ?_, ?_⟩
  all_goals
    first
    | (intro h; simp [h, yieldOf, recloseOf])
    | (intro n h; simp [h, kindOf, policyOf, sourcesOf, autoOf])

theorem recipeChanged_applyRecipe (o : RecipeOperands) (r : Recipe) :
    RecipeChanged o r (applyRecipe o r) := by
  unfold RecipeChanged applyRecipe
  refine ⟨rfl, rfl, rfl, rfl, rfl, rfl, rfl, rfl, rfl, ?_, ?_, ?_, rfl, ?_, ?_, ?_⟩
  all_goals
    first
    | (intro h; simp [h])
    | (intro n h; simp [h, cropOf])

/-- The level a pin is read as. -/
theorem readsAs_iff (p : Polarity) (pin : PinLevel) (c : Contact) :
    ReadsAs p pin c ↔ p.level pin = c := by
  cases p <;> cases pin <;> cases c <;> simp [ReadsAs, Polarity.level]

theorem lineRestarted_set (polarity count : Option Nat) (l : SyncLine) :
    LineRestarted polarity count l (SyncLine.set polarity count l).restart := by
  unfold LineRestarted SyncLine.set SyncLine.restart
  refine ⟨?_, ?_, ?_, rfl, rfl, ?_, rfl, rfl⟩
  · intro h; simp [h]
  · intro h; simp [h, polarityOf]
  · intro h; simp [h, polarityOf]
  · rw [readsAs_iff]; rfl

theorem lineRestarted_restart (l : SyncLine) : LineRestarted none none l l.restart := by
  unfold LineRestarted SyncLine.restart
  refine ⟨fun _ => rfl, by simp, by simp, rfl, rfl, ?_, rfl, rfl⟩
  rw [readsAs_iff]; rfl

theorem lineRestarted_reset (pin : PinLevel) :
    LineRestarted (some 0) (some 8) (SyncLine.reset pin) (SyncLine.reset pin) := by
  unfold LineRestarted SyncLine.reset
  refine ⟨by simp, by simp, by simp, rfl, rfl, ?_, rfl, rfl⟩
  rw [readsAs_iff]
  cases pin <;> rfl

theorem lineSampled_sample (t : Time) (pin : PinLevel) (l : SyncLine) :
    LineSampled 0 t pin l (l.sample t pin) := by
  unfold LineSampled SyncLine.sample SyncLine.sampled
  simp only [readsAs_iff]
  split
  · next h => simp_all
  · next h =>
    split
    · next hr => simp_all
    · next hr =>
      have : 0 < l.run := by omega
      simp_all

theorem lineSampled_gap (gap : Nat) (h : gap ≠ 0) (t : Time) (pin : PinLevel) (l : SyncLine) :
    LineSampled gap t pin l (l.settleLevel.sample t pin) := by
  unfold LineSampled SyncLine.sample SyncLine.sampled SyncLine.settleLevel
  simp only [readsAs_iff]
  split <;> simp_all

end Sys2Proof.Machine
end

