-- ==== Sys2Proof/Laws/Requests.lean ====
section
/-! SUPPORT. The taking of a request: what each of its four outcomes is, and how the response queue, the tags
and the notices move. -/

namespace Sys2Proof.Machine

theorem takeRequest_taken {tag : Nat} {s : State} (always : Bool) (body : State → State)
    (h : CanTake tag s) : takeRequest tag always body s = body (holdTag tag s) := by
  obtain ⟨h1, h2, h3⟩ := h
  unfold takeRequest
  rw [if_neg (by omega), if_neg h2, if_pos (by simp [h3])]

theorem takeRequest_high {tag : Nat} {s : State} (always : Bool) (body : State → State) (h : 7 < tag) :
    takeRequest tag always body s = discardPacket s := by
  unfold takeRequest
  rw [if_pos h]

theorem takeRequest_held {tag : Nat} {s : State} (always : Bool) (body : State → State) (h : tag ≤ 7)
    (hh : tag ∈ s.link.held) : takeRequest tag always body s = answerTagBusy tag s := by
  unfold takeRequest
  rw [if_neg (by omega), if_pos hh]

theorem takeRequest_outside {tag : Nat} {s : State} (body : State → State) (h : tag ≤ 7)
    (hh : tag ∉ s.link.held) (hp : s.part ≠ .running) :
    takeRequest tag false body s = answerCode tag .busy (holdTag tag s) := by
  unfold takeRequest
  rw [if_neg (by omega), if_neg hh, if_neg (by simp [hp])]

theorem takeRequest_always {tag : Nat} {s : State} (body : State → State) (h : tag ≤ 7)
    (hh : tag ∉ s.link.held) : takeRequest tag true body s = body (holdTag tag s) := by
  unfold takeRequest
  rw [if_neg (by omega), if_neg hh, if_pos (by simp)]

/-- A field that a refusal, a discard and the request's own work leave is left by the whole taking. -/
theorem takeRequest_keeps {α : Type} (g : State → α) (tag : Nat) (always : Bool) (body : State → State)
    (s : State) (hl : ∀ (s : State) (l : Link), g { s with link := l } = g s)
    (hn : ∀ (s : State) (n : Notices), g { s with notices := n } = g s)
    (hb : ∀ s, g (body s) = g s) : g (takeRequest tag always body s) = g s := by
  unfold takeRequest discardPacket answerTagBusy
  repeat' split
  · exact (hn _ _).trans (hl _ _)
  · exact hl _ _
  · exact (hn _ _).trans (hl _ _)
  · exact (hb _).trans (hl _ _)
  · exact (hl _ _).trans (hl _ _)

/-- A property that a refusal, a discard and the request's own work keep is kept by the whole taking. -/
theorem takeRequest_preserves (P : State → Prop) (tag : Nat) (always : Bool) (body : State → State)
    {s : State} (hl : ∀ (s : State) (l : Link), P s → P { s with link := l })
    (hn : ∀ (s : State) (n : Notices), P s → P { s with notices := n })
    (hb : ∀ s, P s → P (body s)) (h : P s) : P (takeRequest tag always body s) := by
  unfold takeRequest discardPacket answerTagBusy
  repeat' split
  · exact hn _ _ (hl _ _ h)
  · exact hl _ _ h
  · exact hn _ _ (hl _ _ h)
  · exact hb _ (hl _ _ h)
  · exact hl _ _ (hl _ _ h)

/-- What holds of each of the four outcomes holds of the taking of a request. -/
theorem takeRequest_elim (P : State → Prop) (tag : Nat) (always : Bool) (body : State → State) (s : State)
    (hd : P (discardPacket s)) (hh : tag ≤ 7 → tag ∈ s.link.held → P (answerTagBusy tag s))
    (hb : tag ≤ 7 → tag ∉ s.link.held → P (body (holdTag tag s)))
    (ho : tag ≤ 7 → tag ∉ s.link.held → P (answerCode tag .busy (holdTag tag s))) :
    P (takeRequest tag always body s) := by
  unfold takeRequest
  split
  · exact hd
  · next h7 =>
    have h7 : tag ≤ 7 := by omega
    split
    · next hm => exact hh h7 hm
    · next hm =>
      split
      · exact hb h7 hm
      · exact ho h7 hm

end Sys2Proof.Machine
end

