-- ==== Sys2Proof/Laws/Service.lean ====
section
/-! SUPPORT. What follows an event in the same event: it starts work and ends a drain; it answers nothing but
an eject, and it leaves the card state but at the end of a drain. -/

namespace Sys2Proof.Machine

/-! ### The card state -/

@[simp] theorem kick_cardState (s : State) : (kick s).card.state = s.card.state := by
  unfold kick
  split <;> rfl

@[simp] theorem setWork_cardState (w : Option CardWork) (s : State) :
    (setWork w s).card.state = s.card.state := rfl

@[simp] theorem joinReads_cardState (r : CardRead) (s : State) :
    (joinReads r s).card.state = s.card.state := rfl

@[simp] theorem takeChoice_cardState (c : Choice) (s : State) :
    (takeChoice c s).card.state = s.card.state := by
  unfold takeChoice startEntry startDeveloped startRaw allocationFailed updateHandoff
  repeat' split
  all_goals rfl

@[simp] theorem chooseWork_cardState (fuel : Nat) (s : State) :
    (chooseWork fuel s).card.state = s.card.state := by
  induction fuel generalizing s with
  | zero => rfl
  | succ n ih =>
    unfold chooseWork
    split
    · rw [ih, takeChoice_cardState]
    · rfl

@[simp] theorem startCardWork_cardState (s : State) :
    (startCardWork s).card.state = s.card.state := by
  unfold startCardWork
  split <;> simp

@[simp] theorem dispatchJob_cardState (j : Job) (r : Record) (s : State) :
    (dispatchJob j r s).card.state = s.card.state := by
  unfold dispatchJob
  dsimp only
  split
  all_goals split <;> simp

@[simp] theorem attemptDispatch_cardState (s : State) :
    (attemptDispatch s).card.state = s.card.state := by
  unfold attemptDispatch
  repeat' split
  all_goals simp

@[simp] theorem serveBlocks_cardState (s : State) : (serveBlocks s).card.state = s.card.state := by
  unfold serveBlocks
  simp

@[simp] theorem serveBlocks_link (s : State) : (serveBlocks s).link = s.link := by
  simp

/-- Outside EJECTING nothing is answered and the drain does not end. -/
theorem service_eq {s : State} (h : s.card.state ≠ .ejecting) : service s = serveBlocks s := by
  unfold service
  dsimp only
  rw [if_neg]
  simp [drained, h]

theorem service_link {s : State} (h : s.card.state ≠ .ejecting) : (service s).link = s.link := by
  rw [service_eq h, serveBlocks_link]

/-! ### Answers stay in the queue -/

/-- One queue continues another. -/
abbrev Continues (s t : State) : Prop := s.link.queue <+: t.link.queue

theorem continues_of_link {s t : State} (h : t.link = s.link) : Continues s t := by
  unfold Continues
  rw [h]

theorem continues_answer (tag : Nat) (r : ResultCode) (p : Payload) (s : State) :
    Continues s (answer tag r p s) := List.prefix_append _ _

theorem continues_answerCode (tag : Nat) (r : ResultCode) (s : State) :
    Continues s (answerCode tag r s) := continues_answer _ _ _ _

theorem continues_answerAll (tags : List Nat) (r : ResultCode) (s : State) :
    Continues s (answerAll tags r s) :=
  foldl_preserves (fun t => Continues s t) _
    (fun _ _ h => h.trans (continues_answerCode _ _ _)) tags s (List.prefix_refl _)

theorem continues_answerWaiting (tag : Option Nat) (r : ResultCode) (s : State) :
    Continues s (answerWaiting tag r s) := by
  unfold answerWaiting
  split
  · exact List.prefix_refl _
  · exact continues_answerCode _ _ _

/-- A continuation taken further by a step that leaves the Link Port. -/
theorem continues_keep {s t u : State} (h : Continues s t) (hu : u.link = t.link) : Continues s u :=
  List.IsPrefix.trans h (continues_of_link hu)

theorem continues_trans {s t u : State} (h : Continues s t) (h' : Continues t u) : Continues s u :=
  List.IsPrefix.trans h h'

theorem continues_removeJobs (n : Nat) (r : ResultCode) (s : State) :
    Continues s (removeJobs n r s) := by
  unfold removeJobs
  dsimp only
  generalize (s.dev.queue.filter fun j => j.shot == n).flatMap (·.waiters) = tags
  have h : ∀ t : State, Continues t (dropJobs (fun j => j.shot == n) (answerAll tags r t)) := fun t =>
    continues_keep (continues_answerAll tags r t) (by simp)
  split
  · exact continues_trans (continues_of_link (t := settle n (abandonFetch (dropHolds s))) (by simp))
      (h _)
  · exact h _

theorem continues_dropRecord (s : State) (n : Nat) : Continues s (dropRecord s n) :=
  continues_keep (continues_removeJobs n .noCard s) (by simp [dropRecord])

theorem continues_dropSettled (s : State) : Continues s (dropSettled s) :=
  continues_keep (foldl_preserves (fun t => Continues s t) dropRecord
    (fun t n h => continues_trans h (continues_dropRecord t n)) (settledShots s) s
    (List.prefix_refl _)) (by simp [dropSettled])

theorem continues_finishDrain (s : State) : Continues s (finishDrain s) := by
  have h1 : Continues s (returnHeld s) := continues_of_link (by simp)
  have h2 : Continues s (emptyIndex (dropSettled (returnHeld s))) :=
    continues_keep (continues_trans h1 (continues_dropSettled _)) (by simp)
  unfold finishDrain
  dsimp only
  refine continues_trans (continues_keep h2 ?_) (continues_answerWaiting _ _ _)
  rfl

/-- What follows an event only adds to the response queue. -/
theorem continues_service (s : State) : Continues s (service s) := by
  have h1 : Continues s (serveBlocks s) := continues_of_link (by simp)
  unfold service
  dsimp only
  split
  · exact continues_keep (continues_trans h1 (continues_finishDrain _)) (by simp)
  · exact h1

/-- An answer in the queue is still there after what follows the event. -/
theorem answered_service {s : State} {tag : Nat} {r : ResultCode} {p : Payload}
    (h : Answered s tag r p) : Answered (service s) tag r p :=
  (continues_service s).subset h

theorem answered_answer (tag : Nat) (r : ResultCode) (p : Payload) (s : State) :
    Answered (answer tag r p s) tag r p := by
  simp [Answered, answer]

end Sys2Proof.Machine
end

