-- ==== Sys2Proof/Laws/Served.lean ====
section
/-! SUPPORT. What the work that follows an event can change, part by part: the raw fields of records, one notice
kind, the sequencer's entry to DARK. Outside EJECTING that work is `serveBlocks`. -/

namespace Sys2Proof.Machine

/-! ### The choice of card work -/

/-- The records differ in what a card write takes up: raw runs, raw card state, raw size, developed pending. -/
def SameButRaw (r r' : Record) : Prop :=
  r' = { r with rawRuns := r'.rawRuns, rawCard := r'.rawCard, rawSize := r'.rawSize,
                devPending := r'.devPending }

theorem sameButRaw_refl (r : Record) : SameButRaw r r := rfl

theorem sameButRaw_trans {a b c : Record} (h : SameButRaw a b) (h' : SameButRaw b c) :
    SameButRaw a c := by
  unfold SameButRaw at *
  rw [h', h]

/-- The slots differ in the raw fields of their records alone. -/
def SlotKept (x y : RecordSlot) : Prop :=
  match x with
  | .inUse r => ∃ r', y = .inUse r' ∧ SameButRaw r r'
  | x => y = x

theorem slotKept_refl (x : RecordSlot) : SlotKept x x := by
  cases x <;> simp [SlotKept, sameButRaw_refl]

theorem slotKept_trans {x y z : RecordSlot} (h : SlotKept x y) (h' : SlotKept y z) : SlotKept x z := by
  cases x with
  | inUse r =>
    obtain ⟨r', rfl, h1⟩ := h
    obtain ⟨r'', rfl, h2⟩ := h'
    exact ⟨r'', rfl, sameButRaw_trans h1 h2⟩
  | free => cases h; exact h'
  | loading n ws => cases h; exact h'

/-- The record table of `t` is that of `s` but for the raw fields. -/
def SlotsKept (s t : State) : Prop :=
  t.table.counter = s.table.counter ∧
  ∃ f, t.table.slots = s.table.slots.map f ∧ ∀ x, SlotKept x (f x)

theorem slotsKept_of_table {s t : State} (h : t.table = s.table) : SlotsKept s t :=
  ⟨by rw [h], id, by rw [h]; simp, slotKept_refl⟩

theorem slotsKept_trans {s t u : State} (h : SlotsKept s t) (h' : SlotsKept t u) : SlotsKept s u := by
  obtain ⟨c, f, hf, kf⟩ := h
  obtain ⟨c', g, hg, kg⟩ := h'
  exact ⟨c'.trans c, g ∘ f, by rw [hg, hf, List.map_map], fun x => slotKept_trans (kf x) (kg (f x))⟩

theorem slotsKept_congr {s t u : State} (h : SlotsKept s t) (hu : u.table = t.table) : SlotsKept s u :=
  slotsKept_trans h (slotsKept_of_table hu)

theorem slotsKept_slot {s t : State} (h : SlotsKept s t) {i : Nat} {x : RecordSlot}
    (hx : s.table.slots[i]? = some x) : ∃ y, t.table.slots[i]? = some y ∧ SlotKept x y := by
  obtain ⟨_, f, hf, kf⟩ := h
  exact ⟨f x, by rw [hf, List.getElem?_map, hx]; rfl, kf x⟩

theorem slotsKept_record {s t : State} (h : SlotsKept s t) {r : Record} (hr : r ∈ residents s) :
    ∃ r' ∈ residents t, SameButRaw r r' := by
  obtain ⟨_, f, hf, kf⟩ := h
  obtain ⟨x, hx, hr⟩ := List.mem_filterMap.1 hr
  have h1 : x = .inUse r := by
    cases x <;> simp_all [RecordSlot.record?]
  subst h1
  obtain ⟨r', h2, h3⟩ := kf (.inUse r)
  refine ⟨r', ?_, h3⟩
  unfold residents
  rw [hf, List.filterMap_map, List.mem_filterMap]
  exact ⟨_, hx, by simp [h2, RecordSlot.record?]⟩

theorem slotsKept_record_back {s t : State} (h : SlotsKept s t) {r' : Record} (hr : r' ∈ residents t) :
    ∃ r ∈ residents s, SameButRaw r r' := by
  obtain ⟨_, f, hf, kf⟩ := h
  unfold residents at hr
  rw [hf, List.filterMap_map, List.mem_filterMap] at hr
  obtain ⟨x, hx, hr⟩ := hr
  have k := kf x
  cases x with
  | inUse r =>
    obtain ⟨r'', h2, h3⟩ := k
    simp only [Function.comp, h2, RecordSlot.record?, Option.some.injEq] at hr
    subst hr
    exact ⟨r, List.mem_filterMap.2 ⟨_, hx, rfl⟩, h3⟩
  | free => simp_all [SlotKept, RecordSlot.record?]
  | loading n ws => simp_all [SlotKept, RecordSlot.record?]

theorem slotsKept_update {s : State} (n : Nat) (f : Record → Record) (hf : ∀ r, SameButRaw r (f r)) :
    SlotsKept s (updateRecord n f s) := by
  refine ⟨rfl, RecordSlot.mapRecord n f, rfl, ?_⟩
  intro x
  cases x with
  | inUse r =>
    simp only [SlotKept, RecordSlot.mapRecord]
    split
    · exact ⟨_, rfl, hf r⟩
    · exact ⟨_, rfl, sameButRaw_refl r⟩
  | free => rfl
  | loading n ws => rfl

theorem slotsKept_markTaken (n : Nat) (s : State) : SlotsKept s (markTaken n s) :=
  ⟨rfl, id, by simp [markTaken], slotKept_refl⟩

@[simp] theorem allocationFailed_table (n : Nat) (s : State) :
    (allocationFailed n s).table = s.table := by
  unfold allocationFailed
  dsimp only
  split <;> simp

theorem slotsKept_startEntry (e : EntryWork) (s : State) : SlotsKept s (startEntry e s) := by
  unfold startEntry
  split
  · next n slot =>
    have h : SlotsKept s (markTaken n { s with card := { s.card with entries := s.card.entries.tail } }) :=
      slotsKept_trans (slotsKept_of_table rfl) (slotsKept_markTaken _ _)
    exact slotsKept_congr h (by simp)
  · exact slotsKept_of_table (by simp)

theorem slotsKept_startDeveloped (h : Handoff) (s : State) : SlotsKept s (startDeveloped h s) := by
  unfold startDeveloped
  split
  · exact slotsKept_of_table (by simp)
  · refine slotsKept_trans ?_ (slotsKept_of_table (s := updateRecord _ _ _) rfl)
    refine slotsKept_trans ?_ (slotsKept_update _ _ ?_)
    · exact slotsKept_of_table (by simp)
    · intro r; rfl

theorem slotsKept_startRaw (r : Record) (s : State) : SlotsKept s (startRaw r s) := by
  unfold startRaw
  split
  · refine slotsKept_trans ?_ (slotsKept_of_table (s := updateRecord _ _ _) rfl)
    exact slotsKept_update _ _ (fun r => rfl)
  · exact slotsKept_of_table (by simp)

theorem slotsKept_takeChoice (c : Choice) (s : State) : SlotsKept s (takeChoice c s) := by
  unfold takeChoice
  split
  · exact slotsKept_of_table (by simp)
  · exact slotsKept_of_table (by simp)
  · exact slotsKept_startEntry _ _
  · exact slotsKept_startDeveloped _ _
  · exact slotsKept_startRaw _ _
  · next n => exact slotsKept_congr (slotsKept_markTaken n s) (by simp)

theorem slotsKept_chooseWork (fuel : Nat) (s : State) : SlotsKept s (chooseWork fuel s) := by
  induction fuel generalizing s with
  | zero => exact slotsKept_of_table rfl
  | succ n ih =>
    unfold chooseWork
    split
    · exact slotsKept_trans (slotsKept_takeChoice _ _) (ih _)
    · exact slotsKept_of_table rfl

theorem slotsKept_startCardWork (s : State) : SlotsKept s (startCardWork s) := by
  unfold startCardWork
  split
  · exact slotsKept_congr (slotsKept_chooseWork choiceLimit s) (by simp)
  · exact slotsKept_of_table rfl

theorem slotsKept_serveBlocks (s : State) : SlotsKept s (serveBlocks s) := by
  unfold serveBlocks
  have h := slotsKept_startCardWork (attemptDispatch (serveDarkClaim s))
  exact slotsKept_congr (slotsKept_trans (slotsKept_of_table (by simp)) h) (by simp)

/-! ### The Card Store -/

/-- The Card Store of `t` is that of `s` but for its work, its lists and its map. -/
def CardKept (s t : State) : Prop :=
  t.card = { s.card with
    map := t.card.map, reads := t.card.reads, entries := t.card.entries, handoffs := t.card.handoffs,
    full := t.card.full, marks := t.card.marks, work := t.card.work, bus := t.card.bus }

theorem cardKept_of_card {s t : State} (h : t.card = s.card) : CardKept s t := by
  unfold CardKept
  rw [h]

theorem cardKept_trans {s t u : State} (h : CardKept s t) (h' : CardKept t u) : CardKept s u := by
  unfold CardKept at *
  rw [h', h]

theorem cardKept_congr {s t u : State} (h : CardKept s t) (hu : u.card = t.card) : CardKept s u :=
  cardKept_trans h (cardKept_of_card hu)

theorem cardKept_kick (s : State) : CardKept s (kick s) := by
  unfold kick
  split <;> rfl

theorem cardKept_setWork (w : Option CardWork) (s : State) : CardKept s (setWork w s) := rfl

theorem cardKept_allocationFailed (n : Nat) (s : State) : CardKept s (allocationFailed n s) := by
  unfold allocationFailed
  dsimp only
  split <;> rfl

theorem cardKept_takeChoice (c : Choice) (s : State) : CardKept s (takeChoice c s) := by
  unfold takeChoice startEntry startDeveloped startRaw
  repeat' split
  all_goals
    first
    | rfl
    | exact cardKept_trans (t := updateHandoff _ _ s) rfl (cardKept_allocationFailed _ _)
    | exact cardKept_trans (t := { s with card := { s.card with marks := _ } }) rfl
        (cardKept_allocationFailed _ _)

theorem cardKept_chooseWork (fuel : Nat) (s : State) : CardKept s (chooseWork fuel s) := by
  induction fuel generalizing s with
  | zero => rfl
  | succ n ih =>
    unfold chooseWork
    split
    · exact cardKept_trans (cardKept_takeChoice _ _) (ih _)
    · rfl

theorem cardKept_startCardWork (s : State) : CardKept s (startCardWork s) := by
  unfold startCardWork
  split
  · exact cardKept_trans (cardKept_chooseWork _ _) (cardKept_kick _)
  · rfl

theorem cardKept_dispatchJob (j : Job) (r : Record) (s : State) : CardKept s (dispatchJob j r s) := by
  unfold dispatchJob
  dsimp only
  split
  · exact cardKept_trans (cardKept_of_card (by split <;> simp)) (t := _) rfl
  · exact cardKept_of_card (by split <;> simp)

theorem cardKept_attemptDispatch (s : State) : CardKept s (attemptDispatch s) := by
  unfold attemptDispatch
  repeat' split
  · exact cardKept_of_card (by simp)
  · rfl
  · next j _ _ r _ => exact cardKept_congr (cardKept_dispatchJob j r s) (by simp)
  · exact cardKept_of_card (by simp)

theorem cardKept_serveBlocks (s : State) : CardKept s (serveBlocks s) := by
  unfold serveBlocks
  have h1 : CardKept s (serveDarkClaim s) := cardKept_of_card (by simp)
  exact cardKept_congr
    (cardKept_trans (cardKept_trans h1 (cardKept_attemptDispatch _)) (cardKept_startCardWork _))
    (by simp)

/-! ### Notices -/

/-- The notices of `t` are those of `s` but for CARD_FULL. -/
def NoticesKept (s t : State) : Prop :=
  t.notices.floor = s.notices.floor ∧
  t.notices.kinds.map Notice.level = s.notices.kinds.map Notice.level ∧
  ∀ i, i ≠ 8 → t.notices.kinds[i]? = s.notices.kinds[i]?

theorem noticesKept_of_notices {s t : State} (h : t.notices = s.notices) : NoticesKept s t := by
  unfold NoticesKept
  rw [h]
  exact ⟨rfl, rfl, fun _ _ => rfl⟩

theorem noticesKept_trans {s t u : State} (h : NoticesKept s t) (h' : NoticesKept t u) :
    NoticesKept s u :=
  ⟨h'.1.trans h.1, h'.2.1.trans h.2.1, fun i hi => (h'.2.2 i hi).trans (h.2.2 i hi)⟩

theorem noticesKept_congr {s t u : State} (h : NoticesKept s t) (hu : u.notices = t.notices) :
    NoticesKept s u := noticesKept_trans h (noticesKept_of_notices hu)

theorem raiseCount_other (k : NoticeKind) (x : Option Subject) (n : Nat) (s : State) (i : Nat)
    (h : i ≠ k.place) : (raiseCount k x n s).notices.kinds[i]? = s.notices.kinds[i]? := by
  simp only [raiseCount]
  rw [List.getElem?_modify_ne _ _ (fun e => h e.symm)]

theorem noticesKept_allocationFailed (n : Nat) (s : State) : NoticesKept s (allocationFailed n s) := by
  unfold allocationFailed
  dsimp only
  split
  · exact noticesKept_of_notices rfl
  · exact ⟨rfl, raiseCount_noticeLevels _ _ _ _, fun i hi => raiseCount_other .cardFull _ _ s i hi⟩

theorem noticesKept_takeChoice (c : Choice) (s : State) : NoticesKept s (takeChoice c s) := by
  unfold takeChoice startEntry startDeveloped startRaw
  repeat' split
  all_goals
    first
    | exact noticesKept_of_notices rfl
    | exact noticesKept_trans (t := updateHandoff _ _ s) (noticesKept_of_notices rfl)
        (noticesKept_allocationFailed _ _)
    | exact noticesKept_trans (t := { s with card := { s.card with marks := _ } })
        (noticesKept_of_notices rfl) (noticesKept_allocationFailed _ _)

theorem noticesKept_chooseWork (fuel : Nat) (s : State) : NoticesKept s (chooseWork fuel s) := by
  induction fuel generalizing s with
  | zero => exact noticesKept_of_notices rfl
  | succ n ih =>
    unfold chooseWork
    split
    · exact noticesKept_trans (noticesKept_takeChoice _ _) (ih _)
    · exact noticesKept_of_notices rfl

theorem noticesKept_startCardWork (s : State) : NoticesKept s (startCardWork s) := by
  unfold startCardWork
  split
  · exact noticesKept_congr (noticesKept_chooseWork choiceLimit s) (by simp)
  · exact noticesKept_of_notices rfl

theorem noticesKept_serveBlocks (s : State) : NoticesKept s (serveBlocks s) := by
  unfold serveBlocks
  have h1 : NoticesKept s (attemptDispatch (serveDarkClaim s)) := noticesKept_of_notices (by simp)
  exact noticesKept_congr (noticesKept_trans h1 (noticesKept_startCardWork _)) (by simp)

theorem noticesKept_service (s : State) : NoticesKept s (service s) := by
  unfold service
  dsimp only
  split
  · have h1 : NoticesKept s (finishDrain (serveBlocks s)) :=
      noticesKept_congr (noticesKept_serveBlocks s) (by simp)
    exact noticesKept_trans h1 (noticesKept_serveBlocks _)
  · exact noticesKept_serveBlocks s

/-- A kind other than CARD_FULL raised before the work that follows an event stays raised. -/
theorem raisedOnce_service {k : NoticeKind} {x : Option Subject} {s t : State} (hk : k ≠ .cardFull)
    (h : RaisedOnce k x s t) : RaisedOnce k x s (service t) := by
  unfold RaisedOnce at *
  rw [(noticesKept_service t).2.2 _ (by cases k <;> simp_all [NoticeKind.place]), h]

theorem raisedOnce_raise (k : NoticeKind) (x : Option Subject) (s : State) :
    RaisedOnce k x s (raise k x s) := by
  unfold RaisedOnce raise raiseCount
  dsimp only
  rw [List.getElem?_modify_eq]
  rfl

theorem raisedOnce_congr {k : NoticeKind} {x : Option Subject} {s t s' t' : State}
    (h : RaisedOnce k x s t) (hs : s'.notices = s.notices) (ht : t'.notices = t.notices) :
    RaisedOnce k x s' t' := by
  unfold RaisedOnce at *
  rw [hs, ht, h]

/-! ### The sequencer -/

/-- The sequencer of `t` is that of `s`, or has gone from IDLE to DARK. -/
def SeqKept (s t : State) : Prop :=
  t.seq = s.seq ∨
    (s.seq.state = .idle ∧ ∃ tm, t.seq = { s.seq with state := .dark, darkTimer := some tm })

theorem seqKept_of_seq {s t : State} (h : t.seq = s.seq) : SeqKept s t := Or.inl h

theorem seqKept_trans {s t u : State} (h : SeqKept s t) (h' : SeqKept t u) : SeqKept s u := by
  rcases h with h | ⟨hi, tm, h⟩
  · rcases h' with h' | ⟨hi', tm, h'⟩
    · exact Or.inl (h'.trans h)
    · exact Or.inr ⟨by rw [← h, hi'], tm, by rw [h', h]⟩
  · rcases h' with h' | ⟨hi', tm', h'⟩
    · exact Or.inr ⟨hi, tm, h'.trans h⟩
    · rw [h] at hi'
      cases hi'

theorem seqKept_attemptDark (s : State) : SeqKept s (attemptDark s) := by
  unfold attemptDark
  split
  · next h =>
    simp only [mayEnterDark, Bool.and_eq_true, beq_iff_eq] at h
    split
    · exact Or.inr ⟨h.1, _, rfl⟩
    · exact Or.inl rfl
    · exact Or.inl rfl
  · exact Or.inl rfl

theorem seqKept_serveDarkClaim (s : State) : SeqKept s (serveDarkClaim s) := by
  unfold serveDarkClaim
  repeat' split
  · exact seqKept_attemptDark s
  · exact Or.inl rfl
  · exact Or.inl rfl

theorem seqKept_serveBlocks (s : State) : SeqKept s (serveBlocks s) := by
  unfold serveBlocks
  exact seqKept_trans (seqKept_serveDarkClaim s) (seqKept_of_seq (by simp))

theorem seqKept_service (s : State) : SeqKept s (service s) := by
  unfold service
  dsimp only
  split
  · exact seqKept_trans (seqKept_trans (seqKept_serveBlocks s) (seqKept_of_seq (by simp)))
      (seqKept_serveBlocks (finishDrain _))
  · exact seqKept_serveBlocks s

/-- Outside IDLE the work that follows an event leaves the sequencer. -/
theorem service_seq {s : State} (h : s.seq.state ≠ .idle) : (service s).seq = s.seq := by
  rcases seqKept_service s with h' | ⟨h', _⟩
  · exact h'
  · exact absurd h' h

/-! ### Planes -/

theorem mem_freePlanes {p : Nat} {s : State} (h : p ∈ freePlanes s) : s.pool.owners[p]? = some .free := by
  unfold freePlanes at h
  obtain ⟨⟨o, i⟩, hm, rfl⟩ := List.mem_map.1 h
  obtain ⟨h1, h2⟩ := List.mem_filter.1 hm
  have h3 := List.mem_zipIdx_iff_getElem?.1 h1
  simp only [beq_iff_eq] at h2
  simpa [h2] using h3

theorem mem_freePlanes_iff {p : Nat} {s : State} :
    p ∈ freePlanes s ↔ s.pool.owners[p]? = some .free := by
  refine ⟨mem_freePlanes, fun h => ?_⟩
  unfold freePlanes
  refine List.mem_map.2 ⟨(.free, p), List.mem_filter.2 ⟨?_, by simp⟩, rfl⟩
  exact List.mem_zipIdx_iff_getElem?.2 h

/-- The lowest FREE plane is the first of them. -/
theorem freePlanes_head {p : Nat} {s : State} (h : LowestAt s.pool.owners .free p) :
    (freePlanes s).head? = some p := by
  obtain ⟨h1, h2⟩ := h
  unfold freePlanes
  have key : ∀ (l : List Owner) (k p : Nat), l[p]? = some .free → (∀ j, j < p → l[j]? ≠ some .free) →
      (((l.zipIdx k).filter fun q => q.1 == .free).map (·.2)).head? = some (k + p) := by
    intro l
    induction l with
    | nil => intro k p h; simp at h
    | cons a l ih =>
      intro k p h h'
      cases p with
      | zero => simp_all
      | succ p =>
        have ha : a ≠ .free := by simpa using h' 0 (by omega)
        have := ih (k + 1) p (by simpa using h) (fun j hj => by simpa using h' (j + 1) (by omega))
        rw [List.zipIdx_cons, List.filter_cons_of_neg (by simpa using ha), this]
        congr 1
        omega
  simpa using key s.pool.owners 0 p h1 h2

/-- Planes keep their owners but for FREE ones. -/
def OwnersKept (s t : State) : Prop :=
  ∀ (p : Nat) (o : Owner), s.pool.owners[p]? = some o → o ≠ .free → t.pool.owners[p]? = some o

theorem ownersKept_of_pool {s t : State} (h : t.pool.owners = s.pool.owners) : OwnersKept s t := by
  intro p o hp _
  rw [h, hp]

theorem ownersKept_trans {s t u : State} (h : OwnersKept s t) (h' : OwnersKept t u) : OwnersKept s u :=
  fun p o hp ho => h' p o (h p o hp ho) ho

theorem ownersKept_setOwner {s t : State} {q : Nat} (o : Owner) (ht : t.pool.owners = s.pool.owners)
    (h : s.pool.owners[q]? = some .free) : OwnersKept s (setOwner q o t) := by
  intro p o' hp ho
  simp only [setOwner, ht]
  rw [List.getElem?_set]
  split
  · next e =>
    subst e
    rw [h] at hp
    cases hp
    exact absurd rfl ho
  · exact hp

theorem ownersKept_claimPlane {s t : State} {q : Option Nat} (o : Owner)
    (ht : t.pool.owners = s.pool.owners) (h : ∀ p, q = some p → s.pool.owners[p]? = some .free) :
    OwnersKept s (claimPlane q o t) := by
  cases q with
  | none => exact ownersKept_of_pool ht
  | some p => exact ownersKept_setOwner o ht (h p rfl)

theorem ownersKept_attemptDark (s : State) : OwnersKept s (attemptDark s) := by
  unfold attemptDark
  split
  · split
    · next hp =>
      have h := mem_freePlanes (List.mem_of_mem_head? hp)
      exact ownersKept_setOwner _ rfl h
    · exact ownersKept_of_pool rfl
    · exact ownersKept_of_pool rfl
  · exact ownersKept_of_pool rfl

theorem ownersKept_serveDarkClaim (s : State) : OwnersKept s (serveDarkClaim s) := by
  unfold serveDarkClaim
  repeat' split
  · exact ownersKept_attemptDark s
  · exact ownersKept_of_pool rfl
  · exact ownersKept_of_pool rfl

theorem planesTaken_free (s : State) (k : JobKind) (life : Life) :
    (∀ p, (planesTaken s k life).1 = some p → p ∈ freePlanes s) ∧
    (∀ p, (planesTaken s k life).2 = some p → p ∈ freePlanes s) := by
  unfold planesTaken
  constructor <;> intro p h <;> split at h <;> first
    | exact List.mem_of_getElem? h
    | cases h

theorem ownersKept_dispatchJob (j : Job) (r : Record) (s : State) :
    OwnersKept s (dispatchJob j r s) := by
  obtain ⟨h1, h2⟩ := planesTaken_free s j.kind r.life
  have hp : ∀ t : State, t.pool.owners = s.pool.owners → OwnersKept s
      (claimPlane (planesTaken s j.kind r.life).1 .devFetch
        (claimPlane (planesTaken s j.kind r.life).2 .devOutput t)) := by
    intro t ht p o hpo ho
    have ha := ownersKept_claimPlane (s := s) .devOutput ht (fun p h => mem_freePlanes (h2 p h)) p o hpo ho
    cases hf : (planesTaken s j.kind r.life).1 with
    | none => simpa [claimPlane] using ha
    | some q =>
      simp only [claimPlane, setOwner]
      rw [List.getElem?_set]
      split
      · next e =>
        subst e
        rw [mem_freePlanes (h1 q hf)] at hpo
        cases hpo
        exact absurd rfl ho
      · exact ha
  unfold dispatchJob
  dsimp only
  have hk : ∀ u : State, (((if j.kind = .preview then slotToGive s else none).map fillSlot).getD id u).pool =
      u.pool := by
    intro u
    cases (if j.kind = .preview then slotToGive s else none) <;> simp
  split
  · refine ownersKept_trans (hp s rfl) (ownersKept_of_pool ?_)
    simp only [joinReads_keeps, hk]
  · refine ownersKept_trans (hp s rfl) (ownersKept_of_pool ?_)
    simp only [hk]

theorem ownersKept_attemptDispatch (s : State) : OwnersKept s (attemptDispatch s) := by
  unfold attemptDispatch
  repeat' split
  · exact ownersKept_of_pool rfl
  · exact ownersKept_of_pool rfl
  · next j _ _ r _ => exact ownersKept_trans (ownersKept_dispatchJob j r s) (ownersKept_of_pool rfl)
  · exact ownersKept_of_pool rfl

theorem ownersKept_serveBlocks (s : State) : OwnersKept s (serveBlocks s) := by
  unfold serveBlocks
  refine ownersKept_trans (ownersKept_trans (ownersKept_serveDarkClaim s)
    (ownersKept_attemptDispatch _)) (ownersKept_of_pool ?_)
  have : ∀ u : State, (claimForDark u).pool.owners = u.pool.owners := by
    intro u
    unfold claimForDark
    split <;> rfl
  simp [this]

/-! ### Dark references -/

/-- An entry that is not in the plan queue is left by the work that follows an event. -/
theorem entry_serveBlocks {s : State} {e : Nat} (h : e ∉ s.dark.plan) :
    (serveBlocks s).dark.entries[e]? = s.dark.entries[e]? ∧ e ∉ (serveBlocks s).dark.plan := by
  have key : (attemptDark s).dark.entries[e]? = s.dark.entries[e]? ∧ e ∉ (attemptDark s).dark.plan := by
    unfold attemptDark
    split
    · split
      · next e' p he hp =>
        have hmem : e' ∈ s.dark.plan := List.mem_of_mem_head? he
        have hne : e' ≠ e := fun h' => h (h' ▸ hmem)
        refine ⟨?_, ?_⟩
        · simp only [enterDark, setDarkEntry]
          rw [List.getElem?_set_ne hne]
          rfl
        · simp only [enterDark]
          intro hm
          exact h (List.mem_filter.1 hm).1
      · exact ⟨rfl, h⟩
      · exact ⟨rfl, h⟩
    · exact ⟨rfl, h⟩
  have h2 : (serveBlocks s).dark = (serveDarkClaim s).dark := by simp [serveBlocks]
  rw [h2]
  unfold serveDarkClaim
  repeat' split
  · exact key
  · exact ⟨rfl, h⟩
  · exact ⟨rfl, h⟩

theorem entry_service {s : State} {e : Nat} (h : e ∉ s.dark.plan) :
    (service s).dark.entries[e]? = s.dark.entries[e]? ∧ e ∉ (service s).dark.plan := by
  have h1 := entry_serveBlocks h
  unfold service
  dsimp only
  split
  · have h2 : e ∉ (finishDrain (serveBlocks s)).dark.plan := by simpa using h1.2
    have h3 := entry_serveBlocks h2
    refine ⟨?_, h3.2⟩
    rw [h3.1]
    simp only [finishDrain_keeps]
    exact h1.1
  · exact h1

/-- Outside IDLE the Dark Reference Table is left. -/
theorem service_dark {s : State} (h : s.seq.state ≠ .idle) : (service s).dark = s.dark := by
  have h1 : ∀ u : State, u.seq.state ≠ .idle → (serveBlocks u).dark = u.dark := by
    intro u hu
    simp only [serveBlocks, claimForDark_keeps, startCardWork_keeps, attemptDispatch_keeps]
    unfold serveDarkClaim
    repeat' split
    · next h => exact absurd h.1 hu
    · rfl
    · rfl
  have h2 : ∀ u : State, u.seq.state ≠ .idle → (serveBlocks u).seq = u.seq := by
    intro u hu
    rcases seqKept_serveBlocks u with h' | ⟨h', _⟩
    · exact h'
    · exact absurd h' hu
  unfold service
  dsimp only
  split
  · rw [h1 _ (by simpa [h2 s h] using h)]
    simp [h1 s h]
  · exact h1 s h

/-! ### Jobs and preview slots -/

/-- The jobs keep their places, shots, kinds, priorities and waiters. -/
def JobsKept (s t : State) : Prop :=
  ∃ f : Job → Job, t.dev.queue = s.dev.queue.map f ∧ ∀ j, (f j).shot = j.shot ∧ (f j).kind = j.kind ∧
    (f j).priority = j.priority ∧ (f j).waiters = j.waiters

theorem jobsKept_of_dev {s t : State} (h : t.dev = s.dev) : JobsKept s t :=
  ⟨id, by simp [h], fun _ => ⟨rfl, rfl, rfl, rfl⟩⟩

theorem jobsKept_job {s t : State} (h : JobsKept s t) {j : Job} (hj : j ∈ s.dev.queue) :
    ∃ j' ∈ t.dev.queue, j'.shot = j.shot ∧ j'.kind = j.kind ∧ j'.priority = j.priority ∧
      j'.waiters = j.waiters := by
  obtain ⟨f, hf, hk⟩ := h
  exact ⟨f j, by rw [hf]; exact List.mem_map_of_mem hj, hk j⟩

theorem dispatchJob_queue (j : Job) (r : Record) (s : State) :
    (dispatchJob j r s).dev.queue = s.dev.queue.map fun x =>
      if x.isFor j.shot j.kind then { x with key := currentKey s r.recipe, running := true } else x := by
  have hk : ∀ u : State, (((if j.kind = .preview then slotToGive s else none).map fillSlot).getD id u).dev =
      u.dev := by
    intro u
    cases (if j.kind = .preview then slotToGive s else none) <;> simp
  have hr : ∀ u : State, (((if j.kind = .preview then slotToGive s else none).map fillSlot).getD id u).recipes =
      u.recipes := by
    intro u
    cases (if j.kind = .preview then slotToGive s else none) <;> simp
  unfold dispatchJob
  dsimp only
  split
  · simp only [joinReads_keeps, hk, claimPlane_keeps, currentKey, recipeAt, hr]
  · simp only [hk, claimPlane_keeps, currentKey, recipeAt, hr]

theorem jobsKept_serveBlocks (s : State) : JobsKept s (serveBlocks s) := by
  have h : JobsKept s (attemptDispatch (serveDarkClaim s)) := by
    unfold attemptDispatch
    repeat' split
    · exact jobsKept_of_dev (by simp)
    · exact jobsKept_of_dev (by simp)
    · next j _ _ r _ =>
      have hq := dispatchJob_queue j r (serveDarkClaim s)
      have hd : (serveDarkClaim s).dev = s.dev := by simp
      rw [hd] at hq
      refine ⟨_, hq, fun x => ?_⟩
      split <;> exact ⟨rfl, rfl, rfl, rfl⟩
    · exact jobsKept_of_dev (by simp)
  have h2 : (serveBlocks s).dev = (attemptDispatch (serveDarkClaim s)).dev := by simp [serveBlocks]
  unfold JobsKept
  rw [h2]
  exact h

/-! ### Preview slots -/

/-- The cache is as it was, but that one slot may have been given to a job: a FREE one, or an unpinned VALID
one (R134). -/
def CacheKept (s t : State) : Prop :=
  t.cache = s.cache ∨ ∃ i x, s.cache.slots[i]? = some x ∧
    (x.state = .free ∨ (x.isValid = true ∧ x.pins = 0)) ∧ t.cache = (fillSlot i s).cache

theorem slotToGive_good {s : State} {i : Nat} (h : slotToGive s = some i) :
    ∃ x, s.cache.slots[i]? = some x ∧ (x.state = .free ∨ (x.isValid = true ∧ x.pins = 0)) := by
  unfold slotToGive at h
  split at h
  · next j hj =>
    cases h
    obtain ⟨hl, hf, _⟩ := List.findIdx?_eq_some_iff_getElem.1 hj
    exact ⟨_, List.getElem?_eq_getElem hl, Or.inl (by simpa [PreviewSlot.isFree] using hf)⟩
  · have hp := List.find?_some h
    simp only [Bool.and_eq_true, beq_iff_eq] at hp
    cases hx : s.cache.slots[i]? with
    | none => simp [previewSlot, hx, PreviewSlot.isValid] at hp
    | some x =>
      refine ⟨x, rfl, Or.inr ?_⟩
      simpa [previewSlot, hx] using hp

theorem dispatchJob_cache (j : Job) (r : Record) (s : State) :
    (dispatchJob j r s).cache =
      (((if j.kind = .preview then slotToGive s else none).map fillSlot).getD id s).cache := by
  have hk : ∀ (o : Option Nat) (u : State), u.cache = s.cache →
      ((o.map fillSlot).getD id u).cache = ((o.map fillSlot).getD id s).cache := by
    intro o u hu
    cases o with
    | none => exact hu
    | some i => simp [fillSlot, setPreview, hu]
  unfold dispatchJob
  dsimp only
  split
  · exact hk _ _ (by simp)
  · exact hk _ _ (by simp)

theorem cacheKept_dispatchJob (j : Job) (r : Record) (s : State) : CacheKept s (dispatchJob j r s) := by
  have h := dispatchJob_cache j r s
  split at h
  · cases hg : slotToGive s with
    | none => rw [hg] at h; exact Or.inl h
    | some i =>
      obtain ⟨x, hx, hx'⟩ := slotToGive_good hg
      rw [hg] at h
      exact Or.inr ⟨i, x, hx, hx', h⟩
  · exact Or.inl h

theorem cacheKept_attemptDispatch (s : State) : CacheKept s (attemptDispatch s) := by
  unfold attemptDispatch
  repeat' split
  · exact Or.inl rfl
  · exact Or.inl rfl
  · exact cacheKept_dispatchJob _ _ s
  · exact Or.inl rfl

theorem cacheKept_serveBlocks (s : State) : CacheKept s (serveBlocks s) := by
  have h := cacheKept_attemptDispatch (serveDarkClaim s)
  have hs : (serveDarkClaim s).cache = s.cache := by simp
  have ht : (serveBlocks s).cache = (attemptDispatch (serveDarkClaim s)).cache := by simp [serveBlocks]
  rcases h with h | ⟨i, x, hx, hx', h⟩
  · exact Or.inl (ht.trans (h.trans hs))
  · refine Or.inr ⟨i, x, by rw [← hs]; exact hx, hx', ht.trans (h.trans ?_)⟩
    simp [fillSlot, setPreview]

/-- A pinned slot is left as it is. -/
theorem cacheKept_pinned {s t : State} (h : CacheKept s t) {i : Nat} {x : PreviewSlot}
    (hx : s.cache.slots[i]? = some x) (hf : x.state ≠ .free) (hp : 0 < x.pins) :
    t.cache.slots[i]? = some x := by
  rcases h with h | ⟨j, y, hy, hy', h⟩
  · rw [h, hx]
  · rw [h]
    simp only [fillSlot, setPreview, List.getElem?_set]
    split
    · next e =>
      subst e
      rw [hx] at hy
      cases hy
      rcases hy' with h1 | ⟨_, h2⟩
      · exact absurd h1 hf
      · omega
    · exact hx

/-- A FREE slot stays FREE or is FILLING. -/
theorem cacheKept_free {s t : State} (h : CacheKept s t) {i : Nat} {x : PreviewSlot}
    (hx : s.cache.slots[i]? = some x) (hf : x.state = .free) :
    ∃ y, t.cache.slots[i]? = some y ∧ (y.state = .free ∨ y.state = .filling) := by
  rcases h with h | ⟨j, y, hy, _, h⟩
  · exact ⟨x, by rw [h, hx], Or.inl hf⟩
  · rw [h]
    simp only [fillSlot, setPreview, List.getElem?_set]
    obtain ⟨hl, _⟩ := List.getElem?_eq_some_iff.1 hx
    split
    · next e => subst e; exact ⟨{ state := .filling, pins := 0 }, by simp [hl], Or.inr rfl⟩
    · exact ⟨x, hx, Or.inl hf⟩

end Sys2Proof.Machine
end

