-- ==== Sys2Proof/Laws/Restart.lean ====
section
/-! SUPPORT. What the sequencer's, the Dark Unit's and the Development Engine's work at RESTART does to record slots,
planes and entries (R85, R88, R107, R111, R126, R128). -/

namespace Sys2Proof.Machine

/-! ### The sequencer, the engine and the card -/

/-- The sequencer after RESTART is IDLE with nothing of a shot left; the geometry and the count of samples stay. -/
theorem restartSequencer_seq (s : State) :
    (restartSequencer s).seq = { s.seq.idled with scratch := none } := by
  have hf : (freeScratch s).seq = { s.seq with scratch := none } := by
    unfold freeScratch releasePlane
    dsimp only
    split <;> rfl
  have hi : ∀ t : State, t.seq = { s.seq with scratch := none } →
      (idleSeq t).seq = { s.seq.idled with scratch := none } := fun t h => by simp [idleSeq, h, Seq.idled]
  have ho : ∀ t : State, t.seq = { s.seq with scratch := none } →
      (settleOpen t).seq = { s.seq.idled with scratch := none } := by
    intro t h
    have h2 : ∀ u : State, u.seq = { s.seq with scratch := none } →
        (freeScratch u).seq = { s.seq with scratch := none } := fun u hu => by
      unfold freeScratch releasePlane
      dsimp only
      split <;> simp [setOwner, hu]
    unfold settleOpen removeOpen holdShot
    repeat' split
    all_goals apply hi
    all_goals simp [h, h2]
  unfold restartSequencer
  dsimp only
  split
  · exact hi _ hf
  · exact hi _ hf
  · exact hi _ (by simp [hf])
  · exact ho _ (by simp [hf])
  · exact ho _ hf

theorem dropHolds_dev (s : State) : (dropHolds s).dev = { s.dev with engine := .idle, holds := none } := by
  unfold dropHolds endHolds
  dsimp only
  generalize s.dev.holds.bind (·.slot) = slot
  cases slot <;> simp [freeSlot, setPreview]

/-- The engine after RESTART (R128). -/
theorem restartDev_dev (s : State) : (restartDev s).dev =
    { queue := [], engine := .idle, holds := none, readout := false, floor := s.dev.floor } := by
  unfold restartDev
  dsimp only
  generalize (runningJob s).map (·.shot) = reading
  cases reading <;> simp [dropHolds_dev]

/-! ### Record slots, one by one -/

/-- No number is carried by two record slots (R22). -/
abbrev NumbersDistinct (s : State) : Prop := (slotNumbers s).Nodup

/-- Every slot whose record passes a test made FREE. -/
def RecordSlot.clearIf (p : Record → Bool) : RecordSlot → RecordSlot
  | .inUse r => if p r then .free else .inUse r
  | x => x

/-- Every record changed. -/
def RecordSlot.mapEach (f : Record → Record) : RecordSlot → RecordSlot
  | .inUse r => .inUse (f r)
  | x => x

/-- A change of the slots that keeps the number of each, or takes it away. -/
def KeepsNumbers (f : RecordSlot → RecordSlot) : Prop :=
  ∀ x, (f x).number? = none ∨ (f x).number? = x.number?

theorem keepsNumbers_clearIf (p : Record → Bool) : KeepsNumbers (RecordSlot.clearIf p) := by
  intro x
  cases x with
  | inUse r =>
    simp only [RecordSlot.clearIf]
    split
    · exact .inl rfl
    · exact .inr rfl
  | _ => exact .inr rfl

theorem keepsNumbers_mapEach {f : Record → Record} (h : ∀ r, (f r).number = r.number) :
    KeepsNumbers (RecordSlot.mapEach f) := by
  intro x
  cases x with
  | inUse r => exact .inr (congrArg some (h r))
  | _ => exact .inr rfl

theorem numbersDistinct_map {s t : State} {f : RecordSlot → RecordSlot} (hf : KeepsNumbers f)
    (ht : t.table.slots = s.table.slots.map f) (h : NumbersDistinct s) : NumbersDistinct t := by
  have key : ∀ l : List RecordSlot,
      ((l.map f).filterMap RecordSlot.number?).Sublist (l.filterMap RecordSlot.number?) := by
    intro l
    induction l with
    | nil => exact List.Sublist.refl _
    | cons x l ih =>
      rw [List.map_cons]
      cases hx : x.number? with
      | none =>
        have h1 : (f x).number? = none := by
          rcases hf x with h1 | h1
          · exact h1
          · exact h1.trans hx
        rw [List.filterMap_cons_none h1, List.filterMap_cons_none hx]
        exact ih
      | some n =>
        rw [List.filterMap_cons_some hx]
        rcases hf x with h1 | h1
        · rw [List.filterMap_cons_none h1]
          exact ih.cons n
        · rw [List.filterMap_cons_some (h1.trans hx)]
          exact ih.cons_cons n
  unfold NumbersDistinct slotNumbers at *
  rw [ht]
  exact h.sublist (key _)

theorem mem_residents {s : State} {r : Record} : r ∈ residents s ↔ ∃ i : Nat, s.table.slots[i]? = some
    (RecordSlot.inUse r) := by
  unfold residents
  rw [List.mem_filterMap]
  constructor
  · rintro ⟨x, hx, hr⟩
    obtain ⟨i, hi⟩ := List.mem_iff_getElem?.1 hx
    cases x with
    | inUse y => exact ⟨i, by cases hr; exact hi⟩
    | _ => cases hr
  · rintro ⟨i, hi⟩
    exact ⟨_, List.mem_of_getElem? hi, rfl⟩

/-- The residents' numbers are among those of the slots, in their order. -/
theorem residentNumbers_sublist (s : State) : ((residents s).map (·.number)).Sublist (slotNumbers s) := by
  unfold residents slotNumbers
  generalize s.table.slots = l
  induction l with
  | nil => exact List.Sublist.refl _
  | cons x l ih =>
    cases x with
    | inUse r => exact ih.cons_cons _
    | free => exact ih
    | loading n ws => exact ih.cons _

theorem residentNumbers_nodup {s : State} (h : NumbersDistinct s) : ((residents s).map (·.number)).Nodup :=
  h.sublist (residentNumbers_sublist s)

theorem resident_unique {s : State} (h : NumbersDistinct s) {x y : Record} (hx : x ∈ residents s)
    (hy : y ∈ residents s) (e : x.number = y.number) : x = y :=
  List.inj_on_of_nodup_map (residentNumbers_nodup h) hx hy e

theorem findRecord_eq {s : State} (h : NumbersDistinct s) {r : Record} (hr : r ∈ residents s) :
    findRecord s r.number = some r := by
  unfold findRecord
  cases hf : (residents s).find? fun x => x.number == r.number with
  | none => exact absurd (List.find?_eq_none.1 hf r hr) (by simp)
  | some y =>
    have hy := List.find?_some hf
    rw [resident_unique h (List.mem_of_find?_eq_some hf) hr (by simpa using hy)]

theorem findRecord_mem {s : State} {n : Nat} {r : Record} (h : findRecord s n = some r) :
    r ∈ residents s ∧ r.number = n :=
  ⟨List.mem_of_find?_eq_some h, by simpa using List.find?_some h⟩

/-- The slots of one number: a removal frees the one that carries it. -/
theorem removeRecord_slots {s : State} (h : NumbersDistinct s) (n : Nat) :
    (removeRecord n s).table.slots = s.table.slots.map (RecordSlot.clearIf fun r => r.number == n) := by
  have key : ∀ l : List RecordSlot, (l.filterMap RecordSlot.number?).Nodup →
      (match l.findIdx? (RecordSlot.carries n) with
        | none => l
        | some i => l.set i .free) = l.map (RecordSlot.clearIf fun r => r.number == n) := by
    intro l
    induction l with
    | nil => intro _; rfl
    | cons x l ih =>
      intro hl
      have hrest : ∀ m, x.number? = some m → ∀ y ∈ l, y.number? ≠ some m := by
        intro m hm y hy e
        rw [List.filterMap_cons_some hm, List.nodup_cons] at hl
        exact hl.1 (List.mem_filterMap.2 ⟨y, hy, e⟩)
      have hl' : (l.filterMap RecordSlot.number?).Nodup := by
        cases hx : x.number? with
        | none => rwa [List.filterMap_cons_none hx] at hl
        | some m => rw [List.filterMap_cons_some hx, List.nodup_cons] at hl; exact hl.2
      rw [List.findIdx?_cons]
      by_cases hc : x.carries n = true
      · rw [if_pos hc]
        cases x with
        | inUse r =>
          have hn : r.number = n := by simpa [RecordSlot.carries] using hc
          have hid : l.map (RecordSlot.clearIf fun r => r.number == n) = l := by
            rw [List.map_congr_left (g := id), List.map_id]
            intro y hy
            cases y with
            | inUse q =>
              have : q.number ≠ n := fun e => hrest n (by rw [← hn]; rfl) _ hy (by rw [← e]; rfl)
              simp [RecordSlot.clearIf, this]
            | _ => rfl
          simp [RecordSlot.clearIf, hn, hid]
        | free => cases hc
        | loading m ws => cases hc
      · rw [if_neg hc]
        have hx : RecordSlot.clearIf (fun r => r.number == n) x = x := by
          cases x with
          | inUse r => simp only [RecordSlot.carries] at hc; simp [RecordSlot.clearIf, hc]
          | _ => rfl
        rw [List.map_cons, hx, ← ih hl']
        cases l.findIdx? (RecordSlot.carries n) <;> rfl
  have h2 : (removeRecord n s).table.slots = match s.table.slots.findIdx? (RecordSlot.carries n) with
      | none => s.table.slots
      | some i => s.table.slots.set i .free := by
    unfold removeRecord slotOf
    cases s.table.slots.findIdx? (RecordSlot.carries n) <;> rfl
  rw [h2]
  exact key _ h

/-! ### Records taken away -/

/-- The records of these numbers are removed one after another, with their hand-offs (R153, R156 step 3). -/
def takeAway (l : List Nat) (s : State) : State := l.foldl (fun s n => removeRecord n (freeHandoffs n s)) s

theorem discardRecords_eq (l : List Nat) (s : State) : l.foldl discardRecord s = takeAway l s := rfl

theorem removeJobs_none {s : State} (n : Nat) (c : ResultCode) (h : s.dev.queue = []) : removeJobs n c s = s := by
  unfold removeJobs dropJobs
  simp only [h, List.filter_nil, List.any_nil, List.flatMap_nil, answerAll, List.foldl_nil, Bool.false_eq_true,
    if_false]
  cases s with
  | mk _ _ _ _ _ _ _ _ _ _ _ _ _ _ _ _ _ dev _ _ _ =>
    cases dev
    cases h
    rfl

theorem dropRecords_eq {l : List Nat} {s : State} (h : s.dev.queue = []) : l.foldl dropRecord s = takeAway l s := by
  unfold takeAway
  induction l generalizing s with
  | nil => rfl
  | cons n l ih =>
    rw [List.foldl_cons, List.foldl_cons]
    have h1 : dropRecord s n = removeRecord n (freeHandoffs n s) := by
      unfold dropRecord
      rw [removeJobs_none n .noCard h]
    rw [h1]
    exact ih (by simpa using h)

theorem clearIf_or (p q : Record → Bool) (x : RecordSlot) :
    RecordSlot.clearIf q (RecordSlot.clearIf p x) = RecordSlot.clearIf (fun r => p r || q r) x := by
  cases x with
  | inUse r => cases hp : p r <;> simp [RecordSlot.clearIf, hp]
  | _ => rfl

/-- The slots of the records taken away are FREE, and the others as they were. -/
theorem takeAway_slots (l : List Nat) {s : State} (h : NumbersDistinct s) :
    (takeAway l s).table.slots = s.table.slots.map (RecordSlot.clearIf fun r => l.contains r.number) := by
  induction l generalizing s with
  | nil =>
    have : RecordSlot.clearIf (fun r => ([] : List Nat).contains r.number) = id := by
      funext x
      cases x <;> rfl
    rw [this, List.map_id]
    rfl
  | cons n l ih =>
    have h0 : (freeHandoffs n s).table = s.table := by simp
    have hd : NumbersDistinct (freeHandoffs n s) := by
      unfold NumbersDistinct slotNumbers; rw [h0]; exact h
    have h1 := removeRecord_slots hd n
    have h2 := ih (numbersDistinct_map (keepsNumbers_clearIf _) h1 hd)
    have h3 : takeAway (n :: l) s = takeAway l (removeRecord n (freeHandoffs n s)) := rfl
    rw [h3, h2, h1, h0, List.map_map]
    apply List.map_congr_left
    intro x _
    rw [Function.comp, clearIf_or]
    congr 1

theorem takeAway_card (l : List Nat) (s : State) : (takeAway l s).card =
    { s.card with handoffs := s.card.handoffs.filter fun h => !l.contains h.shot } := by
  induction l generalizing s with
  | nil => simp [takeAway]
  | cons n l ih =>
    have hp : ∀ (ps : List Nat) (t : State), (ps.foldl (fun s p => setOwner p .free s) t).card = t.card := by
      intro ps
      induction ps with
      | nil => intro t; rfl
      | cons p ps ih => intro t; exact ih _
    have h3 : takeAway (n :: l) s = takeAway l (removeRecord n (freeHandoffs n s)) := rfl
    rw [h3, ih]
    simp only [removeRecord_keeps, freeHandoffs, hp, List.filter_filter]
    congr 1
    apply List.filter_congr
    intro x _
    by_cases e : x.shot = n
    · simp [e]
    · simp [e, bne_iff_ne.2 e]

/-- A plane is FREE after a take-away when a hand-off taken held it, and as it was otherwise. -/
theorem takeAway_owner (l : List Nat) (s : State) (p : Nat) :
    (takeAway l s).pool.owners[p]? =
      if (∃ h ∈ s.card.handoffs, h.shot ∈ l ∧ h.plane = p) ∧ p < s.pool.owners.length then some .free
      else s.pool.owners[p]? := by
  have hp : ∀ (ps : List Nat) (t : State), (ps.foldl (fun s p => setOwner p .free s) t).pool.owners[p]? =
      if p ∈ ps ∧ p < t.pool.owners.length then some .free else t.pool.owners[p]? := by
    intro ps
    induction ps with
    | nil => intro t; simp
    | cons q ps ih =>
      intro t
      rw [List.foldl_cons, ih]
      have hl : (setOwner q .free t).pool.owners.length = t.pool.owners.length := by simp [setOwner]
      rw [hl]
      by_cases h1 : p ∈ ps ∧ p < t.pool.owners.length
      · rw [if_pos h1, if_pos ⟨List.mem_cons_of_mem _ h1.1, h1.2⟩]
      · rw [if_neg h1]
        simp only [setOwner, List.getElem?_set, List.mem_cons]
        by_cases h2 : q = p
        · subst h2
          by_cases h3 : q < t.pool.owners.length <;> simp [h3]
        · have h3 : ¬ ((p = q ∨ p ∈ ps) ∧ p < t.pool.owners.length) := by
            rintro ⟨h3 | h3, h4⟩
            · exact h2 h3.symm
            · exact h1 ⟨h3, h4⟩
          rw [if_neg h2, if_neg h3]
  induction l generalizing s with
  | nil => simp [takeAway]
  | cons n l ih =>
    have h3 : takeAway (n :: l) s = takeAway l (removeRecord n (freeHandoffs n s)) := rfl
    have hlen : (freeHandoffs n s).pool.owners.length = s.pool.owners.length := by simp
    have hc : ∀ (ps : List Nat) (t : State), (ps.foldl (fun s p => setOwner p .free s) t).card = t.card := by
      intro ps
      induction ps with
      | nil => intro t; rfl
      | cons p ps ih => intro t; exact ih _
    rw [h3, ih]
    simp only [removeRecord_keeps, hlen]
    have hcard : (freeHandoffs n s).card.handoffs = s.card.handoffs.filter fun h => h.shot != n := by
      simp only [freeHandoffs, hc]
    have hown : (freeHandoffs n s).pool.owners[p]? =
        if p ∈ (s.card.handoffs.filter fun h => h.shot == n).map (·.plane) ∧ p < s.pool.owners.length
        then some .free else s.pool.owners[p]? := by
      simp only [freeHandoffs, hp]
    rw [hcard, hown]
    have hiff : (∃ h ∈ s.card.handoffs, h.shot ∈ n :: l ∧ h.plane = p) ↔
        (∃ h ∈ s.card.handoffs.filter (fun h => h.shot != n), h.shot ∈ l ∧ h.plane = p) ∨
        p ∈ (s.card.handoffs.filter fun h => h.shot == n).map (·.plane) := by
      constructor
      · rintro ⟨h, hm, h4, h5⟩
        by_cases h7 : h.shot = n
        · exact .inr (List.mem_map.2 ⟨h, List.mem_filter.2 ⟨hm, by simp [h7]⟩, h5⟩)
        · exact .inl ⟨h, List.mem_filter.2 ⟨hm, by simp [h7]⟩, (List.mem_cons.1 h4).resolve_left h7, h5⟩
      · rintro (⟨h, hm, h4, h5⟩ | h2)
        · exact ⟨h, (List.mem_filter.1 hm).1, List.mem_cons_of_mem _ h4, h5⟩
        · obtain ⟨h, hm, h5⟩ := List.mem_map.1 h2
          obtain ⟨hm, h4⟩ := List.mem_filter.1 hm
          exact ⟨h, hm, List.mem_cons.2 (.inl (by simpa using h4)), h5⟩
    by_cases hl : p < s.pool.owners.length
    · by_cases hA : ∃ h ∈ s.card.handoffs.filter (fun h => h.shot != n), h.shot ∈ l ∧ h.plane = p
      · rw [if_pos ⟨hA, hl⟩, if_pos ⟨hiff.2 (.inl hA), hl⟩]
      · by_cases hB : p ∈ (s.card.handoffs.filter fun h => h.shot == n).map (·.plane)
        · rw [if_neg (fun h => hA h.1), if_pos ⟨hB, hl⟩, if_pos ⟨hiff.2 (.inr hB), hl⟩]
        · rw [if_neg (fun h => hA h.1), if_neg (fun h => hB h.1), if_neg (fun h => (hiff.1 h.1).elim hA hB)]
    · rw [if_neg (fun h => hl h.2), if_neg (fun h => hl h.2), if_neg (fun h => hl h.2)]

/-! ### Places in the use order and in the amendment list -/

/-- From one table to another every record keeps its slot and its place in the use order, or leaves its slot, the use
order and the amendment list; FREE slots stay FREE. -/
structure TableFollows (s t : State) : Prop where
  order : t.table.useOrder.Sublist s.table.useOrder
  amended : t.table.amended.Sublist s.table.amended
  free : ∀ i : Nat, s.table.slots[i]? = some RecordSlot.free → t.table.slots[i]? = some RecordSlot.free
  record : ∀ (i : Nat) (r : Record), s.table.slots[i]? = some (RecordSlot.inUse r) →
    (t.table.slots[i]? = some RecordSlot.free ∧ i ∉ t.table.useOrder ∧ ∀ a ∈ t.table.amended, a.shot ≠ r.number) ∨
    ∃ y, t.table.slots[i]? = some (RecordSlot.inUse y) ∧ y.number = r.number ∧
      (i ∈ s.table.useOrder → i ∈ t.table.useOrder)

theorem tableFollows_of_table {s t : State} (h : t.table = s.table) : TableFollows s t where
  order := by rw [h]
  amended := by rw [h]
  free := by rw [h]; exact fun _ => id
  record := by rw [h]; exact fun i r hr => .inr ⟨r, hr, rfl, id⟩

theorem tableFollows_trans {s t u : State} (h : TableFollows s t) (h' : TableFollows t u) : TableFollows s u where
  order := h'.order.trans h.order
  amended := h'.amended.trans h.amended
  free i hi := h'.free i (h.free i hi)
  record i r hr := by
    rcases h.record i r hr with ⟨h1, h2, h3⟩ | ⟨y, h1, h2, h3⟩
    · exact .inl ⟨h'.free i h1, fun m => h2 (h'.order.subset m), fun a m => h3 a (h'.amended.subset m)⟩
    · rcases h'.record i y h1 with ⟨k1, k2, k3⟩ | ⟨z, k1, k2, k3⟩
      · exact .inl ⟨k1, k2, fun a m => h2 ▸ k3 a m⟩
      · exact .inr ⟨z, k1, k2.trans h2, fun m => k3 (h3 m)⟩

/-- Records changed in their slots, their numbers kept. -/
theorem tableFollows_map {s t : State} {f : RecordSlot → RecordSlot} (hs : t.table.slots = s.table.slots.map f)
    (ho : t.table.useOrder = s.table.useOrder) (ha : t.table.amended.Sublist s.table.amended)
    (hf : f .free = .free) (hr : ∀ r, ∃ y, f (.inUse r) = .inUse y ∧ y.number = r.number) : TableFollows s t where
  order := by rw [ho]
  amended := ha
  free i hi := by rw [hs, List.getElem?_map, hi]; exact congrArg some hf
  record i r hi := by
    obtain ⟨y, h1, h2⟩ := hr r
    exact .inr ⟨y, by rw [hs, List.getElem?_map, hi]; exact congrArg some h1, h2, by rw [ho]; exact id⟩

theorem tableFollows_removeRecord (n : Nat) (s : State) : TableFollows s (removeRecord n s) := by
  unfold removeRecord
  split
  · exact tableFollows_of_table rfl
  · next j hj =>
    obtain ⟨hl, hc, _⟩ := List.findIdx?_eq_some_iff_getElem.1 hj
    refine ⟨List.filter_sublist, List.filter_sublist, fun i hi => ?_, fun i r hi => ?_⟩
    · change (s.table.slots.set j .free)[i]? = _
      rw [List.getElem?_set]
      split
      · next e => subst e; simp
      · exact hi
    · by_cases e : j = i
      · subst e
        refine .inl ⟨?_, ?_, fun a m => ?_⟩
        · change (s.table.slots.set j .free)[j]? = _
          simp [hl]
        · intro m
          have := (List.mem_filter.1 m).2
          simp at this
        · have hn : r.number = n := by
            rw [List.getElem?_eq_getElem hl, Option.some.injEq] at hi
            simpa [RecordSlot.carries, hi] using hc
          have := (List.mem_filter.1 m).2
          rw [hn]
          simpa using this
      · refine .inr ⟨r, ?_, rfl, fun m => List.mem_filter.2 ⟨m, by simpa using Ne.symm e⟩⟩
        change (s.table.slots.set j .free)[i]? = _
        rw [List.getElem?_set_ne e]
        exact hi

theorem tableFollows_takeAway (l : List Nat) (s : State) : TableFollows s (takeAway l s) := by
  induction l generalizing s with
  | nil => exact tableFollows_of_table rfl
  | cons n l ih =>
    exact tableFollows_trans (tableFollows_trans (tableFollows_of_table (by simp))
      (tableFollows_removeRecord n (freeHandoffs n s))) (ih _)

theorem tableFollows_updateRecord (n : Nat) {f : Record → Record} (hf : ∀ r, (f r).number = r.number) (s : State) :
    TableFollows s (updateRecord n f s) :=
  tableFollows_map rfl rfl (List.Sublist.refl _) rfl fun r => by
    simp only [RecordSlot.mapRecord]
    split
    · exact ⟨_, rfl, hf r⟩
    · exact ⟨_, rfl, rfl⟩

/-! ### The records of a list -/

theorem contains_shotsWhere {s : State} (h : NumbersDistinct s) (p : Record → Bool) {r : Record}
    (hr : r ∈ residents s) : (shotsWhere s p).contains r.number = p r := by
  rw [Bool.eq_iff_iff, List.contains_iff_mem]
  unfold shotsWhere
  rw [(List.perm_insertionSort _ _).mem_iff, List.mem_map]
  constructor
  · rintro ⟨y, hy, e⟩
    obtain ⟨hy, hp⟩ := List.mem_filter.1 hy
    rwa [← resident_unique h hy hr e]
  · exact fun hp => ⟨r, List.mem_filter.2 ⟨hr, hp⟩, rfl⟩

theorem nodup_shotsWhere {s : State} (h : NumbersDistinct s) (p : Record → Bool) : (shotsWhere s p).Nodup := by
  unfold shotsWhere
  exact (List.perm_insertionSort _ _).nodup_iff.2
    ((residentNumbers_nodup h).sublist (List.Sublist.map _ List.filter_sublist))

/-- A change of the slots that agrees on every resident record is the same change. -/
theorem map_slots_congr {s : State} {f g : RecordSlot → RecordSlot} (hf : f .free = g .free)
    (hl : ∀ n ws, f (.loading n ws) = g (.loading n ws)) (hr : ∀ r ∈ residents s, f (.inUse r) = g (.inUse r)) :
    s.table.slots.map f = s.table.slots.map g := by
  apply List.map_congr_left
  intro x hx
  cases x with
  | free => exact hf
  | loading n ws => exact hl n ws
  | inUse r => exact hr r (List.mem_filterMap.2 ⟨_, hx, rfl⟩)

theorem takeAway_shotsWhere {s t : State} (p : Record → Bool) (h : NumbersDistinct s)
    (ht : t.table.slots = s.table.slots) :
    (takeAway (shotsWhere s p) t).table.slots = s.table.slots.map (RecordSlot.clearIf p) := by
  have hd : NumbersDistinct t := by unfold NumbersDistinct slotNumbers; rw [ht]; exact h
  rw [takeAway_slots _ hd, ht]
  exact map_slots_congr rfl (fun _ _ => rfl) fun r hr => by
    simp only [RecordSlot.clearIf, contains_shotsWhere h p hr]

/-- Records updated one after another, each of them once. -/
theorem foldl_update_slots {step : State → Nat → State} {f : Record → Record}
    (hstep : ∀ s n, (step s n).table.slots = s.table.slots.map (RecordSlot.mapRecord n f))
    (hf : ∀ r, (f r).number = r.number) {l : List Nat} (hl : l.Nodup) (s : State) :
    (l.foldl step s).table.slots =
      s.table.slots.map (RecordSlot.mapEach fun r => if l.contains r.number then f r else r) := by
  induction l generalizing s with
  | nil =>
    have : RecordSlot.mapEach (fun r => if ([] : List Nat).contains r.number then f r else r) = id := by
      funext x
      cases x <;> rfl
    rw [this, List.map_id]
    rfl
  | cons n l ih =>
    rw [List.nodup_cons] at hl
    rw [List.foldl_cons, ih hl.2, hstep, List.map_map]
    apply List.map_congr_left
    intro x _
    cases x with
    | inUse r =>
      by_cases e : r.number = n
      · have : l.contains n = false := by simpa using hl.1
        simp [RecordSlot.mapRecord, RecordSlot.mapEach, e, hf, hl.1]
      · simp [RecordSlot.mapRecord, RecordSlot.mapEach, e]
    | _ => rfl

/-! ### The open shot at RESTART -/

theorem freeScratch_seq (s : State) : (freeScratch s).seq = { s.seq with scratch := none } := by
  unfold freeScratch releasePlane
  dsimp only
  split <;> rfl

theorem releasePlane_owner (q : Option Nat) (s : State) (p : Nat) :
    (releasePlane q s).pool.owners[p]? =
      if q = some p ∧ p < s.pool.owners.length then some .free else s.pool.owners[p]? := by
  cases q with
  | none => simp [releasePlane]
  | some q =>
    simp only [releasePlane, setOwner, List.getElem?_set, Option.some.injEq]
    by_cases e : q = p
    · subst e
      by_cases hl : q < s.pool.owners.length <;> simp [hl]
    · simp [e]

theorem freeScratch_owner (s : State) (p : Nat) :
    (freeScratch s).pool.owners[p]? =
      if s.seq.scratch = some p ∧ p < s.pool.owners.length then some .free else s.pool.owners[p]? :=
  releasePlane_owner _ _ p

theorem freeScratch_none {s : State} (h : s.seq.scratch = none) : (freeScratch s).pool.owners = s.pool.owners := by
  unfold freeScratch
  simp only [h, releasePlane]

theorem finishedRecord_congr {s t : State} (h : t.rolls = s.rolls) (r : Record) :
    finishedRecord t r = finishedRecord s r := by
  unfold finishedRecord rollOf rollAt
  rw [h]

/-- What the sequencer's RESTART work makes of a slot: an OPEN record without a DONE exposure leaves it, another is
finished short (R85). -/
def RecordSlot.settled (s : State) : RecordSlot → RecordSlot
  | .inUse r =>
    if r.life = .opened then
      if exposureCount r = 0 then .free else .inUse (finishedRecord s (Record.setEntry s.seq.k ExpEntry.cutOff r))
    else .inUse r
  | x => x

theorem keepsNumbers_settled (s : State) : KeepsNumbers (RecordSlot.settled s) := by
  intro x
  cases x with
  | inUse r =>
    simp only [RecordSlot.settled]
    split
    · split
      · exact .inl rfl
      · exact .inr rfl
    · exact .inr rfl
  | _ => exact .inr rfl

/-- An OPEN record that RESTART removes (R85). -/
def RemovedOpen (s : State) (r : Record) : Prop := r ∈ residents s ∧ r.life = .opened ∧ exposureCount r = 0

/-- The work of `settleOpen` on the open shot, in a state that meets the laws of R22 and R62. -/
structure SettlesOpen (s t : State) : Prop where
  slots : t.table.slots = s.table.slots.map (RecordSlot.settled s)
  follows : TableFollows s t
  length : t.pool.owners.length = s.pool.owners.length
  owner : ∀ p, (∀ r, RemovedOpen s r → r.rawPlane ≠ some p) → t.pool.owners[p]? = s.pool.owners[p]?
  freed : ∀ r p, RemovedOpen s r → r.rawPlane = some p → p < s.pool.owners.length → t.pool.owners[p]? = some .free
  gave : ∀ r i roll, RemovedOpen s r → s.rolls.current = some i → s.rolls.slots[i]? = some (.opened roll) →
    t.rolls = { s.rolls with slots := s.rolls.slots.set i (.opened { roll with nextFrame := roll.nextFrame - 1 }) }
  kept : (∀ r, ¬ RemovedOpen s r) → t.rolls = s.rolls

theorem giveFrameBack_rolls {s : State} {i : Nat} {roll : Roll} (hc : s.rolls.current = some i)
    (h : s.rolls.slots[i]? = some (.opened roll)) : (giveFrameBack s).rolls =
      { s.rolls with slots := s.rolls.slots.set i (.opened { roll with nextFrame := roll.nextFrame - 1 }) } := by
  unfold giveFrameBack
  rw [hc]
  simp only [updateRoll]
  congr 1
  apply List.ext_getElem?
  intro j
  rw [List.getElem?_modify, List.getElem?_set]
  obtain ⟨hl, hg⟩ := List.getElem?_eq_some_iff.1 h
  by_cases e : i = j
  · subst e
    simp [hl, hg, RollSlot.mapRoll]
  · simp [e]

/-- With no shot open the sequencer's RESTART work leaves the table. -/
theorem settled_id {s : State} (h : ∀ r ∈ residents s, r.life ≠ .opened) :
    s.table.slots.map (RecordSlot.settled s) = s.table.slots := by
  refine (map_slots_congr (s := s) (f := RecordSlot.settled s) (g := id) rfl (fun _ _ => rfl) fun r hr => ?_).trans
      (List.map_id _)
  simp [RecordSlot.settled, h r hr]

theorem settlesOpen_none {s t : State} (h : ∀ r ∈ residents s, r.life ≠ .opened) (ht : t.table = s.table)
    (hp : t.pool.owners = s.pool.owners) (hr : t.rolls = s.rolls) : SettlesOpen s t where
  slots := by rw [ht, settled_id h]
  follows := tableFollows_of_table ht
  length := by rw [hp]
  owner p _ := by rw [hp]
  freed r p hr := absurd hr.2.1 (h r hr.1)
  gave r i roll hr := absurd hr.2.1 (h r hr.1)
  kept _ := hr

/-- `settleOpen` settles the open shot by its DONE entries (R85). -/
theorem settleOpen_settles {s : State} (hd : NumbersDistinct s) (ho : OpenShotAgrees s) (hs : s.seq.scratch = none) :
    SettlesOpen s (settleOpen s) := by
  obtain ⟨_, h2, h3⟩ := ho
  cases hn : s.seq.openShot with
  | none =>
    have hno : ∀ r ∈ residents s, r.life ≠ .opened := fun r hr e => by
      have := h3 r hr e
      rw [hn] at this
      cases this
    have he : settleOpen s = idleSeq s := by
      unfold settleOpen openRecord
      rw [hn]
      rfl
    rw [he]
    exact settlesOpen_none hno (by simp) (by simp) (by simp)
  | some n =>
    obtain ⟨r, hr, hrn, hrl⟩ := h2 n hn
    have hopen : openRecord s = some r := by
      unfold openRecord
      rw [hn]
      change findRecord s n = some r
      rw [← hrn]
      exact findRecord_eq hd hr
    have huniq : ∀ x ∈ residents s, x.life = .opened ↔ x.number = n := by
      intro x hx
      constructor
      · intro e
        have := h3 x hx e
        rw [hn] at this
        exact (Option.some.inj this).symm
      · intro e
        rw [resident_unique hd hx hr (e.trans hrn.symm)]
        exact hrl
    have hone : ∀ x, RemovedOpen s x → x = r := fun x hx =>
      resident_unique hd hx.1 hr (((huniq x hx.1).1 hx.2.1).trans hrn.symm)
    by_cases hc : exposureCount r = 0
    · have hrem : RemovedOpen s r := ⟨hr, hrl, hc⟩
      have he : settleOpen s =
          idleSeq (giveFrameBack (releasePlane r.rawPlane (removeRecord r.number (freeScratch s)))) := by
        unfold settleOpen removeOpen
        rw [hopen]
        simp only [if_pos hc]
      rw [he]
      have ht : (freeScratch s).table = s.table := by simp
      have hd' : NumbersDistinct (freeScratch s) := by unfold NumbersDistinct slotNumbers; rw [ht]; exact hd
      have htab : (idleSeq (giveFrameBack (releasePlane r.rawPlane (removeRecord r.number (freeScratch s))))).table =
          (removeRecord r.number (freeScratch s)).table := by simp
      have hown : ∀ p : Nat,
          (idleSeq (giveFrameBack (releasePlane r.rawPlane (removeRecord r.number (freeScratch s))))).pool.owners[p]? =
          if r.rawPlane = some p ∧ p < s.pool.owners.length then some .free else s.pool.owners[p]? := by
        intro p
        simp only [idleSeq_keeps, giveFrameBack_keeps, releasePlane_owner, removeRecord_keeps, freeScratch_none hs]
      have hrolls : (releasePlane r.rawPlane (removeRecord r.number (freeScratch s))).rolls = s.rolls := by simp
      refine ⟨?_, ?_, ?_, ?_, ?_, ?_, ?_⟩
      · rw [htab, removeRecord_slots hd', ht]
        refine map_slots_congr rfl (fun _ _ => rfl) fun x hx => ?_
        by_cases e : x.life = .opened
        · have hx' : x = r := resident_unique hd hx hr (((huniq x hx).1 e).trans hrn.symm)
          subst hx'
          simp [RecordSlot.clearIf, RecordSlot.settled, e, hc]
        · have hne : x.number ≠ r.number := fun e' => e ((huniq x hx).2 (e'.trans hrn))
          simp [RecordSlot.clearIf, RecordSlot.settled, e, hne]
      · exact tableFollows_trans (tableFollows_of_table ht)
          (tableFollows_trans (tableFollows_removeRecord _ _) (tableFollows_of_table htab))
      · simp
      · intro p hp
        rw [hown, if_neg fun h => hp r hrem h.1]
      · intro x p hx hp hl
        rw [hown, if_pos ⟨hone x hx ▸ hp, hl⟩]
      · intro x i roll _ hi hroll
        simp only [idleSeq_keeps]
        rw [giveFrameBack_rolls (by rw [hrolls]; exact hi) (by rw [hrolls]; exact hroll), hrolls]
      · intro h
        exact absurd hrem (h r)
    · have hno : ∀ x, ¬ RemovedOpen s x := fun x hx => hc (hone x hx ▸ hx.2.2)
      have he : settleOpen s = idleSeq (holdShot (updateEntry ExpEntry.cutOff s)) := by
        unfold settleOpen
        rw [hopen]
        simp only [if_neg hc]
      rw [he]
      have hu : updateEntry ExpEntry.cutOff s = updateRecord n (Record.setEntry s.seq.k ExpEntry.cutOff) s := by
        unfold updateEntry updateOpen
        rw [hn]
      have hh : (holdShot (updateEntry ExpEntry.cutOff s)).table.slots =
          (s.table.slots.map (RecordSlot.mapRecord n (Record.setEntry s.seq.k ExpEntry.cutOff))).map
            (RecordSlot.mapRecord n (finishedRecord s)) := by
        unfold holdShot updateOpen
        simp only [freeScratch_seq, updateEntry_keeps, hn, updateRecord]
        have hr2 : finishedRecord (freeScratch (updateEntry ExpEntry.cutOff s)) = finishedRecord s := by
          funext x
          exact finishedRecord_congr (by simp) x
        rw [hr2]
        simp only [freeScratch_keeps, hu, updateRecord]
      have hsc : (updateEntry ExpEntry.cutOff s).seq.scratch = none := by simp [hs]
      have hpool : (idleSeq (holdShot (updateEntry ExpEntry.cutOff s))).pool.owners = s.pool.owners := by
        unfold holdShot
        simp only [idleSeq_keeps, updateOpen_keeps, freeScratch_none hsc, updateEntry_keeps]
      refine ⟨?_, ?_, by rw [hpool], fun p _ => by rw [hpool], fun x p hx => absurd hx (hno x),
        fun x i roll hx => absurd hx (hno x), fun _ => by simp [holdShot]⟩
      · rw [show (idleSeq (holdShot (updateEntry ExpEntry.cutOff s))).table.slots = _ from rfl]
        simp only [idleSeq_keeps, hh, List.map_map]
        refine map_slots_congr rfl (fun _ _ => rfl) fun x hx => ?_
        by_cases e : x.life = .opened
        · have hxn := (huniq x hx).1 e
          have hx' : x = r := resident_unique hd hx hr (hxn.trans hrn.symm)
          have hc' : exposureCount x ≠ 0 := hx' ▸ hc
          have h1 : (Record.setEntry s.seq.k ExpEntry.cutOff x).number = n := hxn
          simp [RecordSlot.mapRecord, RecordSlot.settled, e, hxn, h1, hc']
        · have hne : x.number ≠ n := fun e' => e ((huniq x hx).2 e')
          simp [RecordSlot.mapRecord, RecordSlot.settled, e, hne]
      · have k1 : TableFollows s (updateEntry ExpEntry.cutOff s) := by
          rw [hu]
          exact tableFollows_updateRecord (f := Record.setEntry s.seq.k ExpEntry.cutOff) n (fun _ => rfl) s
        have k2 : TableFollows (updateEntry ExpEntry.cutOff s) (holdShot (updateEntry ExpEntry.cutOff s)) := by
          unfold holdShot updateOpen
          simp only [freeScratch_seq, updateEntry_keeps, hn]
          refine tableFollows_trans (tableFollows_of_table (t := freeScratch (updateEntry ExpEntry.cutOff s)) (by
              simp)) ?_
          exact tableFollows_updateRecord
            (f := finishedRecord (freeScratch (updateEntry ExpEntry.cutOff s))) n (fun _ => rfl) _
        exact tableFollows_trans k1 (tableFollows_trans k2 (tableFollows_of_table (by simp)))

/-- What the sequencer's RESTART work does to records, planes and rolls (R85, R88): the open shot is settled, and the
scratch plane is FREE. -/
structure SequencerRestarted (s t : State) : Prop where
  slots : t.table.slots = s.table.slots.map (RecordSlot.settled s)
  follows : TableFollows s t
  length : t.pool.owners.length = s.pool.owners.length
  owner : ∀ p, s.seq.scratch ≠ some p → (∀ r, RemovedOpen s r → r.rawPlane ≠ some p) →
    t.pool.owners[p]? = s.pool.owners[p]?
  freed : ∀ p, (s.seq.scratch = some p ∨ ∃ r, RemovedOpen s r ∧ r.rawPlane = some p) → p < s.pool.owners.length →
    t.pool.owners[p]? = some .free
  gave : ∀ r i roll, RemovedOpen s r → s.rolls.current = some i → s.rolls.slots[i]? = some (.opened roll) →
    t.rolls = { s.rolls with slots := s.rolls.slots.set i (.opened { roll with nextFrame := roll.nextFrame - 1 }) }
  kept : (∀ r, ¬ RemovedOpen s r) → t.rolls = s.rolls

theorem residents_congr {s t : State} (h : t.table = s.table) : residents t = residents s := by
  unfold residents
  rw [h]

theorem sequencerRestarted_of {s u t : State} (hu : u.table = s.table) (hr : u.rolls = s.rolls)
    (hk : u.seq.k = s.seq.k) (ho : u.pool.owners = (freeScratch s).pool.owners) (h : SettlesOpen u t) :
    SequencerRestarted s t := by
  have hres := residents_congr hu
  have hf : ∀ r, RemovedOpen u r ↔ RemovedOpen s r := fun r => by unfold RemovedOpen; rw [hres]
  have hset : RecordSlot.settled u = RecordSlot.settled s := by
    funext x
    cases x with
    | inUse r => simp only [RecordSlot.settled, hk, finishedRecord_congr hr]
    | _ => rfl
  have hlen : u.pool.owners.length = s.pool.owners.length := by
    rw [ho]
    simp [freeScratch, releasePlane, setOwner]
    split <;> simp
  refine ⟨by rw [h.slots, hset, hu], tableFollows_trans (tableFollows_of_table hu) h.follows,
    h.length.trans hlen, ?_, ?_, ?_, ?_⟩
  · intro p h1 h2
    rw [h.owner p fun r hr => h2 r ((hf r).1 hr), ho, freeScratch_owner, if_neg fun h => h1 h.1]
  · intro p h1 hl
    by_cases h2 : ∃ r, RemovedOpen s r ∧ r.rawPlane = some p
    · obtain ⟨r, hr, hp⟩ := h2
      exact h.freed r p ((hf r).2 hr) hp (by rw [hlen]; exact hl)
    · rw [h.owner p fun r hr e => h2 ⟨r, (hf r).1 hr, e⟩, ho, freeScratch_owner, if_pos ⟨h1.resolve_right h2, hl⟩]
  · intro r i roll hrem hi hroll
    rw [h.gave r i roll ((hf r).2 hrem) (by rw [hr]; exact hi) (by rw [hr]; exact hroll), hr]
  · intro hno
    rw [h.kept fun r hr => hno r ((hf r).1 hr), hr]

theorem openShotAgrees_congr {s t : State} (ht : t.table = s.table) (ho : t.seq.openShot = s.seq.openShot)
    (hs : t.seq.state = s.seq.state) (h : OpenShotAgrees s) : OpenShotAgrees t := by
  unfold OpenShotAgrees at *
  rw [residents_congr ht, ho, hs]
  exact h

theorem numbersDistinct_congr {s t : State} (ht : t.table = s.table) (h : NumbersDistinct s) : NumbersDistinct t := by
  unfold NumbersDistinct slotNumbers at *
  rw [ht]
  exact h

/-- The sequencer's RESTART work, in a state that meets the laws of R22 and R62. -/
theorem restartSequencer_restarts {s : State} (hd : NumbersDistinct s) (ho : OpenShotAgrees s) :
    SequencerRestarted s (restartSequencer s) := by
  have hidle : s.seq.state.hasShot = false → ∀ r ∈ residents s, r.life ≠ .opened := by
    intro h r hr e
    have h1 := ho.2.2 r hr e
    have h2 := ho.1.1 (by rw [h1]; rfl)
    rw [h] at h2
    cases h2
  have hnone : ∀ t : State, s.seq.state.hasShot = false → t.table = s.table →
      t.pool.owners = (freeScratch s).pool.owners → t.rolls = s.rolls → SequencerRestarted s t := by
    intro t h ht hp hr
    have hres := residents_congr (t := freeScratch s) (s := s) (by simp)
    refine sequencerRestarted_of (u := freeScratch s) (by simp) (by simp) (by rw [freeScratch_seq]) rfl ?_
    exact settlesOpen_none (fun r hr => hidle h r (hres ▸ hr)) (by rw [ht]; simp) hp (by rw [hr]; simp)
  have hsome : ∀ u : State, u.table = s.table → u.seq = { s.seq with scratch := none } →
      u.pool.owners = (freeScratch s).pool.owners → u.rolls = s.rolls → SequencerRestarted s (settleOpen u) := by
    intro u ht hs hp hr
    refine sequencerRestarted_of ht hr (by rw [hs]) hp ?_
    exact settleOpen_settles (numbersDistinct_congr ht hd)
      (openShotAgrees_congr ht (by rw [hs]) (by rw [hs]) ho) (by rw [hs])
  unfold restartSequencer
  dsimp only
  have hstate : (freeScratch s).seq.state = s.seq.state := by rw [freeScratch_seq]
  split
  · next h => exact hnone _ (by rw [← hstate, h]; rfl) (by simp) (by simp) (by simp)
  · next h => exact hnone _ (by rw [← hstate, h]; rfl) (by simp) (by simp) (by simp)
  · next h => exact hnone _ (by rw [← hstate, h]; rfl) (by simp) (by simp) (by simp)
  · exact hsome _ (by simp) (by simp [freeScratch_seq]) (by simp) (by simp)
  · exact hsome _ (by simp) (freeScratch_seq s) rfl (by simp)

/-! ### The Dark Unit at RESTART -/

/-- A record LINKED to an entry of a list fails (R107). -/
def Record.failIn (l : List Nat) (r : Record) : Record :=
  match r.darkLink with
  | .linked e => if l.contains e then r.failDark else r
  | _ => r

theorem failIn_number (l : List Nat) (r : Record) : (r.failIn l).number = r.number := by
  unfold Record.failIn
  split
  · split <;> rfl
  · rfl

theorem failDark_notLinked (r : Record) (e : Nat) : r.failDark.darkLink ≠ .linked e := by
  unfold Record.failDark
  dsimp only
  split <;> simp

theorem unlinkFailed_slots (s : State) (n : Nat) :
    (unlinkFailed s n).table.slots = s.table.slots.map (RecordSlot.mapRecord n Record.failDark) := by
  unfold unlinkFailed
  dsimp only
  split <;> rfl

theorem failEntry_slots {s : State} (h : NumbersDistinct s) (e : Nat) :
    (failEntry e s).table.slots = s.table.slots.map (RecordSlot.mapEach (Record.failIn [e])) := by
  unfold failEntry linkedShots
  rw [(freeEntry_keeps e _).2.2.2.2.2.2.2.2.2.2.2.2.1,
    foldl_update_slots unlinkFailed_slots (fun _ => rfl) (nodup_shotsWhere h _) s]
  refine map_slots_congr rfl (fun _ _ => rfl) fun r hr => ?_
  simp only [RecordSlot.mapEach, contains_shotsWhere h _ hr, Record.failIn]
  cases r.darkLink <;> simp

theorem mapEach_mapEach (f g : Record → Record) (x : RecordSlot) :
    RecordSlot.mapEach g (RecordSlot.mapEach f x) = RecordSlot.mapEach (fun r => g (f r)) x := by
  cases x <;> rfl

theorem failIn_failIn (e : Nat) (l : List Nat) (r : Record) : (r.failIn [e]).failIn l = r.failIn (e :: l) := by
  cases hl : r.darkLink with
  | linked d =>
    by_cases he : d = e
    · subst he
      have h1 : r.failIn [d] = r.failDark := by simp [Record.failIn, hl]
      have h2 : r.failIn (d :: l) = r.failDark := by simp [Record.failIn, hl]
      have h3 : r.failDark.failIn l = r.failDark := by
        unfold Record.failIn
        split
        · next e' he => exact absurd he (failDark_notLinked r e')
        · rfl
      rw [h1, h2, h3]
    · have h1 : r.failIn [e] = r := by simp [Record.failIn, hl, he]
      rw [h1]
      simp [Record.failIn, hl, he]
  | _ => simp [Record.failIn, hl]

/-- Entries failed one after another. -/
theorem failEntries_slots (l : List Nat) {s : State} (h : NumbersDistinct s) :
    (l.foldl (fun s e => failEntry e s) s).table.slots =
      s.table.slots.map (RecordSlot.mapEach (Record.failIn l)) := by
  induction l generalizing s with
  | nil =>
    have : RecordSlot.mapEach (Record.failIn []) = id := by
      funext x
      cases x with
      | inUse r => simp only [RecordSlot.mapEach, Record.failIn]; cases r.darkLink <;> simp
      | _ => rfl
    rw [this, List.map_id]
    rfl
  | cons e l ih =>
    have h1 := failEntry_slots h e
    rw [List.foldl_cons, ih (numbersDistinct_map (keepsNumbers_mapEach (failIn_number _)) h1 h), h1, List.map_map]
    refine map_slots_congr rfl (fun _ _ => rfl) fun r _ => ?_
    simp only [Function.comp, mapEach_mapEach, failIn_failIn]

theorem tableFollows_unlinkFailed (s : State) (n : Nat) : TableFollows s (unlinkFailed s n) := by
  have h := tableFollows_updateRecord (f := Record.failDark) n (fun _ => rfl) s
  unfold unlinkFailed
  dsimp only
  split
  · exact tableFollows_trans h (tableFollows_of_table rfl)
  · exact h

theorem tableFollows_foldl {α : Type} {step : State → α → State} (h : ∀ s a, TableFollows s (step s a)) (l : List α)
    (s : State) : TableFollows s (l.foldl step s) := by
  induction l generalizing s with
  | nil => exact tableFollows_of_table rfl
  | cons a l ih => exact tableFollows_trans (h s a) (ih _)

theorem tableFollows_failEntry (s : State) (e : Nat) : TableFollows s (failEntry e s) :=
  tableFollows_trans (tableFollows_foldl tableFollows_unlinkFailed (linkedShots s e) s)
    (tableFollows_of_table (by simp [failEntry]))

theorem failEntry_dark (e : Nat) (s : State) :
    (failEntry e s).dark = { entries := s.dark.entries.set e .free, plan := s.dark.plan.filter (· != e) } := by
  have h : ∀ (l : List Nat) (t : State), (l.foldl unlinkFailed t).dark = t.dark := by
    intro l
    induction l with
    | nil => exact fun _ => rfl
    | cons n l ih => exact fun t => (ih _).trans (by simp)
  have h2 : ∀ p (t : State), (releasePlane p t).dark = t.dark := fun p t => by simp
  unfold failEntry freeEntry
  simp only [h, h2]

theorem failEntry_owner (e : Nat) (s : State) (p : Nat) :
    (failEntry e s).pool.owners[p]? =
      if (darkEntry s e).state.plane? = some p ∧ p < s.pool.owners.length then some .free
      else s.pool.owners[p]? := by
  have h : ∀ (l : List Nat) (t : State), (l.foldl unlinkFailed t).dark = t.dark ∧ (l.foldl unlinkFailed t).pool =
      t.pool := by
    intro l
    induction l with
    | nil => exact fun _ => ⟨rfl, rfl⟩
    | cons n l ih => exact fun t => ⟨(ih _).1.trans (by simp), (ih _).2.trans (by simp)⟩
  obtain ⟨h1, h2⟩ := h (linkedShots s e) s
  unfold failEntry freeEntry
  rw [releasePlane_owner, h2]
  unfold darkEntry
  rw [h1]

theorem failEntries_entry (l : List Nat) (s : State) (e : Nat) :
    (l.foldl (fun s e => failEntry e s) s).dark.entries[e]? =
      if e ∈ l ∧ e < s.dark.entries.length then some .free else s.dark.entries[e]? := by
  induction l generalizing s with
  | nil => simp
  | cons d l ih =>
    rw [List.foldl_cons, ih, failEntry_dark]
    simp only [List.length_set, List.getElem?_set, List.mem_cons]
    by_cases h1 : e ∈ l ∧ e < s.dark.entries.length
    · rw [if_pos h1, if_pos ⟨.inr h1.1, h1.2⟩]
    · rw [if_neg h1]
      by_cases h2 : d = e
      · subst h2
        by_cases h3 : d < s.dark.entries.length <;> simp [h3]
      · have h3 : ¬ ((e = d ∨ e ∈ l) ∧ e < s.dark.entries.length) := by
          rintro ⟨h3 | h3, h4⟩
          · exact h2 h3.symm
          · exact h1 ⟨h3, h4⟩
        rw [if_neg h2, if_neg h3]

/-- A plane is FREE when an entry failed had it, and as it was otherwise. -/
theorem failEntries_owner {l : List Nat} (hl : l.Nodup) (s : State) (p : Nat) :
    (l.foldl (fun s e => failEntry e s) s).pool.owners[p]? =
      if (∃ e ∈ l, (darkEntry s e).state.plane? = some p) ∧ p < s.pool.owners.length then some .free
      else s.pool.owners[p]? := by
  induction l generalizing s with
  | nil => simp
  | cons d l ih =>
    rw [List.nodup_cons] at hl
    have hlen : (failEntry d s).pool.owners.length = s.pool.owners.length := by simp
    have hkeep : ∀ e ∈ l, darkEntry (failEntry d s) e = darkEntry s e := by
      intro e he
      have hne : d ≠ e := fun h => hl.1 (h ▸ he)
      unfold darkEntry
      rw [failEntry_dark]
      simp only [List.getD_eq_getElem?_getD, List.getElem?_set_ne hne]
    have hex : (∃ e ∈ l, (darkEntry (failEntry d s) e).state.plane? = some p) ↔
        ∃ e ∈ l, (darkEntry s e).state.plane? = some p :=
      ⟨fun ⟨e, h1, h2⟩ => ⟨e, h1, hkeep e h1 ▸ h2⟩, fun ⟨e, h1, h2⟩ => ⟨e, h1, (hkeep e h1).symm ▸ h2⟩⟩
    rw [List.foldl_cons, ih hl.2, hlen, failEntry_owner]
    by_cases h0 : p < s.pool.owners.length
    · by_cases h1 : ∃ e ∈ l, (darkEntry s e).state.plane? = some p
      · obtain ⟨e, h2, h3⟩ := h1
        rw [if_pos ⟨hex.2 ⟨e, h2, h3⟩, h0⟩, if_pos ⟨⟨e, List.mem_cons_of_mem _ h2, h3⟩, h0⟩]
      · rw [if_neg fun h => h1 (hex.1 h.1)]
        by_cases h2 : (darkEntry s d).state.plane? = some p
        · rw [if_pos ⟨h2, h0⟩, if_pos ⟨⟨d, List.mem_cons_self, h2⟩, h0⟩]
        · rw [if_neg fun h => h2 h.1, if_neg]
          rintro ⟨⟨e, h3, h4⟩, _⟩
          rcases List.mem_cons.1 h3 with rfl | h3
          · exact h2 h4
          · exact h1 ⟨e, h3, h4⟩
    · rw [if_neg fun h => h0 h.2, if_neg fun h => h0 h.2, if_neg fun h => h0 h.2]

theorem mem_abandonedEntries {s : State} {e : Nat} : e ∈ abandonedEntries s ↔ AbandonedEntry s e := by
  unfold abandonedEntries AbandonedEntry
  rw [List.mem_filter, List.mem_range]
  constructor
  · rintro ⟨h1, h2⟩
    refine ⟨s.dark.entries[e], List.getElem?_eq_getElem h1, ?_⟩
    have h3 : darkEntry s e = s.dark.entries[e] := by
      unfold darkEntry
      rw [List.getD_eq_getElem?_getD, List.getElem?_eq_getElem h1, Option.getD_some]
    rw [h3] at h2
    unfold DarkEntry.abandoned at h2
    cases h4 : s.dark.entries[e].state with
    | planned => exact .inl rfl
    | exposing p => exact .inr ⟨p, rfl⟩
    | free => rw [h4] at h2; cases h2
    | ready b t p => rw [h4] at h2; cases h2
  · rintro ⟨x, hx, h⟩
    obtain ⟨h1, rfl⟩ := List.getElem?_eq_some_iff.1 hx
    have h3 : darkEntry s e = s.dark.entries[e] := by
      unfold darkEntry
      rw [List.getD_eq_getElem?_getD, hx, Option.getD_some]
    refine ⟨h1, ?_⟩
    rw [h3]
    unfold DarkEntry.abandoned
    rcases h with h | ⟨p, h⟩ <;> rw [h] <;> rfl

theorem abandonedEntries_nodup (s : State) : (abandonedEntries s).Nodup :=
  List.nodup_range.filter _

/-- The Dark Unit's RESTART work (R107, R111). -/
structure DarkRestarted (s t : State) : Prop where
  slots : t.table.slots = s.table.slots.map (RecordSlot.mapEach (Record.failIn (abandonedEntries s)))
  follows : TableFollows s t
  plan : t.dark.plan = []
  length : t.dark.entries.length = s.dark.entries.length
  freed : ∀ e, AbandonedEntry s e → t.dark.entries[e]? = some .free
  kept : ∀ e, ¬ AbandonedEntry s e → t.dark.entries[e]? = s.dark.entries[e]?
  count : t.pool.owners.length = s.pool.owners.length
  owner : ∀ p, t.pool.owners[p]? =
    if (∃ e ∈ abandonedEntries s, (darkEntry s e).state.plane? = some p) ∧ p < s.pool.owners.length then some .free
    else s.pool.owners[p]?

theorem restartDark_restarts {s : State} (h : NumbersDistinct s) : DarkRestarted s (restartDark s) := by
  have hlen : ∀ (l : List Nat) (t : State),
      (l.foldl (fun s e => failEntry e s) t).dark.entries.length = t.dark.entries.length := by
    intro l
    induction l with
    | nil => exact fun _ => rfl
    | cons e l ih => exact fun t => (ih _).trans (by rw [failEntry_dark, List.length_set])
  refine ⟨failEntries_slots _ h, tableFollows_trans
    (tableFollows_foldl (step := fun s e => failEntry e s) tableFollows_failEntry _ s) (tableFollows_of_table rfl), rfl,
    hlen _ s, fun e he => ?_, fun e he => ?_, by simp,
    failEntries_owner (abandonedEntries_nodup s) s⟩
  · have he' := he
    obtain ⟨x, hx, _⟩ := he'
    exact (failEntries_entry _ s e).trans
      (if_pos ⟨mem_abandonedEntries.2 he, (List.getElem?_eq_some_iff.1 hx).1⟩)
  · exact (failEntries_entry _ s e).trans (if_neg fun h => he (mem_abandonedEntries.1 h.1))

/-! ### The Development Engine at RESTART -/

/-- The record that the end of the RUNNING job settles (R126). -/
def Record.settledBy (reading : Option Nat) (r : Record) : Record :=
  if reading = some r.number ∧ r.life = .held ∧ r.rawCard = .onCard then { r with life := .settled, rawPlane := none }
  else r

theorem settledBy_number (reading : Option Nat) (r : Record) : (r.settledBy reading).number = r.number := by
  unfold Record.settledBy
  split <;> rfl

theorem dropHolds_owner (s : State) (p : Nat) :
    (dropHolds s).pool.owners[p]? =
      if (s.dev.holds.bind (·.fetch) = some p ∨ s.dev.holds.bind (·.output) = some p) ∧ p < s.pool.owners.length
      then some .free else s.pool.owners[p]? := by
  have h1 : ∀ (slot : Option Nat) (t : State), ((slot.map freeSlot).getD id t).pool = t.pool := by
    intro slot t
    cases slot <;> rfl
  unfold dropHolds endHolds
  dsimp only
  rw [h1, releasePlane_owner, releasePlane_owner]
  have hl : ∀ q (t : State), (releasePlane q t).pool.owners.length = t.pool.owners.length := by
    intro q t
    cases q <;> simp [releasePlane, setOwner]
  simp only [hl]
  by_cases h2 : p < s.pool.owners.length
  · by_cases h3 : s.dev.holds.bind (·.output) = some p
    · rw [if_pos ⟨h3, h2⟩, if_pos ⟨.inr h3, h2⟩]
    · rw [if_neg fun h => h3 h.1]
      by_cases h4 : s.dev.holds.bind (·.fetch) = some p
      · rw [if_pos ⟨h4, h2⟩, if_pos ⟨.inl h4, h2⟩]
      · rw [if_neg fun h => h4 h.1, if_neg fun h => h.1.elim h4 h3]
  · rw [if_neg fun h => h2 h.2, if_neg fun h => h2 h.2, if_neg fun h => h2 h.2]

theorem dropHolds_table (s : State) : (dropHolds s).table = s.table := by
  unfold dropHolds endHolds
  dsimp only
  generalize s.dev.holds.bind (·.slot) = slot
  cases slot <;> simp [freeSlot, setPreview]

/-- A shot whose job has ended settles when it is HELD and ON_CARD (R126). -/
theorem settle_slots {s : State} (h : NumbersDistinct s) (hh : s.dev.holds = none) (n : Nat) :
    (settle n s).table.slots = s.table.slots.map (RecordSlot.mapEach (Record.settledBy (some n))) := by
  have hr : readsRaw s n = false := by
    unfold readsRaw
    rw [hh]
    split <;> simp_all
  have hid : ∀ (hno : ∀ r ∈ residents s, ¬ (r.number = n ∧ r.life = .held ∧ r.rawCard = .onCard)),
      s.table.slots = s.table.slots.map (RecordSlot.mapEach (Record.settledBy (some n))) := by
    intro hno
    refine ((map_slots_congr (s := s) (f := RecordSlot.mapEach (Record.settledBy (some n))) (g := id) rfl (fun _ _ =>
        rfl) fun r m => ?_).trans (List.map_id _)).symm
    simp only [RecordSlot.mapEach, Record.settledBy]
    rw [if_neg fun e => hno r m ⟨(Option.some.inj e.1).symm, e.2⟩]
    rfl
  unfold settle
  cases hf : findRecord s n with
  | none =>
    refine hid fun r m e => ?_
    rw [← e.1, findRecord_eq h m] at hf
    cases hf
  | some r =>
    obtain ⟨hm, hn⟩ := findRecord_mem hf
    dsimp only
    split
    · next hc =>
      unfold updateRecord
      dsimp only
      rw [(releasePlane_keeps r.rawPlane s).2.2.2.2.2.2.2.2.2.2.2.2.1]
      refine map_slots_congr rfl (fun _ _ => rfl) fun x hx => ?_
      simp only [RecordSlot.mapRecord, RecordSlot.mapEach, Record.settledBy]
      by_cases e : x.number = n
      · have hx' : x = r := resident_unique h hx hm (e.trans hn.symm)
        subst hx'
        simp [e, hc.1, hc.2.1]
      · simp [e, Ne.symm e]
    · next hc =>
      refine hid fun x hx e => hc ?_
      have hx' : x = r := resident_unique h hx hm (e.1.trans hn.symm)
      subst hx'
      exact ⟨e.2.1, e.2.2, hr⟩

theorem settle_owner {s : State} (h : NumbersDistinct s) (hh : s.dev.holds = none) (n p : Nat) :
    ((∃ r ∈ residents s, r.number = n ∧ r.life = .held ∧ r.rawCard = .onCard ∧ r.rawPlane = some p) →
      p < s.pool.owners.length → (settle n s).pool.owners[p]? = some .free) ∧
    ((∀ r ∈ residents s, r.number = n → r.life = .held → r.rawCard = .onCard → r.rawPlane ≠ some p) →
      (settle n s).pool.owners[p]? = s.pool.owners[p]?) := by
  have hr : readsRaw s n = false := by
    unfold readsRaw
    rw [hh]
    split <;> simp_all
  unfold settle
  cases hf : findRecord s n with
  | none =>
    refine ⟨?_, fun _ => rfl⟩
    rintro ⟨r, m, e, _⟩
    rw [← e, findRecord_eq h m] at hf
    cases hf
  | some r =>
    obtain ⟨hm, hn⟩ := findRecord_mem hf
    dsimp only
    split
    · next hc =>
      unfold updateRecord
      dsimp only
      rw [releasePlane_owner]
      constructor
      · rintro ⟨x, m, e, _, _, hp⟩ hl
        rw [← resident_unique h m hm (e.trans hn.symm), if_pos ⟨hp, hl⟩]
      · intro hno
        rw [if_neg fun e => hno r hm hn hc.1 hc.2.1 e.1]
    · next hc =>
      refine ⟨?_, fun _ => rfl⟩
      rintro ⟨x, m, e, h1, h2, _⟩ _
      have hx' : x = r := resident_unique h m hm (e.trans hn.symm)
      subst hx'
      exact absurd ⟨h1, h2, hr⟩ hc

/-- The Development Engine's RESTART work on the records and the planes (R126, R128). -/
structure DevRestarted (s t : State) : Prop where
  slots : t.table.slots = s.table.slots.map (RecordSlot.mapEach (Record.settledBy ((runningJob s).map (·.shot))))
  follows : TableFollows s t
  count : t.pool.owners.length = s.pool.owners.length
  freed : ∀ p, p < s.pool.owners.length → (s.dev.holds.bind (·.fetch) = some p ∨ s.dev.holds.bind (·.output) = some p ∨
    ∃ r ∈ residents s, SettledByRestart s r ∧ r.rawPlane = some p) → t.pool.owners[p]? = some .free
  kept : ∀ p, s.dev.holds.bind (·.fetch) ≠ some p → s.dev.holds.bind (·.output) ≠ some p →
    (∀ r ∈ residents s, SettledByRestart s r → r.rawPlane ≠ some p) → t.pool.owners[p]? = s.pool.owners[p]?

theorem tableFollows_settle (n : Nat) (s : State) : TableFollows s (settle n s) := by
  unfold settle
  split
  · exact tableFollows_of_table rfl
  · next r _ =>
    split
    · exact tableFollows_trans (tableFollows_of_table (t := releasePlane r.rawPlane s) (by simp))
        (tableFollows_updateRecord (f := fun r => { r with life := .settled, rawPlane := none }) n (fun _ => rfl) _)
    · exact tableFollows_of_table rfl

theorem restartDev_restarts {s : State} (h : NumbersDistinct s) : DevRestarted s (restartDev s) := by
  have hj : ∀ r, SettledByRestart s r ↔
      r.life = .held ∧ r.rawCard = .onCard ∧ (runningJob s).map (·.shot) = some r.number := by
    intro r
    unfold SettledByRestart runningJob
    rw [Option.map_eq_some_iff]
  cases hj2 : (runningJob s).map (·.shot) with
  | none =>
    have he : restartDev s =
        setEngineClaim false { dropHolds s with dev := { (dropHolds s).dev with queue := [], readout := false } } := by
      unfold restartDev
      dsimp only
      rw [hj2]
      rfl
    have hno : ∀ r, ¬ SettledByRestart s r := fun r hr => by
      have := ((hj r).1 hr).2.2
      rw [hj2] at this
      cases this
    have ht : (restartDev s).table = s.table := by rw [he]; exact dropHolds_table s
    have ho : ∀ p : Nat, (restartDev s).pool.owners[p]? = (dropHolds s).pool.owners[p]? := fun p => by rw [he]; rfl
    refine ⟨?_, tableFollows_of_table ht, by simp, fun p hl hp => ?_, fun p h1 h2 _ => ?_⟩
    · rw [ht, hj2]
      have : RecordSlot.mapEach (Record.settledBy none) = id := by
        funext x
        cases x <;> simp [RecordSlot.mapEach, Record.settledBy]
      rw [this, List.map_id]
    · rw [ho, dropHolds_owner]
      rcases hp with hp | hp | ⟨r, _, hr, _⟩
      · rw [if_pos ⟨.inl hp, hl⟩]
      · rw [if_pos ⟨.inr hp, hl⟩]
      · exact absurd hr (hno r)
    · rw [ho, dropHolds_owner, if_neg fun h => h.1.elim h1 h2]
  | some n =>
    have he : restartDev s = setEngineClaim false
        (settle n { dropHolds s with dev := { (dropHolds s).dev with queue := [], readout := false } }) := by
      unfold restartDev
      dsimp only
      rw [hj2]
      rfl
    generalize hu : { dropHolds s with dev := { (dropHolds s).dev with queue := [], readout := false } } = u at he
    have hut : u.table = s.table := by rw [← hu]; exact dropHolds_table s
    have huh : u.dev.holds = none := by rw [← hu]; simp [dropHolds_dev]
    have huo : ∀ p : Nat, u.pool.owners[p]? = (dropHolds s).pool.owners[p]? := fun p => by rw [← hu]
    have hul : u.pool.owners.length = s.pool.owners.length := by rw [← hu]; simp
    have hd : NumbersDistinct u := numbersDistinct_congr hut h
    have hres := residents_congr hut
    have ht : (restartDev s).table = (settle n u).table := by rw [he]; rfl
    have ho : ∀ p : Nat, (restartDev s).pool.owners[p]? = (settle n u).pool.owners[p]? := fun p => by rw [he]; rfl
    have hso := fun p => settle_owner hd huh n p
    rw [hres, hul] at hso
    refine ⟨by rw [ht, settle_slots hd huh, hut, hj2], tableFollows_trans (tableFollows_of_table hut)
      (tableFollows_trans (tableFollows_settle n u) (tableFollows_of_table ht)), by simp, fun p hl hp => ?_,
      fun p h1 h2 h3 => ?_⟩
    · rw [ho]
      by_cases hx : ∃ r ∈ residents s, r.number = n ∧ r.life = .held ∧ r.rawCard = .onCard ∧ r.rawPlane = some p
      · exact (hso p).1 hx hl
      · rw [(hso p).2 fun r m e1 e2 e3 e4 => hx ⟨r, m, e1, e2, e3, e4⟩, huo, dropHolds_owner]
        rcases hp with hp | hp | ⟨r, m, hr, hp⟩
        · rw [if_pos ⟨.inl hp, hl⟩]
        · rw [if_pos ⟨.inr hp, hl⟩]
        · have h4 := (hj r).1 hr
          rw [hj2] at h4
          exact absurd ⟨r, m, (Option.some.inj h4.2.2).symm, h4.1, h4.2.1, hp⟩ hx
    · rw [ho, (hso p).2 fun r m e1 e2 e3 => h3 r m ((hj r).2 ⟨e2, e3, by rw [hj2, e1]⟩), huo, dropHolds_owner,
        if_neg fun h => h.1.elim h1 h2]

end Sys2Proof.Machine
end

