-- ==== Sys2Proof/Laws/RestartCard.lean ====
section
/-! SUPPORT. What the Card Store's and the Plane Arithmetic Unit's work at RESTART does, the stages of RESTART one after
another, and the end of RESTARTING with nothing waiting (R27, R97, R160, R181). -/

namespace Sys2Proof.Machine

/-! ### The Card Store at RESTART -/

/-- The records that the Card Store's RESTART work takes away (R27, R160). -/
def Record.dropsAtRestart (r : Record) : Bool := r.life == .retiring || r.life == .settled

/-- What the Card Store's RESTART work makes of a slot (R27, R160). -/
def RecordSlot.cardRestarted : RecordSlot → RecordSlot
  | .free => .free
  | .loading _ _ => .free
  | .inUse r => if r.dropsAtRestart then .free else .inUse (if r.heldOnWay then r.unwrite else r)

/-- The slots of the loads made FREE (R27). -/
def RecordSlot.dropLoad : RecordSlot → RecordSlot
  | .loading _ _ => .free
  | x => x

theorem discardLoads_slots (s : State) : (discardLoads s).table.slots = s.table.slots.map RecordSlot.dropLoad := by
  unfold discardLoads
  refine List.map_congr_left fun x _ => ?_
  cases x <;> rfl

theorem keepsNumbers_dropLoad : KeepsNumbers RecordSlot.dropLoad := by
  intro x
  cases x with
  | loading n ws => exact .inl rfl
  | _ => exact .inr rfl

theorem residents_discardLoads (s : State) : residents (discardLoads s) = residents s := by
  unfold residents
  rw [discardLoads_slots, List.filterMap_map]
  refine List.filterMap_congr fun x _ => ?_
  cases x <;> rfl

theorem tableFollows_discardLoads (s : State) : TableFollows s (discardLoads s) where
  order := List.Sublist.refl _
  amended := List.Sublist.refl _
  free i hi := by rw [discardLoads_slots, List.getElem?_map, hi]; rfl
  record i r hi := .inr ⟨r, by rw [discardLoads_slots, List.getElem?_map, hi]; rfl, rfl, id⟩

theorem returnHeld_slots (s : State) : (returnHeld s).table.slots =
    s.table.slots.map (RecordSlot.mapEach fun r => if r.heldOnWay then r.unwrite else r) := by
  unfold returnHeld returnRecords updateRecords
  refine List.map_congr_left fun x _ => ?_
  cases x <;> rfl

theorem unwrite_number (r : Record) : (if r.heldOnWay then r.unwrite else r).number = r.number := by
  split <;> rfl

theorem tableFollows_returnHeld (s : State) : TableFollows s (returnHeld s) :=
  tableFollows_map (returnHeld_slots s) rfl List.filter_sublist rfl fun r => ⟨_, rfl, unwrite_number r⟩

theorem returnHeld_amended {s : State} (h : NumbersDistinct s) :
    ∀ a ∈ (returnHeld s).table.amended, ∀ r ∈ residents s, r.heldOnWay = true → a.shot ≠ r.number := by
  intro a m r hr hw e
  have h1 := (List.mem_filter.1 m).2
  rw [e] at h1
  change (!(shotsWhere s Record.heldOnWay).contains r.number) = true at h1
  rw [contains_shotsWhere h _ hr, hw] at h1
  cases h1

/-- A hand-off as RESTART leaves it (R160 step 4). -/
def Handoff.waiting (h : Handoff) : Handoff := { h with writing := false, marked := false }

/-- The Card Store's RESTART work on the records, the planes and the hand-offs (R27, R160). -/
structure StoreRestarted (s t : State) : Prop where
  slots : t.table.slots = s.table.slots.map RecordSlot.cardRestarted
  follows : TableFollows s t
  amended : ∀ a ∈ t.table.amended, ∀ r ∈ residents s, r.dropsAtRestart = true ∨ r.heldOnWay = true → a.shot ≠ r.number
  count : t.pool.owners.length = s.pool.owners.length
  handoffs : t.card.handoffs = (s.card.handoffs.filter fun h =>
    !(shotsWhere s Record.dropsAtRestart).contains h.shot).map Handoff.waiting
  owner : ∀ p, t.pool.owners[p]? =
    if (∃ h ∈ s.card.handoffs, h.shot ∈ shotsWhere s Record.dropsAtRestart ∧ h.plane = p) ∧ p < s.pool.owners.length
    then some .free else s.pool.owners[p]?

theorem mem_shotsWhere {s : State} {p : Record → Bool} {n : Nat} :
    n ∈ shotsWhere s p ↔ ∃ r ∈ residents s, p r = true ∧ r.number = n := by
  unfold shotsWhere
  rw [(List.perm_insertionSort _ _).mem_iff, List.mem_map]
  exact ⟨fun ⟨r, h, e⟩ => ⟨r, (List.mem_filter.1 h).1, (List.mem_filter.1 h).2, e⟩,
    fun ⟨r, h, hp, e⟩ => ⟨r, List.mem_filter.2 ⟨h, hp⟩, e⟩⟩

theorem residents_map {s t : State} {f : RecordSlot → RecordSlot} (h : t.table.slots = s.table.slots.map f) :
    residents t = s.table.slots.filterMap fun x => (f x).record? := by
  unfold residents
  rw [h, List.filterMap_map]
  rfl

theorem dropSettled_takeAway {s : State} (h : s.dev.queue = []) :
    dropSettled s = leaveSlots (notResident (takeAway (settledShots s) s)) (takeAway (settledShots s) s) := by
  unfold dropSettled
  rw [dropRecords_eq h]

theorem mapEach_clearIf (f : Record → Record) (p : Record → Bool) (x : RecordSlot) :
    RecordSlot.mapEach f (RecordSlot.clearIf p x) =
      match x with
      | .inUse r => if p r then .free else .inUse (f r)
      | x => x := by
  cases x with
  | inUse r => cases hp : p r <;> simp [RecordSlot.clearIf, RecordSlot.mapEach, hp]
  | _ => rfl

/-- The steps of the Card Store's RESTART work on one slot. -/
theorem cardRestarted_steps (x : RecordSlot) :
    RecordSlot.clearIf (fun r => r.life == .settled)
      (RecordSlot.mapEach (fun r => if r.heldOnWay then r.unwrite else r)
        (RecordSlot.clearIf (fun r => r.life == .retiring) x.dropLoad)) = x.cardRestarted := by
  cases x with
  | inUse r =>
    by_cases h1 : r.life = .retiring
    · simp [RecordSlot.dropLoad, RecordSlot.clearIf, RecordSlot.mapEach, RecordSlot.cardRestarted,
        Record.dropsAtRestart, h1]
    · by_cases h2 : r.life = .settled
      · simp [RecordSlot.dropLoad, RecordSlot.clearIf, RecordSlot.mapEach, RecordSlot.cardRestarted,
          Record.dropsAtRestart, Record.heldOnWay, h2]
      · by_cases h3 : r.heldOnWay = true <;>
          simp [RecordSlot.dropLoad, RecordSlot.clearIf, RecordSlot.mapEach, RecordSlot.cardRestarted,
            Record.dropsAtRestart, Record.unwrite, h1, h2, h3]
  | _ => rfl

theorem restartCard_restarts {s : State} (h : NumbersDistinct s) (hq : s.dev.queue = []) :
    StoreRestarted s (restartCard s) := by
  -- the loads
  have h1 : NumbersDistinct (discardLoads s) :=
    numbersDistinct_map keepsNumbers_dropLoad (discardLoads_slots s) h
  have r1 := residents_discardLoads s
  -- the RETIRING records
  generalize hb : takeAway (retiringShots (discardLoads s)) (discardLoads s) = b
  have hbs : b.table.slots = (discardLoads s).table.slots.map (RecordSlot.clearIf fun r => r.life == .retiring) := by
    rw [← hb]; exact takeAway_shotsWhere _ h1 rfl
  have h2 : NumbersDistinct b := numbersDistinct_map (keepsNumbers_clearIf _) hbs h1
  have r2 : ∀ r, r ∈ residents b ↔ r ∈ residents s ∧ r.life ≠ .retiring := by
    intro r
    rw [← r1, residents_map hbs]
    unfold residents
    simp only [List.mem_filterMap]
    constructor
    · rintro ⟨x, hx, e⟩
      cases x with
      | inUse y =>
        simp only [RecordSlot.clearIf] at e
        split at e
        · cases e
        · next hy =>
          cases e
          exact ⟨⟨_, hx, rfl⟩, by simpa using hy⟩
      | _ => cases e
    · rintro ⟨⟨x, hx, e⟩, hl⟩
      cases x with
      | inUse y =>
        cases e
        exact ⟨_, hx, by simp [RecordSlot.clearIf, hl, RecordSlot.record?]⟩
      | _ => cases e
  have hw : restartCardWork s = orphanBus { b with card := { b.card with
      reads := [], entries := [], work := none, ejectTag := none, formatTag := none, formatWait := none } } := by
    unfold restartCardWork
    dsimp only
    have hret : retiringShots s = retiringShots (discardLoads s) := by
      unfold retiringShots shotsWhere
      rw [r1]
    rw [discardRecords_eq, hret, hb]
  have hwt : (restartCardWork s).table = b.table := by rw [hw]; rfl
  have h3 : NumbersDistinct (restartCardWork s) := numbersDistinct_congr hwt h2
  have r3 := residents_congr hwt
  -- the HELD records
  have hcs := returnHeld_slots (restartCardWork s)
  have h4 : NumbersDistinct (returnHeld (restartCardWork s)) :=
    numbersDistinct_map (keepsNumbers_mapEach unwrite_number) hcs h3
  have r4 : ∀ n, n ∈ settledShots (returnHeld (restartCardWork s)) ↔ ∃ r ∈ residents s, r.life = .settled ∧ r.number
      = n := by
    intro n
    unfold settledShots
    rw [mem_shotsWhere]
    constructor
    · rintro ⟨r, hr, hl, e⟩
      obtain ⟨i, hi⟩ := mem_residents.1 hr
      rw [hcs, List.getElem?_map, Option.map_eq_some_iff] at hi
      obtain ⟨x, hx, hi⟩ := hi
      cases x with
      | inUse y =>
        simp only [RecordSlot.mapEach, RecordSlot.inUse.injEq] at hi
        have hy : y ∈ residents b := r3 ▸ mem_residents.2 ⟨i, hx⟩
        by_cases hw : y.heldOnWay = true
        · rw [if_pos hw] at hi
          subst hi
          simp only [Record.heldOnWay, Bool.and_eq_true, beq_iff_eq] at hw
          simp [Record.unwrite, hw.1] at hl
        · rw [if_neg hw] at hi
          subst hi
          exact ⟨y, ((r2 y).1 hy).1, by simpa using hl, e⟩
      | _ => cases hi
    · rintro ⟨r, hr, hl, e⟩
      have hy : r ∈ residents (restartCardWork s) := r3.symm ▸ (r2 r).2 ⟨hr, by rw [hl]; simp⟩
      obtain ⟨i, hi⟩ := mem_residents.1 hy
      refine ⟨r, mem_residents.2 ⟨i, ?_⟩, by simp [hl], e⟩
      rw [hcs, List.getElem?_map, hi]
      simp [RecordSlot.mapEach, Record.heldOnWay, hl]
  -- the SETTLED records
  have hq' : (returnHeld (restartCardWork s)).dev.queue = [] := by
    simp [returnHeld, returnRecords, updateRecords, hq]
  have hd := dropSettled_takeAway hq'
  generalize ha : takeAway (settledShots (returnHeld (restartCardWork s))) (returnHeld (restartCardWork s)) = a at hd
  have has : a.table.slots = (returnHeld (restartCardWork s)).table.slots.map
      (RecordSlot.clearIf fun r => r.life == .settled) := by
    rw [← ha]; exact takeAway_shotsWhere _ h4 rfl
  have ht : (restartCard s).table = a.table := by
    unfold restartCard
    dsimp only
    rw [hd]
    simp [emptyIndex, clearFull]
  have hp : (restartCard s).pool = a.pool := by
    unfold restartCard
    dsimp only
    rw [hd]
    simp [emptyIndex, clearFull]
  have hh : (restartCard s).card.handoffs = a.card.handoffs.map Handoff.waiting := by
    have k1 : ∀ l t, (raiseAmendLost l t).card = t.card := fun l t => by simp
    have k2 : ∀ g t, (leaveSlots g t).card = t.card := fun g t => by simp
    unfold restartCard
    dsimp only
    rw [hd]
    simp only [clearFull, waitHandoffs, emptyIndex, k1, k2, List.map_map]
    rfl
  -- the shots taken away
  have hall : ∀ n, n ∈ shotsWhere s Record.dropsAtRestart ↔
      n ∈ retiringShots (discardLoads s) ∨ n ∈ settledShots (returnHeld (restartCardWork s)) := by
    intro n
    rw [r4]
    unfold retiringShots
    rw [mem_shotsWhere, mem_shotsWhere, r1]
    constructor
    · rintro ⟨r, hr, hl, e⟩
      simp only [Record.dropsAtRestart, Bool.or_eq_true, beq_iff_eq] at hl
      rcases hl with hl | hl
      · exact .inl ⟨r, hr, by simp [hl], e⟩
      · exact .inr ⟨r, hr, hl, e⟩
    · rintro (⟨r, hr, hl, e⟩ | ⟨r, hr, hl, e⟩)
      · exact ⟨r, hr, by simp only [Record.dropsAtRestart, hl, Bool.true_or], e⟩
      · exact ⟨r, hr, by simp [Record.dropsAtRestart, hl], e⟩
  have hbc : b.card.handoffs = s.card.handoffs.filter fun x => !(retiringShots (discardLoads s)).contains x.shot := by
    rw [← hb, takeAway_card]
    simp
  have hbo : ∀ p : Nat, b.pool.owners[p]? =
      if (∃ x ∈ s.card.handoffs, x.shot ∈ retiringShots (discardLoads s) ∧ x.plane = p) ∧ p < s.pool.owners.length
      then some .free else s.pool.owners[p]? := by
    intro p
    rw [← hb, takeAway_owner]
    simp
  have hbl : b.pool.owners.length = s.pool.owners.length := by
    rw [← hb]
    unfold takeAway
    generalize retiringShots (discardLoads s) = l
    generalize hs : discardLoads s = u
    have hu : u.pool.owners.length = s.pool.owners.length := by rw [← hs]; simp
    clear hs
    induction l generalizing u with
    | nil => exact hu
    | cons n l ih => exact ih _ (by simp [hu])
  have hco : (returnHeld (restartCardWork s)).pool = b.pool := by
    rw [hw]; simp [returnHeld, returnRecords, updateRecords, orphanBus]
  obtain ⟨g, hch, hg⟩ : ∃ g : Handoff → Handoff,
      (returnHeld (restartCardWork s)).card.handoffs = b.card.handoffs.map g ∧
      ∀ x, (g x).shot = x.shot ∧ (g x).plane = x.plane ∧ (g x).waiting = x.waiting := by
    rw [hw]
    refine ⟨_, rfl, fun x => ?_⟩
    dsimp only
    generalize (x.writing && _) = c
    cases c <;> exact ⟨rfl, rfl, rfl⟩
  have hao : ∀ p : Nat, a.pool.owners[p]? =
      if (∃ x ∈ b.card.handoffs, x.shot ∈ settledShots (returnHeld (restartCardWork s)) ∧ x.plane = p) ∧
        p < s.pool.owners.length then some .free else b.pool.owners[p]? := by
    intro p
    have hiff : (∃ x ∈ (returnHeld (restartCardWork s)).card.handoffs,
          x.shot ∈ settledShots (returnHeld (restartCardWork s)) ∧ x.plane = p) ↔
        ∃ x ∈ b.card.handoffs, x.shot ∈ settledShots (returnHeld (restartCardWork s)) ∧ x.plane = p := by
      simp only [hch, List.mem_map, exists_exists_and_eq_and, (hg _).1, (hg _).2.1]
    rw [← ha, takeAway_owner, hco, hbl]
    simp only [hiff]
  have hslots : (restartCard s).table.slots = s.table.slots.map RecordSlot.cardRestarted := by
    rw [ht, has, hcs, hwt, hbs, discardLoads_slots, List.map_map, List.map_map, List.map_map]
    exact List.map_congr_left fun x _ => cardRestarted_steps x
  have hfol : TableFollows s (restartCard s) := by
    refine tableFollows_trans (tableFollows_discardLoads s) (tableFollows_trans (hb ▸ tableFollows_takeAway _ _) ?_)
    refine tableFollows_trans (tableFollows_of_table hwt) (tableFollows_trans (tableFollows_returnHeld _) ?_)
    exact tableFollows_trans (ha ▸ tableFollows_takeAway _ _) (tableFollows_of_table ht)
  refine ⟨hslots, hfol, ?_, by simp, ?_, ?_⟩
  · intro x m r hr hdrop
    by_cases hx : r.dropsAtRestart = true
    · obtain ⟨i, hi⟩ := mem_residents.1 hr
      rcases hfol.record i r hi with ⟨_, _, k⟩ | ⟨y, k, _⟩
      · exact k x m
      · rw [hslots, List.getElem?_map, hi] at k
        simp [RecordSlot.cardRestarted, hx] at k
    · have hw' := hdrop.resolve_left hx
      have hr' : r ∈ residents (restartCardWork s) := r3.symm ▸ (r2 r).2 ⟨hr, fun e => hx (by simp
          [Record.dropsAtRestart, e])⟩
      refine returnHeld_amended h3 x ?_ r hr' hw'
      rw [ht] at m
      exact (ha ▸ tableFollows_takeAway _ _ : TableFollows (returnHeld (restartCardWork s)) a).amended.subset m
  · rw [hh, ← ha, takeAway_card]
    dsimp only
    rw [hch, hbc, List.filter_map, List.map_map, List.filter_filter]
    have e1 : ∀ l : List Handoff, l.map (Handoff.waiting ∘ g) = l.map Handoff.waiting := fun l =>
      List.map_congr_left fun x _ => (hg x).2.2
    rw [e1]
    congr 1
    refine List.filter_congr fun x _ => ?_
    rw [Bool.eq_iff_iff]
    simp only [Function.comp, (hg x).1, Bool.and_eq_true, Bool.not_eq_true', List.contains_eq_mem,
      decide_eq_false_iff_not, hall, not_or]
    exact and_comm
  · intro p
    rw [hp, hao, hbo]
    by_cases hl : p < s.pool.owners.length
    · simp only [hl, and_true]
      have hiff : (∃ x ∈ s.card.handoffs, x.shot ∈ shotsWhere s Record.dropsAtRestart ∧ x.plane = p) ↔
          (∃ x ∈ b.card.handoffs, x.shot ∈ settledShots (returnHeld (restartCardWork s)) ∧ x.plane = p) ∨
          ∃ x ∈ s.card.handoffs, x.shot ∈ retiringShots (discardLoads s) ∧ x.plane = p := by
        constructor
        · rintro ⟨x, m, e1, e2⟩
          by_cases hx : x.shot ∈ retiringShots (discardLoads s)
          · exact .inr ⟨x, m, hx, e2⟩
          · refine .inl ⟨x, ?_, ((hall _).1 e1).resolve_left hx, e2⟩
            rw [hbc]
            exact List.mem_filter.2 ⟨m, by simpa using hx⟩
        · rintro (⟨x, m, e1, e2⟩ | ⟨x, m, e1, e2⟩)
          · rw [hbc] at m
            exact ⟨x, (List.mem_filter.1 m).1, (hall _).2 (.inr e1), e2⟩
          · exact ⟨x, m, (hall _).2 (.inl e1), e2⟩
      by_cases hA : ∃ x ∈ b.card.handoffs, x.shot ∈ settledShots (returnHeld (restartCardWork s)) ∧ x.plane = p
      · rw [if_pos hA, if_pos (hiff.2 (.inl hA))]
      · rw [if_neg hA]
        by_cases hB : ∃ x ∈ s.card.handoffs, x.shot ∈ retiringShots (discardLoads s) ∧ x.plane = p
        · rw [if_pos hB, if_pos (hiff.2 (.inr hB))]
        · rw [if_neg hB, if_neg fun k => (hiff.1 k).elim hA hB]
    · simp only [hl, and_false, if_false]

/-! ### The event in which RESTARTING ends -/

/-- The Card Store starts nothing: a command is on the bus, or the card is ABSENT with no work. -/
def CardQuiet (s : State) : Prop := s.card.bus.isSome ∨ (s.card.state = .absent ∧ s.card.work = none)

theorem startCardWork_quiet {s : State} (h : CardQuiet s) : startCardWork s = s := by
  unfold startCardWork
  split
  · next hb =>
    rcases h with h | ⟨h1, h2⟩
    · cases hbus : s.card.bus <;> simp_all
    · have h3 : nextChoice s = none := by
        unfold nextChoice
        rw [h1]
        rfl
      have h4 : chooseWork choiceLimit s = s := by
        unfold choiceLimit chooseWork
        rw [h2, h3]
      rw [h4]
      unfold kick
      rw [h2]
      split <;> simp_all
  · rfl

/-- With no job, no dark claim and a quiet card, what follows an event is the engine claim withdrawn and a dark claim
made. -/
theorem service_quiet {s : State} (hc : CardQuiet s) (hq : s.dev.queue = []) (hd : s.pool.darkClaim = false)
    (hs : s.card.state ≠ .ejecting) : service s = claimForDark (setEngineClaim false s) := by
  have h1 : serveDarkClaim s = s := by
    unfold serveDarkClaim
    rw [hd]
    rfl
  have h2 : attemptDispatch s = setEngineClaim false s := by
    unfold attemptDispatch
    split
    · have : jobToDispatch s = none := by
        unfold jobToDispatch
        rw [hq]
        rfl
      rw [this]
      dsimp only
      rw [hq]
      rfl
    · unfold refreshEngineClaim
      rw [hq, List.any_nil, Bool.and_false]
  have h3 : serveBlocks s = claimForDark (setEngineClaim false s) := by
    unfold serveBlocks
    rw [h1, h2, startCardWork_quiet]
    exact hc
  have h4 : drained (claimForDark (setEngineClaim false s)) = false := by
    unfold drained
    have : (claimForDark (setEngineClaim false s)).card.state = s.card.state := by simp
    rw [this]
    simp [hs]
  unfold service
  dsimp only
  rw [h3, h4]
  rfl

/-- A matching pass changes records in their slots alone (R102). -/
structure OnlyLinks (s t : State) : Prop where
  order : t.table.useOrder = s.table.useOrder
  amended : t.table.amended = s.table.amended
  claim : t.pool.darkClaim = s.pool.darkClaim

theorem onlyLinks_of_table {s t : State} (h : t.table = s.table) (hp : t.pool.darkClaim = s.pool.darkClaim) :
    OnlyLinks s t := ⟨by rw [h], by rw [h], hp⟩

theorem onlyLinks_trans {s t u : State} (h : OnlyLinks s t) (h' : OnlyLinks t u) : OnlyLinks s u :=
  ⟨h'.order.trans h.order, h'.amended.trans h.amended, h'.claim.trans h.claim⟩

theorem onlyLinks_foldl {α : Type} {step : State → α → State} (h : ∀ s a, OnlyLinks s (step s a)) (l : List α)
    (s : State) : OnlyLinks s (l.foldl step s) := by
  induction l generalizing s with
  | nil => exact ⟨rfl, rfl, rfl⟩
  | cons a l ih => exact onlyLinks_trans (h s a) (ih _)

theorem onlyLinks_linkShot (e : Nat) (s : State) (n : Nat) : OnlyLinks s (linkShot e s n) := by
  have h : OnlyLinks s (updateRecord n (fun r => { r with darkLink := .linked e }) s) := ⟨rfl, rfl, rfl⟩
  unfold linkShot
  dsimp only
  split
  · exact onlyLinks_trans h (onlyLinks_of_table (by simp) (by simp))
  · exact h

theorem onlyLinks_planRounds (fuel : Nat) (s : State) : OnlyLinks s (planRounds fuel s) := by
  induction fuel generalizing s with
  | zero => exact ⟨rfl, rfl, rfl⟩
  | succ fuel ih =>
    unfold planRounds
    split
    · next n ns e _ _ =>
      split
      · exact ⟨rfl, rfl, rfl⟩
      · next r _ =>
        refine onlyLinks_trans (t := planEntry e r (freeEntry e s)) (onlyLinks_of_table (by simp) ?_)
          (onlyLinks_trans (onlyLinks_foldl (step := linkIfFits e) (fun s n => ?_) (n :: ns) _) (ih _))
        · unfold planEntry freeEntry releasePlane
          dsimp only
          split <;> rfl
        · unfold linkIfFits
          split
          · exact ⟨rfl, rfl, rfl⟩
          · split
            · exact onlyLinks_linkShot e s n
            · exact ⟨rfl, rfl, rfl⟩
    · exact ⟨rfl, rfl, rfl⟩

theorem onlyLinks_matchingPass (s : State) : OnlyLinks s (matchingPass s) := by
  unfold matchingPass
  split
  · refine onlyLinks_trans (onlyLinks_foldl (step := matchShot) (fun s n => ?_) (awaitingShots s) s)
      (onlyLinks_planRounds _ _)
    unfold matchShot
    split
    · exact ⟨rfl, rfl, rfl⟩
    · next e _ => exact onlyLinks_linkShot e s n
  · exact ⟨rfl, rfl, rfl⟩

/-- What the end of RESTARTING leaves when no job waits and the card is quiet (R102, R181). -/
theorem enterRunning_quiet {s : State} (hc : CardQuiet s) (hq : s.dev.queue = []) (hd : s.pool.darkClaim = false)
    (hs : s.card.state ≠ .ejecting) :
    (enterRunning s).table.useOrder = s.table.useOrder ∧ (enterRunning s).table.amended = s.table.amended ∧
    (enterRunning s).card = s.card ∧ (enterRunning s).notices = s.notices ∧ (enterRunning s).dev = s.dev ∧
    (enterRunning s).cache = s.cache ∧ (enterRunning s).seq = s.seq ∧ (enterRunning s).link = s.link ∧
    (enterRunning s).part = .running ∧ (enterRunning s).pool.engineClaim = false := by
  have hm := onlyLinks_matchingPass { s with part := .running }
  have hk := matchingPass_keeps { s with part := .running }
  unfold enterRunning
  generalize matchingPass { s with part := .running } = u at *
  obtain ⟨_, _, k1, _, _, _, k2, k3, _, k4, _, _, _, k5, k6, k7, _⟩ := hk
  have he : service u = claimForDark (setEngineClaim false u) := by
    refine service_quiet ?_ (by rw [k5]; exact hq) (hm.claim.trans hd) (by rw [k7]; exact hs)
    unfold CardQuiet
    rw [k7]
    exact hc
  rw [he]
  refine ⟨?_, ?_, ?_, ?_, ?_, ?_, ?_, ?_, ?_, ?_⟩
  · simpa using hm.order
  · simpa using hm.amended
  · simpa using k7
  · simpa using k3
  · simpa using k5
  · simpa using k6
  · simpa using k4
  · simpa using k2
  · simpa using k1
  · unfold claimForDark
    split <;> rfl

/-! ### A RESTART taken -/

/-- The Card Store after its RESTART work (R160). -/
theorem restartCard_card {s : State} (hq : s.dev.queue = []) : (restartCard s).card =
    { s.card with
      indexHeld := false, index := [], damaged := [], map := [], reads := [], entries := [], full := false, marks := [],
      work := none, bus := s.card.bus.map fun b => { b with orphan := true }, ejectTag := none, formatTag := none,
      formatWait := none, handoffs := (restartCard s).card.handoffs } := by
  have hq' : (returnHeld (restartCardWork s)).dev.queue = [] := by
    simp [returnHeld, returnRecords, updateRecords, hq]
  have k1 : ∀ l t, (raiseAmendLost l t).card = t.card := fun l t => by simp
  have k2 : ∀ g t, (leaveSlots g t).card = t.card := fun g t => by simp
  have k3 : (restartCardWork s).card = { s.card with
      reads := [], entries := [], work := none, ejectTag := none, formatTag := none, formatWait := none,
      bus := s.card.bus.map fun b => { b with orphan := true },
      handoffs := (restartCardWork s).card.handoffs } := by
    unfold restartCardWork orphanBus
    dsimp only
    rw [discardRecords_eq, takeAway_card, (discardLoads_keeps s).2.2.2.2.2.2.2.2.2.2.2.2.2.2.2.2.2.2.1]
  unfold restartCard
  dsimp only
  rw [dropSettled_takeAway hq']
  simp only [clearFull, waitHandoffs, emptyIndex, k1, k2, takeAway_card]
  simp only [returnHeld, returnRecords, updateRecords]
  rw [k3]

/-- What RESTART leaves but for the end of RESTARTING (R181). -/
def restartedPart (tag : Nat) (s : State) : State :=
  let running := (runningPau s).map fun q => (q, stoppedAt s q)
  let u := restartLink tag s.causes (replacePau running (restartStores (clearNotices (restartBlocks s))))
  restartMount { u with part := .restarting, causes := { s.causes with restart := true } }

theorem restartBlocks_queue (s : State) : (restartBlocks s).dev =
    { queue := [], engine := .idle, holds := none, readout := false, floor := s.dev.floor } := by
  unfold restartBlocks
  rw [restartDev_dev]
  simp

theorem restartPart_eq (tag : Nat) (s : State) : restartPart tag s =
    if s.card.bus.isNone then enterRunning (restartedPart tag s) else restartedPart tag s := by
  have hb : (restartStores (clearNotices (restartBlocks s))).card.bus =
      s.card.bus.map fun b => { b with orphan := true } := by
    have h1 : ∀ t : State, t.card = s.card → t.dev.queue = [] → (restartStores t).card.bus =
        s.card.bus.map fun b => { b with orphan := true } := by
      intro t ht hq
      have : (restartStores t).card = (restartCard { t with cache := .reset }).card := by
        unfold restartStores
        simp
      rw [this, restartCard_card (s := { t with cache := .reset }) hq]
      simp only [ht]
    exact h1 _ (by simp) (by simp [restartBlocks_queue])
  unfold restartPart restartEnds restartedPart
  dsimp only
  simp only [restartLink_keeps, replacePau_keeps, hb, Option.isNone_map]

/-- The blocks as the Card Store's RESTART work finds them. -/
def beforeStores (s : State) : State := { clearNotices (restartBlocks s) with cache := .reset }

/-- The records, the planes, the dark entries and the rolls are as the Card Store leaves them. -/
theorem restartedPart_blocks (tag : Nat) (s : State) :
    (restartedPart tag s).table = (restartCard (beforeStores s)).table ∧
    (restartedPart tag s).pool = (restartCard (beforeStores s)).pool ∧
    (restartedPart tag s).dark = (restartBlocks s).dark ∧ (restartedPart tag s).rolls = (restartBlocks s).rolls ∧
    (restartedPart tag s).mem = (restartBlocks s).mem ∧ (restartedPart tag s).part = .restarting ∧
    (restartedPart tag s).dev = { queue := [], engine := .idle, holds := none, readout := false, floor := s.dev.floor
        } ∧
    (restartedPart tag s).card.handoffs = (restartCard (beforeStores s)).card.handoffs := by
  have h1 : ∀ t : State, (restartMount t).card.handoffs = t.card.handoffs := by
    intro t
    unfold restartMount beginMount setCardState setWork kick
    repeat' split
    all_goals rfl
  have h2 : ∀ t : State, t.dev.queue = [] → (restartCard t).dev = t.dev := by
    intro t hq
    have h3 : ∀ (l : List Nat) (u : State), (takeAway l u).dev = u.dev := by
      intro l
      induction l with
      | nil => exact fun _ => rfl
      | cons n l ih => exact fun u => (ih _).trans (by simp)
    have hq' : (returnHeld (restartCardWork t)).dev.queue = [] := by
      simp [returnHeld, returnRecords, updateRecords, hq]
    unfold restartCard
    dsimp only
    rw [dropSettled_takeAway hq']
    simp [clearFull, emptyIndex, h3, returnHeld, returnRecords, updateRecords]
  have h3 := h2 (beforeStores s) (by simp [beforeStores, restartBlocks_queue])
  have h4 : (beforeStores s).dev = _ := (show (beforeStores s).dev = (restartBlocks s).dev by simp [beforeStores]).trans
    (restartBlocks_queue s)
  unfold restartedPart
  refine ⟨?_, ?_, ?_, ?_, ?_, ?_, ?_, ?_⟩
  · simp [restartStores, beforeStores]
  · simp [restartStores, beforeStores]
  · simp
  · simp
  · simp
  · simp
  · rw [← h4, ← h3]
    simp [restartStores, beforeStores]
  · rw [h1]
    simp [restartStores, beforeStores]

/-- What RESTART makes of a record slot. -/
def RecordSlot.restarted (s : State) (x : RecordSlot) : RecordSlot :=
  RecordSlot.cardRestarted (RecordSlot.mapEach (Record.settledBy ((runningJob s).map (·.shot)))
    (RecordSlot.mapEach (Record.failIn (abandonedEntries s)) (RecordSlot.settled s x)))

theorem restartSequencer_dark (s : State) : (restartSequencer s).dark = s.dark := by
  unfold restartSequencer
  dsimp only
  split <;> simp

theorem restartSequencer_queue (s : State) :
    (restartSequencer s).dev.queue = s.dev.queue ∧ (restartSequencer s).dev.holds = s.dev.holds := by
  unfold restartSequencer
  dsimp only
  split <;> simp [readoutEnds]

/-- The stages of RESTART, one after another, in a state that meets the laws of R22 and R62. -/
structure RestartStages (s a b c : State) : Prop where
  sequencer : SequencerRestarted (stopPau s) a
  dark : DarkRestarted a b
  dev : DevRestarted b c
  store : StoreRestarted (beforeStores s) (restartCard (beforeStores s))
  aDark : a.dark = s.dark
  bQueue : b.dev.queue = s.dev.queue
  bHolds : b.dev.holds = s.dev.holds
  before : (beforeStores s).table = c.table ∧ (beforeStores s).pool = c.pool ∧ (beforeStores s).card = s.card
  ends : (restartBlocks s).dark = b.dark ∧ (restartBlocks s).rolls = a.rolls ∧ (restartBlocks s).mem = (stopPau s).mem

theorem restart_stages {s : State} (hd : NumbersDistinct s) (ho : OpenShotAgrees s) :
    ∃ a b c, RestartStages s a b c := by
  have ht : (stopPau s).table = s.table := by simp
  have hq : (stopPau s).seq = s.seq := by simp
  have h0 : NumbersDistinct (stopPau s) := numbersDistinct_congr ht hd
  have h1 := restartSequencer_restarts h0 (openShotAgrees_congr ht (by rw [hq]) (by rw [hq]) ho)
  have h2 : NumbersDistinct (restartSequencer (stopPau s)) :=
    numbersDistinct_map (keepsNumbers_settled _) h1.slots h0
  have h3 := restartDark_restarts h2
  have h4 : NumbersDistinct (restartDark (restartSequencer (stopPau s))) :=
    numbersDistinct_map (keepsNumbers_mapEach (failIn_number _)) h3.slots h2
  have h5 := restartDev_restarts h4
  have h6 : NumbersDistinct (restartBlocks s) :=
    numbersDistinct_map (keepsNumbers_mapEach (settledBy_number _)) h5.slots h4
  have h7 : (beforeStores s).table = (restartBlocks s).table := by simp [beforeStores]
  refine ⟨restartSequencer (stopPau s), restartDark (restartSequencer (stopPau s)), restartBlocks s, h1, h3, h5,
    restartCard_restarts (numbersDistinct_congr h7 h6) (by simp [beforeStores, restartBlocks_queue]), ?_, ?_, ?_,
    ⟨h7, by simp [beforeStores], by simp [beforeStores]⟩, ?_, ?_, ?_⟩
  · rw [restartSequencer_dark]
    simp
  · simp [restartSequencer_queue]
  · simp [restartSequencer_queue]
  · simp [restartBlocks]
  · simp [restartBlocks]
  · simp [restartBlocks]

theorem restart_slots {s : State} (hd : NumbersDistinct s) (ho : OpenShotAgrees s) :
    (restartCard (beforeStores s)).table.slots = s.table.slots.map (RecordSlot.restarted s) ∧
    TableFollows s (restartCard (beforeStores s)) := by
  obtain ⟨a, b, c, h⟩ := restart_stages hd ho
  have e1 : abandonedEntries a = abandonedEntries s := by
    unfold abandonedEntries darkEntry
    rw [h.aDark]
  have e2 : runningJob b = runningJob s := by
    unfold runningJob
    rw [h.bQueue]
  have e3 : RecordSlot.settled (stopPau s) = RecordSlot.settled s := by
    funext x
    cases x with
    | inUse r =>
      simp only [RecordSlot.settled, finishedRecord_congr (show (stopPau s).rolls = s.rolls by simp),
        show (stopPau s).seq = s.seq by simp]
    | _ => rfl
  have e4 : (stopPau s).table = s.table := by simp
  constructor
  · rw [h.store.slots, h.before.1, h.dev.slots, h.dark.slots, h.sequencer.slots, e1, e2, e3, e4]
    simp only [List.map_map]
    rfl
  · exact tableFollows_trans (tableFollows_of_table e4) (tableFollows_trans h.sequencer.follows
      (tableFollows_trans h.dark.follows (tableFollows_trans h.dev.follows
        (tableFollows_trans (tableFollows_of_table h.before.1) h.store.follows))))

/-! ### Claims and the card after RESTART -/

theorem takeAway_claim (l : List Nat) (s : State) : (takeAway l s).pool.darkClaim = s.pool.darkClaim ∧
    (takeAway l s).pool.engineClaim = s.pool.engineClaim := by
  have h : ∀ (ps : List Nat) (t : State),
      (ps.foldl (fun s p => setOwner p .free s) t).pool.darkClaim = t.pool.darkClaim ∧
      (ps.foldl (fun s p => setOwner p .free s) t).pool.engineClaim = t.pool.engineClaim := by
    intro ps
    induction ps with
    | nil => exact fun _ => ⟨rfl, rfl⟩
    | cons p ps ih => exact fun t => ih _
  induction l generalizing s with
  | nil => exact ⟨rfl, rfl⟩
  | cons n l ih =>
    have h1 : (removeRecord n (freeHandoffs n s)).pool = (freeHandoffs n s).pool := by simp
    have h2 := ih (removeRecord n (freeHandoffs n s))
    rw [h1] at h2
    exact ⟨h2.1.trans (h _ _).1, h2.2.trans (h _ _).2⟩

theorem restartCard_claim {s : State} (hq : s.dev.queue = []) :
    (restartCard s).pool.darkClaim = s.pool.darkClaim ∧ (restartCard s).pool.engineClaim = s.pool.engineClaim := by
  have hq' : (returnHeld (restartCardWork s)).dev.queue = [] := by
    simp [returnHeld, returnRecords, updateRecords, hq]
  have h3 : ∀ l u, (raiseAmendLost l u).pool = u.pool := fun l u => by simp
  have h4 : ∀ g u, (leaveSlots g u).pool = u.pool := fun g u => by simp
  have h5 : (discardLoads s).pool = s.pool := by simp
  unfold restartCard
  dsimp only
  rw [dropSettled_takeAway hq']
  simp only [clearFull, waitHandoffs, emptyIndex, h3, h4, takeAway_claim]
  simp only [returnHeld, returnRecords, updateRecords, restartCardWork, orphanBus, discardRecords_eq, takeAway_claim,
      h5,
    and_self]

/-- No claim waits after RESTART (R91, R111). -/
theorem restartedPart_claim (tag : Nat) (s : State) :
    (restartedPart tag s).pool.darkClaim = false ∧ (restartedPart tag s).pool.engineClaim = false := by
  rw [(restartedPart_blocks tag s).2.1]
  have h1 : ∀ q (t : State), (releasePlane q t).pool.darkClaim = t.pool.darkClaim := by
    intro q t
    cases q <;> rfl
  have h5 : ∀ t : State, t.pool.darkClaim = false → (restartDev t).pool.darkClaim = false := by
    intro t ht
    have h6 : (dropHolds t).pool.darkClaim = false := by
      unfold dropHolds endHolds
      dsimp only
      generalize t.dev.holds.bind (·.slot) = slot
      cases slot <;> simp [freeSlot, setPreview, h1, ht]
    have h7 : ∀ n (u : State), (settle n u).pool.darkClaim = u.pool.darkClaim := by
      intro n u
      unfold settle
      repeat' split
      · rfl
      · simp [updateRecord, h1]
      · rfl
    unfold restartDev
    dsimp only
    generalize (runningJob t).map (·.shot) = reading
    cases reading with
    | none => exact h6
    | some n => exact (h7 n _).trans h6
  have h8 : (beforeStores s).pool = (restartBlocks s).pool := by simp [beforeStores]
  have h9 := restartCard_claim (s := beforeStores s) (by simp [beforeStores, restartBlocks_queue])
  rw [h9.1, h9.2, h8]
  exact ⟨h5 _ rfl, rfl⟩

/-- The Card Store when RESTART is done, but for its hand-offs (R160). -/
theorem restartedPart_card (tag : Nat) (s : State) : (restartedPart tag s).card =
    { s.card with
      state := if s.card.detect.accepted then .mounting else .absent
      indexHeld := false, index := [], damaged := [], map := [], reads := [], entries := [], full := false, marks := []
      work := if s.card.detect.accepted then some .identify else none
      bus := match s.card.bus with
        | some b => some { b with orphan := true }
        | none =>
          if s.card.detect.accepted then
            some { command := .identify, issued := s.timeBase, retried := false, orphan := false }
          else none
      ejectTag := none, formatTag := none, formatWait := none, handoffs := (restartedPart tag s).card.handoffs } := by
  have h1 : ∀ t : State, t.card.work = none → t.timeBase = s.timeBase →
      t.card.bus = s.card.bus.map (fun b => { b with orphan := true }) → t.card.detect = s.card.detect →
      (restartMount t).card = { t.card with
        state := if s.card.detect.accepted then .mounting else .absent
        work := if s.card.detect.accepted then some .identify else none
        bus := match s.card.bus with
          | some b => some { b with orphan := true }
          | none =>
            if s.card.detect.accepted then
              some { command := .identify, issued := s.timeBase, retried := false, orphan := false }
            else none } := by
    intro t hw htb hb hd
    unfold restartMount beginMount setCardState setWork kick
    rw [hd]
    cases hbus : s.card.bus with
    | none =>
      rw [hbus] at hb
      by_cases ha : s.card.detect.accepted = true
      · simp [ha, hb, htb, commandOf]
      · simp [ha, hb, hw]
    | some b =>
      rw [hbus] at hb
      by_cases ha : s.card.detect.accepted = true
      · simp [ha, hb]
      · simp [ha, hb, hw]
  have h2 : (restartStores (clearNotices (restartBlocks s))).card = (restartCard (beforeStores s)).card := by
    simp [restartStores, beforeStores]
  have h3 := restartCard_card (s := beforeStores s) (by simp [beforeStores, restartBlocks_queue])
  have h4 : (beforeStores s).card = s.card := by simp [beforeStores]
  rw [h4, ← h2] at h3
  have h5 := h1 { restartLink tag s.causes (replacePau ((runningPau s).map fun q => (q, stoppedAt s q))
    (restartStores (clearNotices (restartBlocks s)))) with
      part := .restarting, causes := { s.causes with restart := true } }
    (by simp only [restartLink_keeps, replacePau_keeps]; rw [h3]) (by simp)
    (by simp only [restartLink_keeps, replacePau_keeps]; rw [h3])
    (by simp only [restartLink_keeps, replacePau_keeps]; rw [h3])
  have h6 : (restartedPart tag s).card = _ := h5
  rw [h6]
  simp only [restartLink_keeps, replacePau_keeps]
  rw [h3]

/-! ### The Plane Arithmetic Unit at RESTART -/

theorem stopPau_pau (s : State) : (stopPau s).pau = [] := by
  unfold stopPau
  split <;> rfl

theorem restartBlocks_pau (s : State) : (restartBlocks s).pau = [] := by
  unfold restartBlocks
  simp [stopPau_pau]

/-- A request placed anew is the APPLY_DARK of a record LINKED to a READY entry (R92, R108). -/
def PlacedFor (w : State) (q : PauRequest) : Prop :=
  q.resume = 0 ∧ ∃ r e, findRecord w q.shot = some r ∧ readyLink w r = some e ∧ q.op = .applyDark e ∧
    q.source = ((darkEntry w e).state.plane?).getD 0 ∧ q.destination = r.rawPlane.getD 0

/-- The requests placed so far: those of the shots `ns`, up to seven, the first started and the others not (R92,
    R97). -/
structure Placed (w : State) (first ns : List Nat) (l : List PauRequest) : Prop where
  shots : l.map (·.shot) = ns.take 7
  ops : ∀ q ∈ l, q.op ≠ .accumulate
  started : ∀ (i : Nat) (q : PauRequest), l[i]? = some q → (q.running = true ↔ i = 0)
  scale : ∀ q : PauRequest, l[0]? = some q → q.scale = pauScale w q.shot
  each : ∀ q ∈ l, q.shot ∉ first → PlacedFor w q

theorem applyDarkMax_le {w : State} {first ns : List Nat} {l : List PauRequest} (h : Placed w first ns l) :
    (l.filter fun q => q.op != .accumulate).length = (ns.take 7).length := by
  rw [List.filter_eq_self.2 fun q hq => by simpa using h.ops q hq, ← List.length_map (f := PauRequest.shot), h.shots]

/-- A request joins the requests placed. -/
theorem placed_join {w : State} {first ns : List Nat} {l : List PauRequest} (h : Placed w first ns l) (n e at_ : Nat)
    (hn : n ∈ first ∨ PlacedFor w { applyDarkRequest w n e at_ with running := true } ) :
    ∃ l', (placeApplyDark n e at_ { w with pau := l }).pau = l' ∧
      placeApplyDark n e at_ { w with pau := l } = { w with pau := l' } ∧ Placed w first (ns ++ [n]) l' ∧
      (l = [] → l' = [{ applyDarkRequest w n e at_ with running := true, scale := pauScale w n }]) ∧
      ∀ q : PauRequest, l[0]? = some q → l'[0]? = some q := by
  have hlen := applyDarkMax_le h
  have hll : l.length = (ns.take 7).length := by rw [← h.shots, List.length_map]
  unfold placeApplyDark
  dsimp only
  rw [hlen]
  by_cases h7 : Config.applyDarkMax ≤ (ns.take 7).length
  · rw [if_pos h7]
    have h8 : 7 ≤ ns.length := by
      rw [List.length_take] at h7
      unfold Config.applyDarkMax at h7
      omega
    refine ⟨l, rfl, rfl, ⟨?_, h.ops, h.started, h.scale, h.each⟩, fun hl => ?_, fun _ => id⟩
    · rw [h.shots, List.take_append_of_le_length h8]
    · rw [hl] at hll
      rw [← hll] at h7
      cases h7
  · rw [if_neg h7]
    have h8 : ns.length < 7 := by
      rw [List.length_take] at h7
      unfold Config.applyDarkMax at h7
      omega
    have hns : ns.take 7 = ns := List.take_of_length_le (by omega)
    have hns' : (ns ++ [n]).take 7 = ns ++ [n] := List.take_of_length_le (by simp; omega)
    have hreq : applyDarkRequest { w with pau := l } n e at_ = applyDarkRequest w n e at_ := rfl
    rw [hreq]
    unfold joinPau startPau nextPau
    dsimp only
    cases l with
    | nil =>
      refine ⟨_, rfl, rfl, ⟨?_, ?_, ?_, ?_, ?_⟩, fun _ => rfl, fun q h => (by cases h)⟩
      · rw [hns']
        have h0 : ns = [] := by
          rw [hns] at hll
          exact List.length_eq_zero_iff.1 hll.symm
        rw [h0]
        rfl
      · intro q hq
        have : q = _ := List.mem_singleton.1 hq
        rw [this]
        simp [PauRequest.started, applyDarkRequest]
      · intro i q hi
        cases i with
        | zero => cases hi; simp [PauRequest.started]
        | succ i => cases hi
      · intro q hi
        cases hi
        rfl
      · intro q hq hq2
        have : q = _ := List.mem_singleton.1 hq
        subst this
        rcases hn with hn | ⟨hn1, r, e', hn2⟩
        · exact absurd hn hq2
        · exact ⟨hn1, r, e', hn2⟩
    | cons x l =>
      have hx := (h.started 0 x rfl).2 rfl
      have hany : ((x :: l) ++ [applyDarkRequest w n e at_]).any (·.running) = true := by simp [hx]
      rw [if_pos hany]
      dsimp only
      refine ⟨_, rfl, rfl, ⟨?_, ?_, ?_, ?_, ?_⟩, fun hl => (by cases hl), fun q h => h⟩
      · rw [List.map_append, h.shots, hns, hns']
        rfl
      · intro q hq
        rcases List.mem_append.1 hq with hq | hq
        · exact h.ops q hq
        · rw [List.mem_singleton.1 hq]
          simp [applyDarkRequest]
      · intro i q hi
        by_cases hl : i < (x :: l).length
        · rw [List.getElem?_append_left hl] at hi
          exact h.started i q hi
        · rw [List.getElem?_append_right (by omega)] at hi
          cases hd : i - (x :: l).length with
          | zero =>
            rw [hd] at hi
            cases hi
            simp only [List.length_cons] at hl
            simp [applyDarkRequest]
            omega
          | succ j => rw [hd] at hi; cases hi
      · intro q hi
        rw [List.cons_append] at hi
        exact h.scale q hi
      · intro q hq hq2
        rcases List.mem_append.1 hq with hq | hq
        · exact h.each q hq hq2
        · have : q = _ := List.mem_singleton.1 hq
          subst this
          rcases hn with hn | ⟨hn1, r, e', hn2⟩
          · exact absurd hn hq2
          · exact ⟨hn1, r, e', hn2⟩

/-- The requests placed anew for a list of shots (R97). -/
theorem replaceRequests_placed {w : State} (first : List Nat) (hf : first.length ≤ 1) (ns : List Nat)
    (hl : ∀ n ∈ ns, ∃ r e, findRecord w n = some r ∧ readyLink w r = some e) (hnd : ns.Nodup) (done : List Nat)
    (hdis : ∀ n ∈ ns, n ∉ done) (l : List PauRequest) (h : Placed w first (first ++ done) l) :
    ∃ l', ns.foldl replaceRequest { w with pau := l } = { w with pau := l' } ∧
      Placed w first (first ++ (done ++ ns.filter fun n => !first.contains n)) l' ∧
      (∀ q, l[0]? = some q → l'[0]? = some q) := by
  induction ns generalizing done l with
  | nil => exact ⟨l, rfl, by simpa using h, fun _ => id⟩
  | cons n ns ih =>
    rw [List.nodup_cons] at hnd
    obtain ⟨r, e, hr, he⟩ := hl n List.mem_cons_self
    have hmem : pauNames { w with pau := l } n = (l.map (·.shot)).contains n := by
      unfold pauNames
      dsimp only
      rw [List.contains_eq_any_beq, List.any_map]
      congr 1
      funext q
      simp [Bool.beq_comm, Function.comp]
    by_cases hn : n ∈ first
    · have hstep : replaceRequest { w with pau := l } n = { w with pau := l } := by
        unfold replaceRequest
        rw [if_pos]
        rw [hmem, h.shots, List.contains_iff_mem]
        obtain ⟨m, rfl⟩ : ∃ m, first = [m] := by
          match first, hf, hn with
          | [m], _, _ => exact ⟨m, rfl⟩
          | _ :: _ :: _, hf, _ => simp at hf
        rw [List.mem_singleton.1 hn]
        simp
      rw [List.foldl_cons, hstep]
      obtain ⟨l', h1, h2, h3⟩ := ih (fun m hm => hl m (List.mem_cons_of_mem _ hm)) hnd.2 done
        (fun m hm => hdis m (List.mem_cons_of_mem _ hm)) l h
      refine ⟨l', h1, ?_, h3⟩
      rw [List.filter_cons, if_neg (by simpa using hn)]
      exact h2
    · have hno : n ∉ l.map (·.shot) := by
        rw [h.shots]
        intro hm
        rcases List.mem_append.1 (List.mem_of_mem_take hm) with hm | hm
        · exact hn hm
        · exact hdis n List.mem_cons_self hm
      have hstep : replaceRequest { w with pau := l } n = placeApplyDark n e 0 { w with pau := l } := by
        unfold replaceRequest
        rw [if_neg]
        · have h1 : (findRecord { w with pau := l } n).bind (readyLink { w with pau := l }) = some e := by
            have h2 : findRecord { w with pau := l } n = some r := hr
            rw [h2]
            exact he
          rw [h1]
        · rw [hmem, List.contains_iff_mem]
          exact hno
      obtain ⟨l1, _, h2, h3, _, h4⟩ := placed_join h n e 0 (.inr ⟨rfl, r, e, hr, he, rfl, rfl, by
        simp only [applyDarkRequest, hr, Option.bind_some]⟩)
      rw [List.append_assoc] at h3
      obtain ⟨l', k1, k2, k3⟩ := ih (fun m hm => hl m (List.mem_cons_of_mem _ hm)) hnd.2 (done ++ [n])
        (fun m hm hd => by
          rcases List.mem_append.1 hd with hd | hd
          · exact hdis m (List.mem_cons_of_mem _ hm) hd
          · exact hnd.1 (List.mem_singleton.1 hd ▸ hm)) l1 h3
      refine ⟨l', by rw [List.foldl_cons, hstep, h2]; exact k1, ?_, fun q hq => k3 q (h4 q hq)⟩
      rw [List.filter_cons, if_pos (by simpa using hn)]
      rw [List.append_assoc] at k2
      exact k2

theorem readyLink_isSome {w : State} {r : Record} : (readyLink w r).isSome = true ↔ ∃ e, r.darkLink = .linked e ∧
    (darkEntry w e).state.isReady = true := by
  unfold readyLink
  cases hl : r.darkLink with
  | linked e =>
    by_cases hr : (darkEntry w e).state.isReady = true
    · simp only [hr, if_true, Option.isSome_some, true_iff]
      exact ⟨e, rfl, hr⟩
    · simp only [hr]
      constructor
      · intro h
        cases h
      · rintro ⟨d, h1, h2⟩
        cases h1
        exact absurd h2 hr
  | _ =>
    refine ⟨fun h => (by cases h), ?_⟩
    rintro ⟨e, he, _⟩
    cases he

/-- What the Plane Arithmetic Unit holds after RESTART (R97). -/
theorem replacePau_placed {w : State} (hd : NumbersDistinct w) (hp : w.pau = []) (q : Option (PauRequest × Nat))
    (first : List Nat) (hq : first = match q with
      | some ({ op := .applyDark _, shot := n, .. }, _) => [n]
      | _ => []) :
    ∃ l, (replacePau q w).pau = l ∧
      Placed w first (first ++ (shotsWhere w fun r => (readyLink w r).isSome).filter fun n => !first.contains n) l ∧
      ∀ x at_ e, q = some (x, at_) → x.op = .applyDark e →
        l[0]? = some { applyDarkRequest w x.shot e at_ with running := true, scale := pauScale w x.shot } := by
  have hw : w = { w with pau := [] } := by
    cases w
    cases hp
    rfl
  have hempty : Placed w first [] [] := ⟨rfl, by simp, by simp, by simp, by simp⟩
  have hfl : first.length ≤ 1 := by
    rw [hq]
    split <;> simp
  obtain ⟨l0, h1, h2, h3⟩ : ∃ l0, replaceRunning q w = { w with pau := l0 } ∧ Placed w first first l0 ∧
      ∀ x at_ e, q = some (x, at_) → x.op = .applyDark e →
        l0[0]? = some { applyDarkRequest w x.shot e at_ with running := true, scale := pauScale w x.shot } := by
    unfold replaceRunning
    cases q with
    | none => exact ⟨[], hw, by rw [hq]; exact ⟨rfl, by simp, by simp, by simp, by simp⟩, fun _ _ _ h => (by cases h)⟩
    | some x =>
      obtain ⟨x, at_⟩ := x
      dsimp only
      cases hop : x.op with
      | accumulate =>
        have : first = [] := by
          rw [hq]
          split
          · next h => cases h; cases hop
          · rfl
        refine ⟨[], hw, by rw [this]; exact ⟨rfl, by simp, by simp, by simp, by simp⟩, fun y a e h1 h2 => ?_⟩
        cases h1
        rw [hop] at h2
        cases h2
      | applyDark e =>
        have : first = [x.shot] := by
          rw [hq]
          split
          · next h => cases h; rfl
          · next h => cases x; cases hop; exact absurd rfl (h _ _ _ _ _ _ _ _)
        obtain ⟨l', _, k2, k3, k4, _⟩ :=
          placed_join hempty x.shot e at_ (.inl (by rw [this]; exact List.mem_singleton.2 rfl))
        refine ⟨l', by rw [← k2, ← hw], by rw [this] at k3 ⊢; exact k3, fun y a e' h1 h2 => ?_⟩
        cases h1
        rw [hop] at h2
        cases h2
        rw [k4 rfl]
        rfl
  have hlist : shotsWhere (replaceRunning q w) (fun r => (readyLink (replaceRunning q w) r).isSome) =
      shotsWhere w fun r => (readyLink w r).isSome := by rw [h1]; rfl
  obtain ⟨l, k1, k2, k3⟩ := replaceRequests_placed (w := w) first hfl (shotsWhere w fun r => (readyLink w r).isSome)
    (fun n hn => by
      obtain ⟨r, hr, hl, e⟩ := mem_shotsWhere.1 hn
      obtain ⟨d, hd2⟩ := Option.isSome_iff_exists.1 hl
      exact ⟨r, d, e ▸ findRecord_eq hd hr, hd2⟩)
    (nodup_shotsWhere hd _) [] (by simp) l0 (by simpa using h2)
  refine ⟨l, ?_, by simpa using k2, fun x at_ e hx ho => k3 _ (h3 x at_ e hx ho)⟩
  unfold replacePau
  dsimp only
  rw [hlist, h1, k1]

end Sys2Proof.Machine
end

