-- ==== Sys2Proof/Laws/Values.lean ====
section
/-! SUPPORT. The 32-bit values of a plane: a write changes the value at its own place and no other, a plane is
disjoint from every other plane, and what ACCUMULATE, APPLY_DARK and a fetch leave at each place. -/

namespace Sys2Proof.Machine

/-- A value is what its four bytes are. -/
theorem readValue_congr {m m' : Memory} {p i : Nat}
    (h : ∀ a, valueAddress p i ≤ a → a < valueAddress p i + 4 → Memory.read m' a = Memory.read m a) :
    readValue m' p i = readValue m p i := by
  unfold readValue
  dsimp only
  rw [h _ (by omega) (by omega), h _ (by omega) (by omega), h _ (by omega) (by omega),
    h _ (by omega) (by omega)]

theorem readValue_writeValue_other {p i j : Nat} (v : BitVec 32) (m : Memory) (h : i ≠ j) :
    readValue (writeValue m p j v) p i = readValue m p i := by
  refine readValue_congr fun a h1 h2 => Memory.read_writeValue_other v m ?_
  unfold valueAddress at *
  omega

/-- A value of one plane is unchanged by whatever leaves the bytes outside another. -/
theorem readValue_other_plane {m m' : Memory} {p q i : Nat} (hpq : p ≠ q) (hi : i < planeValues)
    (h : ∀ a, a < planeBase q ∨ planeBase q + Config.planeBytes ≤ a → Memory.read m' a = Memory.read m a) :
    readValue m' p i = readValue m p i := by
  refine readValue_congr fun a h1 h2 => h a ?_
  have hv : 4 * i + 4 ≤ Config.planeBytes := by
    unfold planeValues at hi
    omega
  have key : ∀ x y : Nat, x < y → x * Config.planeBytes + Config.planeBytes ≤ y * Config.planeBytes := by
    intro x y hxy
    rw [← Nat.succ_mul]
    exact Nat.mul_le_mul_right _ hxy
  unfold valueAddress planeBase at *
  rcases Nat.lt_or_gt_of_ne hpq with hlt | hgt
  · have := key _ _ hlt
    left
    omega
  · have := key _ _ hgt
    right
    omega

/-- A fold of writes over distinct places of a plane, each computed from the values at that place of this
plane and of another. -/
theorem readValue_foldl (g : BitVec 32 → BitVec 32 → BitVec 32) {p q : Nat} (hpq : p ≠ q) {i : Nat}
    (hi : i < planeValues) : ∀ (l : List Nat) (m : Memory), Memory.wf m → l.Nodup →
    (∀ j ∈ l, j < planeValues) →
    readValue (l.foldl (fun m j => writeValue m q j (g (readValue m q j) (readValue m p j))) m) q i =
      if i ∈ l then g (readValue m q i) (readValue m p i) else readValue m q i
  | [], m, _, _, _ => by simp
  | j :: l, m, hm, hn, hl => by
    rw [List.nodup_cons] at hn
    simp only [List.foldl_cons]
    rw [readValue_foldl g hpq hi l _ (Memory.wf_writeValue _ _ _ hm) hn.2
      (fun x hx => hl x (List.mem_cons_of_mem _ hx))]
    have hp : readValue (writeValue m q j (g (readValue m q j) (readValue m p j))) p i = readValue m p i :=
      readValue_other_plane hpq hi fun a ha => Memory.read_writeValue_outside _ _ ha
    by_cases hij : i = j
    · subst hij
      rw [if_neg hn.1, if_pos (List.mem_cons_self ..), readValue_writeValue_same _ hm hi]
    · rw [hp, readValue_writeValue_other _ _ hij]
      simp [hij]

/-- An address that is neither listed nor in a fill reads as a blank byte. -/
theorem Memory.read_absent {a : Nat} (m : Memory) (h : ∀ c ∈ m.cells, c.1 ≠ a)
    (hf : ∀ f ∈ m.fills, f.covers a = false) : m.read a = Memory.blank := by
  rw [Memory.read_eq, fillRead_none hf]
  exact Cells.read_absent _ h

theorem mem_fillPlaces {p i : Nat} {f : Fill} : i ∈ fillPlaces p f ↔
    (max f.base (planeBase p) - planeBase p) / 4 ≤ i ∧
      i < (min f.last (planeBase p + Config.planeBytes) - planeBase p + 3) / 4 := by
  unfold fillPlaces
  dsimp only
  rw [List.mem_range'_1]
  omega

theorem mem_touchedValues {m : Memory} {p i : Nat} :
    i ∈ touchedValues m p ↔ (∃ c ∈ m.cells, planeBase p ≤ c.1 ∧
      c.1 < planeBase p + Config.planeBytes ∧ (c.1 - planeBase p) / 4 = i) ∨
      ∃ f ∈ m.fills, i ∈ fillPlaces p f := by
  simp [touchedValues, and_assoc]

theorem touchedValues_lt {m : Memory} {p i : Nat} (h : i ∈ touchedValues m p) : i < planeValues := by
  rcases mem_touchedValues.1 h with ⟨c, _, h1, h2, h3⟩ | ⟨f, _, hf⟩
  · unfold planeValues Config.planeBytes at *
    omega
  · rw [mem_fillPlaces] at hf
    unfold planeValues Config.planeBytes at *
    omega

theorem nodup_touchedValues (m : Memory) (p : Nat) : (touchedValues m p).Nodup :=
  List.nodup_dedup _

/-- A value none of whose bytes is listed is 0. -/
theorem readValue_untouched {m : Memory} {p i : Nat} (hi : i < planeValues)
    (h : i ∉ touchedValues m p) : readValue m p i = 0#32 := by
  have ha : ∀ a, valueAddress p i ≤ a → a < valueAddress p i + 4 → Memory.read m a = Memory.blank := by
    intro a h1 h2
    refine Memory.read_absent m (fun c hc e => h (mem_touchedValues.2 (.inl ⟨c, hc, ?_⟩)))
      fun f hf => ?_
    · unfold valueAddress planeValues Config.planeBytes at *
      omega
    · by_contra hc
      rw [Bool.not_eq_false, Fill.covers_iff] at hc
      refine h (mem_touchedValues.2 (.inr ⟨f, hf, mem_fillPlaces.2 ?_⟩))
      unfold valueAddress planeValues Config.planeBytes at *
      omega
  unfold readValue
  dsimp only
  rw [ha _ (by omega) (by omega), ha _ (by omega) (by omega), ha _ (by omega) (by omega),
    ha _ (by omega) (by omega)]
  rfl

/-- What ACCUMULATE leaves (R94). -/
theorem readValue_accumulateValues {m : Memory} (hm : Memory.wf m) {p q : Nat} (hpq : p ≠ q) (n : Nat)
    {i : Nat} (hi : i < planeValues) :
    readValue (accumulateValues m p q n fun _ => true) q i =
      if i < n then readValue m q i + readValue m p i else readValue m q i := by
  unfold accumulateValues
  rw [readValue_foldl (fun a b => a + b) hpq hi _ _ hm
    ((nodup_touchedValues _ _).filter _) (fun j hj => touchedValues_lt (List.mem_filter.1 hj).1)]
  simp only [List.mem_filter, Bool.and_true, decide_eq_true_eq]
  by_cases hn : i < n
  · by_cases ht : i ∈ touchedValues m p
    · rw [if_pos ⟨ht, hn⟩, if_pos hn]
    · rw [if_neg (fun h => ht h.1), if_pos hn, readValue_untouched hi ht]
      simp
  · rw [if_neg (fun h => hn h.2), if_neg hn]

theorem darkSubtract_toNat (a b : BitVec 32) (k : Nat) :
    (darkSubtract a b k).toNat = a.toNat - k * b.toNat := by
  unfold darkSubtract
  rw [BitVec.toNat_ofNat]
  exact Nat.mod_eq_of_lt (Nat.lt_of_le_of_lt (Nat.sub_le _ _) a.isLt)

/-- What APPLY_DARK leaves (R95). -/
theorem readValue_applyDarkValues {m : Memory} (hm : Memory.wf m) {p q : Nat} (hpq : p ≠ q)
    (k first last : Nat) {i : Nat} (hi : i < planeValues) :
    (readValue (applyDarkValues m p q k first last) q i).toNat =
      if first ≤ i ∧ i < last then (readValue m q i).toNat - k * (readValue m p i).toNat
      else (readValue m q i).toNat := by
  unfold applyDarkValues
  rw [readValue_foldl (fun a b => darkSubtract a b k) hpq hi _ _ hm
    ((nodup_touchedValues _ _).filter _) (fun j hj => touchedValues_lt (List.mem_filter.1 hj).1)]
  simp only [List.mem_filter, Bool.and_eq_true, decide_eq_true_eq]
  by_cases hn : first ≤ i ∧ i < last
  · by_cases ht : i ∈ touchedValues m p
    · rw [if_pos ⟨ht, hn⟩, if_pos hn, darkSubtract_toNat]
    · rw [if_neg (fun h => ht h.1), if_pos hn, readValue_untouched hi ht]
      simp
  · rw [if_neg (fun h => hn h.2), if_neg hn]

/-- A fold of writes of values listed with their places leaves the places not listed. -/
theorem readValue_store_other {p i : Nat} : ∀ (l : List (Nat × BitVec 32)) (m : Memory),
    (∀ x ∈ l, x.1 ≠ i) →
    readValue (l.foldl (fun m x => writeValue m p x.1 x.2) m) p i = readValue m p i
  | [], _, _ => rfl
  | x :: l, m, h => by
    simp only [List.foldl_cons]
    rw [readValue_store_other l _ fun y hy => h y (List.mem_cons_of_mem _ hy),
      readValue_writeValue_other _ _ (fun e => h x (List.mem_cons_self ..) e.symm)]

/-- A fold of writes of values listed once with their places leaves each at its place. -/
theorem readValue_store {p : Nat} : ∀ (l : List (Nat × BitVec 32)) (m : Memory), Memory.wf m →
    (l.map Prod.fst).Nodup → ∀ x ∈ l, x.1 < planeValues →
    readValue (l.foldl (fun m x => writeValue m p x.1 x.2) m) p x.1 = x.2
  | [], _, _, _, x, hx, _ => by cases hx
  | y :: l, m, hm, hn, x, hx, hi => by
    rw [List.map_cons, List.nodup_cons] at hn
    simp only [List.foldl_cons]
    rcases List.mem_cons.1 hx with rfl | hx
    · rw [readValue_store_other l _ fun z hz e =>
        hn.1 (List.mem_map.2 ⟨z, hz, e⟩),
        readValue_writeValue_same _ hm hi]
    · exact readValue_store l _ (Memory.wf_writeValue _ _ _ hm) hn.2 x hx hi

/-- What a fetch leaves at the places of its clusters that it lists (R119). -/
theorem readValue_loadClusters {m : Memory} (hm : Memory.wf m) {p area first count : Nat}
    {values : List (Nat × BitVec 32)} (hn : (values.map Prod.fst).Nodup)
    (hv : ∀ x ∈ values, first * Config.clusterBytes ≤ 4 * x.1 ∧
      4 * x.1 < (first + count) * Config.clusterBytes ∧ x.1 < area ∧ 4 * x.1 < Config.planeBytes)
    {x : Nat × BitVec 32} (hx : x ∈ values) :
    readValue (loadClusters m p area first count values) p x.1 = x.2 := by
  unfold loadClusters
  dsimp only
  rw [List.filter_eq_self.2]
  · refine readValue_store values _ (Memory.wf_clearBytes _ _ hm) hn x hx ?_
    have := (hv x hx).2.2.2
    unfold planeValues Config.planeBytes at *
    omega
  · intro y hy
    obtain ⟨h1, h2, h3, h4⟩ := hv y hy
    simp only [Bool.and_eq_true, decide_eq_true_eq]
    exact ⟨h1, lt_min (lt_min h2 (by omega)) h4⟩

end Sys2Proof.Machine
end

