-- ==== Sys2Proof/Tests/Slice0.lean ====
section
/-! SUPPORT. The model's own tests: ill-formed commands, worked values of the manual, a few single steps, and
for each statement with hypotheses a state that meets them. -/

namespace Sys2Proof.Tests
open Sys2Proof.Machine

/-! ### Small states -/

def running : State := { State.reset with part := .running }

def roll : Roll := Roll.default

/-- Roll 0 in a slot state and current. -/
def withRoll (x : RollSlot) (s : State) : State := setCurrent (some 0) (setRollSlot 0 x s)

def shot (n : Nat) (life : Life) : Record :=
  { number := n, former := none, life := life, rollSlot := some 0, label := roll.label, frame := 1,
    kind := .single, exposures := [], takenAt := none, recipe := 0, darkLink := .notRequired,
    darkAttempts := 0, rawCard := .unwritten, catSlot := none, rawRuns := [], devFile := none,
    devPending := none, rating := 0, protect := false, dirty := false, rawPlane := some 0,
    rawSize := (0, 0), retireTag := none }

/-- A record resident in slot 0. -/
def withShot (r : Record) (s : State) : State := setSlot 0 (.inUse r) s

def withSeq (f : Seq → Seq) (s : State) : State := { s with seq := f s.seq }

def withCard (f : Card → Card) (s : State) : State := { s with card := f s.card }

def withLink (f : Link → Link) (s : State) : State := { s with link := f s.link }

def withPreview (x : PreviewSlot) (s : State) : State :=
  { s with cache := { slots := s.cache.slots.set 7 x, useOrder := [7] } }

def ready : State := withCard (fun c => { c with state := .ready, indexHeld := true }) running

/-- A work in flight with its command on the bus. -/
def onBus (w : CardWork) (c : CardCommand) (s : State) : State :=
  withCard (fun x => { x with
    work := some w, bus := some { command := c, issued := 0#48, retried := false, orphan := false } }) s

def armed : State :=
  withSeq (fun q => { q with
    state := .armed, openShot := some 1, k := 1, armTimer := some { start := 0#48, length := 30000000 } })
    (withShot (shot 1 .opened) (withRoll (.opened { roll with nextFrame := 2 }) running))

def tm : Timer := { start := 0#48, length := 1000 }

def job (kind : JobKind) : Job :=
  { shot := 1, kind := kind, priority := 1, key := { recipe := 0, generation := 0#16 }, waiters := [7],
    running := false }

/-! ### Commands that cannot be sent -/

theorem test_illformed_tag : (Instr.status 8).wellFormed = false := by decide

theorem test_illformed_operands :
    (Instr.shotLookup 0 4294967296).wellFormed = false ∧
    (Instr.shotList 0 4294967296 1 none).wellFormed = false ∧
    (Instr.shotList 0 1 256 none).wellFormed = false ∧
    (Instr.shotList 0 1 1 (some [])).wellFormed = false ∧
    (Instr.rollSelect 0 (some 256)).wellFormed = false ∧
    (Instr.rollClose 0 256).wellFormed = false ∧
    (Instr.rollFree 0 256).wellFormed = false ∧
    (Instr.rollQuery 0 (some 256)).wellFormed = false ∧
    (Instr.recipeQuery 0 256).wellFormed = false ∧
    (Instr.setClock 0 (some 9223372036854775808)).wellFormed = false ∧
    (Instr.setClock 0 (some (-9223372036854775809))).wellFormed = false ∧
    (Instr.triggerTimed 0 (some 4294967296)).wellFormed = false ∧
    (Instr.setSensor 0 65536 1).wellFormed = false ∧
    (Instr.setSensor 0 1 65536).wellFormed = false ∧
    (Instr.develop 0 4294967296 0 0).wellFormed = false ∧
    (Instr.develop 0 1 256 0).wellFormed = false ∧
    (Instr.develop 0 1 0 256).wellFormed = false ∧
    (Instr.devFloor 0 (some 256)).wellFormed = false ∧
    (Instr.getPreview 0 4294967296).wellFormed = false ∧
    (Instr.readPreview 0 256 0 1).wellFormed = false ∧
    (Instr.readPreview 0 0 4294967296 1).wellFormed = false ∧
    (Instr.readPreview 0 0 0 65536).wellFormed = false ∧
    (Instr.unpinPreview 0 256).wellFormed = false ∧
    (Instr.cardFormat 0 256).wellFormed = false ∧
    (Instr.shotAmend 0 4294967296 {}).wellFormed = false ∧
    (Instr.shotAmend 0 1 { rating := some 256 }).wellFormed = false ∧
    (Instr.shotAmend 0 1 { protect := some 256 }).wellFormed = false ∧
    (Instr.shotAmend 0 1 { recipe := some 256 }).wellFormed = false ∧
    (Instr.shotRetire 0 4294967296).wellFormed = false ∧
    (Instr.noticeLevels 0 [] none).wellFormed = false ∧
    (Instr.noticeLevels 0 (List.replicate 15 (some 256)) none).wellFormed = false ∧
    (Instr.noticeLevels 0 (List.replicate 15 none) (some 256)).wellFormed = false := by decide

theorem test_illformed_roll_settings :
    (Instr.rollSet 0 256 {}).wellFormed = false ∧
    (Instr.rollOpen 0 { label := some [] }).wellFormed = false ∧
    (Instr.rollOpen 0 { frameLimit := some 65536 }).wellFormed = false ∧
    (Instr.rollOpen 0 { defaultRecipe := some 256 }).wellFormed = false ∧
    (Instr.rollOpen 0 { defaultKind := some (256, 0) }).wellFormed = false ∧
    (Instr.rollOpen 0 { defaultKind := some (1, 256) }).wellFormed = false ∧
    (Instr.rollOpen 0 { darkPolicy := some (2, 4294967296) }).wellFormed = false ∧
    (Instr.rollOpen 0 { reuseAge := some 65536 }).wellFormed = false ∧
    (Instr.rollOpen 0 { darkYield := some 256 }).wellFormed = false ∧
    (Instr.rollOpen 0 { sources := some 256 }).wellFormed = false ∧
    (Instr.rollOpen 0 { reclose := some 256 }).wellFormed = false ∧
    (Instr.rollOpen 0 { armWindow := some 65536 }).wellFormed = false ∧
    (Instr.rollOpen 0 { maxOpen := some 65536 }).wellFormed = false ∧
    (Instr.rollOpen 0 { settleDelay := some 65536 }).wellFormed = false ∧
    (Instr.rollOpen 0 { stackWindow := some 65536 }).wellFormed = false ∧
    (Instr.rollOpen 0 { autoPreview := some (256, none) }).wellFormed = false ∧
    (Instr.rollOpen 0 { autoFull := some (1, some 256) }).wellFormed = false := by decide

theorem test_illformed_recipe_and_sync_settings :
    (Instr.recipeSet 0 256 {}).wellFormed = false ∧
    (Instr.recipeSet 0 0 { gainR := some 65536 }).wellFormed = false ∧
    (Instr.recipeSet 0 0 { gainG := some 65536 }).wellFormed = false ∧
    (Instr.recipeSet 0 0 { gainB := some 65536 }).wellFormed = false ∧
    (Instr.recipeSet 0 0 { compensation := some 128 }).wellFormed = false ∧
    (Instr.recipeSet 0 0 { saturation := some (-129) }).wellFormed = false ∧
    (Instr.recipeSet 0 0 { toneCurve := some 256 }).wellFormed = false ∧
    (Instr.recipeSet 0 0 { noise := some 256 }).wellFormed = false ∧
    (Instr.recipeSet 0 0 { sharpening := some 256 }).wellFormed = false ∧
    (Instr.recipeSet 0 0 { crop := some (1, ⟨65536, 0, 1, 1⟩) }).wellFormed = false ∧
    (Instr.recipeSet 0 0 { rotation := some 256 }).wellFormed = false ∧
    (Instr.recipeSet 0 0 { fullScale := some 256 }).wellFormed = false ∧
    (Instr.setSync 0 { polarityRelease := some 256 }).wellFormed = false ∧
    (Instr.setSync 0 { polarityXsync := some 256 }).wellFormed = false ∧
    (Instr.setSync 0 { polarityAux := some 256 }).wellFormed = false ∧
    (Instr.setSync 0 { countRelease := some 256 }).wellFormed = false ∧
    (Instr.setSync 0 { countXsync := some 256 }).wellFormed = false ∧
    (Instr.setSync 0 { countAux := some 256 }).wellFormed = false ∧
    (Instr.setSync 0 { auxRole := some 256 }).wellFormed = false ∧
    (Instr.setSync 0 { reloutWidth := some 65536 }).wellFormed = false := by decide

theorem test_illformed_events :
    (Instr.readoutHeader true 65536 1 0).wellFormed = false ∧
    (Instr.readoutHeader true 1 65536 0).wellFormed = false ∧
    (Instr.readoutHeader true 1 1 512).wellFormed = false ∧
    (Instr.readoutHeader true 1 1 (-513)).wellFormed = false ∧
    (Instr.darkExpiry 8).wellFormed = false ∧
    (Instr.identifyDone 18446744073709551616 0 false).wellFormed = false ∧
    (Instr.identifyDone 0 18446744073709551616 false).wellFormed = false ∧
    (Instr.headerReadDone []).wellFormed = false ∧
    (Instr.catalogueReadDone 1 [(0, [])]).wellFormed = false ∧
    (Instr.loadReadDone []).wellFormed = false ∧
    (Instr.fetchReadDone 1 [(100663296, 0#32)]).wellFormed = false := by decide

theorem test_wellformed_edges :
    (Instr.status 7).wellFormed = true ∧ (Instr.shotLookup 7 4294967295).wellFormed = true ∧
    (Instr.readoutHeader true 65535 65535 (-512)).wellFormed = true ∧
    (Instr.setClock 0 (some (-9223372036854775808))).wellFormed = true ∧
    (Instr.darkExpiry 7).wellFormed = true := by decide

/-! ### Worked values of the manual -/

/-- R170's check value. -/
theorem test_check_code :
    crc16 [0x31#8, 0x32#8, 0x33#8, 0x34#8, 0x35#8, 0x36#8, 0x37#8, 0x38#8, 0x39#8] = 0x29B1#16 := by
  decide +kernel

/-- R133's three examples. -/
theorem test_preview_sizes :
    previewSize 10000 7500 .reset = (1000, 750) ∧
    previewSize 10000 7500 { Recipe.reset with rotation := 1 } = (750, 1000) ∧
    previewSize 10000 7500 { Recipe.reset with crop := some ⟨0, 0, 4000, 3000⟩ } = (1000, 750) := by decide

/-- R11's bands: 23.75 °C is 11, 0.00 °C is 0, -0.25 °C is -1. -/
theorem test_bands : bandOf 95 = 11 ∧ bandOf 0 = 0 ∧ bandOf (-1) = -1 := by decide

/-- A STATUS packet is a request of kind 50H. -/
theorem test_packet_reads : readRequest 0x50 3 [] = .command (.status 3) := by decide

/-! ### Single steps -/

/-- The answer at the head of the response queue. -/
def firstAnswer : Host.Outcome State Fault Refusal → Option (Nat × ResultCode)
  | .next t => t.link.queue.head?.map fun a => (a.tag, a.result)
  | _ => none

/-- A property of the next state. -/
def after (p : State → Bool) : Host.Outcome State Fault Refusal → Bool
  | .next t => p t
  | _ => false

theorem test_status_in_starting : firstAnswer (exec (.status 0) State.reset) = some (0, .ok) := by
  decide +kernel

theorem test_request_in_starting : firstAnswer (exec (.rollOpen 0 {}) State.reset) = some (0, .busy) := by
  decide +kernel

theorem test_step_runs_front :
    after (fun t => t.part == .running && t.pending == [])
      (step { State.reset with pending := [.startupComplete] }) = true := by decide +kernel

theorem test_roll_open : firstAnswer (exec (.rollOpen 0 {}) running) = some (0, .ok) := by decide +kernel

theorem test_recipe_set :
    after (fun t => (recipeAt t 31).gainR == 8000 && (recipeAt t 31).generation == 1#16)
      (exec (.recipeSet 0 31 { gainR := some 8000 }) running) = true := by decide +kernel

/-- The sample at 1056 of Table 3-3 completes a run of eight begun at 1028. -/
theorem test_sample_run :
    after (fun t => t.sync.xsync.run == 8 && t.sync.xsync.runStart == some 1028#48 && t.timeBase == 1056#48)
      (exec (.syncSample 0 .high .low .high) { running with
        timeBase := 1053#48
        sync := { running.sync with
          lastSample := 1052#48
          xsync := { running.sync.xsync with pin := .low, run := 7, runStart := some 1028#48 } } })
      = true := by decide +kernel

/-- Table 3-3: the close is accepted at 1060. -/
theorem test_edge_accepted :
    after (fun t => t.sync.xsync.run == 0 && t.sync.xsync.accepted == .closed && t.timeBase == 1060#48)
      (exec (.edgeQualified .xsync) { running with
        timeBase := 1056#48
        sync := { running.sync with
          lastSample := 1056#48
          xsync := { running.sync.xsync with pin := .low, run := 8, runStart := some 1028#48 } } })
      = true := by decide +kernel

theorem test_fire :
    after (fun t => t.seq.state == .armed && relout t && t.table.counter == 2)
      (exec (.triggerFire 0) (withRoll (.opened roll) running)) = true := by decide +kernel

theorem test_arm_window_expiry :
    after (fun t => t.seq.state == .idle && t.table.counter == 1 && (residents t).isEmpty &&
        (t.rolls.slots.head?.bind RollSlot.roll?).map Roll.nextFrame == some 1)
      (exec .armWindowExpiry armed) = true := by decide +kernel

theorem test_pixel_sample :
    after (fun t => readValue t.mem 0 0 == 0x0000BEEF#32 && t.seq.samples == 1)
      (exec (.pixelSample 0xBEEF#16) (withSeq (fun q => { q with
        state := .readout, openShot := some 1, k := 1 }) (withShot (shot 1 .opened) running))) = true := by
  decide +kernel

theorem test_insertion_identifies :
    after (fun t => t.card.state == .mounting && (t.card.bus.map Bus.command) == some .identify)
      (exec .insertion (withCard (fun c => { c with detect := { c.detect with line := true } }) running))
      = true := by decide +kernel

/-! ### States that meet the statements' hypotheses -/

theorem witness_CanTake : CanTake 0 running ∧ CanTake 7 running := by decide +kernel

theorem witness_IdleStepCountsOneMicrosecond :
    State.reset.pending = [] ∧ (State.reset.timeBase - State.reset.sync.lastSample).toNat < 4 ∧
    ({ State.reset with timeBase := 4#48 }.timeBase - State.reset.sync.lastSample).toNat = 4 ∧
    (State.reset.sync.line .release).run < (State.reset.sync.line .release).count ∧
    (State.reset.sync.line .xsync).run < (State.reset.sync.line .xsync).count ∧
    (State.reset.sync.line .aux).run < (State.reset.sync.line .aux).count := by decide +kernel

theorem witness_ResetsPutBlocksAtResetValues :
    (Instr.powerOnReset .low .high .low true = .powerOnReset .low .high .low true) ∧
    (Instr.pinReset .low .high .low false = .pinReset .low .high .low false) := ⟨rfl, rfl⟩

theorem witness_ResetCausesFollowTheirEvents :
    CanTake 7 running ∧ 7 ∉ State.reset.link.held ∧ State.reset.part ≠ .running := by decide +kernel

theorem witness_RestartKeepsAndPartStatesEnd :
    State.reset.part = .starting ∧ { State.reset with part := .restarting }.part = .restarting ∧
    ({ running.card with bus := some ⟨.identify, 0#48, false, true⟩ } : Card).bus =
      some ⟨.identify, 0#48, false, true⟩ := by decide +kernel

theorem witness_TransactionsCarryAnswers :
    running.link.selected = false ∧ running.link.framer = .hunt ∧
    (withLink (fun l => { l with selected := true }) running).link.selected = true ∧
    (withLink (fun l => { l with selected := true, framer := .check }) running).link.framer ≠ .hunt := by decide +kernel

theorem witness_PacketsThatReachNoBlock : (Instr.status 8).tag? = some 8 ∧ 7 < 8 := by decide +kernel

theorem witness_TransactionsCarryAnswers_leaves :
    (withLink (fun l => { l with miso := .refusal 0 }) running).link.miso = .refusal 0 ∧
    (withLink (fun l => { l with miso := .queue 4, queue := [⟨7, .ok, .empty⟩] }) running).link.queue =
      [⟨7, .ok, .empty⟩] := by decide +kernel

theorem witness_PacketsThatReachNoBlock_held :
    (Instr.status 7).tag? = some 7 ∧ 7 ∈ (holdTag 7 running).link.held ∧
    (holdTag 7 running).link.refusal = none ∧
    (withLink (fun l => { l with held := [7], refusal := some ⟨7, .tagBusy, .empty⟩ })
      running).link.refusal.isSome := by decide +kernel

theorem witness_PacketsThatReachNoBlock_notServed :
    (Instr.takeNotice 7).tag? = some 7 ∧ servedAlways (.takeNotice 7) = false ∧
    7 ∉ State.reset.link.held ∧ State.reset.part ≠ .running := by decide +kernel

theorem witness_OutputLinesFollowTheState :
    (holdInReset running).held = true ∧ running.held = false ∧
    ((withLink (fun l => { l with miso := .refusal 6, refusal := some ⟨7, .tagBusy, .empty⟩ })
      running).link.miso = .refusal 6 ∧
      (⟨7, .tagBusy, .empty⟩ : Answer).packet.length = 7) ∧
    ((withLink (fun l => { l with miso := .queue 0, queue := [⟨7, .ok, .empty⟩] }) running).link.queue.head? =
      some ⟨7, .ok, .empty⟩ ∧ 0 < (⟨7, .ok, .empty⟩ : Answer).packet.length) ∧
    (withLink (fun l => { l with miso := .filler }) running).link.miso = .filler := by decide +kernel

theorem witness_FramerTakesBytes :
    running.link.framer = .hunt ∧ (0xA4#8 : Byte) ≠ 0xA5#8 ∧
    (withLink (fun l => { l with framer := .header, bytes := [0#8, 0x50#8] }) running).link.bytes =
      [0#8, 0x50#8] ∧
    64 < (65#8 : Byte).toNat ∧ 0 < (64#8 : Byte).toNat ∧ (64#8 : Byte).toNat ≤ 64 ∧
    0 < (1#8 : Byte).toNat := by decide +kernel

theorem witness_WholePacketIsTakenOrDiscarded :
    (List.replicate 64 (0xA5#8 : Byte)).length ≤ 64 ∧ running.link.framer = .hunt ∧
    running.link.bytes = [] ∧ running.link.miso = .quiet := by decide +kernel

theorem witness_WholePacketIsTakenOrDiscarded_wrong :
    (7 < 8 ∧ 255 < 256 ∧ [0#8, 0#8].length = 2 ∧ [0#8, 0#8] ≠ crcBytes (packetBody 0 0x50 [])) ∧
    crcBytes ([0#8, 0x50#8, 0#8, 0#8, 0#8].take 3) ≠ [0#8, 0x50#8, 0#8, 0#8, 0#8].drop 3 := by
  decide +kernel

theorem witness_WholePacketIsTakenOrDiscarded_forms :
    readRequest 0x50 7 [] = .command (.status 7) ∧ readRequest 0x12 7 [0#8] = .command (.rollSelect 7 none) ∧
    requestForm 0x77 = none ∧ readRequest 0x01 7 [1#8, 2#8, 3#8] = .badForm ∧
    readRequest 0x50 7 [0#8] = .badForm ∧ 7 ∉ State.reset.link.held ∧ running.part = .running ∧
    State.reset.part ≠ .running := by decide +kernel

theorem witness_OperandsReadBack :
    RollFits { label := some roll.label, frameLimit := some 65535, defaultKind := some (255, 255),
               darkPolicy := some (2, 4294967295), autoPreview := some (1, some 255), autoFull := some (0, none) } ∧
    RecipeFits { gainR := some 65535, compensation := some (-128), saturation := some 127,
                 crop := some (255, ⟨65535, 0, 65535, 0⟩) } ∧
    SyncFits { polarityRelease := some 255, reloutWidth := some 65535 } ∧
    GivenIn none 0 255 ∧ GivenIn (some 255) 0 255 ∧
    GivenInInt (some (-9223372036854775808)) (-9223372036854775808) 9223372036854775807 ∧
    (List.replicate 15 (some 255)).length = 15 := by
  simp [RollFits, RecipeFits, SyncFits, GivenIn, GivenInInt, AutoFits, roll, Roll.default]

theorem witness_OperandsReadBack_length :
    RightLength 0x12 [1#8, 5#8] ∧ RightLength 0x12 [0#8] ∧ RightLength 0x28 [0#8, 1#8] ∧ RightLength 0x28 [0#8, 2#8] ∧
    ¬ RightLength 0x12 [1#8] ∧ ¬ RightLength 0x01 [0#8] ∧ requestForm 0x01 ≠ none := by
  refine ⟨⟨1, 0, [1], rfl, by decide, by decide⟩, ⟨1, 0, [1], rfl, by decide, by decide⟩,
    ⟨1, 1, [4], rfl, by decide, by decide⟩, ⟨1, 1, [4], rfl, by decide, by decide⟩, ?_, ?_, by decide⟩ <;>
    rintro ⟨heads, fixed, widths, h, _, l⟩ <;> cases h <;> exact absurd l (by decide)

/-- Named settings follow the presence bytes in the order of Table 2-2 (R171). -/
theorem test_roll_open_packet :
    encodeItems (rollSettings { frameLimit := some 999, autoFull := some (1, some 2) }) =
      [0x02#8, 0x80#8, 0x01#8, 0x03#8, 0xE7#8, 1#8, 2#8] := by decide +kernel

theorem witness_RollOpenTakesLowestFreeSlot :
    ¬ RollInRange { frameLimit := some 0 } ∧ ¬ RollInRange { frameLimit := some 1000 } ∧
    RollInRange { frameLimit := some 999 } ∧ LowestAt running.rolls.slots .free 0 ∧
    LowestAt (List.replicate 15 (.closed roll) ++ [.free]) RollSlot.free 15 ∧
    RollSlot.free ∉ List.replicate 16 (RollSlot.opened roll) :=
  ⟨mt (rollGood_iff _).2 (by decide), mt (rollGood_iff _).2 (by decide), (rollGood_iff _).1 (by decide),
    ⟨by decide, by decide⟩, ⟨by decide, by decide⟩, by decide⟩

theorem witness_RollSetChangesNamedSettings :
    RollInRange { frameLimit := some 1 } ∧ running.rolls.slots[15]? = some .free ∧
    (withRoll (.opened roll) running).rolls.slots[0]? = some (.opened roll) ∧
    (withRoll (.closed { roll with nextFrame := 3 }) running).rolls.slots[0]? =
      some (.closed { roll with nextFrame := 3 }) ∧
    armed.rolls.current = some 0 ∧ armed.seq.state ≠ .idle ∧ running.seq.state = .idle ∧
    1 + 1 < { roll with nextFrame := 3 }.nextFrame ∧ { roll with nextFrame := 2 }.nextFrame ≤ 1 + 1 :=
  ⟨(rollGood_iff _).1 (by decide), by decide, by decide, by decide, by decide, by decide, by decide, by decide,
    by decide⟩

theorem witness_RollsAreSelectedClosedAndFreed_select :
    armed.seq.state ≠ .idle ∧ running.seq.state = .idle ∧ running.rolls.slots[15]? = some .free ∧
    (withRoll (.closed roll) running).rolls.slots[0]? = some (.closed roll) ∧
    (withRoll (.opened roll) running).rolls.slots[0]? = some (.opened roll) := by decide +kernel

theorem witness_RollsAreSelectedClosedAndFreed_close :
    (setRollSlot 15 (.opened roll) running).rolls.slots[15]? = some (.opened roll) ∧
    (setRollSlot 15 (.opened roll) running).rolls.current ≠ some 15 ∧
    (withRoll (.opened roll) running).rolls.current = some 0 ∧
    armed.rolls.slots[0]? = some (.opened { roll with nextFrame := 2 }) ∧ armed.rolls.current = some 0 ∧
    armed.seq.state ≠ .idle := by decide +kernel

theorem witness_RollsAreSelectedClosedAndFreed_free :
    (withShot (shot 1 .held) (withRoll (.closed roll) running)).rolls.slots[0]? = some (.closed roll) ∧
    (withShot (shot 1 .held) (withRoll (.closed roll) running)).table.slots[0]? =
      some (.inUse (shot 1 .held)) ∧ (shot 1 .held).rollSlot = some 0 := by decide +kernel

theorem witness_ReportsChangeNothing_roll :
    running.rolls.current = none ∧ (withRoll (.opened roll) running).rolls.current = some 0 ∧
    running.rolls.slots[15]? = some .free := by decide +kernel

theorem witness_RecipeSetStepsGeneration :
    ¬ RecipeInRange { gainR := some 249 } ∧ RecipeInRange { gainR := some 250, gainB := some 8000 } ∧
    running.recipes[31]? = some .reset :=
  ⟨mt (recipeGood_iff _).2 (by decide), (recipeGood_iff _).1 (by decide), by decide⟩

theorem witness_SyncAndClockTakeTheirSettings :
    ¬ SyncInRange { countAux := some 65 } ∧ SyncInRange { countAux := some 64, auxRole := some 2 } ∧
    armed.seq.state ≠ .idle ∧ running.seq.state = .idle :=
  ⟨mt (syncGood_iff _).2 (by decide), (syncGood_iff _).1 (by decide), by decide, by decide⟩

theorem witness_SyncAndClockTakeTheirSettings_clock :
    (-1 : Int) < 0 ∧ (4611686018427387904 : Int) < 4611686018427387905 ∧
    (0 : Int) ≤ 4611686018427387904 := by decide +kernel

/-- An input whose run of eight is complete. -/
def fullLine : SyncLine :=
  { polarity := .closedLow, count := 8, pin := .low, accepted := .opened, run := 8, runStart := some 0#48 }

/-- ARMED with the XSYNC contact qualified closed. -/
def edgeReady : State := { armed with sync := { armed.sync with xsync := fullLine } }

/-- An exposure open with the XSYNC contact qualified open. -/
def edgeOpen : State :=
  withSeq (fun q => { q with state := .opened, armTimer := none, maxOpen := some tm }) { armed with
    sync := { armed.sync with xsync := { fullLine with pin := .high, accepted := .closed } } }

theorem witness_EdgeQualifiedAcceptsLevel :
    (running.sync.line .xsync).run = 0 ∧
    (edgeReady.sync.line .xsync = fullLine ∧ 0 < fullLine.run ∧ fullLine.count ≤ fullLine.run ∧
      fullLine.runStart = some 0#48) ∧
    (edgeReady.part = .running ∧ fullLine.accepted ≠ .closed ∧ edgeReady.seq.state = .armed ∧
      edgeReady.rolls.current = some 0 ∧
      edgeReady.rolls.slots[0]? = some (.opened { roll with nextFrame := 2 }) ∧
      (RollSlot.opened { roll with nextFrame := 2 }).roll? = some { roll with nextFrame := 2 } ∧
      { roll with nextFrame := 2 }.sources.xsync = true) ∧
    (edgeOpen.part = .running ∧ edgeOpen.seq.state = .opened ∧ edgeOpen.seq.timed = none ∧
      edgeOpen.sync.auxRole ≠ .finish ∧ edgeOpen.rolls.current = some 0 ∧
      edgeOpen.rolls.slots[0]? = some (.opened { roll with nextFrame := 2 })) ∧
    ({ edgeReady with part := .restarting }).part ≠ .running := by decide +kernel

theorem witness_SamplesCountRunsAndPulseEnds :
    SamplesKeepUp running ∧ SamplesKeepUp { running with timeBase := 4#48 } ∧ 0 < 2 ^ 44 ∧
    2 ^ 44 - 1 < 2 ^ 44 := by
  unfold SamplesKeepUp; decide +kernel

theorem witness_SamplesCountRunsAndPulseEnds_quiet :
    ∀ i, (running.sync.line i).run = 0 ∨ (running.sync.line i).run < (running.sync.line i).count := by
  intro i; cases i <;> decide +kernel

/-- A run begun, one sample short of its count. -/
def midRun : State := { running with sync := { running.sync with xsync := { fullLine with run := 7 } } }

theorem witness_SamplesCountRunsAndPulseEnds_run :
    ∀ i, (midRun.sync.line i).run = 0 ∨ (midRun.sync.line i).run < (midRun.sync.line i).count := by
  intro i; cases i <;> decide +kernel

theorem witness_SamplesCountRunsAndPulseEnds_pulse :
    running.sync.pulseEnd = none ∧
    ({ running.sync with pulseEnd := some 100000#48 } : Sync).pulseEnd = some 100000#48 := by decide +kernel

def rollReady : State := withRoll (.opened roll) running

/-- An input whose run of eight towards CLOSED is complete. -/
def withRelease (s : State) : State := { s with sync := { s.sync with release := fullLine } }

/-- The same of AUX under a role. -/
def withAux (role : AuxRole) (s : State) : State :=
  { s with sync := { s.sync with aux := fullLine, auxRole := role } }

def recloseRoll : Roll := { roll with reclose := .extend }

/-- An exposure closed by XSYNC and not yet settled, under EXTEND. -/
def settling : State :=
  withSeq (fun q => { q with state := .settle, ending := some .xsyncOpening, maxOpen := some tm, settle := some tm })
    (withRoll (.opened recloseRoll) edgeReady)

theorem witness_EdgesReachTheSequencer :
    ((withRelease rollReady).part = .running ∧ ((withRelease rollReady).sync.line .release) = fullLine ∧
      fullLine.accepted = .opened ∧ (withRelease rollReady).seq.state = .idle ∧
      (withRelease rollReady).rolls.current = some 0 ∧
      (withRelease rollReady).rolls.slots[0]? = some (.opened roll) ∧ roll.nextFrame ≤ roll.frameLimit ∧
      LowestAt (withRelease rollReady).table.slots .free 0 ∧
      LowestAt (withRelease rollReady).pool.owners .free 0 ∧
      (withRelease rollReady).table.counter ≤ 4294967295 ∧
      (withRelease rollReady).card.state ≠ .ejecting) ∧
    ((withAux .release2 armed).seq.state = .armed ∧ (withAux .release2 armed).sync.auxRole = .release2 ∧
      (withAux .release2 armed).rolls.current = some 0) ∧
    ((withRelease running).rolls.current = none ∧ (withRelease running).seq.state = .idle) ∧
    ((withAux .finish edgeOpen).seq.state = .opened ∧ (withAux .finish edgeOpen).seq.timed = none ∧
      (withAux .finish edgeOpen).sync.auxRole = .finish ∧ roll.sources.auxEnd = true ∧
      findRecord (withAux .finish edgeOpen) 1 = some (shot 1 .opened)) ∧
    (settling.seq.state = .settle ∧ settling.rolls.current = some 0 ∧
      settling.rolls.slots[0]? = some (.opened recloseRoll) ∧ recloseRoll.reclose = .extend ∧
      settling.seq.ending = some .xsyncOpening ∧ settling.seq.maxOpen.isSome ∧
      (settling.sync.line .xsync) = fullLine) := by
  unfold LowestAt; decide +kernel

/-- The last frame of a roll, with one record slot and one plane taken. -/
def lastFrame : State :=
  { withShot (shot 1 .held) (withRoll (.opened { roll with nextFrame := 999 }) running) with
    pool := { running.pool with owners := running.pool.owners.set 0 (.shotRaw 1) } }

theorem witness_AcceptedStartBeginsShot :
    (CanTake 7 rollReady ∧ rollReady.seq.state = .idle ∧ rollReady.rolls.current = some 0 ∧
      rollReady.rolls.slots[0]? = some (.opened roll) ∧ roll.nextFrame ≤ roll.frameLimit ∧
      LowestAt rollReady.table.slots .free 0 ∧ LowestAt rollReady.pool.owners .free 0 ∧
      rollReady.table.counter ≤ 4294967295 ∧ rollReady.card.state ≠ .ejecting ∧
      roll.sources.timed = true) ∧
    (CanTake 7 lastFrame ∧ lastFrame.seq.state = .idle ∧ lastFrame.rolls.current = some 0 ∧
      lastFrame.rolls.slots[0]? = some (.opened { roll with nextFrame := 999 }) ∧
      LowestAt lastFrame.table.slots .free 1 ∧ LowestAt lastFrame.pool.owners .free 1 ∧
      lastFrame.table.counter ≤ 4294967295 ∧
      ({ roll with nextFrame := 999 } : Roll).nextFrame = ({ roll with nextFrame := 999 } : Roll).frameLimit) := by
  unfold LowestAt; decide +kernel

/-- A stack of shot 1 waiting for its second exposure. -/
def stackShot : Record := { shot 1 .opened with kind := .stack 8, exposures := [{ index := 1, status := .done }] }

def inStack : State :=
  withSeq (fun q => { q with state := .stackWait, armTimer := none, stackWindow := some tm })
    (withShot stackShot armed)

/-- No plane is FREE. -/
def noPlanes (s : State) : State :=
  { s with pool := { s.pool with owners := List.replicate 10 (.shotRaw 9) } }

/-- Entry 7 EXPOSING in plane 3, as the sequencer has it. -/
def exposesDark (x : SeqState) (s : State) : State :=
  withSeq (fun q => { q with state := x, darkTimer := if x = .dark then some tm else none })
    { s with
      dark := { entries := s.dark.entries.set 7 ⟨.exposing 3, 2000, 11, 600⟩, plan := [] }
      pool := { s.pool with owners := s.pool.owners.set 3 (.dark 7) } }

theorem witness_StartsOutsideIdle :
    (CanTake 7 armed ∧ armed.seq.state = .armed ∧ armed.seq.openShot = some 1 ∧ armed.rolls.current = some 0) ∧
    (CanTake 7 inStack ∧ inStack.seq.state = .stackWait ∧ inStack.seq.openShot = some 1 ∧
      findRecord inStack 1 = some stackShot ∧ inStack.seq.scratch = none ∧
      LowestAt inStack.pool.owners .free 0 ∧ stackShot.exposures.length = inStack.seq.k ∧
      inStack.card.state ≠ .ejecting) ∧
    ((noPlanes inStack).seq.state = .stackWait ∧ Owner.free ∉ (noPlanes inStack).pool.owners ∧
      (noPlanes inStack).dark.entries.all (fun x => !x.state.isReady) = true) ∧
    (CanTake 7 (exposesDark .dark rollReady) ∧ (exposesDark .dark rollReady).seq.state = .dark ∧
      (exposesDark .darkReadout rollReady).seq.state = .darkReadout ∧ roll.darkYield = .yield ∧
      (exposesDark .dark rollReady).rolls.current = some 0 ∧
      LowestAt (exposesDark .dark rollReady).table.slots .free 0 ∧
      (slotNumbers (exposesDark .dark rollReady)).Nodup ∧
      (exposesDark .dark rollReady).dark.entries.length = 8 ∧
      (exposesDark .dark rollReady).dark.entries[7]? = some ⟨.exposing 3, 2000, 11, 600⟩ ∧
      (exposesDark .dark rollReady).dark.entries.countP (·.state.isExposing) = 1 ∧
      (exposesDark .dark rollReady).pool.engineClaim = false ∧
      3 < (exposesDark .dark rollReady).pool.owners.length) := by
  unfold LowestAt; decide +kernel

/-- Every record slot holds a SETTLED record. -/
def settledTable : State :=
  { rollReady with table := { rollReady.table with
      slots := (List.range 64).map fun n => .inUse { shot (n + 1) .settled with rawCard := .onCard }
      useOrder := List.range 64
      counter := 100 } }

/-- Every record slot holds a HELD record. -/
def heldTable : State :=
  { rollReady with table := { rollReady.table with
      slots := (List.range 64).map fun n => .inUse (shot (n + 1) .held)
      useOrder := List.range 64
      counter := 100 } }

theorem witness_StartsClaimSlotsAndPlanes :
    (CanTake 7 settledTable ∧ settledTable.seq.state = .idle ∧ settledTable.rolls.current = some 0 ∧
      RecordSlot.free ∉ settledTable.table.slots ∧ settledTable.table.useOrder = [] ++ 0 :: (List.range 64).tail ∧
      settledTable.table.slots[0]? = some (.inUse { shot 1 .settled with rawCard := .onCard }) ∧
      settledTable.table.counter ≤ 4294967295 ∧ settledTable.card.state ≠ .ejecting) ∧
    Evictable settledTable { shot 1 .settled with rawCard := .onCard } ∧
    LowestAt settledTable.pool.owners .free 0 ∧
    NoSlot heldTable ∧
    ({ rollReady.table with counter := 4294967296 } : Table).counter = 4294967296 ∧
    (Owner.free ∉ (noPlanes rollReady).pool.owners ∧ LowestAt (noPlanes rollReady).table.slots .free 0 ∧
      (noPlanes rollReady).dark.entries.all (fun x => !x.state.isReady) = true) := by
  refine ⟨by decide +kernel, by unfold Evictable; decide +kernel, by unfold LowestAt; decide +kernel, ?_,
    by decide, by unfold LowestAt; decide +kernel⟩
  refine ⟨by decide +kernel, fun i _ r h e => ?_⟩
  have hr : r ∈ residents heldTable := List.mem_filterMap.2 ⟨_, List.mem_of_getElem? h, rfl⟩
  have hl : ∀ x ∈ residents heldTable, x.life ≠ .settled := by decide +kernel
  exact hl r hr e.1

/-- No plane is FREE, and entry 7 is READY in plane 3. -/
def reclaimable : State :=
  { noPlanes rollReady with
    dark := { entries := List.replicate 7 .free ++ [⟨.ready 11 0#48 3, 2000, 11, 600⟩], plan := [] } }

theorem witness_StartsClaimSlotsAndPlanes_reclaim :
    IdleEntry reclaimable 7 0#48 3 ∧ ((planesNamed reclaimable).map Prod.fst).Nodup := by
  refine ⟨⟨⟨⟨.ready 11 0#48 3, 2000, 11, 600⟩, 11, by decide, rfl⟩, by decide +kernel, by decide +kernel⟩, by
    decide +kernel⟩

def fullRoll : State := withRoll (.opened { roll with nextFrame := 1000 }) running

def untimedRoll : State := withRoll (.opened { roll with sources := ⟨true, true, false⟩ }) running

def darkHold : State :=
  withSeq (fun q => { q with state := .dark }) (withRoll (.opened { roll with darkYield := .hold }) running)

theorem witness_RefusedStartGivesOutNothing :
    (CanTake 7 running ∧ running.seq.state = .idle ∧ running.rolls.current = none) ∧
    (CanTake 7 fullRoll ∧ fullRoll.seq.state = .idle ∧ fullRoll.rolls.current = some 0 ∧
      fullRoll.rolls.slots[0]? = some (.opened { roll with nextFrame := 1000 }) ∧
      roll.frameLimit < 1000) ∧
    (CanTake 7 untimedRoll ∧ untimedRoll.seq.state = .idle ∧ untimedRoll.rolls.current = some 0 ∧
      untimedRoll.rolls.slots[0]? = some (.opened { roll with sources := ⟨true, true, false⟩ }) ∧
      Instr.triggerTimed 7 (some 3600000000) ≠ .triggerFire 7) ∧
    (CanTake 7 armed ∧ armed.seq.state = .armed) ∧
    (CanTake 7 darkHold ∧ darkHold.seq.state = .dark ∧ darkHold.rolls.current = some 0 ∧
      darkHold.rolls.slots[0]? = some (.opened { roll with darkYield := .hold })) := by decide +kernel

/-- Waiting for the second exposure of a stack. -/
def stackWaiting : State :=
  withSeq (fun q => { q with state := .stackWait, armTimer := none, stackWindow := some tm }) armed

theorem witness_WindowsEndTheShot :
    (armed.seq.state = .armed ∧ armed.seq.armTimer = some ⟨0#48, 30000000⟩ ∧ armed.seq.openShot = some 1 ∧
      findRecord armed 1 = some (shot 1 .opened) ∧ armed.seq.k ≤ 1 ∧ armed.rolls.current = some 0 ∧
      armed.rolls.slots[0]? = some (.opened { roll with nextFrame := 2 }) ∧ armed.card.state ≠ .ejecting) ∧
    (1 < (withSeq (fun q => { q with k := 2 }) armed).seq.k ∧
      findRecord (withSeq (fun q => { q with k := 2 }) armed) 1 = some (shot 1 .opened)) ∧
    (stackWaiting.seq.state = .stackWait ∧ stackWaiting.seq.stackWindow = some tm ∧
      stackWaiting.seq.openShot = some 1 ∧ findRecord stackWaiting 1 = some (shot 1 .opened)) := by decide +kernel

/-- An exposure open with both its timers running. -/
def exposing : State :=
  withSeq (fun q => { q with state := .opened, armTimer := none, maxOpen := some tm, timed := some tm }) armed

theorem witness_ExposureTimersMoveTheSequencer :
    (exposing.seq.state = .opened ∧ exposing.seq.maxOpen = some tm ∧ exposing.seq.timed = some tm ∧
      exposing.rolls.current = some 0 ∧
      exposing.rolls.slots[0]? = some (.opened { roll with nextFrame := 2 }) ∧
      exposing.seq.openShot = some 1) ∧
    ((withSeq (fun q => { q with state := .settle }) exposing).seq.state ≠ .opened ∧
      (withSeq (fun q => { q with state := .settle }) exposing).seq.maxOpen = some tm) ∧
    ((withSeq (fun q => { q with state := .settle, settle := some tm }) armed).seq.settle = some tm ∧
      (withSeq (fun q => { q with state := .settle, settle := some tm }) armed).seq.state = .settle) ∧
    ((withSeq (fun q => { q with state := .dark, darkTimer := some tm }) running).seq.state = .dark ∧
      (withSeq (fun q => { q with state := .dark, darkTimer := some tm }) running).seq.darkTimer =
        some tm) := by decide +kernel

/-- A whole readout of exposure 1. -/
def readOut : State :=
  withSeq (fun q => { q with state := .readout, armTimer := none, samples := 75000000 }) armed

/-- A whole readout of exposure 2 of a stack. -/
def readOutSecond : State :=
  withSeq (fun q => { q with k := 2, scratch := some 1 })
    (withShot { shot 1 .opened with kind := .stack 8 } readOut)

theorem witness_ReadoutHeaderEndsReadout :
    (armed.seq.state ≠ .readout ∧ armed.seq.state ≠ .darkReadout) ∧
    (readOut.seq.state = .readout ∧ readOut.seq.openShot = some 1 ∧
      findRecord readOut 1 = some (shot 1 .opened) ∧
      readOut.seq.samples = readOut.seq.columns * readOut.seq.rows ∧ readOut.seq.k ≤ 1 ∧
      (shot 1 .opened).kind = .single ∧ 9999 ≠ readOut.seq.columns) ∧
    (readOutSecond.seq.state = .readout ∧ readOutSecond.seq.openShot = some 1 ∧
      findRecord readOutSecond 1 = some { shot 1 .opened with kind := .stack 8 } ∧
      readOutSecond.seq.samples = readOutSecond.seq.columns * readOutSecond.seq.rows ∧
      1 < readOutSecond.seq.k ∧ readOutSecond.seq.scratch = some 1 ∧ readOutSecond.rolls.current = some 0) ∧
    (withSeq (fun q => { q with state := .darkReadout }) running).seq.state = .darkReadout := by decide +kernel

/-- Exposure 1 of a SINGLE with its times, read out, the engine suspended meanwhile. -/
def timedShot : Record :=
  { shot 1 .opened with
    exposures := [{ index := 1, status := .reading, openTime := some 0#48, closeTime := some 2000#48,
                    duration := some 2000, source := some .xsync }] }

def readOutTimed : State :=
  { withShot timedShot readOut with
    dev := { readOut.dev with readout := true, engine := .suspended (.developing .tone) } }

theorem witness_ReadoutHeaderEndsReadout_entry :
    findRecord readOutTimed 1 = some timedShot ∧ readOutTimed.dev.engine = .suspended (.developing .tone) ∧
    readOutTimed.card.state ≠ .ejecting ∧ (slotNumbers readOutTimed).Nodup ∧ timedShot.kind = .single ∧
    (timedShot.exposures.map (·.duration)) = [some 2000] ∧ timedShot.rollSlot = some 0 ∧
    readOutTimed.rolls.slots[0]? = some (.opened { roll with nextFrame := 2 }) := by decide +kernel

theorem witness_ExposureTimersMoveTheSequencer_entry :
    findRecord (withShot timedShot exposing) 1 = some timedShot ∧ exposing.sync.auxRole ≠ .finish ∧
    (withAux .finish exposing).sync.auxRole = .finish ∧ roll.sources.auxEnd = true := by decide +kernel

theorem witness_PixelSampleWritesItsValue :
    (SampleGoesTo readOut 0 ∧ readOut.seq.columns * readOut.seq.rows ≤ readOut.seq.samples) ∧
    SampleGoesTo readOutSecond 1 ∧ Canonical readOut ∧
    (withSeq (fun q => { q with samples := 74999999 }) readOut).seq.samples < 10000 * 7500 ∧
    (armed.seq.state ≠ .readout ∧ armed.seq.state ≠ .darkReadout) :=
  ⟨⟨.inl ⟨rfl, by decide, 1, shot 1 .opened, by decide, by decide, rfl⟩, by decide⟩,
    .inr (.inl ⟨rfl, by decide, by decide⟩), by decide, by decide, by decide⟩

theorem witness_SetSensorTakesGeometry :
    100000000 < 12000 * 12000 ∧ 10000 * 10000 ≤ 100000000 ∧ armed.seq.state ≠ .idle ∧
    (∃ r ∈ residents (withShot (shot 1 .held) running), r.life = .opened ∨ r.life = .held) ∧
    (∃ j ∈ [{ job .full with running := true }], j.running = true) ∧ running.seq.state = .idle ∧
    (∀ r ∈ residents running, r.life ≠ .opened ∧ r.life ≠ .held) ∧
    (∀ j ∈ running.dev.queue, j.running = false) := by decide +kernel

theorem witness_SetSensorTakesGeometry_dark :
    (∀ r ∈ residents running, r.darkLink ≠ .awaiting) ∧ running.dev.queue = [] ∧
    running.pool.darkClaim = false ∧
    (running.dark.entries.set 7 ⟨.ready 11 0#48 3, 2000, 11, 600⟩)[7]? =
      some ⟨.ready 11 0#48 3, 2000, 11, 600⟩ := by decide +kernel

/-! #### Dark references and arithmetic -/

/-- The entry planned for shot 1, and the entry ready for it. -/
def planned : DarkEntry := { state := .planned, duration := 2000000, plannedBand := 11, reuseAge := 3600 }

def readyDark : DarkEntry := { planned with state := .ready 11 0#48 3 }

def withDark (x : DarkEntry) (s : State) : State :=
  { s with dark := { entries := s.dark.entries.set 7 x, plan := [7] } }

theorem witness_DarkExposureStartsAndEntryExpires :
    ((withDark planned running).part = .running ∧ (withDark planned running).seq.state = .idle ∧
      (withDark planned running).dark.plan = [7] ∧
      (withDark planned running).dark.entries[7]? = some planned ∧
      LowestAt (withDark planned running).pool.owners .free 0) ∧
    Owner.free ∉ List.replicate 10 (Owner.shotRaw 1) ∧
    ((withDark readyDark running).dark.entries[7]? = some readyDark ∧ readyDark.reuseAge ≤ 3600 ∧
      (∀ r ∈ residents (withDark readyDark running), r.darkLink ≠ .linked 7 ∧ r.darkLink ≠ .awaiting) ∧
      ∀ q ∈ (withDark readyDark running).pau, q.running = false) ∧
    running.dark.entries[7]? = some .free := by
  unfold LowestAt; decide +kernel

/-- A HELD shot of one DONE exposure of 2 s at 22 °C, with a dark link. -/
def darkShot (l : DarkLink) : Record :=
  { shot 1 .held with
    darkLink := l
    exposures := [{ index := 1, status := .done, openTime := some 0#48, closeTime := some 2000000#48,
                    duration := some 2000000, source := some .xsync, temperature := some 88 }] }

/-- Entry 7 EXPOSING in plane 3 for shot 1, its readout whole. -/
def darkReadOut : State :=
  withSeq (fun q => { q with state := .darkReadout, darkTimer := none, samples := 75000000 })
    { withShot (darkShot (.linked 7)) running with
      dark := { entries := running.dark.entries.set 7 ⟨.exposing 3, 2000000, 11, 600⟩, plan := [] } }

theorem witness_DarkReadoutReadiesOrFailsTheEntry :
    darkReadOut.seq.state = .darkReadout ∧ darkReadOut.part = .running ∧ darkReadOut.card.state ≠ .ejecting ∧
    (slotNumbers darkReadOut).Nodup ∧ darkReadOut.dark.entries.length = 8 ∧
    darkReadOut.dark.entries[7]? = some ⟨.exposing 3, 2000000, 11, 600⟩ ∧
    darkReadOut.dark.entries.countP (·.state.isExposing) = 1 ∧
    darkReadOut.seq.samples = darkReadOut.seq.columns * darkReadOut.seq.rows ∧
    darkShot (.linked 7) ∈ residents darkReadOut ∧ shotBand (darkShot (.linked 7)) = some (88 / 8) ∧
    shotBand (darkShot (.linked 7)) ≠ some (80 / 8) ∧ darkReadOut.pau = [] ∧
    darkReadOut.pool.darkClaim = false ∧ 7 ∉ darkReadOut.dark.plan ∧ darkReadOut.dev.queue = [] ∧
    (∀ r ∈ residents running, r.darkLink ≠ .linked 7) := by decide +kernel

theorem witness_DarkReadoutReadiesOrFailsTheEntry_noLink :
    FreeEntriesSuffice darkReadOut 7 (80 / 8) ∧ FreeEntriesSuffice (withShot (darkShot .waived) darkReadOut) 7 11 ∧
    (∀ r ∈ residents (withShot (darkShot .waived) darkReadOut),
      r.darkLink ≠ .awaiting ∧ (r.darkLink = .linked 7 → shotBand r ≠ some 11 ∧ 3 ≤ r.darkAttempts + 1)) ∧
    (∀ q ∈ darkReadOut.pau, q.op ≠ .applyDark 7) ∧ 3 < darkReadOut.pool.owners.length ∧
    3 ≤ ({ darkShot (.linked 7) with darkAttempts := 2 } : Record).darkAttempts + 1 ∧
    (darkShot (.linked 7)).darkAttempts + 1 < 3 := by
  refine ⟨?_, ?_, by decide +kernel, by decide +kernel, by decide +kernel, by decide, by decide⟩ <;>
    unfold FreeEntriesSuffice <;> decide +kernel

/-- The third reference that fails a shot leaves it WAIVED with DARK_GAVE_UP, and the entry is READY (R105, R107). -/
theorem test_dark_gives_up :
    after (fun t => (residents t).map Record.darkLink == [.waived] &&
        (t.notices.kinds[NoticeKind.darkGaveUp.place]?).map Notice.count == some 1 &&
        (t.dark.entries[7]?).map DarkEntry.state == some (.ready 10 0#48 3))
      (exec (.readoutHeader true 10000 7500 80)
        (withShot { darkShot (.linked 7) with darkAttempts := 2 } darkReadOut)) = true := by decide +kernel

theorem witness_PixelSampleWritesItsValue_dark : SampleGoesTo darkReadOut 3 := by
  have one : ∀ e < 8, ∀ x ∈ darkReadOut.dark.entries[e]?, x.state.isExposing = true → e = 7 := by decide +kernel
  have size : darkReadOut.dark.entries.length = 8 := by decide +kernel
  refine .inr (.inr ⟨rfl, 7, ⟨.exposing 3, 2000000, 11, 600⟩, by decide +kernel, rfl, fun e x p h hx => ?_⟩)
  exact one e (size ▸ (List.getElem?_eq_some_iff.1 h).1) x h (by rw [hx]; rfl)

/-- RESTARTING with shot 1 AWAITING. -/
def awaits (x : DarkEntry) : State :=
  { withShot (darkShot .awaiting) (withDark x running) with part := .restarting }

theorem witness_AwaitingShotIsMatchedOrPlanned :
    (awaits planned).part = .restarting ∧ (awaits planned).card.state ≠ .ejecting ∧
    (awaits planned).pool.darkClaim = false ∧ (slotNumbers (awaits planned)).Nodup ∧
    (awaits planned).dark.entries.length = 8 ∧ darkShot .awaiting ∈ residents (awaits planned) ∧
    (∀ r ∈ residents (awaits planned), r.darkLink = .awaiting → r = darkShot .awaiting) ∧
    (darkShot .awaiting).exposures.map (·.status) = [.done] := by decide +kernel

theorem witness_AwaitingShotIsMatchedOrPlanned_serves :
    Serves 5#48 readyDark 2000000 (88 / 8) ∧ Serves 5#48 planned 2000000 (88 / 8) ∧
    Serves 5#48 { planned with state := .exposing 3 } 2000000 (88 / 8) ∧
    ¬ Serves 5#48 planned 2000000 12 ∧ ¬ Serves 5#48 .free 2000000 (88 / 8) := by
  refine ⟨⟨by decide, by decide, ?_⟩, ⟨by decide, by decide, ?_⟩, ⟨by decide, by decide, ?_⟩, fun h => ?_,
    fun h => h.2.2⟩
  · show (11 : Int) = 88 / 8 ∧ 0 < readyDark.reuseAge ∧ (5#48 - 0#48).toNat ≤ readyDark.reuseAge * 1000000
    decide
  · show planned.plannedBand = 88 / 8
    decide
  · show planned.plannedBand = 88 / 8
    decide
  · exact absurd (show planned.plannedBand = 12 from h.2.2) (by decide)

def request (op : PauOp) (going : Bool) : PauRequest :=
  { op := op, shot := 1, source := 1, destination := 0, resume := 0, running := going, scale := 1 }

def withPau (q : PauRequest) (s : State) : State := { s with pau := [q] }

theorem witness_ArithmeticUnitStartsAndCompletes :
    running.pau = [] ∧ (request .accumulate true).running = true ∧
    ((∀ a ∈ (withPau (request .accumulate false) running).pau, a.running = false) ∧
      (withPau (request .accumulate false) running).pau[0]? = some (request .accumulate false) ∧
      (request .accumulate false).op = .accumulate) ∧
    (∀ a ∈ (withPau (request (.applyDark 7) false) running).pau, a.running = false ∧ a.op ≠ .accumulate) ∧
    ((withPau (request .accumulate true) running).pau.find? (·.running) = some (request .accumulate true) ∧
      (request .accumulate true).source ≠ (request .accumulate true).destination) ∧ Canonical running ∧
    (withPau (request (.applyDark 7) true) running).pau.find? (·.running) =
      some (request (.applyDark 7) true) ∧
    (withSeq (fun q => { q with state := .accumulate, k := 2 }) armed).seq.openShot = some 1 ∧
    findRecord (withSeq (fun q => { q with state := .accumulate, k := 2 }) armed) 1 =
      some (shot 1 .opened) := by decide +kernel

/-! #### Development and previews -/

def heldShot : State := withShot (shot 1 .held) rollReady

def key : DevKey := { recipe := 0, generation := 0#16 }

theorem witness_DevelopAndDevFloor :
    CanTake 7 heldShot ∧ (∀ r ∈ residents running, r.number ≠ 1) ∧
    findRecord heldShot 1 = some (shot 1 .held) ∧
    findRecord (withShot (shot 1 .void) running) 1 = some (shot 1 .void) ∧
    findRecord armed 1 = some (shot 1 .opened) ∧
    key = DevKey.mk (shot 1 .held).recipe ((heldShot.recipes.getD (shot 1 .held).recipe .reset).generation) ∧
    findRecord (withShot { shot 1 .settled with devPending := some key } running) 1 =
      some { shot 1 .settled with devPending := some key } ∧
    (shot 1 .held).devPending ≠ some key ∧ (shot 1 .held).devFile = none ∧
    heldShot.card.handoffs = [] ∧ (∀ j ∈ heldShot.dev.queue, j.shot ≠ 1) ∧
    heldShot.dev.queue.length < 16 ∧ heldShot.card.state ≠ .ejecting ∧
    16 ≤ (List.replicate 16 { job .full with shot := 2 }).length := by decide +kernel

theorem witness_DevelopAndDevFloor_floor : CanTake 7 running ∧ 1 ≤ 7 ∧ 7 < 8 := by decide +kernel

/-- A job of shot 1 in the queue, QUEUED or RUNNING under an older key. -/
def inQueue (kind : JobKind) (going : Bool) : State :=
  { heldShot with dev := { heldShot.dev with
      queue := [{ job kind with shot := 2 }, { job kind with key := ⟨0, 0xFFFF#16⟩, running := going }] } }

theorem witness_DevelopAndDevFloor_merges :
    OnlyJob (inQueue .full false) 1 .full 1 { job .full with key := ⟨0, 0xFFFF#16⟩ } ∧
    OnlyJob (inQueue .preview true) 1 .preview 1 { job .preview with key := ⟨0, 0xFFFF#16⟩, running := true } ∧
    CanTake 6 (inQueue .full false) ∧ (inQueue .full false).card.state ≠ .ejecting := by
  refine ⟨⟨rfl, rfl, rfl, ?_⟩, ⟨rfl, rfl, rfl, ?_⟩, by decide +kernel, by decide +kernel⟩
  all_goals
    intro i j h hs _
    match i, h with
    | 0, h => exact absurd hs (by rw [← Option.some.inj h]; decide)
    | 1, _ => rfl

/-- A placing merges into a QUEUED job under the current key, and into a RUNNING one under its own (R113). -/
theorem test_merges :
    after (fun t => (t.dev.queue[1]?).map (fun j => (j.priority, j.key.generation, j.waiters)) ==
        some (7, 0#16, [7, 6])) (exec (.develop 6 1 1 7) { inQueue .full false with part := .running }) = true ∧
    after (fun t => (t.dev.queue[1]?).map (fun j => (j.priority, j.key.generation, j.waiters)) ==
        some (7, 0xFFFF#16, [7, 6])) (exec (.develop 6 1 1 7) (inQueue .full true)) = true := by decide +kernel

def withJob (kind : JobKind) (s : State) : State := { s with dev := { s.dev with queue := [job kind] } }

/-- The job of shot 1 at the end of its OUTPUT. -/
def outputs (kind : JobKind) (h : RunHolds) (s : State) : State :=
  { s with dev := { s.dev with
      queue := [{ job kind with running := true }], engine := .active .output, holds := some h } }

def holds (output slot : Option Nat) : RunHolds :=
  { fetch := none, output := output, slot := slot, recipe := .reset, readsRaw := true }

theorem witness_EngineRunsItsJob :
    ((withJob .preview heldShot).dev.engine = .idle ∧ (withJob .preview heldShot).dev.readout = false ∧
      (withJob .preview heldShot).part = .running ∧ (withJob .preview heldShot).dev.queue = [job .preview] ∧
      (job .preview).running = false ∧ findRecord (withJob .preview heldShot) 1 = some (shot 1 .held) ∧
      (shot 1 .held).darkLink = .notRequired ∧ (∀ q ∈ (withJob .preview heldShot).pau, q.running = false) ∧
      (withJob .preview heldShot).dev.floor ≤ (job .preview).priority ∧
      (withJob .preview heldShot).cache.slots[0]? = some { state := .free, pins := 0 } ∧
      LowestAt (withJob .full heldShot).pool.owners .free 0) ∧
    State.reset.part ≠ .running ∧
    ((outputs .preview (holds none (some 7)) heldShot).dev.engine = .active .output ∧
      (outputs .preview (holds none (some 7)) heldShot).dev.queue.find? (·.running) =
        some { job .preview with running := true } ∧
      (outputs .preview (holds none (some 7)) heldShot).dev.holds = some (holds none (some 7)) ∧
      findRecord (outputs .preview (holds none (some 7)) heldShot) 1 = some (shot 1 .held) ∧
      key = (job .preview).key ∧ (job .preview).waiters = [7] ∧ 7 < heldShot.cache.slots.length) ∧
    ((outputs .full (holds (some 9) none) heldShot).dev.holds = some (holds (some 9) none) ∧
      { shot 1 .held with recipe := 1 }.recipe ≠ (job .full).key.recipe) := by
  unfold LowestAt; decide +kernel

/-- Two jobs, of a HELD shot and of a SETTLED one, on a READY card. -/
def twoJobs : State :=
  { setSlot 1 (.inUse { shot 2 .settled with rawCard := .onCard, rawRuns := [⟨3, 1⟩] })
      (withShot (shot 1 .held) ready) with
    dev := { ready.dev with queue := [job .full, { job .full with shot := 2, priority := 3 }] } }

theorem witness_EngineChoosesItsJob :
    (twoJobs.dev.engine = .idle ∧ twoJobs.dev.readout = false ∧ twoJobs.part = .running) ∧
    twoJobs.dev.queue = [job .full] ++ { job .full with shot := 2, priority := 3 } :: [] ∧
    MayRun twoJobs { job .full with shot := 2, priority := 3 } ∧
    ((job .full).priority < 3 ∧ LowestAt twoJobs.pool.owners .free 0 ∧
      twoJobs.pool.owners[1]? = some .free) ∧
    MayRun (withJob .full heldShot) (job .full) ∧ (∀ x ∈ running.dev.queue, ¬ MayRun running x) := by
  refine ⟨by decide +kernel, rfl, ⟨_, rfl, ⟨by decide, by decide, by decide, by decide +kernel, by decide⟩,
    by decide +kernel⟩, by unfold LowestAt; decide +kernel,
    ⟨_, rfl, ⟨by decide, by decide, by decide, by decide +kernel, by decide⟩, by decide +kernel⟩, ?_⟩
  intro x h; cases h

theorem witness_EngineRunsItsJob_sizes :
    (Recipe.reset).crop = none ∧ (Recipe.reset).rotation = 0 ∧ (Recipe.reset).halfScale = false ∧
    heldShot.seq.columns ≤ 1024 * 10 ∧ heldShot.seq.rows ≤ 1024 * 10 ∧
    1024 * (10 - 1) < heldShot.seq.columns ∧ Canonical heldShot ∧
    (shot 1 .held).rawPlane ≠ some 9 ∧ 9 < heldShot.pool.owners.length := by decide +kernel

def preview (pins : Nat) (owner : Option (Nat × DevKey)) : PreviewSlot :=
  { state := .valid owner 1000 750 false 0, pins := pins }

theorem witness_GetPreviewPinsHit :
    CanTake 7 heldShot ∧ findRecord armed 1 = some (shot 1 .opened) ∧
    findRecord (withShot (shot 1 .void) running) 1 = some (shot 1 .void) ∧
    (findRecord (withPreview (preview 7 (some (1, key))) heldShot) 1 = some (shot 1 .held) ∧
      (withPreview (preview 7 (some (1, key))) heldShot).cache.useOrder = [] ++ 7 :: [] ∧
      (withPreview (preview 7 (some (1, key))) heldShot).cache.slots[7]? =
        some (preview 7 (some (1, key)))) ∧
    (withPreview (preview 6 (some (1, key))) heldShot).cache.slots[7]? =
      some (preview 6 (some (1, key))) ∧
    (∀ x ∈ heldShot.cache.slots, x.state = .free) ∧ (∀ j ∈ heldShot.dev.queue, j.shot ≠ 1) ∧
    (∀ r ∈ residents running, r.number ≠ 1) ∧ running.table.slots.all (fun x => !x.loads 1) = true ∧
    running.card.state = .absent ∧ ready.card.state = .ready ∧ (∀ x ∈ ready.card.index, x.shot ≠ 1) := by
  decide +kernel

/-- A shot on the card alone, with a preview that shows it. -/
def onCardOnly : State :=
  withPreview { state := .valid (some (9, key)) 1000 750 true 0, pins := 6 }
    (withCard (fun c => { c with index := [⟨9, 4, 1, roll.label, false⟩] }) ready)

theorem witness_GetPreviewPinsHit_onCard :
    CanTake 7 onCardOnly ∧ (∀ r ∈ residents onCardOnly, r.number ≠ 9) ∧
    onCardOnly.table.slots.all (fun x => !x.loads 9) = true ∧ onCardOnly.card.state = .ready ∧
    (∃ x ∈ onCardOnly.card.index, x.shot = 9) ∧ onCardOnly.cache.useOrder = [] ++ 7 :: [] ∧
    onCardOnly.cache.slots[7]? = some { state := .valid (some (9, key)) 1000 750 true 0, pins := 6 } ∧
    key.generation = (onCardOnly.recipes.getD key.recipe .reset).generation ∧
    (setSlot 0 (.loading 9 []) onCardOnly).table.slots.any (·.loads 9) = true := by decide +kernel

theorem witness_GetPreviewPinsHit_misses :
    (MissPriority heldShot (shot 1 .held) 5 ∧ findRecord heldShot 1 = some (shot 1 .held)) ∧
    MissPriority (withRoll (.opened { roll with autoPreview := none }) running) (shot 1 .held) 6 ∧
    MissPriority running { shot 1 .held with rollSlot := none } 6 ∧
    OnlyJob (inQueue .preview true) 1 .preview 1 { job .preview with key := ⟨0, 0xFFFF#16⟩, running := true } ∧
    (∀ x ∈ (inQueue .preview true).cache.slots, x.state = .free) :=
  ⟨⟨.inr ⟨0, _, roll, rfl, rfl, rfl, .inr rfl⟩, by decide⟩, .inr ⟨0, _, _, rfl, rfl, rfl, .inl ⟨rfl, rfl⟩⟩,
    .inl ⟨rfl, rfl⟩, witness_DevelopAndDevFloor_merges.2.1, by decide⟩

/-- A RECIPE_SET has made the key of a standing slot an old one. -/
def staleStanding : State :=
  withPreview { state := .valid (some (9, ⟨0, 0xFFFF#16⟩)) 1000 750 true 0, pins := 6 } onCardOnly

theorem witness_GetPreviewPinsHit_stale :
    Stands onCardOnly 9 { state := .valid (some (9, key)) 1000 750 true 0, pins := 6 } ∧
    ∀ x ∈ staleStanding.cache.slots, ¬ Stands staleStanding 9 x := by
  refine ⟨⟨key, 1000, 750, 0, rfl, rfl⟩, ?_⟩
  rintro x hx ⟨k, w, h, seed, e, g⟩
  have all : ∀ y ∈ staleStanding.cache.slots,
      y = { state := .free, pins := 0 } ∨
      y = { state := .valid (some (9, ⟨0, 0xFFFF#16⟩)) 1000 750 true 0, pins := 6 } := by decide
  rcases all x hx with rfl | rfl
  · cases e
  · cases e
    exact absurd g (by decide)

/-- Shot 1's FULL job at the end of its OUTPUT, with two hand-offs of the shot on the list, one being written, and a
preview under its key in slot 6. -/
def supersedes (kind : JobKind) (h : RunHolds) : State :=
  { withPreview (preview 0 (some (1, key))) (outputs kind h heldShot) with
    card := { heldShot.card with handoffs :=
      [{ shot := 1, key := key, plane := 7, width := 1, height := 1, writing := true, marked := false, seed := 0 },
       { shot := 1, key := key, plane := 8, width := 1, height := 1, writing := false, marked := false, seed := 0 }] } }

theorem witness_EngineRunsItsJob_supersedes :
    (9 :: (supersedes .full (holds (some 9) none)).card.handoffs.map Handoff.plane).Nodup ∧
    8 < (supersedes .full (holds (some 9) none)).pool.owners.length ∧
    (supersedes .preview (holds none (some 6))).cache.slots[7]? = some (preview 0 (some (1, key))) ∧ 7 ≠ 6 ∧
    (withPreview (preview 7 (some (1, key))) heldShot).cache.slots[7]? = some (preview 7 (some (1, key))) ∧
    OnlyJob (outputs .full (holds (some 9) none) heldShot) 1 .full 0 { job .full with running := true } := by
  refine ⟨by decide, by decide, by decide, by decide, by decide, rfl, rfl, rfl, fun i j h _ _ => ?_⟩
  match i, h with
  | 0, _ => rfl

/-- The older hand-off goes, and its plane is FREE (R124). -/
theorem test_handoff_superseded :
    after (fun t => t.card.handoffs.map Handoff.plane == [7, 9] && t.pool.owners[8]? == some .free)
      (exec .outputEnd (supersedes .full (holds (some 9) none))) = true := by decide +kernel

theorem witness_PreviewsAreReadAndUnpinned :
    CanTake 7 (withPreview (preview 1 none) running) ∧
    running.cache.slots[7]? = some { state := .free, pins := 0 } ∧
    (withPreview (preview 1 none) running).cache.slots[7]? = some (preview 1 none) ∧
    3 * 1000 * 750 ≤ 2250000 ∧ 2249999 < 3 * 1000 * 750 := by decide +kernel

theorem witness_PreviewsAreReadAndUnpinned_unpin :
    CanTake 7 (withPreview (preview 1 none) running) ∧
    running.cache.slots[7]? = some { state := .free, pins := 0 } ∧
    ((withPreview (preview 1 none) running).cache.slots[7]? = some (preview 1 none) ∧
      (preview 1 none).state = .valid none 1000 750 false 0 ∧
      (withPreview (preview 1 none) running).card.state ≠ .ejecting) ∧
    ((withPreview (preview 7 (some (1, key))) running).cache.slots[7]? =
      some (preview 7 (some (1, key))) ∧ (preview 7 (some (1, key))).isValid = true) := by decide +kernel

/-! #### Reports and notices -/

theorem witness_ReportsChangeNothing :
    7 ∉ State.reset.link.held ∧ CanTake 7 ready ∧ ready.card.indexHeld = true ∧
    running.card.indexHeld = false ∧ 1 ≤ 32 ∧ 32 < 33 := by decide +kernel

def oneNotice : State := raise .linkFault none running

theorem witness_NoticesAreTakenByLevelAndRank :
    (∀ x ∈ running.notices.kinds, x.pending = true → x.level = 0) ∧
    (CanTake 7 oneNotice ∧
      oneNotice.notices.kinds[14]? = some { pending := true, count := 1, subject := none, level := 2 } ∧
      oneNotice.notices.kinds.countP (·.pending) = 1) ∧
    (List.replicate 15 (some 7)).length = 15 ∧ running.notices.kinds.length = 15 ∧
    some 8 ∈ List.replicate 15 (some 8) := by decide +kernel

/-! #### The card -/

def identity (protect : Bool) : Identity := { serial := 5, capacity := 8192, writeProtected := protect }

def cardIn (state : CardState) (x : Option Identity) : State :=
  withCard (fun c => { c with state := state, identity := x }) running

theorem witness_CardRequestsFollowCardState :
    (CanTake 7 running ∧ running.card.state ≠ .ready ∧ running.card.state ≠ .readOnly) ∧
    (CanTake 7 ready ∧ ready.card.state = .ready) ∧
    (∃ r ∈ residents (withShot (shot 1 .retiring) ready), r.life = .retiring) ∧
    ((cardIn .unformatted (some (identity true))).card.identity = some (identity true) ∧
      (cardIn .unformatted (some (identity false))).card.state = .unformatted ∧
      (cardIn .unformatted (some (identity false))).card.identity = some (identity false) ∧
      4 ≤ (identity false).capacity / 2048 ∧ (cardIn .unformatted (some (identity false))).card.bus = none) ∧
    (cardIn .mounting none).card.state = .mounting ∧ (cardIn .readOnly none).card.state = .readOnly := by
  decide +kernel

/-- A READY card with nothing protected on it, and shots HELD on their way there and SETTLED. -/
def formattable : State :=
  setSlot 1 (.inUse { shot 2 .settled with rawCard := .onCard, catSlot := some 5, dirty := true })
    (withShot { shot 1 .held with rawCard := .cataloguing, catSlot := some 4 }
      (withCard (fun c => { c with
        identity := some (identity false), index := [⟨2, 5, 1, roll.label, false⟩] }) ready))

theorem witness_CardRequestsFollowCardState_ready :
    (CanTake 7 formattable ∧ formattable.card.state = .ready ∧
      formattable.card.identity = some (identity false) ∧
      (∀ r ∈ residents formattable, r.life ≠ .retiring) ∧
      (∀ r ∈ residents formattable, (r.rawCard = .cataloguing ∨ r.rawCard = .onCard) → r.protect = false) ∧
      formattable.card.index.all (fun e => !e.protect) = true ∧ formattable.card.bus = none ∧
      (slotNumbers formattable).Nodup) ∧
    (onBus (.dirtyRewrite 2) .identify formattable).card.bus.isSome ∧
    (∃ r ∈ residents (withShot { shot 1 .held with rawCard := .onCard, protect := true } formattable),
      r.protect = true ∧ (r.rawCard = .cataloguing ∨ r.rawCard = .onCard)) ∧
    (cardIn .unformatted (some { identity false with capacity := 8191 })).card.identity =
      some { identity false with capacity := 8191 } ∧
    ((withCard (fun c => { c with state := .mounting, formatWait := some 7 })
      (onBus (.dirtyRewrite 2) .identify formattable)).card.formatWait = some 7) := by decide +kernel

/-- A format accepted while a raw is being written takes the index and the SETTLED record at once, and leaves the
record being written to the answer (R159, log 26). -/
theorem test_format_clears_at_once :
    let s := onBus (.rawWrite 1 0) .identify (withShot { shot 1 .held with rawCard := .writing } formattable)
    let t := clearForFormat s
    t.card.index = [] ∧ (residents t).map (fun r => (r.number, r.rawCard)) = [(1, .writing)] ∧
    (residents (clearForFormat (endWork t))).map (fun r => (r.number, r.rawCard)) = [(1, .unwritten)] := by
  decide +kernel

def lineAt (line accepted : Bool) (s : State) : State :=
  withCard (fun c => { c with detect := { line := line, accepted := accepted, timer := some tm } }) s

theorem witness_CardDetectQualifiesTheLine :
    running.card.detect.line = false ∧
    ((lineAt true false running).card.detect.timer = some tm ∧
      (lineAt true false running).card.detect.line = true ∧
      (lineAt true false running).card.detect.accepted = false ∧
      (lineAt true false running).card.state = .absent ∧ (lineAt true false running).card.bus = none) ∧
    ((lineAt false true ready).card.detect.timer = some tm ∧
      (lineAt false true ready).card.detect.line = false ∧
      (lineAt false true ready).card.detect.accepted = true ∧
      (lineAt false true ready).card.state ≠ .absent) := by decide +kernel

theorem witness_CardDetectQualifiesTheLine_records :
    (slotNumbers (lineAt false true formattable)).Nodup ∧
    (∃ r ∈ residents (lineAt false true formattable), r.life = .held ∧ r.rawCard ≠ .unwritten) ∧
    (∃ r ∈ residents (lineAt false true formattable), r.life = .settled ∧ r.dirty = true) ∧
    (∀ r ∈ residents (lineAt false true ready), ¬ (r.life = .settled ∧ r.dirty = true)) := by decide +kernel

theorem onBus_holds (w : CardWork) (c : CardCommand) (s : State)
    (h : ∀ n d r, w = .rawWrite n d → findRecord (onBus w c s) n = some r → r.life ≠ .retiring)
    (k : ∀ h runs d, w ≠ .developed h runs d false true) (f : s.card.formatWait = none) : OnBus (onBus w c s) :=
  ⟨⟨_, rfl, rfl⟩, f, fun n d r e => h n d r (Option.some.inj e), fun a b d e => k a b d (Option.some.inj e)⟩

/-- A load of shot 1 waits for the arbiter. -/
def readWaits : State := withCard (fun c => { c with reads := [.load 1 0] }) ready

theorem witness_FailedCommandIsIssuedOnceMore :
    (onBus .identify .identify running).card.bus.isSome = true ∧
    (readWaits.card.bus = none ∧ readWaits.card.work = none ∧ readWaits.card.state = .ready ∧
      readWaits.card.reads = .load 1 0 :: []) ∧
    (onBus .identify .identify running).card.bus = some ⟨.identify, 0#48, false, false⟩ ∧
    OnBus (onBus .identify .identify running) :=
  ⟨by decide, by decide, by decide, onBus_holds _ _ _ (by simp) (by simp) rfl⟩

/-- Its command has failed once. -/
def failedOnce (s : State) : State := withCard (fun c => { c with bus := c.bus.map fun b => { b with retried := true } }) s

theorem witness_FailedCommandIsIssuedOnceMore_again :
    (failedOnce (onBus (.entryWrite 1 4) .identify formattable)).card.bus = some ⟨.identify, 0#48, true, false⟩ ∧
    OnBus (failedOnce (onBus (.entryWrite 1 4) .identify formattable)) ∧
    (slotNumbers (failedOnce (onBus (.entryWrite 1 4) .identify formattable))).Nodup ∧
    (∃ r ∈ residents (failedOnce (onBus (.entryWrite 1 4) .identify formattable)),
      r.life = .held ∧ (r.rawCard = .writing ∨ r.rawCard = .cataloguing)) :=
  ⟨by decide, ⟨⟨_, rfl, rfl⟩, rfl, fun _ _ _ e => by simp [failedOnce, onBus, withCard] at e, fun _ _ _ => by
    simp [failedOnce, onBus, withCard]⟩, by decide +kernel, by decide +kernel⟩

/-- A READY card with room for ten clusters and nothing in flight. -/
def roomy : State := withCard (fun c => { c with map := [⟨3, 400⟩] }) ready

def queuedFile : Handoff :=
  { shot := 1, key := key, plane := 9, width := 1000, height := 750, writing := false, marked := false,
    seed := 0 }

def onCardShot : Record := { shot 1 .held with rawCard := .onCard, catSlot := some 4, dirty := true }

theorem witness_ArbiterStartsWorkByClass :
    (roomy.card.bus = none ∧ roomy.card.work = none ∧ roomy.card.state = .ready ∧ roomy.card.reads = [] ∧
      roomy.card.entries = []) ∧
    (withCard (fun c => { c with reads := [.fetch 1 9 [⟨3, 1⟩]] }) roomy).card.reads =
      .fetch 1 9 [⟨3, 1⟩] :: [] ∧
    ((withCard (fun c => { c with entries := [.live 1 4] }) (withShot onCardShot roomy)).card.entries =
        .live 1 4 :: [] ∧ findRecord (withShot onCardShot roomy) 1 = some onCardShot ∧
      onCardShot.catSlot = some 4) ∧
    MayWriteDeveloped (withShot onCardShot roomy) queuedFile ∧
    (allocate roomy.card.map (clustersFor (3 * 1000 * 750))).isSome ∧ allocate [] 1 = none ∧
    MayWriteRaw (withShot (shot 1 .held) roomy) (shot 1 .held) ∧
    ((allocate roomy.card.map (clustersFor (4 * (roomy.seq.columns * roomy.seq.rows)))).isSome ∧
      (emptySlot roomy).isSome ∧ (shot 1 .held).rawPlane = some 0) ∧
    (∀ x ∈ residents (withShot onCardShot roomy), ¬ MayWriteRaw (withShot onCardShot roomy) x) ∧
    (∀ x ∈ roomy.card.handoffs, ¬ MayWriteDeveloped roomy x) := by
  refine ⟨by decide, by decide, by decide, ⟨rfl, rfl, _, rfl, rfl⟩, by decide, by decide, ?_,
    by decide +kernel, fun x h e => ?_, fun x h => by cases h⟩
  · exact ⟨rfl, rfl, by decide, by decide, by decide, by decide⟩
  · have unwritten : ∀ r ∈ residents (withShot onCardShot roomy), r.rawCard ≠ .unwritten := by decide +kernel
    exact unwritten x h e.2.1

/-- A load waits behind the one in flight, and a fetch alone, of the engine's job. -/
def twoReads : State :=
  onBus (.load 9 4) (.read 2052 1) (setSlot 1 (.loading 10 [⟨6, .lookup⟩]) (setSlot 0 (.loading 9 [⟨5, .lookup⟩])
    (withCard (fun c => { c with reads := [.load 9 4, .load 10 5] }) ready)))

def fetchWaits : State :=
  { withCard (fun c => { c with reads := [.fetch 2 9 [⟨3, 1⟩]] }) formattable with
    dev := { running.dev with
      queue := [{ job .full with shot := 2, running := true }], engine := .fetching
      holds := some { fetch := some 9, output := some 8, slot := none, recipe := .reset, readsRaw := false } } }

/-- The rewrite of shot 2 waits. -/
def rewriting : State :=
  { formattable with table := { formattable.table with amended := [⟨1, true⟩, ⟨2, false⟩] } }

theorem witness_CardRequestsFollowCardState_eject :
    (CanTake 7 ready ∧ (slotNumbers ready).Nodup ∧ ready.card.work = none ∧ ready.card.bus = none ∧
      ready.card.entries = [] ∧ ¬ RewriteWaits ready) ∧
    (CanTake 7 twoReads ∧ twoReads.card.bus.isSome = true ∧ (slotNumbers twoReads).Nodup ∧
      ReadsWaiting twoReads [.load 10 5] ∧ twoReads.table.slots[1]? = some (.loading 10 [⟨6, .lookup⟩])) ∧
    (ReadsWaiting fetchWaits [.fetch 2 9 [⟨3, 1⟩]] ∧
      fetchWaits.dev.queue = [{ job .full with shot := 2, running := true }] ∧
      (findRecord fetchWaits 2).map Record.life = some .settled ∧ 9 < fetchWaits.pool.owners.length ∧
      fetchWaits.pool.darkClaim = false) ∧
    RewriteWaits rewriting := by
  have idle : fetchWaits.card.work = none := rfl
  refine ⟨⟨by decide, by decide +kernel, rfl, rfl, rfl, ?_⟩, ⟨by decide, rfl, by decide +kernel,
    .inr ⟨.inl ⟨9, 4, rfl⟩, .load 9 4, rfl, by decide⟩, by decide +kernel⟩,
    ⟨.inl ⟨⟨fun _ _ h => (nomatch idle.symm.trans h), fun _ _ _ _ h => (nomatch idle.symm.trans h)⟩, rfl⟩, rfl,
      by decide +kernel, by decide, rfl⟩,
    ⟨[⟨1, true⟩], ⟨2, false⟩, [], _, rfl, by decide, rfl, rfl, rfl, by decide⟩⟩
  rintro ⟨before, a, after, _, h, _⟩
  exact absurd (congrArg List.length h) (by simp [ready, running, withCard, State.reset, State.afterReset, Table.reset])

/-- An EJECTING card whose last work is in flight. -/
def draining (w : CardWork) : State :=
  onBus w .identify (withCard (fun c => { c with state := .ejecting, ejectTag := some 7 }) formattable)

theorem witness_CardRequestsFollowCardState_drain :
    OnBus (draining (.emptyWrite 3 6)) ∧ OnBus (draining (.dirtyRewrite 2)) ∧
    OnBus (draining (.developed queuedFile [⟨3, 3⟩] 2 true false)) ∧
    (OnBus (draining (.entryWrite 1 4)) ∧
      (findRecord (draining (.entryWrite 1 4)) 1).map Record.life = some .held) ∧
    OnBus (draining (.load 9 4)) ∧
    (OnBus (draining (.fetch 2 9 [⟨3, 1⟩] 0)) ∧ 0 + 1 = ([⟨3, 1⟩].map Run.length).sum) ∧
    (draining (.load 9 4)).card.state = .ejecting ∧ (draining (.load 9 4)).card.ejectTag = some 7 ∧
    (slotNumbers (draining (.load 9 4))).Nodup ∧ (draining (.load 9 4)).card.entries = [] ∧
    (draining (.load 9 4)).table.amended = [] ∧ (draining (.load 9 4)).card.reads = [] :=
  ⟨onBus_holds _ _ _ (by simp) (by simp) rfl, onBus_holds _ _ _ (by simp) (by simp) rfl,
    onBus_holds _ _ _ (by simp) (by simp) rfl,
    ⟨onBus_holds _ _ _ (by simp) (by simp) rfl, by decide +kernel⟩, onBus_holds _ _ _ (by simp) (by simp) rfl,
    ⟨onBus_holds _ _ _ (by simp) (by simp) rfl, by decide⟩, rfl, rfl, by decide +kernel, rfl, rfl, rfl⟩

/-- With nothing in flight an eject drains at once (R157). -/
theorem test_eject_drains :
    after (fun t => t.card.state == .ejected && t.card.index == [] &&
        (residents t).map (fun r => (r.number, r.rawCard)) == [(1, .unwritten)])
      (exec (.cardEject 7) (withShot { shot 1 .held with rawCard := .onCard } formattable)) = true := by
  decide +kernel

theorem witness_MountRunsItsReads :
    OnBus (onBus .identify .identify running) ∧
    OnBus (onBus .header (.read 0 1) (cardIn .mounting (some (identity false)))) ∧
    (onBus .header (.read 0 1) (cardIn .mounting (some (identity false)))).card.identity =
      some (identity false) ∧
    OnBus (onBus (.catalogue 0 []) (.read 2048 2048) (cardIn .mounting (some (identity true)))) ∧
    OnBus (onBus (.format 2 7 1) (.read 0 1) (cardIn .mounting none)) ∧ 0 < 2 ∧ 0 + 2 = 2 :=
  ⟨onBus_holds _ _ _ (by simp) (by simp) rfl, onBus_holds _ _ _ (by simp) (by simp) rfl, rfl,
    onBus_holds _ _ _ (by simp) (by simp) rfl, onBus_holds _ _ _ (by simp) (by simp) rfl, by decide, by decide⟩

/-- The last read of a mount, with shot 1 OPEN. -/
def remounts : State :=
  onBus (.catalogue 1 []) (.read 4096 2048)
    { withCard (fun c => { c with identity := some (identity false) }) armed with
      pool := { armed.pool with owners := armed.pool.owners.set 0 (.shotRaw 1) }
      table := { armed.table with counter := 2 } }

theorem witness_MountRunsItsReads_renumbers :
    OnBus remounts ∧ ShotNumbersAgree remounts ∧ PlanesAgree remounts ∧
    NextNumber [] 1 ∧ NextNumber [⟨4, 0, 1, roll.label, false⟩] 5 ∧
    MustRenumber 5 (shot 1 .opened) ∧ max remounts.table.counter 5 + renumberRank 5 1 remounts < 4294967296 ∧
    ¬ MustRenumber 1 (shot 1 .opened) ∧ 4294967296 ≤ max 4294967296 5 + renumberRank 5 1 remounts := by
  refine ⟨onBus_holds _ _ _ (by simp) (by simp) rfl, ?_, ?_, by unfold NextNumber; decide,
    by unfold NextNumber; decide, by decide, by decide +kernel, by decide, by omega⟩
  · unfold ShotNumbersAgree; decide +kernel
  · unfold PlanesAgree; decide +kernel

/-- A record below the card's next number takes the counter's value throughout (R23, R24). -/
theorem test_renumbers :
    let t := renumberAll 5 remounts
    (residents t).map (fun r => (r.number, r.former)) = [(5, some 1)] ∧ t.seq.openShot = some 5 ∧
    t.table.counter = 6 ∧ t.pool.owners[0]? = some (.shotRaw 5) := by decide +kernel

/-- A shot of the card: a stack of two exposures, one of which failed. -/
def cardShot : Record :=
  { number := 9, former := none, life := .settled, rollSlot := none, label := List.replicate 16 0x41#8,
    frame := 999, kind := .stack 8,
    exposures := [{ index := 1, status := .done, openTime := some 4#48, closeTime := some 9#48,
                    duration := some 5, source := some .auxEnd, truncated := true, temperature := some (-512) },
                  { index := 2, status := .failed }],
    takenAt := some (-1), recipe := 31, darkLink := .waived, darkAttempts := 0, rawCard := .onCard,
    catSlot := some 4, rawRuns := [⟨3, 1⟩], devFile := none, devPending := none, rating := 5,
    protect := false, dirty := false, rawPlane := none, rawSize := (1, 1), retireTag := none }

/-- Its catalogue entry. -/
def cardBlock : List Byte := liveBlock cardShot none .reset

theorem cardBlock_live : entryLive cardBlock = true := (entryLive_sealBlock _).trans (by decide +kernel)

/-- Slot 4 LIVE, slot 6 with a bad check code, slot 7 EMPTY. -/
def cardBlocks : List (Nat × List Byte) := [(4, cardBlock), (6, [1#8]), (7, emptyBlock)]

/-- The last read of a mount of a write-protected card of one data cluster. -/
def mounting : State :=
  onBus (.catalogue 1 (cardBlocks.take 1)) (.read 4096 2048)
    (withCard (fun c => { c with volume := some { id := 5, clusters := 1 }, full := true })
      (cardIn .mounting (some (identity true))))

theorem witness_MountRunsItsReads_catalogue :
    OnBus mounting ∧ mounting.card.volume = some { id := 5, clusters := 1 } ∧
    (cardBlocks.map Prod.fst).Nodup ∧ ShotNumbersAgree mounting ∧ (identity true).writeProtected = true ∧
    (∀ r ∈ residents mounting, r.life ≠ .held ∧ r.rawCard ≠ .onCard) ∧
    EntryAccepted 1 cardBlocks [entryIndex cardBlock 4] 4 cardBlock ∧
    ¬ EntryAccepted 0 cardBlocks [entryIndex cardBlock 4] 4 cardBlock ∧
    ¬ EntryAccepted 1 cardBlocks [entryIndex cardBlock 4] 6 [1#8] ∧
    entryEmpty [1#8] = false ∧ entryEmpty emptyBlock = true := by
  have runs : entryRuns cardBlock = [⟨3, 1⟩] := by decide +kernel
  refine ⟨onBus_holds _ _ _ (by simp) (by simp) rfl, rfl, by decide, by unfold ShotNumbersAgree; decide +kernel,
    rfl, by decide +kernel, ⟨cardBlock_live, by decide +kernel, by decide +kernel, ?_, ?_, ?_⟩, fun h => ?_,
    fun h => ?_, by decide +kernel, (entryEmpty_sealBlock _).trans (by decide +kernel)⟩
  · rw [runs]; decide
  · rw [runs]; decide
  · intro e he hi
    simp only [cardBlocks, List.mem_cons, List.not_mem_nil, or_false] at he
    rcases he with rfl | rfl | rfl <;> exact absurd hi (by decide)
  · have := h.2.2.2.1
    rw [runs] at this
    exact absurd (this _ (List.mem_singleton.2 rfl)) (by decide)
  · exact absurd h.1 (by decide +kernel)

/-- What the mount makes of them: the index, the DAMAGED set and the map (R147, R150). -/
theorem test_catalogue :
    let scan := [(6, [1#8])].foldl scanEntry { index := [], damaged := [], map := wholeMap 3 }
    scan.damaged = [6] ∧ clustersOf scan.map = [3, 4, 5] ∧
    (cutRuns (entryRuns cardBlock) (wholeMap 3)).map clustersOf = some [4, 5] ∧
    cutRuns (entryRuns cardBlock) (wholeMap 0) = none := by decide +kernel

/-- A load of shot 9 from slot 4, for one lookup, its number in the index. -/
def loading : State :=
  onBus (.load 9 4) (.read 2052 1) (setSlot 0 (.loading 9 [⟨7, .lookup⟩])
    (withCard (fun c => { c with index := [⟨9, 4, 1, roll.label, false⟩], reads := [.load 9 4] }) ready))

/-- A fetch of two clusters into plane 9 for the engine's job. -/
def fetching : State :=
  onBus (.fetch 1 9 [⟨3, 2⟩] 0) (.read 6144 2048) (withShot (shot 1 .settled) ready)

theorem witness_CardReadsComplete_waiters :
    (∀ w ∈ ([⟨7, .lookup⟩] : List LoadWaiter), w.request = .lookup) ∧
    (∀ x ∈ ready.card.index, x.shot ≠ 9) ∧ entryLive [] = false := by decide +kernel

theorem witness_CardReadsComplete :
    (OnBus loading ∧ loading.card.work = some (.load 9 4) ∧
      loading.table.slots[0]? = some (.loading 9 [⟨7, .lookup⟩]) ∧
      (loading.table.slots.drop 1).all (· == .free) = true ∧ (∃ x ∈ loading.card.index, x.shot = 9) ∧
      loading.card.state ≠ .ejecting) ∧
    (OnBus fetching ∧ fetching.card.work = some (.fetch 1 9 [⟨3, 2⟩] 0) ∧
      0 + 1 < ([⟨3, 2⟩].map Run.length).sum ∧ 0 + 2 = ([⟨3, 2⟩].map Run.length).sum) ∧
    Canonical fetching ∧ ([(0, 5#32), (262143, 6#32)].map Prod.fst).Nodup ∧
    262143 < fetching.seq.columns * fetching.seq.rows :=
  ⟨⟨onBus_holds _ _ _ (by simp) (by simp) rfl, by decide, by decide, by decide, by decide, by decide⟩,
    ⟨onBus_holds _ _ _ (by simp) (by simp) rfl, by decide, by decide, by decide⟩, by decide, by decide, by decide⟩

theorem witness_CardReadsComplete_entry :
    entryLive cardBlock = true ∧ entryShot cardBlock = 9 ∧ (∀ h ∈ loading.card.handoffs, h.shot ≠ 9) ∧
    LoadedFrom cardBlock 4 cardShot := by
  have live := cardBlock_live
  refine ⟨live, by decide +kernel, by decide +kernel, by decide +kernel, rfl, rfl, rfl, by decide +kernel,
    by decide +kernel, by decide +kernel, by decide +kernel, by decide +kernel, fun i hi => ?_, by decide +kernel,
    by decide +kernel, by decide +kernel, by decide +kernel, by decide +kernel, by decide +kernel, by decide +kernel,
    rfl, rfl, rfl, ?_, by decide +kernel, fun h => absurd h (by decide +kernel), rfl, rfl, rfl, rfl⟩
  · have two : field cardBlock 2 1 = 2 := by decide +kernel
    rw [two] at hi
    interval_cases i
    · refine ⟨_, rfl, rfl, by decide +kernel, by decide +kernel, by decide +kernel, by decide +kernel,
        by decide +kernel, by decide +kernel, by decide +kernel, by decide +kernel, fun o d ho hd => ?_,
        by decide +kernel, by decide +kernel⟩
      cases ho; cases hd; decide
    · refine ⟨_, rfl, rfl, by decide +kernel, by decide +kernel, by decide +kernel, by decide +kernel,
        by decide +kernel, by decide +kernel, by decide +kernel, by decide +kernel, fun o d ho _ => ?_,
        by decide +kernel, by decide +kernel⟩
      cases ho
  · have one : field cardBlock 37 1 = 1 := by decide +kernel
    refine ⟨one.symm, fun i hi => ?_⟩
    rw [one] at hi
    interval_cases i
    decide +kernel

/-- Requests that wait on the load: a retirement, a lookup and an amendment. -/
def waiters : List LoadWaiter := [⟨7, .retire⟩, ⟨6, .lookup⟩, ⟨5, .amend { rating := some 0 }⟩]

theorem witness_CardReadsComplete_amend_retire :
    AmendInRange { rating := some 0 } ∧ ¬ AmendKeeps { rating := some 0 } cardShot ∧
    AmendKeeps { rating := some 5, protect := some 0, recipe := some 31 } cardShot ∧
    cardShot.protect = false ∧ ({ cardShot with protect := true } : Record).protect = true ∧
    ¬ ProtectedCard loading ∧ ProtectedCard (withCard (fun c => { c with identity := some (identity true) }) loading) ∧
    loading.card.state ≠ .faulted ∧
    (setSlot 0 (.loading 9 waiters) loading).table.slots[0]? = some (.loading 9 waiters) := by
  refine ⟨by simp [AmendInRange, GivenIn], by simp [AmendKeeps, cardShot], by simp [AmendKeeps, cardShot], rfl, rfl, ?_,
    ⟨identity true, rfl, rfl⟩, by decide, by decide⟩
  rintro ⟨x, h, _⟩
  exact absurd h (by simp [loading, onBus, withCard, setSlot, ready, running, State.reset, State.afterReset, Card.reset])

def writing : Record := { shot 1 .held with rawCard := .writing, rawRuns := [⟨3, 2⟩] }

def handoff : Handoff :=
  { shot := 1, key := key, plane := 9, width := 1000, height := 750, writing := true, marked := false,
    seed := 0 }

def cataloguing : Record := { writing with rawCard := .cataloguing, catSlot := some 4 }

def retiring : Record :=
  { shot 1 .retiring with rawCard := .onCard, catSlot := some 4, retireTag := some 7 }

theorem witness_CardWritesComplete_emptied :
    retiring.life = .retiring ∧ (slotNumbers (withShot retiring ready)).Nodup ∧ ready.card.handoffs = [] ∧
    (∀ x ∈ residents (withShot retiring ready), x.life = .held → x.rawCard ≠ .unwritten) ∧
    writing.rawCard = .writing ∧ (emptySlot (withShot writing ready)).isSome := by decide +kernel

theorem witness_CardWritesComplete :
    (OnBus (onBus (.rawWrite 1 0) .identify (withShot writing ready)) ∧
      findRecord (onBus (.rawWrite 1 0) .identify (withShot writing ready)) 1 = some writing ∧
      0 + 1 < (writing.rawRuns.map Run.length).sum) ∧
    (OnBus (onBus (.entryWrite 1 4) .identify (withShot cataloguing ready)) ∧
      findRecord (onBus (.entryWrite 1 4) .identify (withShot cataloguing ready)) 1 = some cataloguing ∧
      readsRaw (onBus (.entryWrite 1 4) .identify (withShot cataloguing ready)) 1 = false ∧
      cataloguing.rawCard = .cataloguing ∧ ready.card.state ≠ .ejecting) ∧
    OnBus (onBus (.developed handoff [⟨3, 3⟩] 0 false false) .identify (withShot writing ready)) ∧
    (OnBus (onBus (.developed handoff [⟨3, 3⟩] 2 true false) .identify (withShot writing ready)) ∧
      findRecord (onBus (.developed handoff [⟨3, 3⟩] 2 true false) .identify (withShot writing ready)) 1 =
        some writing) ∧
    (OnBus (onBus (.emptyWrite 1 4) .identify (withShot retiring ready)) ∧
      findRecord (onBus (.emptyWrite 1 4) .identify (withShot retiring ready)) 1 = some retiring ∧
      retiring.retireTag = some 7) ∧
    OnBus (onBus (.dirtyRewrite 1) .identify (withShot writing ready)) :=
  ⟨⟨onBus_holds _ _ _ (by
      intro n d r e; cases e; decide +revert) (by simp) rfl, by decide, by decide⟩,
    ⟨onBus_holds _ _ _ (by simp) (by simp) rfl, by decide, by decide, by decide, by decide⟩,
    onBus_holds _ _ _ (by simp) (by simp) rfl, ⟨onBus_holds _ _ _ (by simp) (by simp) rfl, by decide⟩,
    ⟨onBus_holds _ _ _ (by simp) (by simp) rfl, by decide, by decide⟩, onBus_holds _ _ _ (by simp) (by simp) rfl⟩

/-! #### Looking up, amending and retiring -/

theorem witness_RequestsOnResidentShot :
    (CanTake 7 heldShot ∧ findRecord heldShot 1 = some (shot 1 .held) ∧
      (shot 1 .held).rawCard = .unwritten ∧ (shot 1 .held).protect = false) ∧
    findRecord (withShot { shot 1 .held with protect := true } running) 1 =
      some { shot 1 .held with protect := true } ∧
    findRecord (withShot retiring ready) 1 = some retiring ∧
    findRecord armed 1 = some (shot 1 .opened) ∧
    (findRecord (withShot { retiring with life := .settled } ready) 1 =
        some { retiring with life := .settled } ∧ ready.card.state = .ready ∧ ready.card.identity = none) ∧
    ({ rating := some 5, protect := some 1, recipe := some 31 } : AmendOperands).rating.isSome = true := by
  decide +kernel

theorem witness_RequestsOnResidentShot_amend :
    AmendInRange { rating := some 5, protect := some 1, recipe := some 31, waiveDark := true } ∧
    AmendKeeps { rating := some 0, protect := some 0 } (shot 1 .held) ∧
    ¬ AmendKeeps { rating := some 5 } (shot 1 .held) ∧
    ProtectedCard (cardIn .readOnly (some (identity true))) ∧ ¬ ProtectedCard formattable ∧
    OnCardSide { retiring with life := .settled } ∧ ¬ OnCardSide (shot 1 .held) := by
  simp [AmendInRange, GivenIn, AmendKeeps, ProtectedCard, OnCardSide, cardIn, identity, formattable, withCard,
    withShot, setSlot, shot, retiring, ready, running]

theorem witness_AbsentShotIsLoaded :
    (CanTake 7 running ∧ (∀ r ∈ residents running, r.number ≠ 9) ∧ running.card.state = .absent) ∧
    (CanTake 7 ready ∧ (∀ r ∈ residents ready, r.number ≠ 9) ∧ (∀ x ∈ ready.card.index, x.shot ≠ 9)) ∧
    (CanTake 6 loading ∧ (∀ r ∈ residents loading, r.number ≠ 9) ∧
      (∃ x ∈ loading.card.index, x.shot = 9) ∧
      loading.table.slots[0]? = some (.loading 9 [⟨7, .lookup⟩])) ∧
    ((∃ x ∈ (setSlot 0 .free loading).card.index, x.shot = 9) ∧
      (setSlot 0 .free loading).table.slots.all (fun x => !x.loads 9) = true ∧
      (setSlot 0 .free loading).card.reads.length < 8 ∧
      LowestAt (setSlot 0 .free loading).table.slots .free 0) ∧
    8 ≤ (List.replicate 8 (CardRead.load 9 4)).length := by
  unfold LowestAt; decide +kernel

/-- Shot 99 is on the card alone, and no record slot is FREE. -/
def crowded (s : State) : State :=
  withCard (fun c => { c with state := .ready, index := [⟨99, 4, 1, roll.label, false⟩] }) s

theorem witness_AbsentShotIsLoaded_slots :
    (CanTake 7 (crowded heldTable) ∧ (∀ r ∈ residents (crowded heldTable), r.number ≠ 99) ∧
      (crowded heldTable).table.slots.all (fun x => !x.loads 99) = true ∧ (crowded heldTable).card.reads.length < 8 ∧
      (crowded heldTable).card.index = [⟨99, 4, 1, roll.label, false⟩] ∧ NoSlot (crowded heldTable)) ∧
    (RecordSlot.free ∉ (crowded settledTable).table.slots ∧
      (crowded settledTable).table.useOrder = [] ++ 0 :: (List.range 64).tail ∧
      (crowded settledTable).table.slots[0]? = some (.inUse { shot 1 .settled with rawCard := .onCard }) ∧
      Evictable (crowded settledTable) { shot 1 .settled with rawCard := .onCard } ∧
      (slotNumbers (crowded settledTable)).Nodup) := by
  refine ⟨⟨by decide +kernel, by decide +kernel, by decide +kernel, by decide, rfl, by decide +kernel,
    fun i _ r h e => ?_⟩, by decide +kernel, by decide +kernel, by decide +kernel, by unfold Evictable; decide +kernel,
    by decide +kernel⟩
  have hr : r ∈ residents (crowded heldTable) := List.mem_filterMap.2 ⟨_, List.mem_of_getElem? h, rfl⟩
  have hl : ∀ x ∈ residents (crowded heldTable), x.life ≠ .settled := by decide +kernel
  exact hl r hr e.1

theorem witness_MemoryChangesOnlyByItsWriters :
    mayWriteMemory (.status 0) = false ∧ after (fun _ => true) (exec (.status 0) State.reset) = true := by
  decide +kernel

theorem witness_BlocksChangeOnlyByTheirCommands :
    mayChangeSync .armWindowExpiry = false ∧ mayChangeSync (.status 0) = false ∧
    mayChangeTime (.status 0) = false ∧ mayChangeSyncSettings (.triggerFire 0) = false ∧
    changesOwnTable (.status 0) = true := by decide

theorem witness_StepKeeps :
    Canonical State.reset ∧ after (fun _ => true) (step State.reset) = true ∧
    State.reset.rolls.current = none ∧ State.reset.link.held.Nodup ∧ QueueWithinRoom State.reset ∧
    TablesKeepSize State.reset ∧ FloorInRange State.reset := by
  refine ⟨by decide, by decide +kernel, rfl, by decide, ?_, ?_, ?_⟩
  · unfold QueueWithinRoom; decide
  · unfold TablesKeepSize; decide
  · unfold FloorInRange; decide

theorem witness_StepKeepsLimits_pins :
    ∀ x ∈ (withPreview (preview 7 none) running).cache.slots,
      x.pins ≤ 7 ∧ (0 < x.pins → x.isValid = true) := by decide +kernel

/-- Shot 1 OPEN with its plane in ARMED, shot 2 SETTLED with a job, and entry 7 READY in plane 3. -/
def lawful : State :=
  { setSlot 1 (.inUse { shot 2 .settled with rawCard := .onCard, rawPlane := none })
      (withCard (fun c => { c with state := .ready, index := [⟨2, 4, 1, roll.label, false⟩] }) armed) with
    pool := { armed.pool with owners := (armed.pool.owners.set 0 (.shotRaw 1)).set 3 (.dark 7) }
    dark := { entries := armed.dark.entries.set 7 readyDark, plan := [] }
    dev := { armed.dev with queue := [{ job .full with shot := 2 }] }
    table := { (setSlot 1 (.inUse { shot 2 .settled with rawCard := .onCard, rawPlane := none }) armed).table with
      counter := 3 } }

theorem witness_StepKeeps_laws :
    ShotNumbersAgree lawful ∧ OpenShotAgrees lawful ∧ PlanesAgree lawful ∧ QueueAgrees lawful ∧
    TablesKeepSize lawful ∧ SamplesKeepUp lawful ∧ after (fun _ => true) (step lawful) = true := by
  refine ⟨?_, ?_, ?_, ?_, ?_, ?_, by decide +kernel⟩
  · unfold ShotNumbersAgree; decide +kernel
  · unfold OpenShotAgrees; decide +kernel
  · unfold PlanesAgree; decide +kernel
  · unfold QueueAgrees; decide +kernel
  · unfold TablesKeepSize; decide +kernel
  · unfold SamplesKeepUp; decide +kernel

theorem witness_StepKeeps_links : DarkLinksAgree lawful ∧ IndexAgrees lawful := by
  have h : ∀ r ∈ residents lawful, r.darkLink = .notRequired ∧ (r.life = .opened → r.rawCard = .unwritten) := by
    decide +kernel
  refine ⟨fun r m => ⟨fun e => ?_, (h r m).2⟩, ?_⟩
  · rw [(h r m).1] at e
    rcases e with e | ⟨_, e⟩ <;> cases e
  · exact ⟨by decide +kernel, by decide +kernel, fun u => by
      rcases u with u | u | u <;> revert u <;> decide +kernel⟩

/-! #### RESTART -/

/-- Shot 1 OPEN in the ARMED state of its second exposure; shot 2 LOADING; shot 3 RETIRING; shot 4 SETTLED and dirty;
shot 5 LINKED to the PLANNED entry 0; shot 6 ON_CARD with the RUNNING job; shot 7 on its way to the card, with a hand-off
being written; shot 8 VOID; shot 9 LINKED to the READY entry 1 with the RUNNING APPLY_DARK. -/
def restartSlots : List RecordSlot :=
  [.inUse { stackShot with exposures := stackShot.exposures ++ [{ index := 2, status := .waiting }] },
   .loading 2 [⟨6, .lookup⟩], .inUse { shot 3 .retiring with rawCard := .onCard, rawPlane := none },
   .inUse { shot 4 .settled with rawCard := .onCard, rawPlane := none, dirty := true },
   .inUse { darkShot (.linked 0) with number := 5, rawPlane := some 2, darkAttempts := 1 },
   .inUse { shot 6 .held with rawCard := .onCard, rawPlane := some 3 },
   .inUse { shot 7 .held with rawCard := .writing, rawPlane := some 5, rawRuns := [⟨3, 2⟩] },
   .inUse { shot 8 .void with rawPlane := none },
   .inUse { darkShot (.linked 1) with number := 9, rawPlane := some 8 }]

def restartHandoff : Handoff :=
  { shot := 7, key := key, plane := 6, width := 1, height := 1, writing := true, marked := true, seed := 0 }

/-- The records of `restartSlots`, with the planes, entries, jobs and index that go with them; entry 2 is EXPOSING. -/
def restartable (bus : Option Bus) : State :=
  let s := withRoll (.opened { roll with nextFrame := 9 }) running
  { s with
    table := { s.table with
      slots := restartSlots ++ List.replicate 55 .free, useOrder := [8, 3, 0, 6], counter := 10,
      amended := [{ shot := 4, taken := false }, { shot := 7, taken := false }] }
    seq := { armed.seq with k := 2, scratch := some 1 }
    pool := { s.pool with owners :=
      [.shotRaw 1, .seqScratch, .shotRaw 5, .shotRaw 6, .devOutput, .shotRaw 7, .handoff 7 key, .dark 1, .shotRaw 9,
       .dark 2] }
    dark := { plan := [0], entries :=
      [planned, { planned with state := .ready 11 0#48 7 }, { planned with state := .exposing 9 }] ++
        List.replicate 5 .free }
    pau := [{ request (.applyDark 1) true with shot := 9, source := 7, destination := 8 }]
    dev := { s.dev with
      queue := [{ job .full with shot := 6, running := true }], engine := .active .output
      holds := some (holds (some 4) none) }
    card := { s.card with
      state := .ready, indexHeld := true, index := [⟨4, 3, 1, roll.label, false⟩, ⟨6, 4, 1, roll.label, false⟩]
      map := [⟨9, 4⟩], handoffs := [restartHandoff], bus := bus, detect := { s.card.detect with accepted := true } } }

def onTheBus : Bus := { command := .identify, issued := 0#48, retried := false, orphan := false }

theorem witness_RestartSettlesTheRecords :
    CanTake 7 (restartable none) ∧ CanTake 7 (restartable (some onTheBus)) ∧ LawsHold (restartable (some onTheBus)) := by
  refine ⟨by decide +kernel, by decide +kernel, ?_, ?_, ?_, ?_, ?_, ?_, ?_, ?_⟩
  · unfold TablesKeepSize; decide +kernel
  · intro i h
    cases h
    exact ⟨_, rfl⟩
  · unfold ShotNumbersAgree; decide +kernel
  · unfold OpenShotAgrees; decide +kernel
  · unfold PlanesAgree; decide +kernel
  · unfold QueueAgrees; decide +kernel
  · have h : ∀ r ∈ residents (restartable (some onTheBus)),
        ((r.darkLink = .notRequired ∨ (r.rawCard = .unwritten ∧ ∀ j ∈ (restartable (some onTheBus)).dev.queue, j.shot ≠ r.number)) ∧
        (r.life = .opened → r.rawCard = .unwritten)) := by decide +kernel
    intro r m
    obtain ⟨h1, h2⟩ := h r m
    refine ⟨fun e => ?_, h2⟩
    rcases h1 with h1 | h1
    · rw [h1] at e
      rcases e with e | ⟨_, e⟩ <;> cases e
    · exact ⟨h1.1, fun j hj hs => absurd hs (h1.2 j hj)⟩
  · refine ⟨by decide +kernel, by decide +kernel, fun u => ?_⟩
    rcases u with u | u | u <;> revert u <;> decide +kernel

/-- The laws do not speak of the bus and of the Plane Arithmetic Unit. -/
theorem witness_RestartFreesPlanesAndWork :
    LawsHold (restartable none) ∧ LawsHold (withPau (request .accumulate true) (restartable none)) ∧
    LawsHold { restartable none with pau := [] } ∧
    (restartable none).pau.find? (·.running) =
      some { request (.applyDark 1) true with shot := 9, source := 7, destination := 8 } ∧
    (withPau (request .accumulate true) (restartable none)).pau.find? (·.running) = some (request .accumulate true) ∧
    AbandonedEntry (restartable none) 0 ∧ AbandonedEntry (restartable none) 2 ∧ ReadyEntry (restartable none) 1 :=
  ⟨witness_RestartSettlesTheRecords.2.2, witness_RestartSettlesTheRecords.2.2, witness_RestartSettlesTheRecords.2.2, rfl,
    rfl, ⟨_, rfl, .inl rfl⟩, ⟨_, rfl, .inr ⟨_, rfl⟩⟩, ⟨_, _, _, _, rfl, rfl⟩⟩

/-- The shot whose record is SETTLED and dirty is the one lost. -/
theorem witness_RestartKeepsAndPartStatesEnd_lost :
    [4].Pairwise (· < ·) ∧ ∀ n, n ∈ [4] ↔
      ∃ r ∈ residents (restartable none), r.number = n ∧ r.dirty = true ∧ DroppedByRestart (restartable none) r := by
  have h : ∀ r ∈ residents (restartable none), r.dirty = true → r.number = 4 := by decide +kernel
  refine ⟨by decide, fun n => ⟨fun m => ?_, ?_⟩⟩
  · rw [List.mem_singleton.1 m]
    exact ⟨{ shot 4 .settled with rawCard := .onCard, rawPlane := none, dirty := true }, by decide +kernel, rfl, rfl,
      .inl rfl⟩
  · rintro ⟨r, hr, e, hd, _⟩
    rw [← e, h r hr hd]
    exact List.mem_singleton.2 rfl

/-- The lives that RESTART tells apart, and an OPEN shot without a DONE exposure in the current roll. -/
theorem witness_RestartSettlesTheRecords_lives :
    GoneByRestart (restartable none) { shot 3 .retiring with rawCard := .onCard, rawPlane := none } ∧
    SettledByRestart (restartable none) { shot 6 .held with rawCard := .onCard, rawPlane := some 3 } ∧
    ¬ GoneByRestart (restartable none) { shot 8 .void with rawPlane := none } ∧
    (LawsHold lawful ∧ CanTake 7 lawful ∧ shot 1 .opened ∈ residents lawful ∧ NoneDone (shot 1 .opened) ∧
      lawful.rolls.current = some 0 ∧ lawful.rolls.slots[0]? = some (.opened { roll with nextFrame := 2 })) := by
  obtain ⟨h1, h2, h3, h4, h5, _⟩ := witness_StepKeeps_laws
  refine ⟨.inl rfl, ⟨rfl, rfl, _, rfl, rfl⟩, ?_, ⟨h5, ?_, h1, h2, h3, h4, witness_StepKeeps_links⟩, by decide +kernel,
    by decide +kernel, fun e he => (List.not_mem_nil he).elim, rfl, rfl⟩
  · rintro (h | (h | h) | h)
    · cases h
    · cases h
    · cases h.1
    · cases h.1
  · intro i h
    cases h
    exact ⟨_, rfl⟩

/-- What becomes of the records, and of the roll and the lists that name them. -/
theorem test_restart_records :
    after (fun t => t.table.slots.take 9 ==
        [.inUse { stackShot with
            life := .held, exposures := stackShot.exposures ++ [{ index := 2, status := .failed }] },
         .free, .free, .free,
         .inUse { darkShot .awaiting with number := 5, rawPlane := some 2, darkAttempts := 2 }, .free,
         .inUse { shot 7 .held with rawPlane := some 5 }, .inUse { shot 8 .void with rawPlane := none },
         .inUse { darkShot (.linked 1) with number := 9, rawPlane := some 8 }] &&
        t.table.useOrder == [8, 0, 6] && t.table.amended == [] && t.part == .restarting)
      (exec (.restart 7) (restartable (some onTheBus))) = true := by decide +kernel

/-- What becomes of the planes, the dark entries and the hand-offs, and the count of the dirty record dropped. -/
theorem test_restart_planes :
    after (fun t => t.pool.owners ==
        [.shotRaw 1, .free, .shotRaw 5, .free, .free, .shotRaw 7, .handoff 7 key, .dark 1, .shotRaw 9, .free] &&
        (t.dark.entries.take 3).map DarkEntry.state == [.free, .ready 11 0#48 7, .free] && t.dark.plan == [] &&
        t.card.handoffs == [{ restartHandoff with writing := false, marked := false }] &&
        t.pau.map (fun q => (q.op, q.shot, q.source, q.destination, q.running)) == [(.applyDark 1, 9, 7, 8, true)] &&
        (t.notices.kinds[NoticeKind.amendLost.place]?).map (fun x => (x.count, x.subject)) ==
          some (1, some (.shot 4)))
      (exec (.restart 7) (restartable (some onTheBus))) = true := by decide +kernel

/-- With no command on the bus the part is RUNNING, and the shot that is AWAITING is matched at once. -/
theorem test_restart_running :
    after (fun t => t.part == .running && t.card.state == .mounting && (t.card.bus.map Bus.command) == some .identify &&
        (findRecord t 5).map Record.darkLink == some (.linked 1) && t.pau.map PauRequest.shot == [9, 5])
      (exec (.restart 7) (restartable none)) = true := by decide +kernel

/-! #### The ends of a job, reports and retirements -/

/-- Shot 1 HELD and ON_CARD in plane 0, its job at the end of OUTPUT. -/
def settlesAfter : State :=
  outputs .full (holds (some 9) none)
    { withShot { shot 1 .held with rawCard := .onCard } rollReady with
      pool := { rollReady.pool with owners := rollReady.pool.owners.set 0 (.shotRaw 1) } }

theorem witness_EngineRunsItsJob_settles :
    settlesAfter.dev.engine = .active .output ∧ settlesAfter.dev.holds = some (holds (some 9) none) ∧
    settlesAfter.dev.queue.find? (·.running) = some { job .full with running := true } ∧
    findRecord settlesAfter 1 = some { shot 1 .held with rawCard := .onCard } ∧ settlesAfter.card.state ≠ .ejecting ∧
    0 < settlesAfter.pool.owners.length ∧ settlesAfter.pool.darkClaim = false := by decide +kernel

/-- The shot settles at the end of its job, and its raw plane is FREE (R126). -/
theorem test_shot_settles :
    after (fun t => (findRecord t 1).map (fun r => (r.life, r.rawPlane)) == some (.settled, none) &&
        t.pool.owners[0]? == some .free && t.dev.engine == .idle) (exec .outputEnd settlesAfter) = true := by
  decide +kernel

/-- Shot 2 of `lawful`, resident and in the index, is reported once. -/
theorem test_shot_list :
    ((match exec (.shotList 7 1 32 none) lawful with
      | .next t => t.link.queue.map Answer.payload
      | _ => []) ==
      [.list [⟨1, 1, roll.label, some .opened⟩, ⟨2, 1, roll.label, some .settled⟩] false true]) = true := by
  decide +kernel

theorem witness_ReportsChangeNothing_strict :
    CanTake 7 lawful ∧ ShotNumbersAgree lawful ∧ IndexAgrees lawful ∧ 1 ≤ 4294967295 :=
  ⟨by decide +kernel, witness_StepKeeps_laws.1, witness_StepKeeps_links.2, by decide⟩

/-- Shot 1 HELD and LINKED to entry 7, which is no longer in the plan unless it is PLANNED. -/
def linkedTo (x : DarkEntry) : State :=
  let s := withDark x (withShot (darkShot (.linked 7)) running)
  { s with dark := { s.dark with plan := if x.state = .planned then [7] else [] } }

theorem witness_RequestsOnResidentShot_refused :
    CanTake 7 running ∧ (∀ r ∈ residents running, r.number ≠ 9) ∧ ¬ AmendInRange { rating := some 6 } ∧
    CanTake 7 heldShot ∧ findRecord heldShot 1 = some (shot 1 .held) := by
  refine ⟨by decide +kernel, by decide +kernel, ?_, by decide +kernel, by decide +kernel⟩
  simp [AmendInRange, GivenIn]

theorem witness_RequestsOnResidentShot_dark :
    (∀ x ∈ [planned, readyDark, { planned with state := .exposing 3 }],
      CanTake 7 (linkedTo x) ∧ findRecord (linkedTo x) 1 = some (darkShot (.linked 7)) ∧
      (linkedTo x).dark.entries[7]? = some x ∧ (linkedTo x).pool.darkClaim = false ∧
      (linkedTo x).card.state ≠ .ejecting ∧
      ∀ y ∈ residents (linkedTo x), y.number ≠ 1 → y.darkLink ≠ .awaiting ∧ y.darkLink ≠ .linked 7) ∧
    ((linkedTo readyDark).timeBase - 0#48).toNat < readyDark.reuseAge * 1000000 ∧
    ({ linkedTo readyDark with timeBase := 3600000000#48 }.timeBase - 0#48).toNat =
      readyDark.reuseAge * 1000000 := by decide +kernel

/-- A retirement frees a PLANNED entry and a READY one at its expiry instant; one EXPOSING stays (R109, R110). -/
theorem test_retire_dark :
    (after (fun t => (t.dark.entries[7]?).map DarkEntry.state == some .free && t.dark.plan == [])
      (exec (.shotRetire 7 1) (linkedTo planned)) &&
    after (fun t => t.dark.entries[7]? == some readyDark) (exec (.shotRetire 7 1) (linkedTo readyDark)) &&
    after (fun t => (t.dark.entries[7]?).map DarkEntry.state == some .free)
      (exec (.shotRetire 7 1) { linkedTo readyDark with timeBase := 3600000000#48 }) &&
    after (fun t => (t.dark.entries[7]?).map DarkEntry.state == some (.exposing 3))
      (exec (.shotRetire 7 1) (linkedTo { planned with state := .exposing 3 }))) = true := by decide +kernel

/-- A retirement frees an unpinned preview slot of the shot, and leaves a pinned one ORPHANED (R140). -/
theorem test_retire_previews :
    (after (fun t => t.cache.slots[7]? == some { state := .free, pins := 0 })
      (exec (.shotRetire 7 1) (withPreview (preview 0 (some (1, key))) heldShot)) &&
    after (fun t => t.cache.slots[7]? == some (preview 7 none))
      (exec (.shotRetire 7 1) (withPreview (preview 7 (some (1, key))) heldShot))) = true := by decide +kernel

theorem witness_RequestsOnResidentShot_previews :
    (withPreview (preview 0 (some (1, key))) heldShot).cache.slots[7]? = some (preview 0 (some (1, key))) ∧
    (withPreview (preview 7 (some (1, key))) heldShot).cache.slots[7]? = some (preview 7 (some (1, key))) ∧
    (preview 7 (some (1, key))).state = .valid (some (1, key)) 1000 750 false 0 ∧
    heldShot.card.state ≠ .ejecting ∧ heldShot.dev.holds = none := by decide +kernel

end Sys2Proof.Tests
end

section
namespace Sys2Proof.ShotTable
open Sys2Proof.Machine

/-! ### The law of the index -/

/-- Shot 1, HELD and ON_CARD in catalogue slot 0. -/
def heldOnCard : Record :=
  { number := 1, former := none, life := .held, rollSlot := none, label := List.replicate 16 0#8, frame := 1,
    kind := .single, exposures := [], takenAt := none, recipe := 0, darkLink := .notRequired,
    darkAttempts := 0, rawCard := .onCard, catSlot := some 0, rawRuns := [], devFile := none,
    devPending := none, rating := 0, protect := false, dirty := false, rawPlane := none,
    rawSize := (0, 0), retireTag := none }

/-- A READY card holds shot 1, which is HELD and ON_CARD already while the first write of its entry is still in flight; a
CARD_FORMAT waits in the queue. -/
def formatDuringWrite : State :=
  { State.reset with
    pending := [.cardFormat 0 1]
    part := .running
    table := { Table.reset with slots := Table.reset.slots.set 0 (.inUse heldOnCard), counter := 2 }
    card := { Card.reset true with
      state := .ready, indexHeld := true
      index := [{ shot := 1, slot := 0, frame := 1, label := List.replicate 16 0#8, protect := false }]
      work := some (.entryWrite 1 0)
      bus := some { command := .identify, issued := 0#48, retried := false, orphan := false } } }

/-- What the CARD_FORMAT makes of it: the index is empty, and shot 1 is left to the answer to the command on the bus. -/
def formatted : State :=
  match step formatDuringWrite with
  | .next t => t
  | _ => formatDuringWrite

theorem step_formatDuringWrite : step formatDuringWrite = .next formatted := rfl

theorem formatted_index : formatted.card.index = [] := by decide +kernel

theorem heldOnCard_mem_formatted : heldOnCard ∈ residents formatted := by decide +kernel

theorem residents_formatDuringWrite : residents formatDuringWrite = [heldOnCard] := by decide +kernel

theorem shotNumbersAgree_formatDuringWrite : ShotNumbersAgree formatDuringWrite := by
  unfold ShotNumbersAgree
  decide +kernel

theorem openShotAgrees_formatDuringWrite : OpenShotAgrees formatDuringWrite := by
  refine ⟨by decide +kernel, nofun, ?_⟩
  rw [residents_formatDuringWrite]
  decide +kernel

theorem indexAgrees_formatDuringWrite : IndexAgrees formatDuringWrite := by
  refine ⟨by decide +kernel, ?_, ?_⟩
  · rw [residents_formatDuringWrite]
    decide +kernel
  · unfold Unmounted
    decide +kernel

/-- Refutes O60: an accepted format empties the index at once and leaves the record of the entry write in flight to the
answer on the bus; where that record is HELD and ON_CARD it is then ON_CARD and not in the index. The laws assumed of the
state do not exclude this, for none of them speaks of the work in flight. -/
theorem not_stepKeepsIndexAgrees : ¬ Obligations.StepKeepsIndexAgrees := by
  intro h
  obtain ⟨_, hrecords, _⟩ := h formatDuringWrite formatted shotNumbersAgree_formatDuringWrite
    openShotAgrees_formatDuringWrite indexAgrees_formatDuringWrite step_formatDuringWrite
  obtain ⟨_, _, hindex, _⟩ := hrecords heldOnCard heldOnCard_mem_formatted
  obtain ⟨x, hx, _⟩ := hindex (Or.inl rfl) rfl
  rw [formatted_index] at hx
  cases hx

end Sys2Proof.ShotTable
end

section
namespace Sys2Proof.ShotTable
open Sys2Proof.Machine

/-! ### A retirement beside two records of one number -/

/-- A HELD record of a number, a dark link and exposures. -/
def heldWith (n : Nat) (link : DarkLink) (exposures : List ExpEntry) : Record :=
  { number := n, former := none, life := .held, rollSlot := none, label := List.replicate 16 0#8, frame := 1,
    kind := .single, exposures := exposures, takenAt := none, recipe := 0, darkLink := link,
    darkAttempts := 0, rawCard := .unwritten, catSlot := none, rawRuns := [], devFile := none,
    devPending := none, rating := 0, protect := false, dirty := false, rawPlane := none,
    rawSize := (0, 0), retireTag := none }

/-- A READY dark entry of 1000 microseconds, with its reuse age. -/
def readyEntry (plane reuseAge : Nat) : DarkEntry :=
  { state := .ready 0 0#48 plane, duration := 1000, plannedBand := 0, reuseAge := reuseAge }

/-- One DONE exposure of 500 microseconds. -/
def doneExposure : ExpEntry := { index := 1, status := .done, duration := some 500, temperature := some 0 }

/-- Shot 1, to be retired, and another shot are LINKED to the READY entry 0; the other carries the number 2 of a shot that
is AWAITING. Shot 1 has the RUNNING request of entry 1, whose expiry instant has passed. -/
def twoOfOneNumber : State :=
  { State.reset with
    part := .running
    table := { Table.reset with
      slots := [.inUse (heldWith 1 (.linked 0) []), .inUse (heldWith 2 .awaiting [doneExposure]),
        .inUse (heldWith 2 (.linked 0) []), .inUse (heldWith 3 .awaiting [])]
      counter := 4 }
    dark := { entries := [readyEntry 0 600, readyEntry 1 0], plan := [] }
    pau := [
      { op := .applyDark 1, shot := 1, source := 1, destination := 2, resume := 0, running := true, scale := 1 }] }

/-- The state after the SHOT_RETIRE of shot 1. -/
def afterRetire : State :=
  match exec (.shotRetire 0 1) twoOfOneNumber with
  | .next t => t
  | _ => twoOfOneNumber

theorem exec_twoOfOneNumber : exec (.shotRetire 0 1) twoOfOneNumber = .next afterRetire := rfl

theorem findRecord_twoOfOneNumber :
    findRecord twoOfOneNumber 1 = some (heldWith 1 (.linked 0) []) := by decide +kernel

/-- The entry has been reclaimed and planned anew. -/
theorem afterRetire_entry : afterRetire.dark.entries[0]? ≠ some (readyEntry 0 600) := by decide +kernel

theorem not_entryLeft_afterRetire :
    ¬ EntryLeft twoOfOneNumber afterRetire (heldWith 1 (.linked 0) []) := by
  intro h
  obtain ⟨hkept, _⟩ := h 0 (readyEntry 0 600) rfl rfl
  exact afterRetire_entry (hkept
    (Or.inr ⟨nofun, heldWith 2 (.linked 0) [], by decide +kernel, by decide, rfl⟩) nofun)

/-- Refutes O48: nothing assumed of the state excludes two records of one number, and a matching pass that the retirement
brings about (R109) then links both when it links the one that is AWAITING. The entry that the other was LINKED to has
lost its last link, and the same pass reclaims it, where R109 would have it stay. -/
theorem not_requestsOnResidentShot : ¬ Obligations.RequestsOnResidentShot := by
  intro h
  have hretire := (h.2 0 1 (heldWith 1 (.linked 0) []) twoOfOneNumber (by decide +kernel) (by decide)
    findRecord_twoOfOneNumber)
  obtain ⟨_, _, _, _, _, _, _, hretire⟩ := hretire
  obtain ⟨t, ht, _, _, _, _, _, _, _, hentry, _⟩ := hretire rfl (Or.inl rfl) (by simp [OnCardSide, heldWith])
  rw [exec_twoOfOneNumber] at ht
  cases ht
  exact not_entryLeft_afterRetire hentry

end Sys2Proof.ShotTable
end

section
namespace Sys2Proof.ShotTable
open Sys2Proof.Machine

/-! ### What RESTART makes of a record -/

theorem noneDone_iff (r : Record) : NoneDone r ↔ exposureCount r = 0 := by
  simp [NoneDone, exposureCount, doneEntries, List.length_eq_zero_iff]

theorem doneEntries_cutOff (k : Nat) (r : Record) :
    doneEntries (r.setEntry k ExpEntry.cutOff) = doneEntries r := by
  have key : ∀ (l : List ExpEntry) (i : Nat), (l.modify i ExpEntry.cutOff).filter (fun e => e.status == .done) =
      l.filter fun e => e.status == .done := by
    intro l
    induction l with
    | nil => intro i; simp
    | cons e l ih =>
      intro i
      cases i with
      | zero => cases hs : e.status <;> simp [ExpEntry.cutOff, hs]
      | succ i => simp [List.filter_cons, ih]
  exact key r.exposures (k - 1)

theorem longestDuration_cutOff (k : Nat) (r : Record) :
    longestDuration (r.setEntry k ExpEntry.cutOff) = longestDuration r := by
  unfold longestDuration longestEntry
  rw [doneEntries_cutOff]

theorem policyLink_notLinked (p : DarkPolicy) (d e : Nat) : policyLink p d ≠ .linked e := by
  cases p <;> simp only [policyLink] <;> repeat' split
  all_goals simp

theorem linkByPolicy_policyLink (p : DarkPolicy) (d : Nat) : LinkByPolicy p d (policyLink p d) := by
  cases p with
  | always => exact .inl rfl
  | never => rfl
  | above threshold =>
    constructor
    · intro h
      simp [policyLink, h]
    · intro h
      simp [policyLink, Nat.not_lt.2 h]

/-- The OPEN record as the sequencer's RESTART work leaves it. -/
def cutShort (s : State) (r : Record) : Record := finishedRecord s (r.setEntry s.seq.k ExpEntry.cutOff)

/-- No roll gives the record a link, or the roll's policy gives it. -/
theorem cutShort_link (s : State) (r : Record) :
    (rollOf s r = none ∧ (cutShort s r).darkLink = r.darkLink) ∨
    ∃ roll, rollOf s r = some roll ∧
      (cutShort s r).darkLink = policyLink roll.darkPolicy ((longestDuration r).getD 0) := by
  have h : rollOf s (r.setEntry s.seq.k ExpEntry.cutOff) = rollOf s r := rfl
  unfold cutShort finishedRecord
  dsimp only
  rw [h, longestDuration_cutOff]
  cases hr : rollOf s r with
  | none => exact .inl ⟨rfl, rfl⟩
  | some roll => exact .inr ⟨roll, rfl, rfl⟩

theorem rollOf_eq {s : State} {r : Record} {i : Nat} {m : RollSlot} (hi : r.rollSlot = some i)
    (hm : s.rolls.slots[i]? = some m) : rollOf s r = m.roll? := by
  simp [rollOf, rollAt, hi, hm]

/-- A failed link changes no field but the link and its attempts. -/
theorem failIn_fields (l : List Nat) (r : Record) :
    r.failIn l = { r with darkLink := (r.failIn l).darkLink, darkAttempts := (r.failIn l).darkAttempts } := by
  unfold Record.failIn
  repeat' split
  all_goals rfl

theorem cutShort_failIn_finishedShort (s : State) (r : Record) :
    FinishedShort s r ((cutShort s r).failIn (abandonedEntries s)) := by
  generalize hy : (cutShort s r).failIn (abandonedEntries s) = y
  have hfields := failIn_fields (abandonedEntries s) (cutShort s r)
  rw [hy] at hfields
  have hexp : y.exposures = r.exposures.modify (s.seq.k - 1) ExpEntry.cutOff := by rw [hfields]; rfl
  refine ⟨by rw [hfields]; rfl, by rw [hexp, List.length_modify], ?_, ?_⟩
  · intro k e he
    rw [hexp, List.getElem?_modify, he]
    by_cases hk : s.seq.k - 1 = k
    · cases hs : e.status <;> simp [hk, ExpEntry.cutOff, hs]
    · simp [hk, Ne.symm hk]
  · intro i m roll d hi hm hroll hd
    have hof : rollOf s r = some roll := (rollOf_eq hi hm).trans hroll
    rcases cutShort_link s r with ⟨h, _⟩ | ⟨x, h, hlink⟩
    · rw [hof] at h
      cases h
    · obtain rfl : roll = x := Option.some.inj (hof.symm.trans h)
      rw [hd, Option.getD_some] at hlink
      have hstays : y = cutShort s r := by
        rw [← hy]
        unfold Record.failIn
        split
        · next e he => exact absurd (hlink.symm.trans he) (policyLink_notLinked _ _ _)
        · rfl
      rw [hstays, hlink]
      exact ⟨rfl, linkByPolicy_policyLink _ _, policyLink_notLinked _ _⟩

theorem failIn_linkAfterRestart {s : State} {r y : Record}
    (hl : y.darkLink = (r.failIn (abandonedEntries s)).darkLink)
    (ha : y.darkAttempts = (r.failIn (abandonedEntries s)).darkAttempts) : LinkAfterRestart s r y := by
  rw [LinkAfterRestart, hl, ha]
  constructor
  · intro e he habandoned
    have hmem : (abandonedEntries s).contains e = true :=
      List.contains_iff_mem.2 (mem_abandonedEntries.2 habandoned)
    have hf : r.failIn (abandonedEntries s) = r.failDark := by
      unfold Record.failIn
      rw [he]
      exact if_pos hmem
    rw [hf]
    exact ⟨rfl, rfl⟩
  · intro hready
    have hf : r.failIn (abandonedEntries s) = r := by
      unfold Record.failIn
      split
      · next e he =>
        refine if_neg fun hc => ?_
        obtain ⟨x, band, taken, p, hx, hstate⟩ := hready e he
        obtain ⟨x', hx', hab⟩ := mem_abandonedEntries.1 (List.contains_iff_mem.1 hc)
        obtain rfl : x = x' := Option.some.inj (hx.symm.trans hx')
        rw [hstate] at hab
        rcases hab with hab | ⟨_, hab⟩ <;> cases hab
      · rfl
    rw [hf]
    exact ⟨rfl, rfl⟩

theorem settledByRestart_iff (s : State) (r : Record) :
    SettledByRestart s r ↔ (runningJob s).map (·.shot) = some r.number ∧ r.life = .held ∧ r.rawCard = .onCard := by
  unfold SettledByRestart runningJob
  rw [Option.map_eq_some_iff]
  tauto

/-- A slot whose record is not OPEN at RESTART. -/
theorem restarted_notOpen {s : State} {r : Record} (h : r.life ≠ .opened) :
    RecordSlot.restarted s (.inUse r) =
      RecordSlot.cardRestarted (.inUse ((r.failIn (abandonedEntries s)).settledBy ((runningJob s).map (·.shot)))) := by
  simp [RecordSlot.restarted, RecordSlot.settled, RecordSlot.mapEach, h]

/-- A slot whose record is OPEN at RESTART, with a DONE exposure. -/
theorem restarted_open {s : State} {r : Record} (h : r.life = .opened) (hc : exposureCount r ≠ 0)
    (hu : r.rawCard = .unwritten) :
    RecordSlot.restarted s (.inUse r) = .inUse ((cutShort s r).failIn (abandonedEntries s)) := by
  generalize hy : (cutShort s r).failIn (abandonedEntries s) = y
  have hfields := failIn_fields (abandonedEntries s) (cutShort s r)
  rw [hy] at hfields
  have hlife : y.life = .held := by rw [hfields]; rfl
  have hraw : y.rawCard = .unwritten := by rw [hfields]; exact hu
  have hslot : RecordSlot.restarted s (.inUse r) =
      RecordSlot.cardRestarted (.inUse (y.settledBy ((runningJob s).map (·.shot)))) := by
    simp only [RecordSlot.restarted, RecordSlot.settled, RecordSlot.mapEach, if_pos h, if_neg hc]
    rw [← hy]
    rfl
  rw [hslot]
  simp [Record.settledBy, RecordSlot.cardRestarted, Record.dropsAtRestart, Record.heldOnWay, hlife, hraw]

/-- A record taken at RESTART leaves its slot FREE (R27, R85, R160). -/
theorem restarted_of_gone {s : State} {r : Record} (h : GoneByRestart s r) :
    RecordSlot.restarted s (.inUse r) = .free := by
  have hfields := failIn_fields (abandonedEntries s) r
  rcases h with h | (h | h) | ⟨h, hnone⟩
  · have hlife : (r.failIn (abandonedEntries s)).life = .retiring := by rw [hfields]; exact h
    rw [restarted_notOpen (by rw [h]; decide)]
    simp [Record.settledBy, RecordSlot.cardRestarted, Record.dropsAtRestart, hlife]
  · have hlife : (r.failIn (abandonedEntries s)).life = .settled := by rw [hfields]; exact h
    rw [restarted_notOpen (by rw [h]; decide)]
    simp [Record.settledBy, RecordSlot.cardRestarted, Record.dropsAtRestart, hlife]
  · obtain ⟨hjob, hheld, hcard⟩ := (settledByRestart_iff s r).1 h
    have hsettled : (r.failIn (abandonedEntries s)).settledBy ((runningJob s).map (·.shot)) =
        { r.failIn (abandonedEntries s) with life := .settled, rawPlane := none } := by
      unfold Record.settledBy
      rw [if_pos]
      rw [hfields]
      exact ⟨hjob, hheld, hcard⟩
    rw [restarted_notOpen (by rw [hheld]; decide), hsettled]
    simp [RecordSlot.cardRestarted, Record.dropsAtRestart]
  · simp [RecordSlot.restarted, RecordSlot.settled, h, (noneDone_iff r).1 hnone, RecordSlot.mapEach,
      RecordSlot.cardRestarted]

/-- A HELD or VOID record that RESTART does not settle: the links of abandoned entries fail, and a HELD one is UNWRITTEN. -/
theorem restarted_stays {s : State} {r : Record} (hlife : r.life = .held ∨ r.life = .void)
    (hns : ¬ SettledByRestart s r) :
    RecordSlot.restarted s (.inUse r) =
      .inUse (if r.heldOnWay then (r.failIn (abandonedEntries s)).unwrite else r.failIn (abandonedEntries s)) := by
  have hfields := failIn_fields (abandonedEntries s) r
  have hsame : (r.failIn (abandonedEntries s)).settledBy ((runningJob s).map (·.shot)) =
      r.failIn (abandonedEntries s) := by
    unfold Record.settledBy
    rw [if_neg]
    rw [hfields]
    exact fun h => hns ((settledByRestart_iff s r).2 h)
  have hway : (r.failIn (abandonedEntries s)).heldOnWay = r.heldOnWay := by rw [hfields]; rfl
  have hdrop : (r.failIn (abandonedEntries s)).dropsAtRestart = false := by
    rw [hfields]
    rcases hlife with h | h <;> simp [Record.dropsAtRestart, h]
  rw [restarted_notOpen (by rcases hlife with h | h <;> rw [h] <;> decide), hsame]
  simp only [RecordSlot.cardRestarted, hdrop, hway, Bool.false_eq_true, if_false]

theorem restarted_of_not_gone {s : State} (hlinks : DarkLinksAgree s) {r : Record} (hr : r ∈ residents s)
    (h : ¬ GoneByRestart s r) : ∃ y, RecordSlot.restarted s (.inUse r) = .inUse y ∧ StaysOverRestart s r y := by
  have hfields := failIn_fields (abandonedEntries s) r
  simp only [GoneByRestart, DroppedByRestart, not_or, not_and] at h
  obtain ⟨hretiring, ⟨hsettled, hns⟩, hopen⟩ := h
  have hstays : r.life = .held ∨ r.life = .void → ∃ y, RecordSlot.restarted s (.inUse r) = .inUse y ∧
      StaysOverRestart s r y := by
    intro hlife
    refine ⟨_, restarted_stays hlife hns, fun e => ?_, fun _ => ?_, fun hkeep => ?_, fun hheld hway => ?_⟩
    · rcases hlife with hlife | hlife <;> rw [e] at hlife <;> cases hlife
    · refine failIn_linkAfterRestart ?_ ?_ <;> split <;> rfl
    · have hno : r.heldOnWay = false := by rcases hkeep with h | ⟨h, h'⟩ <;> simp [Record.heldOnWay, *]
      rw [hno, if_neg Bool.false_ne_true]
      exact hfields
    · have hyes : r.heldOnWay = true := by simp [Record.heldOnWay, hheld, hway]
      rw [hyes, if_pos rfl, hfields]
      rfl
  cases hlife : r.life with
  | opened =>
    have hc : exposureCount r ≠ 0 := fun e => hopen hlife ((noneDone_iff r).2 e)
    refine ⟨_, restarted_open hlife hc ((hlinks r hr).2 hlife), fun _ => cutShort_failIn_finishedShort s r,
      fun e => absurd hlife e, fun e => ?_, fun e => ?_⟩
    · rcases e with e | ⟨e, _⟩ <;> rw [hlife] at e <;> cases e
    · rw [hlife] at e
      cases e
  | held => exact hstays (.inl hlife)
  | void => exact hstays (.inr hlife)
  | settled => exact absurd hlife hsettled
  | retiring => exact absurd hlife hretiring

/-! ### What RESTART leaves -/

theorem holdTag_restartedPart_follows (tag : Nat) (s : State) :
    RunningFollows s (restartedPart tag (holdTag tag s)) (restartPart tag (holdTag tag s)) := by
  have heq := restartPart_eq tag (holdTag tag s)
  refine ⟨(restartedPart_blocks tag (holdTag tag s)).2.2.2.2.2.1, fun hb => ?_, fun hb => ?_⟩
  · rw [heq, if_neg]
    rw [Option.isNone_iff_eq_none]
    exact Option.isSome_iff_ne_none.1 hb
  · rw [heq, if_pos]
    exact Option.isNone_iff_eq_none.2 hb

/-- The end of RESTARTING changes neither the rolls nor the places of the records. -/
theorem restartPart_places (tag : Nat) (s : State) :
    (restartPart tag s).rolls = (restartedPart tag s).rolls ∧
    (restartPart tag s).table.useOrder = (restartedPart tag s).table.useOrder ∧
    (restartPart tag s).table.amended = (restartedPart tag s).table.amended := by
  rw [restartPart_eq]
  split
  · next hbus =>
    have hnone : s.card.bus = none := by simpa using hbus
    have hcard := restartedPart_card tag s
    have hqueue : (restartedPart tag s).dev.queue = [] := by
      rw [(restartedPart_blocks tag s).2.2.2.2.2.2.1]
    have hquiet : CardQuiet (restartedPart tag s) := by
      unfold CardQuiet
      rw [hcard, hnone]
      cases s.card.detect.accepted <;> simp
    have hstate : (restartedPart tag s).card.state ≠ .ejecting := by
      rw [hcard]
      cases s.card.detect.accepted <;> simp
    obtain ⟨horder, hamended, _⟩ :=
      enterRunning_quiet hquiet hqueue (restartedPart_claim tag s).1 hstate
    exact ⟨by simp, horder, hamended⟩
  · exact ⟨rfl, rfl, rfl⟩

/-- Of a number that is on the amendment list after RESTART no record was taken, and none was on its way to the card
(R16, R160). -/
theorem restart_amended {s : State} (hd : NumbersDistinct s) (ho : OpenShotAgrees s)
    {a : AmendPlace} (ha : a ∈ (restartCard (beforeStores s)).table.amended) {r : Record} (hr : r ∈ residents s)
    (hn : r.number = a.shot) : ¬ GoneByRestart s r ∧ ¬ (r.life = .held ∧ r.rawCard ≠ .unwritten) := by
  obtain ⟨hslots, hfollows⟩ := restart_slots hd ho
  obtain ⟨i, hi⟩ := mem_residents.1 hr
  have hat : (restartCard (beforeStores s)).table.slots[i]? = some (RecordSlot.restarted s (.inUse r)) := by
    rw [hslots, List.getElem?_map, hi]
    rfl
  have hgone : ¬ GoneByRestart s r := by
    intro hg
    rw [restarted_of_gone hg] at hat
    rcases hfollows.record i r hi with ⟨_, _, hno⟩ | ⟨y, hy, _⟩
    · exact hno a ha hn.symm
    · rw [hat] at hy
      cases hy
  refine ⟨hgone, fun ⟨hheld, hway⟩ => ?_⟩
  have hns : ¬ SettledByRestart s r := fun h => hgone (.inr (.inl (.inr h)))
  obtain ⟨x, b, c, hst⟩ := restart_stages hd ho
  have hbefore : (beforeStores s).table.slots[i]? = some (.inUse (r.failIn (abandonedEntries s))) := by
    have e1 : abandonedEntries x = abandonedEntries s := by
      unfold abandonedEntries darkEntry
      rw [hst.aDark]
    have e2 : runningJob b = runningJob s := by
      unfold runningJob
      rw [hst.bQueue]
    have e4 : (stopPau s).table = s.table := by simp
    have hopen : r.life ≠ .opened := by rw [hheld]; decide
    have hsame : (r.failIn (abandonedEntries s)).settledBy ((runningJob s).map (·.shot)) =
        r.failIn (abandonedEntries s) := by
      unfold Record.settledBy
      rw [if_neg]
      rw [failIn_fields (abandonedEntries s) r]
      exact fun h => hns ((settledByRestart_iff s r).2 h)
    rw [hst.before.1, hst.dev.slots, hst.dark.slots, hst.sequencer.slots, e1, e2, e4]
    simp only [List.getElem?_map, hi, Option.map_some, RecordSlot.settled, if_neg hopen, RecordSlot.mapEach, hsame]
  refine hst.store.amended a ha _ (mem_residents.2 ⟨i, hbefore⟩) (.inr ?_) ?_
  · rw [failIn_fields (abandonedEntries s) r]
    simp [Record.heldOnWay, hheld, hway]
  · rw [failIn_number]
    exact hn.symm

/-- The rolls after RESTART: the current roll has the frame of a removed OPEN shot back, and nothing else changes
(R31, R85). -/
theorem restart_rolls {s : State} (hd : NumbersDistinct s) (ho : OpenShotAgrees s) :
    (∀ (r : Record) (i : Nat) (roll : Roll), r ∈ residents s → r.life = .opened → NoneDone r →
      s.rolls.current = some i → s.rolls.slots[i]? = some (.opened roll) →
      (restartBlocks s).rolls = { s.rolls with
        slots := s.rolls.slots.set i (.opened { roll with nextFrame := roll.nextFrame - 1 }) }) ∧
    ((∀ r ∈ residents s, r.life = .opened → ¬ NoneDone r) → (restartBlocks s).rolls = s.rolls) := by
  obtain ⟨a, b, c, hst⟩ := restart_stages hd ho
  have hres : residents (stopPau s) = residents s := residents_congr (by simp)
  have hrolls : (stopPau s).rolls = s.rolls := by simp
  rw [hst.ends.2.1]
  constructor
  · intro r i roll hr hlife hnone hc hi
    have h := hst.sequencer.gave r i roll ⟨hres ▸ hr, hlife, (noneDone_iff r).1 hnone⟩ (by rw [hrolls]; exact hc)
      (by rw [hrolls]; exact hi)
    rw [h, hrolls]
  · intro hno
    have h := hst.sequencer.kept fun r hr => hno r (hres ▸ hr.1) hr.2.1 ((noneDone_iff r).2 hr.2.2)
    rw [h, hrolls]

/-- Settles O54: the state that the RESTART work leaves before RESTARTING ends is the one the rules speak of; each slot in
it is the image of the slot before under the stages of RESTART. -/
theorem restartSettlesTheRecords : Obligations.RestartSettlesTheRecords := by
  intro tag s hcan hlaws
  obtain ⟨_, _, hnumbers, hopen, _, _, hlinks, _⟩ := hlaws
  obtain ⟨hd, ho, hl⟩ : NumbersDistinct (holdTag tag s) ∧ OpenShotAgrees (holdTag tag s) ∧
      DarkLinksAgree (holdTag tag s) := ⟨hnumbers.2.2.1, hopen, hlinks⟩
  obtain ⟨htable, _, _, hrolls, _⟩ := restartedPart_blocks tag (holdTag tag s)
  obtain ⟨hslots, hfollows⟩ := restart_slots hd ho
  obtain ⟨hgave, hkept⟩ := restart_rolls hd ho
  obtain ⟨hpr, hpo, hpa⟩ := restartPart_places tag (holdTag tag s)
  refine ⟨restartedPart tag (holdTag tag s), restartPart tag (holdTag tag s), ?_,
    holdTag_restartedPart_follows tag s, hpr, hpo, hpa, ?_⟩
  · change Host.Outcome.next (takeRequest tag false (restartPart tag) s) = _
    rw [takeRequest_taken false _ hcan]
  have hget : ∀ (i : Nat) (x : RecordSlot), s.table.slots[i]? = some x →
      (restartCard (beforeStores (holdTag tag s))).table.slots[i]? = some (RecordSlot.restarted (holdTag tag s) x) := by
    intro i x hi
    rw [hslots, List.getElem?_map, show (holdTag tag s).table.slots[i]? = some x from hi]
    rfl
  rw [htable, hrolls]
  refine ⟨by rw [hslots, List.length_map]; rfl, fun i hi => hget i _ hi, fun i n ws hi => hget i _ hi,
    fun i r hi => ⟨fun hg => ?_, fun hg => ?_⟩, hfollows.order, hfollows.amended,
    fun a ha r hr hn => restart_amended hd ho ha hr hn, hgave, hkept⟩
  · have hat := (hget i _ hi).trans (congrArg some (restarted_of_gone (s := holdTag tag s) hg))
    refine ⟨hat, ?_⟩
    rcases hfollows.record i r hi with ⟨_, hout, _⟩ | ⟨y, hy, _⟩
    · exact hout
    · rw [hat] at hy
      cases hy
  · obtain ⟨y, hy, hstays⟩ := restarted_of_not_gone hl (mem_residents.2 ⟨i, hi⟩) (r := r) hg
    have hat := (hget i _ hi).trans (congrArg some hy)
    refine ⟨?_, y, hat, hstays⟩
    rcases hfollows.record i r hi with ⟨hfree, _⟩ | ⟨_, _, _, horder⟩
    · rw [hat] at hfree
      cases hfree
    · exact horder

end Sys2Proof.ShotTable
end

section
namespace Sys2Proof.ShotTable
open Sys2Proof.Machine

/-! ### The slot of a number -/

/-- Two slots that carry one number are the same slot (R22). -/
theorem slot_unique {s : State} (h : NumbersDistinct s) {i j m : Nat} {x y : RecordSlot}
    (hi : s.table.slots[i]? = some x) (hj : s.table.slots[j]? = some y) (hx : x.number? = some m)
    (hy : y.number? = some m) : i = j := by
  have hp : s.table.slots.Pairwise fun a b => ∀ n ∈ a.number?, ∀ n' ∈ b.number?, n ≠ n' :=
    List.pairwise_filterMap.1 h
  rw [List.pairwise_iff_getElem] at hp
  obtain ⟨hil, rfl⟩ := List.getElem?_eq_some_iff.1 hi
  obtain ⟨hjl, rfl⟩ := List.getElem?_eq_some_iff.1 hj
  rcases Nat.lt_trichotomy i j with hlt | heq | hlt
  · exact absurd rfl (hp i j hil hjl hlt m hx m hy)
  · exact heq
  · exact absurd rfl (hp j i hjl hil hlt m hy m hx)

/-! ### The slot a claim is met with (R2, R4, R5) -/

theorem evictable_iff (s : State) (r : Record) : evictable s r = true ↔ Evictable s r := by
  simp only [evictable, Evictable, pauNames, Bool.and_eq_true, beq_iff_eq, Bool.not_eq_true', List.any_eq_false,
    Option.isNone_iff_eq_none]
  tauto

/-- A slot is evictable when the record in it is. -/
theorem slotEvictable_iff (s : State) (i : Nat) :
    slotEvictable s i = true ↔ ∃ r, s.table.slots[i]? = some (.inUse r) ∧ Evictable s r := by
  unfold slotEvictable
  rw [List.getD_eq_getElem?_getD]
  cases hx : s.table.slots[i]? with
  | none => simp [RecordSlot.record?]
  | some x => cases x <;> simp [RecordSlot.record?, evictable_iff]

theorem findIdx?_eq_of_lowestAt {α : Type} [DecidableEq α] {l : List α} {x : α} {i : Nat} (h : LowestAt l x i) :
    l.findIdx? (· == x) = some i := by
  obtain ⟨hi, hlow⟩ := h
  obtain ⟨hlt, rfl⟩ := List.getElem?_eq_some_iff.1 hi
  refine List.findIdx?_eq_some_iff_getElem.2 ⟨hlt, by simp, fun j hj => ?_⟩
  have hne := hlow j hj
  rw [List.getElem?_eq_getElem (by omega)] at hne
  simpa using hne

theorem findIdx?_free_none {s : State} (h : RecordSlot.free ∉ s.table.slots) :
    s.table.slots.findIdx? (· == .free) = none := by
  rw [List.findIdx?_eq_none_iff]
  intro x hx
  simp only [beq_eq_false_iff_ne]
  rintro rfl
  exact h hx

theorem slotToClaim_free {s : State} {i : Nat} (h : LowestAt s.table.slots .free i) : slotToClaim s = some i := by
  unfold slotToClaim
  rw [findIdx?_eq_of_lowestAt h]

theorem slotToClaim_isSome_of_free {s : State} (h : RecordSlot.free ∈ s.table.slots) :
    ∃ i, slotToClaim s = some i ∧ s.table.slots[i]? = some .free := by
  unfold slotToClaim
  cases hf : s.table.slots.findIdx? (· == .free) with
  | none =>
    rw [List.findIdx?_eq_none_iff] at hf
    simpa using hf _ h
  | some i =>
    obtain ⟨hlt, hi, _⟩ := List.findIdx?_eq_some_iff_getElem.1 hf
    exact ⟨i, rfl, by rw [List.getElem?_eq_getElem hlt]; simpa using hi⟩

theorem slotToClaim_none {s : State} (h : NoSlot s) : slotToClaim s = none := by
  unfold slotToClaim
  rw [findIdx?_free_none h.1]
  refine List.find?_eq_none.2 fun i hi he => ?_
  obtain ⟨r, hr, hev⟩ := (slotEvictable_iff s i).1 he
  exact h.2 i hi r hr hev

/-- With no FREE slot the least recently used evictable record gives up its slot. -/
theorem slotToClaim_evict {s : State} {older newer : List Nat} {i : Nat} {r : Record}
    (hfree : RecordSlot.free ∉ s.table.slots) (horder : s.table.useOrder = older ++ i :: newer)
    (hi : s.table.slots[i]? = some (.inUse r)) (hev : Evictable s r)
    (hold : ∀ j ∈ older, ∀ y, s.table.slots[j]? = some (.inUse y) → ¬ Evictable s y) :
    slotToClaim s = some i := by
  unfold slotToClaim
  rw [findIdx?_free_none hfree]
  dsimp only
  have hnone : older.find? (slotEvictable s) = none := by
    refine List.find?_eq_none.2 fun j hj he => ?_
    obtain ⟨y, hy, hey⟩ := (slotEvictable_iff s j).1 he
    exact hold j hj y hy hey
  rw [horder, List.find?_append, hnone, List.find?_cons_of_pos ((slotEvictable_iff s i).2 ⟨r, hi, hev⟩)]
  rfl

/-- The slot claimed is FREE, or the record in it is evictable. -/
theorem slotToClaim_some {s : State} {i : Nat} (h : slotToClaim s = some i) :
    s.table.slots[i]? = some .free ∨ ∃ r, s.table.slots[i]? = some (.inUse r) ∧ Evictable s r := by
  unfold slotToClaim at h
  split at h
  · next j hj =>
    cases h
    obtain ⟨hlt, hi, _⟩ := List.findIdx?_eq_some_iff_getElem.1 hj
    exact .inl (by rw [List.getElem?_eq_getElem hlt]; simpa using hi)
  · exact .inr ((slotEvictable_iff s i).1 (List.find?_some h))

theorem evictSlot_free {s : State} {i : Nat} (h : s.table.slots[i]? = some .free) : evictSlot i s = s := by
  unfold evictSlot
  rw [List.getD_eq_getElem?_getD, h]
  rfl

/-- An eviction frees its slot, which leaves the use order, and changes nothing else of the table. -/
theorem evictSlot_table {s : State} {i : Nat} {r : Record} (h : s.table.slots[i]? = some (.inUse r)) :
    (evictSlot i s).table =
      { s.table with slots := s.table.slots.set i .free, useOrder := s.table.useOrder.filter (· != i) } := by
  unfold evictSlot
  rw [List.getD_eq_getElem?_getD, h]
  rfl

/-- The slots when slot `i` has been claimed and set. -/
theorem evictSlot_set_slots (s : State) (i : Nat) (x : RecordSlot) :
    (evictSlot i s).table.slots.set i x = s.table.slots.set i x := by
  unfold evictSlot
  split
  · rfl
  · exact List.set_set _

theorem evictSlot_counter_eq (i : Nat) (s : State) : (evictSlot i s).table.counter = s.table.counter := by
  unfold evictSlot
  split <;> rfl

end Sys2Proof.ShotTable
end

section
namespace Sys2Proof.ShotTable
open Sys2Proof.Machine

/-! ### Reads and loads after a request -/

/-- No read leaves the read queue. -/
abbrev ReadsStay (s t : State) : Prop := s.card.reads ⊆ t.card.reads

theorem readsStay_of_card {s t : State} (h : t.card = s.card) : ReadsStay s t := by
  unfold ReadsStay
  rw [h]
  exact List.Subset.refl _

@[simp] theorem kick_reads (s : State) : (kick s).card.reads = s.card.reads := by
  unfold kick
  split <;> rfl

/-- A read that is chosen stays in the read queue until it ends (R149). -/
@[simp] theorem takeChoice_reads (c : Choice) (s : State) : (takeChoice c s).card.reads = s.card.reads := by
  have hfail : ∀ n (u : State), (allocationFailed n u).card.reads = u.card.reads := by
    intro n u
    unfold allocationFailed
    dsimp only
    split <;> rfl
  cases c with
  | read r => cases r <;> rfl
  | entry e => cases e <;> rfl
  | developed h =>
    simp only [takeChoice, startDeveloped]
    split
    · exact hfail _ _
    · rfl
  | raw r =>
    simp only [takeChoice, startRaw]
    split
    · rfl
    · exact hfail _ _
  | dirty n => rfl

@[simp] theorem chooseWork_reads (fuel : Nat) (s : State) : (chooseWork fuel s).card.reads = s.card.reads := by
  induction fuel generalizing s with
  | zero => rfl
  | succ fuel ih =>
    unfold chooseWork
    split
    · rw [ih, takeChoice_reads]
    · rfl

@[simp] theorem startCardWork_reads (s : State) : (startCardWork s).card.reads = s.card.reads := by
  unfold startCardWork
  split <;> simp

theorem readsStay_dispatchJob (j : Job) (r : Record) (s : State) : ReadsStay s (dispatchJob j r s) := by
  have hcard : ∀ (x y slot : Option Nat) (u : State),
      ((slot.map fillSlot).getD id (claimPlane x .devFetch (claimPlane y .devOutput u))).card = u.card := by
    intro x y slot u
    cases slot <;> simp
  unfold dispatchJob
  dsimp only
  split
  · exact fun x hx => List.mem_append_left _ (by simpa [hcard] using hx)
  · exact readsStay_of_card (by simp [hcard])

theorem readsStay_serveBlocks (s : State) : ReadsStay s (serveBlocks s) := by
  have h1 : (serveDarkClaim s).card = s.card := by simp
  have h2 : ReadsStay (serveDarkClaim s) (attemptDispatch (serveDarkClaim s)) := by
    unfold attemptDispatch
    repeat' split
    · exact readsStay_of_card rfl
    · exact List.Subset.refl _
    · next j _ _ r _ => exact readsStay_dispatchJob j r _
    · exact readsStay_of_card (by simp)
  unfold ReadsStay serveBlocks
  simp only [claimForDark_keeps, startCardWork_reads]
  rw [← h1]
  exact h2

/-! ### A request for an absent shot (R18) -/

theorem findRecord_none {s : State} {n : Nat} (h : ∀ r ∈ residents s, r.number ≠ n) : findRecord s n = none :=
  List.find?_eq_none.2 fun r hr => by simpa using h r hr

theorem loadingFor_eq_false {s : State} {n : Nat} (h : ∀ ws, RecordSlot.loading n ws ∉ s.table.slots) :
    loadingFor s n = false := by
  unfold loadingFor
  rw [List.any_eq_false]
  intro x hx
  cases x with
  | loading m ws =>
    simp only [RecordSlot.loads, beq_iff_eq]
    rintro rfl
    exact h ws hx
  | _ => simp [RecordSlot.loads]

theorem loadingFor_of_slot {s : State} {n i : Nat} {ws : List LoadWaiter}
    (h : s.table.slots[i]? = some (.loading n ws)) : loadingFor s n = true :=
  List.any_eq_true.2 ⟨_, List.mem_of_getElem? h, by simp [RecordSlot.loads]⟩

/-- The index entry of a number that occurs once in the index. -/
theorem indexEntry_eq {s : State} {n : Nat} {x : IndexEntry} (hx : x ∈ s.card.index) (hn : x.shot = n)
    (huniq : ∀ x' ∈ s.card.index, x'.shot = n → x' = x) : indexEntry s n = some x := by
  unfold indexEntry
  cases h : s.card.index.find? (·.shot == n) with
  | none => exact absurd hn (by simpa using List.find?_eq_none.1 h x hx)
  | some y => rw [huniq y (List.mem_of_find?_eq_some h) (by simpa using List.find?_some h)]

section
variable {tag n : Nat} {q : LoadRequest} {s : State}

theorem requestLoad_noCard (h1 : s.card.state ≠ .ready) (h2 : s.card.state ≠ .readOnly) :
    requestLoad tag n q s = answerCode tag .noCard s := by
  unfold requestLoad
  rw [if_pos]
  cases h : s.card.state <;> simp_all [CardState.readable]

theorem readable_ne_false {x : CardState} (h : x = .ready ∨ x = .readOnly) : x.readable ≠ false := by
  rcases h with rfl | rfl <;> decide

theorem requestLoad_notFound (h : s.card.state = .ready ∨ s.card.state = .readOnly)
    (hno : ∀ x ∈ s.card.index, x.shot ≠ n) : requestLoad tag n q s = answerCode tag .notFound s := by
  have hnone : indexEntry s n = none := List.find?_eq_none.2 fun x hx => by simpa using hno x hx
  unfold requestLoad
  rw [if_neg (readable_ne_false h), hnone]

theorem requestLoad_joins (h : s.card.state = .ready ∨ s.card.state = .readOnly)
    (hx : ∃ x ∈ s.card.index, x.shot = n) (hl : loadingFor s n = true) :
    requestLoad tag n q s = joinLoad n { tag, request := q } s := by
  obtain ⟨x, hx, hn⟩ := hx
  unfold requestLoad
  rw [if_neg (readable_ne_false h)]
  cases hi : indexEntry s n with
  | none => exact absurd hn (by simpa using List.find?_eq_none.1 hi x hx)
  | some y => exact if_pos hl

theorem requestLoad_busy (h : s.card.state = .ready ∨ s.card.state = .readOnly)
    (hx : ∃ x ∈ s.card.index, x.shot = n) (hl : loadingFor s n = false) (hfull : 8 ≤ s.card.reads.length) :
    requestLoad tag n q s = answerCode tag .busy s := by
  obtain ⟨x, hx, hn⟩ := hx
  unfold requestLoad
  rw [if_neg (readable_ne_false h)]
  cases hi : indexEntry s n with
  | none => exact absurd hn (by simpa using List.find?_eq_none.1 hi x hx)
  | some y =>
    dsimp only
    rw [hl, if_neg Bool.false_ne_true]
    exact if_pos hfull

theorem requestLoad_tableFull (h : s.card.state = .ready ∨ s.card.state = .readOnly) {x : IndexEntry}
    (hi : indexEntry s n = some x) (hl : loadingFor s n = false) (hroom : s.card.reads.length < 8)
    (hslot : slotToClaim s = none) : requestLoad tag n q s = answerCode tag .tableFull s := by
  unfold requestLoad
  rw [if_neg (readable_ne_false h), hi]
  dsimp only
  rw [hl, if_neg Bool.false_ne_true, hslot]
  exact if_neg (Nat.not_le.2 hroom)

theorem requestLoad_starts (h : s.card.state = .ready ∨ s.card.state = .readOnly) {x : IndexEntry}
    (hi : indexEntry s n = some x) (hl : loadingFor s n = false) (hroom : s.card.reads.length < 8) {i : Nat}
    (hslot : slotToClaim s = some i) :
    requestLoad tag n q s = startLoad i n x.slot { tag, request := q } s := by
  unfold requestLoad
  rw [if_neg (readable_ne_false h), hi]
  dsimp only
  rw [hl, if_neg Bool.false_ne_true, hslot]
  exact if_neg (Nat.not_le.2 hroom)

end

/-- What a load that starts leaves when the work that follows has been done (R18). -/
theorem startLoad_served {s : State} {i n slot : Nat} {w : LoadWaiter} (hi : i < s.table.slots.length)
    (hcard : s.card.state ≠ .ejecting) :
    (service (startLoad i n slot w s)).table.slots[i]? = some (.loading n [w]) ∧
    CardRead.load n slot ∈ (service (startLoad i n slot w s)).card.reads := by
  have hstate : (startLoad i n slot w s).card.state ≠ .ejecting := by simpa [startLoad] using hcard
  rw [service_eq hstate]
  have hslots : (startLoad i n slot w s).table.slots[i]? = some (.loading n [w]) := by
    have h : (startLoad i n slot w s).table.slots = s.table.slots.set i (.loading n [w]) :=
      evictSlot_set_slots s i _
    rw [h, List.getElem?_set_self hi]
  obtain ⟨y, hy, hk⟩ := slotsKept_slot (slotsKept_serveBlocks _) hslots
  refine ⟨by rw [hy, show y = RecordSlot.loading n [w] from hk], ?_⟩
  exact readsStay_serveBlocks _ (List.mem_append_right _ (List.mem_singleton.2 rfl))

/-- The record evicted for a load is gone (R5). -/
theorem startLoad_evicts {s : State} {i n slot : Nat} {w : LoadWaiter} {r : Record}
    (hi : s.table.slots[i]? = some (.inUse r)) (hcard : s.card.state ≠ .ejecting) (hd : NumbersDistinct s) :
    ∀ y ∈ residents (service (startLoad i n slot w s)), y.number ≠ r.number := by
  have hstate : (startLoad i n slot w s).card.state ≠ .ejecting := by simpa [startLoad] using hcard
  rw [service_eq hstate]
  intro y hy hn
  obtain ⟨x, hx, hsame⟩ := slotsKept_record_back (slotsKept_serveBlocks _) hy
  obtain ⟨j, hj⟩ := mem_residents.1 hx
  have h : (startLoad i n slot w s).table.slots = s.table.slots.set i (.loading n [w]) :=
    evictSlot_set_slots s i _
  have hlt := (List.getElem?_eq_some_iff.1 hi).1
  rw [h] at hj
  by_cases hij : i = j
  · subst hij
    rw [List.getElem?_set_self hlt] at hj
    cases hj
  · rw [List.getElem?_set_ne hij] at hj
    have hxn : x.number = r.number := by
      rw [hsame] at hn
      exact hn
    exact hij (slot_unique hd hi hj rfl (congrArg some hxn))

/-- The requests on a shot reach the Shot Table once they are taken. -/
theorem exec_shotRequest {tag n : Nat} {c : Instr} {q : LoadRequest} {s : State} (hcan : CanTake tag s) (hn : n ≠ 0)
    (hc : (c = .shotLookup tag n ∧ q = .lookup) ∨ (c = .shotRetire tag n ∧ q = .retire) ∨
      (∃ ops : AmendOperands, c = .shotAmend tag n ops ∧ q = .amend ops ∧ GivenIn ops.rating 0 5 ∧
        GivenIn ops.protect 0 1 ∧ GivenIn ops.recipe 0 31 ∧
        (ops.rating.isSome ∨ ops.protect.isSome ∨ ops.recipe.isSome ∨ ops.waiveDark = true))) :
    exec c s = .next (service (onShot tag n q (holdTag tag s))) := by
  rcases hc with ⟨rfl, rfl⟩ | ⟨rfl, rfl⟩ | ⟨ops, rfl, rfl, h1, h2, h3, h4⟩
  · change Host.Outcome.next (takeRequest tag false _ s) = _
    rw [takeRequest_taken false _ hcan, if_neg hn]
  · change Host.Outcome.next (takeRequest tag false _ s) = _
    rw [takeRequest_taken false _ hcan, if_neg hn]
  · have hgood : amendGood ops = true := by
      unfold amendGood
      rw [(all_inRange _ _ _).2 h1, (all_inRange _ _ _).2 h2, (all_inRange _ _ _).2 h3]
      simpa [or_assoc] using h4
    change Host.Outcome.next (takeRequest tag false _ s) = _
    rw [takeRequest_taken false _ hcan, if_neg (by simp [hn, hgood])]

/-- Settles O49, by the tests of R18 in their order. -/
theorem absentShotIsLoaded : Obligations.AbsentShotIsLoaded := by
  intro tag n c q s hcan hn hc habsent
  refine ⟨_, exec_shotRequest hcan hn hc, ?_⟩
  have hshot : onShot tag n q (holdTag tag s) = requestLoad tag n q (holdTag tag s) := by
    unfold onShot
    rw [findRecord_none (s := holdTag tag s) habsent]
  rw [hshot]
  refine ⟨fun h1 h2 => ?_, fun hcard => ⟨fun hno => ?_, fun hex => ⟨fun i ws hi => ?_, fun hl hfull => ?_,
    fun x hl hroom hx hxn huniq => ?_⟩⟩⟩
  · rw [requestLoad_noCard (s := holdTag tag s) h1 h2]
    exact answered_service (answered_answer _ _ _ _)
  · rw [requestLoad_notFound (s := holdTag tag s) hcard hno]
    exact answered_service (answered_answer _ _ _ _)
  · have hstate : (joinLoad n { tag, request := q } (holdTag tag s)).card.state ≠ .ejecting := by
      change s.card.state ≠ .ejecting
      rcases hcard with h | h <;> rw [h] <;> decide
    rw [requestLoad_joins (s := holdTag tag s) hcard hex (loadingFor_of_slot (s := holdTag tag s) hi), service_eq hstate]
    have hat : (joinLoad n { tag, request := q } (holdTag tag s)).table.slots[i]? =
        some (.loading n (ws ++ [{ tag, request := q }])) := by
      simp only [joinLoad, List.getElem?_map, show (holdTag tag s).table.slots[i]? = _ from hi, Option.map_some,
        RecordSlot.addWaiter, if_true]
    obtain ⟨y, hy, hk⟩ := slotsKept_slot (slotsKept_serveBlocks _) hat
    rw [hy, show y = _ from hk]
  · rw [requestLoad_busy (s := holdTag tag s) hcard hex (loadingFor_eq_false (s := holdTag tag s) hl) hfull]
    exact answered_service (answered_answer _ _ _ _)
  · have heject : (holdTag tag s).card.state ≠ .ejecting := by
      change s.card.state ≠ .ejecting
      rcases hcard with h | h <;> rw [h] <;> decide
    have hindex : indexEntry (holdTag tag s) n = some x := indexEntry_eq hx hxn huniq
    have hload : loadingFor (holdTag tag s) n = false := loadingFor_eq_false hl
    refine ⟨fun hnone => ?_, fun i hfree => ?_, fun older i newer r hnofree horder hi hev hold => ?_⟩
    · rw [requestLoad_tableFull (s := holdTag tag s) hcard hindex hload hroom (slotToClaim_none hnone)]
      refine ⟨answered_service (answered_answer _ _ _ _), fun ws hin => ?_⟩
      rw [service_eq (s := answerCode tag .tableFull (holdTag tag s)) heject] at hin
      obtain ⟨_, f, hf, hk⟩ := slotsKept_serveBlocks (answerCode tag .tableFull (holdTag tag s))
      rw [hf, List.mem_map] at hin
      obtain ⟨y, hy, he⟩ := hin
      have hkept := hk y
      cases y with
      | loading m ws' =>
        rw [show f (.loading m ws') = _ from hkept] at he
        cases he
        exact hl _ hy
      | free =>
        rw [show f .free = _ from hkept] at he
        cases he
      | inUse r =>
        obtain ⟨r', hr', _⟩ := hkept
        rw [hr'] at he
        cases he
    · rw [requestLoad_starts (s := holdTag tag s) hcard hindex hload hroom (slotToClaim_free hfree)]
      exact startLoad_served (s := holdTag tag s) (List.getElem?_eq_some_iff.1 hfree.1).1 heject
    · rw [requestLoad_starts (s := holdTag tag s) hcard hindex hload hroom
        (slotToClaim_evict hnofree horder hi hev hold)]
      obtain ⟨h1, h2⟩ := startLoad_served (s := holdTag tag s) (n := n) (slot := x.slot)
        (w := { tag, request := q }) (List.getElem?_eq_some_iff.1 hi).1 heject
      exact ⟨h1, h2, fun hd => startLoad_evicts (s := holdTag tag s) hi heject hd⟩

end Sys2Proof.ShotTable
end

section
namespace Sys2Proof.ShotTable
open Sys2Proof.Machine

/-! ### A matching pass links and plans (R102) -/

/-- A dark link that still waits for its reference. -/
def Waits (l : DarkLink) : Prop := l = .awaiting ∨ ∃ e, l = .linked e

/-- A resident record of the number waits for its reference. -/
def ShotWaits (s : State) (n : Nat) : Prop := ∃ r ∈ residents s, r.number = n ∧ Waits r.darkLink

theorem shotWaits_congr {s t : State} (h : t.table = s.table) (n : Nat) : ShotWaits t n ↔ ShotWaits s n := by
  unfold ShotWaits
  rw [residents_congr h]

theorem shotWaits_of_awaiting {s : State} {n : Nat} (h : n ∈ awaitingShots s) : ShotWaits s n := by
  obtain ⟨r, hr, hl, hn⟩ := mem_shotsWhere.1 h
  exact ⟨r, hr, hn, .inl (by simpa using hl)⟩

theorem linkShot_table (e : Nat) (s : State) (n : Nat) :
    (linkShot e s n).table = (updateRecord n (fun r => { r with darkLink := .linked e }) s).table := by
  unfold linkShot
  dsimp only
  split
  · simp
  · rfl

theorem shotWaits_linkShot {s : State} {e n m : Nat} (h : ShotWaits s m) : ShotWaits (linkShot e s n) m := by
  obtain ⟨r, hr, hm, hw⟩ := h
  obtain ⟨i, hi⟩ := mem_residents.1 hr
  have hslot : (linkShot e s n).table.slots[i]? = some
      (RecordSlot.mapRecord n (fun r => { r with darkLink := .linked e }) (.inUse r)) := by
    rw [linkShot_table]
    simp only [updateRecord, List.getElem?_map, hi, Option.map_some]
  by_cases hn : r.number = n
  · simp only [RecordSlot.mapRecord, beq_iff_eq, if_pos hn] at hslot
    exact ⟨_, mem_residents.2 ⟨i, hslot⟩, hm, .inr ⟨e, rfl⟩⟩
  · simp only [RecordSlot.mapRecord, beq_iff_eq, hn, if_false] at hslot
    exact ⟨r, mem_residents.2 ⟨i, hslot⟩, hm, hw⟩

theorem entryToReclaim_idle {s : State} {e : Nat} (h : entryToReclaim s = some e) : entryIdle s e = true := by
  have key : ∀ (l : List Nat) (b : Option Nat), l.foldl (olderEntry s) b = some e → e ∈ l ∨ b = some e := by
    intro l
    induction l with
    | nil => exact fun b h => .inr h
    | cons x l ih =>
      intro b hf
      rcases ih _ hf with h | h
      · exact .inl (List.mem_cons_of_mem _ h)
      · unfold olderEntry at h
        split at h
        · cases h
          exact .inl List.mem_cons_self
        · split at h
          · cases h
            exact .inl List.mem_cons_self
          · exact .inr h
  rcases key _ _ h with h | h
  · exact (List.mem_filter.1 h).2
  · cases h

/-- An entry to plan in is FREE or idle, and one of the table's. -/
theorem entryToPlan_some {s : State} {e : Nat} (h : entryToPlan s = some e) :
    e < s.dark.entries.length ∧ ((darkEntry s e).state = .free ∨ (darkEntry s e).state.isReady = true) := by
  unfold entryToPlan at h
  split at h
  · next e' hf =>
    cases h
    obtain ⟨hlt, hfree, _⟩ := List.findIdx?_eq_some_iff_getElem.1 hf
    refine ⟨hlt, .inl ?_⟩
    unfold darkEntry
    rw [List.getD_eq_getElem?_getD, List.getElem?_eq_getElem hlt, Option.getD_some]
    simpa using hfree
  · have hidle := entryToReclaim_idle h
    simp only [entryIdle, Bool.and_eq_true] at hidle
    refine ⟨?_, .inr hidle.1.1⟩
    by_contra hge
    have hnone : s.dark.entries[e]? = none := List.getElem?_eq_none (Nat.not_lt.1 hge)
    have hr := hidle.1.1
    unfold darkEntry at hr
    rw [List.getD_eq_getElem?_getD, hnone] at hr
    cases hr

/-- An entry freed leaves the plan, and has no plane. -/
theorem freeEntry_dark (e : Nat) (s : State) :
    (freeEntry e s).dark = { entries := s.dark.entries.set e .free, plan := s.dark.plan.filter (· != e) } := by
  unfold freeEntry
  dsimp only
  simp only [releasePlane_keeps]

/-- The entry planned in is PLANNED, and the last of the plan. -/
theorem planEntry_entries (e : Nat) (r : Record) (s : State) : ∃ x : DarkEntry, x.state = .planned ∧
    (planEntry e r (freeEntry e s)).dark.entries = s.dark.entries.set e x := by
  unfold planEntry
  dsimp only
  rw [freeEntry_dark]
  dsimp only
  rw [List.set_set]
  exact ⟨_, rfl, rfl⟩

section
variable {P : State → Prop}

theorem linkFold_preserves (step : State → Nat → State)
    (hstep : ∀ s n, step s n = s ∨ ∃ e, step s n = linkShot e s n)
    (hlink : ∀ e n s, P s → ShotWaits s n → P (linkShot e s n)) (l : List Nat) {s : State} (h : P s)
    (hl : ∀ n ∈ l, ShotWaits s n) : P (l.foldl step s) := by
  induction l generalizing s with
  | nil => exact h
  | cons n l ih =>
    rw [List.foldl_cons]
    rcases hstep s n with hs | ⟨e, hs⟩
    · rw [hs]
      exact ih h fun m hm => hl m (List.mem_cons_of_mem _ hm)
    · rw [hs]
      exact ih (hlink e n s h (hl n List.mem_cons_self)) fun m hm => shotWaits_linkShot (hl m (List.mem_cons_of_mem _ hm))

theorem planRounds_preserves (hlink : ∀ e n s, P s → ShotWaits s n → P (linkShot e s n))
    (hplan : ∀ e r s, P s → entryToPlan s = some e → P (planEntry e r (freeEntry e s))) (fuel : Nat) {s : State}
    (h : P s) : P (planRounds fuel s) := by
  induction fuel generalizing s with
  | zero => exact h
  | succ fuel ih =>
    unfold planRounds
    split
    · next n ns e ha he =>
      split
      · exact h
      · next r _ =>
        refine ih (linkFold_preserves (linkIfFits e) (fun s n => ?_) hlink _ (hplan e r s h he) fun m hm => ?_)
        · unfold linkIfFits
          split
          · exact .inl rfl
          · split
            · exact .inr ⟨e, rfl⟩
            · exact .inl rfl
        · exact (shotWaits_congr (by simp) m).2 (shotWaits_of_awaiting (ha ▸ hm))
    · exact h

/-- What a link to a waiting shot and a plan keep, a matching pass keeps. -/
theorem matchingPass_preserves (hlink : ∀ e n s, P s → ShotWaits s n → P (linkShot e s n))
    (hplan : ∀ e r s, P s → entryToPlan s = some e → P (planEntry e r (freeEntry e s))) {s : State} (h : P s) :
    P (matchingPass s) := by
  unfold matchingPass
  split
  · refine planRounds_preserves hlink hplan _ (linkFold_preserves matchShot (fun s n => ?_) hlink _ h fun n hn =>
      shotWaits_of_awaiting hn)
    unfold matchShot
    split
    · exact .inl rfl
    · next e _ => exact .inr ⟨e, rfl⟩
  · exact h

end

end Sys2Proof.ShotTable
end

section
namespace Sys2Proof.ShotTable
open Sys2Proof.Machine

/-! ### The use order after a request -/

theorem allocationFailed_useOrder (n : Nat) (s : State) :
    (allocationFailed n s).table.useOrder = s.table.useOrder := by rw [allocationFailed_table]

theorem takeChoice_useOrder (c : Choice) (s : State) :
    (takeChoice c s).table.useOrder = s.table.useOrder := by
  cases c with
  | read r => cases r <;> rfl
  | entry e => cases e <;> rfl
  | developed h =>
    simp only [takeChoice, startDeveloped]
    split
    · exact allocationFailed_useOrder _ _
    · rfl
  | raw r =>
    simp only [takeChoice, startRaw]
    split
    · rfl
    · exact allocationFailed_useOrder _ _
  | dirty n => rfl

theorem chooseWork_useOrder (fuel : Nat) (s : State) :
    (chooseWork fuel s).table.useOrder = s.table.useOrder := by
  induction fuel generalizing s with
  | zero => rfl
  | succ fuel ih =>
    unfold chooseWork
    split
    · rw [ih, takeChoice_useOrder]
    · rfl

theorem startCardWork_useOrder (s : State) : (startCardWork s).table.useOrder = s.table.useOrder := by
  unfold startCardWork
  split
  · simp [chooseWork_useOrder]
  · rfl

theorem serveBlocks_useOrder (s : State) : (serveBlocks s).table.useOrder = s.table.useOrder := by
  simp [serveBlocks, startCardWork_useOrder]

/-! ### The dark entry that a claim reclaims (R90) -/

theorem darkEntry_eq {s : State} {e : Nat} {x : DarkEntry} (h : s.dark.entries[e]? = some x) : darkEntry s e = x := by
  unfold darkEntry
  rw [List.getD_eq_getElem?_getD, h, Option.getD_some]

theorem linkCount_eq_zero_iff (s : State) (e : Nat) :
    linkCount s e = 0 ↔ ∀ r ∈ residents s, r.darkLink ≠ .linked e := by
  simp [linkCount, List.length_eq_zero_iff]

theorem pauReads_eq_false_iff (s : State) (e : Nat) :
    pauReads s e = false ↔ ∀ q ∈ s.pau, q.running = true → q.op ≠ .applyDark e := by
  simp [pauReads]

theorem entryIdle_iff (s : State) (e : Nat) : entryIdle s e = true ↔ ∃ taken p, IdleEntry s e taken p := by
  unfold entryIdle
  rw [Bool.and_eq_true, Bool.and_eq_true, beq_iff_eq, linkCount_eq_zero_iff, Bool.not_eq_true', pauReads_eq_false_iff]
  constructor
  · rintro ⟨⟨hr, hl⟩, hq⟩
    cases hx : s.dark.entries[e]? with
    | none =>
      rw [darkEntry, List.getD_eq_getElem?_getD, hx] at hr
      cases hr
    | some x =>
      rw [darkEntry_eq hx] at hr
      cases hs : x.state with
      | ready band taken p => exact ⟨taken, p, ⟨x, band, hx, hs⟩, hl, hq⟩
      | _ =>
        rw [hs] at hr
        cases hr
  · rintro ⟨taken, p, ⟨x, band, hx, hs⟩, hl, hq⟩
    refine ⟨⟨?_, hl⟩, hq⟩
    rw [darkEntry_eq hx, hs]
    rfl

theorem darkAge_of_idle {s : State} {e p : Nat} {taken : Time} (h : IdleEntry s e taken p) :
    darkAge s e = (s.timeBase - taken).toNat := by
  obtain ⟨⟨x, band, hx, hs⟩, _⟩ := h
  unfold darkAge
  rw [darkEntry_eq hx, hs]
  rfl

/-- The oldest entry of an ascending list, the lowest among equals. -/
theorem foldl_olderEntry {s : State} {e : Nat} {l : List Nat} (hl : l.Pairwise (· < ·)) (he : e ∈ l)
    (hold : ∀ e' ∈ l, darkAge s e' < darkAge s e ∨ (darkAge s e' = darkAge s e ∧ e ≤ e')) :
    l.foldl (olderEntry s) none = some e := by
  have hafter : ∀ l : List Nat, (∀ e' ∈ l, darkAge s e' ≤ darkAge s e) →
      l.foldl (olderEntry s) (some e) = some e := by
    intro l
    induction l with
    | nil => exact fun _ => rfl
    | cons x l ih =>
      intro h
      have hx : olderEntry s (some e) x = some e := if_neg (Nat.not_lt.2 (h x List.mem_cons_self))
      rw [List.foldl_cons, hx]
      exact ih fun e' he' => h e' (List.mem_cons_of_mem _ he')
  have hbefore : ∀ (l : List Nat) (b : Option Nat), l.Pairwise (· < ·) → e ∈ l →
      (∀ e' ∈ l, darkAge s e' < darkAge s e ∨ (darkAge s e' = darkAge s e ∧ e ≤ e')) →
      (∀ x, b = some x → darkAge s x < darkAge s e) → l.foldl (olderEntry s) b = some e := by
    intro l
    induction l with
    | nil => exact fun _ _ he => absurd he List.not_mem_nil
    | cons x l ih =>
      intro b hl he hold hb
      rw [List.pairwise_cons] at hl
      rw [List.foldl_cons]
      have hrest : ∀ e' ∈ l, _ := fun e' he' => hold e' (List.mem_cons_of_mem _ he')
      by_cases hxe : x = e
      · subst hxe
        have hstep : olderEntry s b x = some x := by
          cases b with
          | none => rfl
          | some y => exact if_pos (hb y rfl)
        rw [hstep]
        refine hafter l fun e' he' => ?_
        rcases hrest e' he' with h | h
        · exact Nat.le_of_lt h
        · exact Nat.le_of_eq h.1
      · have hel : e ∈ l := (List.mem_cons.1 he).resolve_left fun h => hxe h.symm
        refine ih _ hl.2 hel hrest fun y hy => ?_
        have hx : darkAge s x < darkAge s e := by
          rcases hold x List.mem_cons_self with h | h
          · exact h
          · exact absurd h.2 (Nat.not_le.2 (hl.1 e hel))
        unfold olderEntry at hy
        split at hy
        · cases hy
          exact hx
        · next z =>
          split at hy
          · cases hy
            exact hx
          · cases hy
            exact hb y rfl
  exact hbefore l none hl he hold fun x h => by cases h

theorem entryToReclaim_oldest {s : State} {e p : Nat} {taken : Time} (he : e < 8) (hidle : IdleEntry s e taken p)
    (hold : ∀ e' taken' p', e' < 8 → IdleEntry s e' taken' p' →
      (s.timeBase - taken').toNat < (s.timeBase - taken).toNat ∨
      ((s.timeBase - taken').toNat = (s.timeBase - taken).toNat ∧ e ≤ e')) : entryToReclaim s = some e := by
  unfold entryToReclaim
  refine foldl_olderEntry (List.pairwise_lt_range.filter _)
    (List.mem_filter.2 ⟨List.mem_range.2 he, (entryIdle_iff s e).2 ⟨taken, p, hidle⟩⟩) fun e' he' => ?_
  obtain ⟨hlt, hi⟩ := List.mem_filter.1 he'
  obtain ⟨taken', p', hidle'⟩ := (entryIdle_iff s e').1 hi
  rw [darkAge_of_idle hidle', darkAge_of_idle hidle]
  exact hold e' taken' p' (List.mem_range.1 hlt) hidle'

theorem entryToReclaim_none {s : State} (h : ∀ e taken p, e < 8 → ¬ IdleEntry s e taken p) :
    entryToReclaim s = none := by
  unfold entryToReclaim
  have hnil : (List.range Config.darkEntries).filter (entryIdle s) = [] := by
    rw [List.filter_eq_nil_iff]
    intro e he hi
    obtain ⟨taken, p, hidle⟩ := (entryIdle_iff s e).1 hi
    exact h e taken p (List.mem_range.1 he) hidle
  rw [hnil]
  rfl

theorem freePlanes_nil {s : State} (h : Owner.free ∉ s.pool.owners) : freePlanes s = [] :=
  List.eq_nil_iff_forall_not_mem.2 fun _ hp => h (List.mem_of_getElem? (mem_freePlanes hp))

/-! ### A FIRE in IDLE -/

/-- A roll that is current and OPEN. -/
theorem currentRoll_eq {s : State} {n : Nat} {r : Roll} (hc : s.rolls.current = some n)
    (hr : s.rolls.slots[n]? = some (.opened r)) : currentRoll s = some r := by
  simp [currentRoll, rollAt, hc, hr, RollSlot.roll?]

/-- A FIRE in IDLE with a roll that is not full reaches the claims of R69. -/
theorem exec_fire_idle {tag n : Nat} {r : Roll} {s : State} (hcan : CanTake tag s) (hidle : s.seq.state = .idle)
    (hc : s.rolls.current = some n) (hr : s.rolls.slots[n]? = some (.opened r)) (hroom : r.nextFrame ≤ r.frameLimit) :
    exec (.triggerFire tag) s = .next (service (answerStart tag (claimStart .fire n r (holdTag tag s)))) := by
  have hroll : currentRoll (holdTag tag s) = some r := currentRoll_eq hc hr
  have hstart : decideStart .fire (holdTag tag s) = claimStart .fire n r (holdTag tag s) := by
    unfold decideStart
    rw [show (holdTag tag s).seq.state = .idle from hidle]
    unfold startIdle
    rw [show (holdTag tag s).rolls.current = some n from hc, hroll]
    exact if_neg (Nat.not_lt.2 hroom)
  change Host.Outcome.next (takeRequest tag false _ s) = _
  rw [takeRequest_taken false _ hcan, hstart]

/-- A start refused leaves the number, the rolls, the lines and the open shot. -/
theorem refused_leaves (tag : Nat) (code : ResultCode) (s : State) :
    Answered (service (answerCode tag code (holdTag tag s))) tag code .empty ∧
    (service (answerCode tag code (holdTag tag s))).table.counter = s.table.counter ∧
    (service (answerCode tag code (holdTag tag s))).rolls = s.rolls ∧
    (service (answerCode tag code (holdTag tag s))).sync = s.sync ∧
    (service (answerCode tag code (holdTag tag s))).seq.openShot = s.seq.openShot := by
  refine ⟨answered_service (answered_answer _ _ _ _), by rw [service_counter]; rfl, by simp, by simp, ?_⟩
  rcases seqKept_service (answerCode tag code (holdTag tag s)) with h | ⟨_, tm, h⟩
  · rw [h]
    rfl
  · rw [h]
    rfl

/-- The shot that a FIRE creates, before the pass that follows a reclamation. -/
def firedShot (n : Nat) (r : Roll) (i : Nat) (c : Nat × Option Nat) (s : State) : State :=
  let m := s.table.counter
  let u := takeSeqPlane c (.shotRaw m) (touchSlot i (setSlot i (.inUse (newRecord s n r c.1)) s))
  let u := stepFrame n r m { u with table := { u.table with counter := m + 1 } }
  beginExposure .fire r { u with seq := { u.seq with openShot := some m, k := 1 } }

theorem createShot_fire (n : Nat) (r : Roll) (i : Nat) (c : Nat × Option Nat) (s : State) :
    createShot .fire n r i c s = passAfterReclaim c (firedShot n r i c s) := rfl

section
variable (n : Nat) (r : Roll) (i : Nat) (c : Nat × Option Nat) (s : State)

theorem firedShot_table : (firedShot n r i c s).table =
    { s.table with
      slots := s.table.slots.set i (.inUse (newRecord s n r c.1))
      useOrder := s.table.useOrder.filter (· != i) ++ [i]
      counter := s.table.counter + 1 } := by
  simp [firedShot, beginExposure, touchSlot, setSlot]

theorem firedShot_seq : (firedShot n r i c s).seq.state = .armed ∧
    (firedShot n r i c s).seq.openShot = some s.table.counter := by
  simp [firedShot, beginExposure, arm]

theorem firedShot_owners : (firedShot n r i c s).pool.owners = s.pool.owners.set c.1 (.shotRaw s.table.counter) := by
  simp only [firedShot, beginExposure_keeps, stepFrame_keeps, takeSeqPlane]
  cases c.2 <;> simp [setOwner, setDarkEntry]

theorem firedShot_dark : (firedShot n r i c s).dark =
    match c.2 with
    | none => s.dark
    | some e => { s.dark with entries := s.dark.entries.set e .free } := by
  simp only [firedShot, beginExposure_keeps, stepFrame_keeps, takeSeqPlane]
  cases c.2 <;> simp [setOwner, setDarkEntry]

end

/-- A start accepted in IDLE is answered with the number given out, and the part is ARMED. -/
theorem fired_answered {tag n i : Nat} {r : Roll} {c : Nat × Option Nat} {s : State} :
    let t := service (answerStart tag (.ok, createShot .fire n r i c s))
    Answered t tag .ok (.shotNumber s.table.counter) ∧ t.seq.state = .armed := by
  have hseq : (createShot .fire n r i c s).seq = (firedShot n r i c s).seq := by
    rw [createShot_fire]
    unfold passAfterReclaim
    split
    · simp
    · rfl
  have hans : answerStart tag (.ok, createShot .fire n r i c s) =
      answer tag .ok (.shotNumber s.table.counter) (createShot .fire n r i c s) := by
    unfold answerStart
    dsimp only
    rw [if_pos rfl, hseq, (firedShot_seq n r i c s).2]
    rfl
  have harmed : (answer tag .ok (.shotNumber s.table.counter) (createShot .fire n r i c s)).seq.state = .armed := by
    change (createShot .fire n r i c s).seq.state = .armed
    rw [hseq, (firedShot_seq n r i c s).1]
  dsimp only
  rw [hans]
  refine ⟨answered_service (answered_answer _ _ _ _), ?_⟩
  rw [service_seq (by rw [harmed]; decide)]
  exact harmed

theorem claimStart_noRecord {k : Start} {n : Nat} {r : Roll} {s : State}
    (h : slotToClaim s = none ∨ 4294967296 ≤ s.table.counter) : claimStart k n r s = (.noRecord, s) := by
  unfold claimStart
  cases hs : slotToClaim s with
  | none => rfl
  | some i =>
    rw [hs] at h
    exact if_pos (h.resolve_left nofun)

theorem claimStart_noPlane {k : Start} {n i : Nat} {r : Roll} {s : State} (hi : slotToClaim s = some i)
    (hc : s.table.counter ≤ 4294967295) (hp : seqPlane (evictSlot i s) = none) :
    claimStart k n r s = (.noPlane, evictSlot i s) := by
  have hcounter : ¬ Config.counterEnd ≤ s.table.counter := by unfold Config.counterEnd; omega
  unfold claimStart
  rw [hi]
  dsimp only
  rw [if_neg hcounter, hp]

theorem claimStart_ok {k : Start} {n i : Nat} {r : Roll} {c : Nat × Option Nat} {s : State}
    (hi : slotToClaim s = some i) (hc : s.table.counter ≤ 4294967295) (hp : seqPlane (evictSlot i s) = some c) :
    claimStart k n r s = (.ok, createShot k n r i c (evictSlot i s)) := by
  have hcounter : ¬ Config.counterEnd ≤ s.table.counter := by unfold Config.counterEnd; omega
  unfold claimStart
  rw [hi]
  dsimp only
  rw [if_neg hcounter, hp]

theorem seqPlane_free {s : State} {p : Nat} (h : LowestAt s.pool.owners .free p) : seqPlane s = some (p, none) := by
  unfold seqPlane
  rw [freePlanes_head h]

/-- With no FREE plane the sequencer takes that of the entry to reclaim. -/
theorem seqPlane_reclaim {s : State} {e : Nat} (h : Owner.free ∉ s.pool.owners) (he : entryToReclaim s = some e) :
    seqPlane s = (darkEntry s e).state.plane?.map fun p => (p, some e) := by
  unfold seqPlane
  rw [freePlanes_nil h, he]
  rfl

theorem seqPlane_none {s : State} (h : Owner.free ∉ s.pool.owners) (he : entryToReclaim s = none) :
    seqPlane s = none := by
  unfold seqPlane
  rw [freePlanes_nil h, he]
  rfl

/-! ### What the pass after a reclamation leaves alone -/

/-- The shot of the plane reclaimed, the plane and the entry: no entry names the plane, which its shot owns; the entry is
FREE or PLANNED; and the record slot holds the shot's record. -/
structure Reclaimed (i e p m : Nat) (s : State) : Prop where
  apart : ∀ e', (darkEntry s e').state.plane? ≠ some p
  owner : s.pool.owners[p]? = some (.shotRaw m)
  entry : ∀ y, s.dark.entries[e]? = some y → y.state = .free ∨ y.state = .planned
  record : ∃ z, s.table.slots[i]? = some (.inUse z) ∧ z.number = m ∧ z.rawPlane = some p

theorem reclaimed_linkShot {i e p m : Nat} (e' n : Nat) {s : State} (h : Reclaimed i e p m s) :
    Reclaimed i e p m (linkShot e' s n) := by
  have hdark : (linkShot e' s n).dark = s.dark := by simp
  have hpool : (linkShot e' s n).pool = s.pool := by simp
  obtain ⟨z, hz, hm, hp⟩ := h.record
  refine ⟨fun d => ?_, by rw [hpool]; exact h.owner, by rw [hdark]; exact h.entry, ?_⟩
  · unfold darkEntry
    rw [hdark]
    exact h.apart d
  · rw [linkShot_table]
    simp only [updateRecord, List.getElem?_map, hz, Option.map_some, RecordSlot.mapRecord]
    split
    · exact ⟨_, rfl, hm, hp⟩
    · exact ⟨z, rfl, hm, hp⟩

theorem reclaimed_planEntry {i e p m : Nat} (e' : Nat) (r : Record) {s : State} (h : Reclaimed i e p m s) :
    Reclaimed i e p m (planEntry e' r (freeEntry e' s)) := by
  obtain ⟨x, hx, hentries⟩ := planEntry_entries e' r s
  have howner : (planEntry e' r (freeEntry e' s)).pool.owners[p]? = s.pool.owners[p]? := by
    simp only [planEntry_keeps]
    change (releasePlane _ s).pool.owners[p]? = _
    rw [releasePlane_owner, if_neg fun hp => h.apart e' hp.1]
  refine ⟨fun d => ?_, by rw [howner]; exact h.owner, fun y hy => ?_, ?_⟩
  · have hd := h.apart d
    unfold darkEntry at hd ⊢
    rw [hentries, List.getD_eq_getElem?_getD, List.getElem?_set]
    rw [List.getD_eq_getElem?_getD] at hd
    split
    · split
      · simp [hx, DarkState.plane?]
      · simp [DarkEntry.free, DarkState.plane?]
    · exact hd
  · rw [hentries, List.getElem?_set] at hy
    split at hy
    · split at hy
      · cases hy
        exact .inr hx
      · cases hy
    · exact h.entry y hy
  · obtain ⟨z, hz, hm, hp⟩ := h.record
    exact ⟨z, by simpa using hz, hm, hp⟩

theorem reclaimed_matchingPass {i e p m : Nat} {s : State} (h : Reclaimed i e p m s) :
    Reclaimed i e p m (matchingPass s) :=
  matchingPass_preserves (P := Reclaimed i e p m) (fun e' n _ h _ => reclaimed_linkShot e' n h)
    (fun e' r _ h _ => reclaimed_planEntry e' r h) h

/-- An entry that names a plane is among what names the planes. -/
theorem entryPlane_named {s : State} {e p : Nat} (h : (darkEntry s e).state.plane? = some p) :
    (p, .dark e) ∈ planesNamed s := by
  have hmem : (p, Owner.dark e) ∈
      s.dark.entries.zipIdx.filterMap fun x => x.1.state.plane?.map fun p => (p, Owner.dark x.2) := by
    cases hx : s.dark.entries[e]? with
    | none =>
      rw [darkEntry, List.getD_eq_getElem?_getD, hx] at h
      cases h
    | some x =>
      rw [darkEntry_eq hx] at h
      refine List.mem_filterMap.2 ⟨(x, e), List.mem_zipIdx_iff_getElem?.2 hx, ?_⟩
      dsimp only
      rw [h]
      rfl
  unfold planesNamed
  simp only [List.mem_append]
  exact .inl (.inl (.inl (.inr hmem)))

/-- The entries that name a plane do so each for itself, when no plane is named twice. -/
theorem entryPlane_unique {s : State} (h : ((planesNamed s).map Prod.fst).Nodup) {e e' p : Nat}
    (he : (darkEntry s e).state.plane? = some p) (he' : (darkEntry s e').state.plane? = some p) : e = e' := by
  have heq := List.inj_on_of_nodup_map h (entryPlane_named he) (entryPlane_named he') rfl
  cases heq
  rfl

theorem reclaimed_firedShot {n i e p : Nat} {r : Roll} {s : State} (hnodup : ((planesNamed s).map Prod.fst).Nodup)
    (hi : i < s.table.slots.length) (he : (darkEntry s e).state.plane? = some p) (hp : p < s.pool.owners.length) :
    Reclaimed i e p s.table.counter (firedShot n r i (p, some e) s) := by
  refine ⟨fun d hd => ?_, ?_, fun y hy => ?_, ⟨newRecord s n r p, ?_, rfl, rfl⟩⟩
  · unfold darkEntry at hd
    rw [firedShot_dark, List.getD_eq_getElem?_getD] at hd
    dsimp only at hd
    rw [List.getElem?_set] at hd
    split at hd
    · split at hd <;> cases hd
    · next hne =>
      refine hne (entryPlane_unique hnodup he (p := p) ?_)
      unfold darkEntry
      rw [List.getD_eq_getElem?_getD]
      exact hd
  · rw [firedShot_owners, List.getElem?_set_self hp]
  · rw [firedShot_dark] at hy
    dsimp only at hy
    rw [List.getElem?_set] at hy
    split at hy
    · split at hy
      · cases hy
        exact .inl rfl
      · cases hy
    · next hne => exact absurd rfl hne
  · rw [firedShot_table, List.getElem?_set_self hi]

/-! ### The four outcomes -/

/-- A record evicted for a start: the plane is the lowest FREE one. -/
theorem fire_evicts {tag n i p : Nat} {r : Roll} {x : Record} {older newer : List Nat} {s : State}
    (hc : s.table.counter ≤ 4294967295) (horder : s.table.useOrder = older ++ i :: newer)
    (hi : s.table.slots[i]? = some (.inUse x)) (hslot : slotToClaim s = some i)
    (hp : LowestAt s.pool.owners .free p) (hcard : s.card.state ≠ .ejecting) :
    let t := service (answerStart tag (claimStart .fire n r s))
    Answered t tag .ok (.shotNumber s.table.counter) ∧ t.seq.state = .armed ∧
    (∃ z, t.table.slots[i]? = some (.inUse z) ∧ z.number = s.table.counter ∧ z.life = .opened ∧
      z.rawPlane = some p) ∧
    (i ∉ older → i ∉ newer → t.table.useOrder = older ++ newer ++ [i]) := by
  have hplane : seqPlane (evictSlot i s) = some (p, none) := seqPlane_free (by simpa using hp)
  have hcounter := evictSlot_counter_eq i s
  have hclaim := claimStart_ok (k := .fire) (n := n) (r := r) hslot hc hplane
  obtain ⟨hans, hseq⟩ := fired_answered (tag := tag) (n := n) (i := i) (r := r) (c := (p, none)) (s := evictSlot i s)
  rw [hcounter] at hans
  dsimp only
  rw [hclaim]
  refine ⟨hans, hseq, ?_⟩
  have hstate : (answerStart tag (.ok, createShot .fire n r i (p, none) (evictSlot i s))).card.state ≠ .ejecting := by
    change (createShot .fire n r i (p, none) (evictSlot i s)).card.state ≠ .ejecting
    simpa using hcard
  have htable : (answerStart tag (.ok, createShot .fire n r i (p, none) (evictSlot i s))).table =
      (firedShot n r i (p, none) (evictSlot i s)).table := rfl
  rw [firedShot_table] at htable
  rw [service_eq hstate]
  constructor
  · have hat : (answerStart tag (.ok, createShot .fire n r i (p, none) (evictSlot i s))).table.slots[i]? =
        some (.inUse (newRecord (evictSlot i s) n r p)) := by
      rw [htable]
      dsimp only
      rw [evictSlot_set_slots, List.getElem?_set_self (List.getElem?_eq_some_iff.1 hi).1]
    obtain ⟨y, hy, z, rfl, hz⟩ := slotsKept_slot (slotsKept_serveBlocks _) hat
    refine ⟨z, hy, ?_⟩
    rw [hz]
    exact ⟨hcounter, rfl, rfl⟩
  · intro hold hnew
    have hne : ∀ l : List Nat, i ∉ l → l.filter (· != i) = l := fun l hl =>
      List.filter_eq_self.2 fun j hj => by
        rw [bne_iff_ne]
        rintro rfl
        exact hl hj
    rw [serveBlocks_useOrder, htable, evictSlot_table hi]
    dsimp only
    rw [horder, List.filter_filter, List.filter_append, List.filter_cons]
    simp [hne, hold, hnew]

/-- A dark entry reclaimed for a start (R90). -/
theorem fire_reclaims {tag n i e p : Nat} {r : Roll} {taken : Time} {s : State} (hc : s.table.counter ≤ 4294967295)
    (hnodup : ((planesNamed s).map Prod.fst).Nodup) (hi : LowestAt s.table.slots .free i)
    (hnone : Owner.free ∉ s.pool.owners) (hp : p < s.pool.owners.length) (hidle : IdleEntry s e taken p)
    (he : entryToReclaim s = some e) (hcard : s.card.state ≠ .ejecting) :
    let t := service (answerStart tag (claimStart .fire n r s))
    Answered t tag .ok (.shotNumber s.table.counter) ∧ t.seq.state = .armed ∧
    t.pool.owners[p]? = some (.shotRaw s.table.counter) ∧
    (∃ z, t.table.slots[i]? = some (.inUse z) ∧ z.number = s.table.counter ∧ z.rawPlane = some p) ∧
    (∀ y, t.dark.entries[e]? = some y → y.state = .free ∨ y.state = .planned) := by
  obtain ⟨⟨x, band, hx, hstate⟩, _⟩ := hidle
  have hentry : (darkEntry s e).state.plane? = some p := by
    rw [darkEntry_eq hx, hstate]
    rfl
  have hplane : seqPlane (evictSlot i s) = some (p, some e) := by
    rw [evictSlot_free hi.1, seqPlane_reclaim hnone he, hentry]
    rfl
  have hclaim := claimStart_ok (k := .fire) (n := n) (r := r) (slotToClaim_free hi) hc hplane
  rw [evictSlot_free hi.1] at hclaim
  obtain ⟨hans, hseq⟩ := fired_answered (tag := tag) (n := n) (i := i) (r := r) (c := (p, some e)) (s := s)
  have hkept : Reclaimed i e p s.table.counter (createShot .fire n r i (p, some e) s) := by
    rw [createShot_fire]
    exact reclaimed_matchingPass
      (reclaimed_firedShot hnodup (List.getElem?_eq_some_iff.1 hi.1).1 hentry hp)
  dsimp only
  rw [hclaim]
  refine ⟨hans, hseq, ?_⟩
  generalize hu : answerStart tag (.ok, createShot .fire n r i (p, some e) s) = u at *
  have htable : u.table = (createShot .fire n r i (p, some e) s).table := by rw [← hu]; rfl
  have hpool : u.pool = (createShot .fire n r i (p, some e) s).pool := by rw [← hu]; rfl
  have hdark : u.dark = (createShot .fire n r i (p, some e) s).dark := by rw [← hu]; rfl
  have hcards : u.card.state ≠ .ejecting := by
    have : u.card = s.card := by
      rw [← hu]
      change (createShot .fire n r i (p, some e) s).card = s.card
      simp
    rw [this]
    exact hcard
  have harmed : u.seq.state ≠ .idle := by
    intro h
    rcases seqKept_service u with hs | ⟨_, _, hs⟩
    · rw [hs, h] at hseq
      cases hseq
    · rw [hs] at hseq
      cases hseq
  refine ⟨?_, ?_, ?_⟩
  · rw [service_eq hcards]
    exact ownersKept_serveBlocks u p _ (by rw [hpool]; exact hkept.owner) nofun
  · obtain ⟨z, hz, hm, hzp⟩ := hkept.record
    rw [service_eq hcards]
    obtain ⟨y, hy, z', rfl, hz'⟩ := slotsKept_slot (slotsKept_serveBlocks u) (htable ▸ hz)
    refine ⟨z', hy, ?_⟩
    rw [hz']
    exact ⟨hm, hzp⟩
  · intro y hy
    rw [service_dark harmed, hdark] at hy
    exact hkept.entry y hy

/-- Settles O23, by the claims of R69 in their order. -/
theorem startsClaimSlotsAndPlanes : Obligations.StartsClaimSlotsAndPlanes := by
  intro tag n r s hcan hidle hcur hroll hroom
  have hexec := exec_fire_idle hcan hidle hcur hroll hroom
  refine ⟨fun older i newer x p hc hfree horder hi hev hold hp hcard => ⟨_, hexec, ?_⟩, fun hno => ⟨_, hexec, ?_⟩,
    fun i e taken p hc hnodup hi hfree he _ hp hent hold hcard => ⟨_, hexec, ?_⟩,
    fun hc hslot hfree hent => ⟨_, hexec, ?_⟩⟩
  · exact fire_evicts (s := holdTag tag s) hc horder hi (slotToClaim_evict (s := holdTag tag s) hfree horder hi hev hold)
      hp hcard
  · have hclaim : slotToClaim (holdTag tag s) = none ∨ 4294967296 ≤ (holdTag tag s).table.counter :=
      hno.imp (fun h => slotToClaim_none (s := holdTag tag s) h) fun h => Nat.le_of_eq h.symm
    rw [claimStart_noRecord hclaim]
    exact refused_leaves tag .noRecord s
  · exact fire_reclaims (s := holdTag tag s) hc hnodup hi hfree hp hent
      (entryToReclaim_oldest (s := holdTag tag s) he hent hold) hcard
  · obtain ⟨i, hi, hat⟩ := slotToClaim_isSome_of_free (s := holdTag tag s) hslot
    have hplane : seqPlane (evictSlot i (holdTag tag s)) = none := by
      rw [evictSlot_free hat]
      exact seqPlane_none (s := holdTag tag s) hfree (entryToReclaim_none (s := holdTag tag s) hent)
    rw [claimStart_noPlane hi hc hplane, evictSlot_free hat]
    exact refused_leaves tag .noPlane s

end Sys2Proof.ShotTable
end

section
namespace Sys2Proof.ShotTable
open Sys2Proof.Machine

/-! ### What the laws of the records, the planes, the jobs and the links speak of

The laws of R22, R62, R87, R112 and R108 hold between steps, and not at every point within one: a record changes its life
before its jobs leave the queue, a plane loses what named it before it is FREE. A view is what the laws speak of, and the
ghost says what of it is to be read otherwise at such a point. -/

/-- What the laws speak of. `loose` are planes, each with its owner, that nothing of the state names. -/
structure View where
  slots    : List RecordSlot
  counter  : Nat
  index    : List IndexEntry
  openShot : Option Nat
  hasShot  : Bool
  owners   : List Owner
  scratch  : Option Nat
  entries  : List DarkEntry
  plan     : List Nat
  queue    : List Job
  idle     : Bool
  holds    : Option RunHolds
  handoffs : List Handoff
  loose    : Multiset (Nat × Owner)

/-- What is read otherwise than the state has it: the open shot, whether the sequencer has one, that the engine is not
IDLE yet, and the planes that nothing names. -/
structure Ghost where
  openShot : Option Nat
  hasShot  : Bool
  busy     : Bool
  loose    : Multiset (Nat × Owner)

/-- The view of a state under a ghost. -/
def viewOf (g : Ghost) (s : State) : View where
  slots := s.table.slots
  counter := s.table.counter
  index := s.card.index
  openShot := g.openShot
  hasShot := g.hasShot
  owners := s.pool.owners
  scratch := s.seq.scratch
  entries := s.dark.entries
  plan := s.dark.plan
  queue := s.dev.queue
  idle := !g.busy && s.dev.engine == .idle
  holds := s.dev.holds
  handoffs := s.card.handoffs
  loose := g.loose

/-- The ghost of a state at rest. -/
def restGhost (s : State) : Ghost where
  openShot := s.seq.openShot
  hasShot := s.seq.state.hasShot
  busy := false
  loose := 0

/-- The view of a state at rest. -/
abbrev view (s : State) : View := viewOf (restGhost s) s

namespace View

def records (v : View) : List Record := v.slots.filterMap RecordSlot.record?

def numbers (v : View) : List Nat := v.slots.filterMap RecordSlot.number?

/-- The raw planes that record slots name. -/
def rawsOf (slots : List RecordSlot) : Multiset (Nat × Owner) :=
  ((slots.filterMap RecordSlot.record?).filterMap fun r => r.rawPlane.map fun p => (p, Owner.shotRaw r.number) :
    List (Nat × Owner))

/-- The planes that the dark entries name. -/
def darksOf (entries : List DarkEntry) : Multiset (Nat × Owner) :=
  (entries.zipIdx.filterMap fun x => x.1.state.plane?.map fun p => (p, Owner.dark x.2) : List (Nat × Owner))

/-- A plane that is named, if any. -/
def planeOf (q : Option Nat) (o : Owner) : Multiset (Nat × Owner) := ((q.map fun p => (p, o)).toList : List (Nat × Owner))

/-- The planes that the hand-offs name. -/
def handoffsOf (hs : List Handoff) : Multiset (Nat × Owner) :=
  (hs.map fun h => (h.plane, Owner.handoff h.shot h.key) : List (Nat × Owner))

/-- The planes named, and the loose ones. -/
def named (v : View) : Multiset (Nat × Owner) :=
  rawsOf v.slots + planeOf v.scratch .seqScratch + darksOf v.entries +
  planeOf (v.holds.bind (·.fetch)) .devFetch + planeOf (v.holds.bind (·.output)) .devOutput +
  handoffsOf v.handoffs + v.loose

/-- The law of the shot numbers (R22). -/
structure Numbers (v : View) : Prop where
  low : 1 ≤ v.counter
  high : v.counter ≤ 4294967296
  distinct : v.numbers.Nodup
  below : ∀ n ∈ v.numbers, n < v.counter
  index : ∀ x ∈ v.index, x.shot < v.counter

/-- The law of the open shot (R62). -/
structure Opened (v : View) : Prop where
  present : v.openShot.isSome ↔ v.hasShot = true
  record : ∀ n ∈ v.openShot, ∃ r ∈ v.records, r.number = n ∧ r.life = .opened
  only : ∀ r ∈ v.records, r.life = .opened → v.openShot = some r.number

/-- The law of the planes (R87). -/
structure Planes (v : View) : Prop where
  owned : ∀ x ∈ v.named, v.owners[x.1]? = some x.2
  owner : ∀ (p : Nat) (o : Owner), v.owners[p]? = some o → o ≠ .free → (p, o) ∈ v.named
  once : (v.named.map Prod.fst).Nodup
  raw : ∀ r ∈ v.records, r.rawPlane.isSome → r.life = .opened ∨ r.life = .held
  rest : v.idle = true → v.holds = none
  plan : ∀ e ∈ v.plan, (v.entries.getD e .free).state = .planned
  loose : ∀ x ∈ v.loose, x.2 ≠ .free

/-- The law of the jobs (R112). -/
structure Jobs (v : View) : Prop where
  once : (v.queue.map fun j => (j.shot, j.kind)).Nodup
  record : ∀ j ∈ v.queue, ∃ r ∈ v.records, r.number = j.shot ∧ (r.life = .held ∨ r.life = .settled)
  running : (v.queue.filter (·.running)).length ≤ 1
  rest : v.idle = true → ∀ j ∈ v.queue, j.running = false

/-- The law of the dark links (R108, R15). -/
structure Links (v : View) : Prop where
  waits : ∀ r ∈ v.records, Waits r.darkLink →
    r.rawCard = .unwritten ∧ ∀ j ∈ v.queue, j.shot = r.number → j.running = false
  opened : ∀ r ∈ v.records, r.life = .opened → r.rawCard = .unwritten

/-- From one view to another each law holds on, with those it leans on. -/
structure Keeps (v w : View) : Prop where
  numbers : v.Numbers → w.Numbers
  opened : v.Numbers → v.Opened → w.Opened
  planes : v.Numbers → v.Planes → w.Planes
  jobs : v.Numbers → v.Opened → v.Jobs → v.Links → w.Jobs ∧ w.Links

theorem Keeps.refl (v : View) : Keeps v v := ⟨id, fun _ => id, fun _ => id, fun _ _ h h' => ⟨h, h'⟩⟩

theorem Keeps.trans {u v w : View} (h : Keeps u v) (h' : Keeps v w) : Keeps u w where
  numbers hn := h'.numbers (h.numbers hn)
  opened hn ho := h'.opened (h.numbers hn) (h.opened hn ho)
  planes hn hp := h'.planes (h.numbers hn) (h.planes hn hp)
  jobs hn ho hj hl :=
    let ⟨hj', hl'⟩ := h.jobs hn ho hj hl
    h'.jobs (h.numbers hn) (h.opened hn ho) hj' hl'

theorem Keeps.of_eq {v w : View} (h : w = v) : Keeps v w := h ▸ .refl v

/-- The numbers may be taken to be distinct. -/
theorem Keeps.of_numbers {v w : View} (h : v.Numbers → Keeps v w) : Keeps v w where
  numbers hn := (h hn).numbers hn
  opened hn := (h hn).opened hn
  planes hn := (h hn).planes hn
  jobs hn := (h hn).jobs hn

end View

open View

/-! ### The laws of a state at rest -/

theorem shotNumbersAgree_iff (s : State) : ShotNumbersAgree s ↔ (view s).Numbers :=
  ⟨fun ⟨a, b, c, d, e⟩ => ⟨a, b, c, d, e⟩, fun ⟨a, b, c, d, e⟩ => ⟨a, b, c, d, e⟩⟩

theorem openShotAgrees_iff (s : State) : OpenShotAgrees s ↔ (view s).Opened :=
  ⟨fun ⟨a, b, c⟩ => ⟨a, b, c⟩, fun ⟨a, b, c⟩ => ⟨a, b, c⟩⟩

theorem named_view (s : State) : (view s).named = (planesNamed s : Multiset (Nat × Owner)) := by
  simp only [View.named, viewOf, restGhost, rawsOf, darksOf, planeOf, handoffsOf, planesNamed, residents,
    Multiset.coe_add, add_zero]

theorem planesAgree_iff (s : State) : PlanesAgree s ↔ (view s).Planes := by
  have hidle : (view s).idle = true ↔ s.dev.engine = .idle := by simp [viewOf, restGhost]
  have hcoe : ((view s).named.map Prod.fst).Nodup ↔ ((planesNamed s).map Prod.fst).Nodup := by
    rw [named_view, Multiset.map_coe, Multiset.coe_nodup]
  have hmem : ∀ x, x ∈ (view s).named ↔ x ∈ planesNamed s := fun x => by rw [named_view, Multiset.mem_coe]
  constructor
  · rintro ⟨a, b, c, d, e, f⟩
    refine ⟨fun x hx => a x ((hmem x).1 hx), fun p o hp ho => ?_, hcoe.2 c, d, fun h => e (hidle.1 h), f, nofun⟩
    exact (hmem _).2 (b (o, p) (List.mem_zipIdx_iff_getElem?.2 hp) ho)
  · rintro ⟨a, b, c, d, e, f, _⟩
    refine ⟨fun x hx => a x ((hmem x).2 hx), fun x hx hne => ?_, hcoe.1 c, d, fun h => e (hidle.2 h), f⟩
    exact (hmem _).1 (b x.2 x.1 (List.mem_zipIdx_iff_getElem?.1 hx) hne)

theorem queueAgrees_iff (s : State) : QueueAgrees s ↔ (view s).Jobs := by
  have hidle : (view s).idle = true ↔ s.dev.engine = .idle := by simp [viewOf, restGhost]
  exact ⟨fun ⟨a, b, c, d⟩ => ⟨a, b, c, fun h => d (hidle.1 h)⟩, fun ⟨a, b, c, d⟩ => ⟨a, b, c, fun h => d (hidle.2 h)⟩⟩

theorem darkLinksAgree_iff (s : State) : DarkLinksAgree s ↔ (view s).Links :=
  ⟨fun h => ⟨fun r hr => (h r hr).1, fun r hr => (h r hr).2⟩, fun h r hr => ⟨h.waits r hr, h.opened r hr⟩⟩

/-! ### Runs -/

/-- From one state to another the laws hold on under every ghost. -/
def Always (s t : State) : Prop := ∀ g, Keeps (viewOf g s) (viewOf g t)

/-- From one state to another the laws hold on under every ghost that leaves the engine its rest. -/
def Runs (s t : State) : Prop := ∀ g, g.busy = false → Keeps (viewOf g s) (viewOf g t)

theorem Always.runs {s t : State} (h : Always s t) : Runs s t := fun g _ => h g

/-- From one state at rest to another the laws hold on. -/
def Goes (s t : State) : Prop := Keeps (view s) (view t)

theorem Runs.refl (s : State) : Runs s s := fun _ _ => .refl _

theorem Runs.trans {s t u : State} (h : Runs s t) (h' : Runs t u) : Runs s u := fun g hg => (h g hg).trans (h' g hg)

theorem Goes.refl (s : State) : Goes s s := Keeps.refl _

theorem Goes.trans {s t u : State} (h : Goes s t) (h' : Goes t u) : Goes s u := Keeps.trans h h'

/-- The open shot and whether the sequencer has one are the same. -/
def SameShot (s t : State) : Prop := t.seq.openShot = s.seq.openShot ∧ t.seq.state.hasShot = s.seq.state.hasShot

theorem sameShot_of_seq {s t : State} (h : t.seq = s.seq) : SameShot s t := by
  unfold SameShot
  rw [h]
  exact ⟨rfl, rfl⟩

theorem SameShot.trans {s t u : State} (h : SameShot s t) (h' : SameShot t u) : SameShot s u :=
  ⟨h'.1.trans h.1, h'.2.trans h.2⟩

theorem Runs.goes {s t : State} (h : Runs s t) (hs : SameShot s t) : Goes s t := by
  have hg : restGhost t = restGhost s := by
    unfold restGhost
    rw [hs.1, hs.2]
  unfold Goes view
  rw [hg]
  exact h _ rfl

/-- The view of one state is that of another, under every ghost. -/
def Alike (s t : State) : Prop := ∀ g, viewOf g t = viewOf g s

theorem Alike.always {s t : State} (h : Alike s t) : Always s t := fun g => .of_eq (h g)

theorem Alike.runs {s t : State} (h : Alike s t) : Runs s t := h.always.runs

/-- What the laws speak of is left as it was. -/
theorem alike_of {s t : State} (h : t.table.slots = s.table.slots ∧ t.table.counter = s.table.counter ∧
    t.card.index = s.card.index ∧ t.card.handoffs = s.card.handoffs ∧ t.pool.owners = s.pool.owners ∧
    t.seq.scratch = s.seq.scratch ∧ t.dark = s.dark ∧ t.dev = s.dev) : Alike s t := by
  obtain ⟨hslots, hcounter, hindex, hhandoffs, howners, hscratch, hdark, hdev⟩ := h
  intro g
  unfold viewOf
  rw [hslots, hcounter, hindex, hhandoffs, howners, hscratch, hdark, hdev]

theorem Runs.foldl {α : Type} {step : State → α → State} (h : ∀ s a, Runs s (step s a)) (l : List α) (s : State) :
    Runs s (l.foldl step s) := by
  induction l generalizing s with
  | nil => exact .refl s
  | cons a l ih => exact (h s a).trans (ih _)

end Sys2Proof.ShotTable
end

section
namespace Sys2Proof.ShotTable
open Sys2Proof.Machine
namespace View

/-! ### Record slots changed one by one -/

/-- A change of a record that the laws admit in a view. -/
structure RecordChange (v : View) (r r' : Record) : Prop where
  number : r'.number = r.number
  life : r'.life = r.life ∨ (r.life = .held ∧ r'.life = .settled) ∨
    (r'.life = .retiring ∧ r.life ≠ .opened ∧ ∀ j ∈ v.queue, j.shot ≠ r.number)
  plane : r'.rawPlane = none ∨ (r'.rawPlane = r.rawPlane ∧ r'.life = r.life)
  link : Waits r'.darkLink → Waits r.darkLink
  card : r'.rawCard = r.rawCard ∨ r'.rawCard = .unwritten ∨ (¬ Waits r'.darkLink ∧ r'.life ≠ .opened) ∨
    r.rawCard ≠ .unwritten

/-- A change of a slot that the laws admit in a view: a record changed, a load's waiters changed, a load or a record gone. -/
inductive SlotChange (v : View) : RecordSlot → RecordSlot → Prop
  | free : SlotChange v .free .free
  | loading (n : Nat) (ws ws' : List LoadWaiter) : SlotChange v (.loading n ws) (.loading n ws')
  | unload (n : Nat) (ws : List LoadWaiter) : SlotChange v (.loading n ws) .free
  | record {r r' : Record} (h : RecordChange v r r') : SlotChange v (.inUse r) (.inUse r')
  | remove {r : Record} (ho : r.life ≠ .opened)
      (hj : r.life = .held ∨ r.life = .settled → ∀ j ∈ v.queue, j.shot ≠ r.number) : SlotChange v (.inUse r) .free

theorem RecordChange.refl (v : View) (r : Record) : RecordChange v r r :=
  ⟨rfl, .inl rfl, .inr ⟨rfl, rfl⟩, id, .inl rfl⟩

theorem SlotChange.refl (v : View) (x : RecordSlot) : SlotChange v x x := by
  cases x with
  | free => exact .free
  | loading n ws => exact .loading n ws ws
  | inUse r => exact .record (.refl v r)

section
variable {v : View} {l l' : List RecordSlot}

theorem forall₂_numbers (h : List.Forall₂ (SlotChange v) l l') :
    (l'.filterMap RecordSlot.number?).Sublist (l.filterMap RecordSlot.number?) := by
  induction h with
  | nil => exact List.Sublist.refl _
  | cons hx _ ih =>
    cases hx with
    | free => exact ih
    | loading n ws ws' => exact ih.cons_cons n
    | unload n ws => exact ih.cons n
    | @record r r' h =>
      change (r'.number :: _).Sublist (r.number :: _)
      rw [h.number]
      exact ih.cons_cons _
    | @remove r _ _ => exact ih.cons r.number

/-- A record after the change was one before. -/
theorem forall₂_back (h : List.Forall₂ (SlotChange v) l l') {r' : Record} (hr : r' ∈ l'.filterMap RecordSlot.record?) :
    ∃ r ∈ l.filterMap RecordSlot.record?, RecordChange v r r' := by
  induction h with
  | nil => cases hr
  | @cons x y l l' hx _ ih =>
    have hrest : r' ∈ l'.filterMap RecordSlot.record? → ∃ r ∈ (x :: l).filterMap RecordSlot.record?, RecordChange v r r' := by
      intro h
      obtain ⟨r, hr, hc⟩ := ih h
      obtain ⟨z, hz, he⟩ := List.mem_filterMap.1 hr
      exact ⟨r, List.mem_filterMap.2 ⟨z, List.mem_cons_of_mem _ hz, he⟩, hc⟩
    obtain ⟨z, hz, he⟩ := List.mem_filterMap.1 hr
    rcases List.mem_cons.1 hz with rfl | hz
    · cases hx with
      | record h =>
        cases he
        exact ⟨_, List.mem_filterMap.2 ⟨_, List.mem_cons_self, rfl⟩, h⟩
      | _ => cases he
    · exact hrest (List.mem_filterMap.2 ⟨z, hz, he⟩)

/-- A record before the change is one after it, or has been removed. -/
theorem forall₂_forth (h : List.Forall₂ (SlotChange v) l l') {r : Record} (hr : r ∈ l.filterMap RecordSlot.record?) :
    (∃ r' ∈ l'.filterMap RecordSlot.record?, RecordChange v r r') ∨
    (r.life ≠ .opened ∧ (r.life = .held ∨ r.life = .settled → ∀ j ∈ v.queue, j.shot ≠ r.number)) := by
  induction h with
  | nil => cases hr
  | @cons x y l l' hx _ ih =>
    obtain ⟨z, hz, he⟩ := List.mem_filterMap.1 hr
    rcases List.mem_cons.1 hz with rfl | hz
    · cases hx with
      | record h =>
        cases he
        exact .inl ⟨_, List.mem_filterMap.2 ⟨_, List.mem_cons_self, rfl⟩, h⟩
      | remove ho hj =>
        cases he
        exact .inr ⟨ho, hj⟩
      | _ => cases he
    · refine (ih (List.mem_filterMap.2 ⟨z, hz, he⟩)).imp (fun ⟨r', hr', hc⟩ => ?_) id
      obtain ⟨z', hz', he'⟩ := List.mem_filterMap.1 hr'
      exact ⟨r', List.mem_filterMap.2 ⟨z', List.mem_cons_of_mem _ hz', he'⟩, hc⟩

end

/-- Slots changed one by one as the laws admit keep them, when the planes named stay the same. -/
theorem keeps_slots (v : View) {slots : List RecordSlot} {loose : Multiset (Nat × Owner)}
    (h : List.Forall₂ (SlotChange v) v.slots slots)
    (hn : v.Numbers → v.Planes → ({ v with slots, loose } : View).named = v.named)
    (hl : v.Planes → ∀ x ∈ loose, x.2 ≠ .free) : Keeps v { v with slots, loose } where
  numbers hv := by
    have hsub := forall₂_numbers h
    exact ⟨hv.low, hv.high, hv.distinct.sublist hsub, fun n hm => hv.below n (hsub.subset hm), hv.index⟩
  opened _ ho := by
    refine ⟨ho.present, fun n hm => ?_, fun r' hr' hl => ?_⟩
    · obtain ⟨r, hr, hrn, hlife⟩ := ho.record n hm
      rcases forall₂_forth h hr with ⟨r', hr', hc⟩ | ⟨hne, _⟩
      · refine ⟨r', hr', hc.number.trans hrn, ?_⟩
        rcases hc.life with e | ⟨e, _⟩ | ⟨_, e, _⟩
        · exact e.trans hlife
        · rw [hlife] at e
          cases e
        · exact absurd hlife e
      · exact absurd hlife hne
    · obtain ⟨r, hr, hc⟩ := forall₂_back h hr'
      have hlife : r.life = .opened := by
        rcases hc.life with e | ⟨_, e⟩ | ⟨e, _⟩
        · exact e.symm.trans hl
        · rw [hl] at e
          cases e
        · rw [hl] at e
          cases e
      exact (ho.only r hr hlife).trans (congrArg some hc.number.symm)
  planes hv hp := by
    have hnamed := hn hv hp
    refine ⟨fun x hx => hp.owned x (hnamed ▸ hx), fun p o ho hne => hnamed ▸ hp.owner p o ho hne, hnamed ▸ hp.once,
      fun r' hr' hraw => ?_, hp.rest, hp.plan, hl hp⟩
    obtain ⟨r, hr, hc⟩ := forall₂_back h hr'
    rcases hc.plane with e | ⟨e, hlife⟩
    · rw [e] at hraw
      cases hraw
    · rw [hlife]
      exact hp.raw r hr (e ▸ hraw)
  jobs _ _ hj hk := by
    refine ⟨⟨hj.once, fun j hm => ?_, hj.running, hj.rest⟩, ⟨fun r' hr' hw => ?_, fun r' hr' hl => ?_⟩⟩
    · obtain ⟨r, hr, hrn, hlife⟩ := hj.record j hm
      rcases forall₂_forth h hr with ⟨r', hr', hc⟩ | ⟨_, hno⟩
      · refine ⟨r', hr', hc.number.trans hrn, ?_⟩
        rcases hc.life with e | ⟨_, e⟩ | ⟨_, _, hno⟩
        · rwa [e]
        · exact .inr e
        · exact absurd hrn.symm (hno j hm)
      · exact absurd hrn.symm (hno hlife j hm)
    · obtain ⟨r, hr, hc⟩ := forall₂_back h hr'
      obtain ⟨hraw, hjobs⟩ := hk.waits r hr (hc.link hw)
      refine ⟨?_, fun j hm hs => hjobs j hm (hs.trans hc.number)⟩
      rcases hc.card with e | e | ⟨e, _⟩ | e
      · exact e.trans hraw
      · exact e
      · exact absurd hw e
      · exact absurd hraw e
    · obtain ⟨r, hr, hc⟩ := forall₂_back h hr'
      have hlife : r.life = .opened := by
        rcases hc.life with e | ⟨_, e⟩ | ⟨e, _⟩
        · exact e.symm.trans hl
        · rw [hl] at e
          cases e
        · rw [hl] at e
          cases e
      have hraw := hk.opened r hr hlife
      rcases hc.card with e | e | ⟨_, e⟩ | e
      · exact e.trans hraw
      · exact e
      · exact absurd hl e
      · exact absurd hraw e

/-! ### The raw planes of slots -/

/-- The raw plane that a slot names. -/
def rawOf : RecordSlot → Multiset (Nat × Owner)
  | .inUse r => planeOf r.rawPlane (.shotRaw r.number)
  | _ => 0

theorem rawsOf_cons (x : RecordSlot) (l : List RecordSlot) : rawsOf (x :: l) = rawOf x + rawsOf l := by
  cases x with
  | inUse r =>
    cases hp : r.rawPlane with
    | none => simp [rawsOf, rawOf, planeOf, RecordSlot.record?, hp]
    | some p => simp [rawsOf, rawOf, planeOf, RecordSlot.record?, hp]
  | _ => exact (zero_add _).symm

theorem rawsOf_set {l : List RecordSlot} {i : Nat} {x y : RecordSlot} (h : l[i]? = some x) :
    rawOf x + rawsOf (l.set i y) = rawOf y + rawsOf l := by
  induction l generalizing i with
  | nil => cases h
  | cons z l ih =>
    cases i with
    | zero =>
      cases h
      simp only [List.set_cons_zero, rawsOf_cons]
      exact add_left_comm _ _ _
    | succ i =>
      simp only [List.set_cons_succ, rawsOf_cons]
      rw [add_left_comm, ih h, add_left_comm]

theorem rawsOf_map {l : List RecordSlot} {f : RecordSlot → RecordSlot} (h : ∀ x ∈ l, rawOf (f x) = rawOf x) :
    rawsOf (l.map f) = rawsOf l := by
  induction l with
  | nil => rfl
  | cons x l ih =>
    rw [List.map_cons, rawsOf_cons, rawsOf_cons, h x List.mem_cons_self,
      ih fun y hy => h y (List.mem_cons_of_mem _ hy)]

theorem forall₂_set {v : View} {l : List RecordSlot} {i : Nat} {x y : RecordSlot} (hi : l[i]? = some x)
    (hc : SlotChange v x y) : List.Forall₂ (SlotChange v) l (l.set i y) := by
  induction l generalizing i with
  | nil => cases hi
  | cons z l ih =>
    cases i with
    | zero =>
      cases hi
      exact .cons hc (List.forall₂_same.2 fun x _ => .refl v x)
    | succ i => exact .cons (.refl v z) (ih hi)

/-- One slot set. What it no longer names is loose. -/
theorem keeps_set (v : View) {i : Nat} {x y : RecordSlot} {loose : Multiset (Nat × Owner)} (hi : v.slots[i]? = some x)
    (hc : SlotChange v x y) (hl : v.Planes → loose = v.loose + rawOf x ∧ rawOf y = 0 ∨ loose = v.loose ∧ rawOf y = rawOf x) :
    Keeps v { v with slots := v.slots.set i y, loose } := by
  refine keeps_slots v (forall₂_set hi hc) (fun _ hp => ?_) fun hp z hz => ?_
  · have hset := rawsOf_set (y := y) hi
    unfold named
    dsimp only
    rcases hl hp with ⟨rfl, hy⟩ | ⟨rfl, hy⟩
    · rw [hy, zero_add] at hset
      rw [← hset]
      abel
    · rw [hy] at hset
      rw [add_left_cancel hset]
  · rcases hl hp with ⟨rfl, _⟩ | ⟨rfl, _⟩
    · rcases Multiset.mem_add.1 hz with hz | hz
      · exact hp.loose z hz
      · cases x with
        | inUse r =>
          cases hr : r.rawPlane with
          | none => simp [rawOf, planeOf, hr] at hz
          | some p =>
            simp only [rawOf, planeOf, hr, Option.map_some, Option.toList_some, Multiset.coe_singleton,
              Multiset.mem_singleton] at hz
            rw [hz]
            nofun
        | _ => cases Multiset.notMem_zero _ hz
    · exact hp.loose z hz

/-- Every slot changed, each naming the plane it did. -/
theorem keeps_map (v : View) {f : RecordSlot → RecordSlot} (hc : ∀ x ∈ v.slots, SlotChange v x (f x))
    (hr : ∀ x ∈ v.slots, rawOf (f x) = rawOf x) : Keeps v { v with slots := v.slots.map f } := by
  have h : List.Forall₂ (SlotChange v) v.slots (v.slots.map f) :=
    List.forall₂_map_right_iff.2 (List.forall₂_same.2 hc)
  refine keeps_slots v (loose := v.loose) h (fun _ _ => ?_) fun hp => hp.loose
  unfold named
  dsimp only
  rw [rawsOf_map hr]

end View
end Sys2Proof.ShotTable
end

section
namespace Sys2Proof.ShotTable
open Sys2Proof.Machine
namespace View

/-! ### Planes given, taken and named anew -/

/-- A change of what the law of the planes alone speaks of. -/
theorem keeps_planes (v w : View) (hslots : w.slots = v.slots) (hcounter : w.counter = v.counter)
    (hindex : w.index = v.index) (hopen : w.openShot = v.openShot) (hhas : w.hasShot = v.hasShot)
    (hqueue : w.queue = v.queue) (hidle : w.idle = v.idle) (h : v.Numbers → v.Planes → w.Planes) : Keeps v w := by
  obtain ⟨slots, counter, index, openShot, hasShot, owners, scratch, entries, plan, queue, idle, holds, handoffs, loose⟩ := w
  subst hslots hcounter hindex hopen hhas hqueue hidle
  exact ⟨fun ⟨a, b, c, d, e⟩ => ⟨a, b, c, d, e⟩, fun _ ⟨a, b, c⟩ => ⟨a, b, c⟩, h,
    fun _ _ ⟨a, b, c, d⟩ ⟨e, f⟩ => ⟨⟨a, b, c, d⟩, ⟨e, f⟩⟩⟩

/-- A loose plane becomes FREE. -/
theorem keeps_letGo (v : View) {p : Nat} {o : Owner} {loose : Multiset (Nat × Owner)}
    (h : v.loose = (p, o) ::ₘ loose) : Keeps v { v with owners := v.owners.set p .free, loose } := by
  refine keeps_planes _ _ rfl rfl rfl rfl rfl rfl rfl fun _ hp => ?_
  have hnamed : v.named = (p, o) ::ₘ ({ v with owners := v.owners.set p .free, loose } : View).named := by
    unfold named
    rw [h, Multiset.add_cons]
  have honce := hp.once
  rw [hnamed, Multiset.map_cons, Multiset.nodup_cons] at honce
  refine ⟨fun x hx => ?_, fun q o' hq hne => ?_, honce.2, hp.raw, hp.rest, hp.plan, fun x hx => hp.loose x ?_⟩
  · have hx' : p ≠ x.1 := by
      rintro rfl
      exact honce.1 (Multiset.mem_map.2 ⟨x, hx, rfl⟩)
    dsimp only
    rw [List.getElem?_set_ne hx']
    exact hp.owned x (hnamed ▸ Multiset.mem_cons_of_mem hx)
  · dsimp only at hq
    rw [List.getElem?_set] at hq
    split at hq
    · split at hq
      · cases hq
        exact absurd rfl hne
      · cases hq
    · next hpq =>
      have hm := hp.owner q o' hq hne
      rw [hnamed] at hm
      rcases Multiset.mem_cons.1 hm with e | hm
      · cases e
        exact absurd rfl hpq
      · exact hm
  · rw [h]
    exact Multiset.mem_cons_of_mem hx

theorem named_not_free {v : View} (hp : v.Planes) {x : Nat × Owner} (h : x ∈ v.named) : x.2 ≠ .free := by
  have hplane : ∀ {q : Option Nat} {o : Owner}, x ∈ planeOf q o → x.2 = o := by
    intro q o h
    cases q with
    | none => cases Multiset.notMem_zero _ h
    | some p =>
      rw [Multiset.mem_singleton.1 h]
  simp only [named, Multiset.mem_add] at h
  rcases h with (((((h | h) | h) | h) | h) | h) | h
  · obtain ⟨r, _, h⟩ := List.mem_filterMap.1 (Multiset.mem_coe.1 h)
    obtain ⟨p, _, rfl⟩ := Option.map_eq_some_iff.1 h
    nofun
  · rw [hplane h]
    nofun
  · obtain ⟨r, _, h⟩ := List.mem_filterMap.1 (Multiset.mem_coe.1 h)
    obtain ⟨p, _, rfl⟩ := Option.map_eq_some_iff.1 h
    nofun
  · rw [hplane h]
    nofun
  · rw [hplane h]
    nofun
  · obtain ⟨r, _, rfl⟩ := List.mem_map.1 (Multiset.mem_coe.1 h)
    nofun
  · exact hp.loose x h

/-- A FREE plane is taken, and is loose. -/
theorem keeps_takeUp (v : View) {p : Nat} {o : Owner} (hp : v.owners[p]? = some .free) (ho : o ≠ .free) :
    Keeps v { v with owners := v.owners.set p o, loose := (p, o) ::ₘ v.loose } := by
  refine keeps_planes _ _ rfl rfl rfl rfl rfl rfl rfl fun _ hv => ?_
  have hnamed : ({ v with owners := v.owners.set p o, loose := (p, o) ::ₘ v.loose } : View).named = (p, o) ::ₘ v.named := by
    unfold named
    dsimp only
    rw [Multiset.add_cons]
  have hnew : ∀ x ∈ v.named, p ≠ x.1 := by
    rintro x hx rfl
    have := hv.owned x hx
    rw [hp] at this
    exact named_not_free hv hx (Option.some.inj this).symm
  have hlt := (List.getElem?_eq_some_iff.1 hp).1
  refine ⟨fun x hx => ?_, fun q o' hq hne => ?_, ?_, hv.raw, hv.rest, hv.plan, fun x hx => ?_⟩
  · rw [hnamed] at hx
    dsimp only
    rcases Multiset.mem_cons.1 hx with rfl | hx
    · rw [List.getElem?_set_self hlt]
    · rw [List.getElem?_set_ne (hnew x hx)]
      exact hv.owned x hx
  · rw [hnamed]
    dsimp only at hq
    by_cases hpq : p = q
    · subst hpq
      rw [List.getElem?_set_self hlt] at hq
      cases hq
      exact Multiset.mem_cons_self _ _
    · rw [List.getElem?_set_ne hpq] at hq
      exact Multiset.mem_cons_of_mem (hv.owner q o' hq hne)
  · rw [hnamed, Multiset.map_cons, Multiset.nodup_cons]
    refine ⟨fun hm => ?_, hv.once⟩
    obtain ⟨x, hx, e⟩ := Multiset.mem_map.1 hm
    exact hnew x hx e.symm
  · rcases Multiset.mem_cons.1 hx with rfl | hx
    · exact ho
    · exact hv.loose x hx

/-- What names the planes changes, and the planes named stay the same. -/
theorem keeps_rename (v : View) {scratch : Option Nat} {entries : List DarkEntry} {plan : List Nat}
    {holds : Option RunHolds} {handoffs : List Handoff} {loose : Multiset (Nat × Owner)}
    (hn : v.Planes → ({ v with scratch, entries, plan, holds, handoffs, loose } : View).named = v.named)
    (hrest : v.Planes → v.idle = true → holds = none)
    (hplan : v.Planes → ∀ e ∈ plan, (entries.getD e .free).state = .planned)
    (hl : v.Planes → ∀ x ∈ loose, x.2 ≠ .free) :
    Keeps v { v with scratch, entries, plan, holds, handoffs, loose } := by
  refine keeps_planes _ _ rfl rfl rfl rfl rfl rfl rfl fun _ hv => ?_
  have hnamed := hn hv
  exact ⟨fun x hx => hv.owned x (hnamed ▸ hx), fun p o ho hne => hnamed ▸ hv.owner p o ho hne, hnamed ▸ hv.once, hv.raw,
    hrest hv, hplan hv, hl hv⟩

/-- The planes of the dark entries when one of them is set. -/
theorem darksOf_set {l : List DarkEntry} {e : Nat} {x y : DarkEntry} (h : l[e]? = some x) :
    planeOf x.state.plane? (.dark e) + darksOf (l.set e y) = planeOf y.state.plane? (.dark e) + darksOf l := by
  have key : ∀ (l : List DarkEntry) (k e : Nat), l[e]? = some x →
      planeOf x.state.plane? (.dark (k + e)) + ((l.set e y).zipIdx k).filterMap
        (fun z => z.1.state.plane?.map fun p => (p, Owner.dark z.2)) =
      planeOf y.state.plane? (.dark (k + e)) + (l.zipIdx k).filterMap
        (fun z => z.1.state.plane?.map fun p => (p, Owner.dark z.2)) := by
    intro l
    have hcons : ∀ (z : DarkEntry) (l : List DarkEntry) (k : Nat),
        ((((z :: l).zipIdx k).filterMap fun z => z.1.state.plane?.map fun p => (p, Owner.dark z.2) :
          List (Nat × Owner)) : Multiset (Nat × Owner)) = planeOf z.state.plane? (.dark k) +
        ((l.zipIdx (k + 1)).filterMap fun z => z.1.state.plane?.map fun p => (p, Owner.dark z.2) :
          List (Nat × Owner)) := by
      intro z l k
      rw [List.zipIdx_cons]
      cases hp : z.state.plane? with
      | none => simp [planeOf, hp]
      | some p => simp [planeOf, hp]
    induction l with
    | nil => nofun
    | cons z l ih =>
      intro k e he
      cases e with
      | zero =>
        cases he
        simp only [List.set_cons_zero, hcons, Nat.add_zero]
        exact add_left_comm _ _ _
      | succ e =>
        simp only [List.set_cons_succ, hcons]
        rw [add_left_comm, show k + (e + 1) = (k + 1) + e by omega, ih (k + 1) e he, add_left_comm]
  have h0 := key l 0 e h
  rwa [Nat.zero_add] at h0

/-! ### The index and the counter -/

/-- The index changed, its numbers below the counter. -/
theorem keeps_index (v : View) {index : List IndexEntry}
    (h : v.Numbers → ∀ x ∈ index, x.shot < v.counter) : Keeps v { v with index } :=
  ⟨fun hv => ⟨hv.low, hv.high, hv.distinct, hv.below, h hv⟩, fun _ ⟨a, b, c⟩ => ⟨a, b, c⟩,
    fun _ ⟨a, b, c, d, e, f, g⟩ => ⟨a, b, c, d, e, f, g⟩, fun _ _ ⟨a, b, c, d⟩ ⟨e, f⟩ => ⟨⟨a, b, c, d⟩, ⟨e, f⟩⟩⟩

/-- The counter steps up, and the index is taken anew below it. -/
theorem keeps_counter (v : View) {index : List IndexEntry} {counter : Nat} (hle : v.counter ≤ counter)
    (hhigh : v.Numbers → counter ≤ 4294967296) (h : v.Numbers → ∀ x ∈ index, x.shot < counter) :
    Keeps v { v with index, counter } :=
  ⟨fun hv => ⟨hv.low.trans hle, hhigh hv, hv.distinct, fun n hn => (hv.below n hn).trans_le hle, h hv⟩,
    fun _ ⟨a, b, c⟩ => ⟨a, b, c⟩, fun _ ⟨a, b, c, d, e, f, g⟩ => ⟨a, b, c, d, e, f, g⟩,
    fun _ _ ⟨a, b, c, d⟩ ⟨e, f⟩ => ⟨⟨a, b, c, d⟩, ⟨e, f⟩⟩⟩

/-! ### Jobs -/

/-- A change of what the law of the jobs speaks of, but for the engine's rest in the law of the planes. -/
theorem keeps_jobs (v : View) {queue : List Job} {idle : Bool} {holds : Option RunHolds}
    (hp : v.Planes → ({ v with queue, idle, holds } : View).Planes)
    (hj : v.Numbers → v.Opened → v.Jobs → v.Links →
      ({ v with queue, idle, holds } : View).Jobs ∧ ({ v with queue, idle, holds } : View).Links) :
    Keeps v { v with queue, idle, holds } :=
  ⟨fun ⟨a, b, c, d, e⟩ => ⟨a, b, c, d, e⟩, fun _ ⟨a, b, c⟩ => ⟨a, b, c⟩, fun _ => hp, hj⟩

/-- Jobs leave the queue. -/
theorem keeps_dropJobs (v : View) (p : Job → Bool) : Keeps v { v with queue := v.queue.filter p } := by
  refine keeps_jobs v (fun ⟨a, b, c, d, e, f, g⟩ => ⟨a, b, c, d, e, f, g⟩) fun _ _ hj hl => ?_
  have hsub : ∀ j ∈ v.queue.filter p, j ∈ v.queue := fun j hm => List.mem_of_mem_filter hm
  exact ⟨⟨hj.once.sublist (List.filter_sublist.map _), fun j hm => hj.record j (hsub j hm),
    (List.Sublist.length_le (List.filter_sublist.filter _)).trans hj.running,
    fun h j hm => hj.rest h j (hsub j hm)⟩,
    ⟨fun r hr hw => ⟨(hl.waits r hr hw).1, fun j hm => (hl.waits r hr hw).2 j (hsub j hm)⟩, hl.opened⟩⟩

/-- Jobs changed in their places, none of them set RUNNING. -/
theorem keeps_mapJobs (v : View) {f : Job → Job} (hshot : ∀ j ∈ v.queue, (f j).shot = j.shot)
    (hkind : ∀ j ∈ v.queue, (f j).kind = j.kind) (hrun : ∀ j ∈ v.queue, (f j).running = true → j.running = true) :
    Keeps v { v with queue := v.queue.map f } := by
  refine keeps_jobs v (fun ⟨a, b, c, d, e, f, g⟩ => ⟨a, b, c, d, e, f, g⟩) fun _ _ hj hl => ?_
  have hstill : ∀ j ∈ v.queue, j.running = false → (f j).running = false := by
    intro j hm h
    cases hf : (f j).running with
    | false => rfl
    | true => rw [hrun j hm hf] at h; cases h
  have hkeys : (v.queue.map f).map (fun j => (j.shot, j.kind)) = v.queue.map fun j => (j.shot, j.kind) := by
    rw [List.map_map]
    exact List.map_congr_left fun j hm => by simp [hshot j hm, hkind j hm]
  have hcount : ∀ l : List Job, (∀ j ∈ l, (f j).running = true → j.running = true) →
      ((l.map f).filter (·.running)).length ≤ (l.filter (·.running)).length := by
    intro l
    induction l with
    | nil => exact fun _ => Nat.le_refl _
    | cons j l ih =>
      intro h
      have hl := ih fun j hm => h j (List.mem_cons_of_mem _ hm)
      rw [List.map_cons, List.filter_cons, List.filter_cons]
      split
      · next hf =>
        rw [if_pos (h j List.mem_cons_self hf)]
        exact Nat.succ_le_succ hl
      · split
        · exact Nat.le_succ_of_le hl
        · exact hl
  refine ⟨⟨hkeys ▸ hj.once, fun j' hm => ?_, (hcount _ hrun).trans hj.running, fun h j' hm => ?_⟩,
    ⟨fun r hr hw => ⟨(hl.waits r hr hw).1, fun j' hm hs => ?_⟩, hl.opened⟩⟩
  · obtain ⟨j, hq, rfl⟩ := List.mem_map.1 hm
    rw [hshot j hq]
    exact hj.record j hq
  · obtain ⟨j, hq, rfl⟩ := List.mem_map.1 hm
    exact hstill j hq (hj.rest h j hq)
  · obtain ⟨j, hq, rfl⟩ := List.mem_map.1 hm
    rw [hshot j hq] at hs
    exact hstill j hq ((hl.waits r hr hw).2 j hq hs)

/-- A QUEUED job joins, of a record that is HELD or SETTLED and has none of its kind. -/
theorem keeps_joinJob (v : View) {j : Job} (hr : ∃ r ∈ v.records, r.number = j.shot ∧ (r.life = .held ∨ r.life = .settled))
    (hnew : ∀ j' ∈ v.queue, (j'.shot, j'.kind) ≠ (j.shot, j.kind)) (hq : j.running = false) :
    Keeps v { v with queue := v.queue ++ [j] } := by
  refine keeps_jobs v (fun ⟨a, b, c, d, e, f, g⟩ => ⟨a, b, c, d, e, f, g⟩) fun _ _ hj hl => ?_
  have hcases : ∀ {P : Job → Prop}, (∀ j' ∈ v.queue, P j') → P j → ∀ j' ∈ v.queue ++ [j], P j' := by
    intro P h1 h2 j' hm
    rcases List.mem_append.1 hm with hm | hm
    · exact h1 j' hm
    · rw [List.mem_singleton.1 hm]
      exact h2
  refine ⟨⟨?_, hcases hj.record hr, ?_, fun h => hcases (hj.rest h) hq⟩,
    ⟨fun r hm hw => ⟨(hl.waits r hm hw).1, hcases (hl.waits r hm hw).2 fun _ => hq⟩, hl.opened⟩⟩
  · rw [List.map_append, List.nodup_append]
    refine ⟨hj.once, by simp, fun a ha b hb e => ?_⟩
    obtain ⟨j', hm, rfl⟩ := List.mem_map.1 ha
    rw [List.map_singleton, List.mem_singleton] at hb
    exact hnew j' hm (e.trans hb)
  · rw [List.filter_append, List.filter_singleton, hq]
    simpa using hj.running

/-- The engine is not IDLE any more, or its rest is not looked at. -/
theorem keeps_busy (v : View) : Keeps v { v with idle := false } :=
  ⟨fun ⟨a, b, c, d, e⟩ => ⟨a, b, c, d, e⟩, fun _ ⟨a, b, c⟩ => ⟨a, b, c⟩,
    fun _ ⟨a, b, c, d, _, f, g⟩ => ⟨a, b, c, d, nofun, f, g⟩,
    fun _ _ ⟨a, b, c, _⟩ ⟨e, f⟩ => ⟨⟨a, b, c, nofun⟩, ⟨e, f⟩⟩⟩

end View
end Sys2Proof.ShotTable
end

section
namespace Sys2Proof.ShotTable
open Sys2Proof.Machine
namespace View

/-! ### One slot filled or emptied -/

theorem numbers_set_perm {l : List RecordSlot} {i : Nat} {x y : RecordSlot} (h : l[i]? = some x) :
    (x.number?.toList ++ (l.set i y).filterMap RecordSlot.number?).Perm
      (y.number?.toList ++ l.filterMap RecordSlot.number?) := by
  have hcons : ∀ (z : RecordSlot) (l : List RecordSlot),
      (z :: l).filterMap RecordSlot.number? = z.number?.toList ++ l.filterMap RecordSlot.number? := by
    intro z l
    cases hz : z.number? with
    | none => rw [List.filterMap_cons_none hz]; rfl
    | some n => rw [List.filterMap_cons_some hz]; rfl
  induction l generalizing i with
  | nil => cases h
  | cons z l ih =>
    cases i with
    | zero =>
      cases h
      rw [List.set_cons_zero, hcons, hcons, ← List.append_assoc, ← List.append_assoc]
      exact List.perm_append_comm.append_right _
    | succ i =>
      rw [List.set_cons_succ, hcons, hcons]
      calc (x.number?.toList ++ (z.number?.toList ++ (l.set i y).filterMap RecordSlot.number?)).Perm
            (z.number?.toList ++ (x.number?.toList ++ (l.set i y).filterMap RecordSlot.number?)) :=
          List.perm_append_comm_assoc _ _ _
        _ |>.Perm (z.number?.toList ++ (y.number?.toList ++ l.filterMap RecordSlot.number?)) :=
          (ih h).append_left _
        _ |>.Perm (y.number?.toList ++ (z.number?.toList ++ l.filterMap RecordSlot.number?)) :=
          List.perm_append_comm_assoc _ _ _

/-- A record of the slots with one of them set is in it, or in another. -/
theorem mem_records_set {l : List RecordSlot} {i : Nat} {y : RecordSlot} {r : Record}
    (h : r ∈ (l.set i y).filterMap RecordSlot.record?) :
    y = .inUse r ∨ ∃ j : Nat, j ≠ i ∧ l[j]? = some (.inUse r) := by
  obtain ⟨z, hz, he⟩ := List.mem_filterMap.1 h
  have hz' : z = .inUse r := by
    cases z with
    | inUse q => cases he; rfl
    | _ => cases he
  subst hz'
  obtain ⟨j, hj⟩ := List.mem_iff_getElem?.1 hz
  by_cases hij : j = i
  · subst hij
    rw [List.getElem?_set] at hj
    rw [if_pos rfl] at hj
    split at hj
    · exact .inl (Option.some.inj hj)
    · cases hj
  · rw [List.getElem?_set_ne (Ne.symm hij)] at hj
    exact .inr ⟨j, hij, hj⟩

theorem mem_records_of_slot {l : List RecordSlot} {i : Nat} {r : Record} (h : l[i]? = some (.inUse r)) :
    r ∈ l.filterMap RecordSlot.record? := List.mem_filterMap.2 ⟨_, List.mem_of_getElem? h, rfl⟩

theorem slot_of_mem_records {l : List RecordSlot} {r : Record} (h : r ∈ l.filterMap RecordSlot.record?) :
    ∃ i : Nat, l[i]? = some (.inUse r) := by
  obtain ⟨z, hz, he⟩ := List.mem_filterMap.1 h
  cases z with
  | inUse q =>
    cases he
    exact List.mem_iff_getElem?.1 hz
  | _ => cases he

/-- A record in another slot than the one set stays. -/
theorem mem_records_set_ne {l : List RecordSlot} {i j : Nat} {y : RecordSlot} {r : Record} (hij : j ≠ i)
    (h : l[j]? = some (.inUse r)) : r ∈ (l.set i y).filterMap RecordSlot.record? :=
  mem_records_of_slot (by rw [List.getElem?_set_ne (Ne.symm hij)]; exact h)

/-- Two slots of a view that carry one number are the same. -/
theorem Numbers.slot_unique {v : View} (h : v.Numbers) {i j m : Nat} {x y : RecordSlot} (hi : v.slots[i]? = some x)
    (hj : v.slots[j]? = some y) (hx : x.number? = some m) (hy : y.number? = some m) : i = j := by
  have hp : v.slots.Pairwise fun a b => ∀ n ∈ a.number?, ∀ n' ∈ b.number?, n ≠ n' :=
    List.pairwise_filterMap.1 h.distinct
  rw [List.pairwise_iff_getElem] at hp
  obtain ⟨hil, rfl⟩ := List.getElem?_eq_some_iff.1 hi
  obtain ⟨hjl, rfl⟩ := List.getElem?_eq_some_iff.1 hj
  rcases Nat.lt_trichotomy i j with hlt | heq | hlt
  · exact absurd rfl (hp i j hil hjl hlt m hx m hy)
  · exact heq
  · exact absurd rfl (hp j i hjl hil hlt m hy m hx)

theorem Numbers.record_unique {v : View} (h : v.Numbers) {x y : Record} (hx : x ∈ v.records) (hy : y ∈ v.records)
    (e : x.number = y.number) : x = y := by
  obtain ⟨i, hi⟩ := slot_of_mem_records hx
  obtain ⟨j, hj⟩ := slot_of_mem_records hy
  obtain rfl := h.slot_unique hi hj (m := x.number) rfl (congrArg some e.symm)
  rw [hi] at hj
  cases hj
  rfl

/-- Every record of a view carries one of its numbers. -/
theorem number_mem {v : View} {r : Record} (h : r ∈ v.records) : r.number ∈ v.numbers := by
  obtain ⟨i, hi⟩ := slot_of_mem_records h
  exact List.mem_filterMap.2 ⟨_, List.mem_of_getElem? hi, rfl⟩

/-- The numbers, when a slot takes none that is not its own or new below the counter. -/
theorem Numbers.set {v : View} (h : v.Numbers) {i : Nat} {x y : RecordSlot} {counter : Nat} (hi : v.slots[i]? = some x)
    (hle : v.counter ≤ counter)
    (hy : ∀ n, y.number? = some n → x.number? = some n ∨ (n ∉ v.numbers ∧ n < counter)) :
    ((v.slots.set i y).filterMap RecordSlot.number?).Nodup ∧
    ∀ n ∈ (v.slots.set i y).filterMap RecordSlot.number?, n < counter := by
  have hperm := numbers_set_perm (y := y) hi
  have hmem : ∀ n ∈ (v.slots.set i y).filterMap RecordSlot.number?, n ∈ y.number?.toList ++ v.numbers := fun n hn =>
    hperm.subset (List.mem_append_right _ hn)
  constructor
  · by_cases hxy : x.number? = y.number?
    · rw [hxy] at hperm
      exact ((List.perm_append_left_iff _).1 hperm).nodup_iff.2 h.distinct
    · have hnodup : (y.number?.toList ++ v.numbers).Nodup := by
        cases hn : y.number? with
        | none => simpa using h.distinct
        | some n =>
          rcases hy n hn with e | ⟨hnew, _⟩
          · exact absurd (e.trans hn.symm) hxy
          · simpa using ⟨hnew, h.distinct⟩
      exact (List.nodup_append.1 (hperm.nodup_iff.2 hnodup)).2.1
  · intro n hn
    rcases List.mem_append.1 (hmem n hn) with hn' | hn'
    · have hyn : y.number? = some n := by simpa using hn'
      rcases hy n hyn with e | ⟨_, hlt⟩
      · have : n ∈ v.numbers := List.mem_filterMap.2 ⟨x, List.mem_of_getElem? hi, e⟩
        exact (h.below n this).trans_le hle
      · exact hlt
    · exact (h.below n hn').trans_le hle

/-- A slot without a record takes a load, or a SETTLED record without a plane and with its link at rest. -/
theorem keeps_fill (v : View) {i : Nat} {x y : RecordSlot} (hi : v.slots[i]? = some x) (hx : x.record? = none)
    (hy : v.Numbers → ∀ n, y.number? = some n → x.number? = some n ∨ (n ∉ v.numbers ∧ n < v.counter))
    (hr : ∀ r, y = .inUse r → r.life = .settled ∧ r.rawPlane = none ∧ ¬ Waits r.darkLink) :
    Keeps v { v with slots := v.slots.set i y } := by
  have hold : ∀ r ∈ v.records, ∃ j : Nat, j ≠ i ∧ v.slots[j]? = some (.inUse r) := by
    intro r hm
    obtain ⟨j, hj⟩ := slot_of_mem_records hm
    refine ⟨j, ?_, hj⟩
    rintro rfl
    rw [hi] at hj
    cases hj
    cases hx
  have hforth : ∀ r ∈ v.records, r ∈ (v.slots.set i y).filterMap RecordSlot.record? := fun r hm =>
    let ⟨_, hne, hj⟩ := hold r hm
    mem_records_set_ne hne hj
  have hback : ∀ r ∈ (v.slots.set i y).filterMap RecordSlot.record?, r ∈ v.records ∨ y = .inUse r := by
    intro r hm
    rcases mem_records_set hm with h | ⟨j, _, hj⟩
    · exact .inr h
    · exact .inl (mem_records_of_slot hj)
  refine ⟨fun h => ?_, fun _ h => ?_, fun _ h => ?_, fun _ _ h hl => ?_⟩
  · obtain ⟨h1, h2⟩ := h.set hi (Nat.le_refl _) (hy h)
    exact ⟨h.low, h.high, h1, h2, h.index⟩
  · refine ⟨h.present, fun n hn => ?_, fun r hm hlife => ?_⟩
    · obtain ⟨r, hm, hrn⟩ := h.record n hn
      exact ⟨r, hforth r hm, hrn⟩
    · rcases hback r hm with hm | e
      · exact h.only r hm hlife
      · rw [(hr r e).1] at hlife
        cases hlife
  · have hnamed : ({ v with slots := v.slots.set i y } : View).named = v.named := by
      have hset := rawsOf_set (y := y) hi
      have hx0 : rawOf x = 0 := by
        cases x with
        | inUse r => cases hx
        | _ => rfl
      have hy0 : rawOf y = 0 := by
        cases y with
        | inUse r =>
          simp only [rawOf, (hr r rfl).2.1]
          rfl
        | _ => rfl
      rw [hx0, hy0, zero_add, zero_add] at hset
      unfold named
      dsimp only
      rw [hset]
    refine ⟨fun z hz => h.owned z (hnamed ▸ hz), fun p o ho hne => hnamed ▸ h.owner p o ho hne, hnamed ▸ h.once,
      fun r hm hraw => ?_, h.rest, h.plan, h.loose⟩
    rcases hback r hm with hm | e
    · exact h.raw r hm hraw
    · rw [(hr r e).2.1] at hraw
      cases hraw
  · refine ⟨⟨h.once, fun j hj => ?_, h.running, h.rest⟩, ⟨fun r hm hw => ?_, fun r hm hlife => ?_⟩⟩
    · obtain ⟨r, hm, hrn⟩ := h.record j hj
      exact ⟨r, hforth r hm, hrn⟩
    · rcases hback r hm with hm | e
      · exact hl.waits r hm hw
      · exact absurd hw (hr r e).2.2
    · rcases hback r hm with hm | e
      · exact hl.opened r hm hlife
      · rw [(hr r e).1] at hlife
        cases hlife

/-! ### The open shot -/

/-- What becomes of the slot of the open shot when it is open no more: FREE, or HELD or VOID. -/
def OpenEnds (r : Record) (y : RecordSlot) : Prop :=
  y = .free ∨ ∃ r', y = .inUse r' ∧ r'.number = r.number ∧ r'.rawCard = r.rawCard ∧
    (r'.life = .held ∨ (r'.life = .void ∧ r'.rawPlane = none))

/-- The open shot is open no more. What its slot no longer names is loose. -/
theorem keeps_close (v : View) {i : Nat} {r : Record} {y : RecordSlot} {loose : Multiset (Nat × Owner)}
    (hi : v.slots[i]? = some (.inUse r)) (hopen : v.openShot = some r.number) (hy : OpenEnds r y)
    (hl : loose + rawOf y = v.loose + rawOf (.inUse r)) :
    Keeps v { v with slots := v.slots.set i y, openShot := none, hasShot := false, loose } := by
  have hr : r ∈ v.records := mem_records_of_slot hi
  have hynum : y.number? = none ∨ y.number? = some r.number := by
    rcases hy with rfl | ⟨r', rfl, e, _⟩
    · exact .inl rfl
    · exact .inr (congrArg some e)
  have hback : ∀ z ∈ (v.slots.set i y).filterMap RecordSlot.record?,
      (z ∈ v.records ∧ (v.Numbers → z.number ≠ r.number)) ∨ y = .inUse z := by
    intro z hm
    rcases mem_records_set hm with h | ⟨j, hne, hj⟩
    · exact .inr h
    · exact .inl ⟨mem_records_of_slot hj, fun hn e => hne (hn.slot_unique hj hi (congrArg some e) rfl)⟩
  have hyrec : ∀ z, y = .inUse z → z.number = r.number ∧ z.rawCard = r.rawCard ∧
      (z.life = .held ∨ (z.life = .void ∧ z.rawPlane = none)) := by
    rintro z rfl
    rcases hy with h | ⟨r', h, e⟩
    · cases h
    · cases h
      exact e
  have hnotopen : v.Numbers → v.Opened → ∀ z ∈ (v.slots.set i y).filterMap RecordSlot.record?, z.life ≠ .opened := by
    intro hn ho z hm hlife
    rcases hback z hm with ⟨hz, hne⟩ | e
    · have := ho.only z hz hlife
      rw [hopen] at this
      exact hne hn (Option.some.inj this).symm
    · rcases (hyrec z e).2.2 with h | ⟨h, _⟩ <;> rw [h] at hlife <;> cases hlife
  have hlifer : v.Numbers → v.Opened → r.life = .opened := by
    intro hn ho
    obtain ⟨z, hz, hzn, hlife⟩ := ho.record r.number hopen
    rwa [hn.record_unique hr hz hzn.symm]
  refine ⟨fun h => ?_, fun hn h => ⟨by simp, nofun, fun z hm e => absurd e (hnotopen hn h z hm)⟩, fun hn h => ?_,
    fun hn ho h hl => ?_⟩
  · obtain ⟨h1, h2⟩ := h.set hi (Nat.le_refl _) (y := y) fun n hyn => by
      rcases hynum with e | e
      · rw [e] at hyn
        cases hyn
      · exact .inl (e.symm.trans hyn)
    exact ⟨h.low, h.high, h1, h2, h.index⟩
  · have hnamed : ({ v with slots := v.slots.set i y, openShot := none, hasShot := false, loose } : View).named = v.named := by
      have hset := rawsOf_set (y := y) hi
      unfold named
      dsimp only
      apply add_right_cancel (b := rawOf y)
      calc _ = rawsOf (v.slots.set i y) + planeOf v.scratch .seqScratch + darksOf v.entries +
            planeOf (v.holds.bind (·.fetch)) .devFetch + planeOf (v.holds.bind (·.output)) .devOutput +
            handoffsOf v.handoffs + (loose + rawOf y) := by abel
        _ = (rawOf (.inUse r) + rawsOf (v.slots.set i y)) + planeOf v.scratch .seqScratch + darksOf v.entries +
            planeOf (v.holds.bind (·.fetch)) .devFetch + planeOf (v.holds.bind (·.output)) .devOutput +
            handoffsOf v.handoffs + v.loose := by rw [hl]; abel
        _ = _ := by rw [hset]; abel
    have hlooseNamed : ∀ x ∈ loose, x.2 ≠ .free := by
      intro x hx
      have hx' : x ∈ v.named := by
        rw [← hnamed]
        exact Multiset.mem_add.2 (.inr hx)
      exact named_not_free h hx'
    refine ⟨fun z hz => h.owned z (hnamed ▸ hz), fun p o ho hne => hnamed ▸ h.owner p o ho hne, hnamed ▸ h.once,
      fun z hm hraw => ?_, h.rest, h.plan, hlooseNamed⟩
    rcases hback z hm with ⟨hz, _⟩ | e
    · exact h.raw z hz hraw
    · rcases (hyrec z e).2.2 with hlife | ⟨_, hnone⟩
      · exact .inr hlife
      · rw [hnone] at hraw
        cases hraw
  · have hrl := hlifer hn ho
    have hnojob : ∀ j ∈ v.queue, j.shot ≠ r.number := by
      intro j hj e
      obtain ⟨z, hz, hzn, hlife⟩ := h.record j hj
      rw [hn.record_unique hz hr (hzn.trans e), hrl] at hlife
      rcases hlife with hlife | hlife <;> cases hlife
    refine ⟨⟨h.once, fun j hj => ?_, h.running, h.rest⟩, ⟨fun z hm hw => ?_, fun z hm e => absurd e (hnotopen hn ho z hm)⟩⟩
    · obtain ⟨z, hz, hzn, hlife⟩ := h.record j hj
      obtain ⟨k, hk⟩ := slot_of_mem_records hz
      refine ⟨z, mem_records_set_ne (j := k) ?_ hk, hzn, hlife⟩
      rintro rfl
      rw [hi] at hk
      cases hk
      exact hnojob j hj hzn.symm
    · rcases hback z hm with ⟨hz, _⟩ | e
      · exact hl.waits z hz hw
      · obtain ⟨hzn, hraw, _⟩ := hyrec z e
        exact ⟨hraw.trans (hl.opened r hr hrl), fun j hj hs => absurd (hs.trans hzn) (hnojob j hj)⟩

/-- A shot is created in a FREE slot, with a loose plane. -/
theorem keeps_create (v : View) {i p : Nat} {r : Record} {loose : Multiset (Nat × Owner)}
    (hi : v.slots[i]? = some .free) (hr : r.number = v.counter) (hlife : r.life = .opened) (hraw : r.rawCard = .unwritten)
    (hlink : ¬ Waits r.darkLink) (hplane : r.rawPlane = some p) (hl : v.loose = (p, .shotRaw v.counter) ::ₘ loose)
    (hc : v.counter < 4294967296) (hhas : v.hasShot = false) :
    Keeps v { v with
      slots := v.slots.set i (.inUse r), counter := v.counter + 1, openShot := some v.counter, hasShot := true
      loose } := by
  have hforth : ∀ z ∈ v.records, z ∈ (v.slots.set i (.inUse r)).filterMap RecordSlot.record? := by
    intro z hz
    obtain ⟨j, hj⟩ := slot_of_mem_records hz
    refine mem_records_set_ne (j := j) ?_ hj
    rintro rfl
    rw [hi] at hj
    cases hj
  have hback : ∀ z ∈ (v.slots.set i (.inUse r)).filterMap RecordSlot.record?, z ∈ v.records ∨ z = r := by
    intro z hm
    rcases mem_records_set hm with h | ⟨j, _, hj⟩
    · cases h
      exact .inr rfl
    · exact .inl (mem_records_of_slot hj)
  have hself : r ∈ (v.slots.set i (.inUse r)).filterMap RecordSlot.record? :=
    mem_records_of_slot (List.getElem?_set_self (List.getElem?_eq_some_iff.1 hi).1)
  have hnoopen : v.Opened → ∀ z ∈ v.records, z.life ≠ .opened := by
    intro ho z hz e
    have := ho.present.1 (by rw [ho.only z hz e]; rfl)
    rw [hhas] at this
    cases this
  refine ⟨fun h => ?_, fun hn h => ?_, fun hn h => ?_, fun hn ho h hl => ?_⟩
  · obtain ⟨h1, h2⟩ := h.set hi (Nat.le_succ _) (counter := v.counter + 1) (y := .inUse r) fun n hyn => by
      cases hyn
      rw [hr]
      exact .inr ⟨fun hm => Nat.lt_irrefl _ (h.below _ hm), Nat.lt_succ_self _⟩
    exact ⟨Nat.le_add_left _ _, hc, h1, h2, fun x hx => (h.index x hx).trans (Nat.lt_succ_self _)⟩
  · refine ⟨by simp, fun n hn => ?_, fun z hm e => ?_⟩
    · cases hn
      exact ⟨r, hself, hr, hlife⟩
    · rcases hback z hm with hz | rfl
      · exact absurd e (hnoopen h z hz)
      · exact congrArg some hr.symm
  · have hnamed : ({ v with
        slots := v.slots.set i (.inUse r), counter := v.counter + 1, openShot := some v.counter, hasShot := true
        loose } : View).named = v.named := by
      have hset := rawsOf_set (y := .inUse r) hi
      have hy : rawOf (.inUse r) = {(p, .shotRaw v.counter)} := by
        simp only [rawOf, hplane, hr]
        rfl
      rw [hy, show rawOf .free = 0 from rfl, zero_add] at hset
      unfold named
      dsimp only
      rw [hset, hl, ← Multiset.singleton_add]
      abel
    refine ⟨fun z hz => h.owned z (hnamed ▸ hz), fun p o ho hne => hnamed ▸ h.owner p o ho hne, hnamed ▸ h.once,
      fun z hm hraw => ?_, h.rest, h.plan, fun x hx => h.loose x (hl ▸ Multiset.mem_cons_of_mem hx)⟩
    rcases hback z hm with hz | rfl
    · exact h.raw z hz hraw
    · exact .inl hlife
  · refine ⟨⟨h.once, fun j hj => ?_, h.running, h.rest⟩, ⟨fun z hm hw => ?_, fun z hm e => ?_⟩⟩
    · obtain ⟨z, hz, hzn⟩ := h.record j hj
      exact ⟨z, hforth z hz, hzn⟩
    · rcases hback z hm with hz | rfl
      · exact hl.waits z hz hw
      · exact absurd hw hlink
    · rcases hback z hm with hz | rfl
      · exact hl.opened z hz e
      · exact hraw

/-- With no record of the open shot, the sequencer's leaving it changes nothing that the laws speak of. -/
theorem keeps_lose (v : View) (h : ∀ n ∈ v.openShot, ∀ r ∈ v.records, r.number ≠ n) :
    Keeps v { v with openShot := none, hasShot := false } := by
  have hnone : v.Opened → v.openShot = none := by
    intro ho
    cases hn : v.openShot with
    | none => rfl
    | some n =>
      obtain ⟨r, hr, e, _⟩ := ho.record n hn
      exact absurd e (h n hn r hr)
  refine ⟨fun ⟨a, b, c, d, e⟩ => ⟨a, b, c, d, e⟩, fun _ ho => ⟨by simp, nofun, fun r hr hl => ?_⟩,
    fun _ ⟨a, b, c, d, e, f, g⟩ => ⟨a, b, c, d, e, f, g⟩, fun _ _ ⟨a, b, c, d⟩ ⟨e, f⟩ => ⟨⟨a, b, c, d⟩, ⟨e, f⟩⟩⟩
  have := ho.only r hr hl
  rw [hnone ho] at this
  cases this

/-! ### A job dispatched -/

/-- The job of a shot and kind runs, its planes taken. -/
theorem keeps_dispatch (v : View) {n : Nat} {k : JobKind} {f : Job → Job} {holds : RunHolds}
    {loose : Multiset (Nat × Owner)} (hidle : v.idle = true)
    (hl : v.loose = planeOf holds.fetch .devFetch + planeOf holds.output .devOutput + loose)
    (hf : ∀ j, (f j).shot = j.shot ∧ (f j).kind = j.kind ∧ ((f j).running = true → j.running = true ∨ (j.shot = n ∧ j.kind = k)))
    (hlink : v.Numbers → ∀ r ∈ v.records, r.number = n → ¬ Waits r.darkLink) :
    Keeps v { v with queue := v.queue.map f, idle := false, holds := some holds, loose } := by
  refine ⟨fun ⟨a, b, c, d, e⟩ => ⟨a, b, c, d, e⟩, fun _ ⟨a, b, c⟩ => ⟨a, b, c⟩, fun _ h => ?_, fun hn ho h hk => ?_⟩
  · have hnone := h.rest hidle
    have hnamed : ({ v with queue := v.queue.map f, idle := false, holds := some holds, loose } : View).named = v.named := by
      unfold named
      dsimp only [Option.bind_some]
      rw [hl, hnone, show planeOf ((none : Option RunHolds).bind (·.fetch)) .devFetch = 0 from rfl,
        show planeOf ((none : Option RunHolds).bind (·.output)) .devOutput = 0 from rfl]
      abel
    exact ⟨fun z hz => h.owned z (hnamed ▸ hz), fun p o ho hne => hnamed ▸ h.owner p o ho hne, hnamed ▸ h.once, h.raw,
      nofun, h.plan, fun x hx => h.loose x (by rw [hl]; exact Multiset.mem_add.2 (.inr hx))⟩
  · have hquiet := h.rest hidle
    have hkeys : (v.queue.map f).map (fun j => (j.shot, j.kind)) = v.queue.map fun j => (j.shot, j.kind) := by
      rw [List.map_map]
      exact List.map_congr_left fun j _ => by simp [(hf j).1, (hf j).2.1]
    have hrun : ∀ j ∈ v.queue, (f j).running = true → j.shot = n ∧ j.kind = k := by
      intro j hm hr
      rcases (hf j).2.2 hr with h | h
      · rw [hquiet j hm] at h
        cases h
      · exact h
    refine ⟨⟨hkeys ▸ h.once, fun j' hm => ?_, ?_, nofun⟩, ⟨fun r hm' hw => ⟨(hk.waits r hm' hw).1, fun j' hm hs => ?_⟩, hk.opened⟩⟩
    · obtain ⟨j, hj, rfl⟩ := List.mem_map.1 hm
      rw [(hf j).1]
      exact h.record j hj
    · have hsub : (((v.queue.map f).filter (·.running)).map fun j => (j.shot, j.kind)).Nodup :=
        (hkeys ▸ h.once : ((v.queue.map f).map fun j => (j.shot, j.kind)).Nodup).sublist (List.filter_sublist.map _)
      have hall : ∀ x ∈ ((v.queue.map f).filter (·.running)).map (fun j => (j.shot, j.kind)), x = (n, k) := by
        intro x hx
        obtain ⟨j', hm, rfl⟩ := List.mem_map.1 hx
        obtain ⟨hm, hr⟩ := List.mem_filter.1 hm
        obtain ⟨j, hj, rfl⟩ := List.mem_map.1 hm
        obtain ⟨e1, e2⟩ := hrun j hj hr
        rw [(hf j).1, (hf j).2.1, e1, e2]
      have hrep := List.eq_replicate_of_mem hall
      rw [hrep, List.nodup_replicate, List.length_map] at hsub
      exact hsub
    · obtain ⟨j, hj, rfl⟩ := List.mem_map.1 hm
      cases hr : (f j).running with
      | false => rfl
      | true =>
        rw [(hf j).1] at hs
        exact absurd hw (hlink hn r hm' ((hs.symm.trans (hrun j hj hr).1)))

end View
end Sys2Proof.ShotTable
end

section
namespace Sys2Proof.ShotTable
open Sys2Proof.Machine
namespace View

/-! ### A record renumbered (R23, R24) -/

/-- The slots with a record renumbered. -/
def renumberSlot (old new : Nat) : RecordSlot → RecordSlot
  | .inUse r => .inUse (r.renumber old new)
  | x => x

theorem renumber_number (old new : Nat) (r : Record) : (r.renumber old new).number = renameShot old new r.number := by
  unfold Record.renumber renameShot
  split <;> rfl

/-- A renumbered record is the same but for its number and its former one. -/
theorem renumber_fields (old new : Nat) (r : Record) : (r.renumber old new).life = r.life ∧
    (r.renumber old new).rawPlane = r.rawPlane ∧ (r.renumber old new).darkLink = r.darkLink ∧
    (r.renumber old new).rawCard = r.rawCard := by
  unfold Record.renumber
  split <;> exact ⟨rfl, rfl, rfl, rfl⟩

theorem renameShot_inj {l : List Nat} {old new : Nat} (hnew : new ∉ l) {a b : Nat} (ha : a ∈ l) (hb : b ∈ l)
    (e : renameShot old new a = renameShot old new b) : a = b := by
  unfold renameShot at e
  split at e <;> split at e
  · next h1 h2 => exact h1.trans h2.symm
  · exact absurd (e ▸ hb) hnew
  · exact absurd (e ▸ ha) hnew
  · exact e

/-- The owner of a plane under the new number. -/
def renumberOwned (old new : Nat) (x : Nat × Owner) : Nat × Owner := (x.1, x.2.renumber old new)

theorem planeOf_renumber {old new : Nat} (q : Option Nat) {o : Owner} (h : o.renumber old new = o) :
    (planeOf q o).map (renumberOwned old new) = planeOf q o := by
  cases q with
  | none => rfl
  | some p =>
    change Multiset.map _ {(p, o)} = {(p, o)}
    rw [Multiset.map_singleton, renumberOwned, h]

theorem rawsOf_renumber (old new : Nat) (l : List RecordSlot) :
    rawsOf (l.map (renumberSlot old new)) = (rawsOf l).map (renumberOwned old new) := by
  induction l with
  | nil => rfl
  | cons x l ih =>
    rw [List.map_cons, rawsOf_cons, rawsOf_cons, Multiset.map_add, ih]
    congr 1
    cases x with
    | inUse r =>
      simp only [renumberSlot, rawOf, (renumber_fields old new r).2.1, renumber_number]
      cases r.rawPlane with
      | none => rfl
      | some p =>
        change {(p, _)} = Multiset.map _ {(p, _)}
        rw [Multiset.map_singleton]
        simp only [renumberOwned, Owner.renumber, renameShot]
        split <;> rfl
    | _ => rfl

theorem darksOf_renumber (old new : Nat) (l : List DarkEntry) :
    (darksOf l).map (renumberOwned old new) = darksOf l := by
  unfold darksOf
  rw [Multiset.map_coe, Multiset.coe_eq_coe]
  refine List.Perm.of_eq ?_
  rw [List.map_filterMap]
  refine List.filterMap_congr fun x _ => ?_
  cases x.1.state.plane? <;> rfl

/-- A hand-off under the new number. -/
def renumberHandoff (old new : Nat) (h : Handoff) : Handoff := { h with shot := renameShot old new h.shot }

theorem handoffsOf_renumber (old new : Nat) (l : List Handoff) :
    handoffsOf (l.map (renumberHandoff old new)) = (handoffsOf l).map (renumberOwned old new) := by
  unfold handoffsOf
  rw [Multiset.map_coe, Multiset.coe_eq_coe, List.map_map, List.map_map]
  refine List.Perm.of_eq (List.map_congr_left fun h _ => ?_)
  simp only [Function.comp, renumberHandoff, renumberOwned, Owner.renumber, renameShot]
  split <;> rfl

/-- A job under the new number. -/
def renumberJob (old new : Nat) (j : Job) : Job := { j with shot := renameShot old new j.shot }

/-- The view with a record renumbered. -/
def renumbered (v : View) (old : Nat) : View :=
  { v with
    slots := v.slots.map (renumberSlot old v.counter)
    counter := v.counter + 1
    openShot := v.openShot.map (renameShot old v.counter)
    owners := v.owners.map (Owner.renumber old v.counter)
    queue := v.queue.map (renumberJob old v.counter)
    handoffs := v.handoffs.map (renumberHandoff old v.counter)
    loose := v.loose.map (renumberOwned old v.counter) }

section
variable {v : View} {old : Nat}

theorem records_renumbered : (v.renumbered old).records = v.records.map (Record.renumber old v.counter) := by
  unfold records renumbered
  dsimp only
  rw [List.filterMap_map, List.map_filterMap]
  refine List.filterMap_congr fun x _ => ?_
  cases x <;> rfl

theorem named_renumbered : (v.renumbered old).named = v.named.map (renumberOwned old v.counter) := by
  unfold named renumbered
  dsimp only
  simp only [rawsOf_renumber, handoffsOf_renumber, Multiset.map_add, darksOf_renumber]
  rw [planeOf_renumber v.scratch (o := .seqScratch) rfl, planeOf_renumber _ (o := .devFetch) rfl,
    planeOf_renumber _ (o := .devOutput) rfl]

/-- A resident record is renumbered: its number is nowhere else, so every number of a slot is renamed. -/
theorem numbers_renumbered (hn : v.Numbers) (h : ∃ r ∈ v.records, r.number = old) :
    (v.renumbered old).numbers = v.numbers.map (renameShot old v.counter) := by
  obtain ⟨r, hr, hrn⟩ := h
  obtain ⟨i, hi⟩ := slot_of_mem_records hr
  unfold numbers renumbered
  dsimp only
  rw [List.filterMap_map, List.map_filterMap]
  refine List.filterMap_congr fun x hx => ?_
  cases x with
  | free => rfl
  | loading m ws =>
    obtain ⟨j, hj⟩ := List.mem_iff_getElem?.1 hx
    have hm : m ≠ old := by
      rintro rfl
      obtain rfl := hn.slot_unique hi hj (congrArg some hrn) rfl
      rw [hi] at hj
      cases hj
    simp [renumberSlot, RecordSlot.number?, renameShot, hm]
  | inUse q => simp [renumberSlot, RecordSlot.number?, renumber_number]

end

/-- A resident record takes the counter's value as its number throughout. -/
theorem keeps_renumber (v : View) {old : Nat} (hc : v.counter < 4294967296) (h : ∃ r ∈ v.records, r.number = old) :
    Keeps v (v.renumbered old) := by
  have hnew : v.Numbers → v.counter ∉ v.numbers := fun hn hm => Nat.lt_irrefl _ (hn.below _ hm)
  have hmem : ∀ {r'}, r' ∈ (v.renumbered old).records ↔ ∃ r ∈ v.records, r.renumber old v.counter = r' := by
    intro r'
    rw [records_renumbered, List.mem_map]
  refine ⟨fun hn => ?_, fun _ ho => ?_, fun _ hp => ?_, fun hn _ hj hl => ?_⟩
  · have hnums := numbers_renumbered hn h
    refine ⟨Nat.le_add_left _ _, hc, ?_, fun n hm => ?_, fun x hx => (hn.index x hx).trans (Nat.lt_succ_self _)⟩
    · rw [hnums]
      exact List.Nodup.map_on (fun a ha b hb e => renameShot_inj (hnew hn) ha hb e) hn.distinct
    · rw [hnums] at hm
      obtain ⟨a, ha, rfl⟩ := List.mem_map.1 hm
      unfold renameShot
      split
      · exact Nat.lt_succ_self _
      · exact (hn.below a ha).trans (Nat.lt_succ_self _)
  · refine ⟨?_, fun n hm => ?_, fun r' hr' hlife => ?_⟩
    · unfold renumbered
      dsimp only
      rw [Option.isSome_map]
      exact ho.present
    · obtain ⟨m, hopen, rfl⟩ := Option.map_eq_some_iff.1 hm
      obtain ⟨r, hr, hrm, hlife⟩ := ho.record m hopen
      exact ⟨_, hmem.2 ⟨r, hr, rfl⟩, by rw [renumber_number, hrm], (renumber_fields _ _ r).1.trans hlife⟩
    · obtain ⟨r, hr, rfl⟩ := hmem.1 hr'
      rw [(renumber_fields _ _ r).1] at hlife
      have := ho.only r hr hlife
      unfold renumbered
      dsimp only
      rw [this, renumber_number]
      rfl
  · refine ⟨fun x hx => ?_, fun p o hpo hne => ?_, ?_, fun r' hr' hraw => ?_, hp.rest, hp.plan, fun x hx => ?_⟩
    · rw [named_renumbered] at hx
      obtain ⟨y, hy, rfl⟩ := Multiset.mem_map.1 hx
      unfold renumbered renumberOwned
      dsimp only
      rw [List.getElem?_map, hp.owned y hy]
      rfl
    · unfold renumbered at hpo
      dsimp only at hpo
      rw [List.getElem?_map, Option.map_eq_some_iff] at hpo
      obtain ⟨o', hpo', rfl⟩ := hpo
      rw [named_renumbered]
      refine Multiset.mem_map.2 ⟨(p, o'), hp.owner p o' hpo' fun e => hne ?_, rfl⟩
      rw [e]
      rfl
    · rw [named_renumbered, Multiset.map_map]
      exact hp.once
    · obtain ⟨r, hr, rfl⟩ := hmem.1 hr'
      rw [(renumber_fields _ _ r).2.1] at hraw
      rw [(renumber_fields _ _ r).1]
      exact hp.raw r hr hraw
    · obtain ⟨y, hy, rfl⟩ := Multiset.mem_map.1 hx
      have := hp.loose y hy
      cases hyo : y.2 with
      | free => exact absurd hyo this
      | shotRaw n =>
        simp only [renumberOwned, hyo, Owner.renumber]
        split <;> nofun
      | handoff n k =>
        simp only [renumberOwned, hyo, Owner.renumber]
        split <;> nofun
      | _ =>
        simp only [renumberOwned, hyo, Owner.renumber]
        nofun
  · have hshot : ∀ j ∈ v.queue, j.shot ∈ v.numbers := by
      intro j hm
      obtain ⟨r, hr, e, _⟩ := hj.record j hm
      exact e ▸ number_mem hr
    refine ⟨⟨?_, fun j' hm => ?_, ?_, fun hidle j' hm => ?_⟩, ⟨fun r' hr' hw => ?_, fun r' hr' hlife => ?_⟩⟩
    · have hkeys : (v.renumbered old).queue.map (fun j => (j.shot, j.kind)) =
          (v.queue.map fun j => (j.shot, j.kind)).map fun x => (renameShot old v.counter x.1, x.2) := by
        unfold renumbered
        dsimp only
        rw [List.map_map, List.map_map]
        rfl
      rw [hkeys]
      refine List.Nodup.map_on (fun a ha b hb e => ?_) hj.once
      obtain ⟨ja, hja, rfl⟩ := List.mem_map.1 ha
      obtain ⟨jb, hjb, rfl⟩ := List.mem_map.1 hb
      rw [Prod.mk.injEq] at e ⊢
      exact ⟨renameShot_inj (hnew hn) (hshot ja hja) (hshot jb hjb) e.1, e.2⟩
    · obtain ⟨j, hq, rfl⟩ := List.mem_map.1 hm
      obtain ⟨r, hr, e, hlife⟩ := hj.record j hq
      refine ⟨_, hmem.2 ⟨r, hr, rfl⟩, ?_, by rwa [(renumber_fields _ _ r).1]⟩
      rw [renumber_number, e]
      rfl
    · have hcount : ((v.renumbered old).queue.filter (·.running)) =
          (v.queue.filter (·.running)).map (renumberJob old v.counter) := by
        unfold renumbered
        dsimp only
        rw [List.filter_map]
        rfl
      rw [hcount, List.length_map]
      exact hj.running
    · obtain ⟨j, hq, rfl⟩ := List.mem_map.1 hm
      exact hj.rest hidle j hq
    · obtain ⟨r, hr, rfl⟩ := hmem.1 hr'
      obtain ⟨_, _, hlink, hraw⟩ := renumber_fields old v.counter r
      rw [hlink] at hw
      rw [hraw]
      obtain ⟨h1, h2⟩ := hl.waits r hr hw
      refine ⟨h1, fun j' hm hs => ?_⟩
      obtain ⟨j, hq, rfl⟩ := List.mem_map.1 hm
      rw [renumber_number] at hs
      exact h2 j hq (renameShot_inj (hnew hn) (hshot j hq) (number_mem hr) hs)
    · obtain ⟨r, hr, rfl⟩ := hmem.1 hr'
      obtain ⟨hlife', _, _, hraw⟩ := renumber_fields old v.counter r
      rw [hraw]
      exact hl.opened r hr (hlife' ▸ hlife)

end View
end Sys2Proof.ShotTable
end

section
namespace Sys2Proof.ShotTable
open Sys2Proof.Machine View

/-! ### Records changed and removed -/

/-- A change of a record that keeps its number, life and plane, and brings no dark link or card state that the laws would
have to answer for. -/
structure MildChange (r r' : Record) : Prop where
  number : r'.number = r.number
  life : r'.life = r.life
  plane : r'.rawPlane = r.rawPlane
  link : Waits r'.darkLink → Waits r.darkLink
  card : r'.rawCard = r.rawCard ∨ r'.rawCard = .unwritten ∨ (¬ Waits r'.darkLink ∧ r'.life ≠ .opened) ∨
    r.rawCard ≠ .unwritten

theorem MildChange.refl (r : Record) : MildChange r r := ⟨rfl, rfl, rfl, id, .inl rfl⟩

theorem MildChange.recordChange {r r' : Record} (h : MildChange r r') (v : View) : RecordChange v r r' :=
  ⟨h.number, .inl h.life, .inr ⟨h.plane, h.life⟩, h.link, h.card⟩

theorem MildChange.rawOf {r r' : Record} (h : MildChange r r') : rawOf (.inUse r') = rawOf (.inUse r) := by
  simp only [View.rawOf, h.plane, h.number]

theorem runs_mapSlots {s t : State} {f : RecordSlot → RecordSlot} (ht : ∀ g, viewOf g t =
    { viewOf g s with slots := s.table.slots.map f }) (hrec : ∀ r ∈ residents s, ∃ r', f (.inUse r) = .inUse r' ∧ MildChange r r')
    (hfree : f .free = .free) (hload : ∀ n ws, ∃ ws', f (.loading n ws) = .loading n ws') : Runs s t := by
  intro g _
  rw [ht g]
  refine keeps_map (viewOf g s) (fun x hx => ?_) fun x hx => ?_
  · cases x with
    | free => rw [hfree]; exact .free
    | loading n ws =>
      obtain ⟨ws', e⟩ := hload n ws
      rw [e]
      exact .loading n ws ws'
    | inUse r =>
      obtain ⟨r', e, h⟩ := hrec r (List.mem_filterMap.2 ⟨_, hx, rfl⟩)
      rw [e]
      exact .record (h.recordChange _)
  · cases x with
    | free => rw [hfree]
    | loading n ws =>
      obtain ⟨ws', e⟩ := hload n ws
      rw [e]
      rfl
    | inUse r =>
      obtain ⟨r', e, h⟩ := hrec r (List.mem_filterMap.2 ⟨_, hx, rfl⟩)
      rw [e]
      exact h.rawOf

/-- The record of a number changed mildly. -/
theorem runs_updateRecord {n : Nat} {f : Record → Record} {s : State}
    (h : ∀ r ∈ residents s, r.number = n → MildChange r (f r)) : Runs s (updateRecord n f s) := by
  refine runs_mapSlots (f := RecordSlot.mapRecord n f) (fun g => rfl) (fun r hr => ?_) rfl fun m ws => ⟨ws, rfl⟩
  simp only [RecordSlot.mapRecord, beq_iff_eq]
  split
  · next e => exact ⟨_, rfl, h r hr e⟩
  · exact ⟨_, rfl, .refl r⟩

/-- Every record changed mildly. -/
theorem runs_updateRecords {f : Record → Record} {s : State} (h : ∀ r ∈ residents s, MildChange r (f r)) :
    Runs s (updateRecords f s) := by
  refine runs_mapSlots (f := RecordSlot.mapEach f) (fun g => ?_) (fun r hr => ⟨_, rfl, h r hr⟩) rfl fun m ws => ⟨ws, rfl⟩
  have hslots : (updateRecords f s).table.slots = s.table.slots.map (RecordSlot.mapEach f) :=
    List.map_congr_left fun x _ => by cases x <;> rfl
  unfold viewOf
  rw [hslots]
  rfl

/-- The slot of the record that carries a number. -/
theorem slotOf_some {s : State} {n i : Nat} (h : slotOf s n = some i) :
    ∃ r, s.table.slots[i]? = some (.inUse r) ∧ r.number = n := by
  obtain ⟨hlt, hc, _⟩ := List.findIdx?_eq_some_iff_getElem.1 h
  cases hx : s.table.slots[i] with
  | inUse r =>
    rw [hx] at hc
    exact ⟨r, by rw [List.getElem?_eq_getElem hlt, hx], by simpa [RecordSlot.carries] using hc⟩
  | _ =>
    rw [hx] at hc
    cases hc

theorem rawOf_eq_zero {r : Record} (h : r.rawPlane = none) : View.rawOf (.inUse r) = 0 := by
  simp only [View.rawOf, h]
  rfl

/-- Only an OPEN or HELD record has a raw plane. -/
theorem Planes.noRaw {v : View} (h : v.Planes) {r : Record} (hr : r ∈ v.records) (ho : r.life ≠ .opened)
    (hh : r.life ≠ .held) : r.rawPlane = none := by
  cases hp : r.rawPlane with
  | none => rfl
  | some p =>
    rcases h.raw r hr (by rw [hp]; rfl) with e | e
    · exact absurd e ho
    · exact absurd e hh

/-- A slot made FREE whose record is neither OPEN nor HELD, and whose jobs are gone if it is SETTLED. -/
theorem runs_freeSlot {s t : State} {i : Nat} {r : Record} (ht : ∀ g, viewOf g t =
    { viewOf g s with slots := s.table.slots.set i .free }) (hi : s.table.slots[i]? = some (.inUse r))
    (ho : r.life ≠ .opened) (hh : r.life ≠ .held) (hj : r.life = .settled → ∀ j ∈ s.dev.queue, j.shot ≠ r.number) :
    Runs s t := by
  intro g _
  rw [ht g]
  refine keeps_set (viewOf g s) (loose := g.loose) hi (.remove ho fun h => hj (h.resolve_left hh)) fun hp => .inr ⟨rfl, ?_⟩
  rw [rawOf_eq_zero (Planes.noRaw hp (mem_records_of_slot hi) ho hh)]
  rfl

theorem removeRecord_runs {n : Nat} {s : State}
    (h : ∀ r ∈ residents s, r.number = n → r.life ≠ .opened ∧ r.life ≠ .held ∧
      (r.life = .settled → ∀ j ∈ s.dev.queue, j.shot ≠ n)) : Runs s (removeRecord n s) := by
  unfold removeRecord
  split
  · exact .refl s
  · next i hi =>
    obtain ⟨r, hr, rfl⟩ := slotOf_some hi
    obtain ⟨ho, hh, hj⟩ := h r (mem_residents.2 ⟨i, hr⟩) rfl
    exact runs_freeSlot (fun g => rfl) hr ho hh hj

/-! ### Planes -/

/-- A loose plane becomes FREE, when there is one. -/
theorem releasePlane_keeps_loose (g : Ghost) (q : Option Nat) (o : Owner) (s : State) :
    Keeps (viewOf { g with loose := g.loose + planeOf q o } s) (viewOf g (releasePlane q s)) := by
  cases q with
  | none => exact .of_eq (by simp [viewOf, planeOf, releasePlane])
  | some p =>
    refine keeps_letGo (viewOf { g with loose := g.loose + planeOf (some p) o } s) (p := p) (o := o) (loose := g.loose) ?_
    exact Multiset.add_comm _ _

/-- Loose planes become FREE one after another. -/
theorem freePlanes_keeps_loose (g : Ghost) (l : List (Nat × Owner)) (s : State) :
    Keeps (viewOf { g with loose := g.loose + (l : Multiset (Nat × Owner)) } s)
      (viewOf g ((l.map Prod.fst).foldl (fun s p => setOwner p .free s) s)) := by
  induction l generalizing s with
  | nil => exact .of_eq (by simp [viewOf])
  | cons x l ih =>
    refine Keeps.trans ?_ (ih (setOwner x.1 .free s))
    refine keeps_letGo (viewOf { g with loose := g.loose + (x :: l : List (Nat × Owner)) } s) (p := x.1) (o := x.2)
      (loose := g.loose + (l : Multiset (Nat × Owner))) ?_
    change g.loose + (x :: l : List (Nat × Owner)) = x ::ₘ (g.loose + (l : Multiset (Nat × Owner)))
    rw [← Multiset.cons_coe, Multiset.add_cons]

/-- A FREE plane is claimed, when there is one to claim. -/
theorem claimPlane_keeps_loose (g : Ghost) (q : Option Nat) {o : Owner} (ho : o ≠ .free) (s : State)
    (h : ∀ p, q = some p → s.pool.owners[p]? = some .free) :
    Keeps (viewOf g s) (viewOf { g with loose := planeOf q o + g.loose } (claimPlane q o s)) := by
  cases q with
  | none => exact .of_eq (by simp [viewOf, planeOf, claimPlane])
  | some p =>
    refine (keeps_takeUp (viewOf g s) (h p rfl) ho).trans (.of_eq ?_)
    unfold viewOf claimPlane setOwner planeOf
    dsimp only
    rw [Option.map_some, Option.toList_some, Multiset.coe_singleton, Multiset.singleton_add]

/-- Hand-offs leave the list, and their planes are loose. -/
theorem handoffs_keeps_loose (g : Ghost) (p : Handoff → Bool) (s t : State) (ht : ∀ g', viewOf g' t =
    { viewOf g' s with handoffs := s.card.handoffs.filter fun h => !p h }) :
    Keeps (viewOf g s) (viewOf { g with loose := g.loose + (((s.card.handoffs.filter p).map
      fun h => (h.plane, Owner.handoff h.shot h.key) : List (Nat × Owner)) : Multiset (Nat × Owner)) } t) := by
  rw [ht]
  have hsplit : handoffsOf (s.card.handoffs.filter fun h => !p h) + handoffsOf (s.card.handoffs.filter p) =
      handoffsOf s.card.handoffs := by
    unfold handoffsOf
    rw [Multiset.coe_add, Multiset.coe_eq_coe, ← List.map_append]
    refine List.Perm.map _ ?_
    exact (List.perm_append_comm).trans (List.filter_append_perm p s.card.handoffs)
  refine keeps_rename (viewOf g s) (fun _ => ?_) (fun hp => hp.rest) (fun hp => hp.plan) fun hp x hx => ?_
  · have hmove : ∀ A L a b : Multiset (Nat × Owner), A + a + (L + b) = A + (a + b) + L := fun A L a b => by abel
    refine (hmove _ g.loose (handoffsOf _) (handoffsOf (s.card.handoffs.filter p))).trans ?_
    rw [hsplit]
    rfl
  · rcases Multiset.mem_add.1 hx with hx | hx
    · exact hp.loose x hx
    · obtain ⟨h, _, rfl⟩ := List.mem_map.1 (Multiset.mem_coe.1 hx)
      nofun

/-- Hand-offs leave the list and their planes are freed. -/
theorem always_dropHandoffs (p : Handoff → Bool) (s : State) :
    Always s (((s.card.handoffs.filter p).map (·.plane)).foldl (fun s p => setOwner p .free s)
      { s with card := { s.card with handoffs := s.card.handoffs.filter fun h => !p h } }) := by
  intro g
  refine (handoffs_keeps_loose g p s { s with card := { s.card with handoffs := s.card.handoffs.filter fun h => !p h } }
    fun _ => rfl).trans ?_
  have h := freePlanes_keeps_loose g ((s.card.handoffs.filter p).map fun h => (h.plane, Owner.handoff h.shot h.key))
    { s with card := { s.card with handoffs := s.card.handoffs.filter fun h => !p h } }
  rw [List.map_map] at h
  exact h

theorem freeHandoffs_runs (n : Nat) (s : State) : Runs s (freeHandoffs n s) := by
  have h := always_dropHandoffs (fun h => h.shot == n) s
  exact h.runs

theorem supersedeHandoffs_always (n : Nat) (s : State) : Always s (supersedeHandoffs n s) :=
  always_dropHandoffs (fun h => h.shot == n && !h.writing) s

/-- A hand-off whose write has completed: no other has its plane. -/
theorem finishHandoff_runs (h : Handoff) (s : State) : Runs s (finishHandoff h s) := by
  unfold finishHandoff
  split
  · next hany =>
    intro g _
    refine keeps_planes _ _ rfl rfl rfl rfl rfl rfl rfl fun hn hp => ?_
    have hdrop := always_dropHandoffs (fun x => x.plane == h.plane) s g
    have hsame : ∀ (l : List Handoff) (u : State), (∀ x ∈ l, x.plane = h.plane) → l ≠ [] →
        viewOf g ((l.map (·.plane)).foldl (fun s p => setOwner p .free s) u) = viewOf g (setOwner h.plane .free u) := by
      intro l
      induction l with
      | nil => exact fun _ _ hne => absurd rfl hne
      | cons x l ih =>
        intro u hx _
        rw [List.map_cons, List.foldl_cons, hx x List.mem_cons_self]
        cases l with
        | nil => rfl
        | cons y l =>
          rw [ih _ (fun z hz => hx z (List.mem_cons_of_mem _ hz)) nofun]
          unfold viewOf setOwner
          dsimp only
          rw [List.set_set]
    rw [hsame _ _ (fun x hx => by simpa using (List.mem_filter.1 hx).2)] at hdrop
    · exact hdrop.planes hn hp
    · rw [List.any_eq_true] at hany
      obtain ⟨x, hx, he⟩ := hany
      exact List.ne_nil_of_mem (List.mem_filter.2 ⟨hx, he⟩)
  · exact .refl s

end Sys2Proof.ShotTable
end

section
namespace Sys2Proof.ShotTable
open Sys2Proof.Machine View

/-! ### The Development Engine -/

/-- The record of a number changed, when no other slot carries it, is one slot set. -/
theorem mapRecord_eq_set {s : State} (hd : NumbersDistinct s) {i : Nat} {r : Record} (f : Record → Record)
    (hi : s.table.slots[i]? = some (.inUse r)) :
    s.table.slots.map (RecordSlot.mapRecord r.number f) = s.table.slots.set i (.inUse (f r)) := by
  apply List.ext_getElem?
  intro j
  rw [List.getElem?_map, List.getElem?_set]
  by_cases hij : i = j
  · subst hij
    rw [if_pos rfl, if_pos (List.getElem?_eq_some_iff.1 hi).1, hi]
    simp [RecordSlot.mapRecord]
  · rw [if_neg hij]
    cases hj : s.table.slots[j]? with
    | none => rfl
    | some x =>
      cases x with
      | inUse q =>
        have hne : q.number ≠ r.number := fun e => hij (slot_unique hd hi hj rfl (congrArg some e))
        simp [RecordSlot.mapRecord, hne]
      | _ => rfl

/-- The slot of the record found under a number. -/
theorem findRecord_slot {s : State} {n : Nat} {r : Record} (h : findRecord s n = some r) :
    ∃ i : Nat, s.table.slots[i]? = some (.inUse r) ∧ r.number = n :=
  let ⟨hm, hn⟩ := findRecord_mem h
  let ⟨i, hi⟩ := mem_residents.1 hm
  ⟨i, hi, hn⟩

theorem numbersDistinct_of {g : Ghost} {s : State} (h : (viewOf g s).Numbers) : NumbersDistinct s := h.distinct

/-- The slots when one record is changed and its plane freed. -/
theorem keeps_dropRaw {g : Ghost} {s : State} {i : Nat} {r r' : Record} (hi : s.table.slots[i]? = some (.inUse r))
    (hc : RecordChange (viewOf g s) r r') (hp : r'.rawPlane = none) :
    Keeps (viewOf g s) { viewOf { g with loose := g.loose + planeOf r.rawPlane (.shotRaw r.number) } s with
      slots := s.table.slots.set i (.inUse r') } := by
  refine keeps_set (viewOf g s) (loose := g.loose + planeOf r.rawPlane (.shotRaw r.number)) hi (.record hc) fun _ => .inl ⟨rfl, ?_⟩
  exact rawOf_eq_zero hp

theorem settle_runs (n : Nat) (s : State) : Runs s (settle n s) := by
  unfold settle
  cases hf : findRecord s n with
  | none => exact .refl s
  | some r =>
    dsimp only
    split
    · next hc =>
      obtain ⟨hheld, _, _⟩ := hc
      obtain ⟨i, hi, rfl⟩ := findRecord_slot hf
      intro g _
      refine Keeps.of_numbers fun hn => ?_
      let t := updateRecord r.number (fun r => { r with life := .settled, rawPlane := none }) s
      have hchange : RecordChange (viewOf g s) r { r with life := .settled, rawPlane := none } :=
        ⟨rfl, .inr (.inl ⟨hheld, rfl⟩), .inl rfl, id, .inl rfl⟩
      refine (keeps_dropRaw hi hchange rfl).trans ?_
      have hview : viewOf { g with loose := g.loose + planeOf r.rawPlane (.shotRaw r.number) } t =
          { viewOf { g with loose := g.loose + planeOf r.rawPlane (.shotRaw r.number) } s with
            slots := s.table.slots.set i (.inUse { r with life := .settled, rawPlane := none }) } := by
        rw [← mapRecord_eq_set (numbersDistinct_of hn) (fun r => { r with life := .settled, rawPlane := none }) hi]
        rfl
      rw [← hview]
      refine (releasePlane_keeps_loose g r.rawPlane (.shotRaw r.number) t).trans (.of_eq ?_)
      cases r.rawPlane <;> rfl
    · exact .refl s

/-! ### The end of a job -/

/-- At most one job runs. -/
theorem running_unique {l : List Job} (h : (l.filter (·.running)).length ≤ 1) {j j' : Job} (hj : j ∈ l) (hj' : j' ∈ l)
    (hr : j.running = true) (hr' : j'.running = true) : j = j' := by
  have h1 : j ∈ l.filter (·.running) := List.mem_filter.2 ⟨hj, hr⟩
  have h2 : j' ∈ l.filter (·.running) := List.mem_filter.2 ⟨hj', hr'⟩
  obtain ⟨x, hx⟩ := List.length_eq_one_iff.1 (h.antisymm (List.length_pos_of_mem h1))
  rw [hx] at h1 h2
  rw [List.mem_singleton.1 h1, List.mem_singleton.1 h2]

/-- The engine's rest is looked at again: nothing is held, and by the law of the jobs as it was none runs. -/
theorem keeps_unbusy {u : View} {g : Ghost} {t : State} (h : Keeps u (viewOf { g with busy := true } t))
    (hh : t.dev.holds = none) (hq : u.Numbers → u.Jobs → ∀ j ∈ t.dev.queue, j.running = false) :
    Keeps u (viewOf g t) where
  numbers hn := let ⟨a, b, c, d, e⟩ := h.numbers hn; ⟨a, b, c, d, e⟩
  opened hn ho := let ⟨a, b, c⟩ := h.opened hn ho; ⟨a, b, c⟩
  planes hn hp := let ⟨a, b, c, d, _, f, g⟩ := h.planes hn hp; ⟨a, b, c, d, fun _ => hh, f, g⟩
  jobs hn ho hj hl :=
    let ⟨⟨a, b, c, _⟩, ⟨e, f⟩⟩ := h.jobs hn ho hj hl
    ⟨⟨a, b, c, fun _ => hq hn hj⟩, ⟨e, f⟩⟩

/-- What the RUNNING job holds is released; its output plane is loose. -/
theorem endHolds_keeps_loose (g : Ghost) (s : State) : Keeps (viewOf g s)
    (viewOf { g with busy := true, loose := g.loose + planeOf (s.dev.holds.bind (·.output)) .devOutput } (endHolds s)) := by
  let t : State := { s with dev := { s.dev with engine := .idle, holds := none } }
  let g' : Ghost := { g with busy := true, loose := g.loose + planeOf (s.dev.holds.bind (·.output)) .devOutput }
  have hrename : Keeps (viewOf { g with busy := true } s)
      (viewOf { g' with loose := g'.loose + planeOf (s.dev.holds.bind (·.fetch)) .devFetch } t) := by
    have hplane : ∀ {q : Option Nat} {o : Owner} {x : Nat × Owner}, x ∈ planeOf q o → x.2 = o := by
      intro q o x h
      cases q with
      | none => cases Multiset.notMem_zero _ h
      | some p => rw [Multiset.mem_singleton.1 h]
    refine keeps_rename (viewOf { g with busy := true } s) (holds := none)
      (loose := g'.loose + planeOf (s.dev.holds.bind (·.fetch)) .devFetch) (fun _ => ?_) (fun _ _ => rfl)
      (fun hp => hp.plan) fun hp x hx => ?_
    · have hmove : ∀ A H L f o : Multiset (Nat × Owner), A + 0 + 0 + H + (L + o + f) = A + f + o + H + L :=
        fun A H L f o => by abel
      exact hmove _ _ g.loose _ _
    · rcases Multiset.mem_add.1 hx with hx | hx
      · rcases Multiset.mem_add.1 hx with hx | hx
        · exact hp.loose x hx
        · rw [hplane hx]
          nofun
      · rw [hplane hx]
        nofun
  exact ((keeps_busy (viewOf g s)).trans hrename).trans
    (releasePlane_keeps_loose g' (s.dev.holds.bind (·.fetch)) .devFetch t)

theorem alike_freeSlotOf (slot : Option Nat) (s : State) : Alike s ((slot.map freeSlot).getD id s) := by
  cases slot with
  | none => exact fun _ => rfl
  | some i => exact fun _ => rfl

/-- A RUNNING job ended without completing. -/
theorem dropHolds_keeps_busy (g : Ghost) (s : State) : Keeps (viewOf g s) (viewOf { g with busy := true } (dropHolds s)) := by
  refine (endHolds_keeps_loose g s).trans ?_
  refine (releasePlane_keeps_loose { g with busy := true } (s.dev.holds.bind (·.output)) .devOutput (endHolds s)).trans ?_
  exact .of_eq (alike_freeSlotOf _ _ _)

theorem dropHolds_queue (s : State) : (dropHolds s).dev.queue = s.dev.queue := by rw [dropHolds_dev]

theorem dropHolds_holds (s : State) : (dropHolds s).dev.holds = none := by rw [dropHolds_dev]

theorem requeueRunning_runs (s : State) : Runs s (requeueRunning s) := by
  intro g _
  have hmap := keeps_mapJobs (viewOf { g with busy := true } (dropHolds s)) (f := fun j => { j with running := false })
    (fun _ _ => rfl) (fun _ _ => rfl) nofun
  refine keeps_unbusy (t := requeueRunning s) ((dropHolds_keeps_busy g s).trans hmap) (dropHolds_holds s)
    fun _ _ j hj => ?_
  obtain ⟨j', _, rfl⟩ := List.mem_map.1 hj
  rfl

theorem dropJobs_always (p : Job → Bool) (s : State) : Always s (dropJobs p s) := fun g =>
  keeps_dropJobs (viewOf g s) fun j => !p j

/-- The jobs of a shot gone, and what one of them held released when it was RUNNING. -/
def endJobs (n : Nat) (s : State) : State :=
  dropJobs (fun j => j.shot == n) (if (s.dev.queue.filter fun j => j.shot == n).any (·.running) then dropHolds s else s)

theorem endJobs_queue (n : Nat) (s : State) : (endJobs n s).dev.queue = s.dev.queue.filter fun j => !(j.shot == n) := by
  unfold endJobs dropJobs
  dsimp only
  split
  · rw [dropHolds_queue]
  · rfl

theorem endJobs_gone (n : Nat) (s : State) : ∀ j ∈ (endJobs n s).dev.queue, j.shot ≠ n := by
  intro j hj
  rw [endJobs_queue] at hj
  simpa using (List.mem_filter.1 hj).2

theorem endJobs_table (n : Nat) (s : State) : (endJobs n s).table = s.table := by
  unfold endJobs dropJobs
  dsimp only
  split
  · exact dropHolds_table s
  · rfl

theorem endJobs_runs (n : Nat) (s : State) : Runs s (endJobs n s) := by
  unfold endJobs
  split
  · next hany =>
    intro g _
    refine keeps_unbusy ((dropHolds_keeps_busy g s).trans (dropJobs_always _ _ _)) (dropHolds_holds s) fun _ hj j hm => ?_
    rw [List.any_eq_true] at hany
    obtain ⟨j', hm', hr'⟩ := hany
    obtain ⟨hm', hn'⟩ := List.mem_filter.1 hm'
    have hq : j ∈ s.dev.queue ∧ ¬ j.shot = n := by
      have h := List.mem_filter.1 hm
      rw [dropHolds_queue] at h
      simpa using h
    cases hr : j.running with
    | false => rfl
    | true =>
      have e := running_unique hj.running hq.1 hm' hr hr'
      subst e
      exact absurd (by simpa using hn') hq.2
  · exact (dropJobs_always _ _).runs

/-- What the laws speak of when a shot has settled depends on the records, the planes and the RUNNING job alone. -/
theorem settle_congr {u w : State} (n : Nat) (ht : w.table = u.table) (hp : w.pool = u.pool) (hu : u.dev.holds = none)
    (hw : w.dev.holds = none) : (settle n w).table = (settle n u).table ∧ (settle n w).pool = (settle n u).pool := by
  have hfind : findRecord w n = findRecord u n := by
    unfold findRecord residents
    rw [ht]
  have hread : readsRaw w n = false ∧ readsRaw u n = false := by
    unfold readsRaw
    rw [hu, hw]
    constructor <;> split <;> simp_all
  unfold settle
  rw [hfind, hread.1, hread.2]
  cases findRecord u n with
  | none => exact ⟨ht, hp⟩
  | some r =>
    dsimp only
    split
    · unfold updateRecord
      cases r.rawPlane <;> simp [releasePlane, setOwner, ht, hp]
    · exact ⟨ht, hp⟩

/-- Whether a job of a shot runs. -/
def shotRuns (n : Nat) (s : State) : Bool := (s.dev.queue.filter fun j => j.shot == n).any (·.running)

theorem abandonFetch_index (s : State) : (abandonFetch s).card.index = s.card.index ∧
    (abandonFetch s).card.handoffs = s.card.handoffs := by
  unfold abandonFetch
  dsimp only
  split <;> simp [orphanBus]

/-- The removal of a shot's jobs ends them, and lets the shot settle when one of them ran. -/
theorem removeJobs_alike (n : Nat) (c : ResultCode) (s : State) :
    Alike (if shotRuns n s then settle n (endJobs n s) else endJobs n s) (removeJobs n c s) := by
  by_cases hany : shotRuns n s = true
  · rw [if_pos hany]
    have he : endJobs n s = dropJobs (fun j => j.shot == n) (dropHolds s) := by
      unfold endJobs
      exact congrArg _ (if_pos hany)
    have hr : removeJobs n c s = dropJobs (fun j => j.shot == n)
        (answerAll ((s.dev.queue.filter fun j => j.shot == n).flatMap (·.waiters)) c
          (settle n (abandonFetch (dropHolds s)))) := by
      unfold removeJobs
      dsimp only
      rw [if_pos (show (s.dev.queue.filter fun j => j.shot == n).any (·.running) = true from hany)]
    have hab : (abandonFetch (dropHolds s)).dev = (dropHolds s).dev := by simp
    obtain ⟨ht, hp⟩ := settle_congr (u := endJobs n s) (w := abandonFetch (dropHolds s)) n (by rw [he]; simp)
      (by rw [he]; simp) (by rw [he]; exact dropHolds_holds s) (by rw [hab]; exact dropHolds_holds s)
    have hindex := abandonFetch_index (dropHolds s)
    refine alike_of ⟨?_, ?_, ?_, ?_, ?_, ?_, ?_, ?_⟩
    · rw [hr]
      simp [ht]
    · rw [hr]
      simp [ht]
    · rw [hr, he]
      simp [hindex]
    · rw [hr, he]
      simp [hindex]
    · rw [hr]
      simp [hp]
    · rw [hr, he]
      simp
    · rw [hr, he]
      simp
    · rw [hr, he]
      simp [dropJobs]
  · rw [if_neg hany]
    have he : endJobs n s = dropJobs (fun j => j.shot == n) s := by
      unfold endJobs
      exact congrArg _ (if_neg hany)
    have hr : removeJobs n c s = dropJobs (fun j => j.shot == n)
        (answerAll ((s.dev.queue.filter fun j => j.shot == n).flatMap (·.waiters)) c s) := by
      unfold removeJobs
      dsimp only
      rw [if_neg (show ¬ (s.dev.queue.filter fun j => j.shot == n).any (·.running) = true from hany)]
    rw [hr, he]
    exact alike_of (by simp [dropJobs])

theorem removeJobs_runs (n : Nat) (c : ResultCode) (s : State) : Runs s (removeJobs n c s) := by
  refine Runs.trans ?_ (removeJobs_alike n c s).runs
  split
  · exact (endJobs_runs n s).trans (settle_runs n _)
  · exact endJobs_runs n s

end Sys2Proof.ShotTable
end

section
namespace Sys2Proof.ShotTable
open Sys2Proof.Machine View

/-! ### Jobs placed and dispatched -/

/-- What holds when the shot numbers are distinct may lean on that. -/
theorem Runs.of_numbers {s t : State} (h : NumbersDistinct s → Runs s t) : Runs s t := fun g hg =>
  .of_numbers fun hn => h (numbersDistinct_of hn) g hg

/-- With distinct numbers the record found under a number is the only one that carries it. -/
theorem findRecord_unique {s : State} (hd : NumbersDistinct s) {n : Nat} {r r' : Record} (h : findRecord s n = some r)
    (hr : r' ∈ residents s) (hn : r'.number = n) : r' = r :=
  resident_unique hd hr (findRecord_mem h).1 (hn.trans (findRecord_mem h).2.symm)

/-- A job of a HELD or SETTLED shot is placed, merged, or not placed. -/
theorem placeJob_runs {n : Nat} (k : JobKind) (priority : Nat) (tag : Option Nat) {s : State}
    (h : ∃ r ∈ residents s, r.number = n ∧ (r.life = .held ∨ r.life = .settled)) :
    Runs s (placeJob n k priority tag s) := by
  intro g _
  unfold placeJob
  split
  · exact .refl _
  · refine keeps_mapJobs (viewOf g s) (fun j _ => ?_) (fun j _ => ?_) fun j _ => ?_ <;> split
    · rfl
    · rfl
    · rfl
    · rfl
    · exact id
    · exact id
  · next ho =>
    refine keeps_joinJob (viewOf g s) h (fun j hj e => ?_) rfl
    unfold placingOutcome at ho
    split at ho
    · cases ho
    · next hnot =>
      refine hnot (List.any_eq_true.2 ⟨j, hj, ?_⟩)
      rw [Prod.mk.injEq] at e
      simp [Job.isFor, e.1, e.2]

theorem freePlanes_free {s : State} {i p : Nat} (h : (freePlanes s)[i]? = some p) : s.pool.owners[p]? = some .free :=
  mem_freePlanes (List.mem_of_getElem? h)

theorem freePlanes_nodup (s : State) : (freePlanes s).Nodup := by
  have hsub : (freePlanes s).Sublist (s.pool.owners.zipIdx.map (·.2)) := List.filter_sublist.map _
  rw [show s.pool.owners.zipIdx.map (·.2) = List.range' 0 s.pool.owners.length by simp] at hsub
  exact (List.nodup_range' 1).sublist hsub

/-- The two planes that a job takes are FREE, and not the same. -/
theorem planesTaken_free {s : State} {k : JobKind} {l : Life} {p : Nat} :
    ((planesTaken s k l).1 = some p → s.pool.owners[p]? = some .free ∧ (planesTaken s k l).2 ≠ some p) ∧
    ((planesTaken s k l).2 = some p → s.pool.owners[p]? = some .free) := by
  have hne : (freePlanes s)[0]? = some p → (freePlanes s)[1]? ≠ some p := by
    intro h0 h1
    obtain ⟨i0, e0⟩ := List.getElem?_eq_some_iff.1 h0
    obtain ⟨i1, e1⟩ := List.getElem?_eq_some_iff.1 h1
    exact absurd ((freePlanes_nodup s).getElem_inj_iff.1 (e0.trans e1.symm)) (by decide)
  unfold planesTaken
  split
  · exact ⟨fun h => ⟨freePlanes_free h, nofun⟩, nofun⟩
  · exact ⟨nofun, nofun⟩
  · exact ⟨fun h => ⟨freePlanes_free h, hne h⟩, freePlanes_free⟩
  · exact ⟨nofun, freePlanes_free⟩

/-- The planes of a job claimed. -/
theorem claimTaken_keeps_loose (g : Ghost) (k : JobKind) (l : Life) (s : State) :
    Keeps (viewOf g s)
      (viewOf { g with loose := planeOf (planesTaken s k l).1 .devFetch + (planeOf (planesTaken s k l).2 .devOutput + g.loose) }
        (claimPlane (planesTaken s k l).1 .devFetch (claimPlane (planesTaken s k l).2 .devOutput s))) := by
  refine (claimPlane_keeps_loose g (planesTaken s k l).2 (o := .devOutput) nofun s fun p hp => planesTaken_free.2 hp).trans
    (claimPlane_keeps_loose _ (planesTaken s k l).1 (o := .devFetch) nofun _ fun p hp => ?_)
  obtain ⟨hfree, hne⟩ := planesTaken_free.1 hp
  generalize (planesTaken s k l).2 = q at hne
  cases q with
  | none => exact hfree
  | some p' =>
    have hpp : p' ≠ p := fun e => hne (congrArg some e)
    simpa [claimPlane, setOwner, List.getElem?_set_ne hpp] using hfree

theorem final_not_waits {l : DarkLink} (h : l.final = true) : ¬ Waits l := by
  rintro (rfl | ⟨e, rfl⟩) <;> cases h

theorem dispatchJob_runs {j : Job} {r : Record} {s : State} (hidle : s.dev.engine = .idle)
    (hr : findRecord s j.shot = some r) (hf : r.darkLink.final = true) : Runs s (dispatchJob j r s) := by
  intro g hg
  refine Keeps.of_numbers fun hn => ?_
  let slot := if j.kind = .preview then slotToGive s else none
  let u := claimPlane (planesTaken s j.kind r.life).1 .devFetch (claimPlane (planesTaken s j.kind r.life).2 .devOutput s)
  let t := (slot.map fillSlot).getD id u
  let g' : Ghost := { g with loose := planeOf (planesTaken s j.kind r.life).1 .devFetch +
    (planeOf (planesTaken s j.kind r.life).2 .devOutput + g.loose) }
  have hfill : Alike u t := alike_of (by simp [t])
  have htable : t.table = s.table := by simp [t, u]
  have hdev : t.dev = s.dev := by simp [t, u]
  refine (claimTaken_keeps_loose g j.kind r.life s).trans ((hfill.always g').trans ?_)
  have hkeep := keeps_dispatch (viewOf g' t) (n := j.shot) (k := j.kind)
    (f := fun x => if x.isFor j.shot j.kind then { x with key := currentKey t r.recipe, running := true } else x)
    (holds := { fetch := (planesTaken s j.kind r.life).1, output := (planesTaken s j.kind r.life).2
                slot := slot, recipe := recipeAt t r.recipe, readsRaw := r.life == .held })
    (loose := g.loose) (by simp [viewOf, g', hg, hdev, hidle]) (by simp only [viewOf, g']; rw [add_assoc]) (fun x => ?_)
    fun _ r' hr' hnum hw => ?_
  · refine hkeep.trans (.of_eq ?_)
    unfold dispatchJob
    dsimp only
    have hbusy : ((if r.life = .settled then EngineState.fetching else .active (.developing .demosaic)) ==
        EngineState.idle) = false := by split <;> rfl
    split
    all_goals
      unfold viewOf
      simp only [joinReads, hbusy, Bool.and_false]
      rfl
  · split
    · next hfor =>
      simp only [Job.isFor, Bool.and_eq_true, beq_iff_eq] at hfor
      exact ⟨rfl, rfl, fun _ => .inr hfor⟩
    · exact ⟨rfl, rfl, .inl⟩
  · have hmem : r' ∈ residents s := by
      rw [← residents_congr htable]
      exact hr'
    rw [findRecord_unique (numbersDistinct_of hn) hr hmem hnum] at hw
    exact final_not_waits hf hw

theorem eligible_iff {s : State} {j : Job} {r : Record} (hr : findRecord s j.shot = some r) (h : eligible s j = true) :
    r.darkLink.final = true := by
  unfold eligible at h
  rw [hr] at h
  simp only [eligibleButPlanes, Bool.and_eq_true] at h
  exact h.1.1.1.2

/-- The job dispatched is an eligible one of the queue. -/
theorem jobToDispatch_mem {s : State} {j : Job} (h : jobToDispatch s = some j) : j ∈ s.dev.queue ∧ eligible s j = true := by
  have key : ∀ (l : List Job) (b : Option Job), l.foldl betterJob b = some j → j ∈ l ∨ b = some j := by
    intro l
    induction l with
    | nil => exact fun b h => .inr h
    | cons x l ih =>
      intro b hf
      rcases ih _ hf with h | h
      · exact .inl (List.mem_cons_of_mem _ h)
      · unfold betterJob at h
        split at h
        · cases h
          exact .inl List.mem_cons_self
        · split at h
          · cases h
            exact .inl List.mem_cons_self
          · exact .inr h
  rcases key _ _ h with h | h
  · exact List.mem_filter.1 h
  · cases h

theorem jobToDispatch_eligible {s : State} {j : Job} (h : jobToDispatch s = some j) : eligible s j = true :=
  (jobToDispatch_mem h).2

theorem setEngineClaim_alike (b : Bool) (s : State) : Alike s (setEngineClaim b s) := fun _ => rfl

theorem setDarkClaim_alike (b : Bool) (s : State) : Alike s (setDarkClaim b s) := fun _ => rfl

theorem refreshEngineClaim_alike (s : State) : Alike s (refreshEngineClaim s) := fun _ => rfl

theorem attemptDispatch_runs (s : State) : Runs s (attemptDispatch s) := by
  unfold attemptDispatch
  split
  · next hmay =>
    simp only [mayDispatch, Bool.and_eq_true, beq_iff_eq] at hmay
    split
    · exact (setEngineClaim_alike _ s).runs
    · next j hj =>
      split
      · exact .refl s
      · next r hr =>
        exact (dispatchJob_runs hmay.1.1 hr (eligible_iff hr (jobToDispatch_eligible hj))).trans
          (setEngineClaim_alike _ _).runs
  · exact (refreshEngineClaim_alike s).runs

theorem serveEngineClaim_runs (s : State) : Runs s (serveEngineClaim s) := by
  unfold serveEngineClaim
  split
  · exact attemptDispatch_runs s
  · exact .refl s

theorem readoutBegins_alike (s : State) : Alike s (readoutBegins s) := by
  intro g
  unfold viewOf readoutBegins
  cases s.dev.engine <;> rfl

theorem readoutEnds_alike (s : State) : Alike s (readoutEnds s) := by
  intro g
  unfold viewOf readoutEnds
  cases s.dev.engine <;> rfl

end Sys2Proof.ShotTable
end

section
namespace Sys2Proof.ShotTable
open Sys2Proof.Machine View

/-! ### Dark entries set -/

theorem planeOf_owner {q : Option Nat} {o : Owner} {x : Nat × Owner} (h : x ∈ planeOf q o) : x.2 = o := by
  cases q with
  | none => cases Multiset.notMem_zero _ h
  | some p => rw [Multiset.mem_singleton.1 h]

theorem entries_getD_set (l : List DarkEntry) (e i : Nat) (y : DarkEntry) :
    (l.set e y).getD i .free = if e = i ∧ e < l.length then y else l.getD i .free := by
  rw [List.getD_eq_getElem?_getD, List.getD_eq_getElem?_getD, List.getElem?_set]
  by_cases h : e = i
  · subst h
    by_cases hl : e < l.length
    · simp [hl]
    · simp [hl]
  · simp [h]

/-- A dark entry set: what it no longer names is loose, and what it comes to name was. -/
theorem keeps_setEntry (v : View) {e : Nat} {x y : DarkEntry} {plan : List Nat} {loose : Multiset (Nat × Owner)}
    (hx : v.Planes → v.entries[e]? = some x)
    (hl : v.Planes → loose + planeOf y.state.plane? (.dark e) = v.loose + planeOf x.state.plane? (.dark e))
    (hplan : v.Planes → ∀ i ∈ plan, ((v.entries.set e y).getD i .free).state = .planned) :
    Keeps v { v with entries := v.entries.set e y, plan, loose } := by
  refine keeps_rename v (fun hp => ?_) (fun hp => hp.rest) hplan fun hp z hz => ?_
  · have hset := darksOf_set (y := y) (hx hp)
    have hloose := hl hp
    have hmove : ∀ R C D H f o L q : Multiset (Nat × Owner),
        R + C + D + f + o + H + L + q = R + C + (q + D) + f + o + H + L := fun R C D H f o L q => by abel
    unfold named
    dsimp only
    apply add_right_cancel (b := planeOf x.state.plane? (.dark e))
    rw [hmove, hset]
    calc _ = rawsOf v.slots + planeOf v.scratch .seqScratch + darksOf v.entries +
          planeOf (v.holds.bind (·.fetch)) .devFetch + planeOf (v.holds.bind (·.output)) .devOutput +
          handoffsOf v.handoffs + (loose + planeOf y.state.plane? (.dark e)) := by abel
      _ = _ := by rw [hloose]; abel
  · have hz' : z ∈ v.loose + planeOf x.state.plane? (.dark e) := by
      rw [← hl hp]
      exact Multiset.mem_add.2 (.inl hz)
    rcases Multiset.mem_add.1 hz' with h | h
    · exact hp.loose z h
    · rw [planeOf_owner h]
      nofun

/-- A dark entry made FREE, its plane loose and its place in the plan given up. -/
theorem keeps_clearEntry (v : View) (e : Nat) : Keeps v { v with
    entries := v.entries.set e .free, plan := v.plan.filter (· != e)
    loose := v.loose + planeOf (v.entries.getD e .free).state.plane? (.dark e) } := by
  have hplan : v.Planes → ∀ i ∈ v.plan.filter (· != e), ((v.entries.set e .free).getD i .free).state = .planned := by
    intro hp i hi
    obtain ⟨hm, hne⟩ := List.mem_filter.1 hi
    have hne' : e ≠ i := fun h => by simp [h] at hne
    rw [entries_getD_set, if_neg fun h => hne' h.1]
    exact hp.plan i hm
  cases hx : v.entries[e]? with
  | some x =>
    refine keeps_setEntry v (x := x) (fun _ => hx) (fun _ => ?_) hplan
    rw [List.getD_eq_getElem?_getD, hx]
    exact add_zero _
  | none =>
    have hset : v.entries.set e .free = v.entries := List.set_eq_of_length_le (List.getElem?_eq_none_iff.1 hx)
    have hget : v.entries.getD e .free = .free := by rw [List.getD_eq_getElem?_getD, hx]; rfl
    rw [hset] at hplan ⊢
    rw [hget, show planeOf DarkEntry.free.state.plane? (.dark e) = 0 from rfl, add_zero]
    exact keeps_rename v (fun _ => rfl) (fun hp => hp.rest) hplan fun hp => hp.loose

theorem freeEntry_runs (e : Nat) (s : State) : Runs s (freeEntry e s) := by
  intro g _
  let t : State := { s with dark := { entries := s.dark.entries.set e .free, plan := s.dark.plan.filter (· != e) } }
  refine (keeps_clearEntry (viewOf g s) e).trans
    ((releasePlane_keeps_loose g (darkEntry s e).state.plane? (.dark e) t).trans (.of_eq ?_))
  unfold freeEntry
  cases (darkEntry s e).state.plane? <;> rfl

/-- The entry that a pass plans in. -/
theorem planEntry_runs {e : Nat} (r : Record) {s : State} (he : entryToPlan s = some e) :
    Runs s (planEntry e r (freeEntry e s)) := by
  intro g hg
  refine (freeEntry_runs e s g hg).trans ?_
  have hlt := (entryToPlan_some he).1
  have hdark := freeEntry_dark e s
  have hx : (freeEntry e s).dark.entries[e]? = some .free := by rw [hdark, List.getElem?_set_self hlt]
  refine keeps_setEntry (viewOf g (freeEntry e s)) (x := .free) (plan := (freeEntry e s).dark.plan ++ [e])
    (loose := g.loose) (fun _ => hx) (fun _ => rfl) fun hp i hi => ?_
  have hlen : e < (freeEntry e s).dark.entries.length := by rw [hdark, List.length_set]; exact hlt
  rw [show (viewOf g (freeEntry e s)).entries = (freeEntry e s).dark.entries from rfl, entries_getD_set]
  by_cases hei : e = i
  · rw [if_pos ⟨hei, hlen⟩]
  · rw [if_neg fun h => hei h.1]
    rcases List.mem_append.1 hi with hm | hm
    · exact hp.plan i hm
    · exact absurd (List.mem_singleton.1 hm).symm hei

/-! ### Links and passes -/

/-- With distinct numbers one waiting record of a number is every one. -/
theorem ShotWaits.all {s : State} (hd : NumbersDistinct s) {n : Nat} (h : ShotWaits s n) {r : Record}
    (hr : r ∈ residents s) (hn : r.number = n) : Waits r.darkLink := by
  obtain ⟨r', hr', hn', hw⟩ := h
  rwa [resident_unique hd hr hr' (hn.trans hn'.symm)]

/-- The link of a waiting shot changed. -/
theorem runs_updateLink {n : Nat} {f : Record → Record} {s : State} (hw : ShotWaits s n)
    (hf : ∀ r, (f r).number = r.number ∧ (f r).life = r.life ∧ (f r).rawPlane = r.rawPlane ∧ (f r).rawCard = r.rawCard) :
    Runs s (updateRecord n f s) :=
  .of_numbers fun hd => runs_updateRecord fun r hr hn =>
    ⟨(hf r).1, (hf r).2.1, (hf r).2.2.1, fun _ => hw.all hd hr hn, .inl (hf r).2.2.2⟩

theorem placeApplyDark_alike (n e resume : Nat) (s : State) : Alike s (placeApplyDark n e resume s) := alike_of (by simp)

theorem linkShot_runs {e n : Nat} {s : State} (hw : ShotWaits s n) : Runs s (linkShot e s n) := by
  have h : Runs s (updateRecord n (fun r => { r with darkLink := .linked e }) s) :=
    runs_updateLink hw fun _ => ⟨rfl, rfl, rfl, rfl⟩
  unfold linkShot
  dsimp only
  split
  · exact h.trans (placeApplyDark_alike _ _ _ _).runs
  · exact h

theorem matchingPass_runs (s : State) : Runs s (matchingPass s) :=
  matchingPass_preserves (P := Runs s) (fun _ _ _ h hw => h.trans (linkShot_runs hw))
    (fun _ r _ h he => h.trans (planEntry_runs r he)) (.refl s)

/-! ### Shots unlinked -/

theorem raiseShot_alike (k : NoticeKind) (n : Nat) (s : State) : Alike s (raiseShot k n s) := alike_of (by simp)

theorem unlinkFailed_runs {n : Nat} {s : State} (hw : ShotWaits s n) : Runs s (unlinkFailed s n) := by
  have h : Runs s (updateRecord n Record.failDark s) := runs_updateLink hw fun _ => ⟨rfl, rfl, rfl, rfl⟩
  unfold unlinkFailed
  dsimp only
  split
  · exact h.trans (raiseShot_alike _ _ _).runs
  · exact h

theorem shotWaits_unlinkFailed {s : State} {n m : Nat} (hne : m ≠ n) (h : ShotWaits s m) : ShotWaits (unlinkFailed s n) m := by
  obtain ⟨r, hr, rfl, hw⟩ := h
  obtain ⟨i, hi⟩ := mem_residents.1 hr
  refine ⟨r, mem_residents.2 ⟨i, ?_⟩, rfl, hw⟩
  rw [unlinkFailed_slots, List.getElem?_map, hi]
  simp [RecordSlot.mapRecord, hne]

/-- Shots that wait, each unlinked once. -/
theorem unlinkAll_runs {l : List Nat} {s : State} (hl : l.Nodup) (hw : ∀ n ∈ l, ShotWaits s n) :
    Runs s (l.foldl unlinkFailed s) := by
  induction l generalizing s with
  | nil => exact .refl s
  | cons n l ih =>
    obtain ⟨hn, hl⟩ := List.nodup_cons.1 hl
    refine (unlinkFailed_runs (hw n List.mem_cons_self)).trans (ih hl fun m hm => ?_)
    exact shotWaits_unlinkFailed (fun e => hn (e ▸ hm)) (hw m (List.mem_cons_of_mem _ hm))

/-- The shots of a state that pass a test of those that wait, each unlinked once. -/
theorem unlinkWhere_runs {p : Record → Bool} (hp : ∀ r, p r = true → Waits r.darkLink) (s : State) :
    Runs s ((shotsWhere s p).foldl unlinkFailed s) :=
  .of_numbers fun hd => unlinkAll_runs (nodup_shotsWhere hd p) fun _ hn =>
    let ⟨r, hr, hpr, hrn⟩ := mem_shotsWhere.1 hn
    ⟨r, hr, hrn, hp r hpr⟩

theorem failEntry_runs (e : Nat) (s : State) : Runs s (failEntry e s) := by
  unfold failEntry linkedShots
  refine (unlinkWhere_runs (fun r hr => .inr ⟨e, by simpa using hr⟩) s).trans (freeEntry_runs e _)

theorem freeIfExpired_runs (e : Nat) (s : State) : Runs s (freeIfExpired e s) := by
  unfold freeIfExpired
  split
  · exact freeEntry_runs e s
  · exact .refl s

theorem afterUnlink_runs (e : Nat) (s : State) : Runs s (afterUnlink e s) := by
  unfold afterUnlink
  split
  · split
    · exact (freeEntry_runs e s).trans (matchingPass_runs _)
    · exact (freeIfExpired_runs e s).trans (matchingPass_runs _)
    · exact .refl s
  · exact .refl s

theorem requestEnded_runs (e : Nat) (s : State) : Runs s (requestEnded e s) := by
  unfold requestEnded
  split
  · exact (freeEntry_runs e s).trans (matchingPass_runs _)
  · exact .refl s

theorem giveUpDark_runs (n : Nat) (s : State) : Runs s (giveUpDark n s) := by
  have hwaive : Runs s (updateRecord n (fun r => { r with darkLink := .waived }) s) :=
    runs_updateRecord fun r _ _ => ⟨rfl, rfl, rfl, fun h => absurd h (final_not_waits rfl), .inl rfl⟩
  unfold giveUpDark
  split
  · exact hwaive
  · exact (hwaive.trans (Alike.runs (alike_of (by simp)))).trans (afterUnlink_runs _ _)
  · exact .refl s

/-! ### The dark exposure -/

theorem leaveDark_alike (s : State) : Alike s (leaveDark s) := by
  intro g
  unfold leaveDark
  dsimp only
  split
  · exact readoutEnds_alike s g
  · rfl

theorem abandonDark_runs (s : State) : Runs s (abandonDark s) := by
  unfold abandonDark
  split
  · exact (leaveDark_alike s).runs
  · next e _ =>
    exact ((failEntry_runs e s).trans (Alike.runs (alike_of (s := failEntry e s) (by simp)))).trans (leaveDark_alike _).runs

theorem enterDark_runs {e p : Nat} {s : State} (he : s.dark.plan.head? = some e) (hp : (freePlanes s).head? = some p) :
    Runs s (enterDark e p s) := by
  intro g _
  have hfree : s.pool.owners[p]? = some .free := freePlanes_free (i := 0) (by rwa [← List.head?_eq_getElem?])
  have hmem : e ∈ s.dark.plan := List.mem_of_mem_head? he
  refine (keeps_takeUp (viewOf g s) (o := .dark e) hfree nofun).trans ?_
  have hplanned : ∀ {u : View}, u.entries = s.dark.entries → u.plan = s.dark.plan → u.Planes →
      ∃ x, s.dark.entries[e]? = some x ∧ x.state = .planned := by
    intro u h1 h2 hu
    have hst := hu.plan e (h2 ▸ hmem)
    rw [h1, List.getD_eq_getElem?_getD] at hst
    cases hx : s.dark.entries[e]? with
    | none => rw [hx] at hst; cases hst
    | some x => rw [hx] at hst; exact ⟨x, rfl, hst⟩
  refine (keeps_setEntry _ (x := darkEntry s e) (y := { darkEntry s e with state := .exposing p })
    (plan := s.dark.plan.filter (· != e)) (loose := g.loose) (fun hv => ?_) (fun hv => ?_) fun hv i hi => ?_).trans (.of_eq rfl)
  · obtain ⟨x, hx, _⟩ := hplanned rfl rfl hv
    rw [darkEntry_eq hx]
    exact hx
  · obtain ⟨x, hx, hst⟩ := hplanned rfl rfl hv
    rw [darkEntry_eq hx, hst]
    change g.loose + {(p, Owner.dark e)} = (p, Owner.dark e) ::ₘ g.loose + 0
    rw [add_zero, add_comm, Multiset.singleton_add]
  · obtain ⟨hm, hne⟩ := List.mem_filter.1 hi
    have hne' : e ≠ i := fun h => by simp [h] at hne
    rw [entries_getD_set, if_neg fun h => hne' h.1]
    exact hv.plan i hm

theorem attemptDark_runs (s : State) : Runs s (attemptDark s) := by
  unfold attemptDark
  split
  · split
    · next he hp => exact enterDark_runs he hp
    · exact (setDarkClaim_alike _ s).runs
    · exact (setDarkClaim_alike _ s).runs
  · exact .refl s

theorem serveDarkClaim_runs (s : State) : Runs s (serveDarkClaim s) := by
  unfold serveDarkClaim
  split
  · split
    · exact attemptDark_runs s
    · exact (setDarkClaim_alike _ s).runs
  · exact .refl s

theorem claimForDark_alike (s : State) : Alike s (claimForDark s) := by
  unfold claimForDark
  split
  · exact setDarkClaim_alike _ s
  · exact fun _ => rfl

/-- The entry that is EXPOSING, with its plane. -/
theorem exposingEntry_some {s : State} {e : Nat} (h : exposingEntry s = some e) :
    ∃ x p, s.dark.entries[e]? = some x ∧ x.state = .exposing p := by
  obtain ⟨hlt, hx, _⟩ := List.findIdx?_eq_some_iff_getElem.1 h
  cases hst : s.dark.entries[e].state with
  | exposing p => exact ⟨_, p, List.getElem?_eq_getElem hlt, hst⟩
  | _ => rw [hst] at hx; cases hx

/-- The entry that was EXPOSING is READY in the same plane. -/
theorem readyEntry_runs {s : State} {e : Nat} (he : exposingEntry s = some e) (band : Int) :
    Runs s (setDarkEntry e { darkEntry s e with
      state := .ready band s.timeBase (((darkEntry s e).state.plane?).getD 0) } s) := by
  obtain ⟨x, p, hx, hst⟩ := exposingEntry_some he
  rw [darkEntry_eq hx, hst]
  intro g _
  refine keeps_setEntry (viewOf g s) (x := x) (plan := s.dark.plan) (loose := g.loose) (fun _ => hx) (fun _ => ?_)
    fun hv i hi => ?_
  · rw [hst]
    rfl
  · have hplanned := hv.plan i hi
    rw [entries_getD_set, if_neg]
    · exact hplanned
    · rintro ⟨rfl, _⟩
      rw [List.getD_eq_getElem?_getD, show (viewOf g s).entries[e]? = some x from hx, Option.getD_some, hst] at hplanned
      cases hplanned

theorem finishDark_runs (temperature : Int) (s : State) : Runs s (finishDark temperature s) := by
  unfold finishDark
  split
  · exact (leaveDark_alike s).runs
  · next e he =>
    dsimp only
    have happly : ∀ (l : List Nat) (u : State), Runs u (l.foldl (applyTo e) u) := fun l u =>
      Runs.foldl (fun u n => (placeApplyDark_alike n e 0 u).runs) l u
    refine (readyEntry_runs he _).trans ((unlinkWhere_runs (fun r hr => ?_) _).trans ((happly _ _).trans
      ((leaveDark_alike _).runs.trans ((freeIfExpired_runs e _).trans (matchingPass_runs _)))))
    simp only [bandDiffers, Bool.and_eq_true, beq_iff_eq] at hr
    exact .inr ⟨e, hr.1⟩

theorem failedDark_runs (s : State) : Runs s (failedDark s) := (abandonDark_runs s).trans (matchingPass_runs _)

end Sys2Proof.ShotTable
end

section
namespace Sys2Proof.ShotTable
open Sys2Proof.Machine View

/-! ### The bus and the work in flight -/

theorem kick_alike (s : State) : Alike s (kick s) := by
  unfold kick
  split <;> exact fun _ => rfl

theorem setWork_alike (w : Option CardWork) (s : State) : Alike s (setWork w s) := fun _ => rfl

theorem clearBus_alike (s : State) : Alike s (clearBus s) := fun _ => rfl

theorem endWork_alike (s : State) : Alike s (endWork s) := fun _ => rfl

theorem setCardState_alike (x : CardState) (s : State) : Alike s (setCardState x s) := fun _ => rfl

theorem Alike.trans {s t u : State} (h : Alike s t) (h' : Alike t u) : Alike s u := fun g => (h' g).trans (h g)

theorem nextWork_alike (w : CardWork) (s : State) : Alike s (nextWork w s) :=
  ((clearBus_alike s).trans (setWork_alike _ _)).trans (kick_alike _)

theorem joinEntries_alike (e : EntryWork) (s : State) : Alike s (joinEntries e s) := fun _ => rfl

theorem markTaken_alike (n : Nat) (s : State) : Alike s (markTaken n s) := fun _ => rfl

theorem leaveAmended_alike (n : Nat) (s : State) : Alike s (leaveAmended n s) := fun _ => rfl

theorem allocationFailed_alike (n : Nat) (s : State) : Alike s (allocationFailed n s) := by
  unfold allocationFailed
  dsimp only
  split
  · exact fun _ => rfl
  · exact fun _ => rfl

/-- Hand-offs changed in their places, each of the shot, the key and the plane it was. -/
theorem always_mapHandoffs {s t : State} {f : Handoff → Handoff}
    (ht : ∀ g, viewOf g t = { viewOf g s with handoffs := s.card.handoffs.map f })
    (hf : ∀ h, (f h).plane = h.plane ∧ (f h).shot = h.shot ∧ (f h).key = h.key) : Always s t := by
  intro g
  rw [ht g]
  refine keeps_rename (viewOf g s) (fun _ => ?_) (fun hp => hp.rest) (fun hp => hp.plan) fun hp => hp.loose
  have hsame : handoffsOf (s.card.handoffs.map f) = handoffsOf s.card.handoffs := by
    unfold handoffsOf
    rw [List.map_map]
    congr 1
    exact List.map_congr_left fun h _ => by simp [hf h]
  unfold named
  dsimp only
  rw [hsame]
  rfl

theorem updateHandoff_always (h : Handoff) {f : Handoff → Handoff} (s : State)
    (hf : ∀ h, (f h).plane = h.plane ∧ (f h).shot = h.shot ∧ (f h).key = h.key) : Always s (updateHandoff h f s) :=
  always_mapHandoffs (fun _ => rfl) fun x => by
    split
    · exact hf x
    · exact ⟨rfl, rfl, rfl⟩

/-- The room marks cleared (R150). -/
theorem clearFull_runs (s : State) : Runs s (clearFull s) :=
  Always.runs (always_mapHandoffs (fun _ => rfl) fun _ => ⟨rfl, rfl, rfl⟩)

theorem returnRuns_runs (rs : List Run) (s : State) : Runs s (returnRuns rs s) :=
  (Alike.runs (t := { s with card := { s.card with map := rs.foldl (fun m r => insertRun r m) s.card.map } })
    fun _ => rfl).trans (clearFull_runs _)

/-! ### The arbiter's choice -/

theorem startDeveloped_runs (h : Handoff) (s : State) : Runs s (startDeveloped h s) := by
  unfold startDeveloped
  split
  · exact (updateHandoff_always h (f := fun x => { x with marked := true }) s fun _ => ⟨rfl, rfl, rfl⟩).runs.trans
      (allocationFailed_alike _ _).runs
  · next runs left _ =>
    have hwriting := updateHandoff_always h (f := fun x => { x with writing := true }) s fun _ => ⟨rfl, rfl, rfl⟩
    have hpending : ∀ u : State, Runs u (updateRecord h.shot (fun r => { r with devPending := some h.key }) u) := fun u =>
      runs_updateRecord fun _ _ _ => ⟨rfl, rfl, rfl, id, .inl rfl⟩
    exact (hwriting.runs.trans (hpending _)).trans (Alike.runs fun _ => rfl)

theorem nextRaw_some {s : State} {r : Record} (h : nextRaw s = some r) (hd : NumbersDistinct s) :
    r ∈ residents s ∧ rawEligible s r = true := by
  unfold nextRaw at h
  obtain ⟨n, hn, hf⟩ := Option.bind_eq_some_iff.1 h
  obtain ⟨r', hr', he, hn'⟩ := mem_shotsWhere.1 (List.mem_of_mem_head? hn)
  rw [findRecord_unique hd hf hr' hn'] at he
  exact ⟨(findRecord_mem hf).1, he⟩

/-- The first waiting work is of one of the five classes (Table 9-3). -/
theorem nextChoice_cases {s : State} {c : Choice} (h : nextChoice s = some c) :
    (∃ r, c = .read r ∧ s.card.reads.head? = some r) ∨ (∃ e, c = .entry e ∧ s.card.entries.head? = some e) ∨
    (∃ x, c = .developed x ∧ nextHandoff s = some x) ∨ (∃ r, c = .raw r ∧ nextRaw s = some r) ∨
    ∃ n, c = .dirty n ∧ nextDirty s = some n := by
  have hor : ∀ {a b : Option Choice}, (a <|> b) = some c → a = some c ∨ b = some c := by
    intro a b h
    cases a with
    | none => exact .inr h
    | some x => exact .inl h
  have hpick : ∀ {α : Type} {f : α → Choice} {b : Bool} {a : Option α}, (if b = true then a.map f else none) = some c →
      ∃ x, c = f x ∧ a = some x := by
    intro α f b a h
    split at h
    · obtain ⟨x, hx, e⟩ := Option.map_eq_some_iff.1 h
      exact ⟨x, e.symm, hx⟩
    · cases h
  unfold nextChoice at h
  rcases hor h with h | h
  · exact .inl (hpick h)
  rcases hor h with h | h
  · exact .inr (.inl (hpick h))
  rcases hor h with h | h
  · exact .inr (.inr (.inl (hpick h)))
  rcases hor h with h | h
  · exact .inr (.inr (.inr (.inl (hpick h))))
  · exact .inr (.inr (.inr (.inr (hpick h))))

theorem nextChoice_raw {s : State} {r : Record} (h : nextChoice s = some (.raw r)) : nextRaw s = some r := by
  obtain ⟨_, ⟨⟩, _⟩ | ⟨_, ⟨⟩, _⟩ | ⟨_, ⟨⟩, _⟩ | ⟨_, ⟨⟩, hr⟩ | ⟨_, ⟨⟩, _⟩ := nextChoice_cases h
  exact hr

theorem nextChoice_developed {s : State} {x : Handoff} (h : nextChoice s = some (.developed x)) :
    x ∈ s.card.handoffs := by
  obtain ⟨_, ⟨⟩, _⟩ | ⟨_, ⟨⟩, _⟩ | ⟨_, ⟨⟩, hx⟩ | ⟨_, ⟨⟩, _⟩ | ⟨_, ⟨⟩, _⟩ := nextChoice_cases h
  exact List.mem_of_find?_eq_some hx

theorem startRaw_runs {r : Record} {s : State} (h : nextRaw s = some r) : Runs s (startRaw r s) := by
  refine .of_numbers fun hd => ?_
  obtain ⟨hr, he⟩ := nextRaw_some h hd
  simp only [rawEligible, Bool.and_eq_true, beq_iff_eq] at he
  obtain ⟨⟨⟨⟨⟨hlife, _⟩, hfinal⟩, _⟩, _⟩, _⟩ := he
  unfold startRaw
  split
  · next runs left _ _ _ =>
    have hwrite : Runs s (updateRecord r.number (fun r =>
        { r with rawRuns := runs, rawCard := .writing, rawSize := (s.seq.columns, s.seq.rows) }) s) := by
      refine runs_updateRecord fun q hq hn => ?_
      rw [resident_unique hd hq hr hn]
      refine ⟨rfl, rfl, rfl, id, .inr (.inr (.inl ⟨final_not_waits hfinal, fun h => ?_⟩))⟩
      rw [hlife] at h
      cases h
    exact hwrite.trans (Alike.runs fun _ => rfl)
  · exact (Alike.runs (t := { s with card := { s.card with marks := s.card.marks ++ [r.number] } }) fun _ => rfl).trans
      (allocationFailed_alike _ _).runs

theorem startEntry_alike (e : EntryWork) (s : State) : Alike s (startEntry e s) := by
  cases e <;> exact fun _ => rfl

theorem takeChoice_runs {c : Choice} {s : State} (h : nextChoice s = some c) : Runs s (takeChoice c s) := by
  cases c with
  | read r => cases r <;> exact (setWork_alike _ s).runs
  | entry e => exact (startEntry_alike e s).runs
  | developed d => exact startDeveloped_runs d s
  | raw r => exact startRaw_runs (nextChoice_raw h)
  | dirty n => exact ((markTaken_alike n s).trans (setWork_alike _ _)).runs

theorem chooseWork_runs (fuel : Nat) (s : State) : Runs s (chooseWork fuel s) := by
  induction fuel generalizing s with
  | zero => exact .refl s
  | succ fuel ih =>
    unfold chooseWork
    split
    · next c _ hc => exact (takeChoice_runs hc).trans (ih _)
    · exact .refl s

theorem startCardWork_runs (s : State) : Runs s (startCardWork s) := by
  unfold startCardWork
  split
  · exact (chooseWork_runs _ s).trans (kick_alike _).runs
  · exact .refl s

/-! ### Reads that end -/

theorem answerAll_alike (tags : List Nat) (c : ResultCode) (s : State) : Alike s (answerAll tags c s) := alike_of (by simp)

theorem answerCode_alike (tag : Nat) (c : ResultCode) (s : State) : Alike s (answerCode tag c s) := fun _ => rfl

theorem answer_alike (tag : Nat) (c : ResultCode) (p : Payload) (s : State) : Alike s (answer tag c p s) := fun _ => rfl

theorem answerWaiting_alike (tag : Option Nat) (c : ResultCode) (s : State) : Alike s (answerWaiting tag c s) := by
  cases tag <;> exact fun _ => rfl

theorem failLoad_runs (c : ResultCode) (s : State) (n : Nat) : Runs s (failLoad c s n) := by
  unfold failLoad
  split
  · exact .refl s
  · next i hi =>
    obtain ⟨hlt, hl, _⟩ := List.findIdx?_eq_some_iff_getElem.1 hi
    have hslot : ∃ m ws, s.table.slots[i]? = some (.loading m ws) := by
      rw [List.getElem?_eq_getElem hlt]
      cases hx : s.table.slots[i] with
      | loading m ws => exact ⟨m, ws, rfl⟩
      | _ => rw [hx] at hl; cases hl
    obtain ⟨m, ws, hslot⟩ := hslot
    have hfree : Runs s (setSlot i .free s) := fun g _ =>
      keeps_set (viewOf g s) (loose := g.loose) hslot (.unload m ws) fun _ => .inr ⟨rfl, rfl⟩
    exact hfree.trans (answerAll_alike _ _ _).runs

theorem failLoads_runs (c : ResultCode) (l : List Nat) (s : State) : Runs s (l.foldl (failLoad c) s) :=
  Runs.foldl (fun s n => failLoad_runs c s n) l s

theorem refuseReads_runs (rs : List CardRead) (c : ResultCode) (s : State) : Runs s (refuseReads rs c s) := by
  unfold refuseReads
  dsimp only
  split
  · exact (failLoads_runs c _ s).trans ((requeueRunning_runs _).trans (Alike.runs fun _ => rfl))
  · exact (failLoads_runs c _ s).trans (Alike.runs fun _ => rfl)

theorem failAllLoads_runs (c : ResultCode) (s : State) : Runs s (failAllLoads c s) :=
  (failLoads_runs c _ s).trans (failLoads_runs c _ _)

theorem endReads_runs (c : ResultCode) (s : State) : Runs s (endReads c s) := by
  unfold endReads
  dsimp only
  split
  · exact (failAllLoads_runs c s).trans ((requeueRunning_runs _).trans (Alike.runs fun _ => rfl))
  · exact (failAllLoads_runs c s).trans (Alike.runs fun _ => rfl)

/-! ### Records that go back -/

theorem returnRecords_runs (goes : Record → Bool) (s : State) : Runs s (returnRecords goes s) := by
  unfold returnRecords
  dsimp only
  have hback : Runs s (updateRecords (fun r => if goes r then r.unwrite else r) s) := by
    refine runs_updateRecords fun r _ => ?_
    split
    · exact ⟨rfl, rfl, rfl, id, .inr (.inl rfl)⟩
    · exact .refl r
  refine hback.trans (Always.runs (always_mapHandoffs (fun _ => rfl) fun h => ?_))
  split <;> exact ⟨rfl, rfl, rfl⟩

theorem returnHeld_runs (s : State) : Runs s (returnHeld s) := returnRecords_runs _ s

theorem emptyIndex_runs (s : State) : Runs s (emptyIndex s) := fun g _ =>
  keeps_index (viewOf g s) fun _ _ hx => nomatch hx

/-! ### Records that go -/

/-- Every record of `t` is one of `s`, in its life or SETTLED. -/
def LivesFollow (s t : State) : Prop :=
  ∀ r' ∈ residents t, ∃ r ∈ residents s, r.number = r'.number ∧ (r'.life = r.life ∨ r'.life = .settled)

theorem livesFollow_of_table {s t : State} (h : t.table = s.table) : LivesFollow s t := fun r hr =>
  ⟨r, residents_congr h ▸ hr, rfl, .inl rfl⟩

theorem LivesFollow.trans {s t u : State} (h : LivesFollow s t) (h' : LivesFollow t u) : LivesFollow s u := by
  intro r hr
  obtain ⟨r₁, hr₁, hn₁, hl₁⟩ := h' r hr
  obtain ⟨r₂, hr₂, hn₂, hl₂⟩ := h r₁ hr₁
  refine ⟨r₂, hr₂, hn₂.trans hn₁, ?_⟩
  rcases hl₁ with e | e
  · rw [e]
    exact hl₂
  · exact .inr e

/-- A record after one was changed was there, or is the one changed. -/
theorem mem_residents_update {s : State} {n : Nat} {f : Record → Record} {r' : Record}
    (h : r' ∈ residents (updateRecord n f s)) :
    ∃ r ∈ residents s, (r.number ≠ n ∧ r' = r) ∨ (r.number = n ∧ r' = f r) := by
  rw [residents_map (s := s) rfl] at h
  obtain ⟨x, hx, he⟩ := List.mem_filterMap.1 h
  cases x with
  | inUse r =>
    refine ⟨r, List.mem_filterMap.2 ⟨_, hx, rfl⟩, ?_⟩
    simp only [RecordSlot.mapRecord, beq_iff_eq] at he
    split at he
    · next e =>
      cases he
      exact .inr ⟨e, rfl⟩
    · next e =>
      cases he
      exact .inl ⟨e, rfl⟩
  | _ => cases he

theorem livesFollow_settle (n : Nat) (s : State) : LivesFollow s (settle n s) := by
  unfold settle
  split
  · exact livesFollow_of_table rfl
  · next r _ =>
    split
    · refine (livesFollow_of_table (t := releasePlane r.rawPlane s) (by simp)).trans fun q' hq' => ?_
      obtain ⟨q, hq, ⟨_, e⟩ | ⟨_, e⟩⟩ := mem_residents_update hq'
      · exact ⟨q, hq, by rw [e], .inl (by rw [e])⟩
      · exact ⟨q, hq, by rw [e], .inr (by rw [e])⟩
    · exact livesFollow_of_table rfl

theorem livesFollow_removeJobs (n : Nat) (c : ResultCode) (s : State) : LivesFollow s (removeJobs n c s) := by
  unfold removeJobs
  dsimp only
  split
  · exact ((livesFollow_of_table (t := abandonFetch (dropHolds s)) (by simp)).trans (livesFollow_settle n _)).trans
      (livesFollow_of_table (by simp))
  · exact livesFollow_of_table (by simp)

theorem removeJobs_queue (n : Nat) (c : ResultCode) (s : State) :
    ∀ j ∈ (removeJobs n c s).dev.queue, j.shot ≠ n := by
  intro j hj
  unfold removeJobs dropJobs at hj
  have h := (List.mem_filter.1 hj).2
  simpa using h

theorem livesFollow_removeRecord (n : Nat) (s : State) : LivesFollow s (removeRecord n s) := by
  unfold removeRecord
  split
  · exact livesFollow_of_table rfl
  · next i _ =>
    intro r' hr'
    obtain ⟨j, hj⟩ := mem_residents.1 hr'
    rw [show (leaveAmended n (leaveUseOrder i (setSlot i .free s))).table.slots = s.table.slots.set i .free from rfl,
      List.getElem?_set] at hj
    split at hj
    · split at hj
      · cases hj
      · cases hj
    · exact ⟨r', mem_residents.2 ⟨j, hj⟩, rfl, .inl rfl⟩

theorem livesFollow_dropRecord (s : State) (n : Nat) : LivesFollow s (dropRecord s n) :=
  ((livesFollow_removeJobs n .noCard s).trans (livesFollow_of_table (by simp))).trans (livesFollow_removeRecord n _)

/-- The records of a number are all SETTLED. -/
def AllSettled (s : State) (n : Nat) : Prop := ∀ r ∈ residents s, r.number = n → r.life = .settled

theorem LivesFollow.allSettled {s t : State} (h : LivesFollow s t) {n : Nat} (hn : AllSettled s n) : AllSettled t n := by
  intro r' hr' hnum
  obtain ⟨r, hr, e, hl⟩ := h r' hr'
  rcases hl with hl | hl
  · exact hl.trans (hn r hr (e.trans hnum))
  · exact hl

theorem dropRecord_runs {s : State} {n : Nat} (h : AllSettled s n) : Runs s (dropRecord s n) := by
  unfold dropRecord
  refine (removeJobs_runs n .noCard s).trans ((freeHandoffs_runs n _).trans (removeRecord_runs fun r hr hn => ?_))
  have hsettled : r.life = .settled :=
    ((livesFollow_removeJobs n .noCard s).trans (livesFollow_of_table (by simp))).allSettled h r hr hn
  refine ⟨by rw [hsettled]; nofun, by rw [hsettled]; nofun, fun _ j hj => ?_⟩
  rw [(freeHandoffs_keeps n _).2.2.2.2.2.2.2.2.2.2.2.2.2.2.2.2.1] at hj
  exact removeJobs_queue n .noCard s j hj

theorem dropRecords_runs {l : List Nat} {s : State} (h : ∀ n ∈ l, AllSettled s n) : Runs s (l.foldl dropRecord s) := by
  induction l generalizing s with
  | nil => exact .refl s
  | cons n l ih =>
    exact (dropRecord_runs (h n List.mem_cons_self)).trans (ih fun m hm =>
      (livesFollow_dropRecord s n).allSettled (h m (List.mem_cons_of_mem _ hm)))

theorem dropSettled_runs (s : State) : Runs s (dropSettled s) := by
  unfold dropSettled
  dsimp only
  refine Runs.trans (.of_numbers fun hd => dropRecords_runs fun n hn r hr hrn => ?_)
    (Alike.runs (alike_of (s := (settledShots s).foldl dropRecord s) (by simp)))
  obtain ⟨q, hq, hl, hqn⟩ := mem_shotsWhere.1 hn
  rw [resident_unique hd hr hq (hrn.trans hqn.symm)]
  simpa using hl

/-! ### What follows an event -/

theorem finishDrain_runs (s : State) : Runs s (finishDrain s) := by
  unfold finishDrain
  dsimp only
  have hempty : Runs s (emptyIndex (dropSettled (returnHeld s))) :=
    ((returnHeld_runs s).trans (dropSettled_runs _)).trans (emptyIndex_runs _)
  refine hempty.trans (Alike.runs ?_)
  exact Alike.trans (t := { emptyIndex (dropSettled (returnHeld s)) with card :=
    { (emptyIndex (dropSettled (returnHeld s))).card with state := .ejected, volume := none, ejectTag := none } })
    (fun _ => rfl) (answerWaiting_alike _ _ _)

theorem serveBlocks_runs (s : State) : Runs s (serveBlocks s) :=
  ((serveDarkClaim_runs s).trans (attemptDispatch_runs _)).trans
    ((startCardWork_runs _).trans (claimForDark_alike _).runs)

theorem service_runs (s : State) : Runs s (service s) := by
  unfold service
  dsimp only
  split
  · exact (serveBlocks_runs s).trans ((finishDrain_runs _).trans (serveBlocks_runs _))
  · exact serveBlocks_runs s

theorem sameShot_of_seqKept {s t : State} (h : SeqKept s t) : SameShot s t := by
  rcases h with h | ⟨hi, tm, h⟩
  · exact sameShot_of_seq h
  · unfold SameShot
    rw [h, hi]
    exact ⟨rfl, rfl⟩

theorem service_goes (s : State) : Goes s (service s) :=
  (service_runs s).goes (sameShot_of_seqKept (seqKept_service s))

/-- What runs and leaves the sequencer as it was keeps a state at rest lawful. -/
theorem Runs.goes_of_seq {s t : State} (h : Runs s t) (hs : t.seq = s.seq) : Goes s t :=
  h.goes (sameShot_of_seq hs)

theorem enterRunning_goes (s : State) : Goes s (enterRunning s) := by
  unfold enterRunning
  have hpart : Runs s { s with part := .running } := Alike.runs fun _ => rfl
  exact ((hpart.trans (matchingPass_runs _)).goes_of_seq (by simp)).trans (service_goes _)

end Sys2Proof.ShotTable
end

section
namespace Sys2Proof.ShotTable
open Sys2Proof.Machine View

/-! ### Slots claimed, planes passed on -/

/-- The slot a claim is met with is FREE, and nothing else of what the laws speak of has changed. -/
theorem evictSlot_runs {i : Nat} {s : State} (h : slotToClaim s = some i) : Runs s (evictSlot i s) := by
  rcases slotToClaim_some h with hi | ⟨r, hi, hev⟩
  · rw [evictSlot_free hi]
    exact .refl s
  · obtain ⟨hlife, _, _, hjobs, _⟩ := hev
    have hview : ∀ g, viewOf g (evictSlot i s) = { viewOf g s with slots := s.table.slots.set i .free } := by
      intro g
      unfold viewOf
      rw [evictSlot_table hi]
      simp
    exact runs_freeSlot hview hi (by rw [hlife]; nofun) (by rw [hlife]; nofun) fun _ => hjobs

theorem evictSlot_slot {i : Nat} {s : State} (h : slotToClaim s = some i) :
    (evictSlot i s).table.slots[i]? = some .free := by
  rcases slotToClaim_some h with hi | ⟨r, hi, _⟩
  · rw [evictSlot_free hi, hi]
  · rw [evictSlot_table hi]
    exact List.getElem?_set_self (List.getElem?_eq_some_iff.1 hi).1

/-- A loose plane passes to another owner. -/
theorem keeps_passOn (v : View) {p : Nat} {o o' : Owner} {loose : Multiset (Nat × Owner)}
    (h : v.loose = (p, o) ::ₘ loose) (ho : o' ≠ .free) :
    Keeps v { v with owners := v.owners.set p o', loose := (p, o') ::ₘ loose } := by
  refine keeps_planes _ _ rfl rfl rfl rfl rfl rfl rfl fun hn hp => ?_
  have hnamed : (p, o) ∈ v.named := by
    unfold named
    rw [h]
    exact Multiset.mem_add.2 (.inr (Multiset.mem_cons_self _ _))
  have hlt : p < v.owners.length := (List.getElem?_eq_some_iff.1 (hp.owned _ hnamed)).1
  have hkeep := (keeps_letGo v h).trans
    (keeps_takeUp { v with owners := v.owners.set p .free, loose } (o := o') (List.getElem?_set_self hlt) ho)
  have hplanes := hkeep.planes hn hp
  dsimp only at hplanes
  rwa [List.set_set] at hplanes

/-- The plane of a sequencer claim, taken for its owner, is loose. -/
theorem takeSeqPlane_keeps_loose (g : Ghost) {c : Nat × Option Nat} {o : Owner} (ho : o ≠ .free) {s : State}
    (hc : seqPlane s = some c) :
    Keeps (viewOf g s) (viewOf { g with loose := (c.1, o) ::ₘ g.loose } (takeSeqPlane c o s)) := by
  unfold seqPlane at hc
  split at hc
  · next p hp =>
    cases hc
    exact keeps_takeUp (viewOf g s) (freePlanes_free (i := 0) (by rwa [← List.head?_eq_getElem?])) ho
  · split at hc
    · cases hc
    · next e he =>
      obtain ⟨p, hp, rfl⟩ := Option.map_eq_some_iff.1 hc
      have hready : (darkEntry s e).state.isReady = true := by
        have := entryToReclaim_idle he
        simp only [entryIdle, Bool.and_eq_true] at this
        exact this.1.1
      have hx : s.dark.entries[e]? = some (darkEntry s e) := by
        cases hx : s.dark.entries[e]? with
        | none =>
          unfold darkEntry at hready
          rw [List.getD_eq_getElem?_getD, hx] at hready
          cases hready
        | some x => rw [darkEntry_eq hx]
      have hclear := keeps_setEntry (viewOf g s) (y := .free) (plan := s.dark.plan)
        (loose := (p, .dark e) ::ₘ g.loose) (fun _ => hx) (fun _ => ?_) fun hv i hi => ?_
      · exact hclear.trans (keeps_passOn _ rfl ho)
      · rw [hp, show planeOf DarkEntry.free.state.plane? (.dark e) = 0 from rfl, add_zero]
        change _ = g.loose + {(p, Owner.dark e)}
        rw [add_comm, Multiset.singleton_add]
      · have hplanned := hv.plan i hi
        rw [entries_getD_set, if_neg]
        · exact hplanned
        · rintro ⟨rfl, _⟩
          have h : (darkEntry s e).state = .planned := hplanned
          rw [h] at hready
          cases hready

theorem passAfterReclaim_runs (c : Nat × Option Nat) (s : State) : Runs s (passAfterReclaim c s) := by
  unfold passAfterReclaim
  split
  · exact matchingPass_runs s
  · exact .refl s

/-! ### The open shot's record changed -/

theorem updateOpen_runs {f : Record → Record} {s : State}
    (h : ∀ r, (f r).number = r.number ∧ (f r).life = r.life ∧ (f r).rawPlane = r.rawPlane ∧
      (f r).darkLink = r.darkLink ∧ (f r).rawCard = r.rawCard) : Runs s (updateOpen f s) := by
  unfold updateOpen
  split
  · exact .refl s
  · refine runs_updateRecord fun r _ _ => ?_
    obtain ⟨h1, h2, h3, h4, h5⟩ := h r
    exact ⟨h1, h2, h3, by rw [h4]; exact id, .inl h5⟩

theorem updateEntry_runs (f : ExpEntry → ExpEntry) (s : State) : Runs s (updateEntry f s) :=
  updateOpen_runs fun _ => ⟨rfl, rfl, rfl, rfl, rfl⟩

theorem openEntry_runs (t : Time) (s : State) : Runs s (openEntry t s) := by
  unfold openEntry
  dsimp only
  split
  · exact (updateEntry_runs _ s).trans (updateOpen_runs fun _ => ⟨rfl, rfl, rfl, rfl, rfl⟩)
  · exact updateEntry_runs _ s

theorem openTimed_runs (d : Nat) (s : State) : Runs s (openTimed d s) :=
  (openEntry_runs _ s).trans (Alike.runs fun _ => rfl)

theorem beginExposure_runs (k : Start) (roll : Roll) (s : State) : Runs s (beginExposure k roll s) := by
  cases k with
  | release => exact Alike.runs fun _ => rfl
  | fire => exact Alike.runs fun _ => rfl
  | timed d => exact openTimed_runs d s

/-- An exposure that begins leaves the open shot, in a state that has one. -/
theorem beginExposure_shot (k : Start) (roll : Roll) (s : State) :
    (beginExposure k roll s).seq.openShot = s.seq.openShot ∧ (beginExposure k roll s).seq.state.hasShot = true := by
  cases k with
  | release => exact ⟨rfl, rfl⟩
  | fire => exact ⟨rfl, rfl⟩
  | timed d =>
    refine ⟨?_, rfl⟩
    change (openEntry s.timeBase s).seq.openShot = s.seq.openShot
    rw [(openEntry_keeps s.timeBase s).2.2.2.2.2.2.2.2.2.1]

/-! ### The creation of a shot -/

theorem stepFrame_alike (i : Nat) (roll : Roll) (n : Nat) (s : State) : Alike s (stepFrame i roll n s) := alike_of (by simp)

theorem createShot_goes {k : Start} {rollSlot i : Nat} {roll : Roll} {c : Nat × Option Nat} {s : State}
    (hi : s.table.slots[i]? = some .free) (hc : s.table.counter < 4294967296) (hplane : seqPlane s = some c)
    (hhas : s.seq.state.hasShot = false) : Goes s (createShot k rollSlot roll i c s) := by
  let n := s.table.counter
  let r := newRecord s rollSlot roll c.1
  let g : Ghost := { openShot := some n, hasShot := true, busy := false, loose := 0 }
  let u := takeSeqPlane c (.shotRaw n) s
  let t := takeSeqPlane c (.shotRaw n) (touchSlot i (setSlot i (.inUse r) s))
  let w : State := { stepFrame rollSlot roll n { t with table := { t.table with counter := n + 1 } } with
    seq := { (stepFrame rollSlot roll n { t with table := { t.table with counter := n + 1 } }).seq with
      openShot := some n, k := 1 } }
  have hu : u.table = s.table := by simp [u]
  have hview : ∀ g', viewOf g' t = { viewOf g' u with slots := s.table.slots.set i (.inUse r) } := by
    intro g'
    unfold viewOf
    rcases c with ⟨p, _ | e⟩ <;> rfl
  have hcreate : Keeps (view s) (viewOf g w) := by
    refine (takeSeqPlane_keeps_loose (restGhost s) (o := .shotRaw n) nofun hplane).trans ?_
    have hkeep := keeps_create
      (viewOf { restGhost s with loose := (c.1, .shotRaw n) ::ₘ (restGhost s).loose } u) (i := i) (p := c.1) (r := r)
      (loose := 0) (by change u.table.slots[i]? = _; rw [hu]; exact hi) (by change r.number = u.table.counter; rw [hu]; rfl)
      rfl rfl (final_not_waits rfl) rfl (by change _ = (c.1, Owner.shotRaw u.table.counter) ::ₘ _; rw [hu]; rfl)
      (by change u.table.counter < _; rw [hu]; exact hc) hhas
    refine hkeep.trans (.of_eq ?_)
    have hstep : viewOf g w = viewOf g { t with table := { t.table with counter := n + 1 } } :=
      (show viewOf g w = viewOf g (stepFrame rollSlot roll n { t with table := { t.table with counter := n + 1 } }) from rfl).trans
        (stepFrame_alike _ _ _ _ g)
    rw [hstep]
    have ht : viewOf g { t with table := { t.table with counter := n + 1 } } = { viewOf g t with counter := n + 1 } := rfl
    rw [ht, hview g]
    change _ = { viewOf { restGhost s with loose := (c.1, .shotRaw n) ::ₘ (restGhost s).loose } u with
      slots := u.table.slots.set i (.inUse r), counter := u.table.counter + 1, openShot := some u.table.counter
      hasShot := true, loose := 0 }
    rw [hu]
    rfl
  have hrest : Runs w (passAfterReclaim c (beginExposure k roll w)) :=
    (beginExposure_runs k roll w).trans (passAfterReclaim_runs c _)
  have hghost : restGhost (passAfterReclaim c (beginExposure k roll w)) = g := by
    unfold restGhost
    rw [(passAfterReclaim_keeps c _).2.2.2.2.2.2.2.2.2.1, (beginExposure_shot k roll w).1, (beginExposure_shot k roll w).2]
  have hfinal := hcreate.trans (hrest g rfl)
  rw [← hghost] at hfinal
  exact hfinal

/-! ### Starts -/

theorem claimStart_goes {k : Start} {rollSlot : Nat} {roll : Roll} {s : State} (hhas : s.seq.state.hasShot = false) :
    Goes s (claimStart k rollSlot roll s).2 := by
  unfold claimStart
  split
  · exact .refl s
  · next i hi =>
    split
    · exact .refl s
    · next hlt =>
      have hevict : Goes s (evictSlot i s) := (evictSlot_runs hi).goes_of_seq (by simp)
      dsimp only
      split
      · exact hevict
      · next c hc =>
        refine hevict.trans (createShot_goes (evictSlot_slot hi) ?_ hc ?_)
        · rw [evictSlot_counter_eq]
          exact Nat.lt_of_not_le hlt
        · rw [(evictSlot_keeps i s).2.2.2.2.2.2.2.2.2.1]
          exact hhas

theorem startIdle_goes {k : Start} {s : State} (hhas : s.seq.state.hasShot = false) : Goes s (startIdle k s).2 := by
  unfold startIdle
  split
  · split
    · exact .refl s
    · split
      · exact .refl s
      · exact claimStart_goes hhas
  · exact .refl s

/-- An abandonment leaves the sequencer IDLE, and its open shot as it was. -/
theorem abandonDark_seq (s : State) : (abandonDark s).seq.state = .idle ∧ (abandonDark s).seq.openShot = s.seq.openShot := by
  have hleave : ∀ u : State, (leaveDark u).seq.state = .idle ∧ (leaveDark u).seq.openShot = u.seq.openShot := by
    intro u
    unfold leaveDark
    dsimp only
    split <;> exact ⟨rfl, rfl⟩
  unfold abandonDark
  split
  · exact hleave s
  · next e _ =>
    refine ⟨(hleave _).1, (hleave _).2.trans ?_⟩
    rw [(raise_keeps _ _ _).2.2.2.2.2.2.2.2.1, (failEntry_keeps e s).2.2.2.2.2.2.2.2.1]

theorem abandonDark_goes {s : State} (hhas : s.seq.state.hasShot = false) : Goes s (abandonDark s) := by
  refine (abandonDark_runs s).goes ⟨(abandonDark_seq s).2, ?_⟩
  rw [(abandonDark_seq s).1, hhas]
  rfl

theorem startDark_goes {k : Start} {s : State} (hhas : s.seq.state.hasShot = false) : Goes s (startDark k s).2 := by
  unfold startDark
  split
  · exact .refl s
  · split
    · exact .refl s
    · split
      · exact .refl s
      · have hpass : Goes (abandonDark s) (serveEngineClaim (matchingPass (abandonDark s))) :=
          ((matchingPass_runs _).trans (serveEngineClaim_runs _)).goes_of_seq (by simp)
        refine ((abandonDark_goes hhas).trans hpass).trans (startIdle_goes ?_)
        rw [(serveEngineClaim_keeps _).2.2.2.2.2.2.2.2.2.1, (matchingPass_keeps _).2.2.2.2.2.2.2.2.2.1,
          (abandonDark_seq s).1]
        rfl

theorem startArmed_goes {k : Start} {s : State} (hstate : s.seq.state = .armed) : Goes s (startArmed k s).2 := by
  unfold startArmed
  split
  · exact Runs.goes (Alike.runs fun _ => rfl) ⟨rfl, by rw [hstate]; rfl⟩
  · exact Runs.goes (Alike.runs fun _ => rfl) ⟨rfl, by rw [hstate]; rfl⟩
  · exact .refl s

theorem nextExposure_runs (k : Start) (roll : Roll) (s : State) : Runs s (nextExposure k roll s) := by
  unfold nextExposure
  dsimp only
  have hnew : Runs s (updateOpen (fun r => { r with exposures := r.exposures ++ [newEntry (s.seq.k + 1)] }) s) :=
    updateOpen_runs fun _ => ⟨rfl, rfl, rfl, rfl, rfl⟩
  refine hnew.trans (Runs.trans (Alike.runs fun _ => ?_) (beginExposure_runs k roll _))
  rfl

theorem nextExposure_shot (k : Start) (roll : Roll) (s : State) :
    (nextExposure k roll s).seq.openShot = s.seq.openShot ∧ (nextExposure k roll s).seq.state.hasShot = true := by
  unfold nextExposure
  refine ⟨(beginExposure_shot k roll _).1.trans ?_, (beginExposure_shot k roll _).2⟩
  simp

theorem startStack_goes {k : Start} {s : State} (hstate : s.seq.state = .stackWait) : Goes s (startStack k s).2 := by
  have hhas : s.seq.state.hasShot = true := by rw [hstate]; rfl
  unfold startStack
  split
  · exact .refl s
  · next roll _ =>
    split
    · exact .refl s
    · split
      · exact (nextExposure_runs k roll s).goes ⟨(nextExposure_shot k roll s).1, by rw [(nextExposure_shot k roll s).2, hhas]⟩
      · next hscratch =>
        have hnone : s.seq.scratch = none := by simpa using hscratch
        split
        · exact .refl s
        · next c hc =>
          dsimp only
          let u := takeSeqPlane c .seqScratch s
          have hu : u.seq = s.seq := by simp [u]
          let t : State := { u with seq := { u.seq with scratch := some c.1 } }
          have htake : Keeps (view s) (viewOf (restGhost s) t) := by
            refine (takeSeqPlane_keeps_loose (restGhost s) (o := .seqScratch) nofun hc).trans ?_
            refine keeps_rename (viewOf { restGhost s with loose := (c.1, .seqScratch) ::ₘ (restGhost s).loose } u)
              (scratch := some c.1) (loose := 0) (fun _ => ?_) (fun hp => hp.rest) (fun hp => hp.plan) fun _ _ hx =>
                absurd hx (Multiset.notMem_zero _)
            unfold named viewOf
            dsimp only
            rw [hu, hnone, show planeOf none Owner.seqScratch = 0 from rfl,
              show planeOf (some c.1) Owner.seqScratch = {(c.1, Owner.seqScratch)} from rfl,
              show (restGhost s).loose = 0 from rfl, Multiset.cons_zero]
            abel
          have hrest := (nextExposure_runs k roll t).trans (passAfterReclaim_runs c _)
          have hghost : restGhost (passAfterReclaim c (nextExposure k roll t)) = restGhost s := by
            unfold restGhost
            rw [(passAfterReclaim_keeps c _).2.2.2.2.2.2.2.2.2.1, (nextExposure_shot k roll t).1,
              (nextExposure_shot k roll t).2, hhas]
            change ({ openShot := u.seq.openShot, .. } : Ghost) = _
            rw [hu]
          have hfinal := htake.trans (hrest (restGhost s) rfl)
          unfold Goes view
          rw [hghost]
          exact hfinal

theorem decideStart_goes (k : Start) (s : State) : Goes s (decideStart k s).2 := by
  unfold decideStart
  split
  · next h => exact startIdle_goes (by rw [h]; rfl)
  · next h => exact startArmed_goes h
  · next h => exact startStack_goes h
  · next h => exact startDark_goes (by rw [h]; rfl)
  · next h => exact startDark_goes (by rw [h]; rfl)
  · exact .refl s

theorem release_goes (s : State) : Goes s (release s) := by
  unfold release
  dsimp only
  split
  · exact decideStart_goes _ s
  · exact (decideStart_goes _ s).trans
      ((Alike.runs (alike_of (s := (decideStart .release s).2) (by simp))).goes_of_seq (by simp))

end Sys2Proof.ShotTable
end

section
namespace Sys2Proof.ShotTable
open Sys2Proof.Machine View

/-! ### The open shot at its end -/

/-- Nothing is open. -/
def noShot : Ghost where
  openShot := none
  hasShot := false
  busy := false
  loose := 0

theorem freeScratch_runs (s : State) : Runs s (freeScratch s) := by
  intro g _
  let t : State := { s with seq := { s.seq with scratch := none } }
  have hdrop : Keeps (viewOf g s) (viewOf { g with loose := g.loose + planeOf s.seq.scratch .seqScratch } t) := by
    refine keeps_rename (viewOf g s) (scratch := none) (loose := g.loose + planeOf s.seq.scratch .seqScratch) (fun _ => ?_)
      (fun hp => hp.rest) (fun hp => hp.plan) fun hp x hx => ?_
    · unfold named viewOf
      dsimp only
      rw [show planeOf none Owner.seqScratch = 0 from rfl]
      abel
    · rcases Multiset.mem_add.1 hx with h | h
      · exact hp.loose x h
      · rw [planeOf_owner h]
        nofun
  refine hdrop.trans ((releasePlane_keeps_loose g s.seq.scratch .seqScratch t).trans (.of_eq ?_))
  rfl

theorem openRecord_some {s : State} {r : Record} (h : openRecord s = some r) :
    s.seq.openShot = some r.number ∧ ∃ i : Nat, s.table.slots[i]? = some (.inUse r) := by
  unfold openRecord at h
  obtain ⟨n, hn, hf⟩ := Option.bind_eq_some_iff.1 h
  obtain ⟨i, hi, rfl⟩ := findRecord_slot hf
  exact ⟨hn, i, hi⟩

theorem openRecord_none {s : State} (h : openRecord s = none) : ∀ n ∈ s.seq.openShot, ∀ r ∈ residents s, r.number ≠ n := by
  intro n hn r hr e
  unfold openRecord at h
  rw [Option.mem_def.1 hn] at h
  have hnone : findRecord s n = none := h
  exact absurd e (by simpa using List.find?_eq_none.1 hnone r hr)

/-- The open shot is gone already. -/
theorem lostShot_keeps {s : State} (h : openRecord s = none) : Keeps (view s) (viewOf noShot s) :=
  keeps_lose (view s) (openRecord_none h)

/-- The record of the open shot changed as it is open no more. What it no longer names is loose. -/
theorem closeRecord_keeps {s : State} {r : Record} {f : Record → Record} {loose : Multiset (Nat × Owner)}
    (hr : openRecord s = some r) (hf : OpenEnds r (.inUse (f r))) (hl : loose + rawOf (.inUse (f r)) = rawOf (.inUse r)) :
    Keeps (view s) (viewOf { noShot with loose } (updateOpen f s)) := by
  obtain ⟨hopen, i, hi⟩ := openRecord_some hr
  refine Keeps.of_numbers fun hn => ?_
  refine (keeps_close (view s) hi hopen hf (loose := loose) (hl.trans (zero_add _).symm)).trans (.of_eq ?_)
  have hslots := mapRecord_eq_set (numbersDistinct_of hn) f hi
  unfold updateOpen
  rw [hopen]
  change { viewOf { noShot with loose } s with slots := s.table.slots.map (RecordSlot.mapRecord r.number f) } = _
  rw [hslots]
  rfl

theorem freeScratch_rest (s : State) : (freeScratch s).table = s.table ∧ (freeScratch s).seq.openShot = s.seq.openShot ∧
    (freeScratch s).seq.state = s.seq.state ∧ (freeScratch s).rolls = s.rolls := by
  unfold freeScratch
  cases s.seq.scratch <;> exact ⟨rfl, rfl, rfl, rfl⟩

theorem freeScratch_goes (s : State) : Goes s (freeScratch s) :=
  (freeScratch_runs s).goes ⟨(freeScratch_rest s).2.1, by rw [(freeScratch_rest s).2.2.1]⟩

theorem openRecord_freeScratch (s : State) : openRecord (freeScratch s) = openRecord s := by
  obtain ⟨ht, ho, _⟩ := freeScratch_rest s
  unfold openRecord findRecord
  rw [ho, residents_congr ht]

/-- The open shot is HELD. -/
theorem holdShot_keeps {s : State} {r : Record} (hr : openRecord s = some r) :
    Keeps (view s) (viewOf noShot (holdShot s)) := by
  refine Keeps.trans (freeScratch_goes s) ?_
  exact closeRecord_keeps (s := freeScratch s) (f := finishedRecord (freeScratch s)) (loose := 0)
    ((openRecord_freeScratch s).trans hr) (.inr ⟨_, rfl, rfl, rfl, .inl rfl⟩) (zero_add _)

/-- Every record of `s` is in `t` with its number and its life. -/
def LivesStay (s t : State) : Prop := ∀ r ∈ residents s, ∃ r' ∈ residents t, r'.number = r.number ∧ r'.life = r.life

theorem livesStay_of_table {s t : State} (h : t.table = s.table) : LivesStay s t := fun r hr =>
  ⟨r, residents_congr h ▸ hr, rfl, rfl⟩

theorem LivesStay.trans {s t u : State} (h : LivesStay s t) (h' : LivesStay t u) : LivesStay s u := by
  intro r hr
  obtain ⟨r₁, hr₁, hn₁, hl₁⟩ := h r hr
  obtain ⟨r₂, hr₂, hn₂, hl₂⟩ := h' r₁ hr₁
  exact ⟨r₂, hr₂, hn₂.trans hn₁, hl₂.trans hl₁⟩

theorem livesStay_updateRecord {n : Nat} {f : Record → Record} {s : State}
    (hf : ∀ r, (f r).number = r.number ∧ (f r).life = r.life) : LivesStay s (updateRecord n f s) := by
  intro r hr
  obtain ⟨i, hi⟩ := mem_residents.1 hr
  have hslot : (updateRecord n f s).table.slots[i]? = some (RecordSlot.mapRecord n f (.inUse r)) := by
    simp only [updateRecord, List.getElem?_map, hi, Option.map_some]
  simp only [RecordSlot.mapRecord] at hslot
  split at hslot
  · exact ⟨f r, mem_residents.2 ⟨i, hslot⟩, hf r⟩
  · exact ⟨r, mem_residents.2 ⟨i, hslot⟩, rfl, rfl⟩

theorem livesStay_linkShot (e n : Nat) (s : State) : LivesStay s (linkShot e s n) :=
  LivesStay.trans (livesStay_updateRecord (n := n) (f := fun r => { r with darkLink := .linked e }) fun _ => ⟨rfl, rfl⟩)
    (livesStay_of_table (linkShot_table e s n))

theorem livesStay_matchingPass (s : State) : LivesStay s (matchingPass s) :=
  matchingPass_preserves (P := LivesStay s) (fun e n _ h _ => h.trans (livesStay_linkShot e n _))
    (fun _ _ _ h _ => h.trans (livesStay_of_table (by simp))) (livesStay_of_table rfl)

/-- A number of a HELD or SETTLED record. -/
def MayDevelop (s : State) (n : Nat) : Prop := ∃ r ∈ residents s, r.number = n ∧ (r.life = .held ∨ r.life = .settled)

theorem LivesStay.mayDevelop {s t : State} (h : LivesStay s t) {n : Nat} (hn : MayDevelop s n) : MayDevelop t n := by
  obtain ⟨r, hr, hrn, hl⟩ := hn
  obtain ⟨r', hr', hn', hl'⟩ := h r hr
  exact ⟨r', hr', hn'.trans hrn, by rwa [hl']⟩

theorem autoJob_runs {n : Nat} (k : JobKind) (p : Option Nat) {s : State} (h : MayDevelop s n) : Runs s (autoJob n k p s) := by
  unfold autoJob
  split
  · exact .refl s
  · exact placeJob_runs k _ none h

theorem autoJobs_runs {n : Nat} (roll : Option Roll) {s : State} (h : MayDevelop s n) : Runs s (autoJobs n roll s) := by
  unfold autoJobs
  refine (autoJob_runs .preview _ h).trans (autoJob_runs .full _ ((livesStay_of_table ?_).mayDevelop h))
  simp

theorem holdShot_held {s : State} {r : Record} (hr : openRecord s = some r) : MayDevelop (holdShot s) r.number := by
  obtain ⟨hopen, i, hi⟩ := openRecord_some hr
  obtain ⟨ht, ho, _⟩ := freeScratch_rest s
  have hheld : holdShot s = updateRecord r.number (finishedRecord (freeScratch s)) (freeScratch s) := by
    unfold holdShot updateOpen
    dsimp only
    rw [ho, hopen]
  have hslot : (holdShot s).table.slots[i]? = some (.inUse (finishedRecord (freeScratch s) r)) := by
    rw [hheld]
    simp only [updateRecord, List.getElem?_map, ht, hi, Option.map_some, RecordSlot.mapRecord, beq_self_eq_true, if_true]
  exact ⟨_, mem_residents.2 ⟨i, hslot⟩, rfl, .inl rfl⟩

theorem finishShot_goes (s : State) : Goes s (finishShot s) := by
  unfold finishShot
  split
  · next n r hn hr =>
    have hnum : n = r.number := Option.some.inj (hn.symm.trans (openRecord_some hr).1)
    subst hnum
    have hlater : MayDevelop (raiseShot .exposureDone r.number (matchingPass (holdShot s))) r.number :=
      ((livesStay_matchingPass _).trans (livesStay_of_table (by simp))).mayDevelop (holdShot_held hr)
    have hruns := ((matchingPass_runs (holdShot s)).trans
      (raiseShot_alike .exposureDone r.number _).runs).trans (autoJobs_runs (rollOf s r) hlater)
    exact (holdShot_keeps hr).trans (hruns noShot rfl)
  · exact .refl s

/-- The slot of a record, when no other carries its number. -/
theorem slotOf_eq {s : State} (hd : NumbersDistinct s) {i : Nat} {r : Record} (hi : s.table.slots[i]? = some (.inUse r)) :
    slotOf s r.number = some i := by
  cases hs : slotOf s r.number with
  | none =>
    have := List.findIdx?_eq_none_iff.1 hs _ (List.mem_of_getElem? hi)
    simp [RecordSlot.carries] at this
  | some j =>
    obtain ⟨q, hq, hn⟩ := slotOf_some hs
    rw [slot_unique hd hi hq rfl (congrArg some hn)]

theorem giveFrameBack_alike (s : State) : Alike s (giveFrameBack s) := alike_of (by simp)

theorem removeOpen_goes (s : State) : Goes s (removeOpen s) := by
  unfold removeOpen
  split
  · next hnone =>
    exact Keeps.trans (freeScratch_goes s) (lostShot_keeps ((openRecord_freeScratch s).trans hnone))
  · next r hr =>
    refine Keeps.trans (freeScratch_goes s) ?_
    obtain ⟨hopen, i, hi⟩ := openRecord_some ((openRecord_freeScratch s).trans hr)
    refine Keeps.of_numbers fun hn => ?_
    have hclose := keeps_close (view (freeScratch s)) hi hopen (y := .free) (loose := rawOf (.inUse r)) (.inl rfl)
      ((add_zero _).trans (zero_add _).symm)
    have hview : { view (freeScratch s) with
        slots := (freeScratch s).table.slots.set i .free, openShot := none, hasShot := false, loose := rawOf (.inUse r) } =
        viewOf { noShot with loose := noShot.loose + planeOf r.rawPlane (.shotRaw r.number) }
          (removeRecord r.number (freeScratch s)) := by
      unfold removeRecord
      rw [slotOf_eq (numbersDistinct_of hn) hi]
      rfl
    have hrelease := releasePlane_keeps_loose noShot r.rawPlane (.shotRaw r.number) (removeRecord r.number (freeScratch s))
    have hframe := (giveFrameBack_alike (releasePlane r.rawPlane (removeRecord r.number (freeScratch s)))).always noShot
    exact (hclose.trans (.of_eq hview.symm)).trans (hrelease.trans hframe)

theorem voidShot_goes (s : State) : Goes s (voidShot s) := by
  unfold voidShot
  split
  · next hnone => exact lostShot_keeps hnone
  · next r hr =>
    have hclose := closeRecord_keeps (f := fun r => { r with life := .void, rawPlane := none })
      (loose := planeOf r.rawPlane (.shotRaw r.number)) hr (.inr ⟨_, rfl, rfl, rfl, .inr ⟨rfl, rfl⟩⟩) (add_zero _)
    have hrelease := releasePlane_keeps_loose noShot r.rawPlane (.shotRaw r.number)
      (updateOpen (fun r => { r with life := .void, rawPlane := none }) s)
    rw [show noShot.loose = 0 from rfl, zero_add] at hrelease
    exact (hclose.trans hrelease).trans ((raiseShot_alike .shotVoid r.number _).always noShot)

/-- A sequencer without a shot is IDLE all the same. -/
theorem idleSeq_goes {s : State} (h : s.seq.state.hasShot = false) : Goes s (idleSeq s) := by
  have hnone : (view s).Opened → (view s).openShot = none := by
    intro ho
    cases hn : (view s).openShot with
    | none => rfl
    | some n =>
      have : (view s).hasShot = true := ho.present.1 (by rw [hn]; rfl)
      exact absurd (this.symm.trans h) (by decide)
  refine ⟨fun ⟨a, b, c, d, e⟩ => ⟨a, b, c, d, e⟩, fun _ ho => ⟨by simp [viewOf, restGhost, idleSeq, Seq.idled, SeqState.hasShot],
    nofun, fun r hr hl => ?_⟩, fun _ ⟨a, b, c, d, e, f, g⟩ => ⟨a, b, c, d, e, f, g⟩,
    fun _ _ ⟨a, b, c, d⟩ ⟨e, f⟩ => ⟨⟨a, b, c, d⟩, ⟨e, f⟩⟩⟩
  have := ho.only r hr hl
  rw [hnone ho] at this
  cases this

theorem settleOpen_goes (s : State) : Goes s (settleOpen s) := by
  unfold settleOpen
  split
  · next hnone => exact lostShot_keeps hnone
  · next r hr =>
    split
    · exact removeOpen_goes s
    · have hcut : Goes s (updateEntry ExpEntry.cutOff s) := (updateEntry_runs _ s).goes_of_seq (by simp)
      have hopen : ∃ r', openRecord (updateEntry ExpEntry.cutOff s) = some r' := by
        cases h : openRecord (updateEntry ExpEntry.cutOff s) with
        | some r' => exact ⟨r', rfl⟩
        | none =>
          obtain ⟨hn, i, hi⟩ := openRecord_some hr
          have hstay : LivesStay s (updateEntry ExpEntry.cutOff s) := by
            unfold updateEntry updateOpen
            rw [hn]
            exact livesStay_updateRecord fun _ => ⟨rfl, rfl⟩
          obtain ⟨r', hr', hrn, _⟩ := hstay r (mem_residents.2 ⟨i, hi⟩)
          exact absurd hrn (openRecord_none h r.number (by simp [hn]) r' hr')
      obtain ⟨r', hr'⟩ := hopen
      exact hcut.trans (holdShot_keeps hr')

theorem restartSequencer_goes (s : State) : Goes s (restartSequencer s) := by
  unfold restartSequencer
  dsimp only
  refine (freeScratch_goes s).trans ?_
  generalize freeScratch s = t
  split
  · next h => exact idleSeq_goes (by rw [h]; rfl)
  · next h => exact idleSeq_goes (by rw [h]; rfl)
  · next h =>
    exact ((readoutEnds_alike t).runs.goes_of_seq (by simp)).trans (idleSeq_goes (by
      rw [show (readoutEnds t).seq = t.seq from rfl, h]; rfl))
  · exact ((readoutEnds_alike t).runs.goes_of_seq (by simp)).trans (settleOpen_goes _)
  · exact settleOpen_goes t

/-! ### Edges, windows and readouts -/

/-- The current entry changed, and the sequencer's own timers and state. -/
theorem updateEntry_seq_goes {f : ExpEntry → ExpEntry} {q : Seq} {s : State} (hscratch : q.scratch = s.seq.scratch)
    (hopen : q.openShot = s.seq.openShot) (hhas : q.state.hasShot = s.seq.state.hasShot) :
    Goes s { updateEntry f s with seq := q } := by
  have hseq : (updateEntry f s).seq = s.seq := by simp
  have hscratch' : q.scratch = (updateEntry f s).seq.scratch := by rw [hseq, hscratch]
  exact Runs.goes ((updateEntry_runs f s).trans
    (Alike.runs (alike_of ⟨rfl, rfl, rfl, rfl, rfl, hscratch', rfl, rfl⟩))) ⟨hopen, hhas⟩

theorem closeEntry_goes {t : Time} {source : TimeSource} {cause : EndingCause} {truncated : Bool} {s : State}
    (h : s.seq.state.hasShot = true) : Goes s (closeEntry t source cause truncated s) := by
  unfold closeEntry
  exact updateEntry_seq_goes (by simp) (by simp) (by rw [h]; rfl)

theorem openBySync_goes {t : Time} {roll : Roll} {s : State} (h : s.seq.state.hasShot = true) :
    Goes s (openBySync t roll s) := by
  unfold openBySync
  dsimp only
  refine Runs.goes ((openEntry_runs t s).trans (Alike.runs fun _ => ?_)) ⟨?_, ?_⟩
  · rfl
  · simp
  · rw [h]
    rfl

theorem reopen_goes {s : State} (h : s.seq.state.hasShot = true) : Goes s (reopen s) := by
  unfold reopen
  exact updateEntry_seq_goes (by simp) (by simp) (by rw [h]; rfl)

theorem xsyncClose_goes (t : Time) (s : State) : Goes s (xsyncClose t s) := by
  unfold xsyncClose
  split
  · next h _ =>
    split
    · exact openBySync_goes (by rw [h]; rfl)
    · exact .refl s
  · next h _ =>
    split
    · exact reopen_goes (by rw [h]; rfl)
    · exact .refl s
  · exact .refl s

theorem xsyncOpening_goes (t : Time) (s : State) : Goes s (xsyncOpening t s) := by
  unfold xsyncOpening
  split
  · next h => exact closeEntry_goes (by rw [h.1]; rfl)
  · exact .refl s

theorem auxEnd_goes (t : Time) (s : State) : Goes s (auxEnd t s) := by
  unfold auxEnd
  split
  · next h => exact closeEntry_goes (by rw [h.1]; rfl)
  · exact .refl s

theorem deliver_goes (i : SyncInput) (level : Contact) (t : Time) (s : State) : Goes s (deliver i level t s) := by
  unfold deliver
  split
  · exact release_goes s
  · exact .refl s
  · exact xsyncClose_goes t s
  · exact xsyncOpening_goes t s
  · exact .refl s
  · split
    · exact .refl s
    · exact auxEnd_goes t s
    · exact release_goes s

theorem waitForStack_goes {s : State} (h : s.seq.state.hasShot = true) : Goes s (waitForStack s) :=
  Runs.goes (Alike.runs fun _ => rfl) ⟨rfl, by rw [h]; rfl⟩

theorem requestAccumulate_goes {s : State} (h : s.seq.state.hasShot = true) : Goes s (requestAccumulate s) := by
  refine Runs.goes (Alike.runs (alike_of ?_)) ⟨?_, ?_⟩
  · unfold requestAccumulate
    simp
  · unfold requestAccumulate
    simp
  · rw [h]
    unfold requestAccumulate
    simp [SeqState.hasShot]

theorem readoutDone_goes (f : ExpEntry → ExpEntry) (s : State) : Goes s (readoutEnds (updateEntry f s)) :=
  ((updateEntry_runs f s).trans (readoutEnds_alike _).runs).goes_of_seq (by simp)

theorem goodReadout_goes {temperature : Int} {s : State} (h : s.seq.state.hasShot = true) :
    Goes s (goodReadout temperature s) := by
  unfold goodReadout
  dsimp only
  refine (readoutDone_goes (fun e => { e with status := .done, temperature := some temperature }) s).trans ?_
  have hhas : (readoutEnds (updateEntry (fun e => { e with status := .done, temperature := some temperature }) s)).seq.state.hasShot
      = true := by simpa using h
  split
  · exact requestAccumulate_goes hhas
  · split
    · exact waitForStack_goes hhas
    · exact finishShot_goes _

theorem failedReadout_goes (s : State) : Goes s (failedReadout s) := by
  unfold failedReadout
  dsimp only
  refine (readoutDone_goes (fun e => { e with status := .failed }) s).trans ?_
  split
  · exact finishShot_goes _
  · exact voidShot_goes _

theorem afterAccumulate_goes {s : State} (h : s.seq.state.hasShot = true) : Goes s (afterAccumulate s) := by
  unfold afterAccumulate
  split
  · exact .refl s
  · split
    · exact finishShot_goes s
    · exact waitForStack_goes h

theorem armExpired_goes (s : State) : Goes s (armExpired s) := by
  unfold armExpired
  split
  · exact (removeOpen_goes s).trans ((raiseShot_alike _ _ _).runs.goes_of_seq (by simp))
  · have hlast : Runs s (updateOpen (fun r => { r with exposures := r.exposures.dropLast }) s) :=
      updateOpen_runs fun _ => ⟨rfl, rfl, rfl, rfl, rfl⟩
    exact (hlast.goes_of_seq (by simp)).trans (finishShot_goes _)

theorem maxOpenExpired_goes (t : Time) (s : State) : Goes s (maxOpenExpired t s) := by
  unfold maxOpenExpired
  dsimp only
  have hstop : Goes s { s with seq := { s.seq with maxOpen := none } } := Runs.goes (Alike.runs fun _ => rfl) ⟨rfl, rfl⟩
  split
  · next h =>
    have hhas : s.seq.state.hasShot = true := by
      rw [show s.seq.state = .opened by simpa using h]
      rfl
    exact (hstop.trans (closeEntry_goes hhas)).trans ((raiseShot_alike _ _ _).runs.goes_of_seq (by simp))
  · exact hstop

theorem settleExpired_goes {s : State} (h : s.seq.state.hasShot = true) : Goes s (settleExpired s) := by
  unfold settleExpired beginReadout
  exact (updateEntry_seq_goes (by simp) (by simp) (by rw [h]; rfl)).trans ((readoutBegins_alike _).runs.goes_of_seq (by simp))

end Sys2Proof.ShotTable
end

section
namespace Sys2Proof.ShotTable
open Sys2Proof.Machine View

/-! ### Lives -/

theorem livesFollow_updateRecord {n : Nat} {f : Record → Record} {s : State}
    (hf : ∀ r, (f r).number = r.number ∧ ((f r).life = r.life ∨ (f r).life = .settled)) :
    LivesFollow s (updateRecord n f s) := by
  intro r' hr'
  obtain ⟨r, hr, ⟨_, rfl⟩ | ⟨_, rfl⟩⟩ := mem_residents_update hr'
  · exact ⟨r', hr, rfl, .inl rfl⟩
  · exact ⟨r, hr, (hf r).1.symm, (hf r).2⟩

theorem livesFollow_linkShot (e n : Nat) (s : State) : LivesFollow s (linkShot e s n) :=
  LivesFollow.trans (livesFollow_updateRecord (n := n) (f := fun r => { r with darkLink := .linked e })
    fun _ => ⟨rfl, .inl rfl⟩) (livesFollow_of_table (linkShot_table e s n))

theorem livesFollow_matchingPass (s : State) : LivesFollow s (matchingPass s) :=
  matchingPass_preserves (P := LivesFollow s) (fun e n _ h _ => h.trans (livesFollow_linkShot e n _))
    (fun _ _ _ h _ => h.trans (livesFollow_of_table (by simp))) (livesFollow_of_table rfl)

theorem livesFollow_freePass (e : Nat) (s : State) : LivesFollow s (matchingPass (freeEntry e s)) :=
  (livesFollow_of_table (by simp)).trans (livesFollow_matchingPass _)

theorem livesFollow_afterUnlink (e : Nat) (s : State) : LivesFollow s (afterUnlink e s) := by
  unfold afterUnlink
  split
  · split
    · exact livesFollow_freePass e s
    · exact (livesFollow_of_table (by simp)).trans (livesFollow_matchingPass (freeIfExpired e s))
    · exact livesFollow_of_table rfl
  · exact livesFollow_of_table rfl

theorem livesFollow_requestEnded (e : Nat) (s : State) : LivesFollow s (requestEnded e s) := by
  unfold requestEnded
  split
  · exact livesFollow_freePass e s
  · exact livesFollow_of_table rfl

/-! ### Looking up and amending -/

theorem touchRecord_alike (n : Nat) (s : State) : Alike s (touchRecord n s) := by
  unfold touchRecord
  split <;> exact fun _ => rfl

theorem lookupResident_alike (tag : Nat) (r : Record) (s : State) : Alike s (lookupResident tag r s) :=
  (answer_alike tag .ok _ s).trans (touchRecord_alike _ _)

theorem makeDirty_runs (n : Nat) (s : State) : Runs s (makeDirty n s) := by
  have h : Runs s (updateRecord n (fun r => { r with dirty := true }) s) :=
    runs_updateRecord fun _ _ _ => ⟨rfl, rfl, rfl, id, .inl rfl⟩
  exact h.trans (Alike.runs fun _ => rfl)

theorem applyAmend_runs (r : Record) (o : AmendOperands) (s : State) : Runs s (applyAmend r o s) := by
  unfold applyAmend
  dsimp only
  have hamend : Runs s (updateRecord r.number (amendRecord o) s) :=
    runs_updateRecord fun _ _ _ => ⟨rfl, rfl, rfl, id, .inl rfl⟩
  have hwaive : ∀ u : State, Runs u (if o.waiveDark = true then giveUpDark r.number u else u) := by
    intro u
    split
    · exact giveUpDark_runs _ u
    · exact .refl u
  have hdirty : ∀ (b : Bool) (u : State), Runs u (if b = true then makeDirty r.number u else u) := by
    intro b u
    split
    · exact makeDirty_runs _ u
    · exact .refl u
  exact (hamend.trans (hdirty _ _)).trans (hwaive _)

theorem amendResident_runs (tag : Nat) (r : Record) (o : AmendOperands) (s : State) : Runs s (amendResident tag r o s) := by
  unfold amendResident
  dsimp only
  refine (touchRecord_alike r.number s).runs.trans ?_
  split
  · exact (answerCode_alike _ _ _).runs
  · split
    · exact applyAmend_runs r o _
    · exact (applyAmend_runs r o _).trans (answer_alike _ _ _ _).runs

/-! ### Retiring -/

/-- The records of a number can be removed: none is OPEN or HELD, and a SETTLED one has no job. -/
def MayRemove (s : State) (n : Nat) : Prop :=
  ∀ r ∈ residents s, r.number = n → r.life ≠ .opened ∧ r.life ≠ .held ∧
    (r.life = .settled → ∀ j ∈ s.dev.queue, j.shot ≠ n)

theorem endRetirement_runs {c : ResultCode} {s : State} {n : Nat} (h : MayRemove s n) :
    Runs s (endRetirement c s n) :=
  (removeRecord_runs h).trans (answerWaiting_alike _ _ _).runs

/-- What lives on in lives that can be removed can be removed, when its jobs are gone. -/
theorem LivesFollow.mayRemove {s t : State} (h : LivesFollow s t) {n : Nat}
    (hn : ∀ r ∈ residents s, r.number = n → r.life ≠ .opened ∧ r.life ≠ .held)
    (hj : ∀ j ∈ t.dev.queue, j.shot ≠ n) : MayRemove t n := by
  intro r' hr' hnum
  obtain ⟨r, hr, e, hl⟩ := h r' hr'
  obtain ⟨ho, hh⟩ := hn r hr (e.trans hnum)
  rcases hl with hl | hl
  · rw [hl]
    exact ⟨ho, hh, fun _ => hj⟩
  · rw [hl]
    exact ⟨nofun, nofun, fun _ => hj⟩

theorem dropHolds_updateRecord (n : Nat) (f : Record → Record) (s : State) :
    dropHolds (updateRecord n f s) = updateRecord n f (dropHolds s) := by
  unfold dropHolds endHolds
  dsimp only
  rw [show (updateRecord n f s).dev = s.dev from rfl]
  generalize s.dev.holds.bind (·.fetch) = fetch
  generalize s.dev.holds.bind (·.output) = output
  generalize s.dev.holds.bind (·.slot) = slot
  cases fetch <;> cases output <;> cases slot <;> rfl

theorem endJobs_updateRecord (n m : Nat) (f : Record → Record) (s : State) :
    endJobs n (updateRecord m f s) = updateRecord m f (endJobs n s) := by
  unfold endJobs
  rw [show (updateRecord m f s).dev = s.dev from rfl]
  split
  · rw [dropHolds_updateRecord]
    rfl
  · rfl

theorem retired_not_waits (l : DarkLink) : ¬ Waits l.retired := by
  cases l <;> exact final_not_waits rfl

/-- A record that has no jobs any more is RETIRING, and its raw plane loose. -/
theorem retireRecord_keeps {g : Ghost} {tag : Nat} {r : Record} {s : State} (hr : r ∈ residents s) (ho : r.life ≠ .opened)
    (hj : ∀ j ∈ s.dev.queue, j.shot ≠ r.number) :
    Keeps (viewOf g s) (viewOf { g with loose := g.loose + planeOf r.rawPlane (.shotRaw r.number) }
      (updateRecord r.number (Record.retire tag) s)) := by
  obtain ⟨i, hi⟩ := mem_residents.1 hr
  refine Keeps.of_numbers fun hn => ?_
  have hchange : RecordChange (viewOf g s) r (r.retire tag) :=
    ⟨rfl, .inr (.inr ⟨rfl, ho, hj⟩), .inl rfl, fun h => absurd h (retired_not_waits _), .inl rfl⟩
  refine (keeps_dropRaw hi hchange rfl).trans (.of_eq ?_)
  rw [← mapRecord_eq_set (numbersDistinct_of hn) (Record.retire tag) hi]
  rfl

/-- A record RETIRING takes its jobs with it. -/
theorem retireJobs_keeps {g : Ghost} (hg : g.busy = false) {tag : Nat} {r : Record} {s : State} (hr : r ∈ residents s)
    (ho : r.life ≠ .opened) :
    Keeps (viewOf g s) (viewOf { g with loose := g.loose + planeOf r.rawPlane (.shotRaw r.number) }
      (removeJobs r.number .abandoned (updateRecord r.number (Record.retire tag) s))) := by
  refine Keeps.of_numbers fun hn => ?_
  let t := updateRecord r.number (Record.retire tag) s
  have hres : residents (endJobs r.number s) = residents s := residents_congr (endJobs_table _ _)
  have hretire := retireRecord_keeps (g := g) (tag := tag) (s := endJobs r.number s) (hres ▸ hr) ho (endJobs_gone _ _)
  rw [← endJobs_updateRecord] at hretire
  have hview := removeJobs_alike r.number .abandoned t
  have hsettle : settle r.number (endJobs r.number t) = endJobs r.number t := by
    unfold settle
    cases hf : findRecord (endJobs r.number t) r.number with
    | none => rfl
    | some q =>
      dsimp only
      have hq := findRecord_mem hf
      rw [residents_congr (endJobs_table r.number t)] at hq
      obtain ⟨q', _, ⟨hne, e⟩ | ⟨_, e⟩⟩ := mem_residents_update hq.1
      · exact absurd (e ▸ hq.2) hne
      · rw [if_neg]
        rintro ⟨hlife, _⟩
        rw [e] at hlife
        cases hlife
  rw [hsettle, ite_self] at hview
  exact ((endJobs_runs r.number s g hg).trans hretire).trans (hview.always _)

theorem leaveDarkUnit_runs (n : Nat) (link : DarkLink) (s : State) : Runs s (leaveDarkUnit n link s) := by
  unfold leaveDarkUnit
  dsimp only
  have hpau : Runs s (abandonPau n s) := Alike.runs (alike_of (by simp))
  have hlink : Runs (abandonPau n s) (match link with
      | .linked e => afterUnlink e (abandonPau n s)
      | _ => abandonPau n s) := by
    split
    · exact afterUnlink_runs _ _
    · exact .refl _
  split
  · exact hpau.trans hlink
  · exact (hpau.trans hlink).trans (requestEnded_runs _ _)

theorem livesFollow_leaveDarkUnit (n : Nat) (link : DarkLink) (s : State) : LivesFollow s (leaveDarkUnit n link s) := by
  unfold leaveDarkUnit
  dsimp only
  have hpau : LivesFollow s (abandonPau n s) := livesFollow_of_table (by simp)
  have hlink : LivesFollow (abandonPau n s) (match link with
      | .linked e => afterUnlink e (abandonPau n s)
      | _ => abandonPau n s) := by
    split
    · exact livesFollow_afterUnlink _ _
    · exact livesFollow_of_table rfl
  split
  · exact hpau.trans hlink
  · exact (hpau.trans hlink).trans (livesFollow_requestEnded _ _)

theorem stopDeveloped_alike (n : Nat) (s : State) : Alike s (stopDeveloped n s) := by
  unfold stopDeveloped
  split
  · exact setWork_alike _ s
  · exact fun _ => rfl

/-- What other blocks hold of a RETIRING record is taken from them. -/
theorem takeFromBlocks_keeps {g : Ghost} (hg : g.busy = false) {tag : Nat} {r : Record} {s : State}
    (hr : r ∈ residents s) (ho : r.life ≠ .opened) :
    Keeps (viewOf g s) (viewOf g (takeFromBlocks r (updateRecord r.number (Record.retire tag) s))) := by
  unfold takeFromBlocks
  dsimp only
  generalize hu : removeJobs r.number .abandoned (updateRecord r.number (Record.retire tag) s) = u
  refine (hu ▸ retireJobs_keeps hg hr ho).trans ?_
  refine (leaveDarkUnit_runs r.number r.darkLink u
    { g with loose := g.loose + planeOf r.rawPlane (.shotRaw r.number) } hg).trans ?_
  refine (releasePlane_keeps_loose g r.rawPlane (.shotRaw r.number) (leaveDarkUnit r.number r.darkLink u)).trans ?_
  have hslots : Runs (releasePlane r.rawPlane (leaveDarkUnit r.number r.darkLink u))
      (leaveSlots (· == r.number) (releasePlane r.rawPlane (leaveDarkUnit r.number r.darkLink u))) := Alike.runs (alike_of (by simp))
  have hrest := ((hslots.trans (stopDeveloped_alike r.number _).runs).trans (freeHandoffs_runs r.number _)).trans
    (leaveAmended_alike r.number _).runs
  exact hrest g hg

/-- A record that has been taken from the blocks is RETIRING, or gone from them. -/
theorem takeFromBlocks_mayRemove (tag : Nat) (r : Record) (s : State) :
    MayRemove (takeFromBlocks r (updateRecord r.number (Record.retire tag) s)) r.number := by
  let t := updateRecord r.number (Record.retire tag) s
  let u := removeJobs r.number .abandoned t
  let w := leaveSlots (· == r.number) (releasePlane r.rawPlane (leaveDarkUnit r.number r.darkLink u))
  have hdev : (takeFromBlocks r t).dev = u.dev := by
    unfold takeFromBlocks
    simp [u]
  have htable : LivesFollow (leaveDarkUnit r.number r.darkLink u) (takeFromBlocks r t) := by
    have h1 : LivesFollow (leaveDarkUnit r.number r.darkLink u) w := livesFollow_of_table (by simp [w])
    have h2 : LivesFollow w (freeHandoffs r.number (stopDeveloped r.number w)) := livesFollow_of_table (by simp)
    exact (h1.trans h2).trans fun q hq => ⟨q, hq, rfl, .inl rfl⟩
  have hfollow : LivesFollow t (takeFromBlocks r t) :=
    ((livesFollow_removeJobs r.number .abandoned t).trans (livesFollow_leaveDarkUnit _ _ u)).trans htable
  refine hfollow.mayRemove (fun q hq hn => ?_) fun j hj => ?_
  · obtain ⟨q', _, ⟨hne, e⟩ | ⟨_, e⟩⟩ := mem_residents_update hq
    · exact absurd (e ▸ hn) hne
    · rw [e]
      exact ⟨nofun, nofun⟩
  · rw [hdev] at hj
    exact removeJobs_queue r.number .abandoned t j hj

theorem acceptRetire_runs {tag : Nat} {r : Record} {s : State} (hr : r ∈ residents s) (ho : r.life ≠ .opened) :
    Runs s (acceptRetire tag r s) := by
  have htake : Runs s (takeFromBlocks r (updateRecord r.number (Record.retire tag) s)) := fun g hg =>
    takeFromBlocks_keeps hg hr ho
  unfold acceptRetire continueRetirement
  dsimp only
  split
  · exact htake.trans (endRetirement_runs (takeFromBlocks_mayRemove tag r s))
  · exact htake.trans (joinEntries_alike _ _).runs
  · exact htake

theorem retireRefusal_none {s : State} {r : Record} (h : retireRefusal s r = none) : r.life ≠ .opened := by
  intro hl
  unfold retireRefusal at h
  split at h
  · cases h
  · rw [if_pos (.inl hl)] at h
    cases h

theorem retireResident_runs {tag : Nat} {r : Record} {s : State} (hr : r ∈ residents s) :
    Runs s (retireResident tag r s) := by
  unfold retireResident
  dsimp only
  refine (touchRecord_alike r.number s).runs.trans ?_
  split
  · exact (answerCode_alike _ _ _).runs
  · next h =>
    refine acceptRetire_runs ?_ (retireRefusal_none h)
    obtain ⟨i, hi⟩ := mem_residents.1 hr
    refine mem_residents.2 ⟨i, ?_⟩
    unfold touchRecord
    split <;> exact hi

theorem onResident_runs {tag : Nat} {q : LoadRequest} {r : Record} {s : State} (hr : r ∈ residents s) :
    Runs s (onResident tag q r s) := by
  cases q with
  | lookup => exact (lookupResident_alike tag r s).runs
  | amend o => exact amendResident_runs tag r o s
  | retire => exact retireResident_runs hr

/-! ### Loads -/

theorem joinLoad_runs (n : Nat) (w : LoadWaiter) (s : State) : Runs s (joinLoad n w s) := by
  refine runs_mapSlots (f := RecordSlot.addWaiter n w) (fun _ => rfl) (fun r _ => ⟨r, rfl, .refl r⟩) rfl fun m ws => ?_
  simp only [RecordSlot.addWaiter]
  split
  · exact ⟨_, rfl⟩
  · exact ⟨_, rfl⟩

/-- No record slot carries the number. -/
def NowhereIn (s : State) (n : Nat) : Prop := ∀ x ∈ s.table.slots, x.number? ≠ some n

theorem nowhereIn_of {s : State} {n : Nat} (hr : findRecord s n = none) (hl : loadingFor s n = false) : NowhereIn s n := by
  intro x hx e
  cases x with
  | free => cases e
  | loading m ws =>
    cases e
    unfold loadingFor at hl
    rw [List.any_eq_false] at hl
    exact hl _ hx (by simp [RecordSlot.loads])
  | inUse r =>
    cases e
    have := List.find?_eq_none.1 hr r (List.mem_filterMap.2 ⟨_, hx, rfl⟩)
    simp at this

theorem evictSlot_nowhere {s : State} {i n : Nat} (hi : slotToClaim s = some i) (hn : NowhereIn s n) :
    NowhereIn (evictSlot i s) n := by
  rcases slotToClaim_some hi with h | ⟨r, h, _⟩
  · rw [evictSlot_free h]
    exact hn
  · intro x hx
    rw [evictSlot_table h] at hx
    rcases List.mem_or_eq_of_mem_set hx with hx | rfl
    · exact hn x hx
    · nofun

theorem startLoad_runs {i n slot : Nat} {w : LoadWaiter} {s : State} (hi : slotToClaim s = some i) (hn : NowhereIn s n)
    (hx : ∃ x ∈ s.card.index, x.shot = n) : Runs s (startLoad i n slot w s) := by
  have hnew := evictSlot_nowhere hi hn
  have hfree := evictSlot_slot hi
  have hindex : ∃ x ∈ (evictSlot i s).card.index, x.shot = n := by
    simpa using hx
  have hevict := evictSlot_runs hi
  unfold startLoad
  generalize evictSlot i s = t at hnew hfree hindex hevict
  have hfill : Runs t (setSlot i (.loading n [w]) t) := by
    intro g _
    refine keeps_fill (viewOf g t) (x := .free) (y := .loading n [w]) hfree rfl (fun hv m hm => ?_) fun r hr => nomatch hr
    obtain rfl : n = m := Option.some.inj hm
    refine .inr ⟨fun hmem => ?_, ?_⟩
    · obtain ⟨x, hxm, hxn⟩ := List.mem_filterMap.1 hmem
      exact hnew x hxm hxn
    · obtain ⟨x, hxi, rfl⟩ := hindex
      exact hv.index x hxi
  exact (hevict.trans hfill).trans (Alike.runs fun _ => rfl)

theorem requestLoad_runs {tag n : Nat} {q : LoadRequest} {s : State} (hr : findRecord s n = none) :
    Runs s (requestLoad tag n q s) := by
  unfold requestLoad
  split
  · exact (answerCode_alike _ _ s).runs
  · split
    · exact (answerCode_alike _ _ s).runs
    · next x hx =>
      split
      · exact joinLoad_runs n _ s
      · next hl =>
        split
        · exact (answerCode_alike _ _ s).runs
        · split
          · exact (answerCode_alike _ _ s).runs
          · next i hi =>
            refine startLoad_runs hi (nowhereIn_of hr (by simpa using hl)) ⟨x, List.mem_of_find?_eq_some hx, ?_⟩
            simpa using List.find?_some hx

theorem onShot_runs (tag n : Nat) (q : LoadRequest) (s : State) : Runs s (onShot tag n q s) := by
  unfold onShot
  split
  · next hr => exact onResident_runs (findRecord_mem hr).1
  · next hr => exact requestLoad_runs hr

theorem proceed_runs (n : Nat) (s : State) (w : LoadWaiter) : Runs s (proceed n s w) := by
  unfold proceed
  split
  · exact (answerCode_alike _ _ s).runs
  · next hr => exact onResident_runs (findRecord_mem hr).1

theorem readOutcome_not_waits (n : Nat) : ¬ Waits (readOutcome n) := by
  unfold readOutcome
  split <;> exact final_not_waits rfl

theorem completeLoad_runs {n : Nat} (slot : Nat) {block : List Byte} {s : State} (hb : entryShot block = n) :
    Runs s (completeLoad n slot block s) := by
  unfold completeLoad
  split
  · exact .refl s
  · next i hi =>
    obtain ⟨hlt, hl, _⟩ := List.findIdx?_eq_some_iff_getElem.1 hi
    have hslot : ∃ ws, s.table.slots[i]? = some (.loading n ws) := by
      rw [List.getElem?_eq_getElem hlt]
      cases hx : s.table.slots[i] with
      | loading m ws =>
        rw [hx] at hl
        exact ⟨ws, by rw [show m = n by simpa [RecordSlot.loads] using hl]⟩
      | _ => rw [hx] at hl; cases hl
    obtain ⟨ws, hslot⟩ := hslot
    have hfill : Runs s (setSlot i (.inUse (loadedRecord block slot)) s) := fun g _ =>
      keeps_fill (viewOf g s) hslot rfl (fun _ m hm => .inl (by rw [← hm, ← hb]; rfl)) fun r hr => by
        cases hr
        exact ⟨rfl, rfl, readOutcome_not_waits _⟩
    have htouch : Runs (setSlot i (.inUse (loadedRecord block slot)) s)
        (touchSlot i (setSlot i (.inUse (loadedRecord block slot)) s)) := Alike.runs fun _ => rfl
    exact (hfill.trans htouch).trans (Runs.foldl (fun s w => proceed_runs n s w) _ _)

theorem damageLoad_runs (n slot : Nat) (s : State) : Runs s (damageLoad n slot s) := by
  have hindex : Runs s { s with card := { s.card with
      damaged := s.card.damaged ++ [slot], index := s.card.index.filter fun x => x.shot != n } } := fun g _ =>
    keeps_index (viewOf g s) fun hv x hx => hv.index x (List.mem_of_mem_filter hx)
  exact hindex.trans (failLoad_runs _ _ _)

theorem loadDone_runs (n slot : Nat) (block : List Byte) (s : State) : Runs s (loadDone n slot block s) := by
  unfold loadDone
  split
  · exact .refl s
  · split
    · exact failLoad_runs _ _ _
    · split
      · next h =>
        simp only [Bool.and_eq_true, beq_iff_eq] at h
        exact completeLoad_runs slot h.2
      · exact damageLoad_runs n slot s

end Sys2Proof.ShotTable
end

section
namespace Sys2Proof.ShotTable
open Sys2Proof.Machine View

/-! ### The numbers on a card -/

theorem foldl_bytes_lt (bs : List Byte) (a : Nat) :
    bs.foldl (fun a b => a * 256 + b.toNat) a < (a + 1) * 256 ^ bs.length := by
  induction bs generalizing a with
  | nil => simp
  | cons b bs ih =>
    refine (ih (a * 256 + b.toNat)).trans_le ?_
    rw [List.length_cons, pow_succ', ← mul_assoc]
    exact Nat.mul_le_mul_right _ (by have := b.isLt; omega)

theorem fromBytes_lt (bs : List Byte) : fromBytes bs < 256 ^ bs.length := by
  have h := foldl_bytes_lt bs 0
  rwa [Nat.zero_add, one_mul] at h

theorem entryShot_lt (block : List Byte) : entryShot block < 4294967296 := by
  refine (fromBytes_lt _).trans_le ?_
  have hlen : (slice block 4 4).length ≤ 4 := by simp [slice]
  exact (Nat.pow_le_pow_right (by decide) hlen).trans (by decide)

theorem mem_insertIndex {x y : IndexEntry} {l : List IndexEntry} (h : x ∈ insertIndex y l) : x = y ∨ x ∈ l := by
  induction l with
  | nil => exact .inl (List.mem_singleton.1 h)
  | cons z l ih =>
    unfold insertIndex at h
    split at h
    · rcases List.mem_cons.1 h with h | h
      · exact .inl h
      · exact .inr h
    · rcases List.mem_cons.1 h with rfl | h
      · exact .inr List.mem_cons_self
      · exact (ih h).imp id (List.mem_cons_of_mem _)

/-- Every number that an examination finds fits four bytes. -/
theorem scan_index_lt (clusters : Nat) (blocks : List (Nat × List Byte)) :
    ∀ x ∈ (scanCatalogue clusters blocks).index, x.shot < 4294967296 := by
  unfold scanCatalogue
  generalize (blocks.insertionSort fun a b => a.1 ≤ b.1) = l
  have key : ∀ (l : List (Nat × List Byte)) (x : Scan), (∀ e ∈ x.index, e.shot < 4294967296) →
      ∀ e ∈ (l.foldl scanEntry x).index, e.shot < 4294967296 := by
    intro l
    induction l with
    | nil => exact fun _ h => h
    | cons b l ih =>
      intro x hx
      refine ih _ ?_
      unfold scanEntry
      split
      · exact hx
      · split
        · exact hx
        · intro e he
          rcases mem_insertIndex he with rfl | he
          · exact entryShot_lt b.2
          · exact hx e he
  exact key l _ nofun

theorem nextNumber_spec (l : List IndexEntry) (h : ∀ x ∈ l, x.shot < 4294967296) :
    nextNumber l ≤ 4294967296 ∧ ∀ x ∈ l, x.shot < nextNumber l := by
  unfold nextNumber
  have key : ∀ (l : List IndexEntry) (n : Nat), (∀ x ∈ l, x.shot < 4294967296) → n ≤ 4294967296 →
      n ≤ l.foldl (fun n x => max n (x.shot + 1)) n ∧ l.foldl (fun n x => max n (x.shot + 1)) n ≤ 4294967296 ∧
        ∀ x ∈ l, x.shot < l.foldl (fun n x => max n (x.shot + 1)) n := by
    intro l
    induction l with
    | nil => exact fun n _ hn => ⟨Nat.le_refl _, hn, nofun⟩
    | cons y l ih =>
      intro n hl hn
      have hy := hl y List.mem_cons_self
      obtain ⟨h1, h2, h3⟩ := ih (max n (y.shot + 1)) (fun x hx => hl x (List.mem_cons_of_mem _ hx)) (by omega)
      refine ⟨(Nat.le_max_left _ _).trans h1, h2, fun x hx => ?_⟩
      rcases List.mem_cons.1 hx with rfl | hx
      · exact Nat.lt_of_succ_le ((Nat.le_max_right _ _).trans h1)
      · exact h3 x hx
  obtain ⟨_, h2, h3⟩ := key l 1 h (by decide)
  exact ⟨h2, h3⟩

/-! ### Records renumbered at a mount -/

/-- A record of the number is resident. -/
def Resident (s : State) (n : Nat) : Prop := ∃ r ∈ residents s, r.number = n

theorem view_renumberTo (old : Nat) (s : State) :
    view { renumberTo old s.table.counter s with
      table := { (renumberTo old s.table.counter s).table with counter := s.table.counter + 1 } } =
    (view s).renumbered old := by
  have hslots : (updateRecords (Record.renumber old s.table.counter) s).table.slots =
      s.table.slots.map (renumberSlot old s.table.counter) :=
    List.map_congr_left fun x _ => by cases x <;> rfl
  unfold view viewOf restGhost renumbered
  dsimp only
  rw [← hslots]
  rfl

theorem renumberShot_goes {s : State} {old : Nat} (h : Resident s old) : Goes s (renumberShot s old) := by
  unfold renumberShot
  split
  · exact .refl s
  · next hc =>
    dsimp only
    have hrenumber := keeps_renumber (view s) (Nat.lt_of_not_le hc) h
    rw [← view_renumberTo] at hrenumber
    exact Goes.trans hrenumber ((raiseShot_alike _ _ _).runs.goes_of_seq (by simp))

theorem resident_renumberShot {s : State} {old n : Nat} (hne : n ≠ old) (h : Resident s n) :
    Resident (renumberShot s old) n := by
  unfold renumberShot
  split
  · exact h
  · obtain ⟨r, hr, rfl⟩ := h
    obtain ⟨i, hi⟩ := mem_residents.1 hr
    refine ⟨r, mem_residents.2 ⟨i, ?_⟩, rfl⟩
    change (updateRecords (Record.renumber old s.table.counter) s).table.slots[i]? = _
    have hsame : r.renumber old s.table.counter = r := if_neg hne
    simp only [updateRecords, List.getElem?_map, hi, Option.map_some, hsame]

theorem renumberShots_goes {l : List Nat} {s : State} (hl : l.Nodup) (h : ∀ n ∈ l, Resident s n) :
    Goes s (l.foldl renumberShot s) := by
  induction l generalizing s with
  | nil => exact .refl s
  | cons n l ih =>
    obtain ⟨hn, hl⟩ := List.nodup_cons.1 hl
    refine (renumberShot_goes (h n List.mem_cons_self)).trans (ih hl fun m hm => ?_)
    exact resident_renumberShot (fun e => hn (e ▸ hm)) (h m (List.mem_cons_of_mem _ hm))

/-- From a state `u` without the index of `s`: the counter brought above the index, and the records below it renumbered. -/
theorem renumberAll_goes {next : Nat} {u s : State} (hnext : next ≤ 4294967296)
    (hbelow : ∀ x ∈ s.card.index, x.shot < next) (hu : view s = { view u with index := s.card.index }) :
    Goes u (renumberAll next s) := by
  unfold renumberAll
  dsimp only
  let t : State := { s with table := { s.table with counter := max s.table.counter next } }
  have hcounter : Goes u t := by
    have hkeep := keeps_counter (view u) (index := s.card.index) (counter := max (view u).counter next) (Nat.le_max_left _ _)
      (fun hn => max_le hn.high hnext) fun _ x hx => (hbelow x hx).trans_le (Nat.le_max_right _ _)
    refine hkeep.trans (.of_eq ?_)
    change { view s with counter := max (view s).counter next } = _
    rw [hu]
  refine hcounter.trans (Keeps.of_numbers fun hn => ?_)
  refine renumberShots_goes (nodup_shotsWhere (numbersDistinct_of hn) _) fun n hm => ?_
  obtain ⟨r, hr, _, hrn⟩ := mem_shotsWhere.1 hm
  exact ⟨r, hr, hrn⟩

theorem answerFormat_alike (c : ResultCode) (s : State) : Alike s (answerFormat c s) :=
  Alike.trans (t := { s with card := { s.card with formatTag := none } }) (fun _ => rfl) (answerWaiting_alike _ _ _)

theorem finishMount_goes (blocks : List (Nat × List Byte)) (s : State) : Goes s (finishMount blocks s) := by
  unfold finishMount
  dsimp only
  generalize (s.card.volume.map (·.clusters)).getD 0 = clusters
  let x := scanCatalogue clusters blocks
  let t : State := { s with card := { s.card with indexHeld := true, index := x.index, damaged := x.damaged, map := x.map } }
  have hnext := nextNumber_spec x.index (scan_index_lt clusters blocks)
  have hall : Goes s (renumberAll (nextNumber x.index) t) :=
    renumberAll_goes (s := t) hnext.1 hnext.2 rfl
  generalize renumberAll (nextNumber x.index) t = u at hall
  refine hall.trans ?_
  have hclear : Goes u (clearFull u) := (clearFull_runs u).goes_of_seq (by simp)
  generalize clearFull u = w at hclear
  refine hclear.trans ?_
  have hrest : ∀ (c : ResultCode) (st : CardState), Alike w (answerFormat c (raise .cardMounted none (setCardState st w))) :=
    fun c st => ((setCardState_alike st w).trans (Alike.trans (alike_of (by simp)) (answerFormat_alike c _)))
  exact (hrest _ _).runs.goes_of_seq (by simp)

end Sys2Proof.ShotTable
end

section
namespace Sys2Proof.ShotTable
open Sys2Proof.Machine View

/-! ### Retirements that end -/

theorem residents_removeRecord {n : Nat} {s : State} {r : Record} (h : r ∈ residents (removeRecord n s)) : r ∈ residents s := by
  unfold removeRecord at h
  split at h
  · exact h
  · next i _ =>
    obtain ⟨j, hj⟩ := mem_residents.1 h
    rw [show (leaveAmended n (leaveUseOrder i (setSlot i .free s))).table.slots = s.table.slots.set i .free from rfl,
      List.getElem?_set] at hj
    split at hj
    · split at hj <;> cases hj
    · exact mem_residents.2 ⟨j, hj⟩

theorem residents_endRetirement {c : ResultCode} {n : Nat} {s : State} {r : Record}
    (h : r ∈ residents (endRetirement c s n)) : r ∈ residents s := by
  unfold endRetirement at h
  dsimp only at h
  rw [residents_congr (s := removeRecord n s) (by simp)] at h
  exact residents_removeRecord h

theorem MayRemove.mono {s t : State} {n : Nat} (h : MayRemove s n) (hr : ∀ r ∈ residents t, r ∈ residents s)
    (hd : t.dev = s.dev) : MayRemove t n := by
  intro r hm hn
  rw [hd]
  exact h r (hr r hm) hn

/-- Retirements that end one after another. -/
theorem endRetirementFold_runs {α : Type} {shot : α → Nat} {code : α → ResultCode} {l : List α} {s : State}
    (h : ∀ a ∈ l, MayRemove s (shot a)) : Runs s (l.foldl (fun s a => endRetirement (code a) s (shot a)) s) := by
  induction l generalizing s with
  | nil => exact .refl s
  | cons a l ih =>
    refine (endRetirement_runs (h a List.mem_cons_self)).trans (ih fun b hb => ?_)
    exact (h b (List.mem_cons_of_mem _ hb)).mono (fun _ => residents_endRetirement) (by simp)

theorem mayRemove_of_retiring {s : State} (hd : NumbersDistinct s) {r : Record} (hr : r ∈ residents s)
    (hl : r.life = .retiring) : MayRemove s r.number := by
  intro q hq hn
  rw [resident_unique hd hq hr hn, hl]
  exact ⟨nofun, nofun, nofun⟩

theorem retiringShots_mayRemove {s : State} (hd : NumbersDistinct s) : ∀ n ∈ retiringShots s, MayRemove s n := by
  intro n hn
  obtain ⟨r, hr, hl, rfl⟩ := mem_shotsWhere.1 hn
  exact mayRemove_of_retiring hd hr (by simpa using hl)

theorem endRetirements_runs (s : State) : Runs s (endRetirements s) := by
  unfold endRetirements
  refine .of_numbers fun hd => ?_
  refine endRetirementFold_runs (shot := fun e : Nat × ResultCode => e.1) (code := fun e => e.2) fun e he => ?_
  obtain ⟨n, hn, rfl⟩ := List.mem_map.1 he
  exact retiringShots_mayRemove hd n hn

/-! ### A format -/

theorem startFormat_alike (v : Nat) (s : State) : Alike s (startFormat v s) := by
  unfold startFormat
  dsimp only
  split
  · exact (setCardState_alike _ s).trans (answerFormat_alike _ _)
  · exact (setWork_alike _ s).trans (kick_alike _)

theorem failWaitingLoads_runs (c : ResultCode) (s : State) : Runs s (failWaitingLoads c s) := by
  unfold failWaitingLoads
  dsimp only
  exact (failLoads_runs c _ s).trans (Alike.runs fun _ => rfl)

/-- The pending entry writes discarded. -/
theorem dropEntries_alike (s : State) : Alike s { s with card := { s.card with entries := [] } } := fun _ => rfl

theorem clearForFormat_runs (s : State) : Runs s (clearForFormat s) := by
  unfold clearForFormat
  dsimp only
  have hreads := ((returnRecords_runs (fun r => r.heldOnWay && rawInFlight s != some r.number) s).trans
    (dropSettled_runs _)).trans (failWaitingLoads_runs .notFound _)
  exact hreads.trans ((dropEntries_alike _).runs.trans (emptyIndex_runs _))

/-- The volume id that a format waits with set. -/
theorem formatWait_alike (w : Option Nat) (s : State) : Alike s { s with card := { s.card with formatWait := w } } :=
  fun _ => rfl

theorem endForFormat_runs (v : Nat) (s : State) : Runs s (endForFormat v s) := by
  unfold endForFormat
  exact ((endRetirements_runs s).trans ((endWork_alike _).trans (formatWait_alike none _)).runs).trans
    ((clearForFormat_runs _).trans (startFormat_alike v _).runs)

theorem awaitBus_runs (v : Nat) (s : State) : Runs s (awaitBus v s) := by
  unfold awaitBus
  split
  · exact endForFormat_runs v s
  · exact (formatWait_alike (some v) s).runs.trans (clearForFormat_runs _)

theorem beginFormat_runs (tag : Nat) (s : State) : Runs s (beginFormat tag s) := by
  unfold beginFormat
  dsimp only
  have hmount : Runs s (setCardState .mounting { s with card := { s.card with formatTag := some tag } }) :=
    Alike.runs fun _ => rfl
  split
  · exact hmount.trans (awaitBus_runs _ _)
  · exact hmount.trans (startFormat_alike _ _).runs

/-! ### Work that stops -/

theorem isRetiring_mayRemove {s : State} (hd : NumbersDistinct s) {n : Nat} (h : isRetiring s n = true) : MayRemove s n := by
  unfold isRetiring at h
  cases hf : findRecord s n with
  | none =>
    rw [hf] at h
    cases h
  | some r =>
    rw [hf] at h
    obtain ⟨hr, rfl⟩ := findRecord_mem hf
    exact mayRemove_of_retiring hd hr (by simpa using h)

theorem endRetiredRaw_runs {n : Nat} {s : State} (h : isRetiring s n = true) : Runs s (endRetiredRaw n s) := by
  unfold endRetiredRaw
  dsimp only
  refine .of_numbers fun hd => ?_
  refine (endWork_alike s).runs.trans ((returnRuns_runs _ _).trans (endRetirement_runs ?_))
  exact (isRetiring_mayRemove hd h).mono (fun _ hr => hr) rfl

theorem endPending_runs (n : Nat) (s : State) : Runs s (updateRecord n (fun r => { r with devPending := none }) s) :=
  runs_updateRecord fun _ _ _ => ⟨rfl, rfl, rfl, id, .inl rfl⟩

theorem endStoppedDeveloped_runs (n : Nat) (runs : List Run) (s : State) : Runs s (endStoppedDeveloped n runs s) :=
  (endWork_alike s).runs.trans ((returnRuns_runs _ _).trans (endPending_runs _ _))

theorem stopAtAnswer_runs {s t : State} (h : stopAtAnswer s = some t) : Runs s t := by
  unfold stopAtAnswer at h
  split at h
  · cases h
    exact endForFormat_runs _ s
  · split at h
    · next hr =>
      cases h
      exact endRetiredRaw_runs hr
    · cases h
  · cases h
    exact endStoppedDeveloped_runs _ _ s
  · cases h

/-! ### A fault -/

theorem failRaws_runs (s : State) : Runs s (failRaws s) := by
  unfold failRaws
  dsimp only
  have hreturn : Runs s (if (((residents s).filter Record.onWay).flatMap (·.rawRuns)).isEmpty = true then s
      else returnRuns (((residents s).filter Record.onWay).flatMap (·.rawRuns)) s) := by
    split
    · exact .refl s
    · exact returnRuns_runs _ s
  refine hreturn.trans (Runs.trans (runs_updateRecords fun r _ => ?_) (Alike.runs fun _ => rfl))
  split
  · exact ⟨rfl, rfl, rfl, id, .inr (.inl rfl)⟩
  · exact .refl r

theorem failDeveloped_runs (s : State) : Runs s (failDeveloped s) := by
  unfold failDeveloped
  split
  · next h runs done entryPhase stopped _ =>
    dsimp only
    have hreturn : Runs s (if entryPhase = true then s else returnRuns runs s) := by
      split
      · exact .refl s
      · exact returnRuns_runs _ s
    have hwait : ∀ u : State, Always u (updateHandoff h (fun x => { x with writing := false }) u) := fun u =>
      updateHandoff_always h u fun _ => ⟨rfl, rfl, rfl⟩
    exact (hreturn.trans (endPending_runs _ _)).trans (hwait _).runs
  · exact .refl s

theorem untake_alike (s : State) : Alike s (untake s) := fun _ => rfl

theorem answerCardTags_alike (c : ResultCode) (s : State) : Alike s (answerCardTags c s) := by
  unfold answerCardTags
  dsimp only
  exact ((answerWaiting_alike _ _ s).trans (answerWaiting_alike _ _ _)).trans fun _ => rfl

theorem cardFault_runs (s : State) : Runs s (cardFault s) := by
  unfold cardFault
  dsimp only
  have hraise : Runs s (raise .cardFault ((s.card.work.bind CardWork.shot?).map Subject.shot) s) := Alike.runs (alike_of (by simp))
  have hwork := (((hraise.trans (failRaws_runs _)).trans (failDeveloped_runs _)).trans (untake_alike _).runs).trans
    (endWork_alike _).runs
  refine (hwork.trans (endReads_runs .cardError _)).trans ?_
  generalize endReads .cardError (endWork (untake (failDeveloped (failRaws
    (raise .cardFault ((s.card.work.bind CardWork.shot?).map Subject.shot) s))))) = t
  have hfaulted : Runs t { t with card := { t.card with entries := [], state := .faulted } } := Alike.runs fun _ => rfl
  refine hfaulted.trans (Runs.trans (.of_numbers fun hd => ?_) (answerCardTags_alike _ _).runs)
  exact endRetirementFold_runs (shot := id) (code := fun _ => .cardError) fun n hn => retiringShots_mayRemove hd n hn

theorem reissue_alike (b : Bus) (s : State) : Alike s (reissue b s) := fun _ => rfl

/-! ### Answers of the card -/

theorem orphanAnswered_goes (s : State) : Goes s (orphanAnswered s) := by
  unfold orphanAnswered
  dsimp only
  have hclear : Goes s (clearBus s) := (clearBus_alike s).runs.goes_of_seq (by simp)
  split
  · exact hclear.trans (enterRunning_goes _)
  · split
    · exact (hclear.trans ((endForFormat_runs _ _).goes_of_seq (by simp))).trans (service_goes _)
    · exact hclear.trans (service_goes _)

theorem stopAtAnswer_goes {s t : State} (h : stopAtAnswer s = some t) : Goes s (service t) :=
  ((stopAtAnswer_runs h).goes_of_seq (by simp [stopAtAnswer_keeps h])).trans (service_goes t)

theorem answeredError_goes (s : State) : Goes s (answeredError s) := by
  unfold answeredError
  split
  · exact .refl s
  · split
    · exact orphanAnswered_goes s
    · split
      · next h => exact stopAtAnswer_goes h
      · split
        · exact ((cardFault_runs s).goes_of_seq (by simp)).trans (service_goes _)
        · exact (reissue_alike _ s).runs.goes_of_seq (by simp)

theorem answeredOk_goes {goOn : State → State} {s : State} (h : Goes s (goOn s)) : Goes s (answeredOk goOn s) := by
  unfold answeredOk
  split
  · exact .refl s
  · split
    · exact orphanAnswered_goes s
    · split
      · next h' => exact stopAtAnswer_goes h'
      · exact h

/-! ### A removal -/

theorem endCardWork_runs (s : State) : Runs s (endCardWork s) := by
  unfold endCardWork
  dsimp only
  have hend := ((endReads_runs .noCard s).trans (answerCardTags_alike .noCard _).runs).trans (endRetirements_runs _)
  exact hend.trans ((dropEntries_alike _).trans (setWork_alike none _)).runs

theorem emptyStore_runs (s : State) : Runs s (emptyStore s) := by
  unfold emptyStore
  exact (Runs.trans (Alike.runs fun _ => rfl) (emptyIndex_runs _)).trans (clearFull_runs _)

theorem raiseAmendLost_alike (l : List Nat) (s : State) : Alike s (raiseAmendLost l s) := by
  unfold raiseAmendLost
  split <;> exact fun _ => rfl

theorem removeCard_runs (s : State) : Runs s (removeCard s) := by
  unfold removeCard
  dsimp only
  refine (((endCardWork_runs s).trans (clearBus_alike _).runs).trans (returnHeld_runs _)).trans ?_
  generalize returnHeld (clearBus (endCardWork s)) = t
  have hgone := ((dropSettled_runs t).trans (raiseAmendLost_alike (dirtySettled t) _).runs).trans (emptyStore_runs _)
  exact hgone.trans (Alike.runs (alike_of (s := emptyStore (raiseAmendLost (dirtySettled t) (dropSettled t))) (by simp)))

theorem beginMount_alike (s : State) : Alike s (beginMount s) :=
  ((setCardState_alike _ s).trans (setWork_alike _ _)).trans (kick_alike _)

end Sys2Proof.ShotTable
end

section
namespace Sys2Proof.ShotTable
open Sys2Proof.Machine View

/-! ### Reads and writes that complete -/

theorem leaveReads_alike (s : State) : Alike s (leaveReads s) := fun _ => rfl

/-- The engine goes on to work, whatever it was at. -/
theorem setEngine_runs {x : EngineState} (hx : x ≠ .idle) (s : State) : Runs s (setEngine x s) := by
  intro g _
  refine (keeps_busy (viewOf g s)).trans (.of_eq ?_)
  have hfalse : (x == EngineState.idle) = false := by simpa using hx
  unfold viewOf setEngine
  simp only [hfalse, Bool.and_false]

theorem fetchDone_runs (s : State) : Runs s (fetchDone s) := by
  refine setEngine_runs (x := if s.dev.readout then .suspended (.developing .demosaic) else .active (.developing .demosaic))
    ?_ s
  split <;> nofun

/-- The card state of the raw that a record on its way has changes. -/
theorem setRawCard_runs {n : Nat} {f : Record → Record} {r : Record} {s : State} (hr : findRecord s n = some r)
    (hraw : r.rawCard ≠ .unwritten)
    (hf : ∀ r, (f r).number = r.number ∧ (f r).life = r.life ∧ (f r).rawPlane = r.rawPlane ∧ (f r).darkLink = r.darkLink) :
    Runs s (updateRecord n f s) :=
  .of_numbers fun hd => runs_updateRecord fun q hq hn => by
    obtain ⟨h1, h2, h3, h4⟩ := hf q
    rw [findRecord_unique hd hr hq hn] at *
    exact ⟨h1, h2, h3, by rw [h4]; exact id, .inr (.inr (.inr hraw))⟩

theorem endRawData_runs (n : Nat) (s : State) : Runs s (endRawData n s) := by
  unfold endRawData
  split
  · next r slot hr _ =>
    split
    · next hraw =>
      have hcat : Runs s (updateRecord n (fun r => { r with rawCard := .cataloguing, catSlot := some slot }) s) :=
        setRawCard_runs hr (by rw [hraw]; nofun) fun _ => ⟨rfl, rfl, rfl, rfl⟩
      exact hcat.trans (joinEntries_alike _ _).runs
    · exact .refl s
  · exact .refl s

theorem resolveTaken_runs (n : Nat) (s : State) : Runs s (resolveTaken n s) := by
  unfold resolveTaken
  split
  · have hclean : Runs s (updateRecord n (fun r => { r with dirty := false }) s) :=
      runs_updateRecord fun _ _ _ => ⟨rfl, rfl, rfl, id, .inl rfl⟩
    exact hclean.trans (leaveAmended_alike _ _).runs
  · exact .refl s

theorem copyProtect_runs (n : Nat) (s : State) : Runs s (copyProtect n s) := by
  unfold copyProtect
  split
  · exact .refl s
  · intro g _
    refine keeps_index (viewOf g s) fun hv x hx => ?_
    obtain ⟨y, hy, rfl⟩ := List.mem_map.1 hx
    split
    · exact hv.index y hy
    · exact hv.index y hy

/-- An entry of a resident record joins the index. -/
theorem joinIndex_runs {r : Record} (slot : Nat) {s : State} (h : Resident s r.number) :
    Runs s { s with card := { s.card with index := insertIndex (recordIndex r slot) s.card.index } } := by
  intro g _
  refine keeps_index (viewOf g s) fun hv x hx => ?_
  rcases mem_insertIndex hx with rfl | hx
  · obtain ⟨q, hq, hn⟩ := h
    have hmem : q.number ∈ (viewOf g s).numbers := number_mem hq
    have hbelow := hv.below _ hmem
    rw [hn] at hbelow
    exact hbelow
  · exact hv.index x hx

theorem resident_updateRecord {n m : Nat} {f : Record → Record} {s : State}
    (hf : ∀ r, (f r).number = r.number ∧ (f r).life = r.life) (h : Resident s m) : Resident (updateRecord n f s) m := by
  obtain ⟨r, hr, hn⟩ := h
  obtain ⟨r', hr', hn', _⟩ := livesStay_updateRecord (n := n) hf r hr
  exact ⟨r', hr', hn'.trans hn⟩

theorem entryWritten_runs (n slot : Nat) (s : State) : Runs s (entryWritten n slot s) := by
  unfold entryWritten
  split
  · exact .refl s
  · next r hr =>
    split
    · next hraw =>
      dsimp only
      obtain ⟨hm, rfl⟩ := findRecord_mem hr
      have hcard : Runs s (updateRecord r.number (fun r => { r with rawCard := .onCard }) s) :=
        setRawCard_runs hr (by rw [hraw]; nofun) fun _ => ⟨rfl, rfl, rfl, rfl⟩
      have hres : Resident (updateRecord r.number (fun r => { r with rawCard := .onCard }) s) r.number :=
        resident_updateRecord (fun _ => ⟨rfl, rfl⟩) ⟨r, hm, rfl⟩
      have hindex := hcard.trans (joinIndex_runs slot hres)
      split
      · exact hindex.trans (joinEntries_alike _ _).runs
      · exact hindex.trans ((resolveTaken_runs _ _).trans (settle_runs _ _))
    · exact .refl s

theorem developedWritten_runs (h : Handoff) (runs : List Run) (s : State) : Runs s (developedWritten h runs s) := by
  unfold developedWritten
  dsimp only
  have hfile : Runs s (updateRecord h.shot (fun r => { r with devFile := some (h.file runs), devPending := none }) s) :=
    runs_updateRecord fun _ _ _ => ⟨rfl, rfl, rfl, id, .inl rfl⟩
  refine hfile.trans ?_
  generalize updateRecord h.shot (fun r => { r with devFile := some (h.file runs), devPending := none }) s = t
  have hreturn : ∀ o : Option (List Run), Runs t ((o.map returnRuns).getD id t) := by
    intro o
    cases o with
    | none => exact .refl t
    | some rs => exact returnRuns_runs rs t
  have hrest := ((hreturn (((findRecord s h.shot).bind (·.devFile)).map (·.runs))).trans (copyProtect_runs h.shot _)).trans
    (resolveTaken_runs h.shot _)
  split
  · exact hrest
  · exact hrest.trans (finishHandoff_runs h _)

theorem emptied_runs (n : Nat) (s : State) : Runs s (emptied n s) := by
  unfold emptied
  split
  · exact .refl s
  · next r hr =>
    split
    · next hl =>
      dsimp only
      refine .of_numbers fun hd => ?_
      obtain ⟨hm, rfl⟩ := findRecord_mem hr
      refine (returnRuns_runs (r.rawRuns ++ (r.devFile.map (·.runs)).getD []) s).trans ?_
      have hmay := (mayRemove_of_retiring hd hm hl).mono
        (t := returnRuns (r.rawRuns ++ (r.devFile.map (·.runs)).getD []) s) (fun _ h => h) rfl
      generalize returnRuns (r.rawRuns ++ (r.devFile.map (·.runs)).getD []) s = t at hmay
      have hindex : Runs t { t with card := { t.card with index := t.card.index.filter fun x => x.shot != r.number } } :=
        fun g _ => keeps_index (viewOf g t) fun hv x hx => hv.index x (List.mem_of_mem_filter hx)
      exact hindex.trans (endRetirement_runs (hmay.mono (fun _ h => h) rfl))
    · exact .refl s

/-! ### Dark requests that complete -/

theorem darkApplied_runs (q : PauRequest) (e : Nat) (s : State) : Runs s (darkApplied q e s) := by
  unfold darkApplied
  dsimp only
  let t : State := { s with mem := applyDarkValues s.mem q.source q.destination q.scale q.resume (sensorArea s) }
  have hmem : Alike s t := fun _ => rfl
  have hlink : Runs t (updateRecord q.shot (Record.applied e) t) := by
    refine runs_updateRecord fun r _ _ => ?_
    unfold Record.applied
    split
    · exact ⟨rfl, rfl, rfl, fun h => absurd h (final_not_waits rfl), .inl rfl⟩
    · exact .refl r
  have hleave : Runs (updateRecord q.shot (Record.applied e) t) (leavePau (·.running) (updateRecord q.shot (Record.applied e) t)) :=
    Alike.runs (alike_of (by simp))
  refine ((hmem.runs.trans hlink).trans hleave).trans ?_
  split
  · exact afterUnlink_runs _ _
  · exact requestEnded_runs _ _

theorem accumulated_alike (q : PauRequest) (s : State) : Alike s (accumulated q s) := alike_of (by simp)

theorem setGeometry_runs (columns rows : Nat) (s : State) : Runs s (setGeometry columns rows s) := by
  unfold setGeometry freeReady
  have hset : Alike s { s with seq := { s.seq with columns := columns, rows := rows } } := fun _ => rfl
  exact (hset.runs.trans (Runs.foldl (fun s e => freeEntry_runs e s) _ _)).trans (matchingPass_runs _)

/-! ### A job that completes -/

/-- The end of a job but for the settling of its shot (R122 to R125). -/
def jobEnded (j : Job) (h : RunHolds) (s : State) : State :=
  match j.kind with
  | .preview => completePreview j h (releasePlane h.output (endHolds s))
  | .full => endFull j h (endHolds s)

theorem completeJob_eq (j : Job) (h : RunHolds) (s : State) : completeJob j h s = settle j.shot (jobEnded j h s) := rfl

theorem answers_alike {α : Type} {f : State → α → State} (hf : ∀ s a, Alike s (f s a)) (l : List α) (s : State) :
    Alike s (l.foldl f s) := by
  induction l generalizing s with
  | nil => exact fun _ => rfl
  | cons a l ih => exact (hf s a).trans (ih _)

theorem answerPreview_alike (i : Nat) (k : DevKey) (c : ResultCode) (s : State) (tag : Nat) :
    Alike s (answerPreview i k c s tag) := alike_of (by simp)

theorem completePreview_always (j : Job) (h : RunHolds) (s : State) : Always s (completePreview j h s) := by
  unfold completePreview
  split
  · exact dropJobs_always _ s
  · next i _ =>
    dsimp only
    intro g
    have hvalid : Alike s (validSlot i j (previewSize s.seq.columns s.seq.rows h.recipe)
        (writeRendition (slotBase i) Config.slotBytes (previewSize s.seq.columns s.seq.rows h.recipe) s)) := alike_of (by simp)
    exact ((hvalid.trans (answers_alike (fun s tag => answerPreview_alike i j.key _ s tag) j.waiters _)).always g).trans
      (dropJobs_always _ _ g)

/-- The output plane passes to a hand-off. -/
theorem handOff_keeps (g : Ghost) (j : Job) (p : Nat) (size : Nat × Nat) (s : State) :
    Keeps (viewOf { g with loose := g.loose + planeOf (some p) .devOutput } s) (viewOf g (handOff j p size s)) := by
  have hpass := keeps_passOn (viewOf { g with loose := g.loose + planeOf (some p) .devOutput } s) (p := p) (o := .devOutput)
    (o' := .handoff j.shot j.key) (loose := g.loose) (Multiset.add_comm _ _) nofun
  refine hpass.trans ?_
  let new : Handoff :=
    { shot := j.shot, key := j.key, plane := p, width := size.1, height := size.2, writing := false, marked := false
      seed := s.free }
  refine (keeps_rename _ (scratch := s.seq.scratch) (entries := s.dark.entries) (plan := s.dark.plan) (holds := s.dev.holds)
    (handoffs := s.card.handoffs ++ [new]) (loose := g.loose) (fun _ => ?_) (fun hp => hp.rest)
    (fun hp => hp.plan) fun hp x hx => hp.loose x (Multiset.mem_cons_of_mem hx)).trans (.of_eq rfl)
  have happ : handoffsOf (s.card.handoffs ++ [new]) = handoffsOf s.card.handoffs + {(p, .handoff j.shot j.key)} := by
    unfold handoffsOf
    rw [List.map_append, ← Multiset.coe_add]
    rfl
  unfold named viewOf
  dsimp only
  rw [happ, ← Multiset.singleton_add]
  abel

theorem completeFull_keeps (g : Ghost) (j : Job) (p : Nat) (size : Nat × Nat) (s : State) :
    Keeps (viewOf { g with loose := g.loose + planeOf (some p) .devOutput } s) (viewOf g (completeFull j p size s)) := by
  unfold completeFull
  dsimp only
  refine (supersedeHandoffs_always j.shot s _).trans ((handOff_keeps g j p size _).trans ?_)
  exact ((answers_alike (fun s tag => answer_alike tag .ok _ s) j.waiters _).always g).trans (dropJobs_always _ _ g)

theorem requeueStale_keeps (g : Ghost) (j : Job) (p : Nat) (s : State) :
    Keeps (viewOf { g with loose := g.loose + planeOf (some p) .devOutput } s) (viewOf g (requeueStale j p s)) := by
  have hmap := keeps_mapJobs (viewOf { g with loose := g.loose + planeOf (some p) .devOutput } s)
    (f := fun x => if x.isFor j.shot .full then { x with running := false, key := shotKey s j.shot } else x)
    (fun x _ => by split <;> rfl) (fun x _ => by split <;> rfl)
    (fun x _ => by split; exacts [nofun, id])
  exact hmap.trans (releasePlane_keeps_loose g (some p) .devOutput { s with dev := { s.dev with
    queue := s.dev.queue.map fun x =>
      if x.isFor j.shot .full then { x with running := false, key := shotKey s j.shot } else x } })

theorem draw_alike (s : State) : Alike s s.draw := fun _ => rfl

theorem endFull_keeps (g : Ghost) (j : Job) (h : RunHolds) (s : State) :
    Keeps (viewOf { g with loose := g.loose + planeOf h.output .devOutput } s) (viewOf g (endFull j h s)) := by
  unfold endFull
  split
  · next hp =>
    rw [hp, show planeOf none Owner.devOutput = 0 from rfl, add_zero]
    exact dropJobs_always _ s g
  · next p hp =>
    rw [hp]
    dsimp only
    have hwrite : ∀ size : Nat × Nat, Alike s (writeRendition (planeBase p) Config.planeBytes size s) := fun _ => alike_of (by simp)
    split
    · exact ((hwrite _).always _).trans (completeFull_keeps g j p _ _)
    · exact (((hwrite _).trans (draw_alike _)).always _).trans (requeueStale_keeps g j p _)

theorem jobEnded_keeps {g : Ghost} {j : Job} {h : RunHolds} {s : State} (hh : s.dev.holds = some h) :
    Keeps (viewOf g s) (viewOf { g with busy := true } (jobEnded j h s)) := by
  have hend := endHolds_keeps_loose g s
  rw [hh] at hend
  refine hend.trans ?_
  unfold jobEnded
  split
  · exact (releasePlane_keeps_loose { g with busy := true } h.output .devOutput (endHolds s)).trans
      (completePreview_always j h _ _)
  · exact endFull_keeps { g with busy := true } j h (endHolds s)

theorem endHolds_dev (s : State) : (endHolds s).dev = { s.dev with engine := .idle, holds := none } := by
  unfold endHolds
  simp

/-- What the end of a job leaves in the queue, and that the engine holds nothing. -/
theorem jobEnded_dev (j : Job) (h : RunHolds) (s : State) : (jobEnded j h s).dev.holds = none ∧
    ∀ x ∈ (jobEnded j h s).dev.queue, x.running = true → x ∈ s.dev.queue ∧ x.isFor j.shot j.kind = false := by
  have hdrop : ∀ (k : JobKind) (t : State), t.dev = (endHolds s).dev → (dropJobs (Job.isFor j.shot k) t).dev.holds = none ∧
      ∀ x ∈ (dropJobs (Job.isFor j.shot k) t).dev.queue, x.running = true → x ∈ s.dev.queue ∧ x.isFor j.shot k = false := by
    intro k t ht
    unfold dropJobs
    dsimp only
    rw [ht, endHolds_dev]
    refine ⟨rfl, fun x hx _ => ?_⟩
    obtain ⟨h1, h2⟩ := List.mem_filter.1 hx
    exact ⟨h1, by simpa using h2⟩
  unfold jobEnded
  split
  · next hk =>
    rw [hk]
    unfold completePreview
    split
    · exact hdrop .preview _ (by simp)
    · exact hdrop .preview _ (by simp)
  · next hk =>
    rw [hk]
    unfold endFull
    split
    · exact hdrop .full _ rfl
    · dsimp only
      split
      · exact hdrop .full _ (by simp)
      · refine ⟨?_, fun x hx hrun => ?_⟩
        · unfold requeueStale
          simp [setOwner, endHolds_dev]
        · unfold requeueStale setOwner at hx
          simp only [List.mem_map] at hx
          obtain ⟨y, hy, rfl⟩ := hx
          split at hrun
          · cases hrun
          · next hfor =>
            rw [if_neg hfor]
            refine ⟨?_, by simpa using hfor⟩
            simpa [State.draw, endHolds_dev] using hy

theorem completeJob_runs {j : Job} {h : RunHolds} {s : State} (hj : runningJob s = some j) (hh : s.dev.holds = some h) :
    Runs s (completeJob j h s) := by
  rw [completeJob_eq]
  refine Runs.trans (fun g _ => ?_) (settle_runs _ _)
  obtain ⟨hnone, hqueue⟩ := jobEnded_dev j h s
  refine keeps_unbusy (jobEnded_keeps hh) hnone fun _ hjobs x hx => ?_
  cases hrun : x.running with
  | false => rfl
  | true =>
    obtain ⟨hm, hfor⟩ := hqueue x hx hrun
    have e := running_unique hjobs.running hm (List.mem_of_find?_eq_some hj) hrun (by simpa using List.find?_some hj)
    rw [e] at hfor
    simp [Job.isFor] at hfor

end Sys2Proof.ShotTable
end

section
/-! Shot table: what a RESTART does to the laws (R181). -/

namespace Sys2Proof.ShotTable
open Sys2Proof.Machine View

/-! ### The blocks -/

theorem stopPau_alike (s : State) : Alike s (stopPau s) := alike_of (by simp)

/-- The plan queue is emptied. -/
theorem dropPlan_runs (s : State) : Runs s { s with dark := { s.dark with plan := [] } } := fun g _ =>
  keeps_rename (viewOf g s) (scratch := s.seq.scratch) (entries := s.dark.entries) (plan := []) (holds := s.dev.holds)
    (handoffs := s.card.handoffs) (loose := g.loose) (fun _ => rfl) (fun hp => hp.rest) (fun _ _ he => nomatch he)
    fun hp => hp.loose

theorem restartDark_runs (s : State) : Runs s (restartDark s) := by
  unfold restartDark
  exact ((Runs.foldl (fun s e => failEntry_runs e s) _ s).trans (dropPlan_runs _)).trans (setDarkClaim_alike _ _).runs

/-- The engine lets go of its run and of every job. -/
def emptyEngine (s : State) : State :=
  { dropHolds s with dev := { (dropHolds s).dev with queue := [], readout := false } }

theorem emptyEngine_runs (s : State) : Runs s (emptyEngine s) := by
  intro g _
  refine keeps_unbusy ?_ (dropHolds_holds s) fun _ _ j hj => nomatch hj
  have hdrop := keeps_dropJobs (viewOf { g with busy := true } (dropHolds s)) fun _ => false
  rw [List.filter_false] at hdrop
  exact (dropHolds_keeps_busy g s).trans hdrop

theorem restartDev_eq (s : State) : restartDev s =
    setEngineClaim false ((((runningJob s).map (·.shot)).map settle).getD id (emptyEngine s)) := rfl

theorem restartDev_runs (s : State) : Runs s (restartDev s) := by
  rw [restartDev_eq]
  refine ((emptyEngine_runs s).trans ?_).trans (setEngineClaim_alike _ _).runs
  cases (runningJob s).map (·.shot) with
  | none => exact .refl _
  | some n => exact settle_runs n _

theorem restartBlocks_goes (s : State) : Goes s (restartBlocks s) := by
  unfold restartBlocks
  have hstop : Goes s (stopPau s) := (stopPau_alike s).runs.goes_of_seq (by simp)
  have hdark : Goes (restartSequencer (stopPau s)) (restartDark (restartSequencer (stopPau s))) :=
    (restartDark_runs _).goes_of_seq (by simp)
  have hdev : Goes (restartDark (restartSequencer (stopPau s))) (restartDev (restartDark (restartSequencer (stopPau s)))) :=
    (restartDev_runs _).goes_of_seq (by simp)
  exact (hstop.trans (restartSequencer_goes _)).trans (hdark.trans hdev)

/-! ### The Card Store -/

theorem discardLoads_runs (s : State) : Runs s (discardLoads s) := fun g _ => by
  refine keeps_map (viewOf g s) (fun x _ => ?_) fun x _ => by cases x <;> rfl
  cases x with
  | free => exact .free
  | loading n ws => exact .unload n ws
  | inUse r => exact .refl _ _

theorem freeHandoffs_rest (n : Nat) (s : State) : (freeHandoffs n s).table = s.table ∧ (freeHandoffs n s).dev = s.dev := by
  simp

theorem discardRecord_runs {s : State} {n : Nat} (h : MayRemove s n) : Runs s (discardRecord s n) := by
  obtain ⟨htable, hdev⟩ := freeHandoffs_rest n s
  refine (freeHandoffs_runs n s).trans (removeRecord_runs fun r hr => ?_)
  unfold residents at hr
  rw [htable] at hr
  rw [hdev]
  exact h r hr

theorem discardRecords_runs {l : List Nat} {s : State} (h : ∀ n ∈ l, MayRemove s n) : Runs s (l.foldl discardRecord s) := by
  induction l generalizing s with
  | nil => exact .refl s
  | cons n l ih =>
    have hres : ∀ r ∈ residents (discardRecord s n), r ∈ residents s := fun r hr => by
      have hr' := residents_removeRecord hr
      unfold residents at hr'
      rwa [(freeHandoffs_rest n s).1] at hr'
    exact (discardRecord_runs (h n List.mem_cons_self)).trans
      (ih fun m hm => (h m (List.mem_cons_of_mem _ hm)).mono hres (by unfold discardRecord; simp))

theorem orphanBus_alike (s : State) : Alike s (orphanBus s) := fun _ => rfl

theorem cardEmptied_alike (s : State) : Alike s { s with card := { s.card with
    reads := [], entries := [], work := none, ejectTag := none, formatTag := none, formatWait := none } } := fun _ => rfl

theorem restartCardWork_runs (s : State) : Runs s (restartCardWork s) := by
  unfold restartCardWork
  dsimp only
  refine Runs.trans (.of_numbers fun hd => ?_) ((cardEmptied_alike _).trans (orphanBus_alike _)).runs
  refine (discardLoads_runs s).trans (discardRecords_runs fun n hn => ?_)
  exact (retiringShots_mayRemove hd n hn).mono (fun r hr => residents_discardLoads s ▸ hr) rfl

theorem waitHandoffs_always (s : State) : Always s (waitHandoffs s) :=
  always_mapHandoffs (f := fun h => { h with writing := false }) (fun _ => rfl) fun _ => ⟨rfl, rfl, rfl⟩

theorem restartCard_runs (s : State) : Runs s (restartCard s) := by
  unfold restartCard
  dsimp only
  exact (((((((restartCardWork_runs s).trans (returnHeld_runs _)).trans (dropSettled_runs _)).trans
    (raiseAmendLost_alike _ _).runs).trans (emptyIndex_runs _)).trans (waitHandoffs_always _).runs).trans (clearFull_runs _))

theorem restartStores_runs (s : State) : Runs s (restartStores s) := by
  unfold restartStores
  dsimp only
  have hcache : Alike s { s with cache := .reset } := fun _ => rfl
  have hsync : ∀ t : State, Alike t (restartQualifiers { t with sync := { t.sync with pulseEnd := none } }) := fun _ _ => rfl
  exact (hcache.runs.trans (restartCard_runs _)).trans (hsync _).runs

/-! ### The rest of it -/

theorem clearNotices_alike (s : State) : Alike s (clearNotices s) := fun _ => rfl

theorem replacePau_alike (q : Option (PauRequest × Nat)) (s : State) : Alike s (replacePau q s) := alike_of (by simp)

theorem restartLink_alike (tag : Nat) (causes : Causes) (s : State) : Alike s (restartLink tag causes s) := fun _ => rfl

theorem restartMount_alike (s : State) : Alike s (restartMount s) := by
  unfold restartMount
  split
  · exact beginMount_alike s
  · exact setCardState_alike _ s

theorem restartEnds_goes (s : State) : Goes s (restartEnds s) := by
  have hmount : Goes s (restartMount s) := (restartMount_alike s).runs.goes_of_seq (by simp)
  unfold restartEnds
  split
  · exact hmount.trans (enterRunning_goes _)
  · exact hmount

theorem restarting_alike (c : Causes) (s : State) : Alike s { s with part := .restarting, causes := c } := fun _ => rfl

theorem restartPart_goes (tag : Nat) (s : State) : Goes s (restartPart tag s) := by
  unfold restartPart
  dsimp only
  refine (restartBlocks_goes s).trans ?_
  generalize restartBlocks s = t
  have hstores : Goes t (restartStores (clearNotices t)) :=
    ((clearNotices_alike t).runs.trans (restartStores_runs _)).goes_of_seq (by simp)
  refine hstores.trans ?_
  generalize restartStores (clearNotices t) = u
  refine Goes.trans ?_ (restartEnds_goes _)
  refine Runs.goes_of_seq ?_ (by simp)
  exact ((replacePau_alike _ u).runs.trans (restartLink_alike tag _ _).runs).trans (restarting_alike _ _).runs

end Sys2Proof.ShotTable
end

section
/-! Shot table: what the requests do to the laws (Table 11-3). -/

namespace Sys2Proof.ShotTable
open Sys2Proof.Machine View

theorem Alike.goes {s t : State} (h : Alike s t) (hs : t.seq = s.seq) : Goes s t := h.runs.goes_of_seq hs

/-- What the laws speak of and the sequencer are left as they were. -/
theorem goes_of_same {s t : State} (h : t.table = s.table ∧ t.card = s.card ∧ t.pool = s.pool ∧ t.seq = s.seq ∧
    t.dark = s.dark ∧ t.dev = s.dev) : Goes s t := by
  obtain ⟨htable, hcard, hpool, hseq, hdark, hdev⟩ := h
  refine Alike.goes (fun g => ?_) hseq
  unfold viewOf
  rw [htable, hcard, hpool, hseq, hdark, hdev]

/-- The laws hold on in the state that an outcome gives. -/
def NextGoes (s : State) (o : Host.Outcome State Fault Refusal) : Prop := ∀ t, o = .next t → Goes s t

theorem nextGoes_next {s t : State} (h : Goes s t) : NextGoes s (.next t) := by
  rintro u ⟨⟩
  exact h

theorem link_goes (l : Link) (s : State) : Goes s { s with link := l } := goes_of_same ⟨rfl, rfl, rfl, rfl, rfl, rfl⟩

theorem notices_goes (n : Notices) (s : State) : Goes s { s with notices := n } := goes_of_same ⟨rfl, rfl, rfl, rfl, rfl, rfl⟩

theorem takeRequest_goes {tag : Nat} {always : Bool} {body : State → State} {s : State} (h : ∀ u, Goes u (body u)) :
    NextGoes s (.next (takeRequest tag always body s)) :=
  nextGoes_next (takeRequest_preserves (Goes s) tag always body (fun u l hu => hu.trans (link_goes l u))
    (fun u n hu => hu.trans (notices_goes n u)) (fun u hu => hu.trans (h u)) (.refl s))

theorem answer_goes (tag : Nat) (c : ResultCode) (p : Payload) (s : State) : Goes s (answer tag c p s) :=
  (answer_alike tag c p s).goes (by simp)

theorem answerCode_goes (tag : Nat) (c : ResultCode) (s : State) : Goes s (answerCode tag c s) :=
  (answerCode_alike tag c s).goes (by simp)

theorem discardPacket_goes (s : State) : Goes s (discardPacket s) := goes_of_same (by simp)

/-! ### The part, the notices and the sync unit -/

theorem badRequest_goes (tag : Nat) (s : State) : NextGoes s (execBadRequest tag s) :=
  takeRequest_goes fun u => answerCode_goes tag .badRequest u

theorem status_goes (tag : Nat) (s : State) : NextGoes s (execStatus tag s) := takeRequest_goes fun u => answer_goes tag .ok _ u

theorem clearCauses_goes (tag : Nat) (s : State) : NextGoes s (execClearCauses tag s) :=
  takeRequest_goes fun u => goes_of_same (by simp)

theorem restart_goes (tag : Nat) (s : State) : NextGoes s (execRestart tag s) := takeRequest_goes (restartPart_goes tag)

theorem takeNotice_goes (tag : Nat) (s : State) : NextGoes s (execTakeNotice tag s) := by
  refine takeRequest_goes fun u => ?_
  split
  · exact answer_goes tag .ok _ u
  · next i _ =>
    split
    · exact .refl u
    · exact Goes.trans (t := clearKind i u) (notices_goes _ u) (answer_goes tag .ok _ _)

theorem noticeLevels_goes (tag : Nat) (levels : List (Option Nat)) (floor : Option Nat) (s : State) :
    NextGoes s (execNoticeLevels tag levels floor s) := by
  refine takeRequest_goes fun u => ?_
  split
  · exact Goes.trans (t := setLevels levels floor u) (notices_goes _ u) (answer_goes tag .ok _ _)
  · exact answerCode_goes tag .badOperand u

theorem setSync_goes (tag : Nat) (ops : SyncOperands) (s : State) : NextGoes s (execSetSync tag ops s) := by
  refine takeRequest_goes fun u => ?_
  split
  · exact answerCode_goes tag .badOperand u
  · split
    · exact answerCode_goes tag .busy u
    · exact goes_of_same (by simp)

theorem setClock_goes (tag : Nat) (wall : Option Int) (s : State) : NextGoes s (execSetClock tag wall s) := by
  refine takeRequest_goes fun u => ?_
  split
  · exact answer_goes tag .ok _ u
  · next w =>
    split
    · exact Goes.trans (t := setWall w u) (goes_of_same ⟨rfl, rfl, rfl, rfl, rfl, rfl⟩) (answer_goes tag .ok _ _)
    · exact answerCode_goes tag .badOperand u

/-! ### Rolls and recipes -/

theorem rollOpen_goes (tag : Nat) (ops : RollOperands) (s : State) : NextGoes s (execRollOpen tag ops s) := by
  refine takeRequest_goes fun u => ?_
  split
  · exact answerCode_goes tag .badOperand u
  · split
    · exact answerCode_goes tag .tableFull u
    · exact goes_of_same (by simp)

theorem rollSet_goes (tag slot : Nat) (ops : RollOperands) (s : State) : NextGoes s (execRollSet tag slot ops s) := by
  refine takeRequest_goes fun u => ?_
  split
  · exact answerCode_goes tag _ u
  · exact goes_of_same (by simp)

theorem rollSelect_goes (tag : Nat) (slot : Option Nat) (s : State) : NextGoes s (execRollSelect tag slot s) := by
  refine takeRequest_goes fun u => ?_
  split
  · exact answerCode_goes tag _ u
  · exact goes_of_same (by simp)

theorem rollClose_goes (tag slot : Nat) (s : State) : NextGoes s (execRollClose tag slot s) := by
  refine takeRequest_goes fun u => ?_
  split
  · exact answerCode_goes tag .badOperand u
  · split
    · exact answerCode_goes tag .notFound u
    · exact answerCode_goes tag .ok u
    · split
      · exact answerCode_goes tag .busy u
      · exact goes_of_same (by simp)

theorem rollFreed_goes (slot : Nat) (s : State) : Goes s (updateRecords (Record.leaveRoll slot) (setRollSlot slot .free s)) := by
  refine Goes.trans (t := setRollSlot slot .free s) (goes_of_same ⟨rfl, rfl, rfl, rfl, rfl, rfl⟩)
    ((runs_updateRecords fun r _ => ?_).goes_of_seq rfl)
  unfold Record.leaveRoll
  split
  · exact ⟨rfl, rfl, rfl, id, .inl rfl⟩
  · exact .refl r

theorem rollFree_goes (tag slot : Nat) (s : State) : NextGoes s (execRollFree tag slot s) := by
  refine takeRequest_goes fun u => ?_
  split
  · exact answerCode_goes tag .badOperand u
  · split
    · exact answerCode_goes tag .notFound u
    · exact answerCode_goes tag .busy u
    · exact (rollFreed_goes slot u).trans (answerCode_goes tag .ok _)

theorem rollQuery_goes (tag : Nat) (slot : Option Nat) (s : State) : NextGoes s (execRollQuery tag slot s) := by
  refine takeRequest_goes fun u => ?_
  split
  · split
    · exact answerCode_goes tag .badOperand u
    · exact answer_goes tag .ok _ u
  · split
    · exact answerCode_goes tag .noRoll u
    · exact answer_goes tag .ok _ u

theorem recipeSet_goes (tag recipe : Nat) (ops : RecipeOperands) (s : State) : NextGoes s (execRecipeSet tag recipe ops s) := by
  refine takeRequest_goes fun u => ?_
  split
  · exact answerCode_goes tag .badOperand u
  · exact goes_of_same (by simp)

theorem recipeQuery_goes (tag recipe : Nat) (s : State) : NextGoes s (execRecipeQuery tag recipe s) := by
  refine takeRequest_goes fun u => ?_
  split
  · exact answerCode_goes tag .badOperand u
  · exact answer_goes tag .ok _ u

/-! ### Shots -/

theorem onShot_goes (tag n : Nat) (q : LoadRequest) (s : State) : Goes s (service (onShot tag n q s)) :=
  Goes.trans ((onShot_runs tag n q s).goes_of_seq (by simp)) (service_goes _)

theorem shotLookup_goes (tag shot : Nat) (s : State) : NextGoes s (execShotLookup tag shot s) := by
  refine takeRequest_goes fun u => ?_
  split
  · exact answerCode_goes tag .badOperand u
  · exact onShot_goes tag shot _ u

theorem shotList_goes (tag first maxCount : Nat) (label : Option Label) (s : State) :
    NextGoes s (execShotList tag first maxCount label s) := by
  refine takeRequest_goes fun u => ?_
  split
  · exact answer_goes tag .ok _ u
  · exact answerCode_goes tag .badOperand u

theorem shotAmend_goes (tag shot : Nat) (ops : AmendOperands) (s : State) : NextGoes s (execShotAmend tag shot ops s) := by
  refine takeRequest_goes fun u => ?_
  split
  · exact ((touchRecord_alike shot u).goes (by simp)).trans (answerCode_goes tag .badOperand _)
  · exact onShot_goes tag shot _ u

theorem shotRetire_goes (tag shot : Nat) (s : State) : NextGoes s (execShotRetire tag shot s) := by
  refine takeRequest_goes fun u => ?_
  split
  · exact answerCode_goes tag .badOperand u
  · exact onShot_goes tag shot _ u

/-! ### Triggers and the sensor -/

theorem answerStart_goes (k : Start) (tag : Nat) (s : State) : Goes s (service (answerStart tag (decideStart k s))) := by
  refine Goes.trans ?_ (service_goes _)
  unfold answerStart
  split
  · exact (decideStart_goes k s).trans (answer_goes tag .ok _ _)
  · exact (decideStart_goes k s).trans (answerCode_goes tag _ _)

theorem triggerFire_goes (tag : Nat) (s : State) : NextGoes s (execTriggerFire tag s) :=
  takeRequest_goes fun u => answerStart_goes .fire tag u

theorem triggerTimed_goes (tag : Nat) (duration : Option Nat) (s : State) : NextGoes s (execTriggerTimed tag duration s) := by
  refine takeRequest_goes fun u => ?_
  split
  · exact answerCode_goes tag .badOperand u
  · split
    · exact answerStart_goes _ tag u
    · exact answerCode_goes tag .badOperand u

theorem sameShot_setGeometry (columns rows : Nat) (s : State) : SameShot s (setGeometry columns rows s) := by
  have hseq : (setGeometry columns rows s).seq = { s.seq with columns := columns, rows := rows } := by
    unfold setGeometry
    simp
  unfold SameShot
  rw [hseq]
  exact ⟨rfl, rfl⟩

theorem setSensor_goes (tag columns rows : Nat) (s : State) : NextGoes s (execSetSensor tag columns rows s) := by
  refine takeRequest_goes fun u => ?_
  split
  · exact answerCode_goes tag .badOperand u
  · split
    · exact answerCode_goes tag .busy u
    · have hset : Goes u (setGeometry columns rows u) := (setGeometry_runs columns rows u).goes (sameShot_setGeometry columns rows u)
      exact (hset.trans (answer_goes tag .ok _ _)).trans (service_goes _)

/-! ### Development and previews -/

/-- A HELD or SETTLED record's shot may have jobs. -/
theorem mayDevelop_of {n : Nat} {s : State} {r : Record} (hr : findRecord s n = some r) (ho : r.life ≠ .opened)
    (ht : r.life ≠ .retiring) (hv : r.life ≠ .void) : MayDevelop s r.number := by
  obtain ⟨hm, rfl⟩ := findRecord_mem hr
  refine ⟨r, hm, rfl, ?_⟩
  cases h : r.life with
  | held => exact .inl rfl
  | settled => exact .inr rfl
  | opened => exact absurd h ho
  | retiring => exact absurd h ht
  | void => exact absurd h hv

theorem placeWaiting_goes {n : Nat} (tag : Nat) (k : JobKind) (priority : Nat) {s : State} (h : MayDevelop s n) :
    Goes s (placeWaiting tag n k priority s) := by
  unfold placeWaiting
  split
  · exact answerCode_goes tag .queueFull s
  · exact (placeJob_runs k priority (some tag) h).goes_of_seq (by simp)

theorem placeAndAnswer_goes {n : Nat} (tag : Nat) (k : JobKind) (priority : Nat) {s : State} (h : MayDevelop s n) :
    Goes s (placeAndAnswer tag n k priority s) := by
  unfold placeAndAnswer
  split
  · split
    · exact answerCode_goes tag .queueFull s
    · exact Goes.trans ((placeJob_runs k 0 none h).goes_of_seq (by simp)) (answerCode_goes tag .ok _)
  · exact placeWaiting_goes tag k priority h

theorem developResident_goes {n : Nat} (tag : Nat) (k : JobKind) (priority : Nat) {r : Record} {s : State}
    (hr : findRecord s n = some r) : Goes s (developResident tag k priority r s) := by
  unfold developResident
  split
  · exact answerCode_goes tag .busy s
  · exact answerCode_goes tag .busy s
  · exact answerCode_goes tag .notFound s
  · next ho ht hv =>
    split
    · exact answer_goes tag .ok _ s
    · exact (placeAndAnswer_goes tag k priority (mayDevelop_of hr ho ht hv)).trans (service_goes _)

theorem develop_goes (tag shot kind priority : Nat) (s : State) : NextGoes s (execDevelop tag shot kind priority s) := by
  refine takeRequest_goes fun u => ?_
  split
  · exact answerCode_goes tag .badOperand u
  · split
    · next r hr => exact developResident_goes tag _ priority hr
    · exact answerCode_goes tag _ u

theorem devFloor_goes (tag : Nat) (floor : Option Nat) (s : State) : NextGoes s (execDevFloor tag floor s) := by
  refine takeRequest_goes fun u => ?_
  split
  · exact answer_goes tag .ok _ u
  · next f =>
    split
    · have hfloor : Alike u { u with dev := { u.dev with floor := f } } := fun _ => rfl
      exact ((hfloor.goes rfl).trans (answer_goes tag .ok _ _)).trans (service_goes _)
    · exact answerCode_goes tag .badOperand u

theorem previewHit_goes (tag i : Nat) (s : State) : Goes s (previewHit tag i s) := by
  unfold previewHit
  split
  · have hpin : Goes s (touchPreview i (pinSlot i s)) := goes_of_same (by simp)
    exact (hpin.trans ((refreshEngineClaim_alike _).goes (by simp))).trans (answer_goes tag .ok _ _)
  · exact answerCode_goes tag .pinLimit s

theorem getResident_goes {n : Nat} (tag : Nat) {r : Record} {s : State} (hr : findRecord s n = some r) :
    Goes s (getResident tag r s) := by
  unfold getResident
  split
  · exact answerCode_goes tag .busy s
  · exact answerCode_goes tag .busy s
  · exact answerCode_goes tag .notFound s
  · next ho ht hv =>
    split
    · exact previewHit_goes tag _ s
    · exact (placeWaiting_goes tag .preview _ (mayDevelop_of hr ho ht hv)).trans (service_goes _)

theorem getAbsent_goes (tag n : Nat) (s : State) : Goes s (getAbsent tag n s) := by
  unfold getAbsent
  split
  · exact answerCode_goes tag .busy s
  · split
    · exact answerCode_goes tag .noCard s
    · split
      · exact answerCode_goes tag .notFound s
      · split
        · exact previewHit_goes tag _ s
        · exact answerCode_goes tag .notFound s

theorem getPreview_goes (tag shot : Nat) (s : State) : NextGoes s (execGetPreview tag shot s) := by
  refine takeRequest_goes fun u => ?_
  split
  · exact answerCode_goes tag .badOperand u
  · split
    · next r hr => exact getResident_goes tag hr
    · exact getAbsent_goes tag shot u

theorem readPinned_goes (tag slot offset length : Nat) (x : PreviewSlot) (s : State) :
    Goes s (readPinned tag slot offset length x s) := by
  unfold readPinned
  split
  · dsimp only
    split
    · exact answerCode_goes tag .badOperand s
    · exact answer_goes tag .ok _ s
  · exact answerCode_goes tag .notPinned s

theorem readPreview_goes (tag slot offset length : Nat) (s : State) :
    NextGoes s (execReadPreview tag slot offset length s) := by
  refine takeRequest_goes fun u => ?_
  split
  · exact answerCode_goes tag .badOperand u
  · split
    · exact answerCode_goes tag .notPinned u
    · exact readPinned_goes tag slot offset length _ u

theorem unpinPreview_goes (tag slot : Nat) (s : State) : NextGoes s (execUnpinPreview tag slot s) := by
  refine takeRequest_goes fun u => ?_
  split
  · exact answerCode_goes tag .badOperand u
  · split
    · exact answerCode_goes tag .notPinned u
    · have hpins : Goes u (unpin slot u) := goes_of_same (by simp)
      exact (hpins.trans (answer_goes tag .ok _ _)).trans (service_goes _)

/-! ### The card -/

theorem cardQuery_goes (tag : Nat) (s : State) : NextGoes s (execCardQuery tag s) :=
  takeRequest_goes fun u => answer_goes tag .ok _ u

theorem acceptEject_goes (tag : Nat) (s : State) : Goes s (acceptEject tag s) := by
  have hstate : Alike s { s with card := { s.card with state := .ejecting, ejectTag := some tag } } := fun _ => rfl
  unfold acceptEject
  exact ((hstate.goes rfl).trans ((refuseReads_runs _ .noCard _).goes_of_seq (by simp))).trans (service_goes _)

theorem cardEject_goes (tag : Nat) (s : State) : NextGoes s (execCardEject tag s) := by
  refine takeRequest_goes fun u => ?_
  split
  · exact acceptEject_goes tag u
  · exact answerCode_goes tag .noCard u

theorem cardFormat_goes (tag discard : Nat) (s : State) : NextGoes s (execCardFormat tag discard s) := by
  refine takeRequest_goes fun u => ?_
  split
  · exact answerCode_goes tag _ u
  · exact Goes.trans ((beginFormat_runs tag u).goes_of_seq (by simp)) (service_goes _)

/-- What a request of a packet means keeps the laws. -/
theorem requestMeaning_goes (i : Instr) (s : State) : NextGoes s (requestMeaning i s) := by
  unfold requestMeaning
  split
  · exact shotLookup_goes _ _ s
  · exact shotList_goes _ _ _ _ s
  · exact rollOpen_goes _ _ s
  · exact rollSet_goes _ _ _ s
  · exact rollSelect_goes _ _ s
  · exact rollClose_goes _ _ s
  · exact rollFree_goes _ _ s
  · exact rollQuery_goes _ _ s
  · exact recipeSet_goes _ _ _ s
  · exact recipeQuery_goes _ _ s
  · exact setSync_goes _ _ s
  · exact setClock_goes _ _ s
  · exact triggerFire_goes _ s
  · exact triggerTimed_goes _ _ s
  · exact setSensor_goes _ _ _ s
  · exact develop_goes _ _ _ _ s
  · exact devFloor_goes _ _ s
  · exact getPreview_goes _ _ s
  · exact readPreview_goes _ _ _ _ s
  · exact unpinPreview_goes _ _ s
  · exact cardQuery_goes _ s
  · exact cardEject_goes _ s
  · exact cardFormat_goes _ _ s
  · exact shotAmend_goes _ _ _ s
  · exact shotRetire_goes _ _ s
  · exact status_goes _ s
  · exact clearCauses_goes _ s
  · exact restart_goes _ s
  · exact takeNotice_goes _ s
  · exact noticeLevels_goes _ _ _ s
  · exact nextGoes_next (.refl s)

/-! ### Packets -/

theorem takePacket_goes (tag kind : Nat) (operands : List Byte) (s : State) :
    NextGoes s (takePacket tag kind operands s) := by
  unfold takePacket
  split
  · exact badRequest_goes tag s
  · exact takeRequest_goes fun u => answerCode_goes tag .badOperand u
  · exact requestMeaning_goes _ s

theorem NextGoes.of_goes {s u : State} {o : Host.Outcome State Fault Refusal} (h : Goes s u) (ho : NextGoes u o) :
    NextGoes s o := fun t ht => h.trans (ho t ht)

theorem checkPacket_goes (bytes : List Byte) (s : State) : NextGoes s (checkPacket bytes s) := by
  unfold checkPacket
  dsimp only
  split
  · exact nextGoes_next (discardPacket_goes s)
  · exact takePacket_goes _ _ _ s

theorem setFramer_goes (f : Framer) (bytes : List Byte) (s : State) : Goes s (setFramer f bytes s) := link_goes _ s

theorem frameByte_goes (b : Byte) (s : State) : NextGoes s (frameByte b s) := by
  unfold frameByte
  split
  · refine nextGoes_next ?_
    split
    · exact setFramer_goes .header [] s
    · exact .refl s
  · exact nextGoes_next (goes_of_same (by simp))
  · exact nextGoes_next (goes_of_same (by simp))
  · unfold checkByte
    split
    · exact nextGoes_next (setFramer_goes .check _ s)
    · exact (checkPacket_goes _ _).of_goes (setFramer_goes .hunt [] s)

theorem mosiByte_goes (b : Byte) (s : State) : NextGoes s (execMosiByte b s) := by
  have hshift : Goes s (shiftOut s) := goes_of_same (by simp)
  exact (frameByte_goes b _).of_goes hshift

end Sys2Proof.ShotTable
end

section
/-! Shot table: what the events do to the laws, and what every step keeps. -/

namespace Sys2Proof.ShotTable
open Sys2Proof.Machine View

theorem advanceTo_goes (t : Time) (s : State) : Goes s (s.advanceTo t) := goes_of_same (by simp)

theorem Goes.service {s t : State} (h : Goes s t) : Goes s (service t) := h.trans (service_goes t)

/-! ### Resets and the link -/

/-- A view at the reset values. -/
structure Fresh (v : View) : Prop where
  slots : ∀ x ∈ v.slots, x = .free
  counter : v.counter = 1
  index : v.index = []
  openShot : v.openShot = none
  hasShot : v.hasShot = false
  owners : ∀ o ∈ v.owners, o = .free
  plan : v.plan = []
  queue : v.queue = []
  holds : v.holds = none
  named : v.named = 0
  loose : v.loose = 0

/-- The laws hold of a view at the reset values, whatever was before. -/
theorem keeps_fresh {v w : View} (h : Fresh w) : Keeps v w := by
  have hrecords : w.records = [] := by
    refine List.eq_nil_iff_forall_not_mem.2 fun r hr => ?_
    obtain ⟨x, hx, he⟩ := List.mem_filterMap.1 hr
    rw [h.slots x hx] at he
    cases he
  have hnumbers : w.numbers = [] := by
    refine List.eq_nil_iff_forall_not_mem.2 fun r hr => ?_
    obtain ⟨x, hx, he⟩ := List.mem_filterMap.1 hr
    rw [h.slots x hx] at he
    cases he
  refine ⟨fun _ => ⟨by rw [h.counter], by rw [h.counter]; omega, by rw [hnumbers]; exact List.nodup_nil, ?_, ?_⟩,
    fun _ _ => ⟨by rw [h.openShot, h.hasShot]; decide, ?_, ?_⟩, fun _ _ => ⟨?_, ?_, ?_, ?_, fun _ => h.holds, ?_, ?_⟩,
    fun _ _ _ _ => ⟨⟨?_, ?_, ?_, fun _ => ?_⟩, ⟨?_, ?_⟩⟩⟩
  · rw [hnumbers]; exact fun _ hx => absurd hx List.not_mem_nil
  · rw [h.index]; exact fun _ hx => absurd hx List.not_mem_nil
  · rw [h.openShot]; exact fun _ hn => nomatch hn
  · rw [hrecords]; exact fun _ hx => absurd hx List.not_mem_nil
  · rw [h.named]; exact fun x hx => absurd hx (Multiset.notMem_zero x)
  · exact fun p o hp ho => absurd (h.owners o (List.mem_of_getElem? hp)) ho
  · rw [h.named]; exact Multiset.nodup_zero
  · rw [hrecords]; exact fun _ hx => absurd hx List.not_mem_nil
  · rw [h.plan]; exact fun _ hx => absurd hx List.not_mem_nil
  · rw [h.loose]; exact fun x hx => absurd hx (Multiset.notMem_zero x)
  · rw [h.queue]; exact List.nodup_nil
  · rw [h.queue]; exact fun _ hx => absurd hx List.not_mem_nil
  · rw [h.queue]; exact Nat.zero_le 1
  · rw [h.queue]; exact fun _ hx => absurd hx List.not_mem_nil
  · rw [hrecords]; exact fun _ hx => absurd hx List.not_mem_nil
  · rw [hrecords]; exact fun _ hx => absurd hx List.not_mem_nil

theorem afterReset_goes (release xsync aux : PinLevel) (card : Bool) (causes : Causes) (mem : Memory)
    (pending : List Instr) (free : Nat) (s : State) :
    Goes s (State.afterReset release xsync aux card causes mem pending free) :=
  keeps_fresh {
    slots := fun _ hx => List.eq_of_mem_replicate hx
    counter := rfl
    index := rfl
    openShot := rfl
    hasShot := rfl
    owners := fun _ ho => List.eq_of_mem_replicate ho
    plan := rfl
    queue := rfl
    holds := rfl
    named := rfl
    loose := rfl }

theorem startupComplete_goes (s : State) : NextGoes s (execStartupComplete s) := by
  refine nextGoes_next ?_
  split
  · exact Goes.trans (t := clearInternal s) (goes_of_same ⟨rfl, rfl, rfl, rfl, rfl, rfl⟩) (enterRunning_goes _)
  · exact .refl s

theorem restartComplete_goes (s : State) : NextGoes s (execRestartComplete s) := by
  refine nextGoes_next ?_
  split
  · exact orphanAnswered_goes s
  · exact .refl s

theorem csnAsserted_goes (s : State) : NextGoes s (execCsnAsserted s) := by
  refine nextGoes_next ?_
  split
  · exact .refl s
  · exact link_goes _ s

theorem csnNegated_goes (s : State) : NextGoes s (execCsnNegated s) := by
  have hdeselect : Goes s (deselect s) := link_goes _ s
  refine nextGoes_next ?_
  split
  · split
    · exact hdeselect
    · exact hdeselect.trans (discardPacket_goes _)
  · exact .refl s

theorem answerLeaves_goes (s : State) : NextGoes s (execAnswerLeaves s) := nextGoes_next (goes_of_same (by simp))

/-! ### The sync unit -/

theorem qualify_goes (i : SyncInput) (s : State) : Goes s (qualify i s) := by
  unfold qualify
  dsimp only
  split
  · have haccept : ∀ l t, Goes s ((setLine i l s).advanceTo t) := fun l t =>
      Goes.trans (t := setLine i l s) (goes_of_same ⟨rfl, rfl, rfl, rfl, rfl, rfl⟩) (advanceTo_goes t _)
    split
    · exact ((haccept _ _).trans (deliver_goes i _ _ _)).service
    · exact haccept _ _
  · exact .refl s

theorem takeSample_goes (gap : Nat) (pin : SyncInput → PinLevel) (s : State) : Goes s (takeSample gap pin s) := by
  unfold takeSample
  dsimp only
  split <;> exact goes_of_same ⟨rfl, rfl, rfl, rfl, rfl, rfl⟩

theorem syncSample_goes (gap : Nat) (release xsync aux : PinLevel) (s : State) :
    NextGoes s (execSyncSample gap release xsync aux s) :=
  nextGoes_next ((((qualify_goes .release s).trans (qualify_goes .xsync _)).trans (qualify_goes .aux _)).trans
    (takeSample_goes gap _ _))

theorem reloutPulseEnd_goes (s : State) : NextGoes s (execReloutPulseEnd s) := by
  refine nextGoes_next ?_
  split
  · exact .refl s
  · next t _ => exact (advanceTo_goes t s).trans (goes_of_same ⟨rfl, rfl, rfl, rfl, rfl, rfl⟩)

/-! ### Card detect -/

theorem cdetChange_goes (present : Bool) (s : State) : NextGoes s (execCdetChange present s) := by
  refine nextGoes_next ?_
  split
  · exact .refl s
  · exact Alike.goes (fun _ => rfl) rfl

theorem acceptLevel_goes (t : Timer) (s : State) : Goes s (acceptLevel t s) := by
  have hdetect : ∀ u : State, Alike u { u with card := { u.card with detect := { u.card.detect with
      accepted := u.card.detect.line, timer := none } } } := fun _ _ => rfl
  exact (advanceTo_goes t.expiry s).trans ((hdetect _).goes rfl)

theorem insertion_goes (s : State) : NextGoes s (execInsertion s) := by
  refine nextGoes_next ?_
  split
  · exact .refl s
  · next t _ =>
    split
    · dsimp only
      split
      · exact ((acceptLevel_goes t s).trans ((beginMount_alike _).goes (by simp))).service
      · exact acceptLevel_goes t s
    · exact .refl s

/-- What a removal does to the Card Store. -/
theorem cardGone_goes (s : State) : Goes s (if s.card.state = .absent then s else removeCard s) := by
  split
  · exact .refl s
  · exact (removeCard_runs s).goes_of_seq (by simp)

theorem removal_goes (s : State) : NextGoes s (execRemoval s) := by
  refine nextGoes_next ?_
  split
  · exact .refl s
  · next t _ =>
    split
    · dsimp only
      have hgone := (acceptLevel_goes t s).trans (cardGone_goes (acceptLevel t s))
      generalize (if (acceptLevel t s).card.state = .absent then acceptLevel t s else removeCard (acceptLevel t s)) = u
        at hgone ⊢
      split
      · exact hgone.trans (enterRunning_goes _)
      · exact hgone.service
    · exact .refl s

/-! ### The sequencer's timers and readouts -/

theorem armWindowExpiry_goes (s : State) : NextGoes s (execArmWindowExpiry s) := by
  refine nextGoes_next ?_
  split
  · next t _ _ => exact ((advanceTo_goes t.expiry s).trans (armExpired_goes _)).service
  · exact .refl s

theorem maxOpenExpiry_goes (s : State) : NextGoes s (execMaxOpenExpiry s) := by
  refine nextGoes_next ?_
  split
  · exact .refl s
  · next t _ => exact (advanceTo_goes t.expiry s).trans (maxOpenExpired_goes _ _)

theorem hasShot_advanceTo {t : Time} {s : State} (h : s.seq.state.hasShot = true) :
    (s.advanceTo t).seq.state.hasShot = true := by
  simpa using h

theorem timedDurationExpiry_goes (s : State) : NextGoes s (execTimedDurationExpiry s) := by
  refine nextGoes_next ?_
  split
  · next t h _ => exact (advanceTo_goes t.expiry s).trans (closeEntry_goes (hasShot_advanceTo (by rw [h]; rfl)))
  · exact .refl s

theorem settleExpiry_goes (s : State) : NextGoes s (execSettleExpiry s) := by
  refine nextGoes_next ?_
  split
  · next t h _ => exact (advanceTo_goes t.expiry s).trans (settleExpired_goes (hasShot_advanceTo (by rw [h]; rfl)))
  · exact .refl s

theorem stackWindowExpiry_goes (s : State) : NextGoes s (execStackWindowExpiry s) := by
  refine nextGoes_next ?_
  split
  · next t _ _ => exact ((advanceTo_goes t.expiry s).trans (finishShot_goes _)).service
  · exact .refl s

/-- The dark readout begins; no shot is open before or after. -/
theorem beginDarkReadout_goes {s : State} (h : s.seq.state = .dark) :
    Goes s (beginReadout .darkReadout { s with seq := { s.seq with darkTimer := none } }) := by
  have hstate : Goes s { s with seq := { s.seq with state := .darkReadout, samples := 0, darkTimer := none } } :=
    Runs.goes (Alike.runs fun _ => rfl) ⟨rfl, by rw [h]; rfl⟩
  exact hstate.trans ((readoutBegins_alike _).goes (by simp))

theorem darkDurationExpiry_goes (s : State) : NextGoes s (execDarkDurationExpiry s) := by
  refine nextGoes_next ?_
  split
  · next t h _ =>
    exact (advanceTo_goes t.expiry s).trans (beginDarkReadout_goes (by simpa using h))
  · exact .refl s

theorem pixelSample_goes (value : BitVec 16) (s : State) : NextGoes s (execPixelSample value s) := by
  refine nextGoes_next ?_
  split
  · exact .refl s
  · exact Runs.goes (Alike.runs fun _ => rfl) ⟨rfl, rfl⟩

theorem leaveDark_idle (s : State) : (leaveDark s).seq.state = .idle ∧ (leaveDark s).seq.openShot = s.seq.openShot := by
  unfold leaveDark
  dsimp only
  split <;> exact ⟨rfl, rfl⟩

theorem finishDark_idle (temperature : Int) (s : State) :
    (finishDark temperature s).seq.state = .idle ∧ (finishDark temperature s).seq.openShot = s.seq.openShot := by
  unfold finishDark
  split
  · exact leaveDark_idle s
  · dsimp only
    have hseq : ∀ e t, (matchingPass (freeIfExpired e t)).seq = t.seq := fun e t => by simp
    rw [hseq, (leaveDark_idle _).1, (leaveDark_idle _).2]
    exact ⟨rfl, by simp⟩

theorem sameShot_idle {s t : State} (hhas : s.seq.state.hasShot = false)
    (ht : t.seq.state = .idle ∧ t.seq.openShot = s.seq.openShot) : SameShot s t :=
  ⟨ht.2, by rw [ht.1, hhas]; rfl⟩

theorem failedDark_idle (s : State) :
    (failedDark s).seq.state = .idle ∧ (failedDark s).seq.openShot = s.seq.openShot := by
  have hseq : (failedDark s).seq = (abandonDark s).seq := by
    unfold failedDark
    simp
  rw [hseq]
  exact abandonDark_seq s

theorem readoutHeader_goes (good : Bool) (columns rows : Nat) (temperature : Int) (s : State) :
    NextGoes s (execReadoutHeader good columns rows temperature s) := by
  refine nextGoes_next ?_
  split
  · next h =>
    refine Goes.service ?_
    split
    · exact goodReadout_goes (by rw [h]; rfl)
    · exact failedReadout_goes s
  · next h =>
    have hhas : s.seq.state.hasShot = false := by rw [h]; rfl
    refine Goes.service ?_
    split
    · exact (finishDark_runs temperature s).goes (sameShot_idle hhas (finishDark_idle temperature s))
    · exact (failedDark_runs s).goes (sameShot_idle hhas (failedDark_idle s))
  · exact .refl s

/-! ### The Dark Unit and the Plane Arithmetic Unit -/

theorem darkExposureStart_goes (s : State) : NextGoes s (execDarkExposureStart s) :=
  nextGoes_next ((attemptDark_runs s).goes (sameShot_of_seqKept (seqKept_attemptDark s))).service

theorem pauStart_goes (s : State) : NextGoes s (execPauStart s) := nextGoes_next (goes_of_same (by simp))

theorem accumulateDone_goes (s : State) : NextGoes s (execAccumulateDone s) := by
  refine nextGoes_next ?_
  split
  · exact .refl s
  · next q _ =>
    split
    · dsimp only
      have hacc : Goes s (accumulated q s) := (accumulated_alike q s).goes (by simp)
      refine Goes.service ?_
      split
      · next h => exact hacc.trans (afterAccumulate_goes (by rw [h]; rfl))
      · exact hacc
    · exact .refl s

theorem applyDarkDone_goes (s : State) : NextGoes s (execApplyDarkDone s) := by
  refine nextGoes_next ?_
  split
  · exact .refl s
  · next q _ =>
    split
    · exact .refl s
    · next e _ => exact Goes.service ((darkApplied_runs q e s).goes_of_seq (by simp))

theorem darkExpiry_goes (entry : Nat) (s : State) : NextGoes s (execDarkExpiry entry s) := by
  refine nextGoes_next ?_
  split
  · exact .refl s
  · next t _ => exact ((advanceTo_goes t s).trans ((requestEnded_runs entry _).goes_of_seq (by simp))).service

/-! ### The Development Engine -/

theorem dispatch_goes (s : State) : NextGoes s (execDispatch s) :=
  nextGoes_next (((attemptDispatch_runs s).trans (startCardWork_runs _)).goes_of_seq (by simp))

theorem stageEnd_goes (s : State) : NextGoes s (execStageEnd s) := by
  refine nextGoes_next ?_
  split
  · exact (setEngine_runs (x := .active _) nofun s).goes_of_seq rfl
  · exact .refl s

theorem outputEnd_goes (s : State) : NextGoes s (execOutputEnd s) := by
  refine nextGoes_next ?_
  split
  · next j h _ hj hh => exact Goes.service ((completeJob_runs hj hh).goes_of_seq (by simp))
  · exact .refl s

/-! ### The Card Store -/

theorem cardWorkStart_goes (s : State) : NextGoes s (execCardWorkStart s) :=
  nextGoes_next ((startCardWork_runs s).goes_of_seq (by simp))

theorem cardCommandError_goes (s : State) : NextGoes s (execCardCommandError s) := nextGoes_next (answeredError_goes s)

theorem cardCommandTimeout_goes (s : State) : NextGoes s (execCardCommandTimeout s) := by
  refine nextGoes_next ?_
  split
  · exact .refl s
  · exact (advanceTo_goes _ s).trans (answeredError_goes _)

theorem nextWork_goes (w : CardWork) (s : State) : Goes s (nextWork w s) := (nextWork_alike w s).goes (by simp)

theorem endWork_goes (s : State) : Goes s (endWork s) := (endWork_alike s).goes (by simp)

/-- What a completion does after the work has ended. -/
theorem endWork_service {s t : State} (h : Runs (endWork s) t) (hs : t.seq = (endWork s).seq) :
    Goes s (service t) := ((endWork_goes s).trans (h.goes_of_seq hs)).service

theorem identifyDone_goes (serial capacity : Nat) (writeProtected : Bool) (s : State) :
    NextGoes s (execIdentifyDone serial capacity writeProtected s) := by
  refine nextGoes_next (answeredOk_goes ?_)
  split
  · refine Goes.trans (Alike.goes (t := { s with card := { s.card with
      identity := some { serial, capacity, writeProtected } } }) (fun _ => rfl) rfl) (nextWork_goes _ _)
  · exact .refl s

theorem unformatted_alike (s : State) : Alike s (unformatted s) := by
  have hvolume : Alike s { s with card := { s.card with volume := none } } := fun _ => rfl
  exact (hvolume.trans (setCardState_alike .unformatted _)).trans (answerFormat_alike .cardError _)

theorem headerReadDone_goes (block : List Byte) (s : State) : NextGoes s (execHeaderReadDone block s) := by
  refine nextGoes_next (answeredOk_goes ?_)
  split
  · split
    · exact Goes.trans (Alike.goes (t := { s with card := { s.card with volume := some (headerVolume block) } })
        (fun _ => rfl) rfl) (nextWork_goes _ _)
    · exact endWork_service (unformatted_alike _).runs (by simp)
  · exact .refl s

theorem catalogueReadDone_goes (clusters : Nat) (blocks : List (Nat × List Byte)) (s : State) :
    NextGoes s (execCatalogueReadDone clusters blocks s) := by
  refine nextGoes_next (answeredOk_goes ?_)
  split
  · split
    · exact .refl s
    · split
      · exact nextWork_goes _ s
      · exact ((endWork_goes s).trans (finishMount_goes _ _)).service
  · exact .refl s

theorem loadReadDone_goes (block : List Byte) (s : State) : NextGoes s (execLoadReadDone block s) := by
  refine nextGoes_next (answeredOk_goes ?_)
  split
  · next n slot _ => exact endWork_service ((leaveReads_alike _).runs.trans (loadDone_runs n slot block _)) (by simp)
  · exact .refl s

theorem fetchReadDone_goes (clusters : Nat) (values : List (Nat × BitVec 32)) (s : State) :
    NextGoes s (execFetchReadDone clusters values s) := by
  refine nextGoes_next (answeredOk_goes ?_)
  split
  · next n p runs done _ =>
    split
    · exact .refl s
    · dsimp only
      have hmem : Goes s { s with mem := loadClusters s.mem p (sensorArea s) done clusters values } :=
        goes_of_same ⟨rfl, rfl, rfl, rfl, rfl, rfl⟩
      split
      · exact hmem.trans (nextWork_goes _ _)
      · exact hmem.trans (endWork_service ((leaveReads_alike _).runs.trans (fetchDone_runs _)) rfl)
  · exact .refl s

theorem rawWriteClusterDone_goes (s : State) : NextGoes s (execRawWriteClusterDone s) := by
  refine nextGoes_next (answeredOk_goes ?_)
  split
  · next n done _ =>
    split
    · exact nextWork_goes _ s
    · exact endWork_service (endRawData_runs n _) (by simp)
  · exact .refl s

theorem entryWriteDone_goes (s : State) : NextGoes s (execEntryWriteDone s) := by
  refine nextGoes_next (answeredOk_goes ?_)
  split
  · next n slot _ => exact endWork_service (entryWritten_runs n slot _) (by simp)
  · exact .refl s

theorem developedWriteClusterDone_goes (s : State) : NextGoes s (execDevelopedWriteClusterDone s) := by
  refine nextGoes_next (answeredOk_goes ?_)
  split
  · next h runs done stopped _ =>
    split
    · exact nextWork_goes _ s
    · exact ((markTaken_alike h.shot s).goes (by simp)).trans (nextWork_goes _ _)
  · exact .refl s

theorem developedEntryWriteDone_goes (s : State) : NextGoes s (execDevelopedEntryWriteDone s) := by
  refine nextGoes_next (answeredOk_goes ?_)
  split
  · next h runs _ _ _ => exact endWork_service (developedWritten_runs h runs _) (by simp)
  · exact .refl s

theorem emptyWriteDone_goes (s : State) : NextGoes s (execEmptyWriteDone s) := by
  refine nextGoes_next (answeredOk_goes ?_)
  split
  · next n _ _ => exact endWork_service (emptied_runs n _) (by simp)
  · exact .refl s

theorem dirtyRewriteDone_goes (s : State) : NextGoes s (execDirtyRewriteDone s) := by
  refine nextGoes_next (answeredOk_goes ?_)
  split
  · next n _ => exact endWork_service ((copyProtect_runs n _).trans (resolveTaken_runs n _)) (by simp)
  · exact .refl s

theorem formatWriteDone_goes (s : State) : NextGoes s (execFormatWriteDone s) := by
  refine nextGoes_next (answeredOk_goes ?_)
  split
  · split
    · exact nextWork_goes _ s
    · exact nextWork_goes _ s
  · exact .refl s

/-! ### Every step -/

theorem exec_goes (i : Instr) (s : State) : NextGoes s (exec i s) := by
  unfold exec
  split
  · exact nextGoes_next (afterReset_goes ..)
  · exact nextGoes_next (afterReset_goes ..)
  · exact startupComplete_goes s
  · exact restartComplete_goes s
  · exact csnAsserted_goes s
  · exact csnNegated_goes s
  · exact nextGoes_next (discardPacket_goes s)
  · exact answerLeaves_goes s
  · exact badRequest_goes _ s
  · exact shotLookup_goes _ _ s
  · exact shotList_goes _ _ _ _ s
  · exact rollOpen_goes _ _ s
  · exact rollSet_goes _ _ _ s
  · exact rollSelect_goes _ _ s
  · exact rollClose_goes _ _ s
  · exact rollFree_goes _ _ s
  · exact rollQuery_goes _ _ s
  · exact recipeSet_goes _ _ _ s
  · exact recipeQuery_goes _ _ s
  · exact setSync_goes _ _ s
  · exact setClock_goes _ _ s
  · exact triggerFire_goes _ s
  · exact triggerTimed_goes _ _ s
  · exact setSensor_goes _ _ _ s
  · exact develop_goes _ _ _ _ s
  · exact devFloor_goes _ _ s
  · exact getPreview_goes _ _ s
  · exact readPreview_goes _ _ _ _ s
  · exact unpinPreview_goes _ _ s
  · exact cardQuery_goes _ s
  · exact cardEject_goes _ s
  · exact cardFormat_goes _ _ s
  · exact shotAmend_goes _ _ _ s
  · exact shotRetire_goes _ _ s
  · exact status_goes _ s
  · exact clearCauses_goes _ s
  · exact restart_goes _ s
  · exact takeNotice_goes _ s
  · exact noticeLevels_goes _ _ _ s
  · exact nextGoes_next (qualify_goes _ s)
  · exact reloutPulseEnd_goes s
  · exact cdetChange_goes _ s
  · exact insertion_goes s
  · exact removal_goes s
  · exact armWindowExpiry_goes s
  · exact maxOpenExpiry_goes s
  · exact timedDurationExpiry_goes s
  · exact settleExpiry_goes s
  · exact stackWindowExpiry_goes s
  · exact darkDurationExpiry_goes s
  · exact readoutHeader_goes _ _ _ _ s
  · exact darkExposureStart_goes s
  · exact pauStart_goes s
  · exact accumulateDone_goes s
  · exact applyDarkDone_goes s
  · exact darkExpiry_goes _ s
  · exact dispatch_goes s
  · exact stageEnd_goes s
  · exact outputEnd_goes s
  · exact cardWorkStart_goes s
  · exact cardCommandError_goes s
  · exact cardCommandTimeout_goes s
  · exact identifyDone_goes _ _ _ s
  · exact headerReadDone_goes _ s
  · exact catalogueReadDone_goes _ _ s
  · exact loadReadDone_goes _ s
  · exact fetchReadDone_goes _ _ s
  · exact rawWriteClusterDone_goes s
  · exact entryWriteDone_goes s
  · exact developedWriteClusterDone_goes s
  · exact developedEntryWriteDone_goes s
  · exact emptyWriteDone_goes s
  · exact dirtyRewriteDone_goes s
  · exact formatWriteDone_goes s
  · exact syncSample_goes _ _ _ _ s
  · exact pixelSample_goes _ s
  · exact mosiByte_goes _ s

/-- From one step to the next each law holds on, with those it leans on. -/
theorem step_goes {s t : State} (h : step s = .next t) : Goes s t := by
  unfold step at h
  split at h
  · cases h
    exact goes_of_same (by simp)
  · next c rest _ =>
    have hrest : Goes s { s with pending := rest } := goes_of_same ⟨rfl, rfl, rfl, rfl, rfl, rfl⟩
    exact hrest.trans (exec_goes c _ t h)

/-- Settles O57: each law of the records holds on through every part of a step (`step_goes`). -/
theorem stepKeepsShotNumbersAndOpenShot : Obligations.StepKeepsShotNumbersAndOpenShot := by
  intro s t hnumbers hopen hstep
  have h := step_goes hstep
  rw [shotNumbersAgree_iff] at hnumbers ⊢
  rw [openShotAgrees_iff] at hopen ⊢
  exact ⟨h.numbers hnumbers, h.opened hnumbers hopen⟩

/-- Settles O58: the planes named, with those that nothing names within a step, agree with the owners (`step_goes`). -/
theorem stepKeepsPlanesAgree : Obligations.StepKeepsPlanesAgree := by
  intro s t _ hnumbers hplanes hstep
  rw [shotNumbersAgree_iff] at hnumbers
  rw [planesAgree_iff] at hplanes ⊢
  exact (step_goes hstep).planes hnumbers hplanes

/-- Settles O59: the laws of the jobs and of the dark links hold on together through every part of a step
(`step_goes`). -/
theorem stepKeepsJobsAndDarkLinks : Obligations.StepKeepsJobsAndDarkLinks := by
  intro s t hnumbers hopen hqueue hlinks hstep
  rw [shotNumbersAgree_iff] at hnumbers
  rw [openShotAgrees_iff] at hopen
  rw [queueAgrees_iff] at hqueue ⊢
  rw [darkLinksAgree_iff] at hlinks ⊢
  exact (step_goes hstep).jobs hnumbers hopen hqueue hlinks

end Sys2Proof.ShotTable
end

section
/-! Shot table: a record in its slot, and what the work that follows an event leaves of it. -/

namespace Sys2Proof.ShotTable
open Sys2Proof.Machine

/-! ### The one record of a number -/

/-- A slot holds a record, and no other slot holds one of its number. -/
structure Holds (i : Nat) (r : Record) (s : State) : Prop where
  slot : s.table.slots[i]? = some (.inUse r)
  alone : ∀ (j : Nat) (q : Record), s.table.slots[j]? = some (.inUse q) → q.number = r.number → j = i

section
variable {i : Nat} {r : Record} {s t : State}

theorem Holds.of_slots (h : Holds i r s) (ht : t.table.slots = s.table.slots) : Holds i r t :=
  ⟨by rw [ht]; exact h.slot, fun j q hj => h.alone j q (by rw [← ht]; exact hj)⟩

theorem Holds.resident (h : Holds i r s) : r ∈ residents s := mem_residents.2 ⟨i, h.slot⟩

theorem Holds.only (h : Holds i r s) {q : Record} (hq : q ∈ residents s) (hn : q.number = r.number) : q = r := by
  obtain ⟨j, hj⟩ := mem_residents.1 hq
  obtain rfl := h.alone j q hj hn
  rw [h.slot] at hj
  cases hj
  rfl

theorem Holds.findRecord (h : Holds i r s) : findRecord s r.number = some r := by
  cases hf : Machine.findRecord s r.number with
  | none => exact absurd (List.find?_eq_none.1 hf r h.resident) (by simp)
  | some q =>
    obtain ⟨hq, hn⟩ := findRecord_mem hf
    rw [h.only hq hn]

theorem Holds.slotOf (h : Holds i r s) : slotOf s r.number = some i := by
  obtain ⟨hlt, hget⟩ := List.getElem?_eq_some_iff.1 h.slot
  refine List.findIdx?_eq_some_iff_getElem.2 ⟨hlt, ?_, fun j hj => ?_⟩
  · rw [hget]
    simp [RecordSlot.carries]
  · have hjl : j < s.table.slots.length := hj.trans hlt
    cases hx : s.table.slots[j] with
    | inUse q =>
      have hne : q.number ≠ r.number := fun e =>
        absurd (h.alone j q (by rw [List.getElem?_eq_getElem hjl, hx]) e) (Nat.ne_of_lt hj)
      simpa [RecordSlot.carries] using hne
    | _ => simp [RecordSlot.carries]

theorem Holds.touch (h : Holds i r s) : touchRecord r.number s = touchSlot i s := by
  unfold touchRecord
  rw [h.slotOf]

/-- The record changed in its slot. -/
theorem Holds.update (h : Holds i r s) {f : Record → Record} (hf : (f r).number = r.number) :
    Holds i (f r) (updateRecord r.number f s) := by
  refine ⟨?_, fun j q hj hn => ?_⟩
  · change (s.table.slots.map _)[i]? = _
    rw [List.getElem?_map, h.slot]
    simp [RecordSlot.mapRecord]
  · have hj' : (s.table.slots.map (RecordSlot.mapRecord r.number f))[j]? = some (.inUse q) := hj
    rw [List.getElem?_map, Option.map_eq_some_iff] at hj'
    obtain ⟨x, hx, he⟩ := hj'
    cases x with
    | inUse p =>
      simp only [RecordSlot.mapRecord, beq_iff_eq] at he
      split at he
      · next e => exact h.alone j p hx e
      · cases he
        exact h.alone j _ hx (hn.trans hf)
    | _ => cases he

/-- Another number's record changed. -/
theorem Holds.update_ne (h : Holds i r s) {m : Nat} {f : Record → Record} (hm : m ≠ r.number)
    (hf : ∀ q, (f q).number = q.number) : Holds i r (updateRecord m f s) := by
  refine ⟨?_, fun j q hj hn => ?_⟩
  · change (s.table.slots.map _)[i]? = _
    rw [List.getElem?_map, h.slot]
    simp [RecordSlot.mapRecord, Ne.symm hm]
  · have hj' : (s.table.slots.map (RecordSlot.mapRecord m f))[j]? = some (.inUse q) := hj
    rw [List.getElem?_map, Option.map_eq_some_iff] at hj'
    obtain ⟨x, hx, he⟩ := hj'
    cases x with
    | inUse p =>
      simp only [RecordSlot.mapRecord, beq_iff_eq] at he
      split at he
      · cases he
        exact h.alone j p hx ((hf p).symm.trans hn)
      · cases he
        exact h.alone j _ hx hn
    | _ => cases he

end

/-! ### Card work leaves a record that is not HELD and has no hand-off -/

/-- What a choice of card work keeps, the start of card work keeps. -/
theorem chooseWork_preserves {P : State → Prop}
    (h : ∀ c s, s.card.work = none → nextChoice s = some c → P s → P (takeChoice c s)) (fuel : Nat) {s : State}
    (hs : P s) : P (chooseWork fuel s) := by
  induction fuel generalizing s with
  | zero => exact hs
  | succ fuel ih =>
    unfold chooseWork
    split
    · next c hw hc => exact ih (h c s hw hc hs)
    · exact hs

theorem startCardWork_preserves {P : State → Prop}
    (h : ∀ c s, s.card.work = none → nextChoice s = some c → P s → P (takeChoice c s)) (hkick : ∀ s, P s → P (kick s))
    {s : State} (hs : P s) : P (startCardWork s) := by
  unfold startCardWork
  split
  · exact hkick _ (chooseWork_preserves h _ hs)
  · exact hs

/-- A record that no card work is for: not HELD, and with no hand-off. -/
structure Rests (i : Nat) (r : Record) (s : State) : Prop where
  holds : Holds i r s
  life : r.life ≠ .held
  unlisted : ∀ h ∈ s.card.handoffs, h.shot ≠ r.number

section
variable {i : Nat} {r : Record} {s t : State}

theorem Rests.of_same (h : Rests i r s) (hslots : t.table.slots = s.table.slots) (hcard : t.card.handoffs = s.card.handoffs) :
    Rests i r t := ⟨h.holds.of_slots hslots, h.life, by rw [hcard]; exact h.unlisted⟩

theorem Rests.allocationFailed (h : Rests i r s) (n : Nat) : Rests i r (allocationFailed n s) := by
  refine h.of_same (by rw [allocationFailed_table]) ?_
  unfold Machine.allocationFailed
  dsimp only
  split <;> rfl

theorem mem_updateHandoff {h : Handoff} {f : Handoff → Handoff} {s : State} (hf : ∀ h, (f h).shot = h.shot) {x : Handoff}
    (hx : x ∈ (updateHandoff h f s).card.handoffs) : ∃ y ∈ s.card.handoffs, x.shot = y.shot := by
  obtain ⟨y, hy, rfl⟩ := List.mem_map.1 hx
  refine ⟨y, hy, ?_⟩
  split
  · exact hf y
  · rfl

theorem Rests.updateHandoff (h : Rests i r s) (x : Handoff) {f : Handoff → Handoff} (hf : ∀ h, (f h).shot = h.shot) :
    Rests i r (updateHandoff x f s) := by
  refine ⟨h.holds.of_slots rfl, h.life, fun y hy => ?_⟩
  obtain ⟨z, hz, e⟩ := mem_updateHandoff hf hy
  rw [e]
  exact h.unlisted z hz

theorem Rests.update_ne (h : Rests i r s) {m : Nat} {f : Record → Record} (hm : m ≠ r.number)
    (hf : ∀ q, (f q).number = q.number) : Rests i r (updateRecord m f s) :=
  ⟨h.holds.update_ne hm hf, h.life, h.unlisted⟩

/-- The shot of a raw write is HELD. -/
theorem nextRaw_ne (h : Rests i r s) {q : Record} (hq : nextRaw s = some q) : q.number ≠ r.number := by
  unfold nextRaw at hq
  obtain ⟨n, hn, hf⟩ := Option.bind_eq_some_iff.1 hq
  obtain ⟨p, hp, he, hpn⟩ := mem_shotsWhere.1 (List.mem_of_mem_head? hn)
  have hlife : p.life = .held := by
    simp only [rawEligible, Bool.and_eq_true, beq_iff_eq] at he
    obtain ⟨⟨⟨⟨⟨hl, _⟩, _⟩, _⟩, _⟩, _⟩ := he
    exact hl
  obtain ⟨_, rfl⟩ := findRecord_mem hf
  intro e
  rw [h.holds.only hp (hpn.trans e)] at hlife
  exact h.life hlife

theorem Rests.takeChoice (h : Rests i r s) {c : Choice} (hc : nextChoice s = some c) : Rests i r (takeChoice c s) := by
  cases c with
  | read q => cases q <;> exact h.of_same rfl rfl
  | entry e => cases e <;> exact h.of_same rfl rfl
  | dirty n => exact h.of_same rfl rfl
  | developed x =>
    have hx : x.shot ≠ r.number := h.unlisted x (nextChoice_developed hc)
    simp only [Machine.takeChoice, startDeveloped]
    split
    · exact (h.updateHandoff x (f := fun x => { x with marked := true }) fun _ => rfl).allocationFailed _
    · have hwrite := h.updateHandoff x (f := fun x => { x with writing := true }) fun _ => rfl
      exact (hwrite.update_ne (f := fun q => { q with devPending := some x.key }) hx fun _ => rfl).of_same rfl rfl
  | raw q =>
    have hq : q.number ≠ r.number := nextRaw_ne h (nextChoice_raw hc)
    simp only [Machine.takeChoice, startRaw]
    split
    · next runs left _ _ _ =>
      have hup := h.update_ne (f := fun q =>
        { q with rawRuns := runs, rawCard := .writing, rawSize := (s.seq.columns, s.seq.rows) }) hq fun _ => rfl
      exact hup.of_same rfl rfl
    · exact (h.of_same (t := { s with card := { s.card with marks := s.card.marks ++ [q.number] } }) rfl rfl).allocationFailed _

theorem Rests.startCardWork (h : Rests i r s) : Rests i r (startCardWork s) :=
  startCardWork_preserves (fun _ _ _ hc hs => hs.takeChoice hc)
    (fun u hu => hu.of_same (by simp) (by unfold kick; split <;> rfl)) h

theorem attemptDispatch_handoffs (s : State) : (attemptDispatch s).card.handoffs = s.card.handoffs := by
  have hjob : ∀ j r, (dispatchJob j r s).card.handoffs = s.card.handoffs := by
    intro j r
    have hcard : ∀ (x y slot : Option Nat) (u : State),
        ((slot.map fillSlot).getD id (claimPlane x .devFetch (claimPlane y .devOutput u))).card = u.card := by
      intro x y slot u
      cases slot <;> simp
    unfold dispatchJob
    dsimp only
    split
    · simp [joinReads, hcard]
    · simp [hcard]
  unfold attemptDispatch
  repeat' split
  · rfl
  · rfl
  · exact hjob _ _
  · simp

theorem Rests.serveBlocks (h : Rests i r s) : Rests i r (serveBlocks s) := by
  unfold Machine.serveBlocks
  have hclaims : Rests i r (attemptDispatch (serveDarkClaim s)) :=
    h.of_same (by simp) ((attemptDispatch_handoffs _).trans (by simp))
  exact hclaims.startCardWork.of_same (by simp) (by simp)

end

end Sys2Proof.ShotTable
end

section
/-! Shot table: what a load that completes makes of its record and of the requests that waited (R20, R21). -/

namespace Sys2Proof.ShotTable
open Sys2Proof.Machine

/-! ### The record of a good entry -/

theorem readRuns_from (b : List Byte) (base count : Nat) : RunsFrom b base count (readRuns b base count) := by
  unfold readRuns
  refine ⟨by simp, fun i hi => ?_⟩
  rw [List.getElem?_map, List.getElem?_range hi]
  rfl

theorem readExposure_from (b : List Byte) (i : Nat) : ExposureFrom b i (readExposure b i) := by
  refine ⟨rfl, fun h => if_pos h, fun h => ?_, ?_, fun h => ?_, fun h => ?_, fun h => ?_, fun h => ?_, fun h h' => ?_,
    fun o d ho hd => ?_, fun h => ?_, fun h => ?_⟩
  · exact if_neg (by omega)
  · exact decide_eq_true_iff
  · constructor <;> simp [readExposure, h, TimeSource.decode]
  · simp only [readExposure, h, TimeSource.decode]
  · simp only [readExposure, h, TimeSource.decode]
  · simp only [readExposure, h, TimeSource.decode]
  · have hcases : field b (64 + 14 * i + 12) 1 = 1 ∨ field b (64 + 14 * i + 12) 1 = 2 ∨ field b (64 + 14 * i + 12) 1 = 3 := by
      omega
    rcases hcases with h | h | h <;> simp only [readExposure, h, TimeSource.decode] <;> rfl
  · change (readExposure b i).openTime.bind (fun o => (readExposure b i).duration.map fun d => o + BitVec.ofNat 48 d) = _
    rw [ho, hd]
    rfl
  · exact ⟨if_pos h, if_pos h⟩
  · exact ⟨if_neg h, if_neg h⟩

theorem entryDevFile_from (b : List Byte) : (field b 38 1 = 0 → entryDevFile b = none) ∧
    (field b 38 1 ≠ 0 → ∃ f, entryDevFile b = some f ∧ RunsFrom b 240 (field b 38 1) f.runs ∧
      f.key = { recipe := field b 39 1, generation := BitVec.ofNat 16 (field b 40 2) }) := by
  unfold entryDevFile
  refine ⟨fun h => if_pos h, fun h => ?_⟩
  rw [if_neg h]
  exact ⟨_, rfl, readRuns_from b 240 _, rfl⟩

theorem loadedRecord_from (b : List Byte) (slot : Nat) : LoadedFrom b slot (loadedRecord b slot) := by
  obtain ⟨hnone, hsome⟩ := entryDevFile_from b
  refine ⟨rfl, rfl, rfl, rfl, rfl, rfl, fun h => if_pos (by omega), fun h => if_neg (by omega), ?_, fun i hi => ?_, rfl, rfl,
    rfl, ?_, fun h => ?_, fun h => ?_, fun h => ?_, rfl, rfl, rfl, readRuns_from b 176 _, hnone, hsome, rfl, rfl, rfl, rfl⟩
  · simp [loadedRecord]
  · refine ⟨readExposure b i, ?_, readExposure_from b i⟩
    simp only [loadedRecord]
    rw [List.getElem?_map, List.getElem?_range hi]
    rfl
  · simp [loadedRecord]
  · simp only [loadedRecord, h, readOutcome]
  · simp only [loadedRecord, h, readOutcome]
  · simp only [loadedRecord, h, readOutcome]

/-! ### The slot of a load -/

/-- A slot is LOADING for a number, and no other slot has the number. -/
structure LoadsAt (i n : Nat) (ws : List LoadWaiter) (s : State) : Prop where
  slot : s.table.slots[i]? = some (.loading n ws)
  alone : ∀ j, j ≠ i → (∀ ws', s.table.slots[j]? ≠ some (RecordSlot.loading n ws')) ∧
    ∀ r, s.table.slots[j]? = some (RecordSlot.inUse r) → r.number ≠ n

section
variable {i n : Nat} {ws : List LoadWaiter} {s : State}

theorem LoadsAt.of_slots (h : LoadsAt i n ws s) {t : State} (ht : t.table.slots = s.table.slots) : LoadsAt i n ws t := by
  refine ⟨by rw [ht]; exact h.slot, ?_⟩
  rw [ht]
  exact h.alone

theorem LoadsAt.loadingFor (h : LoadsAt i n ws s) : loadingFor s n = true := loadingFor_of_slot h.slot

theorem LoadsAt.findIdx (h : LoadsAt i n ws s) : s.table.slots.findIdx? (RecordSlot.loads n) = some i := by
  obtain ⟨hlt, hget⟩ := List.getElem?_eq_some_iff.1 h.slot
  refine List.findIdx?_eq_some_iff_getElem.2 ⟨hlt, by rw [hget]; simp [RecordSlot.loads], fun j hj => ?_⟩
  have hjl : j < s.table.slots.length := hj.trans hlt
  cases hx : s.table.slots[j] with
  | loading m ws' =>
    have hne : m ≠ n := fun e => by
      refine (h.alone j (Nat.ne_of_lt hj)).1 ws' ?_
      rw [List.getElem?_eq_getElem hjl, hx, e]
    simpa [RecordSlot.loads] using hne
  | _ => simp [RecordSlot.loads]

/-- The waiting requests of the loads of a number among slots. -/
def waitersIn (n : Nat) (l : List RecordSlot) : List LoadWaiter :=
  l.flatMap fun
    | .loading m ws => if m = n then ws else []
    | _ => []

theorem waitersIn_cons (n : Nat) (x : RecordSlot) (l : List RecordSlot) :
    waitersIn n (x :: l) = waitersIn n [x] ++ waitersIn n l := List.flatMap_append (xs := [x])

theorem LoadsAt.waiters (h : LoadsAt i n ws s) : waitersOf s n = ws := by
  have hnone : ∀ l : List RecordSlot, (∀ x ∈ l, ∀ ws', x ≠ .loading n ws') → waitersIn n l = [] := fun l hl => by
    refine List.flatMap_eq_nil_iff.2 fun x hx => ?_
    cases x with
    | loading m ws' => exact if_neg fun e => hl _ hx ws' (by rw [e])
    | _ => rfl
  have key : ∀ (l : List RecordSlot) (i : Nat), l[i]? = some (.loading n ws) →
      (∀ j, j ≠ i → ∀ ws', l[j]? ≠ some (RecordSlot.loading n ws')) → waitersIn n l = ws := by
    intro l
    induction l with
    | nil => nofun
    | cons x l ih =>
      intro i hi ho
      rw [waitersIn_cons]
      cases i with
      | zero =>
        cases hi
        rw [hnone l fun x hx ws' e => ?_, List.append_nil]
        · unfold waitersIn
          simp
        · obtain ⟨j, hj, hx⟩ := List.getElem_of_mem hx
          exact ho (j + 1) (Nat.succ_ne_zero j) ws' (by rw [List.getElem?_cons_succ, List.getElem?_eq_getElem hj, hx, e])
      | succ i =>
        have hx : waitersIn n [x] = [] := hnone _ fun x' hx' ws' e => by
          rw [List.mem_singleton.1 hx'] at e
          exact ho 0 (Nat.succ_ne_zero i).symm ws' (by rw [List.getElem?_cons_zero, e])
        rw [hx, List.nil_append]
        exact ih i hi fun j hj => ho (j + 1) fun e => hj (Nat.succ.inj e)
  exact key _ i h.slot fun j hj => (h.alone j hj).1

/-- The slot in use for a record of the number. -/
theorem LoadsAt.filled (h : LoadsAt i n ws s) {y : Record} (hy : y.number = n) : Holds i y (setSlot i (.inUse y) s) := by
  have hlt := (List.getElem?_eq_some_iff.1 h.slot).1
  refine ⟨List.getElem?_set_self hlt, fun j q hj hn => ?_⟩
  by_contra hji
  have hj' : (s.table.slots.set i (.inUse y))[j]? = some (.inUse q) := hj
  rw [List.getElem?_set_ne (Ne.symm hji)] at hj'
  exact (h.alone j hji).2 q hj' (hn.trans hy)

theorem answered_answerAll {tags : List Nat} {c : ResultCode} {tag : Nat} (h : tag ∈ tags) (s : State) :
    Answered (answerAll tags c s) tag c .empty := by
  obtain ⟨l, l', rfl⟩ := List.append_of_mem h
  unfold answerAll
  rw [List.foldl_append, List.foldl_cons]
  exact (continues_answerAll l' c _).subset (answered_answer tag c .empty _)

theorem LoadsAt.failLoad (h : LoadsAt i n ws s) (c : ResultCode) :
    failLoad c s n = answerAll (ws.map (·.tag)) c (setSlot i .free s) := by
  unfold Machine.failLoad
  rw [h.findIdx]
  dsimp only
  rw [List.getD_eq_getElem?_getD, h.slot, Option.getD_some]

end

/-! ### Lookups that waited -/

/-- A state but for the use order and the Link Port. -/
def withUse (order : List Nat) (link : Link) (s : State) : State :=
  { s with table := { s.table with useOrder := order }, link := link }

section
variable {i : Nat} {y : Record}

theorem Holds.lookup {s : State} (h : Holds i y s) {w : LoadWaiter} (hw : w.request = .lookup) :
    proceed y.number s w = withUse (s.table.useOrder.filter (· != i) ++ [i])
      (answer w.tag .ok (.shot (shotView s y)) s).link s := by
  unfold proceed
  rw [h.findRecord]
  dsimp only
  rw [hw]
  change touchRecord y.number (answer w.tag .ok (.shot (shotView s y)) s) = _
  rw [(h.of_slots (t := answer w.tag .ok (.shot (shotView s y)) s) rfl).touch]
  rfl

/-- Lookups that waited are answered alike, and the record is most recently used. -/
theorem lookups_fold {ws : List LoadWaiter} (hw : ∀ w ∈ ws, w.request = .lookup) {s : State} (h : Holds i y s)
    (hlast : s.table.useOrder.getLast? = some i) : ∃ order link, ws.foldl (proceed y.number) s = withUse order link s ∧
      order.getLast? = some i ∧ s.link.queue <+: link.queue ∧
      ∀ w ∈ ws, ({ tag := w.tag, result := .ok, payload := .shot (shotView s y) } : Answer) ∈ link.queue := by
  induction ws generalizing s with
  | nil => exact ⟨_, _, rfl, hlast, List.prefix_refl _, nofun⟩
  | cons w ws ih =>
    rw [List.foldl_cons, h.lookup (hw w List.mem_cons_self)]
    obtain ⟨order, link, he, ho, hq, ha⟩ := ih (fun w' hw' => hw w' (List.mem_cons_of_mem _ hw'))
      (s := withUse (s.table.useOrder.filter (· != i) ++ [i]) (answer w.tag .ok (.shot (shotView s y)) s).link s)
      (h.of_slots rfl) (by simp [withUse])
    have hfirst : ({ tag := w.tag, result := .ok, payload := .shot (shotView s y) } : Answer) ∈ link.queue :=
      hq.subset (answered_answer w.tag .ok (.shot (shotView s y)) s)
    refine ⟨order, link, he, ho, (continues_answer w.tag .ok (.shot (shotView s y)) s).trans hq, fun w' hw' => ?_⟩
    rcases List.mem_cons.1 hw' with rfl | hw'
    · exact hfirst
    · exact ha w' hw'

end

/-! ### An amendment that waited -/

theorem amendChanges_iff (o : AmendOperands) (r : Record) : amendChanges o r = true ↔ ¬ AmendKeeps o r := by
  have hany : ∀ {α : Type} {q : Option α} {p : α → Bool} {K : α → Prop}, (∀ v, p v = true ↔ ¬ K v) →
      (q.any p = true ↔ ¬ ∀ v, q = some v → K v) := by
    intro α q p K hp
    cases q with
    | none => simp
    | some v => simp [hp]
  have hrating := hany (q := o.rating) (p := (· != r.rating)) (K := fun v => v = r.rating) (by simp)
  have hprotect := hany (q := o.protect) (p := fun p => (p == 1) != r.protect) (K := fun v => v = 1 ↔ r.protect = true)
    (by intro v; cases r.protect <;> simp)
  have hrecipe := hany (q := o.recipe) (p := (· != r.recipe)) (K := fun v => v = r.recipe) (by simp)
  unfold amendChanges AmendKeeps
  rw [Bool.or_eq_true, Bool.or_eq_true, hrating, hprotect, hrecipe]
  tauto

/-- The record after an accepted amendment (R164). -/
def amendedRecord (o : AmendOperands) (r : Record) : Record :=
  { amendRecord o r with dirty := r.dirty || amendChanges o r }

section
variable {i : Nat} {y : Record} {s : State}

theorem giveUpDark_settled (h : Holds i y s) (hl : ¬ Waits y.darkLink) : giveUpDark y.number s = s := by
  unfold giveUpDark
  rw [h.findRecord, Option.map_some]
  split
  · next e => exact absurd (.inl (Option.some.inj e)) hl
  · next e he => exact absurd (.inr ⟨e, Option.some.inj he⟩) hl
  · rfl

/-- An amendment of a record that is ON_CARD: what it leaves (R164). -/
theorem applyAmend_onCard (h : Holds i y s) (hcard : y.rawCard = .onCard) (hl : ¬ Waits y.darkLink) (o : AmendOperands) :
    Holds i (amendedRecord o y) (applyAmend y o s) ∧
    ((amendedRecord o y).dirty = true → ∃ a ∈ (applyAmend y o s).table.amended, a.shot = y.number) := by
  have hdirties : dirties s y = true := by
    unfold dirties
    rw [hcard]
  have hwaive : ∀ {r : Record} {u : State}, Holds i r u → r.number = y.number → ¬ Waits r.darkLink →
      (if o.waiveDark = true then giveUpDark y.number u else u) = u := by
    intro r u hu hn hl
    rw [← hn, giveUpDark_settled hu hl, ite_self]
  have hup : Holds i (amendRecord o y) (updateRecord y.number (amendRecord o) s) := h.update rfl
  unfold applyAmend
  dsimp only
  rw [hdirties, Bool.and_true]
  cases hd : (y.dirty || amendChanges o y) with
  | false =>
    have hsame : amendedRecord o y = amendRecord o y := by
      unfold amendedRecord
      rw [hd, ← (Bool.or_eq_false_iff.1 hd).1]
      rfl
    rw [if_neg Bool.false_ne_true, hwaive hup rfl hl, hsame]
    refine ⟨hup, fun hdirty => ?_⟩
    rw [← hsame] at hdirty
    exact absurd (hd.symm.trans hdirty) Bool.false_ne_true
  | true =>
    have hmark : Holds i (amendedRecord o y) (makeDirty y.number (updateRecord y.number (amendRecord o) s)) := by
      have hsame : amendedRecord o y = { amendRecord o y with dirty := true } := by
        unfold amendedRecord
        rw [hd]
      rw [hsame]
      exact (hup.update (f := fun r => { r with dirty := true }) rfl).of_slots rfl
    rw [if_pos rfl, hwaive hmark rfl hl]
    exact ⟨hmark, fun _ => ⟨_, List.mem_append_right _ (List.mem_singleton.2 rfl), rfl⟩⟩

end

theorem writeProtected_iff (s : State) : writeProtected s = true ↔ ProtectedCard s := by
  unfold writeProtected ProtectedCard
  cases s.card.identity <;> simp

section
variable {i : Nat} {y : Record} {s : State}

theorem amendRefusal_onCard (hlife : y.life = .settled) (hcard : y.rawCard = .onCard) (o : AmendOperands) :
    (ProtectedCard s → ¬ AmendKeeps o y → amendRefusal s y o = some .cardReadOnly) ∧
    ((¬ ProtectedCard s ∨ AmendKeeps o y) → amendRefusal s y o = none) := by
  unfold amendRefusal
  rw [if_neg (by rw [hlife]; nofun), if_neg (by rw [hlife]; exact fun h => nomatch h.1)]
  refine ⟨fun hp hk => if_pos ⟨hcard, (writeProtected_iff s).2 hp, (amendChanges_iff o y).2 hk⟩, fun h => if_neg ?_⟩
  rintro ⟨_, hp, hk⟩
  rcases h with h | h
  · exact h ((writeProtected_iff s).1 hp)
  · exact (amendChanges_iff o y).1 hk h

theorem Holds.amendRefused (h : Holds i y s) {tag : Nat} {o : AmendOperands} {c : ResultCode}
    (hc : amendRefusal (touchSlot i s) y o = some c) :
    proceed y.number s { tag, request := .amend o } = answerCode tag c (touchSlot i s) := by
  unfold proceed
  rw [h.findRecord]
  change amendResident tag y o s = _
  unfold amendResident
  dsimp only
  rw [h.touch, hc]

theorem Holds.amendAccepted (h : Holds i y s) (hcard : y.rawCard = .onCard) (hl : ¬ Waits y.darkLink) {tag : Nat}
    {o : AmendOperands} (hc : amendRefusal (touchSlot i s) y o = none) :
    proceed y.number s { tag, request := .amend o } =
      answer tag .ok (.amended (amendReport (applyAmend y o (touchSlot i s)) (amendedRecord o y)))
        (applyAmend y o (touchSlot i s)) := by
  have hafter : Machine.findRecord (applyAmend y o (touchSlot i s)) y.number = some (amendedRecord o y) :=
    (applyAmend_onCard (h.of_slots (t := touchSlot i s) rfl) hcard hl o).1.findRecord
  unfold proceed
  rw [h.findRecord]
  change amendResident tag y o s = _
  unfold amendResident
  dsimp only
  rw [h.touch, hc]
  dsimp only
  rw [hafter]

end

/-! ### A retirement that waited -/

section
variable {i : Nat} {z : Record} {s : State}

theorem Holds.linkShot (h : Holds i z s) (hl : ¬ Waits z.darkLink) {e n : Nat} (hw : ShotWaits s n) :
    Holds i z (linkShot e s n) := by
  have hne : n ≠ z.number := by
    rintro rfl
    obtain ⟨r, hr, hn, hwr⟩ := hw
    rw [h.only hr hn] at hwr
    exact hl hwr
  have hslots : (Machine.linkShot e s n).table.slots =
      (updateRecord n (fun r => { r with darkLink := .linked e }) s).table.slots := by rw [linkShot_table]
  have hup := h.update_ne (f := fun r => { r with darkLink := .linked e }) hne fun _ => rfl
  exact hup.of_slots hslots

theorem Holds.matchingPass (h : Holds i z s) (hl : ¬ Waits z.darkLink) : Holds i z (matchingPass s) :=
  matchingPass_preserves (P := Holds i z) (fun _ _ _ hs hw => hs.linkShot hl hw) (fun _ _ _ hs _ => hs.of_slots (by simp)) h

theorem Holds.requestEnded (h : Holds i z s) (hl : ¬ Waits z.darkLink) (e : Nat) : Holds i z (requestEnded e s) := by
  unfold Machine.requestEnded
  split
  · exact (h.of_slots (t := freeEntry e s) (by simp)).matchingPass hl
  · exact h

theorem Holds.removeJobs (h : Holds i z s) (hl : z.life ≠ .held) (c : ResultCode) : Holds i z (removeJobs z.number c s) := by
  have hsettle : ∀ u : State, Holds i z u → settle z.number u = u := by
    intro u hu
    unfold settle
    rw [hu.findRecord]
    exact if_neg fun hc => hl hc.1
  unfold Machine.removeJobs
  dsimp only
  split
  · have hdrop : Holds i z (abandonFetch (dropHolds s)) := h.of_slots (by simp)
    rw [hsettle _ hdrop]
    exact hdrop.of_slots (by simp)
  · exact h.of_slots (by simp)

theorem Holds.leaveDarkUnit (h : Holds i z s) (hl : ¬ Waits z.darkLink) {link : DarkLink} (hlink : ¬ Waits link) (n : Nat) :
    Holds i z (leaveDarkUnit n link s) := by
  have hpau : Holds i z (abandonPau n s) := h.of_slots (by simp)
  have hread : ∀ read : Option Nat, Holds i z (match read with
      | none => abandonPau n s
      | some e => Machine.requestEnded e (abandonPau n s)) := by
    rintro (_ | e)
    · exact hpau
    · exact hpau.requestEnded hl e
  unfold Machine.leaveDarkUnit
  dsimp only
  cases link with
  | linked e => exact absurd (.inr ⟨e, rfl⟩) hlink
  | _ => exact hread _

/-- The record that retires, in its slot, when the blocks have let go of it (R167). -/
theorem Holds.takeFromBlocks (h : Holds i z s) (hlife : z.life ≠ .held) (hl : ¬ Waits z.darkLink) {r : Record}
    (hn : r.number = z.number) (hlink : ¬ Waits r.darkLink) : Holds i z (takeFromBlocks r s) := by
  have hunit := (h.removeJobs hlife .abandoned).leaveDarkUnit hl hlink z.number
  unfold Machine.takeFromBlocks
  dsimp only
  rw [hn]
  exact hunit.of_slots (by simp [leaveAmended])

/-- An accepted retirement of a record that is ON_CARD leaves it RETIRING, with its EMPTY write waiting (R167, R168). -/
theorem Holds.acceptRetire {y : Record} (h : Holds i y s) (hcard : y.rawCard = .onCard) (hl : ¬ Waits y.darkLink)
    (tag : Nat) : Holds i (Record.retire tag y) (acceptRetire tag y s) ∧
    .empty y.number (y.catSlot.getD 0) ∈ (acceptRetire tag y s).card.entries := by
  have hlink : ¬ Waits (Record.retire tag y).darkLink := retired_not_waits y.darkLink
  have hup : Holds i (Record.retire tag y) (updateRecord y.number (Record.retire tag) s) := h.update rfl
  have hblocks := hup.takeFromBlocks nofun hlink (r := y) rfl hl
  unfold Machine.acceptRetire continueRetirement
  dsimp only
  rw [hcard]
  exact ⟨hblocks.of_slots rfl, List.mem_append_right _ (List.mem_singleton.2 rfl)⟩

theorem Holds.retireRefused {y : Record} (h : Holds i y s) (hp : y.protect = true) (tag : Nat) :
    proceed y.number s { tag, request := .retire } = answerCode tag .protectedShot (touchSlot i s) := by
  unfold proceed
  rw [h.findRecord]
  change retireResident tag y s = _
  unfold retireResident retireRefusal
  dsimp only
  rw [h.touch, if_pos hp]

theorem Holds.retireAccepted {y : Record} (h : Holds i y s) (hp : y.protect = false) (hlife : y.life = .settled)
    (hw : ¬ ProtectedCard s) (hf : s.card.state ≠ .faulted) (tag : Nat) :
    proceed y.number s { tag, request := .retire } = Machine.acceptRetire tag y (touchSlot i s) := by
  unfold proceed
  rw [h.findRecord]
  change retireResident tag y s = _
  unfold retireResident retireRefusal
  dsimp only
  rw [h.touch, if_neg (by rw [hp]; nofun), if_neg (by rw [hlife]; rintro (h | h) <;> cases h),
    if_neg (fun hc => hw ((writeProtected_iff _).1 hc.2)), if_neg (fun hc => hf hc.2)]

end

/-! ### The EMPTY write that waits -/

/-- The EMPTY write of a retirement waits or is in flight (R168). -/
def EmptyStands (n slot : Nat) (s : State) : Prop :=
  .empty n slot ∈ s.card.entries ∨ s.card.work = some (.emptyWrite n slot)

section
variable {n slot : Nat} {s t : State}

theorem EmptyStands.of_card (h : EmptyStands n slot s) (he : t.card.entries = s.card.entries)
    (hw : t.card.work = s.card.work) : EmptyStands n slot t := by
  unfold EmptyStands
  rw [he, hw]
  exact h

theorem allocationFailed_entries (m : Nat) (s : State) : (allocationFailed m s).card.entries = s.card.entries := by
  unfold allocationFailed
  dsimp only
  split <;> rfl

theorem EmptyStands.takeChoice (h : EmptyStands n slot s) (hwork : s.card.work = none) {c : Choice}
    (hc : nextChoice s = some c) : EmptyStands n slot (takeChoice c s) := by
  have hmem : .empty n slot ∈ s.card.entries := h.resolve_right (by rw [hwork]; nofun)
  cases c with
  | read q => cases q <;> exact .inl hmem
  | dirty m => exact .inl hmem
  | developed x =>
    refine .inl ?_
    simp only [Machine.takeChoice, startDeveloped]
    split
    · rw [allocationFailed_entries]
      exact hmem
    · exact hmem
  | raw q =>
    refine .inl ?_
    simp only [Machine.takeChoice, startRaw]
    split
    · exact hmem
    · rw [allocationFailed_entries]
      exact hmem
  | entry e =>
    obtain ⟨_, ⟨⟩, _⟩ | ⟨_, ⟨⟩, hhead⟩ | ⟨_, ⟨⟩, _⟩ | ⟨_, ⟨⟩, _⟩ | ⟨_, ⟨⟩, _⟩ := nextChoice_cases hc
    obtain ⟨l, hl⟩ := List.head?_eq_some_iff.1 hhead
    rw [hl] at hmem
    rcases List.mem_cons.1 hmem with rfl | htail
    · exact .inr rfl
    · have hstay : .empty n slot ∈ s.card.entries.tail := by
        rw [hl]
        exact htail
      cases e <;> exact .inl hstay

theorem EmptyStands.startCardWork (h : EmptyStands n slot s) : EmptyStands n slot (startCardWork s) := by
  refine startCardWork_preserves (fun c u hw hc hu => hu.takeChoice hw hc) (fun u hu => ?_) h
  unfold kick
  split <;> exact hu

theorem attemptDispatch_work (s : State) : (attemptDispatch s).card.entries = s.card.entries ∧
    (attemptDispatch s).card.work = s.card.work := by
  have hjob : ∀ j r, (dispatchJob j r s).card.entries = s.card.entries ∧ (dispatchJob j r s).card.work = s.card.work := by
    intro j r
    have hcard : ∀ (x y slot : Option Nat) (u : State),
        ((slot.map fillSlot).getD id (claimPlane x .devFetch (claimPlane y .devOutput u))).card = u.card := by
      intro x y slot u
      cases slot <;> simp
    unfold dispatchJob
    dsimp only
    split
    · simp [joinReads, hcard]
    · simp [hcard]
  unfold attemptDispatch
  repeat' split
  · exact ⟨rfl, rfl⟩
  · exact ⟨rfl, rfl⟩
  · exact hjob _ _
  · simp

theorem EmptyStands.serveBlocks (h : EmptyStands n slot s) : EmptyStands n slot (serveBlocks s) := by
  obtain ⟨he, hw⟩ := attemptDispatch_work (serveDarkClaim s)
  have hclaims : EmptyStands n slot (attemptDispatch (serveDarkClaim s)) :=
    h.of_card (he.trans (by simp)) (hw.trans (by simp))
  exact hclaims.startCardWork.of_card (by simp [Machine.serveBlocks]) (by simp [Machine.serveBlocks])

/-- While an EMPTY write waits or is in flight the drain is not complete (R157). -/
theorem EmptyStands.service (h : EmptyStands n slot s) : Machine.service s = Machine.serveBlocks s := by
  unfold Machine.service
  dsimp only
  refine if_neg fun hd => ?_
  simp only [drained, Bool.and_eq_true] at hd
  obtain ⟨⟨⟨⟨_, hwork⟩, _⟩, hentries⟩, _⟩ := hd
  rcases h.serveBlocks with hm | hm
  · rw [List.isEmpty_iff.1 hentries] at hm
    exact absurd hm List.not_mem_nil
  · rw [hm] at hwork
    cases hwork

end

end Sys2Proof.ShotTable
end

section
/-! Shot table: the commands of a read that its work outlives, and the fetch (R119). -/

namespace Sys2Proof.ShotTable
open Sys2Proof.Machine

/-- Nothing stops the work at an answer that OnBus speaks of. -/
theorem stopAtAnswer_onBus {s : State} (h : OnBus s) : stopAtAnswer s = none := by
  obtain ⟨_, hwait, hraw, hdev⟩ := h
  unfold stopAtAnswer
  rw [hwait]
  split
  · next hsome => exact nomatch hsome
  · next n d _ hw =>
    refine if_neg fun hr => ?_
    obtain ⟨r, hf, hl⟩ := Option.any_eq_true _ _ |>.1 hr
    exact hraw n d r hw hf (beq_iff_eq.1 hl)
  · next hh runs d _ hw => exact absurd hw (hdev hh runs d)
  · rfl

/-- An OK answer on the bus takes the work on. -/
theorem answeredOk_onBus {s : State} (h : OnBus s) (goOn : State → State) : answeredOk goOn s = goOn s := by
  obtain ⟨b, hb, ho⟩ := h.1
  unfold answeredOk
  rw [hb]
  dsimp only
  rw [ho, if_neg Bool.false_ne_true, stopAtAnswer_onBus h]

/-- An engine at work takes no job. -/
theorem serveBlocks_engine {s : State} (h : s.dev.engine ≠ .idle) : (serveBlocks s).dev.engine = s.dev.engine := by
  have hkeep : ∀ u : State, u.dev.engine ≠ .idle → (attemptDispatch u).dev.engine = u.dev.engine := by
    intro u hu
    have hno : mayDispatch u = false := by
      unfold mayDispatch
      rw [beq_false_of_ne hu]
      rfl
    unfold attemptDispatch
    rw [hno, if_neg Bool.false_ne_true]
    rfl
  have hclaim : (serveDarkClaim s).dev = s.dev := by simp
  unfold Machine.serveBlocks
  have hdone := hkeep (serveDarkClaim s) (by rw [hclaim]; exact h)
  simp [hdone]

/-- The state with the clusters of a fetch in its plane. -/
def fetched (p done clusters : Nat) (values : List (Nat × BitVec 32)) (s : State) : State :=
  { s with mem := loadClusters s.mem p (sensorArea s) done clusters values }

section
variable {n p done clusters : Nat} {runs : List Run} {values : List (Nat × BitVec 32)} {s : State}

theorem exec_fetchReadDone (h : OnBus s) (hw : s.card.work = some (.fetch n p runs done)) (hc : 0 < clusters)
    (hle : done + clusters ≤ (runs.map Run.length).sum) :
    exec (.fetchReadDone clusters values) s = .next (if done + clusters < (runs.map Run.length).sum then
      nextWork (.fetch n p runs (done + clusters)) (fetched p done clusters values s)
      else service (fetchDone (leaveReads (endWork (fetched p done clusters values s))))) := by
  change Host.Outcome.next (answeredOk _ s) = _
  rw [answeredOk_onBus h, hw]
  dsimp only
  have hlen : runsLength runs = (runs.map Run.length).sum := rfl
  rw [if_neg (by omega), hlen]
  rfl

/-- What a fetch read leaves of frame memory (R89). -/
theorem fetched_mem {t : State} (ht : t.mem = (fetched p done clusters values s).mem) :
    SameOutsidePlane p s t ∧ SameOutsideArea p s t := by
  refine ⟨fun a ha => ?_, fun a ha => ?_⟩
  · rw [ht]
    exact Memory.read_loadClusters p _ _ _ _ _ ha
  · rw [ht]
    rcases ha with ha | ha
    · exact Memory.read_loadClusters p _ _ _ _ _ (.inl ha)
    · exact Memory.read_loadClusters_beyond p _ _ _ _ _ ha

/-- A fetch fills its plane, and the engine develops when it is complete (R119). -/
theorem fetchReadDone_fills (h : OnBus s) (hw : s.card.work = some (.fetch n p runs done)) (hc : 0 < clusters)
    (hle : done + clusters ≤ (runs.map Run.length).sum) :
    ∃ t, exec (.fetchReadDone clusters values) s = .next t ∧ t.mem = (fetched p done clusters values s).mem ∧
      (done + clusters < (runs.map Run.length).sum →
        t.card.work = some (.fetch n p runs (done + clusters)) ∧ t.dev = s.dev) ∧
      (done + clusters = (runs.map Run.length).sum → s.card.state ≠ .ejecting → t.dev.engine =
        (if s.dev.readout then EngineState.suspended (.developing .demosaic) else .active (.developing .demosaic))) := by
  refine ⟨_, exec_fetchReadDone h hw hc hle, ?_⟩
  split
  · next hlt =>
    exact ⟨rfl, fun _ => ⟨rfl, rfl⟩, fun heq => absurd hlt (Nat.not_lt.2 heq.ge)⟩
  · next hnot =>
    refine ⟨by rw [(service_keeps _).2.2.2.2.2.2.2.2.1]; rfl, fun hlt => absurd hlt hnot, fun _ hej => ?_⟩
    have hready : (fetchDone (leaveReads (endWork (fetched p done clusters values s)))).dev.engine =
        (if s.dev.readout then EngineState.suspended (.developing .demosaic) else .active (.developing .demosaic)) := rfl
    have heq := service_eq (s := fetchDone (leaveReads (endWork (fetched p done clusters values s)))) hej
    rw [heq, serveBlocks_engine, hready]
    rw [hready]
    split <;> nofun

end

end Sys2Proof.ShotTable
end

section
/-! Shot table: a FREE slot stays FREE through what follows an event, the end of a drain included. -/

namespace Sys2Proof.ShotTable
open Sys2Proof.Machine

/-- A slot is FREE. -/
def FreeAt (i : Nat) (s : State) : Prop := s.table.slots[i]? = some .free

section
variable {i : Nat} {s t : State}

theorem FreeAt.of_slots (h : FreeAt i s) (ht : t.table.slots = s.table.slots) : FreeAt i t := by
  unfold FreeAt
  rw [ht]
  exact h

/-- A change of records leaves the FREE slots. -/
theorem FreeAt.of_map (h : FreeAt i s) {f : RecordSlot → RecordSlot} (hf : f .free = .free)
    (ht : t.table.slots = s.table.slots.map f) : FreeAt i t := by
  unfold FreeAt at *
  rw [ht, List.getElem?_map, h, Option.map_some, hf]

theorem FreeAt.updateRecord (h : FreeAt i s) (n : Nat) (f : Record → Record) : FreeAt i (updateRecord n f s) :=
  h.of_map rfl rfl

theorem FreeAt.serveBlocks (h : FreeAt i s) : FreeAt i (serveBlocks s) := by
  obtain ⟨y, hy, hk⟩ := slotsKept_slot (slotsKept_serveBlocks s) h
  rw [show y = .free from hk] at hy
  exact hy

theorem FreeAt.settle (h : FreeAt i s) (n : Nat) : FreeAt i (settle n s) := by
  unfold Machine.settle
  split
  · exact h
  · next r _ =>
    split
    · exact (h.of_slots (t := releasePlane r.rawPlane s) (by simp)).updateRecord n _
    · exact h

theorem FreeAt.removeRecord (h : FreeAt i s) (n : Nat) : FreeAt i (removeRecord n s) := by
  unfold Machine.removeRecord
  split
  · exact h
  · next j _ =>
    have hset : FreeAt i (setSlot j .free s) := by
      have hlt := (List.getElem?_eq_some_iff.1 h).1
      change (s.table.slots.set j .free)[i]? = _
      rw [List.getElem?_set]
      split
      · rw [if_pos (by omega)]
      · exact h
    exact hset.of_slots rfl

theorem FreeAt.removeJobs (h : FreeAt i s) (n : Nat) (c : ResultCode) : FreeAt i (removeJobs n c s) := by
  unfold Machine.removeJobs
  dsimp only
  split
  · exact ((h.of_slots (t := abandonFetch (dropHolds s)) (by simp)).settle n).of_slots (by simp)
  · exact h.of_slots (by simp)

theorem FreeAt.dropRecord (h : FreeAt i s) (n : Nat) : FreeAt i (dropRecord s n) :=
  ((h.removeJobs n .noCard).of_slots (t := freeHandoffs n (Machine.removeJobs n .noCard s)) (by simp)).removeRecord n

theorem FreeAt.dropSettled (h : FreeAt i s) : FreeAt i (dropSettled s) := by
  unfold Machine.dropSettled
  dsimp only
  have hfold := foldl_preserves (FreeAt i) Machine.dropRecord (fun _ n hu => hu.dropRecord n) (settledShots s) s h
  exact hfold.of_slots (by simp)

theorem FreeAt.returnHeld (h : FreeAt i s) : FreeAt i (returnHeld s) := h.of_map rfl rfl

theorem FreeAt.finishDrain (h : FreeAt i s) : FreeAt i (finishDrain s) := by
  have hempty : FreeAt i (emptyIndex (Machine.dropSettled (Machine.returnHeld s))) := h.returnHeld.dropSettled.of_slots rfl
  unfold Machine.finishDrain answerWaiting
  dsimp only
  split <;> exact hempty.of_slots rfl

theorem FreeAt.service (h : FreeAt i s) : FreeAt i (service s) := by
  unfold Machine.service
  dsimp only
  split
  · exact h.serveBlocks.finishDrain.serveBlocks
  · exact h.serveBlocks

end

end Sys2Proof.ShotTable
end

section
/-! Shot table: a load's read completes (R20, R21), and the card's reads as a whole (O46). -/

namespace Sys2Proof.ShotTable
open Sys2Proof.Machine

/-! ### The amendment list through the work that follows an event -/

/-- A shot is on the amendment list. -/
def OnAmended (n : Nat) (s : State) : Prop := ∃ a ∈ s.table.amended, a.shot = n

theorem OnAmended.of_table {n : Nat} {s t : State} (h : OnAmended n s) (ht : t.table.amended = s.table.amended) :
    OnAmended n t := by
  unfold OnAmended
  rw [ht]
  exact h

theorem OnAmended.markTaken {n : Nat} {s : State} (h : OnAmended n s) (m : Nat) : OnAmended n (markTaken m s) := by
  obtain ⟨a, ha, hn⟩ := h
  refine ⟨_, List.mem_map_of_mem ha, ?_⟩
  split <;> exact hn

theorem OnAmended.takeChoice {n : Nat} {s : State} (h : OnAmended n s) (c : Choice) : OnAmended n (takeChoice c s) := by
  cases c with
  | read q => cases q <;> exact h.of_table rfl
  | dirty m => exact (h.markTaken m).of_table rfl
  | entry e =>
    cases e with
    | live m k => exact OnAmended.markTaken (s := { s with card := { s.card with entries := s.card.entries.tail } }) h m
    | empty m k => exact h.of_table rfl
  | developed x =>
    simp only [Machine.takeChoice, startDeveloped]
    split
    · exact h.of_table (by rw [allocationFailed_table]; rfl)
    · exact h.of_table rfl
  | raw q =>
    simp only [Machine.takeChoice, startRaw]
    split
    · exact h.of_table rfl
    · exact h.of_table (by rw [allocationFailed_table])

theorem OnAmended.serveBlocks {n : Nat} {s : State} (h : OnAmended n s) : OnAmended n (serveBlocks s) := by
  have hclaims : OnAmended n (attemptDispatch (serveDarkClaim s)) := h.of_table (by simp)
  have hcard := startCardWork_preserves (P := OnAmended n) (fun c _ _ _ hu => hu.takeChoice c)
    (fun u hu => hu.of_table (by simp)) hclaims
  exact hcard.of_table (by simp [Machine.serveBlocks])

/-! ### The read of a load completes -/

/-- The read of a load has left the bus and the read queue. -/
def readEnded (s : State) : State := leaveReads (endWork s)

section
variable {n slot i : Nat} {ws : List LoadWaiter} {block : List Byte} {s : State}

theorem exec_loadReadDone (h : OnBus s) (hw : s.card.work = some (.load n slot)) :
    exec (.loadReadDone block) s = .next (service (loadDone n slot block (readEnded s))) := by
  change Host.Outcome.next (answeredOk _ s) = _
  rw [answeredOk_onBus h, hw]
  rfl

/-- The loaded record in its slot, most recently used. -/
def withLoaded (i slot : Nat) (block : List Byte) (s : State) : State :=
  touchSlot i (setSlot i (.inUse (loadedRecord block slot)) (readEnded s))

theorem withLoaded_keeps (i slot : Nat) (block : List Byte) (s : State) :
    (withLoaded i slot block s).card.state = s.card.state ∧
    (ProtectedCard (withLoaded i slot block s) ↔ ProtectedCard s) ∧
    (withLoaded i slot block s).recipes = s.recipes := by
  have hident : (withLoaded i slot block s).card.identity = s.card.identity := rfl
  refine ⟨rfl, ?_, by simp [withLoaded, readEnded, leaveReads, touchSlot]⟩
  unfold ProtectedCard
  rw [hident]

theorem indexEntry_isNone_iff : (indexEntry s n).isNone = true ↔ ∀ x ∈ s.card.index, x.shot ≠ n := by
  unfold indexEntry
  rw [Option.isNone_iff_eq_none, List.find?_eq_none]
  simp

/-- A good entry: the record is made and its requests proceed. -/
theorem loadDone_good (h : LoadsAt i n ws s) (hx : ∃ x ∈ s.card.index, x.shot = n) (hlive : entryLive block = true)
    (hn : entryShot block = n) :
    loadDone n slot block (readEnded s) = ws.foldl (proceed n) (withLoaded i slot block s) := by
  have hu : LoadsAt i n ws (readEnded s) := h.of_slots rfl
  have hentry : ¬ (indexEntry (readEnded s) n).isNone = true := by
    obtain ⟨x, hx, hxn⟩ := hx
    exact fun hno => indexEntry_isNone_iff.1 hno x hx hxn
  unfold loadDone
  rw [hu.loadingFor, if_neg nofun, if_neg hentry, hlive, hn, if_pos (by simp)]
  unfold completeLoad
  rw [hu.findIdx]
  dsimp only
  rw [hu.waiters]
  rfl

theorem loadDone_bad (h : LoadsAt i n ws s) (hx : ∃ x ∈ s.card.index, x.shot = n)
    (hbad : ¬ (entryLive block = true ∧ entryShot block = n)) :
    loadDone n slot block (readEnded s) = damageLoad n slot (readEnded s) := by
  have hu : LoadsAt i n ws (readEnded s) := h.of_slots rfl
  have hentry : ¬ (indexEntry (readEnded s) n).isNone = true := by
    obtain ⟨x, hx, hxn⟩ := hx
    exact fun hno => indexEntry_isNone_iff.1 hno x hx hxn
  unfold loadDone
  rw [hu.loadingFor, if_neg nofun, if_neg hentry, if_neg (by simpa using hbad)]

theorem loadDone_lost (h : LoadsAt i n ws s) (hx : ∀ x ∈ s.card.index, x.shot ≠ n) :
    loadDone n slot block (readEnded s) = failLoad .notFound (readEnded s) n := by
  have hu : LoadsAt i n ws (readEnded s) := h.of_slots rfl
  have hentry : (indexEntry (readEnded s) n).isNone = true := indexEntry_isNone_iff.2 hx
  unfold loadDone
  rw [hu.loadingFor, if_neg nofun, if_pos hentry]

/-- A load that fails frees its slot and answers its waiters. -/
theorem failLoad_frees (h : LoadsAt i n ws s) (c : ResultCode) : FreeAt i (failLoad c s n) ∧
    (∀ w ∈ ws, Answered (failLoad c s n) w.tag c .empty) ∧ (failLoad c s n).card = s.card := by
  have hlt := (List.getElem?_eq_some_iff.1 h.slot).1
  have hfree : FreeAt i (setSlot i .free s) := List.getElem?_set_self hlt
  rw [h.failLoad]
  exact ⟨hfree.of_slots (by simp), fun w hw => answered_answerAll (List.mem_map_of_mem hw) _, by simp⟩

/-- With a bad entry every waiter is answered CARD_ERROR (R20). -/
theorem load_bad (h : LoadsAt i n ws s) (hx : ∃ x ∈ s.card.index, x.shot = n)
    (hbad : ¬ (entryLive block = true ∧ entryShot block = n)) {t : State}
    (ht : t = service (loadDone n slot block (readEnded s))) :
    (∀ w ∈ ws, Answered t w.tag .cardError .empty) ∧
    (s.card.state ≠ .ejecting → t.table.slots[i]? = some .free ∧ slot ∈ t.card.damaged ∧
      ∀ x ∈ t.card.index, x.shot ≠ n) := by
  have hdamaged : LoadsAt i n ws { readEnded s with card := { (readEnded s).card with
      damaged := (readEnded s).card.damaged ++ [slot]
      index := (readEnded s).card.index.filter fun x => x.shot != n } } := h.of_slots rfl
  obtain ⟨hfree, hans, hcard⟩ := failLoad_frees hdamaged .cardError
  rw [loadDone_bad h hx hbad] at ht
  subst ht
  refine ⟨fun w hw => answered_service (hans w hw), fun hej => ?_⟩
  have hserve : service (damageLoad n slot (readEnded s)) = serveBlocks (damageLoad n slot (readEnded s)) :=
    service_eq (by rw [damageLoad, hcard]; exact hej)
  have hkept : CardKept (damageLoad n slot (readEnded s)) (serveBlocks (damageLoad n slot (readEnded s))) :=
    cardKept_serveBlocks _
  rw [hserve]
  refine ⟨hfree.serveBlocks, ?_, ?_⟩
  · rw [hkept, damageLoad, hcard]
    exact List.mem_append_right _ (List.mem_singleton.2 rfl)
  · rw [hkept, damageLoad, hcard]
    intro x hx
    simpa using (List.mem_filter.1 hx).2

/-- With the number lost from the index every waiter is answered NOT_FOUND (R20). -/
theorem load_lost (h : LoadsAt i n ws s) (hx : ∀ x ∈ s.card.index, x.shot ≠ n) {t : State}
    (ht : t = service (loadDone n slot block (readEnded s))) :
    (∀ w ∈ ws, Answered t w.tag .notFound .empty) ∧ t.table.slots[i]? = some .free := by
  obtain ⟨hfree, hans, _⟩ := failLoad_frees (s := readEnded s) (h.of_slots rfl) .notFound
  rw [loadDone_lost h hx] at ht
  subst ht
  exact ⟨fun w hw => answered_service (hans w hw), hfree.service⟩

/-- The loaded record rests in its slot: it is SETTLED, and no hand-off is its. -/
theorem rests_withLoaded (h : LoadsAt i n ws s) (hn : entryShot block = n) (hhand : ∀ h ∈ s.card.handoffs, h.shot ≠ n) :
    Rests i (loadedRecord block slot) (withLoaded i slot block s) := by
  have hu : LoadsAt i n ws (readEnded s) := h.of_slots rfl
  refine ⟨(hu.filled hn).of_slots rfl, nofun, ?_⟩
  change ∀ h ∈ s.card.handoffs, h.shot ≠ entryShot block
  rw [hn]
  exact hhand

theorem withLoaded_last : (withLoaded i slot block s).table.useOrder.getLast? = some i := by
  change (_ ++ [i]).getLast? = some i
  simp

/-- What is reported of a record (R25). -/
theorem reports_shotView {s u : State} (h : u.recipes = s.recipes) (r : Record) : Reports s r (shotView u r) := by
  refine ⟨rfl, rfl, rfl, rfl, rfl, rfl, rfl, rfl, rfl, ?_, rfl, rfl, rfl, rfl, rfl, rfl, rfl, rfl, rfl, rfl, rfl⟩
  rw [← h]
  rfl

/-- The lookups that waited are answered with the record (R20). -/
theorem load_lookups {y : Record} {u t : State} (hy : Rests i y u) (hlast : u.table.useOrder.getLast? = some i)
    (hw : ∀ w ∈ ws, w.request = .lookup) (ht : t = service (ws.foldl (proceed y.number) u)) :
    (∀ w ∈ ws, Answered t w.tag .ok (.shot (shotView u y))) ∧
    (u.card.state ≠ .ejecting → t.table.slots[i]? = some (.inUse y) ∧ t.table.useOrder.getLast? = some i) := by
  obtain ⟨order, link, he, ho, _, ha⟩ := lookups_fold hw hy.holds hlast
  rw [he] at ht
  subst ht
  refine ⟨fun w hw => answered_service (ha w hw), fun hej => ?_⟩
  have hserve : service (withUse order link u) = serveBlocks (withUse order link u) := service_eq hej
  have hrest : Rests i y (withUse order link u) := hy.of_same rfl rfl
  rw [hserve, serveBlocks_useOrder]
  exact ⟨hrest.serveBlocks.holds.slot, ho⟩

theorem applyAmend_handoffs (y : Record) (o : AmendOperands) (s : State) :
    (applyAmend y o s).card.handoffs = s.card.handoffs := by
  simp

/-- What the load of a good entry makes of a record that its requests turn on. -/
structure FromCard (y : Record) : Prop where
  life : y.life = .settled
  raw : y.rawCard = .onCard
  link : ¬ Waits y.darkLink
  clean : y.dirty = false

theorem fromCard_loadedRecord (block : List Byte) (slot : Nat) : FromCard (loadedRecord block slot) := by
  refine ⟨rfl, rfl, ?_, rfl⟩
  change ¬ Waits (readOutcome (field block 3 1))
  unfold readOutcome Waits
  split <;> simp

theorem amendedTo_amendedRecord (o : AmendOperands) (y : Record) :
    AmendedTo o y (amendedRecord o y).rating (amendedRecord o y).protect (amendedRecord o y).recipe := by
  have hprotect : (amendedRecord o y).protect = (o.protect.map (· == 1)).getD y.protect := rfl
  refine ⟨rfl, fun h => ?_, fun h => ?_, fun h => ?_, rfl⟩ <;> rw [hprotect, h] <;> rfl

/-- The amendment that waited is made, or refused by a protected card (R163, R164). -/
theorem load_amend {y : Record} {u t : State} (hy : Rests i y u) (hf : FromCard y) {tag : Nat} {o : AmendOperands}
    (ht : t = service (proceed y.number u { tag, request := .amend o })) :
    (ProtectedCard u → ¬ AmendKeeps o y → Answered t tag .cardReadOnly .empty ∧
      (u.card.state ≠ .ejecting → t.table.slots[i]? = some (.inUse y))) ∧
    ((¬ ProtectedCard u ∨ AmendKeeps o y) → ∃ v : AmendReport, Answered t tag .ok (.amended v) ∧
      v.number = y.number ∧ AmendedTo o y v.rating v.protect v.recipe ∧ v.darkLink = y.darkLink ∧
      v.key = { recipe := v.recipe, generation := (u.recipes.getD v.recipe .reset).generation } ∧
      (v.dirty = true ↔ ¬ AmendKeeps o y) ∧
      (u.card.state ≠ .ejecting → t.table.slots[i]? = some (.inUse
          { y with rating := v.rating, protect := v.protect, recipe := v.recipe, dirty := v.dirty }) ∧
        (v.dirty = true → ∃ a ∈ t.table.amended, a.shot = y.number))) := by
  have hused : Rests i y (touchSlot i u) := hy.of_same rfl rfl
  obtain ⟨hrefuse, haccept⟩ := amendRefusal_onCard (s := touchSlot i u) hf.life hf.raw o
  refine ⟨fun hp hk => ?_, fun hk => ?_⟩
  · rw [hy.holds.amendRefused (hrefuse hp hk)] at ht
    subst ht
    refine ⟨answered_service (answered_answer tag .cardReadOnly .empty _), fun hej => ?_⟩
    have hrest : Rests i y (answerCode tag .cardReadOnly (touchSlot i u)) := hused.of_same rfl rfl
    rw [service_eq (s := answerCode tag .cardReadOnly (touchSlot i u)) hej]
    exact hrest.serveBlocks.holds.slot
  · rw [hy.holds.amendAccepted hf.raw hf.link (haccept hk)] at ht
    obtain ⟨hholds, hlist⟩ := applyAmend_onCard hused.holds hf.raw hf.link o
    have hcard : (applyAmend y o (touchSlot i u)).card.handoffs = u.card.handoffs := by rw [applyAmend_handoffs]; rfl
    have hstate : (applyAmend y o (touchSlot i u)).card.state = u.card.state := by simp [touchSlot]
    have hrecipes : (applyAmend y o (touchSlot i u)).recipes = u.recipes := by simp [touchSlot]
    have hdirty : (amendedRecord o y).dirty = amendChanges o y := by
      change (y.dirty || amendChanges o y) = amendChanges o y
      rw [hf.clean, Bool.false_or]
    generalize applyAmend y o (touchSlot i u) = w at *
    subst ht
    refine ⟨amendReport w (amendedRecord o y), answered_service (answered_answer tag .ok _ _), rfl,
      amendedTo_amendedRecord o y, rfl, ?_, ?_, fun hej => ?_⟩
    · rw [← hrecipes]
      rfl
    · exact (iff_of_eq (congrArg (· = true) hdirty)).trans (amendChanges_iff o y)
    · have hrest : Rests i (amendedRecord o y) (answer tag .ok (.amended (amendReport w (amendedRecord o y))) w) :=
        ⟨hholds.of_slots rfl, hy.life, by rw [show (answer tag .ok _ w).card.handoffs = _ from hcard]; exact hy.unlisted⟩
      rw [service_eq (s := answer tag .ok (.amended (amendReport w (amendedRecord o y))) w) (by rw [← hstate] at hej; exact hej)]
      exact ⟨hrest.serveBlocks.holds.slot, fun hd => OnAmended.serveBlocks (hlist hd)⟩

/-- An amendment of a record of the card only adds to the response queue. -/
theorem continues_amend {y : Record} {u : State} (hy : Holds i y u) (hf : FromCard y) (tag : Nat) (o : AmendOperands) :
    Continues u (proceed y.number u { tag, request := .amend o }) := by
  have htouch : Continues u (touchSlot i u) := continues_of_link rfl
  cases hc : amendRefusal (touchSlot i u) y o with
  | some c =>
    rw [hy.amendRefused hc]
    exact htouch.trans (continues_answerCode _ _ _)
  | none =>
    rw [hy.amendAccepted hf.raw hf.link hc]
    exact (continues_keep htouch (by simp)).trans (continues_answer _ _ _ _)

/-- The three requests that waited: a retirement, a lookup and an amendment. -/
def retireLookupAmend (a b c : Nat) (o : AmendOperands) : List LoadWaiter :=
  [{ tag := a, request := .retire }, { tag := b, request := .lookup }, { tag := c, request := .amend o }]

/-- A protected record is not retired, and the lookup behind is answered with it (R166). -/
theorem load_retire_refused {y : Record} {u t : State} (hy : Rests i y u) (hf : FromCard y) {a b c : Nat} {o : AmendOperands}
    (hp : y.protect = true) (ht : t = service ((retireLookupAmend a b c o).foldl (proceed y.number) u)) :
    Answered t a .protectedShot .empty ∧ ∃ v : ShotView, Answered t b .ok (.shot v) ∧
      v = shotView (answerCode a .protectedShot (touchSlot i u)) y := by
  have hrefused : Holds i y (answerCode a .protectedShot (touchSlot i u)) := hy.holds.of_slots rfl
  simp only [retireLookupAmend, List.foldl_cons, List.foldl_nil] at ht
  rw [hy.holds.retireRefused hp, hrefused.lookup rfl] at ht
  generalize hv : answerCode a .protectedShot (touchSlot i u) = v at *
  have hfirst : Answered v a .protectedShot .empty := by
    rw [← hv]
    exact answered_answer a .protectedShot .empty _
  generalize hw : withUse _ _ v = w at *
  have hqueue : w.link.queue = (answer b .ok (.shot (shotView v y)) v).link.queue := by
    rw [← hw]
    rfl
  have hheld : Holds i y w := by
    rw [← hw]
    exact hrefused.of_slots rfl
  have hlast := (continues_amend hheld hf c o).subset
  subst ht
  refine ⟨answered_service (hlast ?_), _, answered_service (hlast ?_), rfl⟩
  · rw [hqueue]
    exact (continues_answer b .ok _ v).subset hfirst
  · rw [hqueue]
    exact answered_answer b .ok _ v

/-- A retirement ahead of a lookup and an amendment has them find the record RETIRING (R167, R168). -/
theorem load_retire_accepted {y : Record} {u t : State} (hy : Rests i y u) (hf : FromCard y) {a b c : Nat}
    {o : AmendOperands} (hp : y.protect = false) (hw : ¬ ProtectedCard u) (hstate : u.card.state ≠ .faulted)
    (ht : t = service ((retireLookupAmend a b c o).foldl (proceed y.number) u)) :
    (∃ v : ShotView, Answered t b .ok (.shot v) ∧ v.number = y.number ∧ v.life = .retiring) ∧
    Answered t c .busy .empty ∧
    (∃ z, t.table.slots[i]? = some (.inUse z) ∧ z.number = y.number ∧ z.life = .retiring ∧ z.retireTag = some a) ∧
    EmptyStands y.number (y.catSlot.getD 0) t := by
  have hused : Rests i y (touchSlot i u) := hy.of_same rfl rfl
  obtain ⟨hretiring, hentry⟩ := hused.holds.acceptRetire hf.raw hf.link a
  simp only [retireLookupAmend, List.foldl_cons, List.foldl_nil] at ht
  rw [hy.holds.retireAccepted hp hf.life hw hstate] at ht
  generalize acceptRetire a y (touchSlot i u) = v at *
  rw [show y.number = (Record.retire a y).number from rfl, hretiring.lookup rfl] at ht
  generalize hz : Record.retire a y = z at *
  have hlife : z.life = .retiring := by rw [← hz]; rfl
  have hnumber : z.number = y.number := by rw [← hz]; rfl
  have htag : z.retireTag = some a := by rw [← hz]; rfl
  generalize hx : withUse _ _ v = w at *
  have hlooked : Answered w b .ok (.shot (shotView v z)) := by
    rw [← hx]
    exact answered_answer b .ok _ v
  have hheld : Holds i z w := by
    rw [← hx]
    exact hretiring.of_slots rfl
  have hempty : EmptyStands y.number (y.catSlot.getD 0) w := by
    rw [← hx]
    exact .inl hentry
  have hbusy : amendRefusal (touchSlot i w) z o = some .busy := if_pos hlife
  rw [hheld.amendRefused hbusy] at ht
  have hend : EmptyStands y.number (y.catSlot.getD 0) (answerCode c .busy (touchSlot i w)) := hempty.of_card rfl rfl
  have hslot : (answerCode c .busy (touchSlot i w)).table.slots[i]? = some (.inUse z) := hheld.slot
  obtain ⟨x, hx', hk⟩ := slotsKept_slot (slotsKept_serveBlocks _) hslot
  obtain ⟨z', rfl, hsame⟩ := hk
  subst ht
  refine ⟨⟨_, answered_service ((continues_answerCode c .busy _).subset hlooked), hnumber, hlife⟩,
    answered_service (answered_answer c .busy .empty _), ⟨z', ?_, ?_, ?_, ?_⟩, ?_⟩
  · rw [hend.service]
    exact hx'
  · rw [show z'.number = z.number by rw [hsame], hnumber]
  · rw [show z'.life = z.life by rw [hsame], hlife]
  · rw [show z'.retireTag = z.retireTag by rw [hsame], htag]
  · rw [hend.service]
    exact hend.serveBlocks

end

/-- Settles O46: the read of a load, whatever its entry, and the reads of a fetch. -/
theorem cardReadsComplete : Obligations.CardReadsComplete := by
  unfold Obligations.CardReadsComplete
  refine ⟨fun n slot i ws block s hbus hwork hslot halone => ?_, fun n p done clusters runs values s hbus hwork hc =>
    ⟨fun hlt => ?_, fun heq => ?_, fun hle hcanon hnodup hvalues => ?_⟩⟩
  · have hloads : LoadsAt i n ws s := ⟨hslot, halone⟩
    refine ⟨_, exec_loadReadDone hbus hwork, fun hx hlive hn hhand => ?_, fun hx hbad => load_bad hloads hx hbad rfl,
      fun hx => load_lost hloads hx rfl⟩
    have hy := rests_withLoaded (slot := slot) hloads hn hhand
    have hfrom := fromCard_loadedRecord block slot
    have hlast : (withLoaded i slot block s).table.useOrder.getLast? = some i := withLoaded_last
    have hnumber : (loadedRecord block slot).number = n := hn
    have hcat : (loadedRecord block slot).catSlot = some slot := rfl
    obtain ⟨hstate, hident, hrecipes⟩ := withLoaded_keeps i slot block s
    rw [loadDone_good hloads hx hlive hn]
    generalize withLoaded i slot block s = u at *
    refine ⟨_, loadedRecord_from block slot, ?_⟩
    generalize loadedRecord block slot = y at *
    rw [← hnumber, ← hstate, ← hident, ← hrecipes]
    refine ⟨fun hw => ?_, fun tag o hws _ => ?_, fun a b c o hws _ hp hf => ⟨fun hprot => ?_, fun hprot => ?_⟩⟩
    · obtain ⟨hans, hkept⟩ := load_lookups hy hlast hw rfl
      exact ⟨fun w hw => ⟨_, hans w hw, reports_shotView hrecipes y⟩, hkept⟩
    · rw [hws]
      exact load_amend hy hfrom rfl
    · rw [hws]
      obtain ⟨hfirst, v, hv, he⟩ := load_retire_refused hy hfrom (a := a) (b := b) (c := c) (o := o) hprot rfl
      exact ⟨hfirst, v, hv, he ▸ reports_shotView hrecipes y⟩
    · rw [hws]
      obtain ⟨hlooked, hbusy, hz, hempty⟩ := load_retire_accepted hy hfrom (a := a) (b := b) (c := c) (o := o) hprot hp hf rfl
      rw [hcat] at hempty
      exact ⟨hlooked, hbusy, hz, hempty⟩
  · obtain ⟨t, ht, hm, hgo, _⟩ := fetchReadDone_fills (values := values) hbus hwork hc hlt.le
    obtain ⟨hplane, harea⟩ := fetched_mem hm
    exact ⟨t, ht, hplane, harea, hgo hlt⟩
  · obtain ⟨t, ht, hm, _, hend⟩ := fetchReadDone_fills (values := values) hbus hwork hc heq.le
    obtain ⟨hplane, harea⟩ := fetched_mem hm
    exact ⟨t, ht, hplane, harea, hend heq⟩
  · obtain ⟨t, ht, hm, _⟩ := fetchReadDone_fills (values := values) hbus hwork hc hle
    refine ⟨t, ht, fun x hx => ?_⟩
    rw [hm]
    exact readValue_loadClusters hcanon hnodup hvalues hx

end Sys2Proof.ShotTable
end

section
/-! Shot table: the cluster map as a set, and the examination of a catalogue (R147, R150). -/

namespace Sys2Proof.ShotTable
open Sys2Proof.Machine

/-! ### Runs as sets of clusters -/

theorem mem_clustersOf {c : Nat} {rs : List Run} :
    c ∈ clustersOf rs ↔ ∃ r ∈ rs, r.start ≤ c ∧ c < r.start + r.length := by
  unfold clustersOf
  rw [List.mem_flatMap]
  exact exists_congr fun r => and_congr_right fun _ => List.mem_range'_1

theorem clustersOf_cons (r : Run) (rs : List Run) : clustersOf (r :: rs) = List.range' r.start r.length ++ clustersOf rs :=
  List.flatMap_cons

theorem clustersOf_append (l l' : List Run) : clustersOf (l ++ l') = clustersOf l ++ clustersOf l' := List.flatMap_append

/-- The runs of a map: in ascending order, and no two of them touch. -/
def Apart (m : List Run) : Prop := m.Pairwise fun x y => x.start + x.length < y.start

theorem Apart.ascending {m : List Run} (h : Apart m) : (clustersOf m).Pairwise (· < ·) := by
  induction m with
  | nil => exact List.Pairwise.nil
  | cons r m ih =>
    obtain ⟨hr, hm⟩ := List.pairwise_cons.1 h
    rw [clustersOf_cons]
    refine List.pairwise_append.2 ⟨List.pairwise_lt_range', ih hm, fun a ha b hb => ?_⟩
    obtain ⟨_, hlt⟩ := List.mem_range'_1.1 ha
    obtain ⟨y, hy, hle, _⟩ := mem_clustersOf.1 hb
    exact hlt.trans ((hr y hy).trans_le hle)

/-- The clusters that a run cut out of another leaves of it. -/
theorem mem_cutParts {x r : Run} (hpos : 0 < r.length) {c : Nat} (h1 : x.start ≤ r.start)
    (h2 : r.start + r.length ≤ x.start + x.length) : c ∈ clustersOf (cutParts x r) ↔
      (x.start ≤ c ∧ c < x.start + x.length) ∧ ¬ (r.start ≤ c ∧ c < r.start + r.length) := by
  rw [mem_clustersOf]
  unfold cutParts
  constructor
  · rintro ⟨y, hy, hc⟩
    rcases List.mem_append.1 hy with hy | hy
    · split at hy
      · obtain rfl := List.mem_singleton.1 hy
        dsimp only at hc
        omega
      · cases hy
    · split at hy
      · obtain rfl := List.mem_singleton.1 hy
        dsimp only at hc
        omega
      · cases hy
  · rintro ⟨hx, hr⟩
    by_cases hc : c < r.start
    · rw [if_pos (by omega)]
      exact ⟨_, List.mem_append_left _ (List.mem_singleton.2 rfl), by dsimp only; omega⟩
    · rw [if_pos (c := r.start + r.length < x.start + x.length) (by omega)]
      exact ⟨_, List.mem_append_right _ (List.mem_singleton.2 rfl), by dsimp only; omega⟩

theorem cutParts_within {x r y : Run} (hpos : 0 < r.length) (h1 : x.start ≤ r.start)
    (h2 : r.start + r.length ≤ x.start + x.length) (hy : y ∈ cutParts x r) :
    x.start ≤ y.start ∧ y.start + y.length ≤ x.start + x.length := by
  unfold cutParts at hy
  rcases List.mem_append.1 hy with hy | hy
  · split at hy
    · obtain rfl := List.mem_singleton.1 hy
      dsimp only
      omega
    · cases hy
  · split at hy
    · obtain rfl := List.mem_singleton.1 hy
      dsimp only
      omega
    · cases hy

theorem cutParts_apart {x r : Run} (hpos : 0 < r.length) : Apart (cutParts x r) := by
  unfold cutParts Apart
  refine List.pairwise_append.2 ⟨?_, ?_, fun a ha b hb => ?_⟩
  · split
    · exact List.pairwise_singleton _ _
    · exact List.Pairwise.nil
  · split
    · exact List.pairwise_singleton _ _
    · exact List.Pairwise.nil
  · split at ha
    · split at hb
      · obtain rfl := List.mem_singleton.1 ha
        obtain rfl := List.mem_singleton.1 hb
        dsimp only
        omega
      · cases hb
    · cases ha

/-- What is left of a map when a run is cut out of it. -/
structure CutOf (rs m m' : List Run) : Prop where
  apart : Apart m'
  within : ∀ y ∈ m', ∃ z ∈ m, z.start ≤ y.start
  mem : ∀ c, c ∈ clustersOf m' ↔ c ∈ clustersOf m ∧ c ∉ clustersOf rs

theorem cutRun_some {r : Run} {m m' : List Run} (hm : Apart m) (h : cutRun r m = some m') :
    0 < r.length ∧ (∀ c, r.start ≤ c → c < r.start + r.length → c ∈ clustersOf m) ∧ CutOf [r] m m' := by
  induction m generalizing m' with
  | nil => cases h
  | cons x m ih =>
    obtain ⟨hx, hm⟩ := List.pairwise_cons.1 hm
    have hlater : ∀ {c}, c ∈ clustersOf m → x.start + x.length < c := fun hc => by
      obtain ⟨y, hy, hle, _⟩ := mem_clustersOf.1 hc
      exact (hx y hy).trans_le hle
    have hhead : ∀ {c}, c ∈ clustersOf [r] ↔ r.start ≤ c ∧ c < r.start + r.length := by
      intro c
      rw [mem_clustersOf]
      simp
    have hcons : ∀ {c}, c ∈ clustersOf (x :: m) ↔ (x.start ≤ c ∧ c < x.start + x.length) ∨ c ∈ clustersOf m := by
      intro c
      rw [clustersOf_cons, List.mem_append, List.mem_range'_1]
    unfold cutRun at h
    split at h
    · next hin =>
      obtain ⟨hpos, h1, h2⟩ := hin
      cases h
      refine ⟨hpos, fun c hc hc' => hcons.2 (.inl ⟨by omega, by omega⟩), ?_, fun y hy => ?_, fun c => ?_⟩
      · refine List.pairwise_append.2 ⟨cutParts_apart hpos, hm, fun a ha b hb => ?_⟩
        exact (cutParts_within hpos h1 h2 ha).2.trans_lt (hx b hb)
      · rcases List.mem_append.1 hy with hy | hy
        · exact ⟨x, List.mem_cons_self, (cutParts_within hpos h1 h2 hy).1⟩
        · exact ⟨y, List.mem_cons_of_mem _ hy, Nat.le_refl _⟩
      · rw [clustersOf_append, List.mem_append, mem_cutParts hpos h1 h2, hcons, hhead]
        constructor
        · rintro (⟨ha, hb⟩ | hc)
          · exact ⟨.inl ha, hb⟩
          · exact ⟨.inr hc, fun hb => by have := hlater hc; omega⟩
        · rintro ⟨ha | hc, hb⟩
          · exact .inl ⟨ha, hb⟩
          · exact .inr hc
    · obtain ⟨m'', hcut, rfl⟩ := Option.map_eq_some_iff.1 h
      obtain ⟨hpos, hfree, hleft⟩ := ih hm hcut
      refine ⟨hpos, fun c hc hc' => hcons.2 (.inr (hfree c hc hc')), ?_, fun y hy => ?_, fun c => ?_⟩
      · refine List.pairwise_cons.2 ⟨fun y hy => ?_, hleft.apart⟩
        obtain ⟨z, hz, hle⟩ := hleft.within y hy
        exact (hx z hz).trans_le hle
      · rcases List.mem_cons.1 hy with rfl | hy
        · exact ⟨y, List.mem_cons_self, Nat.le_refl _⟩
        · obtain ⟨z, hz, hle⟩ := hleft.within y hy
          exact ⟨z, List.mem_cons_of_mem _ hz, hle⟩
      · rw [clustersOf_cons, List.mem_append, List.mem_range'_1, hleft.mem, hcons]
        constructor
        · rintro (ha | ⟨ha, hb⟩)
          · exact ⟨.inl ha, fun hb => by have := hlater (hfree c (hhead.1 hb).1 (hhead.1 hb).2); omega⟩
          · exact ⟨.inr ha, hb⟩
        · rintro ⟨ha | ha, hb⟩
          · exact .inl ha
          · exact .inr ⟨ha, hb⟩

/-- A run that is free in a map can be cut out of it: no run of the map touches another, so it lies in one of them. -/
theorem cutRun_free {r : Run} {m : List Run} (hm : Apart m) (hpos : 0 < r.length)
    (hfree : ∀ c, r.start ≤ c → c < r.start + r.length → c ∈ clustersOf m) : ∃ m', cutRun r m = some m' := by
  induction m with
  | nil => exact absurd (hfree r.start (Nat.le_refl _) (by omega)) List.not_mem_nil
  | cons x m ih =>
    obtain ⟨hx, hm⟩ := List.pairwise_cons.1 hm
    have hlater : ∀ {c}, c ∈ clustersOf m → x.start + x.length < c := fun hc => by
      obtain ⟨y, hy, hle, _⟩ := mem_clustersOf.1 hc
      exact (hx y hy).trans_le hle
    have hcons : ∀ {c}, c ∈ clustersOf (x :: m) → (x.start ≤ c ∧ c < x.start + x.length) ∨ c ∈ clustersOf m := by
      intro c hc
      rwa [clustersOf_cons, List.mem_append, List.mem_range'_1] at hc
    unfold cutRun
    split
    · exact ⟨_, rfl⟩
    · next hout =>
      have hstart : r.start ∈ clustersOf m := by
        refine (hcons (hfree r.start (Nat.le_refl _) (by omega))).resolve_left fun hin => hout ⟨hpos, hin.1, ?_⟩
        by_contra hend
        have hbeyond := hcons (hfree (x.start + x.length) (by omega) (by omega))
        rcases hbeyond with hin' | hin'
        · omega
        · have := hlater hin'
          omega
      have hafter := hlater hstart
      obtain ⟨m', hm'⟩ := ih hm fun c hc hc' => (hcons (hfree c hc hc')).resolve_left fun hin => by omega
      exact ⟨_, by rw [hm']; rfl⟩

/-- The runs of a file can be cut out of a map. -/
def CanCut (rs m : List Run) : Prop :=
  (∀ r ∈ rs, 0 < r.length) ∧ (∀ c ∈ clustersOf rs, c ∈ clustersOf m) ∧ (clustersOf rs).Nodup

theorem cutRuns_some {rs m m' : List Run} (hm : Apart m) (h : cutRuns rs m = some m') :
    CanCut rs m ∧ Apart m' ∧ ∀ c, c ∈ clustersOf m' ↔ c ∈ clustersOf m ∧ c ∉ clustersOf rs := by
  induction rs generalizing m with
  | nil =>
    cases h
    exact ⟨⟨nofun, nofun, List.Pairwise.nil⟩, hm, fun c => ⟨fun hc => ⟨hc, List.not_mem_nil⟩, And.left⟩⟩
  | cons r rs ih =>
    obtain ⟨m1, h1, h2⟩ := Option.bind_eq_some_iff.1 h
    obtain ⟨hpos, hfree, hleft⟩ := cutRun_some hm h1
    obtain ⟨⟨hlen, hin, hnodup⟩, hapart, hmem⟩ := ih hleft.apart h2
    have hhead : ∀ {c}, c ∈ clustersOf [r] ↔ r.start ≤ c ∧ c < r.start + r.length := by
      intro c
      rw [mem_clustersOf]
      simp
    have hcons : ∀ {c}, c ∈ clustersOf (r :: rs) ↔ c ∈ clustersOf [r] ∨ c ∈ clustersOf rs := by
      intro c
      rw [hhead, clustersOf_cons, List.mem_append, List.mem_range'_1]
    refine ⟨⟨fun x hx => ?_, fun c hc => ?_, ?_⟩, hapart, fun c => ?_⟩
    · rcases List.mem_cons.1 hx with rfl | hx
      · exact hpos
      · exact hlen x hx
    · rcases hcons.1 hc with hc | hc
      · exact hfree c (hhead.1 hc).1 (hhead.1 hc).2
      · exact ((hleft.mem c).1 (hin c hc)).1
    · rw [clustersOf_cons]
      refine List.nodup_append.2 ⟨List.nodup_range', hnodup, fun a ha b hb => ?_⟩
      rintro rfl
      exact ((hleft.mem a).1 (hin a hb)).2 (hhead.2 (List.mem_range'_1.1 ha))
    · rw [hmem, hleft.mem, hcons, not_or, and_assoc]

theorem cutRuns_free {rs m : List Run} (hm : Apart m) (h : CanCut rs m) : ∃ m', cutRuns rs m = some m' := by
  induction rs generalizing m with
  | nil => exact ⟨m, rfl⟩
  | cons r rs ih =>
    obtain ⟨hlen, hin, hnodup⟩ := h
    rw [clustersOf_cons] at hin hnodup
    obtain ⟨_, hrest, hdisjoint⟩ := List.nodup_append.1 hnodup
    obtain ⟨m1, h1⟩ := cutRun_free hm (hlen r List.mem_cons_self)
      fun c hc hc' => hin c (List.mem_append_left _ (List.mem_range'_1.2 ⟨hc, hc'⟩))
    obtain ⟨_, _, hleft⟩ := cutRun_some hm h1
    have hleftover : ∀ c ∈ clustersOf rs, c ∈ clustersOf m1 := by
      refine fun c hc => (hleft.mem c).2 ⟨hin c (List.mem_append_right _ hc), fun hr => ?_⟩
      obtain ⟨x, hx, hle, hlt⟩ := mem_clustersOf.1 hr
      obtain rfl := List.mem_singleton.1 hx
      exact hdisjoint c (List.mem_range'_1.2 ⟨hle, hlt⟩) c hc rfl
    obtain ⟨m2, h2⟩ := ih hleft.apart ⟨fun x hx => hlen x (List.mem_cons_of_mem _ hx), hleftover, hrest⟩
    exact ⟨m2, by rw [cutRuns, h1]; exact h2⟩

/-! ### The examination of a catalogue (R147) -/

theorem mem_insertIndex_iff {x y : IndexEntry} {l : List IndexEntry} : x ∈ insertIndex y l ↔ x = y ∨ x ∈ l := by
  refine ⟨mem_insertIndex, fun h => ?_⟩
  induction l with
  | nil => exact List.mem_singleton.2 (h.resolve_right List.not_mem_nil)
  | cons z l ih =>
    unfold insertIndex
    split
    · exact List.mem_cons.2 h
    · rcases h with h | h
      · exact List.mem_cons_of_mem _ (ih (.inl h))
      · rcases List.mem_cons.1 h with rfl | h
        · exact List.mem_cons_self
        · exact List.mem_cons_of_mem _ (ih (.inr h))

theorem insertIndex_ascending {y : IndexEntry} {l : List IndexEntry} (h : l.Pairwise fun a b => a.shot < b.shot)
    (hy : ∀ x ∈ l, x.shot ≠ y.shot) : (insertIndex y l).Pairwise fun a b => a.shot < b.shot := by
  induction l with
  | nil => exact List.pairwise_singleton _ _
  | cons z l ih =>
    obtain ⟨hz, hl⟩ := List.pairwise_cons.1 h
    unfold insertIndex
    split
    · next hlt =>
      refine List.pairwise_cons.2 ⟨fun x hx => ?_, h⟩
      rcases List.mem_cons.1 hx with rfl | hx
      · exact hlt
      · exact hlt.trans (hz x hx)
    · next hge =>
      have hne := hy z List.mem_cons_self
      refine List.pairwise_cons.2 ⟨fun x hx => ?_, ih hl fun x hx => hy x (List.mem_cons_of_mem _ hx)⟩
      rcases mem_insertIndex hx with rfl | hx
      · omega
      · exact hz x hx

/-- What the examination of blocks has made of them. -/
structure Examined (clusters : Nat) (blocks : List (Nat × List Byte)) (x : Scan) : Prop where
  accepted : ∀ e ∈ blocks, EntryAccepted clusters blocks x.index e.1 e.2 → entryIndex e.2 e.1 ∈ x.index
  refused : ∀ e ∈ blocks, ¬ EntryAccepted clusters blocks x.index e.1 e.2 → ∀ y ∈ x.index, y.slot ≠ e.1
  damaged : ∀ e ∈ blocks, e.1 ∈ x.damaged ↔ entryEmpty e.2 = false ∧ ¬ EntryAccepted clusters blocks x.index e.1 e.2
  fromBlock : ∀ y ∈ x.index, ∃ e ∈ blocks, e.1 = y.slot
  damagedBlock : ∀ i ∈ x.damaged, ∃ e ∈ blocks, e.1 = i
  ascending : x.index.Pairwise fun a b => a.shot < b.shot
  apart : Apart x.map
  free : ∀ c, c ∈ clustersOf x.map ↔ 3 ≤ c ∧ c < 3 + clusters ∧
    ∀ e ∈ blocks, (∃ y ∈ x.index, y.slot = e.1) → c ∉ clustersOf (entryRuns e.2)

theorem examined_nil (clusters : Nat) : Examined clusters [] { index := [], damaged := [], map := wholeMap clusters } := by
  refine ⟨nofun, nofun, nofun, nofun, nofun, List.Pairwise.nil, List.pairwise_singleton _ _, fun c => ?_⟩
  rw [mem_clustersOf]
  simp [wholeMap, Config.firstDataCluster]

section
variable {clusters : Nat} {blocks : List (Nat × List Byte)} {x : Scan} {b : Nat × List Byte}

/-- A block examined later and what it puts into the index are of no account for a block of a lower slot. -/
theorem entryAccepted_later {index : List IndexEntry} {e : Nat × List Byte} (he : e.1 < b.1)
    (hindex : ∀ y, y.slot < b.1 → (y ∈ index ↔ y ∈ x.index)) :
    EntryAccepted clusters (blocks ++ [b]) index e.1 e.2 ↔ EntryAccepted clusters blocks x.index e.1 e.2 := by
  unfold EntryAccepted
  have hslot : ∀ i, i < b.1 → ((∃ y ∈ index, y.slot = i) ↔ ∃ y ∈ x.index, y.slot = i) := fun i hi =>
    exists_congr fun y => ⟨fun ⟨hy, h⟩ => ⟨(hindex y (by omega)).1 hy, h⟩, fun ⟨hy, h⟩ => ⟨(hindex y (by omega)).2 hy, h⟩⟩
  refine and_congr_right fun _ => and_congr_right fun _ => and_congr ?_ (and_congr_right fun _ => and_congr_right fun _ => ?_)
  · exact ⟨fun h y hy hlt => h y ((hindex y (hlt.trans he)).2 hy) hlt, fun h y hy hlt => h y ((hindex y (hlt.trans he)).1 hy) hlt⟩
  · constructor
    · intro h e' he' hlt hex
      exact h e' (List.mem_append_left _ he') hlt ((hslot _ (hlt.trans he)).2 hex)
    · intro h e' he' hlt hex
      rcases List.mem_append.1 he' with he' | he'
      · exact h e' he' hlt ((hslot _ (hlt.trans he)).1 hex)
      · rw [List.mem_singleton.1 he'] at hlt
        omega

/-- The tests of R147 as the model makes them, for a block of a slot above those examined. -/
theorem acceptEntry_isSome (h : Examined clusters blocks x) (hb : ∀ e ∈ blocks, e.1 < b.1) :
    (acceptEntry x b.2).isSome = true ↔ EntryAccepted clusters blocks x.index b.1 b.2 := by
  have hbelow : ∀ y ∈ x.index, y.slot < b.1 := fun y hy => by
    obtain ⟨e, he, hey⟩ := h.fromBlock y hy
    rw [← hey]
    exact hb e he
  have hcut : (cutRuns (entryRuns b.2) x.map).isSome = true ↔ CanCut (entryRuns b.2) x.map := by
    rw [Option.isSome_iff_exists]
    exact ⟨fun ⟨m, hm⟩ => (cutRuns_some h.apart hm).1, cutRuns_free h.apart⟩
  have hranges : CanCut (entryRuns b.2) x.map ↔
      (∀ r ∈ entryRuns b.2, 1 ≤ r.length ∧ 3 ≤ r.start ∧ r.start + r.length ≤ 3 + clusters) ∧
      (clustersOf (entryRuns b.2)).Nodup ∧ ∀ e ∈ blocks, e.1 < b.1 → (∃ y ∈ x.index, y.slot = e.1) →
        ∀ c ∈ clustersOf (entryRuns e.2), c ∉ clustersOf (entryRuns b.2) := by
    constructor
    · rintro ⟨hlen, hin, hnodup⟩
      refine ⟨fun r hr => ?_, hnodup, fun e he _ hex c hc hcb => ((h.free c).1 (hin c hcb)).2.2 e he hex hc⟩
      have hpos := hlen r hr
      have hfirst := (h.free _).1 (hin r.start (mem_clustersOf.2 ⟨r, hr, by omega, by omega⟩))
      have hlast := (h.free _).1 (hin (r.start + (r.length - 1)) (mem_clustersOf.2 ⟨r, hr, by omega, by omega⟩))
      omega
    · rintro ⟨hrange, hnodup, hdisjoint⟩
      refine ⟨fun r hr => (hrange r hr).1, fun c hc => (h.free c).2 ?_, hnodup⟩
      obtain ⟨r, hr, hle, hlt⟩ := mem_clustersOf.1 hc
      have := hrange r hr
      exact ⟨by omega, by omega, fun e he hex hce => hdisjoint e he (hb e he) hex c hce hc⟩
  have hnew : (!x.index.any (·.shot == entryShot b.2)) = true ↔ ∀ y ∈ x.index, y.slot < b.1 → y.shot ≠ field b.2 4 4 := by
    rw [Bool.not_eq_true', List.any_eq_false]
    exact ⟨fun hno y hy _ he => hno y hy (beq_iff_eq.2 he), fun hno y hy he => hno y hy (hbelow y hy) (beq_iff_eq.1 he)⟩
  unfold acceptEntry EntryAccepted
  split
  · next htests =>
    rw [Bool.and_eq_true, Bool.and_eq_true, hnew] at htests
    obtain ⟨⟨hlive, hgood⟩, hshot⟩ := htests
    rw [hcut, hranges]
    exact ⟨fun hr => ⟨hlive, hgood, hshot, hr⟩, fun hr => hr.2.2.2⟩
  · next htests =>
    rw [Bool.and_eq_true, Bool.and_eq_true, hnew] at htests
    exact ⟨fun hno => absurd hno Bool.false_ne_true, fun ⟨hlive, hgood, hshot, _⟩ => absurd ⟨⟨hlive, hgood⟩, hshot⟩ htests⟩

/-- An EMPTY block is no LIVE one. -/
theorem entryLive_of_empty {block : List Byte} (h : entryEmpty block = true) : entryLive block = false := by
  unfold entryEmpty at h
  unfold entryLive
  simp only [Bool.and_eq_true, beq_iff_eq] at h
  obtain ⟨_, hzero⟩ := h
  rw [hzero]
  simp

theorem forall_concat {P : Nat × List Byte → Prop} (h : ∀ e ∈ blocks, P e) (hb : P b) : ∀ e ∈ blocks ++ [b], P e :=
  List.forall_mem_append.2 ⟨h, List.forall_mem_singleton.2 hb⟩

/-- A block that is not accepted: what the examination has found of it is whether it is DAMAGED. -/
theorem Examined.skip (h : Examined clusters blocks x) (hb : ∀ e ∈ blocks, e.1 < b.1) {damaged : List Nat}
    (hno : ¬ EntryAccepted clusters blocks x.index b.1 b.2)
    (hdamaged : ∀ i, i ∈ damaged ↔ i ∈ x.damaged ∨ (entryEmpty b.2 = false ∧ i = b.1)) :
    Examined clusters (blocks ++ [b]) { x with damaged } := by
  have hlater : ∀ e ∈ blocks, (EntryAccepted clusters (blocks ++ [b]) x.index e.1 e.2 ↔
      EntryAccepted clusters blocks x.index e.1 e.2) := fun e he => entryAccepted_later (hb e he) fun _ _ => Iff.rfl
  have hself : EntryAccepted clusters (blocks ++ [b]) x.index b.1 b.2 ↔ EntryAccepted clusters blocks x.index b.1 b.2 := by
    unfold EntryAccepted
    refine and_congr_right fun _ => and_congr_right fun _ => and_congr_right fun _ => and_congr_right fun _ =>
      and_congr_right fun _ => ⟨fun h e he => h e (List.mem_append_left _ he), fun h e he hlt => ?_⟩
    rcases List.mem_append.1 he with he | he
    · exact h e he hlt
    · rw [List.mem_singleton.1 he] at hlt
      omega
  have hslot : ∀ y ∈ x.index, y.slot ≠ b.1 := fun y hy e => by
    obtain ⟨e', he', hey⟩ := h.fromBlock y hy
    have := hb e' he'
    omega
  refine ⟨forall_concat (fun e he ha => h.accepted e he ((hlater e he).1 ha)) fun ha => absurd (hself.1 ha) hno,
    forall_concat (fun e he ha => h.refused e he fun hc => ha ((hlater e he).2 hc)) fun _ => hslot, forall_concat (fun e he => ?_) ?_,
    fun y hy => ?_, fun i hi => ?_, h.ascending, h.apart, fun c => ?_⟩
  · rw [hdamaged, hlater e he, ← h.damaged e he]
    exact or_iff_left fun hc => absurd hc.2 (Nat.ne_of_lt (hb e he))
  · rw [hdamaged, hself]
    constructor
    · rintro (hi | ⟨he, _⟩)
      · obtain ⟨e, he, hei⟩ := h.damagedBlock _ hi
        exact absurd hei (Nat.ne_of_lt (hb e he))
      · exact ⟨he, hno⟩
    · exact fun ⟨he, _⟩ => .inr ⟨he, rfl⟩
  · obtain ⟨e, he, hey⟩ := h.fromBlock y hy
    exact ⟨e, List.mem_append_left _ he, hey⟩
  · rcases (hdamaged i).1 hi with hi | ⟨_, rfl⟩
    · obtain ⟨e, he, hei⟩ := h.damagedBlock i hi
      exact ⟨e, List.mem_append_left _ he, hei⟩
    · exact ⟨b, List.mem_append_right _ (List.mem_singleton.2 rfl), rfl⟩
  · rw [h.free]
    refine and_congr_right fun _ => and_congr_right fun _ => ⟨fun hall => forall_concat hall ?_, fun hall e he =>
      hall e (List.mem_append_left _ he)⟩
    rintro ⟨y, hy, e⟩
    exact absurd e (hslot y hy)

/-- An accepted block is in the index, and its clusters are out of the map. -/
theorem Examined.accept (h : Examined clusters blocks x) (hb : ∀ e ∈ blocks, e.1 < b.1) {m : List Run}
    (hm : acceptEntry x b.2 = some m) :
    Examined clusters (blocks ++ [b]) { x with index := insertIndex (entryIndex b.2 b.1) x.index, map := m } := by
  have hself : EntryAccepted clusters blocks x.index b.1 b.2 := (acceptEntry_isSome h hb).1 (by rw [hm]; rfl)
  have hslot : ∀ y ∈ x.index, y.slot < b.1 := fun y hy => by
    obtain ⟨e', he', hey⟩ := h.fromBlock y hy
    rw [← hey]
    exact hb e' he'
  have hnew : ∀ y ∈ x.index, y.shot ≠ entryShot b.2 := fun y hy => hself.2.2.1 y hy (hslot y hy)
  have hcut : cutRuns (entryRuns b.2) x.map = some m := by
    unfold acceptEntry at hm
    split at hm
    · exact hm
    · cases hm
  obtain ⟨_, hapart, hleft⟩ := cutRuns_some h.apart hcut
  have hindex : ∀ y, y.slot < b.1 → (y ∈ insertIndex (entryIndex b.2 b.1) x.index ↔ y ∈ x.index) := fun y hy => by
    rw [mem_insertIndex_iff]
    refine or_iff_right fun he => ?_
    rw [he] at hy
    exact Nat.lt_irrefl _ hy
  have hlater : ∀ e ∈ blocks, (EntryAccepted clusters (blocks ++ [b]) (insertIndex (entryIndex b.2 b.1) x.index) e.1 e.2 ↔
      EntryAccepted clusters blocks x.index e.1 e.2) := fun e he => entryAccepted_later (hb e he) hindex
  have hex : ∀ e ∈ blocks, ((∃ y ∈ insertIndex (entryIndex b.2 b.1) x.index, y.slot = e.1) ↔ ∃ y ∈ x.index, y.slot = e.1) := by
    intro e he
    have hlt := hb e he
    exact exists_congr fun y => ⟨fun ⟨hy, h⟩ => ⟨(hindex y (by omega)).1 hy, h⟩, fun ⟨hy, h⟩ => ⟨(hindex y (by omega)).2 hy, h⟩⟩
  have hselfnew : EntryAccepted clusters (blocks ++ [b]) (insertIndex (entryIndex b.2 b.1) x.index) b.1 b.2 := by
    obtain ⟨hlive, hgood, hshot, hruns, hnodup, hdisjoint⟩ := hself
    refine ⟨hlive, hgood, fun y hy hlt => hshot y ((hindex y hlt).1 hy) hlt, hruns, hnodup, fun e he hlt hey => ?_⟩
    rcases List.mem_append.1 he with he | he
    · exact hdisjoint e he hlt ((hex e he).1 hey)
    · rw [List.mem_singleton.1 he] at hlt
      omega
  refine ⟨forall_concat (fun e he ha => mem_insertIndex_iff.2 (.inr (h.accepted e he ((hlater e he).1 ha))))
      fun _ => mem_insertIndex_iff.2 (.inl rfl),
    forall_concat (fun e he ha y hy hey => ?_) fun ha => absurd hselfnew ha, forall_concat (fun e he => ?_) ?_, fun y hy => ?_, fun i hi => ?_,
    insertIndex_ascending h.ascending hnew, hapart, fun c => ?_⟩
  · have hlt := hb e he
    exact h.refused e he (fun hc => ha ((hlater e he).2 hc)) y ((hindex y (by omega)).1 hy) hey
  · rw [hlater e he]
    exact h.damaged e he
  · refine ⟨fun hi => ?_, fun hi => absurd hselfnew hi.2⟩
    obtain ⟨e, he, hei⟩ := h.damagedBlock _ hi
    exact absurd hei (Nat.ne_of_lt (hb e he))
  · rcases mem_insertIndex_iff.1 hy with rfl | hy
    · exact ⟨b, List.mem_append_right _ (List.mem_singleton.2 rfl), rfl⟩
    · obtain ⟨e, he, hey⟩ := h.fromBlock y hy
      exact ⟨e, List.mem_append_left _ he, hey⟩
  · obtain ⟨e, he, hei⟩ := h.damagedBlock i hi
    exact ⟨e, List.mem_append_left _ he, hei⟩
  · rw [hleft, h.free]
    constructor
    · rintro ⟨⟨h1, h2, hall⟩, hc⟩
      exact ⟨h1, h2, forall_concat (fun e he hey => hall e he ((hex e he).1 hey)) fun _ => hc⟩
    · rintro ⟨h1, h2, hall⟩
      refine ⟨⟨h1, h2, fun e he hey => hall e (List.mem_append_left _ he) ((hex e he).2 hey)⟩, ?_⟩
      exact hall b (List.mem_append_right _ (List.mem_singleton.2 rfl)) ⟨_, mem_insertIndex_iff.2 (.inl rfl), rfl⟩

/-- One block more examined. -/
theorem Examined.step (h : Examined clusters blocks x) (hb : ∀ e ∈ blocks, e.1 < b.1) :
    Examined clusters (blocks ++ [b]) (scanEntry x b) := by
  unfold scanEntry
  split
  · next hempty =>
    refine h.skip hb (damaged := x.damaged) (fun ha => ?_) fun i => (or_iff_left fun hc => ?_).symm
    · exact Bool.false_ne_true ((entryLive_of_empty hempty).symm.trans ha.1)
    · rw [hempty] at hc
      exact absurd hc.1.symm Bool.false_ne_true
  · next hempty =>
    split
    · next hnone =>
      refine h.skip hb (fun ha => ?_) fun i => ?_
      · rw [← acceptEntry_isSome h hb, hnone] at ha
        exact Bool.false_ne_true ha
      · rw [List.mem_append, List.mem_singleton, Bool.eq_false_of_not_eq_true hempty]
        simp
    · next m hm => exact h.accept hb hm

theorem Examined.scan {later : List (Nat × List Byte)} (h : Examined clusters blocks x)
    (hsorted : (blocks ++ later).Pairwise fun a b => a.1 < b.1) :
    Examined clusters (blocks ++ later) (later.foldl scanEntry x) := by
  induction later generalizing blocks x with
  | nil => rwa [List.append_nil]
  | cons b later ih =>
    have hb : ∀ e ∈ blocks, e.1 < b.1 := fun e he => (List.pairwise_append.1 hsorted).2.2 e he b List.mem_cons_self
    have hsplit : blocks ++ b :: later = blocks ++ [b] ++ later := by simp
    rw [hsplit] at hsorted ⊢
    exact ih (h.step hb) hsorted

/-- The blocks may be listed in another order. -/
theorem Examined.of_perm {blocks' : List (Nat × List Byte)} (h : Examined clusters blocks x)
    (hmem : ∀ e, e ∈ blocks' ↔ e ∈ blocks) : Examined clusters blocks' x := by
  have hsame : ∀ i c, EntryAccepted clusters blocks' x.index i c ↔ EntryAccepted clusters blocks x.index i c := by
    intro i c
    unfold EntryAccepted
    simp only [hmem]
  refine ⟨fun e he ha => h.accepted e ((hmem e).1 he) ((hsame _ _).1 ha),
    fun e he ha => h.refused e ((hmem e).1 he) fun hc => ha ((hsame _ _).2 hc),
    fun e he => by rw [hsame]; exact h.damaged e ((hmem e).1 he), fun y hy => ?_, fun i hi => ?_, h.ascending, h.apart,
    fun c => by simp only [hmem]; exact h.free c⟩
  · obtain ⟨e, he, hey⟩ := h.fromBlock y hy
    exact ⟨e, (hmem e).2 he, hey⟩
  · obtain ⟨e, he, hei⟩ := h.damagedBlock i hi
    exact ⟨e, (hmem e).2 he, hei⟩

/-- The examination of a catalogue whose slots are listed once each (R147). -/
theorem scanCatalogue_examined (clusters : Nat) (hn : (blocks.map Prod.fst).Nodup) :
    Examined clusters blocks (scanCatalogue clusters blocks) := by
  let r : Nat × List Byte → Nat × List Byte → Prop := fun a b => a.1 ≤ b.1
  have hperm := blocks.perm_insertionSort r
  have htotal : Std.Total r := ⟨fun a b => Nat.le_total a.1 b.1⟩
  have htrans : IsTrans _ r := ⟨fun a b c => Nat.le_trans⟩
  have hle : (blocks.insertionSort r).Pairwise r := List.pairwise_insertionSort r blocks
  have hne : (blocks.insertionSort r).Pairwise fun a b => a.1 ≠ b.1 :=
    List.pairwise_map.1 ((hperm.map Prod.fst).nodup_iff.2 hn)
  have hlt : (blocks.insertionSort r).Pairwise fun a b => a.1 < b.1 :=
    (hle.and hne).imp fun ⟨h1, h2⟩ => Nat.lt_of_le_of_ne h1 h2
  have hscan := (examined_nil clusters).scan (later := blocks.insertionSort r) hlt
  exact hscan.of_perm fun e => hperm.mem_iff.symm

end

end Sys2Proof.ShotTable
end

section
/-! Shot table: a number throughout resident state, and the renumbering of a mount (R23, R24). -/

namespace Sys2Proof.ShotTable
open Sys2Proof.Machine View

/-! ### A record under a number -/

/-- What carried the number of a record in `s` carries `m` in `u` (R24). -/
structure Carried (x : Record) (m : Nat) (former : Option Nat) (s u : State) : Prop where
  record : ∃ y ∈ residents u, y.number = m ∧ y.former = former ∧ y.life = x.life ∧ y.label = x.label ∧ y.frame = x.frame ∧
    y.exposures = x.exposures ∧ y.rawPlane = x.rawPlane
  plane : ∀ p ∈ x.rawPlane, u.pool.owners[p]? = some (.shotRaw m)
  jobs : ∀ j ∈ s.dev.queue, j.shot = x.number → ∃ k ∈ u.dev.queue, k.shot = m ∧ k.kind = j.kind
  requests : ∀ q ∈ s.pau, q.shot = x.number → ∃ v ∈ u.pau, v.shot = m ∧ v.op = q.op
  handoffs : ∀ h ∈ s.card.handoffs, h.shot = x.number → u.pool.owners[h.plane]? = some (.handoff m h.key) ∧
    ∃ g ∈ u.card.handoffs, g.shot = m ∧ g.key = h.key ∧ g.plane = h.plane
  previews : ∀ (c : Nat) (a : PreviewSlot) k w l st seed, s.cache.slots[c]? = some a →
    a.state = .valid (some (x.number, k)) w l st seed → 0 < a.pins →
    u.cache.slots[c]? = some { a with state := .valid (some (m, k)) w l st seed }
  opened : s.seq.openShot = some x.number → u.seq.openShot = some m

/-- Lists that carry numbers are the same. -/
structure SameCarriers (u t : State) : Prop where
  slots : t.table.slots = u.table.slots
  owners : t.pool.owners = u.pool.owners
  queue : t.dev.queue = u.dev.queue
  pau : t.pau = u.pau
  handoffs : ∀ g ∈ u.card.handoffs, ∃ g' ∈ t.card.handoffs, g'.shot = g.shot ∧ g'.key = g.key ∧ g'.plane = g.plane
  previews : t.cache.slots = u.cache.slots
  opened : t.seq.openShot = u.seq.openShot

section
variable {x : Record} {m : Nat} {f : Option Nat} {s u t : State}

theorem carried_self (h : PlanesAgree s) (hx : x ∈ residents s) : Carried x x.number x.former s s := by
  obtain ⟨howned, _⟩ := h
  refine ⟨⟨x, hx, rfl, rfl, rfl, rfl, rfl, rfl, rfl⟩, fun p hp => ?_, fun j hj hs => ⟨j, hj, hs, rfl⟩,
    fun q hq hs => ⟨q, hq, hs, rfl⟩, fun h hh hs => ⟨?_, h, hh, hs, rfl, rfl⟩, fun c a k w l st seed ha hstate _ => ?_, id⟩
  · refine howned (p, .shotRaw x.number) ?_
    unfold planesNamed
    simp only [List.mem_append]
    refine .inl (.inl (.inl (.inl (.inl (List.mem_filterMap.2 ⟨x, hx, ?_⟩)))))
    rw [Option.mem_def.1 hp]
    rfl
  · refine howned (h.plane, .handoff x.number h.key) (List.mem_append_right _ (List.mem_map.2 ⟨h, hh, ?_⟩))
    rw [hs]
  · rw [ha, ← hstate]

theorem Carried.of_same (h : Carried x m f s u) (ht : SameCarriers u t) : Carried x m f s t := by
  have hres : residents t = residents u := by
    unfold residents
    rw [ht.slots]
  refine ⟨by rw [hres]; exact h.record, by rw [ht.owners]; exact h.plane, by rw [ht.queue]; exact h.jobs,
    by rw [ht.pau]; exact h.requests, fun a ha hs => ?_, by rw [ht.previews]; exact h.previews, by rw [ht.opened]; exact h.opened⟩
  obtain ⟨howner, g, hg, hshot, hkey, hplane⟩ := h.handoffs a ha hs
  obtain ⟨g', hg', hshot', hkey', hplane'⟩ := ht.handoffs g hg
  exact ⟨by rw [ht.owners]; exact howner, g', hg', hshot'.trans hshot, hkey'.trans hkey, hplane'.trans hplane⟩

theorem residents_renumberTo (old new : Nat) (u : State) :
    residents (renumberTo old new u) = (residents u).map (Record.renumber old new) := by
  change (updateRecords (Record.renumber old new) u).table.slots.filterMap RecordSlot.record? = _
  unfold residents updateRecords
  rw [List.filterMap_map, List.map_filterMap]
  refine List.filterMap_congr fun y _ => ?_
  cases y <;> rfl

theorem renumber_shotRaw (old new m : Nat) : (Owner.shotRaw m).renumber old new = .shotRaw (renameShot old new m) := by
  simp only [Owner.renumber, renameShot]
  split <;> rfl

theorem renumber_handoff (old new m : Nat) (k : DevKey) :
    (Owner.handoff m k).renumber old new = .handoff (renameShot old new m) k := by
  simp only [Owner.renumber, renameShot]
  split <;> rfl

theorem renumber_former (old new : Nat) (y : Record) :
    (y.renumber old new).former = if y.number = old then some old else y.former := by
  unfold Record.renumber
  split <;> rfl

/-- A number renamed throughout. -/
theorem Carried.renumberTo (h : Carried x m f s u) (old new : Nat) :
    Carried x (renameShot old new m) (if m = old then some old else f) s (renumberTo old new u) := by
  have howners : (Machine.renumberTo old new u).pool.owners = u.pool.owners.map (Owner.renumber old new) := rfl
  refine ⟨?_, fun p hp => ?_, fun j hj hs => ?_, fun q hq hs => ?_, fun a ha hs => ?_, fun c a k w l st seed ha hstate hpin => ?_,
    fun ho => ?_⟩
  · obtain ⟨y, hy, hnum, hformer, hlife, hlabel, hframe, hexp, hraw⟩ := h.record
    refine ⟨y.renumber old new, ?_, ?_, ?_, ?_⟩
    · rw [residents_renumberTo]
      exact List.mem_map_of_mem hy
    · rw [renumber_number, hnum]
    · rw [renumber_former, hnum, hformer]
    · rw [← hlife, ← hlabel, ← hframe, ← hexp, ← hraw]
      unfold Record.renumber
      split <;> exact ⟨rfl, rfl, rfl, rfl, rfl⟩
  · rw [howners, List.getElem?_map, h.plane p hp, Option.map_some, renumber_shotRaw]
  · obtain ⟨k, hk, hshot, hkind⟩ := h.jobs j hj hs
    exact ⟨renumberJob old new k, List.mem_map_of_mem hk, congrArg (renameShot old new) hshot, hkind⟩
  · obtain ⟨v, hv, hshot, hop⟩ := h.requests q hq hs
    exact ⟨{ v with shot := renameShot old new v.shot }, List.mem_map_of_mem (f := fun q : PauRequest =>
      { q with shot := renameShot old new q.shot }) hv, congrArg (renameShot old new) hshot, hop⟩
  · obtain ⟨howner, g, hg, hshot, hkey, hplane⟩ := h.handoffs a ha hs
    refine ⟨?_, renumberHandoff old new g, List.mem_map_of_mem hg, congrArg (renameShot old new) hshot, hkey, hplane⟩
    rw [howners, List.getElem?_map, howner, Option.map_some, renumber_handoff]
  · change (u.cache.slots.map (PreviewSlot.renumber old new))[c]? = _
    rw [List.getElem?_map, h.previews c a k w l st seed ha hstate hpin, Option.map_some]
    simp only [PreviewSlot.renumber, renameShot]
    split <;> rfl
  · exact congrArg (Option.map (renameShot old new)) (h.opened ho)

theorem renumberShot_full {old : Nat} (h : 4294967296 ≤ u.table.counter) : renumberShot u old = u := if_pos h

/-- A renumbered state as the renumbering leaves it, the notice apart. -/
theorem renumberShot_takes {old : Nat} (h : u.table.counter < 4294967296) : renumberShot u old =
    raiseShot .renumbered u.table.counter { renumberTo old u.table.counter u with
      table := { (renumberTo old u.table.counter u).table with counter := u.table.counter + 1 } } :=
  if_neg (Nat.not_le.2 h)

theorem Carried.renumberShot (h : Carried x m f s u) (hc : u.table.counter < 4294967296) (old : Nat) :
    Carried x (renameShot old u.table.counter m) (if m = old then some old else f) s (renumberShot u old) := by
  rw [renumberShot_takes hc]
  have hto := h.renumberTo old u.table.counter
  generalize Machine.renumberTo old u.table.counter u = v at hto ⊢
  exact hto.of_same ⟨rfl, rfl, rfl, rfl, fun g hg => ⟨g, hg, rfl, rfl, rfl⟩, rfl, rfl⟩

/-- Other records renumbered leave a number where it is. -/
theorem Carried.others (h : Carried x m f s u) {l : List Nat} (hl : m ∉ l) : Carried x m f s (l.foldl Machine.renumberShot u) := by
  induction l generalizing u with
  | nil => exact h
  | cons old l ih =>
    obtain ⟨hne, hl⟩ := not_or.1 (fun hm => hl (List.mem_cons.2 hm))
    refine ih ?_ hl
    rcases Nat.lt_or_ge u.table.counter 4294967296 with hc | hc
    · have hstep := h.renumberShot hc old
      rwa [renameShot, if_neg hne, if_neg hne] at hstep
    · rwa [renumberShot_full hc]

/-! ### The counter and the notice -/

theorem renumberShot_counter_lt {old : Nat} (h : u.table.counter < 4294967296) :
    (renumberShot u old).table.counter = u.table.counter + 1 := by
  rw [renumberShot_takes h]
  rfl

theorem renumberShots_counter (l : List Nat) {u : State} (h : u.table.counter ≤ 4294967296) :
    (l.foldl Machine.renumberShot u).table.counter = u.table.counter + min l.length (4294967296 - u.table.counter) := by
  induction l generalizing u with
  | nil => simp
  | cons old l ih =>
    rw [List.foldl_cons, List.length_cons]
    rcases Nat.lt_or_ge u.table.counter 4294967296 with hc | hc
    · have hnext := renumberShot_counter_lt (old := old) hc
      rw [ih (by omega), hnext]
      omega
    · rw [renumberShot_full hc, ih h]
      omega

/-- Two raisings of a kind are one (R176). -/
theorem raised_raised (a b : Option Subject) (i j : Nat) (k : Notice) :
    Notice.raised a i (Notice.raised b j k) = Notice.raised a (j + i) k := by
  unfold Notice.raised
  by_cases hlevel : k.level = 0
  · simp [hlevel]
  · simp only [hlevel, if_false, if_true, Notice.mk.injEq, true_and, and_true]
    omega

/-- The notice of a renumbering: the count of the records, and the last number given. -/
theorem renumberShots_notice (l : List Nat) {u : State} (h : u.table.counter ≤ 4294967296) :
    (l.foldl Machine.renumberShot u).notices.kinds[NoticeKind.renumbered.place]? =
      (u.notices.kinds[NoticeKind.renumbered.place]?).map fun k =>
        if min l.length (4294967296 - u.table.counter) = 0 then k else
          Notice.raised (some (.shot (u.table.counter + min l.length (4294967296 - u.table.counter) - 1)))
            (min l.length (4294967296 - u.table.counter)) k := by
  induction l generalizing u with
  | nil => simp
  | cons old l ih =>
    rw [List.foldl_cons, List.length_cons]
    rcases Nat.lt_or_ge u.table.counter 4294967296 with hc | hc
    · have hnext := renumberShot_counter_lt (old := old) hc
      have hraised : (Machine.renumberShot u old).notices.kinds[NoticeKind.renumbered.place]? =
          (u.notices.kinds[NoticeKind.renumbered.place]?).map (Notice.raised (some (.shot u.table.counter)) 1) := by
        rw [renumberShot_takes hc]
        exact raisedOnce_raise .renumbered (some (.shot u.table.counter)) _
      rw [ih (by omega), hraised, hnext, Option.map_map]
      refine congrArg (fun g => Option.map g _) (funext fun k => ?_)
      have htaken : min (l.length + 1) (4294967296 - u.table.counter) = 1 + min l.length (4294967296 - (u.table.counter + 1)) := by
        omega
      rw [htaken]
      generalize min l.length (4294967296 - (u.table.counter + 1)) = d
      rw [if_neg (show ¬ 1 + d = 0 by omega)]
      rcases Nat.eq_zero_or_pos d with rfl | hd
      · rfl
      · simp only [Function.comp]
        rw [if_neg hd.ne', raised_raised, show u.table.counter + 1 + d - 1 = u.table.counter + (1 + d) - 1 by omega]
    · rw [renumberShot_full hc, ih h]
      have h1 : min (l.length + 1) (4294967296 - u.table.counter) = 0 := by omega
      have h2 : min l.length (4294967296 - u.table.counter) = 0 := by omega
      rw [h1, h2]

/-! ### The numbers that a mount gives (R23) -/

theorem renumbers_iff (next : Nat) (r : Record) : Record.renumbers next r = true ↔ MustRenumber next r := by
  unfold Record.renumbers
  simp [or_assoc]

theorem shotsWhere_ascending (h : NumbersDistinct s) (p : Record → Bool) : (shotsWhere s p).Pairwise (· < ·) := by
  have hle : (shotsWhere s p).Pairwise (· ≤ ·) := List.pairwise_insertionSort (· ≤ ·) _
  exact (hle.and (nodup_shotsWhere h p)).imp fun ⟨h1, h2⟩ => Nat.lt_of_le_of_ne h1 h2

theorem shotsWhere_countP (s : State) (p : Record → Bool) (q : Nat → Bool) :
    (shotsWhere s p).countP q = (residents s).countP fun r => p r && q r.number := by
  unfold shotsWhere
  rw [(List.perm_insertionSort _ _).countP_eq, List.countP_map, List.countP_filter]
  exact List.countP_congr fun r _ => by simp [and_comm]

/-- The rank of a number is how many of the numbers given out stand before it. -/
theorem countP_renumbers (next n : Nat) (s : State) :
    ((shotsWhere s (Record.renumbers next)).countP fun m => decide (m < n)) = renumberRank next n s := by
  rw [shotsWhere_countP]
  unfold renumberRank
  refine List.countP_congr fun r _ => ?_
  rw [Bool.and_eq_true, Bool.and_eq_true, renumbers_iff, decide_eq_true_iff (p := MustRenumber next r)]

theorem length_renumbers (next : Nat) (s : State) :
    (shotsWhere s (Record.renumbers next)).length = renumberRank next next s := by
  rw [← countP_renumbers]
  refine (List.countP_eq_length.2 fun m hm => ?_).symm
  obtain ⟨r, _, hr, hrm⟩ := mem_shotsWhere.1 hm
  rw [← hrm]
  exact decide_eq_true ((renumbers_iff next r).1 hr).2

/-- An ascending list is what stands before a number, the number, and what stands behind it. -/
theorem ascending_split {l : List Nat} (h : l.Pairwise (· < ·)) {n : Nat} (hn : n ∈ l) :
    ∃ a b, l = a ++ n :: b ∧ n ∉ a ∧ n ∉ b ∧ a.length = l.countP fun m => decide (m < n) := by
  obtain ⟨a, b, rfl⟩ := List.append_of_mem hn
  obtain ⟨_, hb, hab⟩ := List.pairwise_append.1 h
  have hafter := (List.pairwise_cons.1 hb).1
  have hbefore : ∀ m ∈ a, m < n := fun m hm => hab m hm n List.mem_cons_self
  refine ⟨a, b, rfl, fun hm => Nat.lt_irrefl _ (hbefore n hm), fun hm => Nat.lt_irrefl _ (hafter n hm), ?_⟩
  have hnone : (n :: b).countP (fun m => decide (m < n)) = 0 := by
    refine List.countP_eq_zero.2 fun m hm => ?_
    rcases List.mem_cons.1 hm with rfl | hm
    · simp
    · simpa using (hafter m hm).le
  rw [List.countP_append, hnone, Nat.add_zero]
  exact (List.countP_eq_length.2 fun m hm => decide_eq_true (hbefore m hm)).symm

/-- The state whose counter is above a card's numbers, before records are renumbered. -/
def counterAbove (next : Nat) (s : State) : State :=
  { s with table := { s.table with counter := max s.table.counter next } }

theorem renumberAll_eq (next : Nat) (s : State) :
    renumberAll next s = (shotsWhere s (Record.renumbers next)).foldl renumberShot (counterAbove next s) := rfl

/-- A record that a mount renumbers takes the number of its rank, as long as one is left. -/
theorem renumberAll_takes {next : Nat} {s0 : State} (hd : NumbersDistinct s) (hhigh : max s.table.counter next ≤ 4294967296)
    (h : Carried x x.number f s0 s) (hx : x ∈ residents s) (hmust : MustRenumber next x)
    (hlt : max s.table.counter next + renumberRank next x.number s < 4294967296) :
    Carried x (max s.table.counter next + renumberRank next x.number s) (some x.number) s0 (renumberAll next s) := by
  have hmem : x.number ∈ shotsWhere s (Record.renumbers next) :=
    mem_shotsWhere.2 ⟨x, hx, (renumbers_iff next x).2 hmust, rfl⟩
  obtain ⟨a, b, hl, ha, hb, hlen⟩ := ascending_split (shotsWhere_ascending hd _) hmem
  rw [countP_renumbers] at hlen
  have hbelow : ∀ n ∈ shotsWhere s (Record.renumbers next), n < next := fun n hn => by
    obtain ⟨r, _, hr, hrn⟩ := mem_shotsWhere.1 hn
    rw [← hrn]
    exact ((renumbers_iff next r).1 hr).2
  have hstart : Carried x x.number f s0 (counterAbove next s) :=
    h.of_same ⟨rfl, rfl, rfl, rfl, fun g hg => ⟨g, hg, rfl, rfl, rfl⟩, rfl, rfl⟩
  have hbefore := hstart.others ha
  have hcounter := renumberShots_counter a (u := counterAbove next s) hhigh
  rw [show (counterAbove next s).table.counter = max s.table.counter next from rfl, hlen, min_eq_left (by omega)] at hcounter
  have htaken := hbefore.renumberShot (by omega) x.number
  rw [hcounter, if_pos rfl, renameShot, if_pos rfl] at htaken
  rw [renumberAll_eq, hl, List.foldl_append, List.foldl_cons]
  refine htaken.others fun hm => ?_
  have := hbelow _ (by rw [hl]; exact List.mem_append_right _ (List.mem_cons_of_mem _ hm))
  omega

/-- Every other record keeps its number. -/
theorem renumberAll_leaves {next : Nat} {s0 : State} (hd : NumbersDistinct s) (hhigh : max s.table.counter next ≤ 4294967296)
    (h : Carried x x.number f s0 s) (hx : x ∈ residents s)
    (hkeep : ¬ MustRenumber next x ∨ 4294967296 ≤ max s.table.counter next + renumberRank next x.number s) :
    Carried x x.number f s0 (renumberAll next s) := by
  have hstart : Carried x x.number f s0 (counterAbove next s) :=
    h.of_same ⟨rfl, rfl, rfl, rfl, fun g hg => ⟨g, hg, rfl, rfl, rfl⟩, rfl, rfl⟩
  rw [renumberAll_eq]
  by_cases hmem : x.number ∈ shotsWhere s (Record.renumbers next)
  · have hmust : MustRenumber next x := by
      obtain ⟨r, hr, hren, hrn⟩ := mem_shotsWhere.1 hmem
      rw [← resident_unique hd hr hx hrn]
      exact (renumbers_iff next r).1 hren
    have hfull := hkeep.resolve_left (not_not.2 hmust)
    obtain ⟨a, b, hl, ha, hb, hlen⟩ := ascending_split (shotsWhere_ascending hd _) hmem
    rw [countP_renumbers] at hlen
    have hcounter := renumberShots_counter a (u := counterAbove next s) hhigh
    rw [show (counterAbove next s).table.counter = max s.table.counter next from rfl, hlen] at hcounter
    rw [hl, List.foldl_append, List.foldl_cons, renumberShot_full (by omega)]
    exact (hstart.others ha).others hb
  · exact hstart.others hmem

end

end Sys2Proof.ShotTable
end

section
/-! Shot table: what the start of card work leaves of the map, the full flag, the marks and the hand-offs (R149 to R153). -/

namespace Sys2Proof.ShotTable
open Sys2Proof.Machine

/-! ### The clusters that work takes -/

theorem takeClusters_clusters {m taken left : List Run} {n : Nat} (h : takeClusters m n = some (taken, left)) :
    clustersOf taken ++ clustersOf left = clustersOf m := by
  induction m generalizing n taken left with
  | nil =>
    cases n with
    | zero =>
      cases h
      rfl
    | succ n => cases h
  | cons r m ih =>
    cases n with
    | zero =>
      cases h
      rfl
    | succ n =>
      unfold takeClusters at h
      split at h
      · next hlt =>
        cases h
        rw [clustersOf_cons, clustersOf_cons, clustersOf_cons, ← List.append_assoc]
        congr 1
        change List.range' r.start (n + 1) ++ [] ++ List.range' (r.start + (n + 1)) (r.length - (n + 1)) = _
        rw [List.append_nil, List.range'_append_1, Nat.add_sub_cancel' hlt.le]
      · split at h
        · cases h
        · next taken' left' hrest =>
          cases h
          rw [clustersOf_cons, clustersOf_cons, List.append_assoc, ih hrest]

theorem allocate_clusters {m taken left : List Run} {n : Nat} (h : allocate m n = some (taken, left)) :
    clustersOf taken ++ clustersOf left = clustersOf m := by
  unfold allocate at h
  split at h
  · cases h
  · next taken' left' htake =>
    split at h
    · cases h
      exact takeClusters_clusters htake
    · cases h

theorem residents_updateRecord (n : Nat) (f : Record → Record) (s : State) :
    residents (updateRecord n f s) = (residents s).map fun r => if r.number = n then f r else r := by
  change (s.table.slots.map (RecordSlot.mapRecord n f)).filterMap RecordSlot.record? = _
  unfold residents
  rw [List.filterMap_map, List.map_filterMap]
  refine List.filterMap_congr fun x _ => ?_
  cases x with
  | inUse r =>
    by_cases hn : r.number = n <;> simp [RecordSlot.mapRecord, RecordSlot.record?, hn]
  | _ => rfl

theorem findRecord_updateRecord {n : Nat} {f : Record → Record} (hf : ∀ r, (f r).number = r.number) (s : State) :
    findRecord (updateRecord n f s) n = (findRecord s n).map f := by
  unfold findRecord
  rw [residents_updateRecord, List.find?_map]
  have hsame : ((fun r : Record => r.number == n) ∘ fun r => if r.number = n then f r else r) = fun r => r.number == n := by
    funext r
    simp only [Function.comp]
    split
    · rw [hf]
    · rfl
  rw [hsame]
  cases hr : (residents s).find? fun r => r.number == n with
  | none => rfl
  | some r =>
    have hn : r.number = n := (findRecord_mem (s := s) (n := n) hr).2
    rw [Option.map_some, Option.map_some, if_pos hn]

/-- Clusters taken by the work in flight, and the free ones behind them. -/
def MapIs (l : List Nat) (s : State) : Prop := clustersTaken s ++ clustersOf s.card.map = l

section
variable {l : List Nat} {s t : State}

/-- Work that takes no clusters. -/
theorem MapIs.of_none (h : MapIs l s) (hs : clustersTaken s = []) (ht : clustersTaken t = []) (hm : t.card.map = s.card.map) :
    MapIs l t := by
  unfold MapIs at *
  rw [hs] at h
  rw [ht, hm]
  exact h

theorem clustersTaken_idle (h : s.card.work = none) : clustersTaken s = [] := by
  unfold clustersTaken
  rw [h]

theorem allocationFailed_card (n : Nat) (s : State) :
    (allocationFailed n s).card = { s.card with full := true } := by
  unfold allocationFailed
  dsimp only
  split <;> rfl

theorem MapIs.takeChoice (h : MapIs l s) (hw : s.card.work = none) {c : Choice} (hc : nextChoice s = some c) :
    MapIs l (takeChoice c s) := by
  have hs := clustersTaken_idle hw
  cases c with
  | read q => cases q <;> exact h.of_none hs rfl rfl
  | dirty n => exact h.of_none hs rfl rfl
  | entry e => cases e <;> exact h.of_none hs rfl rfl
  | developed x =>
    simp only [Machine.takeChoice, startDeveloped]
    split
    · refine h.of_none hs (clustersTaken_idle ?_) (by rw [allocationFailed_card]; rfl)
      rw [allocationFailed_card]
      exact hw
    · next runs left ha =>
      unfold MapIs at *
      rw [hs] at h
      exact (allocate_clusters ha).trans h
  | raw q =>
    simp only [Machine.takeChoice, startRaw]
    split
    · next runs left _ ha _ =>
      have hfind : findRecord s q.number = some q := by
        have hq := nextChoice_raw hc
        unfold nextRaw at hq
        obtain ⟨n, _, hf⟩ := Option.bind_eq_some_iff.1 hq
        obtain ⟨_, rfl⟩ := findRecord_mem hf
        exact hf
      have hup := findRecord_updateRecord (n := q.number) (f := fun r =>
        { r with rawRuns := runs, rawCard := .writing, rawSize := (s.seq.columns, s.seq.rows) }) (fun _ => rfl) s
      rw [hfind] at hup
      have htaken : clustersTaken (setWork (some (.rawWrite q.number 0)) { updateRecord q.number (fun r =>
          { r with rawRuns := runs, rawCard := .writing, rawSize := (s.seq.columns, s.seq.rows) }) s with
          card := { s.card with map := left } }) = clustersOf runs := by
        change clustersOf (((findRecord (updateRecord q.number _ s) q.number).map Record.rawRuns).getD []) = _
        rw [hup]
        rfl
      unfold MapIs at *
      rw [hs] at h
      exact ((congrArg (· ++ clustersOf left) htaken).trans (allocate_clusters ha)).trans h
    · refine h.of_none hs (clustersTaken_idle ?_) (by rw [allocationFailed_card])
      rw [allocationFailed_card]
      exact hw

theorem MapIs.startCardWork (h : MapIs l s) : MapIs l (startCardWork s) := by
  refine startCardWork_preserves (fun c u hw hc hu => hu.takeChoice hw hc) (fun u hu => ?_) h
  unfold kick
  split <;> exact hu

/-! ### The hand-offs -/

/-- The hand-offs keep their shots, keys and planes. -/
def HandoffsKept (s t : State) : Prop :=
  ∀ g ∈ s.card.handoffs, ∃ g' ∈ t.card.handoffs, g'.shot = g.shot ∧ g'.key = g.key ∧ g'.plane = g.plane

theorem handoffsKept_of_card (h : t.card.handoffs = s.card.handoffs) : HandoffsKept s t := by
  intro g hg
  exact ⟨g, by rw [h]; exact hg, rfl, rfl, rfl⟩

theorem handoffsKept_trans {u : State} (h : HandoffsKept s t) (h' : HandoffsKept t u) : HandoffsKept s u := by
  intro g hg
  obtain ⟨g1, hg1, hs1, hk1, hp1⟩ := h g hg
  obtain ⟨g2, hg2, hs2, hk2, hp2⟩ := h' g1 hg1
  exact ⟨g2, hg2, hs2.trans hs1, hk2.trans hk1, hp2.trans hp1⟩

theorem handoffsKept_update (x : Handoff) {f : Handoff → Handoff}
    (hf : ∀ g, (f g).shot = g.shot ∧ (f g).key = g.key ∧ (f g).plane = g.plane) (s : State) :
    HandoffsKept s (updateHandoff x f s) := by
  intro g hg
  refine ⟨_, List.mem_map_of_mem hg, ?_⟩
  split
  · exact hf g
  · exact ⟨rfl, rfl, rfl⟩

theorem handoffsKept_takeChoice (c : Choice) (s : State) : HandoffsKept s (takeChoice c s) := by
  cases c with
  | read q => cases q <;> exact handoffsKept_of_card rfl
  | dirty n => exact handoffsKept_of_card rfl
  | entry e => cases e <;> exact handoffsKept_of_card rfl
  | developed x =>
    simp only [takeChoice, startDeveloped]
    split
    · have hmark := handoffsKept_update x (f := fun x => { x with marked := true }) (fun _ => ⟨rfl, rfl, rfl⟩) s
      exact handoffsKept_trans hmark (handoffsKept_of_card (by rw [allocationFailed_card]))
    · have hwrite := handoffsKept_update x (f := fun x => { x with writing := true }) (fun _ => ⟨rfl, rfl, rfl⟩) s
      exact handoffsKept_trans hwrite (handoffsKept_of_card rfl)
  | raw q =>
    simp only [takeChoice, startRaw]
    split
    · exact handoffsKept_of_card rfl
    · exact handoffsKept_of_card (by rw [allocationFailed_card])

theorem handoffsKept_serveBlocks (s : State) : HandoffsKept s (serveBlocks s) := by
  have hclaims : HandoffsKept s (attemptDispatch (serveDarkClaim s)) :=
    handoffsKept_of_card ((attemptDispatch_handoffs _).trans (by simp))
  have hcard := startCardWork_preserves (P := HandoffsKept s)
    (fun c u _ _ hu => handoffsKept_trans hu (handoffsKept_takeChoice c u))
    (fun u hu => handoffsKept_trans hu (handoffsKept_of_card (by unfold kick; split <;> rfl))) hclaims
  exact handoffsKept_trans hcard (handoffsKept_of_card (by simp [serveBlocks]))

/-- What carries a number carries it after the work that follows an event. -/
theorem Carried.serveBlocks {x : Record} {m : Nat} {f : Option Nat} {u : State} (h : Carried x m f s u) :
    Carried x m f s (serveBlocks u) := by
  have howners := ownersKept_serveBlocks u
  refine ⟨?_, fun p hp => howners p _ (h.plane p hp) nofun, fun j hj hs => ?_, ?_, fun a ha hs => ?_,
    fun c a k w l st seed ha hstate hpin => ?_, fun ho => ?_⟩
  · obtain ⟨y, hy, hnum, hformer, hlife, hlabel, hframe, hexp, hraw⟩ := h.record
    obtain ⟨y', hy', hsame⟩ := slotsKept_record (slotsKept_serveBlocks u) hy
    refine ⟨y', hy', ?_⟩
    rw [hsame]
    exact ⟨hnum, hformer, hlife, hlabel, hframe, hexp, hraw⟩
  · obtain ⟨k, hk, hshot, hkind⟩ := h.jobs j hj hs
    obtain ⟨k', hk', hshot', hkind', _⟩ := jobsKept_job (jobsKept_serveBlocks u) hk
    exact ⟨k', hk', hshot'.trans hshot, hkind'.trans hkind⟩
  · rw [show (Machine.serveBlocks u).pau = u.pau by simp]
    exact h.requests
  · obtain ⟨howner, g, hg, hshot, hkey, hplane⟩ := h.handoffs a ha hs
    obtain ⟨g', hg', hshot', hkey', hplane'⟩ := handoffsKept_serveBlocks u g hg
    exact ⟨howners _ _ howner nofun, g', hg', hshot'.trans hshot, hkey'.trans hkey, hplane'.trans hplane⟩
  · exact cacheKept_pinned (cacheKept_serveBlocks u) (h.previews c a k w l st seed ha hstate hpin) nofun hpin
  · rcases seqKept_serveBlocks u with hseq | ⟨_, tm, hseq⟩
    · rw [hseq]
      exact h.opened ho
    · rw [hseq]
      exact h.opened ho

/-! ### The full flag and the room marks -/

/-- The full flag is clear and CARD_FULL as it was, or the flag is set and CARD_FULL raised once (R150). -/
def FullOnce (s t : State) : Prop :=
  (t.card.full = false ∧ t.notices.kinds[NoticeKind.cardFull.place]? = s.notices.kinds[NoticeKind.cardFull.place]?) ∨
  (t.card.full = true ∧ ∃ n, RaisedOnce .cardFull (some (.shot n)) s t)

theorem FullOnce.of_same {u : State} (h : FullOnce s t) (hfull : u.card.full = t.card.full) (hn : u.notices = t.notices) :
    FullOnce s u := by
  unfold FullOnce RaisedOnce at *
  rw [hfull, hn]
  exact h

theorem FullOnce.allocationFailed (h : FullOnce s t) (n : Nat) : FullOnce s (allocationFailed n t) := by
  rcases h with ⟨hfull, hkind⟩ | ⟨hfull, m, hraised⟩
  · refine .inr ⟨by rw [allocationFailed_card], n, ?_⟩
    have honce := raisedOnce_raise .cardFull (some (.shot n)) t
    unfold Machine.allocationFailed RaisedOnce at *
    rw [hfull, if_neg Bool.false_ne_true, ← hkind]
    exact honce
  · refine .inr ⟨by rw [allocationFailed_card], m, ?_⟩
    unfold Machine.allocationFailed
    rw [hfull, if_pos rfl]
    exact hraised

theorem FullOnce.takeChoice {u : State} (h : FullOnce s u) (c : Choice) : FullOnce s (takeChoice c u) := by
  cases c with
  | read q => cases q <;> exact h
  | dirty n => exact h
  | entry e => cases e <;> exact h
  | developed x =>
    simp only [Machine.takeChoice, startDeveloped]
    split
    · exact FullOnce.allocationFailed (t := updateHandoff x (fun x => { x with marked := true }) u) h _
    · exact h
  | raw q =>
    simp only [Machine.takeChoice, startRaw]
    split
    · exact h
    · exact FullOnce.allocationFailed (t := { u with card := { u.card with marks := u.card.marks ++ [q.number] } }) h _

theorem FullOnce.startCardWork {u : State} (h : FullOnce s u) : FullOnce s (startCardWork u) := by
  refine startCardWork_preserves (fun c u _ _ hu => hu.takeChoice c) (fun u hu => hu.of_same ?_ ?_) h
  · unfold kick
    split <;> rfl
  · unfold kick
    split <;> rfl

/-- Nothing of the full flag and the room marks is set (R148). -/
def RoomClear (s : State) : Prop := s.card.full = false ∧ s.card.marks = [] ∧ ∀ h ∈ s.card.handoffs, h.marked = false

/-- Work in which no allocation is made: on a protected card, or with no shot to write. -/
def NoWrite (s : State) : Prop := s.card.state = .readOnly ∨ ∀ r ∈ residents s, r.life ≠ .held ∧ r.rawCard ≠ .onCard

theorem nextChoice_readOnly (h : s.card.state = .readOnly) {c : Choice} (hc : nextChoice s = some c) : ∃ q, c = .read q := by
  unfold nextChoice at hc
  simp only [h, CardState.starts] at hc
  cases hr : s.card.reads.head? with
  | none =>
    rw [hr] at hc
    cases hc
  | some q =>
    rw [hr] at hc
    cases hc
    exact ⟨q, rfl⟩

/-- Where nothing is written no write is chosen. -/
theorem NoWrite.choice (h : NoWrite s) {c : Choice} (hc : nextChoice s = some c) :
    (∃ q, c = .read q) ∨ (∃ e, c = .entry e) ∨ ∃ n, c = .dirty n := by
  rcases h with h | h
  · exact .inl (nextChoice_readOnly h hc)
  · obtain ⟨q, rfl, _⟩ | ⟨e, rfl, _⟩ | ⟨x, rfl, hx⟩ | ⟨r, rfl, hr⟩ | ⟨n, rfl, _⟩ := nextChoice_cases hc
    · exact .inl ⟨q, rfl⟩
    · exact .inr (.inl ⟨e, rfl⟩)
    · exfalso
      have hcard := List.find?_some hx
      simp only [Bool.and_eq_true] at hcard
      obtain ⟨_, hon⟩ := hcard
      unfold shotOnCard at hon
      obtain ⟨r, hf, hr⟩ := (Option.any_eq_true _ _).1 hon
      exact (h r (findRecord_mem hf).1).2 (beq_iff_eq.1 hr)
    · exfalso
      unfold nextRaw at hr
      obtain ⟨n, hn, _⟩ := Option.bind_eq_some_iff.1 hr
      obtain ⟨p, hp, he, _⟩ := mem_shotsWhere.1 (List.mem_of_mem_head? hn)
      simp only [rawEligible, Bool.and_eq_true, beq_iff_eq] at he
      obtain ⟨⟨⟨⟨⟨hlife, _⟩, _⟩, _⟩, _⟩, _⟩ := he
      exact (h p hp).1 hlife
    · exact .inr (.inr ⟨n, rfl⟩)

theorem roomClear_startCardWork (h : RoomClear s) (hn : NoWrite s) : RoomClear (startCardWork s) := by
  have hboth : RoomClear (startCardWork s) ∧ NoWrite (startCardWork s) := by
    refine startCardWork_preserves (P := fun u => RoomClear u ∧ NoWrite u) (fun c u _ hc ⟨hr, hw⟩ => ?_)
      (fun u ⟨hr, hw⟩ => ?_) ⟨h, hn⟩
    · obtain ⟨q, rfl⟩ | ⟨e, rfl⟩ | ⟨n, rfl⟩ := hw.choice hc
      · cases q <;> exact ⟨hr, hw⟩
      · cases e <;> exact ⟨hr, hw⟩
      · exact ⟨hr, hw⟩
    · unfold kick
      split <;> exact ⟨hr, hw⟩
  exact hboth.1

/-! ### The work that follows an event -/

/-- The claims served and a dispatch attempted, as the start of card work finds them. -/
def dispatched (s : State) : State := attemptDispatch (serveDarkClaim s)

theorem serveBlocks_dispatched (s : State) : serveBlocks s = claimForDark (startCardWork (dispatched s)) := rfl

/-- Of the Card Store a dispatch changes the read queue alone. -/
theorem dispatched_card (s : State) : (dispatched s).card = { s.card with reads := (dispatched s).card.reads } := by
  have hjob : ∀ (j : Job) (r : Record) (u : State), (dispatchJob j r u).card =
      { u.card with reads := (dispatchJob j r u).card.reads } := by
    intro j r u
    have hcard : ∀ (x y slot : Option Nat) (v : State),
        ((slot.map fillSlot).getD id (claimPlane x .devFetch (claimPlane y .devOutput v))).card = v.card := by
      intro x y slot v
      cases slot <;> simp
    unfold dispatchJob
    dsimp only
    split
    · simp only [joinReads, hcard]
    · simp only [hcard]
  have hdark : (serveDarkClaim s).card = s.card := by simp
  unfold dispatched
  rw [← hdark]
  generalize serveDarkClaim s = u
  unfold attemptDispatch
  split
  · split
    · rfl
    · split
      · rfl
      · exact hjob _ _ u
  · rfl

theorem dispatched_keeps (s : State) : (dispatched s).table = s.table ∧ (dispatched s).notices = s.notices := by
  unfold dispatched
  simp

theorem claimForDark_card_table (s : State) : (claimForDark s).card = s.card ∧ (claimForDark s).table = s.table ∧
    (claimForDark s).notices = s.notices := by
  simp

theorem MapIs.serveBlocks (h : MapIs l s) (hw : s.card.work = none) : MapIs l (serveBlocks s) := by
  have hcard := dispatched_card s
  have hstart : MapIs l (dispatched s) :=
    h.of_none (clustersTaken_idle hw) (clustersTaken_idle (by rw [hcard]; exact hw)) (by rw [hcard])
  obtain ⟨hc, ht, _⟩ := claimForDark_card_table (Machine.startCardWork (dispatched s))
  have hdone := hstart.startCardWork
  unfold MapIs clustersTaken findRecord residents at *
  rw [serveBlocks_dispatched, hc, ht]
  exact hdone

theorem FullOnce.serveBlocks {u : State} (h : FullOnce s u) : FullOnce s (serveBlocks u) := by
  obtain ⟨_, hnotices⟩ := dispatched_keeps u
  have hstart : FullOnce s (dispatched u) := h.of_same (by rw [dispatched_card]) hnotices
  obtain ⟨hc, _, hn⟩ := claimForDark_card_table (Machine.startCardWork (dispatched u))
  exact hstart.startCardWork.of_same (by rw [serveBlocks_dispatched, hc]) (by rw [serveBlocks_dispatched, hn])

theorem roomClear_serveBlocks (h : RoomClear s) (hn : NoWrite s) : RoomClear (serveBlocks s) := by
  have hcard := dispatched_card s
  obtain ⟨htable, _⟩ := dispatched_keeps s
  have hclear : RoomClear (dispatched s) := by
    unfold RoomClear at *
    rw [hcard]
    exact h
  have hnone : NoWrite (dispatched s) := by
    unfold NoWrite residents at *
    rw [hcard, htable]
    exact hn
  have hdone := roomClear_startCardWork hclear hnone
  unfold RoomClear at *
  rw [serveBlocks_dispatched, (claimForDark_card_table _).1]
  exact hdone

end

end Sys2Proof.ShotTable
end

section
/-! Shot table: the finish of a mount, and its reads as a whole (O45). -/

namespace Sys2Proof.ShotTable
open Sys2Proof.Machine View

/-! ### The renumbering leaves the rest -/

/-- Of the Card Store a renumbering changes the hand-offs alone. -/
theorem renumberAll_card (next : Nat) (s : State) :
    (renumberAll next s).card = { s.card with handoffs := (renumberAll next s).card.handoffs } := by
  rw [renumberAll_eq]
  refine foldl_preserves (fun u => u.card = { s.card with handoffs := u.card.handoffs }) renumberShot (fun u old hu => ?_)
    (shotsWhere s (Record.renumbers next)) (counterAbove next s) rfl
  have hstep : (renumberShot u old).card = { u.card with handoffs := (renumberShot u old).card.handoffs } := by
    unfold renumberShot
    split <;> rfl
  rw [hstep, hu]

theorem renumberAll_notices (next : Nat) (s : State) {i : Nat} (hi : i ≠ NoticeKind.renumbered.place) :
    (renumberAll next s).notices.kinds[i]? = s.notices.kinds[i]? := by
  rw [renumberAll_eq]
  refine foldl_preserves (fun u => u.notices.kinds[i]? = s.notices.kinds[i]?) renumberShot (fun u old hu => ?_)
    (shotsWhere s (Record.renumbers next)) (counterAbove next s) rfl
  unfold renumberShot
  split
  · exact hu
  · exact (raiseCount_other .renumbered _ _ _ _ hi).trans hu

/-- A renumbering leaves what records are. -/
theorem renumberAll_records (next : Nat) (s : State) {P : Record → Prop}
    (hP : ∀ old new r, P r → P (Record.renumber old new r)) (h : ∀ r ∈ residents s, P r) :
    ∀ r ∈ residents (renumberAll next s), P r := by
  rw [renumberAll_eq]
  refine foldl_preserves (fun u => ∀ r ∈ residents u, P r) renumberShot (fun u old hu => ?_)
    (shotsWhere s (Record.renumbers next)) (counterAbove next s) h
  unfold renumberShot
  split
  · exact hu
  · change ∀ r ∈ residents (renumberTo old u.table.counter u), P r
    rw [residents_renumberTo]
    intro r hr
    obtain ⟨q, hq, rfl⟩ := List.mem_map.1 hr
    exact hP _ _ _ (hu q hq)

theorem renumberAll_counter {next : Nat} {s : State} (h : max s.table.counter next ≤ 4294967296) :
    (renumberAll next s).table.counter = max s.table.counter next +
      min (renumberRank next next s) (4294967296 - max s.table.counter next) := by
  have hcount := renumberShots_counter (shotsWhere s (Record.renumbers next)) (u := counterAbove next s) h
  rw [renumberAll_eq, hcount, length_renumbers]
  rfl

/-- The notice of a renumbering (R176). -/
theorem renumberAll_notice {next : Nat} {s : State} (h : max s.table.counter next ≤ 4294967296) :
    (renumberAll next s).notices.kinds[NoticeKind.renumbered.place]? =
      (s.notices.kinds[NoticeKind.renumbered.place]?).map fun k =>
        if min (renumberRank next next s) (4294967296 - max s.table.counter next) = 0 then k else
          Notice.raised (some (.shot (max s.table.counter next +
            min (renumberRank next next s) (4294967296 - max s.table.counter next) - 1)))
            (min (renumberRank next next s) (4294967296 - max s.table.counter next)) k := by
  have hnotice := renumberShots_notice (shotsWhere s (Record.renumbers next)) (u := counterAbove next s) h
  rw [length_renumbers] at hnotice
  rw [renumberAll_eq]
  exact hnotice

/-- The counter is never lowered. -/
theorem renumberAll_counter_le (next : Nat) (s : State) : max s.table.counter next ≤ (renumberAll next s).table.counter := by
  rw [renumberAll_eq]
  refine foldl_preserves (fun u => max s.table.counter next ≤ u.table.counter) renumberShot (fun u old hu => ?_)
    (shotsWhere s (Record.renumbers next)) (counterAbove next s) (Nat.le_refl _)
  unfold renumberShot
  split
  · exact hu
  · exact hu.trans (Nat.le_succ _)

/-! ### The finish of a mount -/

/-- What the examination has found stands in the Card Store. -/
def withScan (x : Scan) (s : State) : State :=
  { s with card := { s.card with indexHeld := true, index := x.index, damaged := x.damaged, map := x.map } }

/-- The records renumbered and the room marks cleared. -/
def readied (x : Scan) (s : State) : State := clearFull (renumberAll (nextNumber x.index) (withScan x s))

/-- The end of a mount: the card state, CARD_MOUNTED, and the answer to the format. -/
def mounted (code : ResultCode) (st : CardState) (s : State) : State :=
  answerFormat code (raise .cardMounted none (setCardState st s))

section
variable {x : Scan} {s t : State} {code : ResultCode} {st : CardState}

theorem mounted_keeps (code : ResultCode) (st : CardState) (s : State) :
    (mounted code st s).card = { s.card with state := st, formatTag := none } ∧ (mounted code st s).table = s.table ∧
    (mounted code st s).pool = s.pool ∧ (mounted code st s).dev = s.dev ∧ (mounted code st s).pau = s.pau ∧
    (mounted code st s).cache = s.cache ∧ (mounted code st s).seq = s.seq ∧
    (mounted code st s).notices = (raise .cardMounted none s).notices := by
  unfold mounted answerFormat answerWaiting
  dsimp only
  split <;> exact ⟨rfl, rfl, rfl, rfl, rfl, rfl, rfl, rfl⟩

theorem mounted_answers {tag : Nat} (h : s.card.formatTag = some tag) : Answered (mounted code st s) tag code .empty := by
  have hmid : (raise .cardMounted none (setCardState st s)).card.formatTag = some tag := h
  unfold mounted answerFormat answerWaiting
  dsimp only
  rw [hmid]
  exact answered_answer tag code .empty _

/-- The Card Store when records are renumbered and marks cleared. -/
theorem readied_card (x : Scan) (s : State) : (readied x s).card = { (withScan x s).card with
    full := false, marks := [], handoffs := (readied x s).card.handoffs } := by
  unfold readied
  have hcard := renumberAll_card (nextNumber x.index) (withScan x s)
  generalize renumberAll (nextNumber x.index) (withScan x s) = u at hcard
  unfold clearFull
  dsimp only
  rw [hcard]

theorem readied_roomClear (x : Scan) (s : State) : RoomClear (readied x s) := by
  refine ⟨rfl, rfl, fun h hh => ?_⟩
  obtain ⟨g, _, rfl⟩ := List.mem_map.1 hh
  rfl

/-- What carries a number is left by the end of a mount. -/
theorem sameCarriers_mounted (code : ResultCode) (st : CardState) (x : Scan) (s : State) :
    SameCarriers (renumberAll (nextNumber x.index) (withScan x s)) (mounted code st (readied x s)) := by
  obtain ⟨hcard, htable, hpool, hdev, hpau, hcache, hseq, _⟩ := mounted_keeps code st (readied x s)
  refine ⟨by rw [htable]; rfl, by rw [hpool]; rfl, by rw [hdev]; rfl, by rw [hpau]; rfl, fun g hg => ?_, by rw [hcache]; rfl,
    by rw [hseq]; rfl⟩
  rw [hcard]
  exact ⟨_, List.mem_map_of_mem hg, rfl, rfl, rfl⟩

/-- The finish of a mount on an identified card. -/
theorem finishMount_eq {blocks : List (Nat × List Byte)} {y : Identity} (hy : s.card.identity = some y) :
    finishMount blocks s = mounted (if y.writeProtected then .cardReadOnly else .ok)
      (if y.writeProtected then .readOnly else .ready)
      (readied (scanCatalogue ((s.card.volume.map (·.clusters)).getD 0) blocks) s) := by
  have hprotected : writeProtected (readied (scanCatalogue ((s.card.volume.map (·.clusters)).getD 0) blocks) s) =
      y.writeProtected := by
    have hidentity : (readied (scanCatalogue ((s.card.volume.map (·.clusters)).getD 0) blocks) s).card.identity = some y := by
      rw [readied_card]
      exact hy
    unfold writeProtected
    rw [hidentity]
  rw [← hprotected]
  rfl

theorem nextNumber_next (l : List IndexEntry) : NextNumber l (nextNumber l) := by
  have key : ∀ (l : List IndexEntry) (n : Nat), n ≤ l.foldl (fun n x => max n (x.shot + 1)) n ∧
      (∀ x ∈ l, x.shot < l.foldl (fun n x => max n (x.shot + 1)) n) ∧
      (l.foldl (fun n x => max n (x.shot + 1)) n = n ∨ ∃ x ∈ l, x.shot + 1 = l.foldl (fun n x => max n (x.shot + 1)) n) := by
    intro l
    induction l with
    | nil => exact fun n => ⟨Nat.le_refl _, nofun, .inl rfl⟩
    | cons y l ih =>
      intro n
      obtain ⟨hle, hall, hat⟩ := ih (max n (y.shot + 1))
      rw [List.foldl_cons]
      refine ⟨by omega, fun x hx => ?_, ?_⟩
      · rcases List.mem_cons.1 hx with rfl | hx
        · omega
        · exact hall x hx
      · rcases hat with hat | ⟨x, hx, he⟩
        · rcases Nat.le_total (y.shot + 1) n with hn | hn
          · exact .inl (by omega)
          · exact .inr ⟨y, List.mem_cons_self, by omega⟩
        · exact .inr ⟨x, List.mem_cons_of_mem _ hx, he⟩
  obtain ⟨_, hall, hat⟩ := key l 1
  exact ⟨hall, hat⟩

/-- A card has one next number (R23). -/
theorem nextNumber_unique {l : List IndexEntry} {a b : Nat} (ha : NextNumber l a) (hb : NextNumber l b) : a = b := by
  obtain ⟨hall, hat⟩ := ha
  obtain ⟨hall', hat'⟩ := hb
  have hle : ∀ {a b : Nat}, (∀ x ∈ l, x.shot < b) → (b = 1 ∨ ∃ x ∈ l, x.shot + 1 = b) → (a = 1 ∨ ∃ x ∈ l, x.shot + 1 = a) →
      a ≤ b := by
    intro a b hb hb' ha
    rcases ha with rfl | ⟨x, hx, rfl⟩
    · rcases hb' with rfl | ⟨x, _, rfl⟩
      · exact Nat.le_refl _
      · exact Nat.le_add_left _ _
    · exact hb x hx
  exact Nat.le_antisymm (hle hall' hat' hat) (hle hall hat hat')

/-- Where nothing is written before a renumbering nothing is after it. -/
theorem noWrite_mounted (h : st = .readOnly ∨ ∀ r ∈ residents s, r.life ≠ .held ∧ r.rawCard ≠ .onCard) :
    NoWrite (mounted code st (readied x s)) := by
  obtain ⟨hcard, htable, _⟩ := mounted_keeps code st (readied x s)
  rcases h with h | h
  · exact .inl (by rw [hcard]; exact h)
  · refine .inr ?_
    unfold residents
    rw [htable]
    refine renumberAll_records (nextNumber x.index) (withScan x s) (P := fun r => r.life ≠ .held ∧ r.rawCard ≠ .onCard)
      (fun old new r hr => ?_) h
    obtain ⟨hlife, _, _, hraw⟩ := renumber_fields old new r
    rw [hlife, hraw]
    exact hr

/-- The Card Store when a mount has ended and work has started in the same event. -/
theorem mounted_served_card (hx : ∀ e ∈ x.index, e.shot < 4294967296) (ht : t = serveBlocks (mounted code st (readied x s))) :
    t.card.state = st ∧ t.card.indexHeld = true ∧ t.card.index = x.index ∧ t.card.damaged = x.damaged ∧
    s.table.counter ≤ t.table.counter ∧ ∀ e ∈ t.card.index, e.shot < t.table.counter := by
  obtain ⟨hcard, htable, _⟩ := mounted_keeps code st (readied x s)
  have hkept : CardKept (mounted code st (readied x s)) t := by
    rw [ht]
    exact cardKept_serveBlocks _
  have hindex : t.card.index = x.index := by
    rw [hkept, hcard, readied_card]
    rfl
  have hcounter : t.table.counter = (renumberAll (nextNumber x.index) (withScan x s)).table.counter := by
    rw [ht, serveBlocks_counter, htable]
    rfl
  have hle := renumberAll_counter_le (nextNumber x.index) (withScan x s)
  have hall := (nextNumber_spec x.index hx).2
  rw [hindex, hcounter]
  refine ⟨?_, ?_, rfl, ?_, (Nat.le_max_left _ _).trans hle, fun e he => (hall e he).trans_le ((Nat.le_max_right _ _).trans hle)⟩
  · rw [ht, serveBlocks_cardState, hcard]
  · rw [hkept, hcard, readied_card]
    rfl
  · rw [hkept, hcard, readied_card]
    rfl

/-- The notices of a mount. -/
theorem mounted_notices (code : ResultCode) (st : CardState) (x : Scan) (s : State) :
    RaisedOnce .cardMounted none s (mounted code st (readied x s)) ∧
    ∀ i, i ≠ NoticeKind.cardMounted.place → (mounted code st (readied x s)).notices.kinds[i]? =
      (renumberAll (nextNumber x.index) (withScan x s)).notices.kinds[i]? := by
  obtain ⟨_, _, _, _, _, _, _, hnotices⟩ := mounted_keeps code st (readied x s)
  have hsame : (readied x s).notices = (renumberAll (nextNumber x.index) (withScan x s)).notices := rfl
  have hold := renumberAll_notices (nextNumber x.index) (withScan x s) (i := NoticeKind.cardMounted.place) (by decide)
  refine ⟨?_, fun i hi => ?_⟩
  · have honce := raisedOnce_raise .cardMounted none (readied x s)
    unfold RaisedOnce at *
    rw [hnotices, honce, hsame, hold]
    rfl
  · rw [hnotices, ← hsame]
    exact raiseCount_other .cardMounted none 1 _ i hi

/-- CARD_FULL is raised by an allocation that fails in the event of the mount, and not otherwise. -/
theorem mounted_served_full (ht : t = serveBlocks (mounted code st (readied x s))) (h : t.card.full = true) :
    ∃ n, RaisedOnce .cardFull (some (.shot n)) s t := by
  obtain ⟨hcard, _⟩ := mounted_keeps code st (readied x s)
  have hstart : FullOnce s (mounted code st (readied x s)) := by
    refine .inl ⟨by rw [hcard]; rfl, ?_⟩
    rw [(mounted_notices code st x s).2 _ (by decide), renumberAll_notices _ _ (by decide)]
    rfl
  have hdone := hstart.serveBlocks
  rw [← ht] at hdone
  rcases hdone with ⟨hf, _⟩ | ⟨_, hn⟩
  · rw [hf] at h
    exact absurd h Bool.false_ne_true
  · exact hn

/-- The map of a mount, what has been taken from it in the same event included. -/
theorem mounted_served_map (hw : s.card.work = none) (ht : t = serveBlocks (mounted code st (readied x s))) :
    clustersTaken t ++ clustersOf t.card.map = clustersOf x.map := by
  obtain ⟨hcard, _⟩ := mounted_keeps code st (readied x s)
  have hwork : (mounted code st (readied x s)).card.work = none := by
    rw [hcard, readied_card]
    exact hw
  have hmap : (mounted code st (readied x s)).card.map = x.map := by
    rw [hcard, readied_card]
    rfl
  have hstart : MapIs (clustersOf x.map) (mounted code st (readied x s)) := by
    unfold MapIs
    rw [clustersTaken_idle hwork, hmap, List.nil_append]
  rw [ht]
  exact hstart.serveBlocks hwork

/-- The renumbering of a mount (R23, R24). -/
theorem mounted_served_renumbers (hn : ShotNumbersAgree s) (hp : PlanesAgree s) (hx : ∀ e ∈ x.index, e.shot < 4294967296)
    (ht : t = serveBlocks (mounted code st (readied x s))) : RenumbersForMount (nextNumber x.index) s t := by
  obtain ⟨_, hhigh, hd, _⟩ := hn
  have hmax : max s.table.counter (nextNumber x.index) ≤ 4294967296 := max_le hhigh (nextNumber_spec x.index hx).1
  have hcarried : ∀ r ∈ residents s, Carried r r.number r.former s (withScan x s) := fun r hr =>
    (carried_self hp hr).of_same ⟨rfl, rfl, rfl, rfl, fun g hg => ⟨g, hg, rfl, rfl, rfl⟩, rfl, rfl⟩
  have hfinal : ∀ {r : Record} {m : Nat} {f : Option Nat},
      Carried r m f s (renumberAll (nextNumber x.index) (withScan x s)) → Carried r m f s t := fun h => by
    rw [ht]
    exact (h.of_same (sameCarriers_mounted code st x s)).serveBlocks
  refine ⟨?_, fun r hr hmust hlt => ?_, fun r hr hkeep => ?_, ?_⟩
  · rw [ht, serveBlocks_counter, (mounted_keeps code st _).2.1]
    exact renumberAll_counter (s := withScan x s) hmax
  · have htakes := hfinal (renumberAll_takes (s := withScan x s) hd hmax (hcarried r hr) hr hmust hlt)
    exact ⟨htakes.record, htakes.plane, htakes.jobs, htakes.requests, htakes.handoffs, htakes.previews, htakes.opened⟩
  · obtain ⟨y, hy, hnum, hformer, _⟩ :=
      (hfinal (renumberAll_leaves (s := withScan x s) hd hmax (hcarried r hr) hr hkeep)).record
    exact ⟨y, hy, hnum, hformer⟩
  · rw [ht, (noticesKept_serveBlocks _).2.2 _ (by decide), (mounted_notices code st x _).2 _ (by decide)]
    exact renumberAll_notice (s := withScan x s) hmax

end

/-- The renumbering does not see the work of the card. -/
theorem renumbersForMount_endWork {next : Nat} {s t : State} (h : RenumbersForMount next (endWork s) t) :
    RenumbersForMount next s t := h

theorem planesAgree_endWork {s : State} (h : PlanesAgree s) : PlanesAgree (endWork s) := h

theorem shotNumbersAgree_endWork {s : State} (h : ShotNumbersAgree s) : ShotNumbersAgree (endWork s) := h

/-- What an examination has found is what a mount makes of the blocks (R147). -/
theorem catalogueTaken_of_examined {clusters : Nat} {blocks : List (Nat × List Byte)} {x : Scan} {t : State}
    (h : Examined clusters blocks x) (hindex : t.card.index = x.index) (hdamaged : t.card.damaged = x.damaged)
    (hmap : clustersTaken t ++ clustersOf t.card.map = clustersOf x.map) : CatalogueTaken clusters blocks t := by
  unfold CatalogueTaken
  rw [hindex, hdamaged, hmap]
  exact ⟨fun e he => ⟨h.accepted e he, h.refused e he, h.damaged e he⟩, h.fromBlock, h.damagedBlock, h.ascending,
    h.apart.ascending, h.free⟩

section
variable {s : State}

theorem exec_identifyDone (h : OnBus s) (hw : s.card.work = some .identify) (serial capacity : Nat) (wp : Bool) :
    exec (.identifyDone serial capacity wp) s = .next (nextWork .header { s with card := { s.card with
      identity := some { serial := serial, capacity := capacity, writeProtected := wp } } }) := by
  change Host.Outcome.next (answeredOk _ s) = _
  rw [answeredOk_onBus h, hw]

theorem exec_headerReadDone (h : OnBus s) (hw : s.card.work = some .header) {x : Identity} (hx : s.card.identity = some x)
    (block : List Byte) : exec (.headerReadDone block) s = .next (if headerGood block x.capacity = true then
      nextWork (.catalogue 0 []) { s with card := { s.card with volume := some (headerVolume block) } }
      else service (unformatted (endWork s))) := by
  have hcap : cardCapacity s = x.capacity := by
    unfold cardCapacity
    rw [hx]
    rfl
  change Host.Outcome.next (answeredOk _ s) = _
  rw [answeredOk_onBus h, hw]
  dsimp only
  rw [hcap]

theorem exec_catalogueReadDone (h : OnBus s) {done clusters : Nat} {earlier blocks : List (Nat × List Byte)}
    (hw : s.card.work = some (.catalogue done earlier)) (hc : 0 < clusters) (hle : done + clusters ≤ 2) :
    exec (.catalogueReadDone clusters blocks) s = .next (if done + clusters < 2 then
      nextWork (.catalogue (done + clusters) (earlier ++ blocks)) s
      else service (finishMount (earlier ++ blocks) (endWork s))) := by
  change Host.Outcome.next (answeredOk _ s) = _
  rw [answeredOk_onBus h, hw]
  dsimp only
  rw [if_neg (by omega)]

/-- A bad header leaves the card UNFORMATTED and the format that mounts it answered CARD_ERROR (R146, R159). -/
theorem header_bad {t : State} (ht : t = service (unformatted (endWork s))) : t.card.state = .unformatted ∧
    t.card.volume = none ∧ ∀ tag, s.card.formatTag = some tag → Answered t tag .cardError .empty := by
  have hstate : (unformatted (endWork s)).card.state = .unformatted ∧ (unformatted (endWork s)).card.volume = none := by
    unfold unformatted answerFormat answerWaiting
    dsimp only
    split <;> exact ⟨rfl, rfl⟩
  obtain ⟨hst, hvolume⟩ := hstate
  have hserve : service (unformatted (endWork s)) = serveBlocks (unformatted (endWork s)) := service_eq (by rw [hst]; nofun)
  have hkept : CardKept (unformatted (endWork s)) (serveBlocks (unformatted (endWork s))) := cardKept_serveBlocks _
  refine ⟨?_, ?_, fun tag htag => ?_⟩
  · rw [ht, hserve, serveBlocks_cardState, hst]
  · rw [ht, hserve, hkept]
    exact hvolume
  · rw [ht]
    refine answered_service ?_
    have hmid : (setCardState .unformatted { endWork s with card := { (endWork s).card with volume := none } }).card.formatTag =
        some tag := htag
    unfold unformatted answerFormat answerWaiting
    dsimp only
    rw [hmid]
    exact answered_answer tag .cardError .empty _

end

/-- Settles O45: the reads of a mount one by one, and its finish by the examination and the renumbering. -/
theorem mountRunsItsReads : Obligations.MountRunsItsReads := by
  unfold Obligations.MountRunsItsReads
  intro s hbus
  refine ⟨fun serial capacity wp hw => ?_, fun block x hw hx => ⟨fun hgood => ?_, fun hbad => ?_⟩, fun blocks earlier hw => ?_,
    fun done clusters blocks earlier y hw hc hsum hy => ?_, fun volumeId clusters hw => ?_, fun volumeId clusters hw => ?_,
    fun volumeId clusters hw => ?_⟩
  · exact ⟨_, exec_identifyDone hbus hw serial capacity wp, rfl, ⟨rfl, rfl⟩, rfl⟩
  · refine ⟨_, exec_headerReadDone hbus hw hx block, ?_⟩
    rw [if_pos hgood]
    exact ⟨⟨rfl, rfl⟩, rfl⟩
  · refine ⟨_, exec_headerReadDone hbus hw hx block, ?_⟩
    rw [if_neg (by rw [hbad]; exact Bool.false_ne_true)]
    exact header_bad rfl
  · refine ⟨_, exec_catalogueReadDone hbus hw Nat.one_pos (by omega), ?_⟩
    rw [if_pos (by omega)]
    exact ⟨rfl, rfl⟩
  · have hyend : (endWork s).card.identity = some y := hy
    refine ⟨_, exec_catalogueReadDone hbus hw hc hsum.le, ?_⟩
    rw [if_neg (by omega), finishMount_eq hyend]
    generalize hcode : (if y.writeProtected then ResultCode.cardReadOnly else .ok) = code
    generalize hst : (if y.writeProtected then CardState.readOnly else .ready) = st
    have hvolume : (endWork s).card.volume = s.card.volume := rfl
    have hidle : (endWork s).card.work = none := rfl
    have hnotices : (endWork s).notices = s.notices := rfl
    have hformat : (endWork s).card.formatTag = s.card.formatTag := rfl
    have hindexlt := scan_index_lt (((endWork s).card.volume.map (·.clusters)).getD 0) (earlier ++ blocks)
    have hexamined : ∀ v, s.card.volume = some v → ((earlier ++ blocks).map Prod.fst).Nodup → Examined v.clusters
        (earlier ++ blocks) (scanCatalogue (((endWork s).card.volume.map (·.clusters)).getD 0) (earlier ++ blocks)) := by
      intro v hv hnodup
      rw [hvolume, hv]
      exact scanCatalogue_examined v.clusters hnodup
    generalize scanCatalogue (((endWork s).card.volume.map (·.clusters)).getD 0) (earlier ++ blocks) = x at hindexlt hexamined ⊢
    have hserve : service (mounted code st (readied x (endWork s))) = serveBlocks (mounted code st (readied x (endWork s))) := by
      refine service_eq ?_
      rw [(mounted_keeps code st _).1]
      change st ≠ .ejecting
      rw [← hst]
      split <;> nofun
    rw [hserve]
    generalize ht : serveBlocks (mounted code st (readied x (endWork s))) = t
    obtain ⟨hstate, hheld, hindex, hdamaged, hcounter, hbelow⟩ := mounted_served_card hindexlt ht.symm
    refine ⟨hstate, hheld, hcounter, hbelow, ?_, fun v hv hnodup _ => ?_, fun hf => ?_, fun hno => ?_,
      fun hn hp next hnext => ?_, fun tag htag => ?_⟩
    · have honce := (mounted_notices code st x (endWork s)).1
      rw [← ht]
      unfold RaisedOnce at *
      rw [(noticesKept_serveBlocks _).2.2 _ (by decide), honce, hnotices]
    · exact catalogueTaken_of_examined (hexamined v hv hnodup) hindex hdamaged (mounted_served_map hidle ht.symm)
    · obtain ⟨n, hraised⟩ := mounted_served_full ht.symm hf
      exact ⟨n, raisedOnce_congr hraised hnotices.symm rfl⟩
    · rw [← ht]
      refine roomClear_serveBlocks ?_ (noWrite_mounted (hno.imp_left fun hwp => ?_))
      · have hclear := readied_roomClear x (endWork s)
        unfold RoomClear at *
        rw [(mounted_keeps code st _).1]
        exact hclear
      · rw [← hst, if_pos hwp]
    · rw [hindex] at hnext
      rw [nextNumber_unique hnext (nextNumber_next x.index)]
      exact renumbersForMount_endWork
        (mounted_served_renumbers (shotNumbersAgree_endWork hn) (planesAgree_endWork hp) hindexlt ht.symm)
    · rw [← ht, ← hserve]
      refine answered_service (mounted_answers ?_)
      rw [readied_card]
      exact hformat.trans htag
  · refine ⟨nextWork (.format 1 volumeId clusters) s, ?_, rfl, rfl⟩
    change Host.Outcome.next (answeredOk _ s) = _
    rw [answeredOk_onBus hbus, hw]
    rfl
  · refine ⟨nextWork (.format 2 volumeId clusters) s, ?_, rfl, rfl⟩
    change Host.Outcome.next (answeredOk _ s) = _
    rw [answeredOk_onBus hbus, hw]
    rfl
  · refine ⟨nextWork .identify s, ?_, rfl, rfl⟩
    change Host.Outcome.next (answeredOk _ s) = _
    rw [answeredOk_onBus hbus, hw]
    rfl

end Sys2Proof.ShotTable
end

section
/-! Shot table: the work that follows an event where the card starts nothing. -/

namespace Sys2Proof.ShotTable
open Sys2Proof.Machine

section
variable {s : State}

/-! ### No work to choose -/

/-- In these card states the arbiter starts nothing. -/
theorem nextChoice_stopped (h : ∀ c, s.card.state.starts c = false) : nextChoice s = none := by
  unfold nextChoice
  simp [h]

/-- In EJECTING the arbiter starts the entry writes and the rewrites alone. -/
theorem nextChoice_ejecting (h : s.card.state = .ejecting) (he : s.card.entries = []) (hd : nextDirty s = none) :
    nextChoice s = none := by
  unfold nextChoice
  simp [h, he, hd, CardState.starts]

theorem nextDirty_none (h : ¬ RewriteWaits s) : nextDirty s = none := by
  unfold nextDirty
  cases hf : s.table.amended.find? fun a => !a.taken with
  | none => rfl
  | some a =>
    rw [Option.bind_some]
    cases hr : findRecord s a.shot with
    | none => rfl
    | some r =>
      dsimp only
      refine if_neg fun hc => h ?_
      obtain ⟨hcard, hlife⟩ := hc
      obtain ⟨hnot, before, after, hsplit, hbefore⟩ := List.find?_eq_some_iff_append.1 hf
      exact ⟨before, a, after, r, hsplit, fun x hx => by simpa using hbefore x hx, by simpa using hnot, hr, hcard, hlife⟩

theorem nextDirty_some (h : RewriteWaits s) : (nextDirty s).isSome = true := by
  obtain ⟨before, a, after, r, hsplit, hbefore, hnot, hr, hcard, hlife⟩ := h
  have hf : s.table.amended.find? (fun a => !a.taken) = some a :=
    List.find?_eq_some_iff_append.2 ⟨by simp [hnot], before, after, hsplit, fun x hx => by simp [hbefore x hx]⟩
  unfold nextDirty
  rw [hf, Option.bind_some, hr]
  dsimp only
  rw [if_pos ⟨hcard, hlife⟩]
  rfl

theorem nextDirty_taken (h : ∀ a ∈ s.table.amended, a.taken = true) : nextDirty s = none := by
  unfold nextDirty
  rw [List.find?_eq_none.2 fun a ha => by simp [h a ha]]
  rfl

theorem nextDirty_congr {t : State} (h : t.table = s.table) : nextDirty t = nextDirty s := by
  unfold nextDirty findRecord residents
  rw [h]

/-! ### No read to fetch -/

/-- With the card not readable a dispatched job is of a HELD record. -/
theorem eligible_held (hread : s.card.state.readable = false) {j : Job} {r : Record} (h : eligible s j = true)
    (hr : findRecord s j.shot = some r) : r.life = .held := by
  unfold eligible at h
  rw [hr] at h
  dsimp only at h
  rw [Bool.and_eq_true] at h
  obtain ⟨h, _⟩ := h
  unfold eligibleButPlanes at h
  simp only [Bool.and_eq_true] at h
  obtain ⟨⟨⟨_, _⟩, hlife⟩, _⟩ := h
  cases hl : r.life with
  | held => rfl
  | settled =>
    rw [hl, hread] at hlife
    exact absurd hlife (by simp)
  | _ =>
    rw [hl] at hlife
    exact absurd hlife (by simp)

theorem serveDarkClaim_card (s : State) : (serveDarkClaim s).card = s.card := by simp

/-- With the card not readable no read joins the read queue. -/
theorem dispatched_still (hread : s.card.state.readable = false) : (dispatched s).card = s.card := by
  have hread' : (serveDarkClaim s).card.state.readable = false := by
    rw [serveDarkClaim_card]
    exact hread
  unfold dispatched
  rw [← serveDarkClaim_card s]
  generalize serveDarkClaim s = u at hread'
  unfold attemptDispatch
  split
  · split
    · rfl
    · next j hj =>
      split
      · rfl
      · next r hr =>
        have hheld := eligible_held hread' (jobToDispatch_eligible hj) hr
        have hcard : ∀ (x y slot : Option Nat) (v : State),
            ((slot.map fillSlot).getD id (claimPlane x .devFetch (claimPlane y .devOutput v))).card = v.card := by
          intro x y slot v
          cases slot <;> simp
        change (dispatchJob j r u).card = u.card
        unfold dispatchJob
        dsimp only
        rw [hheld]
        dsimp only
        rw [hcard]
  · rfl

/-! ### The card left as it is -/

/-- A card in which no work starts: not readable, and with a command on the bus or nothing to start. -/
structure Still (s : State) : Prop where
  unreadable : s.card.state.readable = false
  stays : s.card.bus.isSome = true ∨ (s.card.work = none ∧ (s.card.state = .ejecting → s.card.entries = [] ∧ nextDirty s = none))

theorem starts_unreadable (h : s.card.state.readable = false) (hej : s.card.state ≠ .ejecting) (c : Nat) :
    s.card.state.starts c = false := by
  cases hs : s.card.state <;> simp_all [CardState.readable, CardState.starts]

theorem Still.startCardWork {u : State} (h : Still s) (hcard : u.card = s.card) (htable : u.table = s.table) :
    (startCardWork u).card = s.card ∧ (startCardWork u).table = s.table := by
  unfold Machine.startCardWork
  rcases h.stays with hbus | ⟨hwork, hnone⟩
  · have hsome : ¬ u.card.bus.isNone = true := by
      rw [hcard, Option.isNone_iff_eq_none]
      intro hn
      rw [hn] at hbus
      cases hbus
    rw [if_neg hsome]
    exact ⟨hcard, htable⟩
  · have hchoice : nextChoice u = none := by
      by_cases hej : s.card.state = .ejecting
      · obtain ⟨he, hd⟩ := hnone hej
        exact nextChoice_ejecting (by rw [hcard]; exact hej) (by rw [hcard]; exact he) ((nextDirty_congr htable).trans hd)
      · refine nextChoice_stopped fun c => ?_
        rw [hcard]
        exact starts_unreadable h.unreadable hej c
    have hsame : chooseWork choiceLimit u = u := by
      unfold choiceLimit chooseWork
      rw [hchoice]
      split
      · next hc => cases hc
      · rfl
    have hkick : kick u = u := by
      unfold kick
      rw [hcard, hwork]
      split
      · next hc => cases hc
      · rfl
    split
    · rw [hsame, hkick]
      exact ⟨hcard, htable⟩
    · exact ⟨hcard, htable⟩

theorem Still.serveBlocks (h : Still s) : (serveBlocks s).card = s.card ∧ (serveBlocks s).table = s.table := by
  obtain ⟨hcard, htable⟩ := h.startCardWork (dispatched_still h.unreadable) (dispatched_keeps s).1
  obtain ⟨hc, ht, _⟩ := claimForDark_card_table (Machine.startCardWork (dispatched s))
  rw [serveBlocks_dispatched, hc, ht]
  exact ⟨hcard, htable⟩

end

end Sys2Proof.ShotTable
end

section
/-! Shot table: loads that fail, and SETTLED records that are dropped (R19, R156, R157, R159). -/

namespace Sys2Proof.ShotTable
open Sys2Proof.Machine

section
variable {s t : State}

theorem mem_residents_map {f : RecordSlot → RecordSlot} (ht : t.table.slots = s.table.slots.map f) {y : Record} :
    y ∈ residents t ↔ ∃ x ∈ s.table.slots, f x = .inUse y := by
  rw [mem_residents]
  constructor
  · rintro ⟨i, hi⟩
    rw [ht, List.getElem?_map, Option.map_eq_some_iff] at hi
    obtain ⟨x, hx, he⟩ := hi
    exact ⟨x, List.mem_of_getElem? hx, he⟩
  · rintro ⟨x, hx, he⟩
    obtain ⟨i, hi⟩ := List.mem_iff_getElem?.1 hx
    exact ⟨i, by rw [ht, List.getElem?_map, hi, Option.map_some, he]⟩

theorem mem_slots_of_resident {r : Record} (h : r ∈ residents s) : RecordSlot.inUse r ∈ s.table.slots := by
  obtain ⟨i, hi⟩ := mem_residents.1 h
  exact List.mem_of_getElem? hi

theorem resident_of_mem_slots {r : Record} (h : RecordSlot.inUse r ∈ s.table.slots) : r ∈ residents s := by
  obtain ⟨i, hi⟩ := List.mem_iff_getElem?.1 h
  exact mem_residents.2 ⟨i, hi⟩

/-! ### Loads that fail -/

/-- The slots of the loads of some numbers made FREE. -/
def failIn (p : Nat → Bool) : RecordSlot → RecordSlot
  | .loading n ws => if p n then .free else .loading n ws
  | x => x

theorem keepsNumbers_failIn (p : Nat → Bool) : KeepsNumbers (failIn p) := by
  intro x
  cases x with
  | loading n ws =>
    simp only [failIn]
    split
    · exact .inl rfl
    · exact .inr rfl
  | _ => exact .inr rfl

/-- Where numbers are distinct a load is the only slot of its number. -/
theorem loadsAt_of_distinct (h : NumbersDistinct s) {i n : Nat} {ws : List LoadWaiter}
    (hi : s.table.slots[i]? = some (.loading n ws)) : LoadsAt i n ws s := by
  refine ⟨hi, fun j hj => ⟨fun ws' hj' => hj (slot_unique h hj' hi rfl rfl), fun r hj' hn => ?_⟩⟩
  exact hj (slot_unique h hj' hi (congrArg some hn) rfl)

theorem failLoad_slots (h : NumbersDistinct s) (c : ResultCode) (n : Nat) :
    (failLoad c s n).table.slots = s.table.slots.map (failIn fun m => m == n) := by
  unfold failLoad
  cases hf : s.table.slots.findIdx? (RecordSlot.loads n) with
  | none =>
    have hnone := List.findIdx?_eq_none_iff.1 hf
    refine ((List.map_congr_left fun x hx => ?_).trans (List.map_id _)).symm
    cases x with
    | loading m ws =>
      have hm : (m == n) = false := hnone _ hx
      simp [failIn, beq_eq_false_iff_ne.1 hm]
    | _ => rfl
  | some i =>
    obtain ⟨hlt, hloads, _⟩ := List.findIdx?_eq_some_iff_getElem.1 hf
    have hat : ∃ ws, s.table.slots[i]? = some (.loading n ws) := by
      rw [List.getElem?_eq_getElem hlt]
      cases hx : s.table.slots[i] with
      | loading m ws =>
        rw [hx] at hloads
        have hm : m = n := beq_iff_eq.1 hloads
        exact ⟨ws, by rw [hm]⟩
      | _ =>
        rw [hx] at hloads
        cases hloads
    obtain ⟨ws, hi⟩ := hat
    have hone := loadsAt_of_distinct h hi
    dsimp only
    have htable : ∀ tags : List Nat, (answerAll tags c (setSlot i .free s)).table.slots = s.table.slots.set i .free := by
      intro tags
      simp [setSlot]
    rw [htable]
    refine List.ext_getElem? fun j => ?_
    rw [List.getElem?_map]
    by_cases hji : j = i
    · subst hji
      rw [List.getElem?_set_self hlt, hi]
      simp [failIn]
    · rw [List.getElem?_set_ne (Ne.symm hji)]
      cases hx : s.table.slots[j]? with
      | none => rfl
      | some x =>
        cases x with
        | loading m ws' =>
          have hm : m ≠ n := by
            rintro rfl
            exact (hone.alone j hji).1 ws' hx
          simp [failIn, hm]
        | _ => rfl

theorem failIn_or (p q : Nat → Bool) (x : RecordSlot) : failIn q (failIn p x) = failIn (fun n => p n || q n) x := by
  cases x with
  | loading n ws => cases hp : p n <;> simp [failIn, hp]
  | _ => rfl

theorem failLoads_slots (h : NumbersDistinct s) (c : ResultCode) (l : List Nat) :
    (l.foldl (failLoad c) s).table.slots = s.table.slots.map (failIn fun m => l.contains m) := by
  induction l generalizing s with
  | nil =>
    refine ((List.map_congr_left fun x _ => ?_).trans (List.map_id _)).symm
    cases x <;> rfl
  | cons n l ih =>
    have hstep := failLoad_slots h c n
    rw [List.foldl_cons, ih (numbersDistinct_map (keepsNumbers_failIn _) hstep h), hstep, List.map_map]
    refine List.map_congr_left fun x _ => ?_
    rw [Function.comp, failIn_or]
    congr 1

theorem failLoad_continues (c : ResultCode) (s : State) (n : Nat) : Continues s (failLoad c s n) := by
  unfold failLoad
  split
  · exact List.prefix_refl _
  · exact continues_answerAll _ c (setSlot _ .free s)

theorem failLoads_continues (c : ResultCode) (l : List Nat) (s : State) : Continues s (l.foldl (failLoad c) s) :=
  foldl_preserves (fun u => Continues s u) (failLoad c) (fun u n hu => hu.trans (failLoad_continues c u n)) l s
    (List.prefix_refl _)

/-- The waiters of a load that fails are answered. -/
theorem failLoads_answered (h : NumbersDistinct s) (c : ResultCode) {l : List Nat} {n : Nat} (hn : n ∈ l)
    {ws : List LoadWaiter} (hm : RecordSlot.loading n ws ∈ s.table.slots) {w : LoadWaiter} (hw : w ∈ ws) :
    Answered (l.foldl (failLoad c) s) w.tag c .empty := by
  induction l generalizing s with
  | nil => exact absurd hn List.not_mem_nil
  | cons m l ih =>
    rw [List.foldl_cons]
    have hstep := failLoad_slots h c m
    by_cases hmn : m = n
    · subst hmn
      obtain ⟨i, hi⟩ := List.mem_iff_getElem?.1 hm
      exact (failLoads_continues c l _).subset ((failLoad_frees (loadsAt_of_distinct h hi) c).2.1 w hw)
    · refine ih (numbersDistinct_map (keepsNumbers_failIn _) hstep h) ((List.mem_cons.1 hn).resolve_left (Ne.symm hmn)) ?_
      rw [hstep]
      exact List.mem_map.2 ⟨_, hm, by simp [failIn, Ne.symm hmn]⟩

theorem failLoads_keeps (c : ResultCode) (l : List Nat) (s : State) : (l.foldl (failLoad c) s).card = s.card ∧
    (l.foldl (failLoad c) s).dev = s.dev ∧ (l.foldl (failLoad c) s).pool = s.pool ∧
    (l.foldl (failLoad c) s).cache = s.cache ∧ (l.foldl (failLoad c) s).notices = s.notices ∧
    (l.foldl (failLoad c) s).table.amended = s.table.amended := by
  have hstep : ∀ (u : State) (n : Nat), (failLoad c u n).table.amended = u.table.amended := by
    intro u n
    unfold failLoad
    split
    · rfl
    · simp [setSlot]
  refine foldl_preserves (fun u => u.card = s.card ∧ u.dev = s.dev ∧ u.pool = s.pool ∧ u.cache = s.cache ∧
    u.notices = s.notices ∧ u.table.amended = s.table.amended) (failLoad c) (fun u n hu => ?_) l s ⟨rfl, rfl, rfl, rfl, rfl, rfl⟩
  simp only [failLoad_keeps, hstep]
  exact hu

/-! ### What dropping records leaves of the Card Store -/

/-- Of the Card Store only reads go, hand-offs go, and a fetch on the bus is abandoned. -/
structure CardDrops (s t : State) : Prop where
  card : t.card = { s.card with reads := t.card.reads, handoffs := t.card.handoffs, work := t.card.work, bus := t.card.bus }
  reads : t.card.reads ⊆ s.card.reads
  handoffs : ∀ h ∈ t.card.handoffs, ∃ g ∈ s.card.handoffs, g.shot = h.shot
  work : t.card.work = s.card.work ∧ t.card.bus = s.card.bus ∨ s.card.work.any CardWork.isFetch = true ∧ t.card.work = none
  command : t.card.bus.map (·.command) = s.card.bus.map (·.command)

theorem cardDrops_of_card (h : t.card = s.card) : CardDrops s t := by
  refine ⟨by rw [h], by rw [h]; exact fun _ hx => hx, by rw [h]; exact fun x hx => ⟨x, hx, rfl⟩, .inl ?_, by rw [h]⟩
  rw [h]
  exact ⟨rfl, rfl⟩

theorem CardDrops.trans {u : State} (h : CardDrops s t) (h' : CardDrops t u) : CardDrops s u := by
  refine ⟨by rw [h'.card, h.card], fun _ hx => h.reads (h'.reads hx), fun x hx => ?_, ?_, h'.command.trans h.command⟩
  · obtain ⟨g, hg, hs⟩ := h'.handoffs x hx
    obtain ⟨g', hg', hs'⟩ := h.handoffs g hg
    exact ⟨g', hg', hs'.trans hs⟩
  · rcases h.work with ⟨hw, hb⟩ | ⟨hf, hw⟩
    · rcases h'.work with ⟨hw', hb'⟩ | ⟨hf', hw'⟩
      · exact .inl ⟨hw'.trans hw, hb'.trans hb⟩
      · exact .inr ⟨by rw [← hw]; exact hf', hw'⟩
    · rcases h'.work with ⟨hw', _⟩ | ⟨hf', hw'⟩
      · exact .inr ⟨hf, hw'.trans hw⟩
      · exact .inr ⟨hf, hw'⟩

theorem cardDrops_abandonFetch (s : State) : CardDrops s (abandonFetch s) := by
  unfold abandonFetch
  dsimp only
  split
  · next hf =>
    refine ⟨rfl, List.filter_subset_self _, fun x hx => ⟨x, hx, rfl⟩, .inr ⟨hf, rfl⟩, ?_⟩
    change (s.card.bus.map _).map _ = _
    rw [Option.map_map]
    rfl
  · exact ⟨rfl, List.filter_subset_self _, fun x hx => ⟨x, hx, rfl⟩, .inl ⟨rfl, rfl⟩, rfl⟩

theorem cardDrops_removeJobs (n : Nat) (c : ResultCode) (s : State) : CardDrops s (removeJobs n c s) := by
  unfold removeJobs
  dsimp only
  split
  · have hdrop : CardDrops s (abandonFetch (dropHolds s)) :=
      (cardDrops_of_card (by simp)).trans (cardDrops_abandonFetch (dropHolds s))
    exact hdrop.trans (cardDrops_of_card (by simp))
  · exact cardDrops_of_card (by simp)

theorem setOwners_card (l : List Nat) (s : State) : (l.foldl (fun u p => setOwner p .free u) s).card = s.card := by
  induction l generalizing s with
  | nil => rfl
  | cons p l ih => exact ih (setOwner p .free s)

theorem freeHandoffs_card (n : Nat) (s : State) :
    (freeHandoffs n s).card = { s.card with handoffs := s.card.handoffs.filter fun h => h.shot != n } :=
  setOwners_card _ _

theorem cardDrops_freeHandoffs (n : Nat) (s : State) : CardDrops s (freeHandoffs n s) := by
  have hcard := freeHandoffs_card n s
  refine ⟨by rw [hcard], by rw [hcard]; exact fun _ hx => hx, fun x hx => ⟨x, ?_, rfl⟩, .inl (by rw [hcard]; exact ⟨rfl, rfl⟩),
    by rw [hcard]⟩
  rw [hcard] at hx
  exact (List.mem_filter.1 hx).1

theorem cardDrops_dropRecord (s : State) (n : Nat) : CardDrops s (dropRecord s n) :=
  ((cardDrops_removeJobs n .noCard s).trans (cardDrops_freeHandoffs n _)).trans (cardDrops_of_card (by simp [dropRecord]))

theorem cardDrops_dropSettled (s : State) : CardDrops s (dropSettled s) :=
  (foldl_preserves (fun u => CardDrops s u) dropRecord (fun u n hu => hu.trans (cardDrops_dropRecord u n)) (settledShots s) s
    (cardDrops_of_card rfl)).trans (cardDrops_of_card (by simp [dropSettled]))

/-! ### Records that are dropped -/

theorem removeJobs_queue_eq (n : Nat) (c : ResultCode) (s : State) :
    (removeJobs n c s).dev.queue = s.dev.queue.filter fun j => !(j.shot == n) := by
  unfold removeJobs
  dsimp only
  split
  · simp [dropJobs, dropHolds_dev]
  · simp [dropJobs]

theorem removeJobs_answered (n : Nat) (c : ResultCode) (s : State) {j : Job} (hj : j ∈ s.dev.queue) (hn : j.shot = n)
    {tag : Nat} (ht : tag ∈ j.waiters) : Answered (removeJobs n c s) tag c .empty := by
  have hmem : tag ∈ (s.dev.queue.filter fun j => j.shot == n).flatMap (·.waiters) :=
    List.mem_flatMap.2 ⟨j, List.mem_filter.2 ⟨hj, by simp [hn]⟩, ht⟩
  unfold removeJobs dropJobs
  exact answered_answerAll hmem _

/-- Jobs removed leave the slots, when the record of the number is not HELD. -/
theorem removeJobs_slots {n : Nat} (hn : ∀ r ∈ residents s, r.number = n → r.life ≠ .held) (c : ResultCode) :
    (removeJobs n c s).table.slots = s.table.slots := by
  have hsettle : ∀ u : State, u.table = s.table → (settle n u).table = u.table := by
    intro u hu
    have hres : residents u = residents s := residents_congr hu
    unfold settle
    cases hf : findRecord u n with
    | none => rfl
    | some r =>
      obtain ⟨hm, hr⟩ := findRecord_mem hf
      rw [hres] at hm
      dsimp only
      rw [if_neg fun hc => hn r hm hr hc.1]
  unfold removeJobs
  dsimp only
  split
  · have htable : (abandonFetch (dropHolds s)).table = s.table := by simp
    simp [hsettle _ htable]
  · simp

theorem dropRecord_slots (h : NumbersDistinct s) {n : Nat} (hn : ∀ r ∈ residents s, r.number = n → r.life ≠ .held) :
    (dropRecord s n).table.slots = s.table.slots.map (RecordSlot.clearIf fun r => r.number == n) := by
  have hslots : (freeHandoffs n (removeJobs n .noCard s)).table.slots = s.table.slots := by
    rw [show (freeHandoffs n (removeJobs n .noCard s)).table = (removeJobs n .noCard s).table by simp]
    exact removeJobs_slots hn .noCard
  have hd : NumbersDistinct (freeHandoffs n (removeJobs n .noCard s)) := by
    unfold NumbersDistinct slotNumbers
    rw [hslots]
    exact h
  unfold dropRecord
  rw [removeRecord_slots hd, hslots]

/-- What is left when the records of some numbers have been dropped. -/
structure Dropped (l : List Nat) (s t : State) : Prop where
  slots : t.table.slots = s.table.slots.map (RecordSlot.clearIf fun r => l.contains r.number)
  queue : t.dev.queue = s.dev.queue.filter fun j => !l.contains j.shot
  answered : ∀ j ∈ s.dev.queue, j.shot ∈ l → ∀ tag ∈ j.waiters, Answered t tag .noCard .empty
  handoffs : ∀ h ∈ t.card.handoffs, h.shot ∉ l
  card : CardDrops s t

theorem dropRecords_dropped {l : List Nat} (h : NumbersDistinct s) (hl : ∀ r ∈ residents s, r.number ∈ l → r.life ≠ .held) :
    Dropped l s (l.foldl dropRecord s) := by
  induction l generalizing s with
  | nil =>
    refine ⟨?_, ?_, fun j _ hj => absurd hj List.not_mem_nil, fun _ _ => List.not_mem_nil, cardDrops_of_card rfl⟩
    · refine ((List.map_congr_left fun x _ => ?_).trans (List.map_id _)).symm
      cases x <;> rfl
    · exact (List.filter_eq_self.2 fun _ _ => rfl).symm
  | cons n l ih =>
    have hslots := dropRecord_slots h (n := n) fun r hr hn => hl r hr (by rw [hn]; exact List.mem_cons_self)
    have hd : NumbersDistinct (dropRecord s n) := numbersDistinct_map (keepsNumbers_clearIf _) hslots h
    have hres : ∀ r ∈ residents (dropRecord s n), r ∈ residents s := by
      intro r hr
      obtain ⟨x, hx, he⟩ := (mem_residents_map hslots).1 hr
      cases x with
      | inUse q =>
        simp only [RecordSlot.clearIf] at he
        split at he
        · cases he
        · cases he
          exact resident_of_mem_slots hx
      | _ => cases he
    have hqueue : (dropRecord s n).dev.queue = s.dev.queue.filter fun j => !(j.shot == n) := by
      have hkeep : (dropRecord s n).dev.queue = (removeJobs n .noCard s).dev.queue := by simp [dropRecord]
      rw [hkeep, removeJobs_queue_eq]
    have hrest := ih hd fun r hr hm => hl r (hres r hr) (List.mem_cons_of_mem _ hm)
    have hcontinues : Continues (dropRecord s n) (l.foldl dropRecord (dropRecord s n)) :=
      foldl_preserves (fun u => Continues (dropRecord s n) u) dropRecord
        (fun u m hu => hu.trans (continues_dropRecord u m)) l _ (List.prefix_refl _)
    rw [List.foldl_cons]
    refine ⟨?_, ?_, fun j hj hm tag ht => ?_, fun x hx hm => ?_, (cardDrops_dropRecord s n).trans hrest.card⟩
    · rw [hrest.slots, hslots, List.map_map]
      refine List.map_congr_left fun x _ => ?_
      rw [Function.comp, clearIf_or]
      congr 1
    · rw [hrest.queue, hqueue, List.filter_filter]
      refine List.filter_congr fun j _ => ?_
      rw [List.contains_cons, Bool.not_or, Bool.and_comm]
    · by_cases hjn : j.shot = n
      · have hlink : (dropRecord s n).link = (removeJobs n .noCard s).link := by simp [dropRecord]
        refine hcontinues.subset ?_
        rw [hlink]
        exact removeJobs_answered n .noCard s hj hjn ht
      · refine hrest.answered j ?_ ((List.mem_cons.1 hm).resolve_left hjn) tag ht
        rw [hqueue]
        exact List.mem_filter.2 ⟨hj, by simp [hjn]⟩
    · rcases List.mem_cons.1 hm with hn | hm
      · obtain ⟨g, hg, hgs⟩ := hrest.card.handoffs x hx
        have hcard : (dropRecord s n).card = (freeHandoffs n (removeJobs n .noCard s)).card := by simp [dropRecord]
        rw [hcard, freeHandoffs_card] at hg
        have hne := (List.mem_filter.1 hg).2
        rw [hgs, hn] at hne
        simp at hne
      · exact hrest.handoffs x hx hm

/-- The SETTLED records dropped (R156). -/
structure SettledDropped (s t : State) : Prop where
  slots : t.table.slots = s.table.slots.map (RecordSlot.clearIf fun r => r.life == .settled)
  jobs : ∀ r ∈ residents s, r.life = .settled → (∀ j ∈ t.dev.queue, j.shot ≠ r.number) ∧
    (∀ h ∈ t.card.handoffs, h.shot ≠ r.number) ∧
    ∀ j ∈ s.dev.queue, j.shot = r.number → ∀ tag ∈ j.waiters, Answered t tag .noCard .empty
  card : CardDrops s t

theorem dropSettled_dropped (h : NumbersDistinct s) : SettledDropped s (dropSettled s) := by
  have hlife : ∀ r ∈ residents s, r.number ∈ settledShots s → r.life ≠ .held := by
    intro r hr hm
    obtain ⟨q, hq, hset, hn⟩ := mem_shotsWhere.1 hm
    rw [← resident_unique h hq hr hn, beq_iff_eq.1 hset]
    nofun
  have hall := dropRecords_dropped h hlife
  have hleave : ∀ u : State, (leaveSlots (notResident u) u).table = u.table ∧ (leaveSlots (notResident u) u).dev = u.dev ∧
      (leaveSlots (notResident u) u).card = u.card ∧ (leaveSlots (notResident u) u).link = u.link := fun u => by simp
  unfold dropSettled
  dsimp only
  generalize (settledShots s).foldl dropRecord s = u at hall
  obtain ⟨htable, hdev, hcard, hlink⟩ := hleave u
  refine ⟨?_, fun r hr hset => ?_, hall.card.trans (cardDrops_of_card hcard)⟩
  · rw [htable, hall.slots]
    refine map_slots_congr rfl (fun _ _ => rfl) fun r hr => ?_
    have hsame : (settledShots s).contains r.number = (r.life == .settled) := contains_shotsWhere h _ hr
    simp only [RecordSlot.clearIf, hsame]
  · have hm : r.number ∈ settledShots s := mem_shotsWhere.2 ⟨r, hr, by simp [hset], rfl⟩
    rw [hdev, hcard, hall.queue]
    refine ⟨fun j hj e => ?_, fun x hx e => hall.handoffs x hx (e ▸ hm), fun j hj e tag ht => ?_⟩
    · have hno := (List.mem_filter.1 hj).2
      rw [e] at hno
      simp [hm] at hno
    · have hans := hall.answered j hj (e ▸ hm) tag ht
      unfold Answered at *
      rw [hlink]
      exact hans

end

end Sys2Proof.ShotTable
end

section
/-! Shot table: the end of a drain (R157). -/

namespace Sys2Proof.ShotTable
open Sys2Proof.Machine

section
variable {s t u : State}

/-! ### What a state hands on to the drain -/

/-- What the end of a drain speaks of is in `u` as it is in `s`. -/
structure HandsOn (s u : State) : Prop where
  identity : u.card.identity = s.card.identity
  notice : u.notices.kinds[NoticeKind.amendLost.place]? = s.notices.kinds[NoticeKind.amendLost.place]?
  held : ∀ r ∈ residents s, r.life = .held → r.rawCard = .onCard →
    ∃ y ∈ residents u, y.number = r.number ∧ y.life = .held ∧ y.rawCard = .onCard ∧ y.rawPlane = r.rawPlane
  settled : ∀ r ∈ residents s, r.life = .settled → ∃ y ∈ residents u, y.number = r.number ∧ y.life = .settled
  jobs : ∀ j ∈ s.dev.queue, ∃ k ∈ u.dev.queue, k.shot = j.shot ∧ k.waiters = j.waiters

theorem handsOn_of_same (hid : u.card.identity = s.card.identity) (hn : u.notices = s.notices) (ht : u.table.slots = s.table.slots)
    (hq : u.dev.queue = s.dev.queue) : HandsOn s u := by
  have hres : residents u = residents s := by
    unfold residents
    rw [ht]
  refine ⟨hid, by rw [hn], fun r hr hl hc => ⟨r, by rw [hres]; exact hr, rfl, hl, hc, rfl⟩,
    fun r hr hl => ⟨r, by rw [hres]; exact hr, rfl, hl⟩, fun j hj => ⟨j, by rw [hq]; exact hj, rfl, rfl⟩⟩

theorem HandsOn.trans (h : HandsOn s t) (h' : HandsOn t u) : HandsOn s u := by
  refine ⟨h'.identity.trans h.identity, h'.notice.trans h.notice, fun r hr hl hc => ?_, fun r hr hl => ?_, fun j hj => ?_⟩
  · obtain ⟨y, hy, hn, hyl, hyc, hp⟩ := h.held r hr hl hc
    obtain ⟨z, hz, hn', hzl, hzc, hp'⟩ := h'.held y hy hyl hyc
    exact ⟨z, hz, hn'.trans hn, hzl, hzc, hp'.trans hp⟩
  · obtain ⟨y, hy, hn, hyl⟩ := h.settled r hr hl
    obtain ⟨z, hz, hn', hzl⟩ := h'.settled y hy hyl
    exact ⟨z, hz, hn'.trans hn, hzl⟩
  · obtain ⟨k, hk, hs, hw⟩ := h.jobs j hj
    obtain ⟨k', hk', hs', hw'⟩ := h'.jobs k hk
    exact ⟨k', hk', hs'.trans hs, hw'.trans hw⟩

theorem drainEnded_of_handsOn {e : Option Nat} (h : DrainEnded e u t) (hs : HandsOn s u) : DrainEnded e s t := by
  obtain ⟨h1, h2, h3, h4, h5, h6, h7, hid, h8, h9, h10, h11, h12, hheld, hnone, hsettled, hnotice⟩ := h
  refine ⟨h1, h2, h3, h4, h5, h6, h7, hid.trans hs.identity, h8, h9, h10, h11, h12, fun r hr hl hc => ?_, hnone,
    fun r hr hl => ?_, hnotice.trans hs.notice⟩
  · obtain ⟨y, hy, hn, hyl, hyc, hp⟩ := hs.held r hr hl hc
    obtain ⟨z, hz, hzn, hzl, hzp, hrest⟩ := hheld y hy hyl hyc
    exact ⟨z, hz, hzn.trans hn, hzl.trans (hyl.trans hl.symm), hzp.trans hp, hrest⟩
  · obtain ⟨y, hy, hn, hyl⟩ := hs.settled r hr hl
    obtain ⟨hq, hh, hans⟩ := hsettled y hy hyl
    rw [hn] at hq hh hans
    refine ⟨hq, hh, fun j hj e tag ht => ?_⟩
    obtain ⟨k, hk, hks, hkw⟩ := hs.jobs j hj
    exact hans k hk (hks.trans e) tag (by rw [hkw]; exact ht)

/-! ### The end itself -/

/-- The records as the drain leaves them. -/
def drainedRecords (s : State) : State := dropSettled (returnHeld s)

/-- The card when the drain is over. -/
def drainedCard (s : State) : State :=
  { emptyIndex s with card := { (emptyIndex s).card with state := .ejected, volume := none, ejectTag := none } }

theorem finishDrain_eq (s : State) : finishDrain s =
    answerWaiting (drainedRecords s).card.ejectTag .ok (drainedCard (drainedRecords s)) := rfl

theorem answerWaiting_leaves (q : Option Nat) (c : ResultCode) (s : State) : (answerWaiting q c s).card = s.card ∧
    (answerWaiting q c s).table = s.table ∧ (answerWaiting q c s).dev = s.dev ∧
    ∀ tag, q = some tag → Answered (answerWaiting q c s) tag c .empty := by
  cases q with
  | none => exact ⟨rfl, rfl, rfl, nofun⟩
  | some t =>
    refine ⟨rfl, rfl, rfl, fun tag h => ?_⟩
    cases h
    exact answered_answer t c .empty s

theorem returnHeld_distinct (h : NumbersDistinct s) : NumbersDistinct (returnHeld s) :=
  numbersDistinct_map (keepsNumbers_mapEach unwrite_number) (returnHeld_slots s) h

/-- A slot after the HELD records have returned and the SETTLED ones are dropped. -/
def drainSlot (x : RecordSlot) : RecordSlot :=
  RecordSlot.clearIf (fun r => r.life == .settled) (RecordSlot.mapEach (fun r => if r.heldOnWay then r.unwrite else r) x)

theorem drainedRecords_slots (h : NumbersDistinct s) :
    (drainedRecords s).table.slots = s.table.slots.map drainSlot := by
  unfold drainedRecords
  rw [(dropSettled_dropped (returnHeld_distinct h)).slots, returnHeld_slots, List.map_map]
  rfl

theorem unwrite_life (r : Record) : (if r.heldOnWay then r.unwrite else r).life = r.life := by
  split <;> rfl

/-- A HELD record that was on its way to the card, or there, is UNWRITTEN after the drain. -/
theorem drainSlot_held {r : Record} (hl : r.life = .held) (hc : r.rawCard ≠ .unwritten) :
    drainSlot (.inUse r) = .inUse r.unwrite := by
  have hway : r.heldOnWay = true := by simp [Record.heldOnWay, hl, hc]
  have hlife : r.unwrite.life = .held := hl
  simp [drainSlot, RecordSlot.mapEach, RecordSlot.clearIf, hway, hlife]

theorem drainSlot_inUse {x : RecordSlot} {y : Record} (h : drainSlot x = .inUse y) : y.life ≠ .settled := by
  unfold drainSlot at h
  cases x with
  | inUse r =>
    rw [RecordSlot.mapEach] at h
    generalize (if r.heldOnWay then r.unwrite else r) = q at h
    unfold RecordSlot.clearIf at h
    dsimp only at h
    split at h
    · cases h
    · next hno =>
      cases h
      simpa using hno
  | _ => cases h

theorem backToUnwritten_unwrite (r : Record) : BackToUnwritten r r.unwrite :=
  ⟨rfl, rfl, rfl, rfl, rfl, rfl, rfl, rfl, rfl⟩

/-- What makes a drain complete (R157). -/
structure DrainReady (tag : Nat) (s : State) : Prop where
  state : s.card.state = .ejecting
  tag : s.card.ejectTag = some tag
  work : s.card.work = none
  bus : s.card.bus = none
  entries : s.card.entries = []
  dirty : nextDirty s = none
  reads : s.card.reads = []

theorem DrainReady.of_same {tag : Nat} (h : DrainReady tag s) (hcard : t.card = s.card) (htable : t.table = s.table) :
    DrainReady tag t := by
  obtain ⟨h1, h2, h3, h4, h5, h6, h7⟩ := h
  refine ⟨?_, ?_, ?_, ?_, ?_, (nextDirty_congr htable).trans h6, ?_⟩ <;> rw [hcard] <;> assumption

theorem returnHeld_card (s : State) : (returnHeld s).card = { s.card with handoffs := (returnHeld s).card.handoffs } := rfl

/-- The Card Store when a complete drain is over. -/
theorem DrainReady.over {tag : Nat} (h : DrainReady tag s) (hd : NumbersDistinct s) :
    (finishDrain s).card.state = .ejected ∧ (finishDrain s).card.ejectTag = none ∧ (finishDrain s).card.indexHeld = false ∧
    (finishDrain s).card.index = [] ∧ (finishDrain s).card.damaged = [] ∧ (finishDrain s).card.map = [] ∧
    (finishDrain s).card.volume = none ∧ (finishDrain s).card.identity = s.card.identity ∧ (finishDrain s).card.reads = [] ∧
    (finishDrain s).card.entries = [] ∧ (finishDrain s).card.work = none ∧ (finishDrain s).card.bus = none ∧
    Answered (finishDrain s) tag .ok .empty := by
  have hdrop := (dropSettled_dropped (returnHeld_distinct hd)).card
  have hret := returnHeld_card s
  have hwork : (drainedRecords s).card.work = none ∧ (drainedRecords s).card.bus = none := by
    rcases hdrop.work with ⟨hw, hb⟩ | ⟨hf, _⟩
    · rw [hret] at hw hb
      exact ⟨hw.trans h.work, hb.trans h.bus⟩
    · rw [hret] at hf
      dsimp only at hf
      rw [h.work] at hf
      exact absurd hf Bool.false_ne_true
  have hreads : (drainedRecords s).card.reads = [] := by
    have hsub := hdrop.reads
    rw [hret] at hsub
    dsimp only at hsub
    rw [h.reads] at hsub
    exact List.subset_nil.1 hsub
  have hcard := hdrop.card
  rw [hret] at hcard
  have hentries : (drainedRecords s).card.entries = [] := by
    rw [show (drainedRecords s).card.entries = s.card.entries from congrArg (·.entries) hcard]
    exact h.entries
  have hidentity : (drainedRecords s).card.identity = s.card.identity := congrArg (·.identity) hcard
  have htag : (drainedRecords s).card.ejectTag = some tag :=
    (show (drainedRecords s).card.ejectTag = s.card.ejectTag from congrArg (·.ejectTag) hcard).trans h.tag
  obtain ⟨hc, _, _, hans⟩ := answerWaiting_leaves (drainedRecords s).card.ejectTag .ok (drainedCard (drainedRecords s))
  rw [finishDrain_eq, hc]
  generalize drainedRecords s = u at *
  exact ⟨rfl, rfl, rfl, rfl, rfl, rfl, rfl, hidentity, hreads, hentries, hwork.1, hwork.2, hans tag htag⟩

/-- The records and the jobs when a drain is over. -/
theorem finishDrain_records (hd : NumbersDistinct s) :
    (finishDrain s).table.slots = s.table.slots.map drainSlot ∧
    ∀ r ∈ residents s, r.life = .settled → (∀ j ∈ (finishDrain s).dev.queue, j.shot ≠ r.number) ∧
      (∀ h ∈ (finishDrain s).card.handoffs, h.shot ≠ r.number) ∧
      ∀ j ∈ s.dev.queue, j.shot = r.number → ∀ tag ∈ j.waiters, Answered (finishDrain s) tag .noCard .empty := by
  obtain ⟨hc, ht, hdev, _⟩ := answerWaiting_leaves (drainedRecords s).card.ejectTag .ok (drainedCard (drainedRecords s))
  have hslots := drainedRecords_slots hd
  have hjobs := (dropSettled_dropped (returnHeld_distinct hd)).jobs
  have hqueue : (returnHeld s).dev.queue = s.dev.queue := rfl
  have hcontinues : Continues (drainedRecords s) (finishDrain s) :=
    continues_trans (t := drainedCard (drainedRecords s)) (List.prefix_refl _) (continues_answerWaiting _ _ _)
  refine ⟨?_, fun r hr hl => ?_⟩
  · rw [finishDrain_eq, ht]
    exact hslots
  · have hmem : (if r.heldOnWay then r.unwrite else r) ∈ residents (returnHeld s) :=
      (mem_residents_map (returnHeld_slots s)).2 ⟨_, mem_slots_of_resident hr, rfl⟩
    obtain ⟨hq, hh, hans⟩ := hjobs _ hmem ((unwrite_life r).trans hl)
    rw [unwrite_number] at hq hh hans
    refine ⟨?_, ?_, fun j hj e tag htag => hcontinues.subset (hans j (by rw [hqueue]; exact hj) e tag htag)⟩
    · rw [finishDrain_eq, hdev]
      exact hq
    · rw [finishDrain_eq, hc]
      exact hh

/-- A drain that is over, in the event in which it ends. -/
theorem DrainReady.finishes {tag : Nat} (h : DrainReady tag s) (hd : NumbersDistinct s) :
    DrainEnded (some tag) s (serveBlocks (finishDrain s)) := by
  obtain ⟨hstate, htag, hheld, hindex, hdamaged, hmap, hvolume, hidentity, hreads, hentries, hwork, hbus, hans⟩ := h.over hd
  obtain ⟨hslots, hjobs⟩ := finishDrain_records hd
  have hnotice : (finishDrain s).notices = s.notices := by simp
  generalize finishDrain s = u at *
  have hstill : Still u := ⟨by rw [hstate]; rfl, .inr ⟨hwork, fun hej => absurd (hstate.symm.trans hej) nofun⟩⟩
  obtain ⟨hcard, htable⟩ := hstill.serveBlocks
  have hlink : (serveBlocks u).link = u.link := by simp
  have hres : ∀ y, y ∈ residents (serveBlocks u) ↔ ∃ x ∈ s.table.slots, drainSlot x = .inUse y := fun y => by
    rw [residents_congr htable]
    exact mem_residents_map hslots
  unfold DrainEnded Answered
  rw [hcard, hlink]
  refine ⟨hstate, htag, hheld, hindex, hdamaged, hmap, hvolume, hidentity, hreads, hentries, hwork, hbus,
    fun tag' e => by cases e; exact hans, fun r hr hl hc => ?_, fun y hy => ?_, fun r hr hl => ?_, ?_⟩
  · exact ⟨r.unwrite, (hres _).2 ⟨_, mem_slots_of_resident hr, drainSlot_held hl (by rw [hc]; nofun)⟩, backToUnwritten_unwrite r⟩
  · obtain ⟨x, _, he⟩ := (hres y).1 hy
    exact drainSlot_inUse he
  · obtain ⟨hq, hh, hanswered⟩ := hjobs r hr hl
    refine ⟨fun j hj => ?_, hh, hanswered⟩
    obtain ⟨f, hf, hk⟩ := jobsKept_serveBlocks u
    rw [hf] at hj
    obtain ⟨k, hkq, rfl⟩ := List.mem_map.1 hj
    rw [(hk k).1]
    exact hq k hkq
  · rw [(noticesKept_serveBlocks u).2.2 _ (by decide), hnotice]

/-- A drain that is complete ends in the same event (R157). -/
theorem DrainReady.ends {tag : Nat} (h : DrainReady tag s) (hd : NumbersDistinct s) : DrainEnded (some tag) s (service s) := by
  have hstill : Still s := ⟨by rw [h.state]; rfl, .inr ⟨h.work, fun _ => ⟨h.entries, h.dirty⟩⟩⟩
  obtain ⟨hcard, htable⟩ := hstill.serveBlocks
  have hserved : HandsOn s (serveBlocks s) := by
    refine ⟨by rw [hcard], (noticesKept_serveBlocks s).2.2 _ (by decide), ?_, ?_, fun j hj => ?_⟩
    · rw [residents_congr htable]
      exact fun r hr hl hc => ⟨r, hr, rfl, hl, hc, rfl⟩
    · rw [residents_congr htable]
      exact fun r hr hl => ⟨r, hr, rfl, hl⟩
    · obtain ⟨k, hk, hs, _, _, hw⟩ := jobsKept_job (jobsKept_serveBlocks s) hj
      exact ⟨k, hk, hs, hw⟩
  have hready := h.of_same hcard htable
  have hdrained : drained (serveBlocks s) = true := by
    unfold drained
    rw [hready.state, hready.work, hready.bus, hready.entries, hready.dirty]
    rfl
  have hservice : service s = serveBlocks (finishDrain (serveBlocks s)) := by
    unfold service
    dsimp only
    rw [if_pos hdrained]
  rw [hservice]
  exact drainEnded_of_handsOn (hready.finishes (numbersDistinct_congr htable hd)) hserved

end

end Sys2Proof.ShotTable
end

section
/-! Shot table: an accepted CARD_EJECT (R157). -/

namespace Sys2Proof.ShotTable
open Sys2Proof.Machine

section
variable {s t : State} {rs : List CardRead} {c : ResultCode}

/-! ### Reads refused -/

/-- The loads of refused reads have failed. -/
def loadsFailed (rs : List CardRead) (c : ResultCode) (s : State) : State := (loadsOf rs).foldl (failLoad c) s

theorem requeueRunning_queue (s : State) :
    (requeueRunning s).dev.queue = s.dev.queue.map fun j => { j with running := false } := by
  unfold requeueRunning
  simp [dropHolds_dev]

theorem refuseReads_cases (rs : List CardRead) (c : ResultCode) (s : State) : ∃ u : State,
    (u = loadsFailed rs c s ∧ rs.any CardRead.isFetch = false ∨
      u = requeueRunning (loadsFailed rs c s) ∧ rs.any CardRead.isFetch = true) ∧
    refuseReads rs c s = { u with card := { u.card with reads := u.card.reads.filter fun r => !rs.contains r } } := by
  unfold refuseReads
  cases hf : rs.any CardRead.isFetch with
  | true => exact ⟨_, .inr ⟨rfl, rfl⟩, rfl⟩
  | false => exact ⟨_, .inl ⟨rfl, rfl⟩, rfl⟩

theorem refuseReads_leaves (rs : List CardRead) (c : ResultCode) (s : State) :
    (refuseReads rs c s).card = { s.card with reads := s.card.reads.filter fun r => !rs.contains r } ∧
    (refuseReads rs c s).table = (loadsFailed rs c s).table ∧ (refuseReads rs c s).link = (loadsFailed rs c s).link := by
  obtain ⟨u, hu, he⟩ := refuseReads_cases rs c s
  obtain ⟨hcard, _⟩ := failLoads_keeps c (loadsOf rs) s
  rw [he]
  rcases hu with ⟨rfl, _⟩ | ⟨rfl, _⟩
  · unfold loadsFailed
    rw [hcard]
    exact ⟨rfl, rfl, rfl⟩
  · have hkeep : (requeueRunning (loadsFailed rs c s)).card = (loadsFailed rs c s).card ∧
        (requeueRunning (loadsFailed rs c s)).table = (loadsFailed rs c s).table ∧
        (requeueRunning (loadsFailed rs c s)).link = (loadsFailed rs c s).link := by simp
    obtain ⟨h1, h2, h3⟩ := hkeep
    rw [h1]
    refine ⟨?_, h2, h3⟩
    unfold loadsFailed
    rw [hcard]

theorem refuseReads_slots (h : NumbersDistinct s) :
    (refuseReads rs c s).table.slots = s.table.slots.map (failIn fun n => (loadsOf rs).contains n) := by
  rw [(refuseReads_leaves rs c s).2.1]
  exact failLoads_slots h c (loadsOf rs)

theorem setSlot_residents {i n : Nat} {ws : List LoadWaiter} (hi : s.table.slots[i]? = some (.loading n ws)) :
    residents (setSlot i .free s) = residents s := by
  obtain ⟨hlt, hget⟩ := List.getElem?_eq_some_iff.1 hi
  have hsplit : s.table.slots = s.table.slots.take i ++ .loading n ws :: s.table.slots.drop (i + 1) := by
    rw [← hget, List.getElem_cons_drop, List.take_append_drop]
  have hset : (setSlot i .free s).table.slots = s.table.slots.take i ++ .free :: s.table.slots.drop (i + 1) :=
    List.set_eq_take_append_cons_drop.trans (if_pos hlt)
  unfold residents
  rw [hset]
  conv_rhs => rw [hsplit]
  rw [List.filterMap_append, List.filterMap_append]
  rfl

/-- A load that fails leaves the records. -/
theorem failLoad_residents (c : ResultCode) (s : State) (n : Nat) : residents (failLoad c s n) = residents s := by
  unfold failLoad
  split
  · rfl
  · next i hf =>
    obtain ⟨hlt, hloads, _⟩ := List.findIdx?_eq_some_iff_getElem.1 hf
    have hat : ∃ m ws, s.table.slots[i]? = some (.loading m ws) := by
      rw [List.getElem?_eq_getElem hlt]
      cases hx : s.table.slots[i] with
      | loading m ws => exact ⟨m, ws, rfl⟩
      | _ =>
        rw [hx] at hloads
        cases hloads
    obtain ⟨m, ws, hi⟩ := hat
    dsimp only
    rw [← setSlot_residents hi]
    exact residents_congr (by simp)

theorem refuseReads_residents (rs : List CardRead) (c : ResultCode) (s : State) :
    residents (refuseReads rs c s) = residents s := by
  rw [residents_congr (refuseReads_leaves rs c s).2.1]
  exact foldl_preserves (fun u => residents u = residents s) (failLoad c) (fun u n hu => (failLoad_residents c u n).trans hu)
    (loadsOf rs) s rfl

theorem refuseReads_nextDirty (rs : List CardRead) (c : ResultCode) (s : State) :
    nextDirty (refuseReads rs c s) = nextDirty s := by
  have hamended : (refuseReads rs c s).table.amended = s.table.amended := by
    rw [(refuseReads_leaves rs c s).2.1]
    exact (failLoads_keeps c (loadsOf rs) s).2.2.2.2.2
  unfold nextDirty findRecord
  rw [hamended, refuseReads_residents]

theorem refuseReads_queue (rs : List CardRead) (c : ResultCode) (s : State) :
    (rs.any CardRead.isFetch = false ∧ (refuseReads rs c s).dev = s.dev) ∨
    (rs.any CardRead.isFetch = true ∧
      (refuseReads rs c s).dev.queue = s.dev.queue.map fun j => { j with running := false }) := by
  obtain ⟨u, hu, he⟩ := refuseReads_cases rs c s
  have hdev := (failLoads_keeps c (loadsOf rs) s).2.1
  rw [he]
  rcases hu with ⟨rfl, hf⟩ | ⟨rfl, hf⟩
  · exact .inl ⟨hf, hdev⟩
  · refine .inr ⟨hf, ?_⟩
    have hq := requeueRunning_queue (loadsFailed rs c s)
    unfold loadsFailed at *
    rw [hdev] at hq
    exact hq

theorem refuseReads_handsOn (rs : List CardRead) (c : ResultCode) (s : State) : HandsOn s (refuseReads rs c s) := by
  refine ⟨by rw [(refuseReads_leaves rs c s).1], by simp, ?_, ?_, fun j hj => ?_⟩
  · rw [refuseReads_residents]
    exact fun r hr hl hc => ⟨r, hr, rfl, hl, hc, rfl⟩
  · rw [refuseReads_residents]
    exact fun r hr hl => ⟨r, hr, rfl, hl⟩
  · rcases refuseReads_queue rs c s with ⟨_, hq⟩ | ⟨_, hq⟩
    · exact ⟨j, by rw [hq]; exact hj, rfl, rfl⟩
    · exact ⟨{ j with running := false }, by rw [hq]; exact List.mem_map_of_mem (f := fun j : Job => { j with running := false }) hj,
        rfl, rfl⟩

/-! ### The eject accepted -/

/-- The card EJECTING. -/
def ejecting (tag : Nat) (s : State) : State :=
  { s with card := { s.card with state := .ejecting, ejectTag := some tag } }

/-- The card EJECTING with its waiting reads refused. -/
def ejectBegun (tag : Nat) (s : State) : State := refuseReads (waitingReads s) .noCard (ejecting tag s)

theorem acceptEject_eq (tag : Nat) (s : State) : acceptEject tag s = service (ejectBegun tag s) := rfl

theorem ejectBegun_card (tag : Nat) (s : State) : (ejectBegun tag s).card = { s.card with
    state := .ejecting, ejectTag := some tag, reads := s.card.reads.filter fun r => !(waitingReads s).contains r } :=
  (refuseReads_leaves _ _ _).1

theorem readInFlight_iff (w : Option CardWork) :
    readInFlight w = true ↔ (∃ n slot, w = some (.load n slot)) ∨ ∃ n p runs d, w = some (.fetch n p runs d) := by
  unfold readInFlight
  split
  · simp
  · simp
  · next h1 h2 =>
    refine ⟨nofun, ?_⟩
    rintro (⟨n, slot, h⟩ | ⟨n, p, runs, d, h⟩)
    · exact absurd h (h1 n slot)
    · exact absurd h (h2 n p runs d)

/-- The waiting reads of the statement are those of the model. -/
theorem waitingReads_eq {reads : List CardRead} (h : ReadsWaiting s reads) : waitingReads s = reads := by
  unfold waitingReads
  rcases h with ⟨⟨hl, hf⟩, rfl⟩ | ⟨hin, x, hx, _⟩
  · refine if_neg fun hr => ?_
    rcases (readInFlight_iff _).1 hr with ⟨n, slot, hw⟩ | ⟨n, p, runs, d, hw⟩
    · exact hl n slot hw
    · exact hf n p runs d hw
  · rw [if_pos ((readInFlight_iff _).2 hin), hx]
    rfl

theorem chooseWork_busy (h : s.card.work.isSome = true) (fuel : Nat) : chooseWork fuel s = s := by
  cases fuel with
  | zero => rfl
  | succ fuel =>
    unfold chooseWork
    split
    · next hw _ =>
      rw [hw] at h
      cases h
    · rfl

theorem kick_work (s : State) : (kick s).card.work = s.card.work := by
  unfold kick
  split <;> rfl

/-- In EJECTING work that waits is started (R149, R157). -/
theorem startCardWork_ejecting (hej : s.card.state = .ejecting) (hbus : s.card.bus = none)
    (h : s.card.work.isSome = true ∨ s.card.entries ≠ [] ∨ (nextDirty s).isSome = true) :
    (startCardWork s).card.work.isSome = true := by
  have hchosen : (chooseWork choiceLimit s).card.work.isSome = true := by
    cases hw : s.card.work with
    | some w => rw [chooseWork_busy (by rw [hw]; rfl), hw]; rfl
    | none =>
      have hchoice : ∃ c, nextChoice s = some c ∧ (takeChoice c s).card.work.isSome = true := by
        have hstarts : nextChoice s = ((s.card.entries.head?.map Choice.entry) <|> (nextDirty s).map Choice.dirty) := by
          unfold nextChoice
          simp [hej, CardState.starts]
        rw [hstarts]
        cases he : s.card.entries with
        | cons e l =>
          refine ⟨.entry e, rfl, ?_⟩
          cases e <;> rfl
        | nil =>
          have hd : (nextDirty s).isSome = true := by
            rcases h with h | h | h
            · rw [hw] at h
              cases h
            · exact absurd he h
            · exact h
          obtain ⟨n, hn⟩ := Option.isSome_iff_exists.1 hd
          rw [hn]
          exact ⟨.dirty n, rfl, rfl⟩
      obtain ⟨c, hc, hwork⟩ := hchoice
      unfold choiceLimit chooseWork
      rw [hw, hc]
      dsimp only
      rw [chooseWork_busy hwork]
      exact hwork
  unfold startCardWork
  rw [if_pos (by rw [hbus]; rfl), kick_work]
  exact hchosen

/-- As long as the drain is not complete the card stays EJECTING (R157). -/
theorem eject_stays {tag : Nat}
    (h : s.card.work.isSome ∨ s.card.bus.isSome ∨ s.card.entries ≠ [] ∨ RewriteWaits s) (ht : t = acceptEject tag s) :
    t.card.state = .ejecting ∧ t.card.ejectTag = some tag ∧ t.card.identity = s.card.identity ∧
    (s.card.bus.isSome → t.card.bus = s.card.bus ∧ t.card.work = s.card.work) := by
  rw [acceptEject_eq] at ht
  have hcard := ejectBegun_card tag s
  have hdirty : nextDirty (ejectBegun tag s) = nextDirty s := refuseReads_nextDirty _ _ _
  generalize ejectBegun tag s = u at *
  have hkept := cardKept_serveBlocks u
  have hstate : (serveBlocks u).card.state = .ejecting := by rw [serveBlocks_cardState, hcard]
  have hunreadable : u.card.state.readable = false := by rw [hcard]; rfl
  have hbusy : s.card.bus.isSome → (serveBlocks u).card = u.card := fun hb =>
    (Still.serveBlocks ⟨hunreadable, .inl (by rw [hcard]; exact hb)⟩).1
  have hnot : drained (serveBlocks u) = false := by
    by_contra hd
    rw [Bool.not_eq_false] at hd
    simp only [drained, Bool.and_eq_true] at hd
    obtain ⟨⟨⟨⟨_, hwork⟩, hbus⟩, _⟩, _⟩ := hd
    by_cases hb : s.card.bus.isSome
    · rw [hbusy hb, hcard] at hbus
      rw [Option.isNone_iff_eq_none] at hbus
      rw [hbus] at hb
      cases hb
    · have hnone : s.card.bus = none := by
        rw [← Option.not_isSome_iff_eq_none]
        exact hb
      have hdispatched : (dispatched u).card = u.card := dispatched_still hunreadable
      have hworks : (startCardWork (dispatched u)).card.work.isSome = true := by
        refine startCardWork_ejecting (by rw [hdispatched, hcard]) (by rw [hdispatched, hcard]; exact hnone) ?_
        rw [nextDirty_congr (dispatched_keeps u).1, hdirty, hdispatched, hcard]
        rcases h with h | h | h | h
        · exact .inl h
        · exact absurd h hb
        · exact .inr (.inl h)
        · exact .inr (.inr (nextDirty_some h))
      rw [serveBlocks_dispatched, (claimForDark_card_table _).1, Option.isNone_iff_eq_none] at hwork
      rw [hwork] at hworks
      cases hworks
  have hserve : service u = serveBlocks u := by
    unfold service
    dsimp only
    rw [hnot, if_neg Bool.false_ne_true]
  rw [ht, hserve]
  refine ⟨hstate, ?_, ?_, fun hb => ?_⟩
  · rw [hkept, hcard]
  · rw [hkept, hcard]
  · rw [hbusy hb, hcard]
    exact ⟨rfl, rfl⟩

/-- With nothing left to drain the eject is answered at its acceptance (R157). -/
theorem eject_drains {tag : Nat} (hd : NumbersDistinct s) (hw : s.card.work = none) (hb : s.card.bus = none)
    (he : s.card.entries = []) (hr : ¬ RewriteWaits s) : DrainEnded (some tag) s (acceptEject tag s) := by
  have hcard := ejectBegun_card tag s
  have hwaiting : waitingReads s = s.card.reads := by
    unfold waitingReads
    rw [hw]
    rfl
  have hready : DrainReady tag (ejectBegun tag s) := by
    refine ⟨by rw [hcard], by rw [hcard], by rw [hcard]; exact hw, by rw [hcard]; exact hb, by rw [hcard]; exact he,
      (refuseReads_nextDirty _ _ _).trans (nextDirty_none hr), ?_⟩
    rw [hcard, hwaiting]
    refine List.filter_eq_nil_iff.2 fun x hx => ?_
    simp [hx]
  have hdistinct : NumbersDistinct (ejectBegun tag s) :=
    numbersDistinct_map (keepsNumbers_failIn _) (refuseReads_slots (s := ejecting tag s) hd) hd
  have hstart : HandsOn s (ejecting tag s) := handsOn_of_same rfl rfl rfl rfl
  have hon : HandsOn s (ejectBegun tag s) := hstart.trans (refuseReads_handsOn _ _ (ejecting tag s))
  rw [acceptEject_eq]
  exact drainEnded_of_handsOn (hready.ends hdistinct) hon

/-! ### The reads that an eject refuses -/

/-- The end of a drain adds no read. -/
theorem finishDrain_reads (s : State) :
    (finishDrain s).card.state = .ejected ∧ (finishDrain s).card.reads ⊆ s.card.reads := by
  have hreads : (drainedRecords s).card.reads ⊆ s.card.reads := (cardDrops_dropSettled (returnHeld s)).reads
  obtain ⟨hc, _⟩ := answerWaiting_leaves (drainedRecords s).card.ejectTag .ok (drainedCard (drainedRecords s))
  rw [finishDrain_eq, hc]
  generalize drainedRecords s = u at hreads
  exact ⟨rfl, hreads⟩

/-- With the card not readable the work that follows an event adds no read, the end of a drain included. -/
theorem service_reads_subset (h : ¬ s.card.state.readable = true) : (service s).card.reads ⊆ s.card.reads := by
  have hserve : ∀ u : State, u.card.state.readable = false → (serveBlocks u).card.reads = u.card.reads := by
    intro u hu
    have hcard := dispatched_still hu
    rw [serveBlocks_dispatched, (claimForDark_card_table _).1, startCardWork_reads, hcard]
  have hfirst := hserve s (Bool.eq_false_of_not_eq_true h)
  unfold service
  dsimp only
  generalize serveBlocks s = u at hfirst
  split
  · obtain ⟨hstate, hreads⟩ := finishDrain_reads u
    rw [hserve _ (by rw [hstate]; rfl), ← hfirst]
    exact hreads
  · rw [hfirst]
    exact List.Subset.refl _

/-- An event at whose end the card is EJECTING has not ended the drain. -/
theorem service_ejecting (h : (service s).card.state = .ejecting) : service s = serveBlocks s := by
  unfold service at *
  dsimp only at *
  split at h
  · exfalso
    obtain ⟨hc, _⟩ := answerWaiting_leaves (drainedRecords (serveBlocks s)).card.ejectTag .ok
      (drainedCard (drainedRecords (serveBlocks s)))
    rw [serveBlocks_cardState, finishDrain_eq, hc] at h
    exact absurd h nofun
  · next hd => rw [if_neg hd]

/-- A job of a SETTLED record that is QUEUED stays so while the card is not readable. -/
theorem queued_serveBlocks (h : s.card.state.readable = false) {j : Job} {r : Record} (hj : j ∈ s.dev.queue)
    (hr : findRecord s j.shot = some r) (hl : r.life = .settled) : j ∈ (serveBlocks s).dev.queue := by
  have hd : (serveDarkClaim s).dev = s.dev ∧ (serveDarkClaim s).card = s.card ∧ (serveDarkClaim s).table = s.table := by simp
  have hserved : (serveBlocks s).dev = (attemptDispatch (serveDarkClaim s)).dev := by simp [serveBlocks]
  obtain ⟨hdev, hcard, htable⟩ := hd
  rw [hserved]
  have hfind : ∀ n, findRecord (serveDarkClaim s) n = findRecord s n := fun n => by
    unfold findRecord
    rw [residents_congr htable]
  rw [← hdev] at hj
  rw [← hfind] at hr
  rw [← hcard] at h
  generalize serveDarkClaim s = u at *
  unfold attemptDispatch
  split
  · split
    · exact hj
    · next x hx =>
      split
      · exact hj
      · next q hq =>
        have hheld := eligible_held h (jobToDispatch_eligible hx) hq
        have hne : j.shot ≠ x.shot := by
          intro e
          rw [e, hq] at hr
          cases hr
          rw [hheld] at hl
          cases hl
        have hqueue := dispatchJob_queue x q u
        change j ∈ (dispatchJob x q u).dev.queue
        rw [hqueue]
        refine List.mem_map.2 ⟨j, hj, if_neg ?_⟩
        simp [Job.isFor, hne]
  · exact hj

/-- With a QUEUED job of a SETTLED record alone nothing is dispatched while the card is not readable. -/
theorem alone_serveBlocks (h : s.card.state.readable = false) {j : Job} {r : Record} (hj : s.dev.queue = [j])
    (hr : findRecord s j.shot = some r) (hl : r.life = .settled) : (serveBlocks s).dev = s.dev ∧
    (serveBlocks s).cache = s.cache ∧ (s.pool.darkClaim = false → (serveBlocks s).pool.owners = s.pool.owners) := by
  have hd : (serveDarkClaim s).dev = s.dev ∧ (serveDarkClaim s).card = s.card ∧ (serveDarkClaim s).table = s.table ∧
      (serveDarkClaim s).cache = s.cache := by simp
  have hserved : (serveBlocks s).dev = (attemptDispatch (serveDarkClaim s)).dev ∧
      (serveBlocks s).cache = (attemptDispatch (serveDarkClaim s)).cache ∧
      (serveBlocks s).pool.owners = (attemptDispatch (serveDarkClaim s)).pool.owners := by
    refine ⟨by simp [serveBlocks], by simp [serveBlocks], ?_⟩
    have hclaim : ∀ u : State, (claimForDark u).pool.owners = u.pool.owners := fun u => by
      unfold claimForDark
      split <;> rfl
    rw [serveBlocks, hclaim]
    simp
  have hdark : s.pool.darkClaim = false → (serveDarkClaim s).pool.owners = s.pool.owners := fun hc => by
    unfold serveDarkClaim
    rw [hc]
    simp
  obtain ⟨hdev, hcard, htable, hcache⟩ := hd
  obtain ⟨h1, h2, h3⟩ := hserved
  have hfind : ∀ n, findRecord (serveDarkClaim s) n = findRecord s n := fun n => by
    unfold findRecord
    rw [residents_congr htable]
  have hnone : jobToDispatch (serveDarkClaim s) = none := by
    cases hx : jobToDispatch (serveDarkClaim s) with
    | none => rfl
    | some x =>
      exfalso
      have hmem : x = j := by
        have hq : x ∈ (serveDarkClaim s).dev.queue := (jobToDispatch_mem hx).1
        rw [hdev, hj] at hq
        exact List.mem_singleton.1 hq
      rw [hmem] at hx
      have hheld := eligible_held (by rw [hcard]; exact h) (jobToDispatch_eligible hx) ((hfind _).trans hr)
      rw [hheld] at hl
      cases hl
  have hsame : (attemptDispatch (serveDarkClaim s)).dev = (serveDarkClaim s).dev ∧
      (attemptDispatch (serveDarkClaim s)).cache = (serveDarkClaim s).cache ∧
      (attemptDispatch (serveDarkClaim s)).pool.owners = (serveDarkClaim s).pool.owners := by
    unfold attemptDispatch
    rw [hnone]
    split <;> exact ⟨rfl, rfl, rfl⟩
  obtain ⟨h4, h5, h6⟩ := hsame
  exact ⟨h1.trans (h4.trans hdev), h2.trans (h5.trans hcache), fun hc => h3.trans (h6.trans (hdark hc))⟩

/-! ### What a requeued job held -/

theorem dropHolds_slot {h : RunHolds} (hh : s.dev.holds = some h) {i : Nat} (hi : h.slot = some i)
    (hl : i < s.cache.slots.length) : (dropHolds s).cache.slots[i]? = some { state := .free, pins := 0 } := by
  have hslot : s.dev.holds.bind (·.slot) = some i := by
    rw [hh]
    exact hi
  have hcache : (releasePlane (s.dev.holds.bind (·.output)) (endHolds s)).cache = s.cache := by simp
  unfold dropHolds
  dsimp only
  rw [hslot]
  change ((releasePlane (s.dev.holds.bind (·.output)) (endHolds s)).cache.slots.set i { state := .free, pins := 0 })[i]? = _
  rw [hcache]
  exact List.getElem?_set_self hl

theorem dropHolds_darkClaim (s : State) : (dropHolds s).pool.darkClaim = s.pool.darkClaim := by
  have hrelease : ∀ (q : Option Nat) (u : State), (releasePlane q u).pool.darkClaim = u.pool.darkClaim := fun q u => by
    cases q <;> rfl
  have hslot : ∀ (slot : Option Nat) (u : State), ((slot.map freeSlot).getD id u).pool = u.pool := fun slot u => by
    cases slot <;> rfl
  unfold dropHolds
  dsimp only
  rw [hslot, hrelease]
  exact hrelease _ _

/-- The engine and what the RUNNING job held, when its fetch is refused (R119). -/
theorem refuseReads_requeues (h : rs.any CardRead.isFetch = true) :
    (refuseReads rs c s).dev.engine = .idle ∧ (refuseReads rs c s).dev.holds = none ∧
    (refuseReads rs c s).pool.darkClaim = s.pool.darkClaim ∧
    (∀ (x : RunHolds) (q : Nat), s.dev.holds = some x → (x.fetch = some q ∨ x.output = some q) → q < s.pool.owners.length →
      (refuseReads rs c s).pool.owners[q]? = some .free) ∧
    ∀ (x : RunHolds) (i : Nat), s.dev.holds = some x → x.slot = some i → i < s.cache.slots.length →
      (refuseReads rs c s).cache.slots[i]? = some { state := .free, pins := 0 } := by
  obtain ⟨_, hdev, hpool, hcache, _⟩ := failLoads_keeps c (loadsOf rs) s
  obtain ⟨u, hu, he⟩ := refuseReads_cases rs c s
  rcases hu with ⟨_, hf⟩ | ⟨rfl, _⟩
  · rw [hf] at h
    cases h
  · rw [he]
    change (loadsFailed rs c s).dev = _ at hdev
    change (loadsFailed rs c s).pool = _ at hpool
    change (loadsFailed rs c s).cache = _ at hcache
    generalize loadsFailed rs c s = v at hdev hpool hcache
    rw [← hdev, ← hpool, ← hcache]
    refine ⟨?_, ?_, dropHolds_darkClaim v, fun x q hx hq hl => ?_, fun x i hx hi hl => dropHolds_slot hx hi hl⟩
    · change (dropHolds v).dev.engine = .idle
      rw [dropHolds_dev]
    · change (dropHolds v).dev.holds = none
      rw [dropHolds_dev]
    · change (dropHolds v).pool.owners[q]? = some .free
      rw [dropHolds_owner, hx]
      exact if_pos ⟨hq, hl⟩

/-- The reads not started are refused (R19, R119, R157). -/
theorem eject_refuses {tag : Nat} (hd : NumbersDistinct s) {reads : List CardRead} (hw : ReadsWaiting s reads) :
    ReadsRefused s (acceptEject tag s) reads := by
  have hcard := ejectBegun_card tag s
  have hslots := refuseReads_slots (s := ejecting tag s) (rs := waitingReads s) (c := .noCard) hd
  have hlink := (refuseReads_leaves (waitingReads s) .noCard (ejecting tag s)).2.2
  have hfind : ∀ n, findRecord (ejectBegun tag s) n = findRecord s n := fun n =>
    congrArg (List.find? fun r : Record => r.number == n) (refuseReads_residents (waitingReads s) .noCard (ejecting tag s))
  have hqueue := refuseReads_queue (waitingReads s) .noCard (ejecting tag s)
  have hrequeue := refuseReads_requeues (rs := waitingReads s) (c := .noCard) (s := ejecting tag s)
  have hans : ∀ {n : Nat} {ws : List LoadWaiter}, n ∈ loadsOf (waitingReads s) → RecordSlot.loading n ws ∈ s.table.slots →
      ∀ w ∈ ws, Answered (loadsFailed (waitingReads s) .noCard (ejecting tag s)) w.tag .noCard .empty :=
    fun hn hm w hw => failLoads_answered (s := ejecting tag s) hd .noCard hn hm hw
  change (ejectBegun tag s).table.slots = s.table.slots.map _ at hslots
  change (ejectBegun tag s).link = _ at hlink
  change _ ∧ (ejectBegun tag s).dev = s.dev ∨ _ ∧ (ejectBegun tag s).dev.queue = s.dev.queue.map _ at hqueue
  change _ → (ejectBegun tag s).dev.engine = .idle ∧ (ejectBegun tag s).dev.holds = none ∧
    (ejectBegun tag s).pool.darkClaim = s.pool.darkClaim ∧ (∀ (x : RunHolds) (q : Nat), s.dev.holds = some x → _ → _ →
      (ejectBegun tag s).pool.owners[q]? = some .free) ∧ ∀ (x : RunHolds) (i : Nat), s.dev.holds = some x → _ → _ →
      (ejectBegun tag s).cache.slots[i]? = _ at hrequeue
  rw [waitingReads_eq hw] at hcard hslots hlink hqueue hrequeue hans
  rw [acceptEject_eq]
  generalize ejectBegun tag s = u at *
  have hunreadable : u.card.state.readable = false := by
    rw [hcard]
    rfl
  refine ⟨fun x hx hm => ?_, fun n slot i ws hx hi => ?_, fun n p runs j r hx hj hr hl hst => ?_⟩
  · have hm' := service_reads_subset (s := u) (by rw [hunreadable]; exact Bool.false_ne_true) hm
    rw [hcard] at hm'
    have hno := (List.mem_filter.1 hm').2
    simp [hx] at hno
  · have hn : n ∈ loadsOf reads := List.mem_filterMap.2 ⟨_, hx, rfl⟩
    have hfree : FreeAt i u := by
      unfold FreeAt
      rw [hslots, List.getElem?_map, hi]
      simp [failIn, hn]
    refine ⟨hfree.service, fun w hw => answered_service ?_⟩
    unfold Answered
    rw [hlink]
    exact hans hn (List.mem_of_getElem? hi) w hw
  · have hfetch : reads.any CardRead.isFetch = true := List.any_eq_true.2 ⟨_, hx, rfl⟩
    have hq : u.dev.queue = s.dev.queue.map fun j => { j with running := false } := by
      rcases hqueue with ⟨hno, _⟩ | ⟨_, hq⟩
      · rw [hno] at hfetch
        cases hfetch
      · exact hq
    rw [service_ejecting hst]
    have hr' : findRecord u ({ j with running := false } : Job).shot = some r := (hfind j.shot).trans hr
    refine ⟨?_, fun hone => ?_⟩
    · refine queued_serveBlocks hunreadable ?_ hr' hl
      rw [hq]
      exact List.mem_map_of_mem (f := fun j : Job => { j with running := false }) hj
    · have honly : u.dev.queue = [{ j with running := false }] := by
        rw [hq, hone]
        rfl
      obtain ⟨hdev, hcache, howners⟩ := alone_serveBlocks hunreadable honly hr' hl
      obtain ⟨hidle, hholds, hclaim, hplanes, hpreview⟩ := hrequeue hfetch
      rw [hdev, hcache]
      refine ⟨hidle, hholds, fun x q hx' hq' hlen hdark => ?_, fun x i hx' hi hlen => hpreview x i hx' hi hlen⟩
      rw [howners (hclaim.trans hdark)]
      exact hplanes x q hx' hq' hlen

end

end Sys2Proof.ShotTable
end

section
/-! Shot table: what a format takes from a READY card (R158, R159). -/

namespace Sys2Proof.ShotTable
open Sys2Proof.Machine

section
variable {s t u : State}

/-! ### The slots -/

/-- The records that go back to UNWRITTEN at once. -/
def formatGoes (s : State) (r : Record) : Bool := r.heldOnWay && rawInFlight s != some r.number

/-- The loads that wait for their read. -/
def loadWaits (s : State) (n : Nat) : Bool := loadInFlight s != some n

/-- A record as an accepted format leaves it. -/
def formatRecord (s : State) (r : Record) : Record := if formatGoes s r then r.unwrite else r

/-- A slot as an accepted format leaves it. -/
def clearedSlot (s : State) (x : RecordSlot) : RecordSlot :=
  failIn (loadWaits s) (RecordSlot.clearIf (fun r => r.life == .settled) (RecordSlot.mapEach (formatRecord s) x))

theorem formatRecord_number (s : State) (r : Record) : (formatRecord s r).number = r.number := by
  unfold formatRecord
  split <;> rfl

theorem formatRecord_life (s : State) (r : Record) : (formatRecord s r).life = r.life := by
  unfold formatRecord
  split <;> rfl

theorem clearedSlot_inUse {r : Record} (h : r.life ≠ .settled) : clearedSlot s (.inUse r) = .inUse (formatRecord s r) := by
  have hlife : (formatRecord s r).life ≠ .settled := by
    rw [formatRecord_life]
    exact h
  simp [clearedSlot, RecordSlot.mapEach, RecordSlot.clearIf, failIn, hlife]

theorem clearedSlot_resident {x : RecordSlot} {y : Record} (h : clearedSlot s x = .inUse y) :
    y.life ≠ .settled ∧ ∃ r, x = .inUse r ∧ y = formatRecord s r := by
  cases x with
  | inUse r =>
    by_cases hl : (formatRecord s r).life = .settled
    · simp [clearedSlot, RecordSlot.mapEach, RecordSlot.clearIf, failIn, hl] at h
    · simp only [clearedSlot, RecordSlot.mapEach, RecordSlot.clearIf, failIn, beq_iff_eq, hl, if_false] at h
      cases h
      exact ⟨hl, r, rfl, rfl⟩
  | loading n ws =>
    simp only [clearedSlot, RecordSlot.mapEach, RecordSlot.clearIf, failIn] at h
    split at h <;> cases h
  | free => cases h

theorem clearedSlot_loading_iff {x : RecordSlot} {n : Nat} {ws : List LoadWaiter} :
    clearedSlot s x = .loading n ws ↔ x = .loading n ws ∧ loadWaits s n = false := by
  cases x with
  | inUse r =>
    simp only [clearedSlot, RecordSlot.mapEach, RecordSlot.clearIf]
    split <;> simp [failIn]
  | loading m ws' =>
    simp only [clearedSlot, RecordSlot.mapEach, RecordSlot.clearIf, failIn]
    cases hm : loadWaits s m with
    | true =>
      simp only [if_true, reduceCtorEq, false_iff, not_and]
      rintro ⟨rfl, rfl⟩
      simp [hm]
    | false =>
      simp only [Bool.false_eq_true, if_false]
      constructor
      · rintro ⟨rfl, rfl⟩
        exact ⟨rfl, hm⟩
      · exact fun h => h.1
  | free => simp [clearedSlot, RecordSlot.mapEach, RecordSlot.clearIf, failIn]

/-! ### Its parts -/

theorem loadInFlight_of_drops (h : CardDrops s t) : loadInFlight t = loadInFlight s := by
  rcases h.work with ⟨hw, _⟩ | ⟨hf, hw⟩
  · unfold loadInFlight
    rw [hw]
  · unfold loadInFlight
    rw [hw]
    cases hs : s.card.work with
    | none => rfl
    | some w =>
      rw [hs] at hf
      cases w with
      | load n slot => cases hf
      | _ => rfl

/-- The loads that fail at an accepted format. -/
def waitingLoads (s : State) : List Nat := (loadsOf s.card.reads ++ loadingShots s).filter (loadWaits s)

theorem mem_waitingLoads {n : Nat} {ws : List LoadWaiter} (h : RecordSlot.loading n ws ∈ s.table.slots) :
    n ∈ waitingLoads s ↔ loadWaits s n = true := by
  have hmem : n ∈ loadingShots s := List.mem_filterMap.2 ⟨_, h, rfl⟩
  unfold waitingLoads
  rw [List.mem_filter]
  exact ⟨fun hx => hx.2, fun hx => ⟨List.mem_append_right _ hmem, hx⟩⟩

/-- The reads that stay at an accepted format: the one of the load on the bus. -/
def staysRead (s : State) : CardRead → Bool
  | .load n _ => loadInFlight s == some n
  | .fetch _ _ _ => false

theorem failWaitingLoads_eq (c : ResultCode) (s : State) : ∃ v : State, v = (waitingLoads s).foldl (failLoad c) s ∧
    failWaitingLoads c s = { v with card := { s.card with reads := s.card.reads.filter (staysRead s) } } := by
  refine ⟨_, rfl, ?_⟩
  obtain ⟨hcard, _⟩ := failLoads_keeps c (waitingLoads s) s
  have hin : loadInFlight ((waitingLoads s).foldl (failLoad c) s) = loadInFlight s := by
    unfold loadInFlight
    rw [hcard]
  change ({ (waitingLoads s).foldl (failLoad c) s with card := { ((waitingLoads s).foldl (failLoad c) s).card with
    reads := ((waitingLoads s).foldl (failLoad c) s).card.reads.filter
      (staysRead ((waitingLoads s).foldl (failLoad c) s)) } } : State) = _
  generalize (waitingLoads s).foldl (failLoad c) s = v at hcard hin
  have hstays : staysRead v = staysRead s := by
    funext x
    cases x with
    | load n slot =>
      unfold staysRead
      rw [hin]
    | fetch n p runs => rfl
  rw [hcard, hstays]

/-! ### The whole -/

/-- The Card Store after an accepted format of a READY card, its command still on the bus or none. -/
structure CardCleared (s t : State) : Prop where
  card : t.card = { s.card with
    reads := t.card.reads, handoffs := t.card.handoffs, work := t.card.work, bus := t.card.bus, entries := []
    indexHeld := false, index := [], damaged := [], map := [] }
  reads : ∀ x ∈ t.card.reads, staysRead s x = true
  work : t.card.work = s.card.work ∧ t.card.bus = s.card.bus ∨ s.card.work.any CardWork.isFetch = true ∧ t.card.work = none
  command : t.card.bus.map (·.command) = s.card.bus.map (·.command)

/-- The records an accepted format sends back to UNWRITTEN. -/
def formatReturned (s : State) : State := returnRecords (formatGoes s) s

theorem formatDropped_load (s : State) : loadInFlight (dropSettled (formatReturned s)) = loadInFlight s := by
  have hret : loadInFlight (formatReturned s) = loadInFlight s := rfl
  exact (loadInFlight_of_drops (cardDrops_dropSettled (formatReturned s))).trans hret

/-- The waiting loads failed, the entry writes and the index gone. -/
def loadsCleared (s : State) : State :=
  emptyIndex { failWaitingLoads .notFound s with card := { (failWaitingLoads .notFound s).card with entries := [] } }

theorem loadsCleared_eq (s : State) : ∃ v : State, v = (waitingLoads s).foldl (failLoad .notFound) s ∧
    loadsCleared s = { v with card := { s.card with
      reads := s.card.reads.filter (staysRead s)
      entries := [], indexHeld := false, index := [], damaged := [], map := [] } } := by
  obtain ⟨v, hv, he⟩ := failWaitingLoads_eq .notFound s
  refine ⟨v, hv, ?_⟩
  unfold loadsCleared
  rw [he]
  rfl

theorem clearForFormat_eq (s : State) : clearForFormat s = loadsCleared (dropSettled (formatReturned s)) := by
  have hgoes : formatGoes s = fun r => r.heldOnWay && rawInFlight s != some r.number := rfl
  unfold clearForFormat formatReturned loadsCleared
  rw [hgoes]

theorem clearForFormat_card (s : State) : CardCleared s (clearForFormat s) := by
  have hdrop : CardDrops (formatReturned s) (dropSettled (formatReturned s)) := cardDrops_dropSettled _
  have hret : (formatReturned s).card = { s.card with handoffs := (formatReturned s).card.handoffs } := rfl
  have hin : loadInFlight (dropSettled (formatReturned s)) = loadInFlight s := formatDropped_load s
  rw [clearForFormat_eq]
  generalize dropSettled (formatReturned s) = d at *
  obtain ⟨v, _, he⟩ := loadsCleared_eq d
  rw [he]
  generalize formatReturned s = q at *
  obtain ⟨hcard, _, _, hwork, hcommand⟩ := hdrop
  rw [hret] at hcard hwork hcommand
  refine ⟨?_, fun x hx => ?_, hwork, hcommand⟩
  · dsimp only
    rw [hcard]
  · have hstays := (List.mem_filter.1 hx).2
    cases x with
    | load n slot =>
      unfold staysRead at *
      rw [← hin]
      exact hstays
    | fetch n p runs => exact hstays

theorem formatReturned_slots (s : State) :
    (formatReturned s).table.slots = s.table.slots.map (RecordSlot.mapEach (formatRecord s)) := by
  unfold formatReturned returnRecords updateRecords
  refine List.map_congr_left fun x _ => ?_
  cases x <;> rfl

theorem formatReturned_distinct (h : NumbersDistinct s) : NumbersDistinct (formatReturned s) :=
  numbersDistinct_map (keepsNumbers_mapEach (formatRecord_number s)) (formatReturned_slots s) h

/-- The slots with the records returned and the SETTLED ones dropped. -/
theorem formatDropped_slots (h : NumbersDistinct s) : (dropSettled (formatReturned s)).table.slots =
    s.table.slots.map fun x => RecordSlot.clearIf (fun r => r.life == .settled) (RecordSlot.mapEach (formatRecord s) x) := by
  rw [(dropSettled_dropped (formatReturned_distinct h)).slots, formatReturned_slots, List.map_map]
  rfl

theorem formatDropped_distinct (h : NumbersDistinct s) : NumbersDistinct (dropSettled (formatReturned s)) :=
  numbersDistinct_map (keepsNumbers_clearIf _) (dropSettled_dropped (formatReturned_distinct h)).slots
    (formatReturned_distinct h)

theorem clearForFormat_slots (h : NumbersDistinct s) :
    (clearForFormat s).table.slots = s.table.slots.map (clearedSlot s) := by
  have hslots := formatDropped_slots h
  have hd := formatDropped_distinct h
  have hin : loadInFlight (dropSettled (formatReturned s)) = loadInFlight s := formatDropped_load s
  rw [clearForFormat_eq]
  generalize dropSettled (formatReturned s) = d at *
  obtain ⟨v, hv, he⟩ := loadsCleared_eq d
  rw [he]
  change v.table.slots = _
  rw [hv]
  have hfail : d.table.slots.map (failIn fun m => (waitingLoads d).contains m) = d.table.slots.map (failIn (loadWaits s)) := by
    refine List.map_congr_left fun x hx => ?_
    cases x with
    | loading n ws =>
      have hmem := mem_waitingLoads hx
      unfold loadWaits at *
      rw [hin] at hmem
      have hsame : (waitingLoads d).contains n = (loadInFlight s != some n) := by
        rw [Bool.eq_iff_iff, List.contains_iff_mem]
        exact hmem
      simp only [failIn, hsame]
    | _ => rfl
  rw [failLoads_slots hd, hfail, hslots, List.map_map]
  rfl

/-- The waiters of the loads that wait are answered (R20, R159). -/
theorem clearForFormat_answered (h : NumbersDistinct s) {n : Nat} {ws : List LoadWaiter}
    (hm : RecordSlot.loading n ws ∈ s.table.slots) (hn : loadWaits s n = true) {w : LoadWaiter} (hw : w ∈ ws) :
    Answered (clearForFormat s) w.tag .notFound .empty := by
  have hslots := formatDropped_slots h
  have hd := formatDropped_distinct h
  have hin : loadInFlight (dropSettled (formatReturned s)) = loadInFlight s := formatDropped_load s
  rw [clearForFormat_eq]
  generalize dropSettled (formatReturned s) = d at *
  obtain ⟨v, hv, he⟩ := loadsCleared_eq d
  have hlink : (loadsCleared d).link = v.link := by rw [he]
  unfold Answered
  rw [hlink, hv]
  have hm' : RecordSlot.loading n ws ∈ d.table.slots := by
    rw [hslots]
    exact List.mem_map.2 ⟨_, hm, rfl⟩
  have hwait : n ∈ waitingLoads d := by
    rw [mem_waitingLoads hm']
    unfold loadWaits at *
    rw [hin]
    exact hn
  exact failLoads_answered hd .notFound hwait hm' hw

end

end Sys2Proof.ShotTable
end

section
/-! Shot table: the work that ends for a format, and the writing of the card (R159). -/

namespace Sys2Proof.ShotTable
open Sys2Proof.Machine

section
variable {s t u : State}

/-! ### The retirements end -/

/-- Retirements that end one after another free the slots of their records. -/
theorem endRetirementFold_slots {α : Type} (shot : α → Nat) (code : α → ResultCode) (l : List α) (h : NumbersDistinct s) :
    (l.foldl (fun s e => endRetirement (code e) s (shot e)) s).table.slots =
      s.table.slots.map (RecordSlot.clearIf fun r => (l.map shot).contains r.number) := by
  induction l generalizing s with
  | nil =>
    refine ((List.map_congr_left fun x _ => ?_).trans (List.map_id _)).symm
    cases x <;> rfl
  | cons e l ih =>
    have hstep : (endRetirement (code e) s (shot e)).table.slots =
        s.table.slots.map (RecordSlot.clearIf fun r => r.number == shot e) := by
      unfold endRetirement
      rw [(answerWaiting_leaves _ _ _).2.1]
      exact removeRecord_slots h (shot e)
    rw [List.foldl_cons, ih (numbersDistinct_map (keepsNumbers_clearIf _) hstep h), hstep, List.map_map]
    refine List.map_congr_left fun x _ => ?_
    rw [Function.comp, clearIf_or]
    congr 1

theorem endRetirements_slots (h : NumbersDistinct s) : (endRetirements s).table.slots =
    s.table.slots.map (RecordSlot.clearIf fun r => r.life == .retiring) := by
  have hfold := endRetirementFold_slots Prod.fst Prod.snd ((retiringShots s).map fun n => (n, retiredAtRemoval s n)) h
  have hshots : ((retiringShots s).map fun n => (n, retiredAtRemoval s n)).map Prod.fst = retiringShots s := by
    rw [List.map_map]
    exact List.map_id _
  rw [hshots] at hfold
  refine hfold.trans (map_slots_congr rfl (fun _ _ => rfl) fun r hr => ?_)
  have hsame : (retiringShots s).contains r.number = (r.life == .retiring) := contains_shotsWhere h _ hr
  simp only [RecordSlot.clearIf, hsame]

/-! ### The work has ended -/

/-- The work in flight ends, and the format waits no more. -/
def stopWork (s : State) : State :=
  let v := setWork none (clearBus s)
  { v with card := { v.card with formatWait := none } }

theorem stopWork_card (s : State) : (stopWork s).card = { s.card with work := none, bus := none, formatWait := none } := rfl

theorem stopWork_keeps (s : State) : (stopWork s).table = s.table ∧ (stopWork s).timeBase = s.timeBase := ⟨rfl, rfl⟩

/-- The retirements and the work in flight have ended. -/
def stopped (s : State) : State := stopWork (endRetirements s)

theorem stopped_card (s : State) : (stopped s).card = { s.card with work := none, bus := none, formatWait := none } := by
  have hcard : (endRetirements s).card = s.card := by simp
  unfold stopped
  rw [stopWork_card, hcard]

theorem stopped_keeps (s : State) : (stopped s).table = (endRetirements s).table ∧ (stopped s).timeBase = s.timeBase := by
  have htime : (endRetirements s).timeBase = s.timeBase := by simp
  obtain ⟨h1, h2⟩ := stopWork_keeps (endRetirements s)
  exact ⟨h1, h2.trans htime⟩

theorem stopped_slots (h : NumbersDistinct s) : (stopped s).table.slots =
    s.table.slots.map (RecordSlot.clearIf fun r => r.life == .retiring) := by
  rw [(stopped_keeps s).1]
  exact endRetirements_slots h

theorem stopped_distinct (h : NumbersDistinct s) : NumbersDistinct (stopped s) :=
  numbersDistinct_map (keepsNumbers_clearIf _) (stopped_slots h) h

/-- What the format finds when the work has ended. -/
def workEnded (s : State) : State := clearForFormat (stopped s)

theorem endForFormat_eq (v : Nat) (s : State) : endForFormat v s = startFormat v (workEnded s) := rfl

theorem workEnded_timeBase (s : State) : (workEnded s).timeBase = s.timeBase := by
  have h1 : (workEnded s).timeBase = (stopped s).timeBase := by simp [workEnded]
  exact h1.trans (stopped_keeps s).2

theorem workEnded_card (s : State) : (workEnded s).card = { s.card with
    reads := [], handoffs := (workEnded s).card.handoffs, work := none, bus := none, entries := [], formatWait := none
    indexHeld := false, index := [], damaged := [], map := [] } := by
  have hstop := stopped_card s
  obtain ⟨hcard, hreads, hwork, _⟩ := clearForFormat_card (stopped s)
  unfold workEnded
  generalize stopped s = q at *
  generalize clearForFormat q = e at *
  have hnone : e.card.work = none ∧ e.card.bus = none := by
    rcases hwork with ⟨hw, hb⟩ | ⟨hf, _⟩
    · rw [hstop] at hw hb
      exact ⟨hw, hb⟩
    · rw [hstop] at hf
      cases hf
  have hempty : e.card.reads = [] := by
    refine List.eq_nil_iff_forall_not_mem.2 fun x hx => ?_
    have hx' := hreads x hx
    unfold staysRead loadInFlight at hx'
    rw [hstop] at hx'
    cases x with
    | load n slot => cases hx'
    | fetch n p runs => cases hx'
  rw [hcard, hempty, hnone.1, hnone.2, hstop]

/-- A slot when the work has ended for a format. -/
def endedSlot (s : State) (x : RecordSlot) : RecordSlot :=
  clearedSlot (stopped s) (RecordSlot.clearIf (fun r => r.life == .retiring) x)

theorem workEnded_slots (h : NumbersDistinct s) : (workEnded s).table.slots = s.table.slots.map (endedSlot s) := by
  unfold workEnded
  rw [clearForFormat_slots (stopped_distinct h), stopped_slots h, List.map_map]
  rfl

theorem stopped_goes (s : State) (r : Record) : formatGoes (stopped s) r = r.heldOnWay ∧
    ∀ n, loadWaits (stopped s) n = true := by
  unfold formatGoes loadWaits rawInFlight loadInFlight
  rw [stopped_card]
  exact ⟨Bool.and_true _, fun _ => rfl⟩

/-- A HELD record that has begun to reach the card, once it is UNWRITTEN. -/
theorem backToUnwritten_formatRecord {r : Record} (hl : r.life = .held) (hg : formatGoes s r = r.heldOnWay) :
    (formatRecord s r).rawCard = .unwritten ∧ (r.rawCard ≠ .unwritten → BackToUnwritten r (formatRecord s r)) := by
  unfold formatRecord
  rw [hg]
  by_cases hc : r.rawCard = .unwritten
  · have hway : r.heldOnWay = false := by simp [Record.heldOnWay, hc]
    rw [hway, if_neg Bool.false_ne_true]
    exact ⟨hc, fun h => absurd hc h⟩
  · have hway : r.heldOnWay = true := by simp [Record.heldOnWay, hl, hc]
    rw [hway, if_pos rfl]
    exact ⟨rfl, fun _ => backToUnwritten_unwrite r⟩

/-- What has ended for a format stays so in a state with the same Card Store fields, table and answers. -/
theorem workEndedForFormat_of {t : State} (h : NumbersDistinct s) (hc : t.card.indexHeld = false ∧ t.card.index = [] ∧
    t.card.damaged = [] ∧ t.card.map = [] ∧ t.card.reads = [] ∧ t.card.entries = []) (ht : t.table = (workEnded s).table)
    (hq : Continues (workEnded s) t) : WorkEndedForFormat s t := by
  have hslots : t.table.slots = s.table.slots.map (endedSlot s) := by
    rw [ht]
    exact workEnded_slots h
  have hd := stopped_distinct h
  have hstop := stopped_slots h
  obtain ⟨h1, h2, h3, h4, h5, h6⟩ := hc
  refine ⟨h1, h2, h3, h4, h5, h6, fun n ws w hm hw => ?_, fun n ws hm => ?_, fun r hr hl => ?_, fun y hy => ?_⟩
  · have hm' : RecordSlot.loading n ws ∈ (stopped s).table.slots := by
      rw [hstop]
      exact List.mem_map.2 ⟨_, hm, rfl⟩
    have hwaits : loadWaits (stopped s) n = true := by
      unfold loadWaits loadInFlight
      rw [stopped_card]
      rfl
    exact hq.subset (clearForFormat_answered hd hm' hwaits hw)
  · rw [hslots, List.mem_map] at hm
    obtain ⟨x, _, hx⟩ := hm
    have hwaits := (clearedSlot_loading_iff.1 hx).2
    unfold loadWaits loadInFlight at hwaits
    rw [stopped_card] at hwaits
    cases hwaits
  · have hkeep : endedSlot s (.inUse r) = .inUse (formatRecord (stopped s) r) := by
      have hclear : RecordSlot.clearIf (fun r => r.life == .retiring) (.inUse r) = .inUse r := by
        simp [RecordSlot.clearIf, hl]
      unfold endedSlot
      rw [hclear]
      exact clearedSlot_inUse (by rw [hl]; nofun)
    obtain ⟨hraw, hback⟩ := backToUnwritten_formatRecord (s := stopped s) hl (stopped_goes s r).1
    exact ⟨_, (mem_residents_map hslots).2 ⟨_, mem_slots_of_resident hr, hkeep⟩, formatRecord_number _ r,
      (formatRecord_life _ r).trans hl, hraw, hback⟩
  · obtain ⟨x, _, hx⟩ := (mem_residents_map hslots).1 hy
    obtain ⟨hset, r, hxr, rfl⟩ := clearedSlot_resident hx
    refine ⟨hset, ?_⟩
    rw [formatRecord_life]
    cases x with
    | inUse q =>
      unfold RecordSlot.clearIf at hxr
      dsimp only at hxr
      split at hxr
      · cases hxr
      · next hno =>
        cases hxr
        simpa using hno
    | _ => cases hxr

/-! ### The card is written -/

/-- A card of at least 4 clusters: its writing begins. -/
theorem startFormat_writes {x : Identity} (v : Nat) (hx : u.card.identity = some x) (h4 : 4 ≤ x.capacity / 2048)
    (hb : u.card.bus = none) : startFormat v u = { u with card := { u.card with
      work := some (.format 0 v (x.capacity / 2048 - 3))
      bus := some { command := .write 2048 2048 .emptyEntries, issued := u.timeBase, retried := false, orphan := false } } } := by
  have hcap : cardCapacity u = x.capacity := by
    unfold cardCapacity
    rw [hx]
    rfl
  unfold startFormat
  dsimp only
  rw [hcap, if_neg (by change ¬ x.capacity / 2048 < 4; omega)]
  unfold kick setWork
  dsimp only
  rw [hb]
  rfl

/-- A card of fewer than 4 clusters is left UNFORMATTED. -/
theorem startFormat_refuses {x : Identity} (v : Nat) (hx : u.card.identity = some x) (h4 : x.capacity / 2048 < 4) :
    (startFormat v u).card = { u.card with state := .unformatted, formatTag := none } ∧
    (startFormat v u).table = u.table ∧ Continues u (startFormat v u) ∧
    ∀ tag, u.card.formatTag = some tag → Answered (startFormat v u) tag .cardError .empty := by
  have hcap : cardCapacity u = x.capacity := by
    unfold cardCapacity
    rw [hx]
    rfl
  have hsmall : startFormat v u = answerFormat .cardError (setCardState .unformatted u) := by
    unfold startFormat
    dsimp only
    rw [hcap, if_pos (by exact h4)]
  rw [hsmall]
  have hfirst : Continues u { setCardState .unformatted u with
      card := { (setCardState .unformatted u).card with formatTag := none } } := List.prefix_refl _
  have heq : ∀ q : State, answerFormat .cardError q =
    answerWaiting q.card.formatTag .cardError { q with card := { q.card with formatTag := none } } := fun _ => rfl
  rw [heq]
  obtain ⟨hc, ht, _, hans⟩ := answerWaiting_leaves (setCardState .unformatted u).card.formatTag .cardError
    { setCardState .unformatted u with card := { (setCardState .unformatted u).card with formatTag := none } }
  exact ⟨hc, ht, continues_trans hfirst (continues_answerWaiting _ _ _), hans⟩

/-- What follows the event in which the writing of the card begins. -/
theorem startFormat_served {x : Identity} {v : Nat} (hstate : u.card.state = .mounting) (hx : u.card.identity = some x)
    (h4 : 4 ≤ x.capacity / 2048) (hb : u.card.bus = none) :
    (service (startFormat v u)).card = (startFormat v u).card ∧ (service (startFormat v u)).table = (startFormat v u).table := by
  have hw := startFormat_writes v hx h4 hb
  have hst : (startFormat v u).card.state = .mounting := by
    rw [hw]
    exact hstate
  have hstill : Still (startFormat v u) := by
    refine ⟨by rw [hst]; rfl, .inl ?_⟩
    rw [hw]
    rfl
  rw [service_eq (by rw [hst]; nofun)]
  exact hstill.serveBlocks

end

end Sys2Proof.ShotTable
end

section
/-! Shot table: CARD_EJECT and CARD_FORMAT by the card state (R157 to R159). -/

namespace Sys2Proof.ShotTable
open Sys2Proof.Machine

section
variable {s t u : State} {tag : Nat}

/-! ### The end of the work, the card written in the same event -/

theorem workEndedForFormat_congr (hv : u.table = s.table) (h : WorkEndedForFormat u t) : WorkEndedForFormat s t := by
  unfold WorkEndedForFormat at *
  rw [residents_congr hv, hv] at h
  exact h

/-- The card where the work has ended and its writing has begun (R159). -/
theorem endForFormat_writes {x : Identity} {v : Nat} (hd : NumbersDistinct s) (hstate : s.card.state = .mounting)
    (hx : s.card.identity = some x) (h4 : 4 ≤ x.capacity / 2048) :
    WorkEndedForFormat s (service (endForFormat v s)) ∧ (service (endForFormat v s)).card.formatWait = none ∧
    (service (endForFormat v s)).card.state = .mounting ∧
    (service (endForFormat v s)).card.formatTag = s.card.formatTag ∧
    GoesOn s (service (endForFormat v s)) (.format 0 v (x.capacity / 2048 - 3)) (.write 2048 2048 .emptyEntries) := by
  rw [endForFormat_eq]
  have hcard := workEnded_card s
  have htime := workEnded_timeBase s
  have hended := fun t => workEndedForFormat_of (t := t) hd
  have hstate' : (workEnded s).card.state = .mounting := by
    rw [hcard]
    exact hstate
  have hx' : (workEnded s).card.identity = some x := by
    rw [hcard]
    exact hx
  have hbus : (workEnded s).card.bus = none := by rw [hcard]
  generalize workEnded s = e at *
  obtain ⟨hc, ht⟩ := startFormat_served (v := v) hstate' hx' h4 hbus
  have hw := startFormat_writes v hx' h4 hbus
  have hq : Continues e (startFormat v e) := continues_of_link (by rw [hw])
  have hqs : Continues e (service (startFormat v e)) := continues_trans hq (continues_service _)
  generalize service (startFormat v e) = w at *
  rw [hw] at hc ht
  dsimp only at ht
  have hfields : w.card.indexHeld = false ∧ w.card.index = [] ∧ w.card.damaged = [] ∧ w.card.map = [] ∧ w.card.reads = [] ∧
      w.card.entries = [] := by
    rw [hc, hcard]
    exact ⟨rfl, rfl, rfl, rfl, rfl, rfl⟩
  refine ⟨hended w hfields ht hqs, ?_, ?_, ?_, ?_, ?_⟩
  · rw [hc, hcard]
  · rw [hc]
    exact hstate'
  · rw [hc, hcard]
  · rw [hc]
  · rw [hc, htime]

/-- The card of fewer than 4 clusters where the work has ended (R159). -/
theorem endForFormat_refuses {x : Identity} {v : Nat} (hd : NumbersDistinct s)
    (hx : s.card.identity = some x) (h4 : x.capacity / 2048 < 4) :
    WorkEndedForFormat s (service (endForFormat v s)) ∧ (service (endForFormat v s)).card.state = .unformatted ∧
    (service (endForFormat v s)).card.formatTag = none ∧
    ∀ tag, s.card.formatTag = some tag → Answered (service (endForFormat v s)) tag .cardError .empty := by
  rw [endForFormat_eq]
  have hcard := workEnded_card s
  have hended := fun t => workEndedForFormat_of (t := t) hd
  have hx' : (workEnded s).card.identity = some x := by
    rw [hcard]
    exact hx
  have htag : (workEnded s).card.formatTag = s.card.formatTag := by rw [hcard]
  generalize workEnded s = e at *
  obtain ⟨hc, ht, hq, hans⟩ := startFormat_refuses v hx' h4
  have hstate : (startFormat v e).card.state = .unformatted := by rw [hc]
  have hstill : Still (startFormat v e) := by
    refine ⟨by rw [hstate]; rfl, .inr ⟨?_, fun hej => absurd (hstate.symm.trans hej) nofun⟩⟩
    rw [hc, hcard]
  obtain ⟨hcs, hts⟩ := hstill.serveBlocks
  have hserve := service_eq (s := startFormat v e) (by rw [hstate]; nofun)
  have hqs : Continues e (service (startFormat v e)) := continues_trans hq (continues_service _)
  have hanswered : ∀ tag, e.card.formatTag = some tag → Answered (service (startFormat v e)) tag .cardError .empty :=
    fun tag h => answered_service (hans tag h)
  rw [← hserve] at hcs hts
  generalize service (startFormat v e) = w at *
  rw [hc] at hcs
  rw [ht] at hts
  have hfields : w.card.indexHeld = false ∧ w.card.index = [] ∧ w.card.damaged = [] ∧ w.card.map = [] ∧ w.card.reads = [] ∧
      w.card.entries = [] := by
    rw [hcs, hcard]
    exact ⟨rfl, rfl, rfl, rfl, rfl, rfl⟩
  refine ⟨hended w hfields hts hqs, by rw [hcs], by rw [hcs], fun tag h => hanswered tag (htag.trans h)⟩

/-! ### A command still on the bus -/

/-- What an accepted format has taken where the command on the bus is still to be answered (R150, R159). -/
theorem clearedForFormat_of {v : State} (hd : NumbersDistinct v) (hc : t.card = (clearForFormat v).card)
    (ht : t.table = (clearForFormat v).table) (hq : Continues (clearForFormat v) t) : ClearedForFormat v t := by
  have hslots : t.table.slots = v.table.slots.map (clearedSlot v) := by
    rw [ht]
    exact clearForFormat_slots hd
  have hans := fun n ws w => clearForFormat_answered hd (n := n) (ws := ws) (w := w)
  obtain ⟨hcard, _, hwork, hcommand⟩ := clearForFormat_card v
  rw [← hc] at hcard hwork hcommand
  generalize clearForFormat v = e at *
  refine ⟨by rw [hcard], by rw [hcard], by rw [hcard], by rw [hcard], by rw [hcard], hcommand, fun hf => ?_,
    fun n ws w hm hl hw => ?_, fun n ws hm => ?_, fun n ws slot hm hl => ?_, fun r hr hl => ?_, fun y hy => ?_⟩
  · rcases hwork with ⟨hw, hb⟩ | ⟨hfetch, _⟩
    · exact ⟨hb, hw⟩
    · cases hs : v.card.work with
      | none =>
        rw [hs] at hfetch
        cases hfetch
      | some w =>
        rw [hs] at hfetch
        cases w with
        | fetch n p runs d => exact absurd hs (hf n p runs d)
        | _ => cases hfetch
  · refine hq.subset (hans n ws w hm ?_ hw)
    unfold loadWaits
    rw [bne_iff_ne]
    intro hin
    unfold loadInFlight at hin
    split at hin
    · next m slot hw' =>
      cases hin
      exact hl slot hw'
    · cases hin
  · rw [hslots, List.mem_map] at hm
    obtain ⟨x, hx, he⟩ := hm
    obtain ⟨rfl, hin⟩ := clearedSlot_loading_iff.1 he
    refine ⟨hx, ?_⟩
    unfold loadWaits at hin
    rw [bne_eq_false_iff_eq] at hin
    unfold loadInFlight at hin
    split at hin
    · next m slot hw' =>
      cases hin
      exact ⟨slot, hw'⟩
    · cases hin
  · have hin : loadWaits v n = false := by
      unfold loadWaits loadInFlight
      rw [hl]
      simp
    rw [hslots]
    exact List.mem_map.2 ⟨_, hm, clearedSlot_loading_iff.2 ⟨rfl, hin⟩⟩
  · refine ⟨_, (mem_residents_map hslots).2 ⟨_, mem_slots_of_resident hr, clearedSlot_inUse (by rw [hl]; nofun)⟩,
      formatRecord_number v r, (formatRecord_life v r).trans hl, fun hin => ?_, fun hout => ?_⟩
    · have hraw : rawInFlight v = some r.number := by
        unfold rawInFlight
        rcases hin with ⟨d, hw⟩ | ⟨slot, hw⟩ <;> rw [hw]
      have hno : formatGoes v r = false := by
        unfold formatGoes
        rw [hraw]
        simp
      unfold formatRecord
      rw [hno, if_neg Bool.false_ne_true]
      exact ⟨rfl, rfl, rfl⟩
    · refine backToUnwritten_formatRecord hl ?_
      have hraw : (rawInFlight v != some r.number) = true := by
        rw [bne_iff_ne]
        intro hin
        unfold rawInFlight at hin
        split at hin
        · next m d hw =>
          cases hin
          exact hout (.inl ⟨d, hw⟩)
        · next m slot hw =>
          cases hin
          exact hout (.inr ⟨slot, hw⟩)
        · cases hin
      unfold formatGoes
      rw [hraw, Bool.and_true]
  · obtain ⟨x, _, hx⟩ := (mem_residents_map hslots).1 hy
    exact (clearedSlot_resident hx).1

/-- The format waits for the command on the bus (R159). -/
theorem awaitBus_clears {v : Nat} (hstate : s.card.state = .mounting) (hb : s.card.bus.isSome = true) :
    (service (awaitBus v s)).card.state = .mounting ∧ (service (awaitBus v s)).card.formatTag = s.card.formatTag ∧
    (service (awaitBus v s)).card.formatWait = some v ∧ (service (awaitBus v s)).card.identity = s.card.identity ∧
    (NumbersDistinct s → ClearedForFormat s (service (awaitBus v s))) := by
  have hwaits : awaitBus v s = clearForFormat { s with card := { s.card with formatWait := some v } } := by
    unfold awaitBus
    rw [if_neg]
    rw [Option.isNone_iff_eq_none]
    intro hn
    rw [hn] at hb
    cases hb
  rw [hwaits]
  have hof := fun (t : State) => clearedForFormat_of (t := t) (v := { s with card := { s.card with formatWait := some v } })
  obtain ⟨hcard, _, _, hcommand⟩ := clearForFormat_card { s with card := { s.card with formatWait := some v } }
  have hsame : ∀ t, ClearedForFormat { s with card := { s.card with formatWait := some v } } t → ClearedForFormat s t :=
    fun _ h => h
  generalize clearForFormat { s with card := { s.card with formatWait := some v } } = e at *
  have hst : e.card.state = .mounting := by
    rw [hcard]
    exact hstate
  have hbus : e.card.bus.isSome = true := by
    rw [← Option.isSome_map (f := (·.command)), hcommand, Option.isSome_map]
    exact hb
  have hstill : Still e := ⟨by rw [hst]; rfl, .inl hbus⟩
  obtain ⟨hc, ht⟩ := hstill.serveBlocks
  have hserve := service_eq (s := e) (by rw [hst]; nofun)
  have hq := continues_service e
  rw [← hserve] at hc ht
  generalize service e = w at *
  refine ⟨?_, ?_, ?_, ?_, fun hd => hsame w (hof w hd hc ht hq)⟩
  · rw [hc]
    exact hst
  · rw [hc, hcard]
  · rw [hc, hcard]
  · rw [hc, hcard]

/-! ### The requests -/

theorem exec_cardEject (hcan : CanTake tag s) : exec (.cardEject tag) s =
    .next (if s.card.state.readable then acceptEject tag (holdTag tag s) else answerCode tag .noCard (holdTag tag s)) := by
  change Host.Outcome.next (takeRequest tag false _ s) = _
  rw [takeRequest_taken false _ hcan]
  rfl

theorem exec_cardFormat_refused {discard : Nat} {c : ResultCode} (hcan : CanTake tag s)
    (h : formatRefusal s discard = some c) : exec (.cardFormat tag discard) s = .next (answerCode tag c (holdTag tag s)) := by
  have h' : formatRefusal (holdTag tag s) discard = some c := h
  change Host.Outcome.next (takeRequest tag false _ s) = _
  rw [takeRequest_taken false _ hcan, h']

theorem exec_cardFormat_accepted {discard : Nat} (hcan : CanTake tag s) (h : formatRefusal s discard = none) :
    exec (.cardFormat tag discard) s = .next (service (beginFormat tag (holdTag tag s))) := by
  have h' : formatRefusal (holdTag tag s) discard = none := h
  change Host.Outcome.next (takeRequest tag false _ s) = _
  rw [takeRequest_taken false _ hcan, h']

/-- The card MOUNTING for a format. -/
def formatting (tag : Nat) (s : State) : State :=
  setCardState .mounting { holdTag tag s with card := { (holdTag tag s).card with formatTag := some tag } }

theorem formatting_card (tag : Nat) (s : State) : (formatting tag s).card = { s.card with
    state := .mounting, formatTag := some tag } := rfl

theorem formatting_keeps (tag : Nat) (s : State) : (formatting tag s).table = s.table ∧
    (formatting tag s).timeBase = s.timeBase := ⟨rfl, rfl⟩

theorem beginFormat_ready (h : s.card.state = .ready) :
    beginFormat tag (holdTag tag s) = awaitBus (s.timeBase.toNat % 2 ^ 32) (formatting tag s) := by
  have h' : (holdTag tag s).card.state = .ready := h
  unfold beginFormat
  dsimp only
  rw [if_pos h']
  rfl

theorem beginFormat_unformatted (h : s.card.state = .unformatted) :
    beginFormat tag (holdTag tag s) = startFormat (s.timeBase.toNat % 2 ^ 32) (formatting tag s) := by
  have h' : ¬ (holdTag tag s).card.state = .ready := by
    change ¬ s.card.state = .ready
    rw [h]
    nofun
  unfold beginFormat
  dsimp only
  rw [if_neg h']
  rfl

end

end Sys2Proof.ShotTable
end

section
/-! Shot table: what CARD_EJECT and CARD_FORMAT do in each card state (R157 to R159). -/

namespace Sys2Proof.ShotTable
open Sys2Proof.Machine

section
variable {s : State} {tag discard : Nat}

/-! ### CARD_EJECT -/

theorem cardEject_refused (hcan : CanTake tag s) (h1 : s.card.state ≠ .ready) (h2 : s.card.state ≠ .readOnly) :
    exec (.cardEject tag) s = .next (answerCode tag .noCard (holdTag tag s)) := by
  have hread : s.card.state.readable = false := by
    cases h : s.card.state with
    | ready => exact absurd h h1
    | readOnly => exact absurd h h2
    | _ => rfl
  rw [exec_cardEject hcan, hread]
  rfl

theorem cardEject_accepted (hcan : CanTake tag s) (h : s.card.state = .ready ∨ s.card.state = .readOnly) :
    exec (.cardEject tag) s = .next (acceptEject tag (holdTag tag s)) := by
  have hread : s.card.state.readable = true := by
    rcases h with h | h <;> rw [h] <;> rfl
  rw [exec_cardEject hcan, hread]
  rfl

theorem drainEnded_holdTag {e : Option Nat} {t : State} (h : DrainEnded e (holdTag tag s) t) : DrainEnded e s t := by
  have hon : HandsOn s (holdTag tag s) := handsOn_of_same rfl rfl rfl rfl
  exact drainEnded_of_handsOn h hon

/-! ### The refusals of CARD_FORMAT -/

theorem formatRefusal_bad (h : 1 < discard) : formatRefusal s discard = some .badOperand := if_pos h

/-- The refusal of a format whose discard flag is in range. -/
theorem formatRefusal_eq (h : discard ≤ 1) : formatRefusal s discard = match s.card.state with
    | .unformatted => if writeProtected s then some .cardReadOnly else none
    | .ready =>
      if discard = 0 then some .badOperand
      else if (retiringShots s).isEmpty = false then some .busy
      else if protectedOnCard s then some .protectedShot
      else none
    | .readOnly => some .cardReadOnly
    | .mounting => some .busy
    | .ejecting => some .busy
    | _ => some .noCard := if_neg (Nat.not_lt.2 h)

theorem formatRefusal_unformatted (h : discard ≤ 1) (hs : s.card.state = .unformatted) {x : Identity}
    (hx : s.card.identity = some x) : formatRefusal s discard = if x.writeProtected then some .cardReadOnly else none := by
  rw [formatRefusal_eq h, hs]
  dsimp only
  unfold writeProtected
  rw [hx]

theorem retiringShots_isEmpty_iff (s : State) : (retiringShots s).isEmpty = true ↔ ∀ r ∈ residents s, r.life ≠ .retiring := by
  rw [List.isEmpty_iff, List.eq_nil_iff_forall_not_mem]
  constructor
  · exact fun h r hr hl => h r.number (mem_shotsWhere.2 ⟨r, hr, by rw [hl]; rfl, rfl⟩)
  · intro h n hn
    obtain ⟨r, hr, hl, _⟩ := mem_shotsWhere.1 hn
    exact h r hr (beq_iff_eq.1 hl)

theorem formatRefusal_ready (hs : s.card.state = .ready) : formatRefusal s 0 = some .badOperand ∧
    ((∃ r ∈ residents s, r.life = .retiring) → formatRefusal s 1 = some .busy) ∧
    ((∀ r ∈ residents s, r.life ≠ .retiring) →
      formatRefusal s 1 = if protectedOnCard s then some .protectedShot else none) := by
  refine ⟨?_, fun hex => ?_, fun hno => ?_⟩
  · rw [formatRefusal_eq (Nat.zero_le 1), hs]
    rfl
  · obtain ⟨r, hr, hl⟩ := hex
    have hsome : (retiringShots s).isEmpty = false := by
      rw [Bool.eq_false_iff]
      exact fun he => (retiringShots_isEmpty_iff s).1 he r hr hl
    rw [formatRefusal_eq (Nat.le_refl 1), hs]
    dsimp only
    rw [if_neg Nat.one_ne_zero, if_pos hsome]
  · have hnone := (retiringShots_isEmpty_iff s).2 hno
    rw [formatRefusal_eq (Nat.le_refl 1), hs]
    dsimp only
    rw [if_neg Nat.one_ne_zero, hnone, if_neg Bool.noConfusion]

/-- The card holds a protected shot (R158). -/
theorem protectedOnCard_iff (s : State) : protectedOnCard s = true ↔
    (∃ x ∈ s.card.index, x.protect = true ∧ ∀ r, findRecord s x.shot = some r → r.rawCard ≠ .onCard) ∨
    ∃ r ∈ residents s, r.protect = true ∧ (r.rawCard = .cataloguing ∨ r.rawCard = .onCard) := by
  unfold protectedOnCard
  rw [Bool.or_eq_true, List.any_eq_true, List.any_eq_true]
  refine or_congr (exists_congr fun x => and_congr_right fun _ => ?_) (exists_congr fun r => and_congr_right fun _ => ?_)
  · rw [Bool.and_eq_true, Bool.not_eq_true', Bool.eq_false_iff]
    cases hf : findRecord s x.shot with
    | none => simp
    | some r => simp
  · rw [Bool.and_eq_true, Bool.or_eq_true, beq_iff_eq, beq_iff_eq]

theorem protectedOnCard_of (h : (∃ r ∈ residents s, r.protect = true ∧ (r.rawCard = .cataloguing ∨ r.rawCard = .onCard)) ∨
    ∃ x ∈ s.card.index, x.protect = true ∧ ∀ r ∈ residents s, r.number ≠ x.shot) : protectedOnCard s = true := by
  rw [protectedOnCard_iff]
  rcases h with hr | ⟨x, hx, hp, hno⟩
  · exact .inr hr
  · refine .inl ⟨x, hx, hp, fun r hr => ?_⟩
    obtain ⟨hm, hn⟩ := findRecord_mem hr
    exact absurd hn (hno r hm)

theorem not_protectedOnCard (hr : ∀ r ∈ residents s, (r.rawCard = .cataloguing ∨ r.rawCard = .onCard) → r.protect = false)
    (hx : ∀ e ∈ s.card.index, e.protect = true → ∃ r, findRecord s e.shot = some r ∧ r.rawCard = .onCard) :
    protectedOnCard s = false := by
  rw [Bool.eq_false_iff]
  intro h
  rcases (protectedOnCard_iff s).1 h with ⟨x, hm, hp, hno⟩ | ⟨r, hm, hp, hc⟩
  · obtain ⟨r, hf, hc⟩ := hx x hm hp
    exact hno r hf hc
  · rw [hr r hm hc] at hp
    cases hp

/-! ### A format accepted -/

/-- The format of an UNFORMATTED card (R159). -/
theorem unformatted_served {x : Identity} (hs : s.card.state = .unformatted) (hx : s.card.identity = some x) :
    (4 ≤ x.capacity / 2048 → s.card.bus = none →
      (service (beginFormat tag (holdTag tag s))).card.state = .mounting ∧
      (service (beginFormat tag (holdTag tag s))).card.formatTag = some tag ∧
      GoesOn s (service (beginFormat tag (holdTag tag s))) (.format 0 (s.timeBase.toNat % 2 ^ 32) (x.capacity / 2048 - 3))
        (.write 2048 2048 .emptyEntries)) ∧
    (x.capacity / 2048 < 4 → (service (beginFormat tag (holdTag tag s))).card.state = .unformatted ∧
      (service (beginFormat tag (holdTag tag s))).card.formatTag = none ∧
      Answered (service (beginFormat tag (holdTag tag s))) tag .cardError .empty) := by
  rw [beginFormat_unformatted hs]
  have hcard := formatting_card tag s
  have htime := (formatting_keeps tag s).2
  generalize formatting tag s = u at *
  have hx' : u.card.identity = some x := by
    rw [hcard]
    exact hx
  refine ⟨fun h4 hb => ?_, fun h4 => ?_⟩
  · have hb' : u.card.bus = none := by
      rw [hcard]
      exact hb
    obtain ⟨hc, _⟩ := startFormat_served (v := s.timeBase.toNat % 2 ^ 32) (by rw [hcard]) hx' h4 hb'
    rw [startFormat_writes _ hx' h4 hb'] at hc
    rw [startFormat_writes _ hx' h4 hb']
    unfold GoesOn
    rw [hc, hcard, htime]
    exact ⟨rfl, rfl, rfl, rfl⟩
  · obtain ⟨hc, _, _, hans⟩ := startFormat_refuses (s.timeBase.toNat % 2 ^ 32) hx' h4
    have hanswered := hans tag (by rw [hcard])
    generalize startFormat (s.timeBase.toNat % 2 ^ 32) u = w at *
    have hstate : w.card.state = .unformatted := by rw [hc]
    have hkept : CardKept w (serveBlocks w) := cardKept_serveBlocks w
    unfold CardKept at hkept
    refine ⟨?_, ?_, answered_service hanswered⟩
    · rw [service_eq (by rw [hstate]; nofun), hkept]
      exact hstate
    · rw [service_eq (by rw [hstate]; nofun), hkept]
      exact congrArg (·.formatTag) hc

/-- The format of a READY card with a command on the bus (R159). -/
theorem ready_waits (hs : s.card.state = .ready) (hb : s.card.bus.isSome = true) :
    (service (beginFormat tag (holdTag tag s))).card.state = .mounting ∧
    (service (beginFormat tag (holdTag tag s))).card.formatTag = some tag ∧
    (service (beginFormat tag (holdTag tag s))).card.formatWait = some (s.timeBase.toNat % 2 ^ 32) ∧
    (service (beginFormat tag (holdTag tag s))).card.identity = s.card.identity ∧
    (NumbersDistinct s → ClearedForFormat s (service (beginFormat tag (holdTag tag s)))) := by
  rw [beginFormat_ready hs]
  have hcleared : ∀ t, ClearedForFormat (formatting tag s) t → ClearedForFormat s t := fun _ h => h
  have hdistinct : NumbersDistinct s → NumbersDistinct (formatting tag s) := fun h => h
  have hcard := formatting_card tag s
  generalize formatting tag s = u at *
  obtain ⟨h1, h2, h3, h4, h5⟩ := awaitBus_clears (s := u) (v := s.timeBase.toNat % 2 ^ 32) (by rw [hcard])
    (by rw [hcard]; exact hb)
  rw [hcard] at h2 h4
  exact ⟨h1, h2, h3, h4, fun hd => hcleared _ (h5 (hdistinct hd))⟩

/-- The format of a READY card with nothing on the bus (R159). -/
theorem ready_ends {x : Identity} (hs : s.card.state = .ready) (hb : s.card.bus = none) (hx : s.card.identity = some x)
    (hd : NumbersDistinct s) : WorkEndedForFormat s (service (beginFormat tag (holdTag tag s))) ∧
    (4 ≤ x.capacity / 2048 → (service (beginFormat tag (holdTag tag s))).card.state = .mounting ∧
      (service (beginFormat tag (holdTag tag s))).card.formatTag = some tag ∧
      GoesOn s (service (beginFormat tag (holdTag tag s))) (.format 0 (s.timeBase.toNat % 2 ^ 32) (x.capacity / 2048 - 3))
        (.write 2048 2048 .emptyEntries)) ∧
    (x.capacity / 2048 < 4 → (service (beginFormat tag (holdTag tag s))).card.state = .unformatted ∧
      (service (beginFormat tag (holdTag tag s))).card.formatTag = none ∧
      Answered (service (beginFormat tag (holdTag tag s))) tag .cardError .empty) := by
  rw [beginFormat_ready hs]
  have hcard := formatting_card tag s
  obtain ⟨htable, htime⟩ := formatting_keeps tag s
  generalize formatting tag s = u at *
  have hbus : u.card.bus = none := by
    rw [hcard]
    exact hb
  have hnow : awaitBus (s.timeBase.toNat % 2 ^ 32) u = endForFormat (s.timeBase.toNat % 2 ^ 32) u := by
    unfold awaitBus
    rw [hbus]
    rfl
  have hdu : NumbersDistinct u := numbersDistinct_congr htable hd
  have hxu : u.card.identity = some x := by
    rw [hcard]
    exact hx
  have htag : u.card.formatTag = some tag := by rw [hcard]
  rw [hnow]
  rcases Nat.lt_or_ge (x.capacity / 2048) 4 with h4 | h4
  · obtain ⟨hend, hstate, hform, hans⟩ := endForFormat_refuses (v := s.timeBase.toNat % 2 ^ 32) hdu hxu h4
    exact ⟨workEndedForFormat_congr htable hend, fun h => absurd h (by omega), fun _ => ⟨hstate, hform, hans tag htag⟩⟩
  · obtain ⟨hend, _, hstate, hform, hgoes⟩ := endForFormat_writes (v := s.timeBase.toNat % 2 ^ 32) hdu (by rw [hcard]) hxu h4
    refine ⟨workEndedForFormat_congr htable hend, fun _ => ⟨hstate, hform.trans htag, ?_⟩, fun h => absurd h (by omega)⟩
    unfold GoesOn at *
    rw [htime] at hgoes
    exact hgoes

/-! ### The answer that a format has waited for -/

/-- Whatever work its command belongs to, the answer ends it for the format (R159). -/
theorem waitedAnswer_ends {c : Instr} {b : Bus} {v : Nat} (hb : s.card.bus = some b) (ho : b.orphan = false)
    (hw : s.card.formatWait = some v)
    (hc : c = .cardCommandError ∨ (∃ block, c = .loadReadDone block) ∨ (∃ n values, c = .fetchReadDone n values) ∨
      c = .rawWriteClusterDone ∨ c = .entryWriteDone ∨ c = .developedWriteClusterDone ∨ c = .developedEntryWriteDone ∨
      c = .emptyWriteDone ∨ c = .dirtyRewriteDone) : exec c s = .next (service (endForFormat v s)) := by
  have hstop : stopAtAnswer s = some (endForFormat v s) := by
    unfold stopAtAnswer
    rw [hw]
  have hok : ∀ goOn : State → State, answeredOk goOn s = service (endForFormat v s) := by
    intro goOn
    unfold answeredOk
    rw [hb]
    dsimp only
    rw [ho, if_neg Bool.false_ne_true, hstop]
  have herror : answeredError s = service (endForFormat v s) := by
    unfold answeredError
    rw [hb]
    dsimp only
    rw [ho, if_neg Bool.false_ne_true, hstop]
  rcases hc with rfl | ⟨block, rfl⟩ | ⟨n, values, rfl⟩ | rfl | rfl | rfl | rfl | rfl | rfl
  · exact congrArg Host.Outcome.next herror
  all_goals exact congrArg Host.Outcome.next (hok _)

end

end Sys2Proof.ShotTable
end

section
/-! Shot table: the answer that ends the last work of a drain (R157). -/

namespace Sys2Proof.ShotTable
open Sys2Proof.Machine

section
variable {s t u : State} {n : Nat}

/-! ### What the end of a work changes -/

/-- What the end of a work leaves as it is, where the work is the last of a drain. -/
structure DrainStep (s u : State) : Prop where
  card : u.card = { s.card with
    index := u.card.index, damaged := u.card.damaged, map := u.card.map, handoffs := u.card.handoffs,
    full := u.card.full, marks := u.card.marks }
  amended : u.table.amended ⊆ s.table.amended
  distinct : NumbersDistinct u
  hands : HandsOn s u

theorem DrainStep.trans (h : DrainStep s t) (h' : DrainStep t u) : DrainStep s u :=
  ⟨by rw [h'.card, h.card], fun _ ha => h.amended (h'.amended ha), h'.distinct, h.hands.trans h'.hands⟩

/-- A change of the slots that keeps the records on the card, with the rest of what a drain speaks of. -/
theorem drainStep_of_map {f : RecordSlot → RecordSlot} (hd : NumbersDistinct s) (hf : KeepsNumbers f)
    (hslots : u.table.slots = s.table.slots.map f) (hamended : u.table.amended ⊆ s.table.amended)
    (hcard : u.card = { s.card with
      index := u.card.index, damaged := u.card.damaged, map := u.card.map, handoffs := u.card.handoffs,
      full := u.card.full, marks := u.card.marks })
    (hnotices : u.notices = s.notices) (hqueue : u.dev.queue = s.dev.queue)
    (hheld : ∀ r ∈ residents s, r.life = .held → r.rawCard = .onCard →
      ∃ y, f (.inUse r) = .inUse y ∧ y.number = r.number ∧ y.life = .held ∧ y.rawCard = .onCard ∧ y.rawPlane = r.rawPlane)
    (hsettled : ∀ r ∈ residents s, r.life = .settled →
      ∃ y, f (.inUse r) = .inUse y ∧ y.number = r.number ∧ y.life = .settled) : DrainStep s u := by
  refine ⟨hcard, hamended, numbersDistinct_map hf hslots hd, ⟨by rw [hcard], by rw [hnotices], fun r hr hl hc => ?_,
    fun r hr hl => ?_, fun j hj => ⟨j, by rw [hqueue]; exact hj, rfl, rfl⟩⟩⟩
  · obtain ⟨y, hy, hrest⟩ := hheld r hr hl hc
    exact ⟨y, (mem_residents_map hslots).2 ⟨_, mem_slots_of_resident hr, hy⟩, hrest⟩
  · obtain ⟨y, hy, hrest⟩ := hsettled r hr hl
    exact ⟨y, (mem_residents_map hslots).2 ⟨_, mem_slots_of_resident hr, hy⟩, hrest⟩

theorem drainStep_of_slots (hd : NumbersDistinct s) (hslots : u.table.slots = s.table.slots)
    (hamended : u.table.amended ⊆ s.table.amended)
    (hcard : u.card = { s.card with
      index := u.card.index, damaged := u.card.damaged, map := u.card.map, handoffs := u.card.handoffs,
      full := u.card.full, marks := u.card.marks })
    (hnotices : u.notices = s.notices) (hqueue : u.dev.queue = s.dev.queue) : DrainStep s u :=
  drainStep_of_map (f := id) hd (fun _ => .inr rfl) (by rw [hslots, List.map_id]) hamended hcard hnotices hqueue
    (fun r _ hl hc => ⟨r, rfl, rfl, hl, hc, rfl⟩) fun r _ hl => ⟨r, rfl, rfl, hl⟩

theorem keepsNumbers_mapRecord {f : Record → Record} (n : Nat) (h : ∀ r, (f r).number = r.number) :
    KeepsNumbers (RecordSlot.mapRecord n f) := by
  intro x
  cases x with
  | inUse r =>
    simp only [RecordSlot.mapRecord]
    split
    · exact .inr (congrArg some (h r))
    · exact .inr rfl
  | _ => exact .inr rfl

theorem mapRecord_other {f : Record → Record} {r : Record} (h : r.number ≠ n) :
    RecordSlot.mapRecord n f (.inUse r) = .inUse r := by simp [RecordSlot.mapRecord, h]

/-- A change of one record that keeps what the drain reads of it. -/
theorem drainStep_updateRecord {f : Record → Record} (hd : NumbersDistinct s)
    (hf : ∀ r, (f r).number = r.number ∧ (f r).life = r.life ∧ (f r).rawCard = r.rawCard ∧ (f r).rawPlane = r.rawPlane) :
    DrainStep s (updateRecord n f s) := by
  have hmap : ∀ r, ∃ y, RecordSlot.mapRecord n f (.inUse r) = .inUse y ∧ y.number = r.number ∧ y.life = r.life ∧
      y.rawCard = r.rawCard ∧ y.rawPlane = r.rawPlane := by
    intro r
    simp only [RecordSlot.mapRecord]
    split
    · exact ⟨_, rfl, hf r⟩
    · exact ⟨r, rfl, rfl, rfl, rfl, rfl⟩
  refine drainStep_of_map hd (keepsNumbers_mapRecord n fun r => (hf r).1) rfl (List.Subset.refl _) rfl rfl rfl
    (fun r _ hl hc => ?_) fun r _ hl => ?_
  · obtain ⟨y, hy, hn, hyl, hyc, hyp⟩ := hmap r
    exact ⟨y, hy, hn, hyl.trans hl, hyc.trans hc, hyp⟩
  · obtain ⟨y, hy, hn, hyl, _⟩ := hmap r
    exact ⟨y, hy, hn, hyl.trans hl⟩

theorem drainStep_returnRuns (rs : List Run) (hd : NumbersDistinct s) : DrainStep s (returnRuns rs s) :=
  drainStep_of_slots hd rfl (List.Subset.refl _) rfl rfl rfl

theorem drainStep_copyProtect (n : Nat) (hd : NumbersDistinct s) : DrainStep s (copyProtect n s) := by
  unfold copyProtect
  split <;> exact drainStep_of_slots hd rfl (List.Subset.refl _) rfl rfl rfl

theorem drainStep_leaveAmended (n : Nat) (hd : NumbersDistinct s) : DrainStep s (leaveAmended n s) :=
  drainStep_of_slots hd rfl (List.filter_subset_self _) rfl rfl rfl

theorem drainStep_resolveTaken (n : Nat) (hd : NumbersDistinct s) : DrainStep s (resolveTaken n s) := by
  unfold resolveTaken
  split
  · have hclean : DrainStep s (updateRecord n (fun r => { r with dirty := false }) s) :=
      drainStep_updateRecord hd fun r => ⟨rfl, rfl, rfl, rfl⟩
    exact hclean.trans (drainStep_leaveAmended n hclean.distinct)
  · exact drainStep_of_slots hd rfl (List.Subset.refl _) rfl rfl rfl

theorem drainStep_finishHandoff (h : Handoff) (hd : NumbersDistinct s) : DrainStep s (finishHandoff h s) := by
  unfold finishHandoff
  split <;> exact drainStep_of_slots hd rfl (List.Subset.refl _) rfl rfl rfl

/-! ### The works that end -/

theorem drainStep_developedWritten (h : Handoff) (runs : List Run) (hd : NumbersDistinct s) :
    DrainStep s (developedWritten h runs s) := by
  have hfile : DrainStep s (updateRecord h.shot (fun r => { r with devFile := some (h.file runs), devPending := none }) s) :=
    drainStep_updateRecord hd fun r => ⟨rfl, rfl, rfl, rfl⟩
  unfold developedWritten
  dsimp only
  generalize updateRecord h.shot (fun r => { r with devFile := some (h.file runs), devPending := none }) s = a at hfile
  generalize ((findRecord s h.shot).bind (·.devFile)).map (·.runs) = old
  generalize isRetiring s h.shot = gone
  have hruns : DrainStep a ((old.map returnRuns).getD id a) := by
    cases old with
    | none => exact drainStep_of_slots hfile.distinct rfl (List.Subset.refl _) rfl rfl rfl
    | some rs => exact drainStep_returnRuns rs hfile.distinct
  generalize (old.map returnRuns).getD id a = b at hruns
  have hprotect := drainStep_copyProtect h.shot hruns.distinct
  generalize copyProtect h.shot b = c at hprotect
  have hresolve := drainStep_resolveTaken h.shot hprotect.distinct
  generalize resolveTaken h.shot c = d at hresolve
  have hall := hfile.trans (hruns.trans (hprotect.trans hresolve))
  split
  · exact hall
  · exact hall.trans (drainStep_finishHandoff h hresolve.distinct)

theorem drainStep_removeRecord (hd : NumbersDistinct s) (hn : ∀ r ∈ residents s, r.number = n → r.life = .retiring) :
    DrainStep s (removeRecord n s) := by
  have hkeep : ∀ r ∈ residents s, r.life ≠ .retiring →
      RecordSlot.clearIf (fun r => r.number == n) (.inUse r) = .inUse r := by
    intro r hr hl
    have hne : r.number ≠ n := fun e => hl (hn r hr e)
    simp [RecordSlot.clearIf, hne]
  have hsame : (removeRecord n s).card = s.card ∧ (removeRecord n s).notices = s.notices ∧ (removeRecord n s).dev = s.dev := by
    simp
  obtain ⟨hcard, hnotices, hdev⟩ := hsame
  have hamended : (removeRecord n s).table.amended ⊆ s.table.amended := by
    unfold removeRecord
    split
    · exact List.Subset.refl _
    · exact List.filter_subset_self _
  refine drainStep_of_map hd (keepsNumbers_clearIf _) (removeRecord_slots hd n) hamended (by rw [hcard]) hnotices
    (by rw [hdev]) (fun r hr hl hc => ⟨r, hkeep r hr (by rw [hl]; nofun), rfl, hl, hc, rfl⟩)
    fun r hr hl => ⟨r, hkeep r hr (by rw [hl]; nofun), rfl, hl⟩

theorem drainStep_answerWaiting (q : Option Nat) (c : ResultCode) (hd : NumbersDistinct s) :
    DrainStep s (answerWaiting q c s) := by
  cases q <;> exact drainStep_of_slots hd rfl (List.Subset.refl _) rfl rfl rfl

theorem drainStep_endRetirement (c : ResultCode) (hd : NumbersDistinct s)
    (hn : ∀ r ∈ residents s, r.number = n → r.life = .retiring) : DrainStep s (endRetirement c s n) := by
  have hremove := drainStep_removeRecord hd hn
  exact hremove.trans (drainStep_answerWaiting _ c hremove.distinct)

theorem drainStep_emptied (n : Nat) (hd : NumbersDistinct s) : DrainStep s (emptied n s) := by
  unfold emptied
  split
  · exact drainStep_of_slots hd rfl (List.Subset.refl _) rfl rfl rfl
  · next r hr =>
    obtain ⟨hmem, hnum⟩ := findRecord_mem hr
    split
    · next hl =>
      dsimp only
      have hruns := drainStep_returnRuns (r.rawRuns ++ (r.devFile.map (·.runs)).getD []) hd
      have hres : residents (returnRuns (r.rawRuns ++ (r.devFile.map (·.runs)).getD []) s) = residents s := rfl
      generalize returnRuns (r.rawRuns ++ (r.devFile.map (·.runs)).getD []) s = a at hruns hres
      have hindex : DrainStep a { a with card := { a.card with index := a.card.index.filter fun x => x.shot != n } } :=
        drainStep_of_slots hruns.distinct rfl (List.Subset.refl _) rfl rfl rfl
      refine hruns.trans (hindex.trans (drainStep_endRetirement .ok hindex.distinct fun q hq hqn => ?_))
      have hq' : q ∈ residents s := hres ▸ hq
      rw [resident_unique hd hq' hmem (hqn.trans hnum.symm)]
      exact hl
    · exact drainStep_of_slots hd rfl (List.Subset.refl _) rfl rfl rfl

/-- One record changed, and of the Card Store the index alone. -/
structure RecordStep (n : Nat) (s u : State) : Prop where
  slots : ∃ f : Record → Record, (∀ r, (f r).number = r.number) ∧
    u.table.slots = s.table.slots.map (RecordSlot.mapRecord n f)
  amended : u.table.amended ⊆ s.table.amended
  card : u.card = { s.card with index := u.card.index }
  notices : u.notices = s.notices
  dev : u.dev = s.dev

theorem mapRecord_comp {f g : Record → Record} (hf : ∀ r, (f r).number = r.number) (x : RecordSlot) :
    RecordSlot.mapRecord n g (RecordSlot.mapRecord n f x) = RecordSlot.mapRecord n (g ∘ f) x := by
  cases x with
  | inUse r =>
    by_cases h : r.number = n
    · simp [RecordSlot.mapRecord, h, hf]
    · simp [RecordSlot.mapRecord, h]
  | _ => rfl

theorem mapRecord_id (l : List RecordSlot) : l.map (RecordSlot.mapRecord n id) = l := by
  refine (List.map_congr_left fun x _ => ?_).trans (List.map_id _)
  cases x <;> simp [RecordSlot.mapRecord]

theorem RecordStep.trans (h : RecordStep n s t) (h' : RecordStep n t u) : RecordStep n s u := by
  obtain ⟨f, hf, hslots⟩ := h.slots
  obtain ⟨g, hg, hslots'⟩ := h'.slots
  refine ⟨⟨g ∘ f, fun r => (hg _).trans (hf r), ?_⟩, fun _ ha => h.amended (h'.amended ha), by rw [h'.card, h.card],
    h'.notices.trans h.notices, h'.dev.trans h.dev⟩
  rw [hslots', hslots, List.map_map]
  exact List.map_congr_left fun x _ => mapRecord_comp hf x

theorem recordStep_refl (n : Nat) (s : State) : RecordStep n s s :=
  ⟨⟨id, fun _ => rfl, (mapRecord_id _).symm⟩, List.Subset.refl _, rfl, rfl, rfl⟩

theorem recordStep_updateRecord {f : Record → Record} (hf : ∀ r, (f r).number = r.number) (s : State) :
    RecordStep n s (updateRecord n f s) :=
  ⟨⟨f, hf, rfl⟩, List.Subset.refl _, rfl, rfl, rfl⟩

theorem recordStep_releasePlane (n : Nat) (q : Option Nat) (s : State) : RecordStep n s (releasePlane q s) := by
  cases q <;> exact ⟨⟨id, fun _ => rfl, (mapRecord_id _).symm⟩, List.Subset.refl _, rfl, rfl, rfl⟩

theorem recordStep_settle (n : Nat) (s : State) : RecordStep n s (settle n s) := by
  unfold settle
  split
  · exact recordStep_refl n s
  · next r _ =>
    split
    · have hstep := recordStep_updateRecord (n := n) (f := fun r => { r with life := .settled, rawPlane := none })
        (fun _ => rfl) (releasePlane r.rawPlane s)
      exact (recordStep_releasePlane n r.rawPlane s).trans hstep
    · exact recordStep_refl n s

theorem recordStep_resolveTaken (n : Nat) (s : State) : RecordStep n s (resolveTaken n s) := by
  unfold resolveTaken
  split
  · exact ⟨⟨fun r => { r with dirty := false }, fun _ => rfl, rfl⟩, List.filter_subset_self _, rfl, rfl, rfl⟩
  · exact recordStep_refl n s

/-- A record ON_CARD with its entry in the index. -/
def entered (n slot : Nat) (r : Record) (s : State) : State :=
  let v := updateRecord n (fun r => { r with rawCard := .onCard }) s
  { v with card := { v.card with index := insertIndex (recordIndex r slot) v.card.index } }

theorem recordStep_entered (n slot : Nat) (r : Record) (s : State) : RecordStep n s (entered n slot r s) :=
  ⟨⟨fun r => { r with rawCard := .onCard }, fun _ => rfl, rfl⟩, List.Subset.refl _, rfl, rfl, rfl⟩

/-- A record that has not been on the card yet, changed: the drain reads nothing of it. -/
theorem RecordStep.drainStep (h : RecordStep n s u) (hd : NumbersDistinct s)
    (hn : ∀ r ∈ residents s, r.number = n → r.life = .held ∧ r.rawCard = .cataloguing) : DrainStep s u := by
  obtain ⟨⟨f, hf, hslots⟩, hamended, hcard, hnotices, hdev⟩ := h
  refine drainStep_of_map hd (keepsNumbers_mapRecord n hf) hslots hamended (by rw [hcard]) hnotices (by rw [hdev])
    (fun r hr hl hc => ⟨r, mapRecord_other fun e => ?_, rfl, hl, hc, rfl⟩)
    fun r hr hl => ⟨r, mapRecord_other fun e => ?_, rfl, hl⟩
  · obtain ⟨_, hway⟩ := hn r hr e
    rw [hc] at hway
    cases hway
  · obtain ⟨hheld, _⟩ := hn r hr e
    rw [hl] at hheld
    cases hheld

theorem drainStep_entryWritten {slot : Nat} (hd : NumbersDistinct s)
    (hheld : ∀ r, findRecord s n = some r → r.life = .held) : DrainStep s (entryWritten n slot s) := by
  unfold entryWritten
  cases hr : findRecord s n with
  | none => exact drainStep_of_slots hd rfl (List.Subset.refl _) rfl rfl rfl
  | some r =>
    obtain ⟨hmem, hnum⟩ := findRecord_mem hr
    have hlife := hheld r hr
    dsimp only
    by_cases hraw : r.rawCard = .cataloguing
    · rw [if_pos hraw, if_neg (by rw [hlife]; nofun)]
      have hstep := (recordStep_entered n slot r s).trans ((recordStep_resolveTaken n _).trans (recordStep_settle n _))
      refine hstep.drainStep hd fun q hq hqn => ?_
      rw [resident_unique hd hq hmem (hqn.trans hnum.symm)]
      exact ⟨hlife, hraw⟩
    · rw [if_neg hraw]
      exact drainStep_of_slots hd rfl (List.Subset.refl _) rfl rfl rfl

theorem drainStep_fetchDone (hd : NumbersDistinct s) : DrainStep s (fetchDone s) :=
  drainStep_of_slots hd rfl (List.Subset.refl _) rfl rfl rfl

end

end Sys2Proof.ShotTable
end

section
/-! Shot table: the answers that may end a drain (R157). -/

namespace Sys2Proof.ShotTable
open Sys2Proof.Machine

section
variable {s u : State} {n slot i : Nat} {ws : List LoadWaiter} {block : List Byte}

/-! ### The answer of a load -/

theorem drainStep_failLoad (c : ResultCode) (n : Nat) (hd : NumbersDistinct s) : DrainStep s (failLoad c s n) := by
  have hkeeps := failLoads_keeps c [n] s
  obtain ⟨hcard, hdev, _, _, hnotices, hamended⟩ := hkeeps
  change (failLoad c s n).card = _ at hcard
  change (failLoad c s n).dev = _ at hdev
  change (failLoad c s n).notices = _ at hnotices
  change (failLoad c s n).table.amended = _ at hamended
  exact drainStep_of_map hd (keepsNumbers_failIn _) (failLoad_slots hd c n) (by rw [hamended]; exact List.Subset.refl _)
    (by rw [hcard]) hnotices (by rw [hdev]) (fun r _ hl hc => ⟨r, rfl, rfl, hl, hc, rfl⟩) fun r _ hl => ⟨r, rfl, rfl, hl⟩

theorem drainStep_damageLoad (n slot : Nat) (hd : NumbersDistinct s) : DrainStep s (damageLoad n slot s) := by
  have hindex : DrainStep s { s with card := { s.card with
      damaged := s.card.damaged ++ [slot], index := s.card.index.filter fun x => x.shot != n } } :=
    drainStep_of_slots hd rfl (List.Subset.refl _) rfl rfl rfl
  exact hindex.trans (drainStep_failLoad .cardError n hindex.distinct)

/-- The slot of the load of a number in use for its record. -/
def fillIn (y : Record) : RecordSlot → RecordSlot
  | .loading m ws => if m = y.number then .inUse y else .loading m ws
  | x => x

theorem keepsNumbers_fillIn (y : Record) : KeepsNumbers (fillIn y) := by
  intro x
  cases x with
  | loading m ws =>
    simp only [fillIn]
    split
    · next h => exact .inr (congrArg some h.symm)
    · exact .inr rfl
  | _ => exact .inr rfl

theorem LoadsAt.filled_slots {y : Record} (h : LoadsAt i n ws s) (hy : y.number = n) :
    (setSlot i (.inUse y) s).table.slots = s.table.slots.map (fillIn y) := by
  change s.table.slots.set i (.inUse y) = _
  have hlt := (List.getElem?_eq_some_iff.1 h.slot).1
  refine List.ext_getElem? fun j => ?_
  rw [List.getElem?_map]
  by_cases hji : j = i
  · subst hji
    rw [List.getElem?_set_self hlt, h.slot]
    simp [fillIn, hy]
  · rw [List.getElem?_set_ne (Ne.symm hji)]
    cases hx : s.table.slots[j]? with
    | none => rfl
    | some x =>
      cases x with
      | loading m ws' =>
        have hm : m ≠ y.number := by
          rintro rfl
          exact (h.alone j hji).1 ws' (by rw [← hy]; exact hx)
        simp [fillIn, hm]
      | _ => rfl

/-- A load whose waiters are lookups completes. -/
theorem drainStep_completeLoad (h : LoadsAt i n ws s) (hd : NumbersDistinct s) (hn : entryShot block = n)
    (hw : ∀ w ∈ ws, w.request = .lookup) : DrainStep s (completeLoad n slot block s) := by
  have hnumber : (loadedRecord block slot).number = n := hn
  have hslots := h.filled_slots hnumber
  have hholds : Holds i (loadedRecord block slot) (touchSlot i (setSlot i (.inUse (loadedRecord block slot)) s)) :=
    (h.filled hnumber).of_slots rfl
  have hcomplete : completeLoad n slot block s =
      ws.foldl (proceed n) (touchSlot i (setSlot i (.inUse (loadedRecord block slot)) s)) := by
    unfold completeLoad
    rw [h.findIdx]
    dsimp only
    rw [h.waiters]
  rw [hcomplete]
  generalize loadedRecord block slot = y at *
  subst hnumber
  obtain ⟨order, link, he, _⟩ := lookups_fold hw hholds (by simp [touchSlot])
  rw [he]
  exact drainStep_of_map hd (keepsNumbers_fillIn y) hslots (List.Subset.refl _) rfl rfl rfl
    (fun r _ hl hc => ⟨r, rfl, rfl, hl, hc, rfl⟩) fun r _ hl => ⟨r, rfl, rfl, hl⟩

theorem drainStep_loadDone (slot : Nat) (block : List Byte) (hd : NumbersDistinct s)
    (hw : ∀ ws, RecordSlot.loading n ws ∈ s.table.slots → ∀ w ∈ ws, w.request = .lookup) :
    DrainStep s (loadDone n slot block s) := by
  unfold loadDone
  split
  · exact drainStep_of_slots hd rfl (List.Subset.refl _) rfl rfl rfl
  · next hloading =>
    split
    · exact drainStep_failLoad .notFound n hd
    · split
      · next hgood =>
        rw [Bool.and_eq_true, beq_iff_eq] at hgood
        have hany : s.table.slots.any (RecordSlot.loads n) = true := Bool.eq_true_of_not_eq_false hloading
        obtain ⟨x, hx, hxn⟩ := List.any_eq_true.1 hany
        cases x with
        | loading m ws =>
          have hm : m = n := beq_iff_eq.1 hxn
          subst hm
          obtain ⟨i, hi⟩ := List.mem_iff_getElem?.1 hx
          exact drainStep_completeLoad (loadsAt_of_distinct hd hi) hd hgood.2 (hw ws hx)
        | _ => cases hxn
      · exact drainStep_damageLoad n slot hd

/-! ### The end of the drain -/

/-- The last work of a drain: EJECTING, no entry write waits, and no place of the amendment list is not taken. -/
structure LastWork (tag : Nat) (s : State) : Prop where
  bus : OnBus s
  state : s.card.state = .ejecting
  tag : s.card.ejectTag = some tag
  distinct : NumbersDistinct s
  entries : s.card.entries = []
  taken : ∀ a ∈ s.table.amended, a.taken = true

/-- When the last work is over, and no read waits, the drain ends (R157). -/
theorem LastWork.ends {tag : Nat} (h : LastWork tag s) {v : State}
    (hv : v.card = { s.card with work := none, bus := none, reads := [] }) (htable : v.table = s.table)
    (hnotices : v.notices = s.notices) (hdev : v.dev = s.dev) (hstep : DrainStep v u) :
    DrainEnded (some tag) s (service u) := by
  have hon : HandsOn s v := handsOn_of_same (by rw [hv]) hnotices (by rw [htable]) (by rw [hdev])
  have hcard := hstep.card
  rw [hv] at hcard
  have hready : DrainReady tag u := by
    refine ⟨?_, ?_, ?_, ?_, ?_, nextDirty_taken fun a ha => ?_, ?_⟩
    · rw [hcard]
      exact h.state
    · rw [hcard]
      exact h.tag
    · rw [hcard]
    · rw [hcard]
    · rw [hcard]
      exact h.entries
    · have ha' := hstep.amended ha
      rw [htable] at ha'
      exact h.taken a ha'
    · rw [hcard]
  exact drainEnded_of_handsOn (hready.ends hstep.distinct) (hon.trans hstep.hands)

theorem endWork_card (h : s.card.reads = []) : (endWork s).card = { s.card with work := none, bus := none, reads := [] } := by
  rw [← h]
  rfl

theorem readEnded_card (h : s.card.reads.length ≤ 1) :
    (readEnded s).card = { s.card with work := none, bus := none, reads := [] } := by
  have htail : s.card.reads.tail = [] := by
    rw [← List.length_eq_zero_iff, List.length_tail]
    omega
  rw [← htail]
  rfl

variable {tag : Nat}

theorem LastWork.endWork_ends (h : LastWork tag s) (hreads : s.card.reads = []) {f : State → State}
    (hstep : NumbersDistinct (endWork s) → DrainStep (endWork s) (f (endWork s))) :
    DrainEnded (some tag) s (service (f (endWork s))) :=
  h.ends (endWork_card hreads) rfl rfl rfl (hstep h.distinct)

theorem LastWork.readEnded_ends (h : LastWork tag s) (hreads : s.card.reads.length ≤ 1) {f : State → State}
    (hstep : NumbersDistinct (readEnded s) → DrainStep (readEnded s) (f (readEnded s))) :
    DrainEnded (some tag) s (service (f (readEnded s))) :=
  h.ends (readEnded_card hreads) rfl rfl rfl (hstep h.distinct)

theorem exec_emptyWriteDone (h : OnBus s) (hw : s.card.work = some (.emptyWrite n slot)) :
    exec .emptyWriteDone s = .next (service (emptied n (endWork s))) := by
  change Host.Outcome.next (answeredOk _ s) = _
  rw [answeredOk_onBus h, hw]

theorem exec_dirtyRewriteDone (h : OnBus s) (hw : s.card.work = some (.dirtyRewrite n)) :
    exec .dirtyRewriteDone s = .next (service (resolveTaken n (copyProtect n (endWork s)))) := by
  change Host.Outcome.next (answeredOk _ s) = _
  rw [answeredOk_onBus h, hw]

theorem exec_developedEntryWriteDone {x : Handoff} {runs : List Run} {d : Nat} {st : Bool} (h : OnBus s)
    (hw : s.card.work = some (.developed x runs d true st)) :
    exec .developedEntryWriteDone s = .next (service (developedWritten x runs (endWork s))) := by
  change Host.Outcome.next (answeredOk _ s) = _
  rw [answeredOk_onBus h, hw]

theorem exec_entryWriteDone (h : OnBus s) (hw : s.card.work = some (.entryWrite n slot)) :
    exec .entryWriteDone s = .next (service (entryWritten n slot (endWork s))) := by
  change Host.Outcome.next (answeredOk _ s) = _
  rw [answeredOk_onBus h, hw]

/-- The last fetch of a drain is done (R119, R157). -/
theorem LastWork.fetchDone_ends (h : LastWork tag s) (hreads : s.card.reads.length ≤ 1) (p done clusters : Nat)
    (values : List (Nat × BitVec 32)) :
    DrainEnded (some tag) s (service (fetchDone (leaveReads (endWork (fetched p done clusters values s))))) := by
  have hcard : (readEnded (fetched p done clusters values s)).card = { s.card with work := none, bus := none, reads := [] } :=
    readEnded_card (s := fetched p done clusters values s) hreads
  have hd : NumbersDistinct (readEnded (fetched p done clusters values s)) := h.distinct
  exact h.ends hcard rfl rfl rfl (drainStep_fetchDone hd)

end

end Sys2Proof.ShotTable
end

section
/-! Shot table: the requests on the card (R157 to R159). -/

namespace Sys2Proof.ShotTable
open Sys2Proof.Machine

section
variable {s : State} {tag : Nat}

/-- An accepted CARD_EJECT, as far as the statement goes (R157). -/
theorem cardEject_follows (hcan : CanTake tag s) (h : s.card.state = .ready ∨ s.card.state = .readOnly) :
    ∃ t : State, exec (.cardEject tag) s = .next t ∧
      ((s.card.work.isSome ∨ s.card.bus.isSome ∨ s.card.entries ≠ [] ∨ RewriteWaits s) →
        t.card.state = .ejecting ∧ t.card.ejectTag = some tag ∧ t.card.identity = s.card.identity ∧
        (s.card.bus.isSome → t.card.bus = s.card.bus ∧ t.card.work = s.card.work)) ∧
      (NumbersDistinct s → s.card.work = none → s.card.bus = none → s.card.entries = [] →
        ¬ RewriteWaits s → DrainEnded (some tag) s t) ∧
      (NumbersDistinct s → ∀ reads, ReadsWaiting s reads → ReadsRefused s t reads) := by
  refine ⟨_, cardEject_accepted hcan h, fun hbusy => ?_, fun hd hw hb he hr => ?_, fun hd reads hw => ?_⟩
  · have hbusy' : (holdTag tag s).card.work.isSome ∨ (holdTag tag s).card.bus.isSome ∨ (holdTag tag s).card.entries ≠ [] ∨
        RewriteWaits (holdTag tag s) := hbusy
    exact eject_stays (s := holdTag tag s) hbusy' rfl
  · exact drainEnded_holdTag (eject_drains (s := holdTag tag s) hd hw hb he hr)
  · have hw' : ReadsWaiting (holdTag tag s) reads := hw
    have hrefused := eject_refuses (tag := tag) (s := holdTag tag s) hd hw'
    exact hrefused

/-- The answer that ends the last work of a drain ends the drain (R157). -/
theorem lastAnswer_ends {c : Instr} (h : LastWork tag s) (hreads : s.card.reads.length ≤ 1)
    (hc : (c = .emptyWriteDone ∧ ∃ n slot, s.card.work = some (.emptyWrite n slot)) ∨
      (c = .dirtyRewriteDone ∧ ∃ n, s.card.work = some (.dirtyRewrite n)) ∨
      (c = .developedEntryWriteDone ∧ ∃ h runs d st, s.card.work = some (.developed h runs d true st)) ∨
      (c = .entryWriteDone ∧ ∃ n slot, s.card.work = some (.entryWrite n slot) ∧
        ∀ r, findRecord s n = some r → r.life = .held) ∨
      (∃ block, c = .loadReadDone block ∧ ∃ n slot, s.card.work = some (.load n slot) ∧
        ∀ ws, RecordSlot.loading n ws ∈ s.table.slots → ∀ w ∈ ws, w.request = .lookup) ∨
      (∃ clusters values, c = .fetchReadDone clusters values ∧ 0 < clusters ∧ ∃ n p runs d,
        s.card.work = some (.fetch n p runs d) ∧ d + clusters = (runs.map Run.length).sum))
    (hnone : (∀ n slot, s.card.work ≠ some (.load n slot)) → (∀ n p runs d, s.card.work ≠ some (.fetch n p runs d)) →
      s.card.reads = []) : ∃ t : State, exec c s = .next t ∧ DrainEnded (some tag) s t := by
  have hempty : ∀ w, s.card.work = some w → (∀ n slot, w ≠ .load n slot) → (∀ n p runs d, w ≠ .fetch n p runs d) →
      s.card.reads = [] := by
    intro w hw hl hf
    refine hnone (fun n slot e => hl n slot ?_) fun n p runs d e => hf n p runs d ?_
    · exact Option.some.inj (hw.symm.trans e)
    · exact Option.some.inj (hw.symm.trans e)
  rcases hc with ⟨rfl, n, slot, hw⟩ | ⟨rfl, n, hw⟩ | ⟨rfl, x, runs, d, st, hw⟩ | ⟨rfl, n, slot, hw, hheld⟩ |
    ⟨block, rfl, n, slot, hw, hlookups⟩ | ⟨clusters, values, rfl, hpos, n, p, runs, d, hw, hsum⟩
  · exact ⟨_, exec_emptyWriteDone h.bus hw,
      h.endWork_ends (hempty _ hw nofun nofun) fun hd => drainStep_emptied n hd⟩
  · exact ⟨_, exec_dirtyRewriteDone h.bus hw, h.endWork_ends (f := fun v => resolveTaken n (copyProtect n v))
      (hempty _ hw nofun nofun) fun hd =>
        (drainStep_copyProtect n hd).trans (drainStep_resolveTaken n (drainStep_copyProtect n hd).distinct)⟩
  · exact ⟨_, exec_developedEntryWriteDone h.bus hw,
      h.endWork_ends (hempty _ hw nofun nofun) fun hd => drainStep_developedWritten x runs hd⟩
  · exact ⟨_, exec_entryWriteDone h.bus hw,
      h.endWork_ends (hempty _ hw nofun nofun) fun hd => drainStep_entryWritten hd hheld⟩
  · exact ⟨_, exec_loadReadDone h.bus hw,
      h.readEnded_ends hreads fun hd => drainStep_loadDone slot block hd hlookups⟩
  · refine ⟨_, exec_fetchReadDone h.bus hw hpos (Nat.le_of_eq hsum), ?_⟩
    rw [if_neg (by omega)]
    exact h.fetchDone_ends hreads p d clusters values

end

/-- Settles O41, by the card state: each refusal by the tests of R158 in their order, the drain and the format by what
their ends leave of the slots and of the Card Store. -/
theorem cardRequestsFollowCardState : Obligations.CardRequestsFollowCardState := by
  refine ⟨fun tag s hcan => ⟨cardEject_refused hcan, cardEject_follows hcan, fun discard hbad =>
    exec_cardFormat_refused hcan (formatRefusal_bad hbad), fun discard hle => ⟨fun hs => ?_, fun hs => ?_, fun hs => ?_,
    fun x hs hx hp => ?_, fun hs h0 => ?_, fun hs h1 hex => ?_, fun hs h1 hno hprot => ?_, fun x hs hx hp h4 hb => ?_,
    fun x hs hx hp h4 => ?_⟩, fun x hs hx hno hrec hindex => ?_⟩, fun c b x v s hb ho hwait hstate hx h4 hd hc => ?_,
    fun c tag s hbus hstate htag hd hentries htaken hreads hc hnone => ?_⟩
  · exact exec_cardFormat_refused hcan (by rw [formatRefusal_eq hle, hs])
  · refine exec_cardFormat_refused hcan ?_
    rw [formatRefusal_eq hle]
    rcases hs with hs | hs <;> rw [hs]
  · refine exec_cardFormat_refused hcan ?_
    rw [formatRefusal_eq hle]
    rcases hs with hs | hs | hs <;> rw [hs]
  · exact exec_cardFormat_refused hcan (by rw [formatRefusal_unformatted hle hs hx, hp]; rfl)
  · subst h0
    exact exec_cardFormat_refused hcan (formatRefusal_ready hs).1
  · subst h1
    exact exec_cardFormat_refused hcan ((formatRefusal_ready hs).2.1 hex)
  · subst h1
    exact exec_cardFormat_refused hcan (by rw [(formatRefusal_ready hs).2.2 hno, protectedOnCard_of hprot]; rfl)
  · have hnone : formatRefusal s discard = none := by
      rw [formatRefusal_unformatted hle hs hx, hp]
      rfl
    exact ⟨_, exec_cardFormat_accepted hcan hnone, (unformatted_served hs hx).1 h4 hb⟩
  · have hnone : formatRefusal s discard = none := by
      rw [formatRefusal_unformatted hle hs hx, hp]
      rfl
    exact ⟨_, exec_cardFormat_accepted hcan hnone, (unformatted_served hs hx).2 h4⟩
  · have hnone : formatRefusal s 1 = none := by
      rw [(formatRefusal_ready hs).2.2 hno, not_protectedOnCard hrec hindex]
      rfl
    exact ⟨fun hb => ⟨_, exec_cardFormat_accepted hcan hnone, ready_waits hs hb⟩,
      fun hb hd => ⟨_, exec_cardFormat_accepted hcan hnone, ready_ends hs hb hx hd⟩⟩
  · exact ⟨_, waitedAnswer_ends hb ho hwait hc, endForFormat_writes hd hstate hx h4⟩
  · exact lastAnswer_ends ⟨hbus, hstate, htag, hd, hentries, htaken⟩ hreads hc hnone

end Sys2Proof.ShotTable
end

section
/-! Roll table: what the requests for rolls and recipes do (R35 to R39, R44, R45). -/

namespace Sys2Proof.RollTable
open Sys2Proof.Machine ShotTable

/-- A request that is taken is decided by its block. -/
theorem next_taken {tag : Nat} {s t : State} {body : State → State} (h : CanTake tag s) (hb : body (holdTag tag s) = t) :
    (.next (takeRequest tag false body s) : Host.Outcome State Fault Refusal) = .next t := by
  rw [takeRequest_taken false body h, hb]

/-! ### Roll slots -/

theorem rollSlot_eq {s : State} {i : Nat} {x : RollSlot} (h : s.rolls.slots[i]? = some x) : rollSlot s i = x := by
  unfold rollSlot
  rw [List.getD_eq_getElem?_getD, h]
  rfl

theorem rollAt_eq {s : State} {i : Nat} {x : RollSlot} (h : s.rolls.slots[i]? = some x) : rollAt s i = x.roll? := by
  rw [← rollSlot_eq h]
  rfl

theorem freeRollSlot_none {s : State} (h : RollSlot.free ∉ s.rolls.slots) : freeRollSlot s = none := by
  unfold freeRollSlot
  rw [List.findIdx?_eq_none_iff]
  intro x hx
  simp only [beq_eq_false_iff_ne]
  rintro rfl
  exact h hx

/-! ### ROLL_OPEN (R35) -/

/-- Settles O13: the settings are judged first (log 37), then the lowest FREE slot is looked for. -/
theorem rollOpenTakesLowestFreeSlot : Obligations.RollOpenTakesLowestFreeSlot := by
  intro tag ops s hcan
  refine ⟨fun hbad => next_taken hcan ?_, fun hgood hfull => next_taken hcan ?_, fun i hgood hlow => ?_⟩
  · rw [← rollGood_iff, Bool.not_eq_true] at hbad
    rw [if_pos hbad]
  · rw [← rollGood_iff] at hgood
    rw [if_neg (by simp [hgood]), show freeRollSlot (holdTag tag s) = none from freeRollSlot_none hfull]
  · rw [← rollGood_iff] at hgood
    refine ⟨Roll.default, applyRoll ops Roll.default, rollDefaults_default, rollChanged_applyRoll ops _, next_taken hcan ?_⟩
    rw [if_neg (by simp [hgood]), show freeRollSlot (holdTag tag s) = some i from findIdx?_eq_of_lowestAt hlow]
    rfl

/-! ### ROLL_SET (R36) -/

/-- What remains to be tested of a ROLL_SET whose slot holds a roll and whose settings are in range. -/
theorem rollSetRefusal_held {s : State} {i : Nat} {ops : RollOperands} {x : RollSlot} {r : Roll} (hi : i ≤ 15)
    (hgood : RollInRange ops) (hx : s.rolls.slots[i]? = some x) (hr : x.roll? = some r) :
    rollSetRefusal s i ops =
      if s.rolls.current = some i ∧ s.seq.state ≠ .idle then some .busy
      else if ops.frameLimit.any (fun n => decide (n + 1 < r.nextFrame)) then some .badOperand
      else none := by
  rw [← rollGood_iff] at hgood
  unfold rollSetRefusal
  rw [if_neg (by simp [hgood]; omega), rollAt_eq hx, hr]

theorem updateRoll_set {i : Nat} {s : State} {x : RollSlot} (f : Roll → Roll) (hx : s.rolls.slots[i]? = some x) :
    updateRoll i f s = { s with rolls := { s.rolls with slots := s.rolls.slots.set i (x.mapRoll f) } } := by
  obtain ⟨hlt, rfl⟩ := List.getElem?_eq_some_iff.1 hx
  unfold updateRoll
  rw [List.modify_eq_set_getElem?, hx]
  rfl

/-- A ROLL_SET that its tests refuse is answered with the code they give. -/
theorem exec_rollSet_refused {tag i : Nat} {ops : RollOperands} {s : State} {code : ResultCode} (hcan : CanTake tag s)
    (h : rollSetRefusal s i ops = some code) :
    exec (.rollSet tag i ops) s = .next (answerCode tag code (holdTag tag s)) :=
  next_taken hcan (by rw [show rollSetRefusal (holdTag tag s) i ops = some code from h])

theorem exec_rollSet_accepted {tag i : Nat} {ops : RollOperands} {s : State} {x : RollSlot} (hcan : CanTake tag s)
    (h : rollSetRefusal s i ops = none) (hx : s.rolls.slots[i]? = some x) :
    exec (.rollSet tag i ops) s = .next { answerCode tag .ok (holdTag tag s) with
      rolls := { s.rolls with slots := s.rolls.slots.set i (x.mapRoll (applyRoll ops)) } } :=
  next_taken hcan (by
    rw [show rollSetRefusal (holdTag tag s) i ops = none from h,
      show updateRoll i (applyRoll ops) (holdTag tag s) = _ from updateRoll_set (s := holdTag tag s) _ hx]
    rfl)

/-- Settles O14: the tests are those of `rollSetRefusal`, and what passes them changes its slot in its place. -/
theorem rollSetChangesNamedSettings : Obligations.RollSetChangesNamedSettings := by
  intro tag i ops s hcan
  refine ⟨fun hbad => exec_rollSet_refused hcan ?_, fun hi hgood hfree => exec_rollSet_refused hcan ?_,
    fun mk r hmk hi hgood hslot => ?_⟩
  · rw [← rollGood_iff, Bool.not_eq_true] at hbad
    exact if_pos hbad
  · rw [← rollGood_iff] at hgood
    unfold rollSetRefusal
    rw [if_neg (by simp [hgood]; omega), rollAt_eq hfree]
    rfl
  · have hroll : (mk r).roll? = some r := by
      rcases hmk with rfl | rfl <;> rfl
    have hmap : ∀ f, (mk r).mapRoll f = mk (f r) := by
      rcases hmk with rfl | rfl <;> exact fun _ => rfl
    have htests := rollSetRefusal_held hi hgood hslot hroll
    refine ⟨fun hbusy => exec_rollSet_refused hcan (htests.trans (if_pos hbusy)), fun hfree =>
      ⟨fun n hn hlow => exec_rollSet_refused hcan ?_, fun hlimit => ⟨_, rollChanged_applyRoll ops r, ?_⟩⟩⟩
    · rw [htests, if_neg hfree, if_pos (by simp [hn, hlow])]
    · rw [← hmap]
      refine exec_rollSet_accepted hcan ?_ hslot
      rw [htests, if_neg hfree, if_neg]
      simpa [Option.any_eq_true] using hlimit

/-! ### ROLL_SELECT, ROLL_CLOSE and ROLL_FREE (R37 to R39) -/

theorem exec_rollSelect_refused {tag : Nat} {slot : Option Nat} {s : State} {code : ResultCode} (hcan : CanTake tag s)
    (h : rollSelectRefusal s slot = some code) :
    exec (.rollSelect tag slot) s = .next (answerCode tag code (holdTag tag s)) :=
  next_taken hcan (by rw [show rollSelectRefusal (holdTag tag s) slot = some code from h])

theorem exec_rollSelect_accepted {tag : Nat} {slot : Option Nat} {s : State} (hcan : CanTake tag s)
    (h : rollSelectRefusal s slot = none) :
    exec (.rollSelect tag slot) s = .next { answerCode tag .ok (holdTag tag s) with
      rolls := { s.rolls with current := slot } } :=
  next_taken hcan (by rw [show rollSelectRefusal (holdTag tag s) slot = none from h]; rfl)

/-- In IDLE the roll selected is judged by its slot. -/
theorem rollSelectRefusal_idle {s : State} {i : Nat} {x : RollSlot} (hi : i ≤ 15) (hidle : s.seq.state = .idle)
    (hx : s.rolls.slots[i]? = some x) : rollSelectRefusal s (some i) =
      match x with
      | .free => some .notFound
      | .closed _ => some .noRoll
      | .opened _ => none := by
  unfold rollSelectRefusal
  rw [if_neg (by simpa using hi), if_neg (by simp [hidle])]
  simp only [rollSlot_eq hx]
  cases x <;> rfl

theorem rollSelect_outcomes {tag : Nat} {s : State} (hcan : CanTake tag s) :
    (∀ i, 15 < i →
      exec (.rollSelect tag (some i)) s = .next (answerCode tag .badOperand (holdTag tag s))) ∧
    (∀ slot : Option Nat, (∀ i, slot = some i → i ≤ 15) → s.seq.state ≠ .idle →
      exec (.rollSelect tag slot) s = .next (answerCode tag .busy (holdTag tag s))) ∧
    (∀ i, i ≤ 15 → s.seq.state = .idle → s.rolls.slots[i]? = some .free →
      exec (.rollSelect tag (some i)) s = .next (answerCode tag .notFound (holdTag tag s))) ∧
    (∀ i r, i ≤ 15 → s.seq.state = .idle → s.rolls.slots[i]? = some (.closed r) →
      exec (.rollSelect tag (some i)) s = .next (answerCode tag .noRoll (holdTag tag s))) ∧
    (∀ i r, i ≤ 15 → s.seq.state = .idle → s.rolls.slots[i]? = some (.opened r) →
      exec (.rollSelect tag (some i)) s = .next { answerCode tag .ok (holdTag tag s) with
        rolls := { s.rolls with current := some i } }) ∧
    (s.seq.state = .idle →
      exec (.rollSelect tag none) s = .next { answerCode tag .ok (holdTag tag s) with
        rolls := { s.rolls with current := none } }) := by
  refine ⟨fun i hi => exec_rollSelect_refused hcan ?_, fun slot hslot hbusy => exec_rollSelect_refused hcan ?_,
    fun i hi hidle hx => exec_rollSelect_refused hcan (rollSelectRefusal_idle hi hidle hx),
    fun i r hi hidle hx => exec_rollSelect_refused hcan (rollSelectRefusal_idle hi hidle hx),
    fun i r hi hidle hx => exec_rollSelect_accepted hcan (rollSelectRefusal_idle hi hidle hx),
    fun hidle => exec_rollSelect_accepted hcan ?_⟩
  · exact if_pos (by simpa using hi)
  · unfold rollSelectRefusal
    rw [if_neg (by simpa [Option.any_eq_true] using hslot), if_pos hbusy]
  · unfold rollSelectRefusal
    rw [if_neg (by simp), if_neg (by simp [hidle])]

/-- A ROLL_CLOSE of a slot that there is, decided by what the slot holds (R38). -/
theorem exec_rollClose {tag i : Nat} {s : State} {x : RollSlot} (hcan : CanTake tag s) (hi : i ≤ 15)
    (hx : s.rolls.slots[i]? = some x) : exec (.rollClose tag i) s = .next (
      match x with
      | .free => answerCode tag .notFound (holdTag tag s)
      | .closed _ => answerCode tag .ok (holdTag tag s)
      | .opened r =>
        if s.rolls.current = some i ∧ s.seq.state ≠ .idle then answerCode tag .busy (holdTag tag s)
        else answerCode tag .ok (closeRoll i r (holdTag tag s))) := by
  refine next_taken hcan ?_
  rw [if_neg (by omega), show rollSlot (holdTag tag s) i = x from rollSlot_eq hx]
  cases x <;> rfl

theorem rollClose_outcomes {tag i : Nat} {s : State} (hcan : CanTake tag s) :
    (15 < i → exec (.rollClose tag i) s = .next (answerCode tag .badOperand (holdTag tag s))) ∧
    (i ≤ 15 → s.rolls.slots[i]? = some .free →
      exec (.rollClose tag i) s = .next (answerCode tag .notFound (holdTag tag s))) ∧
    (∀ r, i ≤ 15 → s.rolls.slots[i]? = some (.closed r) →
      exec (.rollClose tag i) s = .next (answerCode tag .ok (holdTag tag s))) ∧
    (∀ r, i ≤ 15 → s.rolls.slots[i]? = some (.opened r) → s.rolls.current ≠ some i →
      exec (.rollClose tag i) s = .next { answerCode tag .ok (holdTag tag s) with
        rolls := { s.rolls with slots := s.rolls.slots.set i (.closed r) } }) ∧
    (∀ r, i ≤ 15 → s.rolls.slots[i]? = some (.opened r) → s.rolls.current = some i →
      s.seq.state ≠ .idle →
      exec (.rollClose tag i) s = .next (answerCode tag .busy (holdTag tag s))) ∧
    (∀ r, i ≤ 15 → s.rolls.slots[i]? = some (.opened r) → s.rolls.current = some i →
      s.seq.state = .idle →
      exec (.rollClose tag i) s = .next { answerCode tag .ok (holdTag tag s) with
        rolls := { slots := s.rolls.slots.set i (.closed r), current := none } }) := by
  refine ⟨fun hi => next_taken hcan (if_pos hi), fun hi hx => exec_rollClose hcan hi hx,
    fun r hi hx => exec_rollClose hcan hi hx, fun r hi hx hother => ?_, fun r hi hx hcur hbusy => ?_,
    fun r hi hx hcur hidle => ?_⟩ <;> refine (exec_rollClose hcan hi hx).trans (congrArg Host.Outcome.next ?_)
  · dsimp only
    rw [if_neg fun h => hother h.1]
    simp [closeRoll, setCurrent, setRollSlot, answerCode, answer, holdTag, hother]
  · exact if_pos ⟨hcur, hbusy⟩
  · dsimp only
    rw [if_neg fun h => h.2 hidle]
    simp [closeRoll, setCurrent, setRollSlot, answerCode, answer, holdTag, hcur]

/-- A ROLL_FREE of a slot that there is, decided by what the slot holds (R39). -/
theorem exec_rollFree {tag i : Nat} {s : State} {x : RollSlot} (hcan : CanTake tag s) (hi : i ≤ 15)
    (hx : s.rolls.slots[i]? = some x) : exec (.rollFree tag i) s = .next (
      match x with
      | .free => answerCode tag .notFound (holdTag tag s)
      | .opened _ => answerCode tag .busy (holdTag tag s)
      | .closed _ => answerCode tag .ok (updateRecords (Record.leaveRoll i) (setRollSlot i .free (holdTag tag s)))) := by
  refine next_taken hcan ?_
  rw [if_neg (by omega), show rollSlot (holdTag tag s) i = x from rollSlot_eq hx]
  cases x <;> rfl

theorem rollFree_outcomes {tag i : Nat} {s : State} (hcan : CanTake tag s) :
    (15 < i → exec (.rollFree tag i) s = .next (answerCode tag .badOperand (holdTag tag s))) ∧
    (i ≤ 15 → s.rolls.slots[i]? = some .free →
      exec (.rollFree tag i) s = .next (answerCode tag .notFound (holdTag tag s))) ∧
    (∀ r, i ≤ 15 → s.rolls.slots[i]? = some (.opened r) →
      exec (.rollFree tag i) s = .next (answerCode tag .busy (holdTag tag s))) ∧
    (∀ r, i ≤ 15 → s.rolls.slots[i]? = some (.closed r) →
      ∃ slots : List RecordSlot, slots.length = s.table.slots.length ∧
        (∀ (j : Nat) (x : Record), s.table.slots[j]? = some (RecordSlot.inUse x) →
          slots[j]? = some (.inUse (if x.rollSlot = some i then { x with rollSlot := none } else x))) ∧
        (∀ (j : Nat) (y : RecordSlot), s.table.slots[j]? = some y → y.record? = none → slots[j]? = some y) ∧
        exec (.rollFree tag i) s = .next { answerCode tag .ok (holdTag tag s) with
          rolls := { s.rolls with slots := s.rolls.slots.set i .free },
          table := { s.table with slots := slots } }) := by
  refine ⟨fun hi => next_taken hcan (if_pos hi), fun hi hx => exec_rollFree hcan hi hx,
    fun r hi hx => exec_rollFree hcan hi hx, fun r hi hx => ⟨(updateRecords (Record.leaveRoll i) s).table.slots,
      List.length_map _, fun j x hj => ?_, fun j y hj hy => ?_, exec_rollFree hcan hi hx⟩⟩
  · simp only [updateRecords, List.getElem?_map, hj]
    rfl
  · simp only [updateRecords, List.getElem?_map, hj, Option.map_some]
    cases y with
    | inUse x => cases hy
    | free => rfl
    | loading n ws => rfl

/-- Settles O15, request by request. -/
theorem rollsAreSelectedClosedAndFreed : Obligations.RollsAreSelectedClosedAndFreed :=
  ⟨fun _ _ hcan => rollSelect_outcomes hcan, fun _ _ _ hcan => rollClose_outcomes hcan,
    fun _ _ _ hcan => rollFree_outcomes hcan⟩

/-! ### RECIPE_SET and RECIPE_QUERY (R44, R45) -/

theorem recipeAt_eq {s : State} {i : Nat} {r : Recipe} (h : s.recipes[i]? = some r) : recipeAt s i = r := by
  unfold recipeAt
  rw [List.getD_eq_getElem?_getD, h]
  rfl

/-- Settles O16: the parameters are judged as `RecipeInRange` says, and applied as `RecipeChanged` says. -/
theorem recipeSetStepsGeneration : Obligations.RecipeSetStepsGeneration := by
  intro tag i ops s hcan
  refine ⟨fun hbad => next_taken hcan ?_, fun r hi hgood hr => ⟨_, recipeChanged_applyRecipe ops r, next_taken hcan ?_⟩,
    fun hi => next_taken hcan (if_pos hi), fun r hi hr => next_taken hcan ?_⟩
  · rw [← recipeGood_iff, Bool.not_eq_true] at hbad
    rw [if_pos hbad]
  · rw [← recipeGood_iff] at hgood
    rw [if_neg (by simp [hgood]; omega), show recipeAt (holdTag tag s) i = r from recipeAt_eq hr]
    rfl
  · rw [if_neg (by omega), show recipeAt (holdTag tag s) i = r from recipeAt_eq hr]

end Sys2Proof.RollTable
end

section
/-! Previews: what GET_PREVIEW answers (R136, R137). -/

namespace Sys2Proof.RollTable
open Sys2Proof.Machine ShotTable

/-! ### The slot that a request hits (R136 test 3, R137 test 4) -/

theorem carries_iff {n : Nat} {k : DevKey} {x : PreviewSlot} :
    x.carries n k = true ↔ ∃ w h st seed, x.state = .valid (some (n, k)) w h st seed := by
  unfold PreviewSlot.carries
  split
  · next m l w h st seed hx => simp [hx]
  · next hx =>
    refine ⟨nofun, ?_⟩
    rintro ⟨w, h, st, seed, e⟩
    exact absurd e (hx n k w h st seed)

theorem stands_iff {s : State} {n : Nat} {x : PreviewSlot} : x.stands s n = true ↔ Stands s n x := by
  unfold PreviewSlot.stands Stands recipeAt
  split
  · next m k w h standing seed hx =>
    rw [hx]
    constructor
    · intro e
      simp only [Bool.and_eq_true, beq_iff_eq] at e
      obtain ⟨⟨rfl, rfl⟩, hkey⟩ := e
      exact ⟨k, w, h, seed, rfl, hkey⟩
    · rintro ⟨k', w', h', seed', e, hkey⟩
      cases e
      simpa using hkey
  · next hx =>
    refine ⟨nofun, ?_⟩
    rintro ⟨k, w, h, seed, e, _⟩
    exact absurd e (hx n k w h true seed)

theorem previewSlot_eq {s : State} {i : Nat} {x : PreviewSlot} (h : s.cache.slots[i]? = some x) : previewSlot s i = x := by
  unfold previewSlot
  rw [List.getD_eq_getElem?_getD, h]
  rfl

/-- A test that no slot passes, and no FREE slot would, fails at every place. -/
theorem previewSlot_fails {s : State} {p : PreviewSlot → Bool} {i : Nat} (hfree : p { state := .free, pins := 0 } = false)
    (h : ∀ x, s.cache.slots[i]? = some x → p x = false) : p (previewSlot s i) = false := by
  unfold previewSlot
  rw [List.getD_eq_getElem?_getD]
  cases hx : s.cache.slots[i]? with
  | none => exact hfree
  | some x => exact h x hx

theorem hitSlot_eq_some {s : State} {p : PreviewSlot → Bool} {i : Nat} {older newer : List Nat}
    (huse : s.cache.useOrder = older ++ i :: newer) (hi : p (previewSlot s i) = true)
    (hnewer : ∀ j ∈ newer, p (previewSlot s j) = false) : hitSlot s p = some i := by
  have hnone : newer.filter (fun j => p (previewSlot s j)) = [] :=
    List.filter_eq_nil_iff.2 fun j hj => by simp [hnewer j hj]
  unfold hitSlot
  rw [huse, List.filter_append, List.filter_cons, if_pos hi, hnone, List.getLast?_append]
  rfl

theorem hitSlot_eq_none {s : State} {p : PreviewSlot → Bool} (hfree : p { state := .free, pins := 0 } = false)
    (h : ∀ x ∈ s.cache.slots, p x = false) : hitSlot s p = none := by
  unfold hitSlot
  rw [List.getLast?_eq_none_iff, List.filter_eq_nil_iff]
  intro i _
  rw [previewSlot_fails hfree fun x hx => h x (List.mem_of_getElem? hx)]
  nofun

/-! ### A hit (R136 test 3) -/

theorem previewHit_full {tag i : Nat} {s : State} {x : PreviewSlot} (hx : s.cache.slots[i]? = some x) (hp : x.pins = 7) :
    previewHit tag i s = answerCode tag .pinLimit s := by
  unfold previewHit
  rw [if_neg (by rw [previewSlot_eq hx, hp]; decide)]

/-- A hit pins the slot, makes it the most recently used, and may withdraw an engine claim (R91). -/
theorem previewHit_pins {tag i n w h seed pins : Nat} {k : DevKey} {st : Bool} {s : State}
    (hx : s.cache.slots[i]? = some { state := .valid (some (n, k)) w h st seed, pins := pins }) (hp : pins < 7) :
    ∃ claim : Bool, (claim = true → s.pool.engineClaim = true) ∧ previewHit tag i s =
      { answer tag .ok (.previewHit i k w h (pins + 1)) s with
        cache := {
          slots := s.cache.slots.set i { state := .valid (some (n, k)) w h st seed, pins := pins + 1 }
          useOrder := s.cache.useOrder.filter (· != i) ++ [i] }
        pool := { s.pool with engineClaim := claim } } := by
  have hlt : i < s.cache.slots.length := (List.getElem?_eq_some_iff.1 hx).1
  have hpinned : touchPreview i (pinSlot i s) = { s with cache := {
      slots := s.cache.slots.set i { state := .valid (some (n, k)) w h st seed, pins := pins + 1 }
      useOrder := s.cache.useOrder.filter (· != i) ++ [i] } } := by
    unfold touchPreview pinSlot
    simp only [List.modify_eq_set_getElem?, hx]
    rfl
  have hpayload : ∀ b : Bool, hitPayload (setEngineClaim b (touchPreview i (pinSlot i s))) i =
      .previewHit i k w h (pins + 1) := fun b => by
    unfold hitPayload
    rw [previewSlot_eq (x := { state := .valid (some (n, k)) w h st seed, pins := pins + 1 })
      (by rw [hpinned]; exact List.getElem?_set_self hlt)]
  unfold previewHit
  rw [previewSlot_eq hx, if_pos hp]
  dsimp only
  unfold refreshEngineClaim
  rw [hpayload, hpinned]
  exact ⟨_, fun e => (Bool.and_eq_true_iff.1 (Bool.and_eq_true_iff.1 e).1).1, rfl⟩

/-! ### The one job of a shot and kind (R113) -/

/-- A job with a merged request, or a new job, under the shot's current key, waits as a placing left it: dispatch may
only take it RUNNING under that key (R116). -/
def JobServed (i : Nat) (j : Job) (key : DevKey) (t : State) : Prop :=
  ∃ y, t.dev.queue[i]? = some y ∧ y.shot = j.shot ∧ y.kind = j.kind ∧ y.priority = j.priority ∧
    y.waiters = j.waiters ∧ (y.key = j.key ∨ (j.running = false ∧ y.key = key)) ∧ (j.running = true → y.running = true)

/-- The job dispatched is not a RUNNING one. -/
theorem not_running_of_eligible {s : State} {j : Job} (h : eligible s j = true) : j.running = false := by
  unfold eligible at h
  split at h
  · cases h
  · simp only [eligibleButPlanes, Bool.and_eq_true, Bool.not_eq_true'] at h
    exact h.1.1.1.1.1

theorem onlyJob_dispatched {s : State} {n i : Nat} {k : JobKind} {j x : Job} (h : OnlyJob s n k i j)
    (hx : jobToDispatch s = some x) (hfor : j.isFor x.shot x.kind = true) : j = x := by
  obtain ⟨hj, hshot, hkind, honly⟩ := h
  simp only [Job.isFor, Bool.and_eq_true, beq_iff_eq] at hfor
  obtain ⟨i', hx'⟩ := List.mem_iff_getElem?.1 (jobToDispatch_mem hx).1
  have hi := honly i' x hx' (hfor.1.symm.trans hshot) (hfor.2.symm.trans hkind)
  rw [hi, hj] at hx'
  exact Option.some.inj hx'

theorem onlyJob_attemptDispatch {s : State} {n i : Nat} {k : JobKind} {j : Job} {r : Record} (h : OnlyJob s n k i j)
    (hr : findRecord s n = some r) : JobServed i j (currentKey s r.recipe) (attemptDispatch s) := by
  have hj : s.dev.queue[i]? = some j := h.1
  have hkept : ∀ t : State, t.dev.queue = s.dev.queue → JobServed i j (currentKey s r.recipe) t :=
    fun t ht => ⟨j, ht ▸ hj, rfl, rfl, rfl, rfl, .inl rfl, id⟩
  unfold attemptDispatch
  split
  · split
    · exact hkept _ rfl
    · next x hx =>
      split
      · exact hkept _ rfl
      · next r' hr' =>
        have hq : (setEngineClaim false (dispatchJob x r' s)).dev.queue[i]? = some
            (if j.isFor x.shot x.kind then { j with key := currentKey s r'.recipe, running := true } else j) := by
          show (dispatchJob x r' s).dev.queue[i]? = _
          rw [dispatchJob_queue, List.getElem?_map, hj]
          rfl
        by_cases hfor : j.isFor x.shot x.kind = true
        · obtain rfl := onlyJob_dispatched h hx hfor
          obtain ⟨_, hshot, _, _⟩ := h
          rw [hshot, hr] at hr'
          cases hr'
          rw [if_pos hfor] at hq
          exact ⟨_, hq, rfl, rfl, rfl, rfl, .inr ⟨not_running_of_eligible (jobToDispatch_eligible hx), rfl⟩, fun _ => rfl⟩
        · rw [if_neg hfor] at hq
          exact ⟨_, hq, rfl, rfl, rfl, rfl, .inl rfl, id⟩
  · exact hkept _ rfl

/-- What follows an event leaves the one job in its place, or dispatches it. -/
theorem onlyJob_service {s : State} {n i : Nat} {k : JobKind} {j : Job} {r : Record} (h : OnlyJob s n k i j)
    (hr : findRecord s n = some r) (he : s.card.state ≠ .ejecting) :
    JobServed i j (currentKey s r.recipe) (service s) := by
  have hdev : (serveDarkClaim s).dev = s.dev := by simp
  have hfind : findRecord (serveDarkClaim s) n = some r := by
    unfold findRecord
    rw [residents_congr (s := s) (by simp)]
    exact hr
  have hrecipes : (serveDarkClaim s).recipes = s.recipes := by simp
  have honly : OnlyJob (serveDarkClaim s) n k i j := by
    unfold OnlyJob
    rw [hdev]
    exact h
  have hserved := onlyJob_attemptDispatch honly hfind
  rw [service_eq he]
  unfold JobServed at hserved ⊢
  rw [show (serveBlocks s).dev = (attemptDispatch (serveDarkClaim s)).dev by simp [serveBlocks]]
  unfold currentKey recipeAt at hserved ⊢
  rw [hrecipes] at hserved
  exact hserved

theorem service_queueLength {s : State} (he : s.card.state ≠ .ejecting) :
    (service s).dev.queue.length = s.dev.queue.length := by
  obtain ⟨f, hf, _⟩ := jobsKept_serveBlocks s
  rw [service_eq he, hf, List.length_map]

/-! ### A miss (R113, R136) -/

section

variable {s : State} {n i : Nat} {k : JobKind} {j : Job}

theorem isFor_iff : j.isFor n k = true ↔ j.shot = n ∧ j.kind = k := by
  simp [Job.isFor]

theorem any_isFor_eq_false (h : ∀ j ∈ s.dev.queue, ¬ (j.shot = n ∧ j.kind = k)) :
    s.dev.queue.any (Job.isFor n k) = false :=
  List.any_eq_false.2 fun j hj e => h j hj (isFor_iff.1 e)

theorem placingOutcome_failed (h : ∀ j ∈ s.dev.queue, ¬ (j.shot = n ∧ j.kind = k)) (hfull : 16 ≤ s.dev.queue.length) :
    placingOutcome s n k = .failed := by
  unfold placingOutcome
  rw [any_isFor_eq_false h, if_neg nofun, if_neg (show ¬ s.dev.queue.length < Config.devQueueMax from Nat.not_lt.2 hfull)]

theorem placingOutcome_placed (h : ∀ j ∈ s.dev.queue, ¬ (j.shot = n ∧ j.kind = k)) (hroom : s.dev.queue.length < 16) :
    placingOutcome s n k = .placed := by
  unfold placingOutcome
  rw [any_isFor_eq_false h, if_neg nofun, if_pos (show s.dev.queue.length < Config.devQueueMax from hroom)]

theorem onlyJob_joined (h : OnlyJob s n k i j) : placingOutcome s n k = .merged := by
  obtain ⟨hj, hshot, hkind, _⟩ := h
  unfold placingOutcome
  rw [if_pos (List.any_eq_true.2 ⟨j, List.mem_of_getElem? hj, isFor_iff.2 ⟨hshot, hkind⟩⟩)]

variable (p : Nat) (tag : Option Nat)

theorem placeJob_placed (h : placingOutcome s n k = .placed) : placeJob n k p tag s = { s with dev := { s.dev with
    queue := s.dev.queue ++
      [{ shot := n, kind := k, priority := p, key := shotKey s n, waiters := tag.toList, running := false }] } } := by
  unfold placeJob
  rw [h]

theorem placeJob_merged (h : placingOutcome s n k = .merged) : placeJob n k p tag s = { s with dev := { s.dev with
    queue := s.dev.queue.map fun j => if j.isFor n k then j.merge p (shotKey s n) tag else j } } := by
  unfold placeJob
  rw [h]

/-- The job of a placing is the only one of its shot and kind. -/
theorem onlyJob_placed (h : ∀ j ∈ s.dev.queue, ¬ (j.shot = n ∧ j.kind = k)) (hroom : s.dev.queue.length < 16) :
    OnlyJob (placeJob n k p tag s) n k s.dev.queue.length
      { shot := n, kind := k, priority := p, key := shotKey s n, waiters := tag.toList, running := false } := by
  rw [placeJob_placed p tag (placingOutcome_placed h hroom)]
  refine ⟨List.getElem?_concat_length, rfl, rfl, fun i' j' hj' hs hk => ?_⟩
  dsimp only at hj'
  rcases Nat.lt_or_ge i' s.dev.queue.length with hlt | hge
  · rw [List.getElem?_append_left hlt] at hj'
    exact absurd ⟨hs, hk⟩ (h j' (List.mem_of_getElem? hj'))
  · obtain ⟨hlt, _⟩ := List.getElem?_eq_some_iff.1 hj'
    rw [List.length_append] at hlt
    exact Nat.le_antisymm (Nat.le_of_lt_succ hlt) hge

/-- The job that a request has joined is still the only one of its shot and kind. -/
theorem onlyJob_merged (h : OnlyJob s n k i j) :
    OnlyJob (placeJob n k p tag s) n k i (j.merge p (shotKey s n) tag) ∧
      (placeJob n k p tag s).dev.queue.length = s.dev.queue.length := by
  rw [placeJob_merged p tag (onlyJob_joined h)]
  obtain ⟨hj, hshot, hkind, honly⟩ := h
  refine ⟨⟨?_, hshot, hkind, fun i' j' hj' hs hk => ?_⟩, List.length_map _⟩
  · dsimp only
    rw [List.getElem?_map, hj, Option.map_some, if_pos (isFor_iff.2 ⟨hshot, hkind⟩)]
  · dsimp only at hj'
    rw [List.getElem?_map] at hj'
    obtain ⟨x, hx, rfl⟩ := Option.map_eq_some_iff.1 hj'
    have hsame : ∀ x : Job, (if x.isFor n k then x.merge p (shotKey s n) tag else x).shot = x.shot ∧
        (if x.isFor n k then x.merge p (shotKey s n) tag else x).kind = x.kind := fun x => by
      split <;> exact ⟨rfl, rfl⟩
    exact honly i' x hx ((hsame x).1.symm.trans hs) ((hsame x).2.symm.trans hk)

theorem placeJob_findRecord (m : Nat) : findRecord (placeJob n k p tag s) m = findRecord s m := by
  unfold findRecord
  rw [residents_congr (s := s) (by simp)]

theorem placeJob_currentKey (m : Nat) : currentKey (placeJob n k p tag s) m = currentKey s m := by
  unfold currentKey recipeAt
  rw [show (placeJob n k p tag s).recipes = s.recipes by simp]

theorem placeJob_cardState : (placeJob n k p tag s).card.state = s.card.state := by simp

end

theorem shotKey_eq {s : State} {n : Nat} {r : Record} (hr : findRecord s n = some r) : shotKey s n = currentKey s r.recipe := by
  unfold shotKey
  rw [hr]
  rfl

theorem missPriority_eq {s : State} {r : Record} {p : Nat} (h : MissPriority s r p) : missPriority s r = p := by
  unfold missPriority rollOf
  rcases h with ⟨hslot, rfl⟩ | ⟨i, m, roll, hslot, hm, hroll, hp⟩
  · rw [hslot]
    rfl
  · rw [hslot, Option.bind_some, rollAt_eq hm, hroll, Option.bind_some]
    rcases hp with ⟨hauto, rfl⟩ | hauto
    · rw [hauto]
      rfl
    · rw [hauto]
      rfl

/-- A miss that no job can take is answered QUEUE_FULL, and no job goes. -/
theorem placeWaiting_full {tag n p : Nat} {k : JobKind} {s : State} (h : ∀ j ∈ s.dev.queue, ¬ (j.shot = n ∧ j.kind = k))
    (hfull : 16 ≤ s.dev.queue.length) : placeWaiting tag n k p s = answerCode tag .queueFull s := by
  unfold placeWaiting
  rw [placingOutcome_failed h hfull]

theorem placeWaiting_place {tag n p : Nat} {k : JobKind} {s : State} (h : placingOutcome s n k ≠ .failed) :
    placeWaiting tag n k p s = placeJob n k p (some tag) s := by
  unfold placeWaiting
  split
  · contradiction
  · rfl

section

variable {tag n p : Nat} {k : JobKind} {r : Record} {s : State}

/-- A miss that places a job: it waits, or has been dispatched, under the shot's current key. -/
theorem miss_places (hr : findRecord s n = some r) (h : ∀ j ∈ s.dev.queue, ¬ (j.shot = n ∧ j.kind = k))
    (hroom : s.dev.queue.length < 16) (he : s.card.state ≠ .ejecting) :
    ∃ j ∈ (service (placeWaiting tag n k p s)).dev.queue, j.shot = n ∧ j.kind = k ∧ j.waiters = [tag] ∧ j.priority = p ∧
      j.key = currentKey s r.recipe := by
  rw [placeWaiting_place (by rw [placingOutcome_placed h hroom]; nofun)]
  have hserved := onlyJob_service (onlyJob_placed p (some tag) h hroom) ((placeJob_findRecord p (some tag) n).trans hr)
    (by rw [placeJob_cardState]; exact he)
  obtain ⟨y, hy, hshot, hkind, hprio, hwait, hkey, _⟩ := hserved
  rw [placeJob_currentKey] at hkey
  refine ⟨y, List.mem_of_getElem? hy, hshot, hkind, hwait, hprio, ?_⟩
  rcases hkey with hkey | ⟨_, hkey⟩
  · exact hkey.trans (shotKey_eq hr)
  · exact hkey

/-- A miss that joins a job. -/
theorem miss_merges {i : Nat} {j : Job} (hr : findRecord s n = some r) (h : OnlyJob s n k i j)
    (he : s.card.state ≠ .ejecting) :
    MergedInto i j p (currentKey s r.recipe) (some tag) s (service (placeWaiting tag n k p s)) := by
  rw [placeWaiting_place (by rw [onlyJob_joined h]; nofun)]
  obtain ⟨honly, hlength⟩ := onlyJob_merged p (some tag) h
  have he' : (placeJob n k p (some tag) s).card.state ≠ .ejecting := by rw [placeJob_cardState]; exact he
  obtain ⟨y, hy, hshot, hkind, hprio, hwait, hkey, hrun⟩ :=
    onlyJob_service honly ((placeJob_findRecord p (some tag) n).trans hr) he'
  rw [placeJob_currentKey] at hkey
  refine ⟨(service_queueLength he').trans hlength, y, hy, hshot, hkind, hprio, hwait, ?_, hrun⟩
  rw [← shotKey_eq hr] at hkey ⊢
  rcases hkey with hkey | ⟨hstill, hkey⟩
  · exact hkey
  · rw [hkey, if_neg (by rw [show j.running = false from hstill]; nofun)]

end

/-! ### GET_PREVIEW (R136, R137) -/

theorem execGetPreview_resident {tag n : Nat} {s : State} {r : Record} (hcan : CanTake tag s) (hn : n ≠ 0)
    (hr : findRecord s n = some r) : exec (.getPreview tag n) s = .next (getResident tag r (holdTag tag s)) := by
  refine next_taken hcan ?_
  rw [if_neg hn]
  split
  · next r' hr' => rw [Option.some.inj (hr'.symm.trans hr)]
  · next hnone => exact nomatch hnone.symm.trans hr

theorem execGetPreview_absent {tag n : Nat} {s : State} (hcan : CanTake tag s) (hn : n ≠ 0)
    (hr : ∀ r ∈ residents s, r.number ≠ n) : exec (.getPreview tag n) s = .next (getAbsent tag n (holdTag tag s)) := by
  refine next_taken hcan ?_
  rw [if_neg hn]
  split
  · next r' hr' => exact nomatch hr'.symm.trans (findRecord_none hr)
  · rfl

theorem getResident_some {tag i : Nat} {r : Record} {s : State} (h : r.life = .held ∨ r.life = .settled)
    (hhit : hitSlot s (PreviewSlot.carries r.number (currentKey s r.recipe)) = some i) :
    getResident tag r s = previewHit tag i s := by
  unfold getResident
  rcases h with h | h <;> simp only [h, hhit]

theorem getResident_none {tag : Nat} {r : Record} {s : State} (h : r.life = .held ∨ r.life = .settled)
    (hhit : hitSlot s (PreviewSlot.carries r.number (currentKey s r.recipe)) = none) :
    getResident tag r s = service (placeWaiting tag r.number .preview (missPriority s r) s) := by
  unfold getResident
  rcases h with h | h <;> simp only [h, hhit]

/-- GET_PREVIEW of a number that no record slot carries, with a card mounted (R137 tests 3 and 4). -/
theorem getAbsent_mounted {tag n : Nat} {s : State} (hload : ∀ ws, RecordSlot.loading n ws ∉ s.table.slots)
    (hcard : s.card.state = .ready ∨ s.card.state = .readOnly ∨ s.card.state = .ejecting) :
    (s.card.index.any (·.shot == n) = false → getAbsent tag n s = answerCode tag .notFound s) ∧
    (hitSlot s (PreviewSlot.stands s n) = none → getAbsent tag n s = answerCode tag .notFound s) ∧
    (∀ i, s.card.index.any (·.shot == n) = true → hitSlot s (PreviewSlot.stands s n) = some i →
      getAbsent tag n s = previewHit tag i s) := by
  have hmounted : s.card.state.mounted = true := by
    rcases hcard with h | h | h <;> rw [h] <;> rfl
  unfold getAbsent
  rw [loadingFor_eq_false hload, hmounted, if_neg nofun, if_neg nofun]
  refine ⟨fun h => if_pos h, fun h => ?_, fun i hany h => ?_⟩
  · rw [h, ite_self]
  · rw [hany, h, if_neg nofun]

/-- A miss of a resident shot (R136 test 4, R113). -/
theorem getResident_miss {tag n : Nat} {s : State} {r : Record} (hr : findRecord s n = some r)
    (hlife : r.life = .held ∨ r.life = .settled)
    (hmiss : ∀ x ∈ s.cache.slots, ∀ w h st seed, x.state ≠ .valid (some (n, currentKey s r.recipe)) w h st seed) :
    getResident tag r s = service (placeWaiting tag n .preview (missPriority s r) s) := by
  obtain ⟨_, rfl⟩ := findRecord_mem hr
  refine getResident_none hlife (hitSlot_eq_none rfl ?_)
  intro x hx
  rw [Bool.eq_false_iff]
  intro hc
  obtain ⟨w, h, st, seed, e⟩ := carries_iff.1 hc
  exact hmiss x hx w h st seed e

/-- A hit of a resident shot (R136 test 3). -/
theorem getResident_hit {tag n i : Nat} {older newer : List Nat} {x : PreviewSlot} {s : State} {r : Record}
    (hr : findRecord s n = some r) (hlife : r.life = .held ∨ r.life = .settled)
    (huse : s.cache.useOrder = older ++ i :: newer) (hx : s.cache.slots[i]? = some x)
    (hvalid : ∃ w h st seed, x.state = .valid (some (n, currentKey s r.recipe)) w h st seed)
    (hnewer : ∀ j ∈ newer, ∀ y, s.cache.slots[j]? = some y → ∀ w h st seed,
      y.state ≠ .valid (some (n, currentKey s r.recipe)) w h st seed) : getResident tag r s = previewHit tag i s := by
  obtain ⟨_, rfl⟩ := findRecord_mem hr
  refine getResident_some hlife (hitSlot_eq_some huse ?_ ?_)
  · rw [previewSlot_eq hx]
    exact carries_iff.2 hvalid
  · intro j hj
    refine previewSlot_fails rfl fun y hy => Bool.eq_false_iff.2 fun hc => ?_
    obtain ⟨w, h, st, seed, e⟩ := carries_iff.1 hc
    exact hnewer j hj y hy w h st seed e

/-- A hit of a shot on the card alone (R137 test 4). -/
theorem getAbsent_hit {tag n i : Nat} {older newer : List Nat} {x : PreviewSlot} {s : State}
    (hload : ∀ ws, RecordSlot.loading n ws ∉ s.table.slots)
    (hcard : s.card.state = .ready ∨ s.card.state = .readOnly ∨ s.card.state = .ejecting)
    (hindex : ∃ x ∈ s.card.index, x.shot = n)
    (huse : s.cache.useOrder = older ++ i :: newer) (hx : s.cache.slots[i]? = some x) (hstands : Stands s n x)
    (hnewer : ∀ j ∈ newer, ∀ y, s.cache.slots[j]? = some y → ¬ Stands s n y) :
    getAbsent tag n s = previewHit tag i s := by
  obtain ⟨e, he, hshot⟩ := hindex
  have hany : s.card.index.any (·.shot == n) = true := List.any_eq_true.2 ⟨e, he, beq_iff_eq.2 hshot⟩
  refine (getAbsent_mounted hload hcard).2.2 i hany (hitSlot_eq_some huse ?_ ?_)
  · rw [previewSlot_eq hx]
    exact stands_iff.2 hstands
  · exact fun j hj => previewSlot_fails rfl fun y hy => Bool.eq_false_iff.2 fun hc => hnewer j hj y hy (stands_iff.1 hc)

theorem getAbsent_miss {tag n : Nat} {s : State} (hload : ∀ ws, RecordSlot.loading n ws ∉ s.table.slots)
    (hcard : s.card.state = .ready ∨ s.card.state = .readOnly ∨ s.card.state = .ejecting)
    (hmiss : ∀ x ∈ s.cache.slots, ¬ Stands s n x) : getAbsent tag n s = answerCode tag .notFound s :=
  (getAbsent_mounted hload hcard).2.1
    (hitSlot_eq_none rfl fun x hx => Bool.eq_false_iff.2 fun hc => hmiss x hx (stands_iff.1 hc))

theorem getAbsent_noCard {tag n : Nat} {s : State} (hload : ∀ ws, RecordSlot.loading n ws ∉ s.table.slots)
    (hready : s.card.state ≠ .ready) (honly : s.card.state ≠ .readOnly) (heject : s.card.state ≠ .ejecting) :
    getAbsent tag n s = answerCode tag .noCard s := by
  have hmounted : s.card.state.mounted = false := by
    unfold CardState.mounted
    split
    · next h => exact absurd h hready
    · next h => exact absurd h honly
    · next h => exact absurd h heject
    · rfl
  unfold getAbsent
  rw [loadingFor_eq_false hload, if_neg nofun, if_pos hmounted]

/-- Settles O37: a hit goes through the slot that the use order gives, a miss of a resident shot through the one PREVIEW
job of the shot, and a shot on the card alone through the slots that stand. -/
theorem getPreviewPinsHit : Obligations.GetPreviewPinsHit := by
  intro tag n s hcan
  refine ⟨fun h0 => next_taken hcan (if_pos h0), fun r hn hr hlife => ?_, fun r hn hr hlife => ?_,
    fun r k hn hr hlife hk => ⟨fun i older newer w h st seed pins huse _ hx hnewer => ?_, fun hmiss => ?_⟩,
    fun hn habs => ⟨fun ⟨ws, hws⟩ => ?_, fun hload =>
      ⟨fun h1 h2 h3 => ?_, fun hcard => ⟨fun hno => ?_, fun hindex => ⟨?_, fun hmiss => ?_⟩⟩⟩⟩⟩
  · rw [execGetPreview_resident hcan hn hr]
    unfold getResident
    rcases hlife with h | h <;> rw [h]
  · rw [execGetPreview_resident hcan hn hr]
    unfold getResident
    rw [hlife]
  · rw [execGetPreview_resident hcan hn hr]
    subst hk
    rw [getResident_hit (s := holdTag tag s) hr hlife huse hx ⟨w, h, st, seed, rfl⟩ hnewer]
    refine ⟨fun hp => congrArg _ (previewHit_full (s := holdTag tag s) hx hp), fun hp => ?_⟩
    obtain ⟨claim, hclaim, e⟩ := previewHit_pins (tag := tag) (s := holdTag tag s) hx hp
    exact ⟨claim, hclaim, congrArg _ e⟩
  · subst hk
    refine ⟨_, (execGetPreview_resident hcan hn hr).trans
      (congrArg _ (getResident_miss (s := holdTag tag s) hr hlife hmiss)), fun hnone => ⟨fun hfull => ?_,
      fun hroom he p hp => ?_⟩, fun he i j p honly hp => ?_⟩
    · rw [placeWaiting_full (s := holdTag tag s) hnone hfull]
      exact ⟨answered_service (answered_answer _ _ _ _),
        fun he => service_queueLength (s := answerCode tag .queueFull (holdTag tag s)) he⟩
    · rw [missPriority_eq (s := holdTag tag s) hp]
      exact miss_places (s := holdTag tag s) hr hnone hroom he
    · rw [missPriority_eq (s := holdTag tag s) hp]
      exact miss_merges (s := holdTag tag s) hr honly he
  · obtain ⟨i, hi⟩ := List.mem_iff_getElem?.1 hws
    rw [execGetPreview_absent hcan hn habs]
    unfold getAbsent
    rw [if_pos (loadingFor_of_slot (s := holdTag tag s) hi)]
  · rw [execGetPreview_absent hcan hn habs, getAbsent_noCard (s := holdTag tag s) hload h1 h2 h3]
  · have hany : s.card.index.any (·.shot == n) = false :=
      List.any_eq_false.2 fun x hx e => hno x hx (beq_iff_eq.1 e)
    rw [execGetPreview_absent hcan hn habs, (getAbsent_mounted (s := holdTag tag s) hload hcard).1 hany]
  · intro i older newer k w h seed pins huse _ hx hkey hnewer
    rw [execGetPreview_absent hcan hn habs, getAbsent_hit (s := holdTag tag s) hload hcard hindex huse hx
      ⟨k, w, h, seed, rfl, hkey⟩ hnewer]
    refine ⟨fun hp => congrArg _ (previewHit_full (s := holdTag tag s) hx hp), fun hp => ?_⟩
    obtain ⟨claim, hclaim, e⟩ := previewHit_pins (tag := tag) (s := holdTag tag s) hx hp
    exact ⟨claim, hclaim, congrArg _ e⟩
  · rw [execGetPreview_absent hcan hn habs, getAbsent_miss (s := holdTag tag s) hload hcard hmiss]

end Sys2Proof.RollTable
end

section
/-! The end of an exposure's readout (R64, R65, R80, R82, R84). -/

namespace Sys2Proof.RollTable
open Sys2Proof.Machine ShotTable

/-! ### A record through a matching pass (R102) -/

/-- A record has come through a part of a matching pass: its link alone may have changed, and where the numbers are
distinct one that waits still waits and another is as it was. -/
def PassedOn (z : Record) (s t : State) : Prop :=
  (NumbersDistinct s → NumbersDistinct t) ∧
  ∃ l, { z with darkLink := l } ∈ residents t ∧
    (NumbersDistinct s → (Waits z.darkLink → Waits l) ∧ (¬ Waits z.darkLink → l = z.darkLink))

theorem passedOn_refl {z : Record} {s : State} (h : z ∈ residents s) : PassedOn z s s :=
  ⟨id, z.darkLink, h, fun _ => ⟨id, fun _ => rfl⟩⟩

theorem passedOn_congr {z : Record} {s t u : State} (h : PassedOn z s t) (hu : u.table = t.table) : PassedOn z s u := by
  obtain ⟨hd, l, hl, hlink⟩ := h
  exact ⟨fun hs => numbersDistinct_congr hu (hd hs), l, by rw [residents_congr hu]; exact hl, hlink⟩

theorem numbersDistinct_updateRecord {n : Nat} {f : Record → Record} {s : State} (hf : ∀ r, (f r).number = r.number)
    (h : NumbersDistinct s) : NumbersDistinct (updateRecord n f s) :=
  numbersDistinct_map (keepsNumbers_mapRecord n hf) rfl h

theorem mem_residents_updateRecord {n : Nat} {f : Record → Record} {s : State} {r : Record} (h : r ∈ residents s) :
    (if r.number = n then f r else r) ∈ residents (updateRecord n f s) := by
  rw [residents_updateRecord]
  exact List.mem_map_of_mem (f := fun r => if r.number = n then f r else r) h

theorem passedOn_linkShot {z : Record} {s t : State} {e n : Nat} (h : PassedOn z s t) (hw : ShotWaits t n) :
    PassedOn z s (linkShot e t n) := by
  obtain ⟨hd, l, hl, hlink⟩ := h
  refine passedOn_congr (t := updateRecord n (fun r => { r with darkLink := .linked e }) t)
    ⟨fun hs => numbersDistinct_updateRecord (fun _ => rfl) (hd hs), ?_⟩ (linkShot_table e t n)
  have hmem := mem_residents_updateRecord (n := n) (f := fun r => { r with darkLink := .linked e }) hl
  by_cases hn : z.number = n
  · rw [if_pos hn] at hmem
    refine ⟨.linked e, hmem, fun hs => ⟨fun _ => .inr ⟨e, rfl⟩, fun hz => ?_⟩⟩
    obtain ⟨r, hr, hrn, hwaits⟩ := hw
    obtain rfl := resident_unique (hd hs) hr hl (hrn.trans hn.symm)
    exact absurd ((hlink hs).2 hz ▸ hwaits) hz
  · rw [if_neg hn] at hmem
    exact ⟨l, hmem, hlink⟩

theorem passedOn_matchingPass {z : Record} {s : State} (h : z ∈ residents s) : PassedOn z s (matchingPass s) :=
  matchingPass_preserves (P := PassedOn z s) (fun _ _ _ h hw => passedOn_linkShot h hw)
    (fun _ _ _ h _ => passedOn_congr h (by simp)) (passedOn_refl h)

/-! ### What follows an event -/

theorem record_service {P : Record → Prop} {s : State} (hP : ∀ y y', SameButRaw y y' → P y → P y')
    (he : s.card.state ≠ .ejecting) (h : ∃ y ∈ residents s, P y) : ∃ y ∈ residents (service s), P y := by
  obtain ⟨y, hy, hp⟩ := h
  obtain ⟨y', hy', hsame⟩ := slotsKept_record (slotsKept_serveBlocks s) hy
  rw [service_eq he]
  exact ⟨y', hy', hP y y' hsame hp⟩

/-- An engine at work dispatches nothing. -/
theorem service_active {s : State} {w : Work} (he : s.card.state ≠ .ejecting) (h : s.dev.engine = .active w) :
    (service s).dev.engine = .active w := by
  have hdev : (serveDarkClaim s).dev = s.dev := by simp
  have hmay : mayDispatch (serveDarkClaim s) = false := by
    unfold mayDispatch
    rw [hdev, h]
    rfl
  rw [service_eq he]
  unfold serveBlocks
  simp only [claimForDark_keeps, startCardWork_keeps]
  unfold attemptDispatch
  rw [hmay, if_neg nofun]
  exact (congrArg Dev.engine hdev).trans h

/-! ### The finish of a shot and its loss (R82, R84) -/

theorem placeJob_engine (n : Nat) (k : JobKind) (p : Nat) (tag : Option Nat) (s : State) :
    (placeJob n k p tag s).dev.engine = s.dev.engine := by
  unfold placeJob
  split <;> rfl

theorem autoJob_engine (n : Nat) (k : JobKind) (setting : Option Nat) (s : State) :
    (autoJob n k setting s).dev.engine = s.dev.engine := by
  unfold autoJob
  split
  · rfl
  · exact placeJob_engine _ _ _ _ s

theorem autoJobs_engine (n : Nat) (roll : Option Roll) (s : State) : (autoJobs n roll s).dev.engine = s.dev.engine :=
  (autoJob_engine _ _ _ _).trans (autoJob_engine _ _ _ _)

section

variable {n : Nat} {r : Record} {s : State}

theorem openRecord_eq (ho : s.seq.openShot = some n) (hr : findRecord s n = some r) : openRecord s = some r := by
  unfold openRecord
  rw [ho]
  exact hr

theorem finishShot_eq (ho : s.seq.openShot = some n) (hr : findRecord s n = some r) : finishShot s =
    idleSeq (autoJobs n (rollOf s r) (raiseShot .exposureDone n (matchingPass (holdShot s)))) := by
  unfold finishShot
  rw [openRecord_eq ho hr, ho]

theorem updateOpen_eq (ho : s.seq.openShot = some n) (f : Record → Record) : updateOpen f s = updateRecord n f s := by
  unfold updateOpen
  rw [ho]

theorem finishedRecord_freeScratch (s : State) : finishedRecord (freeScratch s) = finishedRecord s := by
  funext r
  unfold finishedRecord rollOf rollAt
  rw [(freeScratch_rest s).2.2.2]

theorem holdShot_table (ho : s.seq.openShot = some n) :
    (holdShot s).table = (updateRecord n (finishedRecord s) s).table := by
  obtain ⟨htable, hopen, _⟩ := freeScratch_rest s
  unfold holdShot
  rw [updateOpen_eq (hopen.trans ho), finishedRecord_freeScratch]
  unfold updateRecord
  rw [htable]

/-- The record of a shot that finishes, after the pass of the finish. -/
theorem finishShot_record (ho : s.seq.openShot = some n) (hr : findRecord s n = some r) :
    ∃ l, { finishedRecord s r with darkLink := l } ∈ residents (finishShot s) ∧ (NumbersDistinct s →
      (Waits (finishedRecord s r).darkLink → Waits l) ∧
      (¬ Waits (finishedRecord s r).darkLink → l = (finishedRecord s r).darkLink)) := by
  have htable := holdShot_table ho
  obtain ⟨hmem, hn⟩ := findRecord_mem hr
  have hheld := mem_residents_updateRecord (n := n) (f := finishedRecord s) hmem
  rw [if_pos hn, ← residents_congr htable] at hheld
  obtain ⟨_, l, hl, hlink⟩ := passedOn_matchingPass hheld
  have hfinish : (finishShot s).table = (matchingPass (holdShot s)).table := by
    rw [finishShot_eq ho hr]
    simp [raiseShot, raise, raiseCount]
  exact ⟨l, by rw [residents_congr hfinish]; exact hl,
    fun hd => hlink (numbersDistinct_congr htable (numbersDistinct_updateRecord (fun _ => rfl) hd))⟩

theorem finishShot_seq (ho : s.seq.openShot = some n) (hr : findRecord s n = some r) :
    (finishShot s).seq.openShot = none ∧ (finishShot s).seq.state = .idle := by
  rw [finishShot_eq ho hr]
  exact ⟨rfl, rfl⟩

theorem finishShot_raises (ho : s.seq.openShot = some n) (hr : findRecord s n = some r) :
    RaisedOnce .exposureDone (some (.shot n)) s (finishShot s) := by
  rw [finishShot_eq ho hr]
  exact raisedOnce_congr (raisedOnce_raise .exposureDone (some (.shot n)) (matchingPass (holdShot s))) (by simp)
    (by simp [raiseShot])

theorem finishShot_engine (ho : s.seq.openShot = some n) (hr : findRecord s n = some r) :
    (finishShot s).dev.engine = s.dev.engine := by
  rw [finishShot_eq ho hr]
  refine (autoJobs_engine n _ _).trans ?_
  simp [raiseShot, raise, raiseCount]

theorem voidShot_eq (ho : s.seq.openShot = some n) (hr : findRecord s n = some r) : voidShot s =
    idleSeq (raiseShot .shotVoid n (releasePlane r.rawPlane
      (updateRecord n (fun r => { r with life := .void, rawPlane := none }) s))) := by
  obtain ⟨_, hn⟩ := findRecord_mem hr
  unfold voidShot
  rw [openRecord_eq ho hr]
  dsimp only
  rw [updateOpen_eq ho, hn]

theorem voidShot_record (ho : s.seq.openShot = some n) (hr : findRecord s n = some r) :
    { r with life := .void, rawPlane := none } ∈ residents (voidShot s) := by
  obtain ⟨hmem, hn⟩ := findRecord_mem hr
  have hvoid := mem_residents_updateRecord (n := n) (f := fun r => { r with life := .void, rawPlane := none }) hmem
  rw [if_pos hn] at hvoid
  rw [voidShot_eq ho hr, residents_congr (s := updateRecord n (fun r => { r with life := .void, rawPlane := none }) s)
    (by simp [raiseShot, raise, raiseCount])]
  exact hvoid

theorem voidShot_seq (ho : s.seq.openShot = some n) (hr : findRecord s n = some r) :
    (voidShot s).seq.openShot = none ∧ (voidShot s).seq.state = .idle := by
  rw [voidShot_eq ho hr]
  exact ⟨rfl, rfl⟩

theorem voidShot_raises (ho : s.seq.openShot = some n) (hr : findRecord s n = some r) :
    RaisedOnce .shotVoid (some (.shot n)) s (voidShot s) := by
  rw [voidShot_eq ho hr]
  exact raisedOnce_congr (raisedOnce_raise .shotVoid (some (.shot n)) (releasePlane r.rawPlane
    (updateRecord n (fun r => { r with life := .void, rawPlane := none }) s))) (by simp [updateRecord]) rfl

theorem voidShot_dev (ho : s.seq.openShot = some n) (hr : findRecord s n = some r) : (voidShot s).dev = s.dev := by
  rw [voidShot_eq ho hr]
  simp [raiseShot, raise, raiseCount, updateRecord]

end

/-! ### ACCUMULATE (R80, R92) -/

theorem joinPau_mem (q : PauRequest) (s : State) : ∃ a ∈ (joinPau q s).pau, a.op = q.op ∧ a.shot = q.shot ∧
    a.source = q.source ∧ a.destination = q.destination := by
  unfold joinPau startPau
  split
  · exact ⟨q, by simp, rfl, rfl, rfl, rfl⟩
  · next i _ =>
    dsimp only
    by_cases hi : i = s.pau.length
    · refine ⟨PauRequest.started { s with pau := s.pau ++ [q] } q, List.mem_of_getElem? (i := i) ?_, rfl, rfl, rfl, rfl⟩
      rw [List.getElem?_modify_eq, hi, List.getElem?_concat_length]
      rfl
    · refine ⟨q, List.mem_of_getElem? (i := s.pau.length) ?_, rfl, rfl, rfl, rfl⟩
      rw [List.getElem?_modify_ne _ _ hi, List.getElem?_concat_length]

/-! ### The readout has ended (R65, R80, R82, R121) -/

/-- The entry is judged and the engine told. -/
def judged (f : ExpEntry → ExpEntry) (s : State) : State := readoutEnds (updateEntry f s)

/-- The readout has ended: the engine is resumed, and the entry of the shot is as it was judged. -/
structure ReadoutEnded (x : Record) (k : Nat) (f : ExpEntry → ExpEntry) (s t : State) : Prop where
  readout : t.dev.readout = false
  engine : ∀ w, s.dev.engine = .suspended w → t.dev.engine = .active w
  card : t.card = s.card
  record : ∃ y ∈ residents t, y.number = x.number ∧ y.exposures = (x.setEntry k f).exposures

/-- What an ended readout is in the state after its event. -/
theorem ReadoutEnded.service {x : Record} {k : Nat} {f : ExpEntry → ExpEntry} {s t : State} (h : ReadoutEnded x k f s t) :
    (service t).dev.readout = false ∧
    (∀ w, s.dev.engine = .suspended w → s.card.state ≠ .ejecting → (service t).dev.engine = .active w) ∧
    (s.card.state ≠ .ejecting → EntryBecomes x k f (service t)) := by
  refine ⟨by rw [service_devReadout, h.readout], fun w hw he => service_active (by rw [h.card]; exact he) (h.engine w hw),
    fun he e hx => ?_⟩
  obtain ⟨y, hy, hn, hexp⟩ := record_service (P := fun y => y.number = x.number ∧ y.exposures = (x.setEntry k f).exposures)
    (fun y y' hsame ⟨hn, hexp⟩ => by rw [hsame]; exact ⟨hn, hexp⟩) (by rw [h.card]; exact he) h.record
  refine ⟨y, hy, hn, ?_⟩
  rw [hexp, show (x.setEntry k f).exposures = x.exposures.modify (k - 1) f from rfl, List.getElem?_modify_eq, hx]
  rfl

section

variable {n : Nat} {x : Record} {s : State} {f : ExpEntry → ExpEntry}

theorem judged_seq (f : ExpEntry → ExpEntry) (s : State) : (judged f s).seq = s.seq := by
  unfold judged
  simp

theorem judged_notices (f : ExpEntry → ExpEntry) (s : State) : (judged f s).notices = s.notices := by
  unfold judged
  simp

theorem judged_rolls (f : ExpEntry → ExpEntry) (s : State) : (judged f s).rolls = s.rolls := by
  unfold judged
  simp

theorem judged_open (f : ExpEntry → ExpEntry) (ho : s.seq.openShot = some n) : (judged f s).seq.openShot = some n := by
  rw [judged_seq]
  exact ho

theorem judged_table (f : ExpEntry → ExpEntry) (ho : s.seq.openShot = some n) :
    (judged f s).table = (updateRecord n (Record.setEntry s.seq.k f) s).table := by
  unfold judged updateEntry
  rw [updateOpen_eq ho]
  simp

theorem judged_findRecord (f : ExpEntry → ExpEntry) (ho : s.seq.openShot = some n) (hx : findRecord s n = some x) :
    findRecord (judged f s) n = some (x.setEntry s.seq.k f) := by
  have hfind := findRecord_updateRecord (n := n) (f := Record.setEntry s.seq.k f) (fun _ => rfl) s
  rw [hx] at hfind
  unfold findRecord at hfind ⊢
  rw [residents_congr (judged_table f ho)]
  exact hfind

theorem judged_distinct (f : ExpEntry → ExpEntry) (ho : s.seq.openShot = some n) (h : NumbersDistinct s) :
    NumbersDistinct (judged f s) :=
  numbersDistinct_congr (judged_table f ho) (numbersDistinct_updateRecord (fun _ => rfl) h)

theorem judged_ended (f : ExpEntry → ExpEntry) (ho : s.seq.openShot = some n) (hx : findRecord s n = some x) :
    ReadoutEnded x s.seq.k f s (judged f s) where
  readout := rfl
  engine := fun w hw => by
    unfold judged readoutEnds
    dsimp only
    rw [show (updateEntry f s).dev = s.dev by simp, hw]
  card := by
    unfold judged
    simp
  record := ⟨_, (findRecord_mem (judged_findRecord f ho hx)).1, rfl, rfl⟩

theorem finishShot_ended (ho : s.seq.openShot = some n) (hx : findRecord s n = some x) :
    ReadoutEnded x s.seq.k f s (finishShot (judged f s)) := by
  have hjudged := judged_ended f ho hx
  have hopen := judged_open f ho
  have hfind := judged_findRecord f ho hx
  obtain ⟨l, hl, _⟩ := finishShot_record hopen hfind
  exact {
    readout := by rw [finishShot_devReadout, hjudged.readout]
    engine := fun w hw => (finishShot_engine hopen hfind).trans (hjudged.engine w hw)
    card := Eq.trans (by simp) hjudged.card
    record := ⟨_, hl, rfl, rfl⟩ }

theorem voidShot_ended (ho : s.seq.openShot = some n) (hx : findRecord s n = some x) :
    ReadoutEnded x s.seq.k f s (voidShot (judged f s)) := by
  have hjudged := judged_ended f ho hx
  have hopen := judged_open f ho
  have hfind := judged_findRecord f ho hx
  have hdev := voidShot_dev hopen hfind
  exact {
    readout := by rw [hdev, hjudged.readout]
    engine := fun w hw => by rw [hdev, hjudged.engine w hw]
    card := Eq.trans (by simp) hjudged.card
    record := ⟨_, voidShot_record hopen hfind, rfl, rfl⟩ }

/-- What leaves engine, card and records leaves the end of the readout. -/
theorem ReadoutEnded.congr {k : Nat} {t u : State} (h : ReadoutEnded x k f s t) (hdev : u.dev = t.dev)
    (hcard : u.card = t.card) (htable : u.table = t.table) : ReadoutEnded x k f s u where
  readout := by rw [hdev, h.readout]
  engine := fun w hw => by rw [hdev, h.engine w hw]
  card := hcard.trans h.card
  record := by
    rw [residents_congr htable]
    exact h.record

theorem waitForStack_ended (ho : s.seq.openShot = some n) (hx : findRecord s n = some x) :
    ReadoutEnded x s.seq.k f s (waitForStack (judged f s)) :=
  (judged_ended f ho hx).congr rfl rfl rfl

theorem requestAccumulate_ended (ho : s.seq.openShot = some n) (hx : findRecord s n = some x) :
    ReadoutEnded x s.seq.k f s (requestAccumulate (judged f s)) :=
  (judged_ended f ho hx).congr (by simp) (by simp) (by simp)

/-! ### A good readout (R80) -/

/-- The entry after a good readout. -/
def goodEntry (temperature : Int) (e : ExpEntry) : ExpEntry :=
  { e with status := .done, temperature := some temperature }

variable {temperature : Int}

theorem goodReadout_later (hk : 1 < s.seq.k) :
    goodReadout temperature s = requestAccumulate (judged (goodEntry temperature) s) := by
  have hk' : 1 < (judged (goodEntry temperature) s).seq.k := by rwa [judged_seq]
  exact if_pos hk'

theorem goodReadout_single (hk : s.seq.k ≤ 1) (ho : s.seq.openShot = some n) (hx : findRecord s n = some x)
    (hkind : x.kind = .single) : goodReadout temperature s = finishShot (judged (goodEntry temperature) s) := by
  have hk' : ¬ 1 < (judged (goodEntry temperature) s).seq.k := by rwa [judged_seq, Nat.not_lt]
  have hkindOf : (openRecord (judged (goodEntry temperature) s)).map Record.kind = some .single := by
    rw [openRecord_eq (judged_open _ ho) (judged_findRecord _ ho hx), ← hkind]
    rfl
  refine (if_neg hk').trans ?_
  split
  · next h => exact nomatch h.symm.trans hkindOf
  · rfl

theorem goodReadout_stack {target : Nat} (hk : s.seq.k ≤ 1) (ho : s.seq.openShot = some n)
    (hx : findRecord s n = some x) (hkind : x.kind = .stack target) :
    goodReadout temperature s = waitForStack (judged (goodEntry temperature) s) := by
  have hk' : ¬ 1 < (judged (goodEntry temperature) s).seq.k := by rwa [judged_seq, Nat.not_lt]
  have hkindOf : (openRecord (judged (goodEntry temperature) s)).map Record.kind = some (.stack target) := by
    rw [openRecord_eq (judged_open _ ho) (judged_findRecord _ ho hx), ← hkind]
    rfl
  refine (if_neg hk').trans ?_
  split
  · rfl
  · next h => exact absurd hkindOf (h target)

theorem goodReadout_ended (ho : s.seq.openShot = some n) (hx : findRecord s n = some x) :
    ReadoutEnded x s.seq.k (goodEntry temperature) s (goodReadout temperature s) := by
  rcases Nat.lt_or_ge 1 s.seq.k with hk | hk
  · rw [goodReadout_later hk]
    exact requestAccumulate_ended ho hx
  · cases hkind : x.kind with
    | single =>
      rw [goodReadout_single hk ho hx hkind]
      exact finishShot_ended ho hx
    | stack target =>
      rw [goodReadout_stack hk ho hx hkind]
      exact waitForStack_ended ho hx

end

/-- Work that follows leaves an idle sequencer idle, or takes it to DARK. -/
theorem service_idle {t : State} (h : t.seq.openShot = none ∧ t.seq.state = .idle) :
    (service t).seq.openShot = none ∧ ((service t).seq.state = .idle ∨ (service t).seq.state = .dark) := by
  rcases seqKept_service t with hseq | ⟨_, tm, hseq⟩
  · rw [hseq]
    exact ⟨h.1, .inl h.2⟩
  · rw [hseq]
    exact ⟨h.1, .inr rfl⟩

/-- A finish in the event of a readout raises EXPOSURE_DONE and leaves the sequencer idle. -/
theorem finishShot_served {n : Nat} {x : Record} {s : State} (f : ExpEntry → ExpEntry) (ho : s.seq.openShot = some n)
    (hx : findRecord s n = some x) :
    (service (finishShot (judged f s))).seq.openShot = none ∧
    ((service (finishShot (judged f s))).seq.state = .idle ∨ (service (finishShot (judged f s))).seq.state = .dark) ∧
    RaisedOnce .exposureDone (some (.shot n)) s (service (finishShot (judged f s))) := by
  obtain ⟨hopen, hstate⟩ := service_idle (finishShot_seq (judged_open f ho) (judged_findRecord f ho hx))
  exact ⟨hopen, hstate, raisedOnce_service (by decide)
    (raisedOnce_congr (finishShot_raises (judged_open f ho) (judged_findRecord f ho hx)) (judged_notices f s).symm rfl)⟩

/-! ### The link of a SINGLE that finishes (R33, R84) -/

theorem not_waits_notRequired : ¬ Waits .notRequired := by
  rintro (h | ⟨e, h⟩) <;> cases h

theorem linkByPolicy_of_pass {p : DarkPolicy} {d : Nat} {l : DarkLink} (hwaits : Waits (policyLink p d) → Waits l)
    (hstays : ¬ Waits (policyLink p d) → l = policyLink p d) : LinkByPolicy p d l := by
  cases p with
  | always => exact hwaits (.inl rfl)
  | never => exact hstays not_waits_notRequired
  | above t =>
    refine ⟨fun h => hwaits ?_, fun h => ?_⟩
    · have hlink : policyLink (.above t) d = .awaiting := if_pos h
      rw [hlink]
      exact .inl rfl
    · have hlink : policyLink (.above t) d = .notRequired := if_neg (Nat.not_lt.2 h)
      rw [hlink] at hstays
      exact hstays not_waits_notRequired

theorem longestDuration_one {x : Record} {e : ExpEntry} {d k : Nat} (temperature : Int) (hk : k ≤ 1)
    (he : x.exposures = [e]) (hd : e.duration = some d) :
    longestDuration (x.setEntry k (goodEntry temperature)) = some d := by
  have hexp : (x.setEntry k (goodEntry temperature)).exposures = [goodEntry temperature e] := by
    unfold Record.setEntry
    rw [he, Nat.sub_eq_zero_of_le hk]
    rfl
  unfold longestDuration longestEntry doneEntries
  rw [hexp]
  simp [goodEntry, hd]

/-- The record of a SINGLE after the event of its good readout. -/
theorem finishShot_single_record {n d i : Nat} {x : Record} {s : State} {e : ExpEntry} {m : RollSlot} {r : Roll}
    (temperature : Int) (hk : s.seq.k ≤ 1) (ho : s.seq.openShot = some n) (hx : findRecord s n = some x)
    (hdist : NumbersDistinct s) (hcard : s.card.state ≠ .ejecting) (he : x.exposures = [e]) (hd : e.duration = some d)
    (hslot : x.rollSlot = some i) (hm : s.rolls.slots[i]? = some m) (hr : m.roll? = some r) :
    ∃ y ∈ residents (service (finishShot (judged (goodEntry temperature) s))), y.number = n ∧ y.life = .held ∧
      y.rawPlane = x.rawPlane ∧ LinkByPolicy r.darkPolicy d y.darkLink := by
  obtain ⟨l, hl, hlink⟩ := finishShot_record (judged_open (goodEntry temperature) ho)
    (judged_findRecord (goodEntry temperature) ho hx)
  obtain ⟨hwaits, hstays⟩ := hlink (judged_distinct _ ho hdist)
  have hroll : rollOf (judged (goodEntry temperature) s) (x.setEntry s.seq.k (goodEntry temperature)) = some r := by
    unfold rollOf
    rw [show (x.setEntry s.seq.k (goodEntry temperature)).rollSlot = some i from hslot, Option.bind_some,
      rollAt_eq (by rw [judged_rolls]; exact hm), hr]
  have hpolicy : (finishedRecord (judged (goodEntry temperature) s)
      (x.setEntry s.seq.k (goodEntry temperature))).darkLink = policyLink r.darkPolicy d := by
    unfold finishedRecord
    rw [hroll, longestDuration_one temperature hk he hd]
    rfl
  rw [hpolicy] at hwaits hstays
  exact record_service
    (P := fun y => y.number = n ∧ y.life = .held ∧ y.rawPlane = x.rawPlane ∧ LinkByPolicy r.darkPolicy d y.darkLink)
    (fun y y' hsame hy => by rw [hsame]; exact hy)
    (by rw [(finishShot_ended (f := goodEntry temperature) ho hx).card]; exact hcard)
    ⟨_, hl, (findRecord_mem hx).2, rfl, rfl, linkByPolicy_of_pass hwaits hstays⟩

/-! ### READOUT_HEADER (R64, R65, R80, R82) -/

theorem exec_readoutHeader_stray {good : Bool} {columns rows : Nat} {temperature : Int} {s : State}
    (hreadout : s.seq.state ≠ .readout) (hdark : s.seq.state ≠ .darkReadout) :
    exec (.readoutHeader good columns rows temperature) s = .next s := by
  change execReadoutHeader good columns rows temperature s = .next s
  unfold execReadoutHeader
  split
  · next h => exact absurd h hreadout
  · next h => exact absurd h hdark
  · rfl

theorem exec_readoutHeader {good : Bool} {columns rows : Nat} {temperature : Int} {s : State} (h : s.seq.state = .readout) :
    exec (.readoutHeader good columns rows temperature) s = .next (service
      (if readoutGood s good columns rows then goodReadout temperature s else failedReadout s)) := by
  change execReadoutHeader good columns rows temperature s = _
  unfold execReadoutHeader
  rw [h]

theorem readoutGood_iff {good : Bool} {columns rows : Nat} {s : State} : readoutGood s good columns rows = true ↔
    good = true ∧ columns = s.seq.columns ∧ rows = s.seq.rows ∧ s.seq.samples = s.seq.columns * s.seq.rows := by
  unfold readoutGood sensorArea
  simp only [Bool.and_eq_true, beq_iff_eq, and_assoc]

/-- A STACK waits for its next exposure, for as long as its roll says (R80, R81). -/
theorem waitForStack_served {n i : Nat} {m : RollSlot} {r : Roll} {s : State} (f : ExpEntry → ExpEntry)
    (ho : s.seq.openShot = some n) (hi : s.rolls.current = some i) (hm : s.rolls.slots[i]? = some m)
    (hr : m.roll? = some r) :
    (service (waitForStack (judged f s))).seq.state = .stackWait ∧
    (service (waitForStack (judged f s))).seq.openShot = some n ∧
    (service (waitForStack (judged f s))).seq.stackWindow =
      some { start := s.timeBase, length := r.stackWindow * 1000000 } := by
  have hcurrent : currentRoll (judged f s) = some r := by
    unfold currentRoll
    rw [judged_rolls, hi, Option.bind_some, rollAt_eq (by rw [judged_rolls]; exact hm), hr]
  have htime : (judged f s).timeBase = s.timeBase := by
    unfold judged
    simp
  rw [service_seq (s := waitForStack (judged f s)) nofun]
  refine ⟨rfl, judged_open f ho, ?_⟩
  unfold waitForStack
  dsimp only
  rw [hcurrent, htime]
  rfl

/-- A later exposure of a STACK asks for its ACCUMULATE, from the scratch plane into the raw plane (R80, R92). -/
theorem requestAccumulate_served {n p q : Nat} {x : Record} {s : State} (f : ExpEntry → ExpEntry)
    (ho : s.seq.openShot = some n) (hx : findRecord s n = some x) (hp : x.rawPlane = some p) (hq : s.seq.scratch = some q) :
    (service (requestAccumulate (judged f s))).seq.state = .accumulate ∧
    (service (requestAccumulate (judged f s))).seq.openShot = some n ∧
    ∃ a ∈ (service (requestAccumulate (judged f s))).pau,
      a.op = .accumulate ∧ a.shot = n ∧ a.source = q ∧ a.destination = p := by
  have hopen := judged_open f ho
  have hseq : (requestAccumulate (judged f s)).seq = { (judged f s).seq with state := .accumulate, ending := none } := by
    unfold requestAccumulate
    simp
  have hplane : (openRecord (judged f s)).bind (·.rawPlane) = some p := by
    rw [openRecord_eq hopen (judged_findRecord f ho hx)]
    exact hp
  rw [service_seq (by rw [hseq]; nofun), hseq, (service_keeps (requestAccumulate (judged f s))).2.2.2.2.2.2.2.1]
  refine ⟨rfl, hopen, ?_⟩
  obtain ⟨a, ha, hop, hshot, hsource, hdest⟩ := joinPau_mem
    { op := .accumulate, shot := (judged f s).seq.openShot.getD 0, source := (judged f s).seq.scratch.getD 0,
      destination := ((openRecord (judged f s)).bind (·.rawPlane)).getD 0, resume := 0, running := false, scale := 0 }
    { judged f s with seq := { (judged f s).seq with state := .accumulate, ending := none } }
  refine ⟨a, ha, hop, ?_, ?_, ?_⟩
  · rw [hshot, hopen]
    rfl
  · rw [hsource, judged_seq, hq]
    rfl
  · rw [hdest, hplane]
    rfl

/-! ### A readout in error (R82) -/

/-- The entry after a readout in error. -/
def failedEntry (e : ExpEntry) : ExpEntry := { e with status := .failed }

section

variable {n : Nat} {x : Record} {s : State}

theorem failedReadout_later (hk : 1 < s.seq.k) : failedReadout s = finishShot (judged failedEntry s) := by
  have hk' : 1 < (judged failedEntry s).seq.k := by rwa [judged_seq]
  exact if_pos hk'

theorem failedReadout_first (hk : s.seq.k ≤ 1) : failedReadout s = voidShot (judged failedEntry s) := by
  have hk' : ¬ 1 < (judged failedEntry s).seq.k := by rwa [judged_seq, Nat.not_lt]
  exact if_neg hk'

theorem failedReadout_ended (ho : s.seq.openShot = some n) (hx : findRecord s n = some x) :
    ReadoutEnded x s.seq.k failedEntry s (failedReadout s) := by
  rcases Nat.lt_or_ge 1 s.seq.k with hk | hk
  · rw [failedReadout_later hk]
    exact finishShot_ended ho hx
  · rw [failedReadout_first hk]
    exact voidShot_ended ho hx

theorem failedReadout_seq (ho : s.seq.openShot = some n) (hx : findRecord s n = some x) :
    (failedReadout s).seq.openShot = none ∧ (failedReadout s).seq.state = .idle := by
  rcases Nat.lt_or_ge 1 s.seq.k with hk | hk
  · rw [failedReadout_later hk]
    exact finishShot_seq (judged_open _ ho) (judged_findRecord _ ho hx)
  · rw [failedReadout_first hk]
    exact voidShot_seq (judged_open _ ho) (judged_findRecord _ ho hx)

/-- A shot whose first readout fails is lost, and its plane freed (R82, R8). -/
theorem voidShot_served (ho : s.seq.openShot = some n) (hx : findRecord s n = some x) :
    RaisedOnce .shotVoid (some (.shot n)) s (service (voidShot (judged failedEntry s))) ∧
    (s.card.state ≠ .ejecting → ∃ y ∈ residents (service (voidShot (judged failedEntry s))),
      y.number = n ∧ y.life = .void ∧ y.rawPlane = none) := by
  have hopen := judged_open failedEntry ho
  have hfind := judged_findRecord failedEntry ho hx
  refine ⟨raisedOnce_service (by decide) (raisedOnce_congr (voidShot_raises hopen hfind) (judged_notices _ s).symm rfl),
    fun hcard => record_service (P := fun y => y.number = n ∧ y.life = .void ∧ y.rawPlane = none)
      (fun y y' hsame hy => by rw [hsame]; exact hy)
      (by rw [(voidShot_ended (f := failedEntry) ho hx).card]; exact hcard)
      ⟨_, voidShot_record hopen hfind, (findRecord_mem hx).2, rfl, rfl⟩⟩

end

/-- Settles O27: each end of a readout goes through the shot's record with its entry judged. -/
theorem readoutHeaderEndsReadout : Obligations.ReadoutHeaderEndsReadout := by
  intro good columns rows temperature s
  refine ⟨exec_readoutHeader_stray, fun n x hstate ho hx => ⟨_, exec_readoutHeader hstate, ?_⟩⟩
  cases hgood : readoutGood s good columns rows with
  | true =>
    rw [if_pos rfl]
    obtain ⟨hg, hc, hr, hs⟩ := readoutGood_iff.1 hgood
    obtain ⟨hreadout, hengine, hentry⟩ := (goodReadout_ended (temperature := temperature) ho hx).service
    refine ⟨hreadout, hengine, fun _ _ _ _ => ⟨hentry, fun hk hkind => ?_, fun target i m r hk hkind hi hm hr => ?_,
      fun p q hk hp hq => ?_⟩, fun hbad => ?_⟩
    · rw [goodReadout_single hk ho hx hkind]
      obtain ⟨hopen, hidle, hraised⟩ := finishShot_served (goodEntry temperature) ho hx
      exact ⟨hopen, hidle, hraised, fun e d i m r hdist hcard he hd hslot hm hr =>
        finishShot_single_record temperature hk ho hx hdist hcard he hd hslot hm hr⟩
    · rw [goodReadout_stack hk ho hx hkind]
      exact waitForStack_served (goodEntry temperature) ho hi hm hr
    · rw [goodReadout_later hk]
      exact requestAccumulate_served (goodEntry temperature) ho hx hp hq
    · rcases hbad with h | h | h | h
      · exact absurd hg (by rw [h]; nofun)
      · exact absurd hc h
      · exact absurd hr h
      · exact absurd hs h
  | false =>
    rw [if_neg nofun]
    obtain ⟨hreadout, hengine, hentry⟩ := (failedReadout_ended ho hx).service
    refine ⟨hreadout, hengine, fun hg hc hr hs => ?_, fun _ => ?_⟩
    · exact absurd (readoutGood_iff.2 ⟨hg, hc, hr, hs⟩) (by rw [hgood]; nofun)
    · obtain ⟨hopen, hidle⟩ := service_idle (failedReadout_seq ho hx)
      refine ⟨hopen, hidle, hentry, fun hk => ?_, fun hk => ?_⟩
      · rw [failedReadout_first hk]
        exact voidShot_served ho hx
      · rw [failedReadout_later hk]
        exact (finishShot_served failedEntry ho hx).2.2

end Sys2Proof.RollTable
end

section
/-! Steps: what a command may change in each block, and the limits that it keeps. -/

namespace Sys2Proof.StepLaws
open Sys2Proof.Machine

/-! ### The two relations -/

/-- What `BlocksChangeOnlyByTheirCommands` says of a command that takes `s` to `t`. -/
structure Leaves (c : Instr) (s t : State) : Prop where
  pending : t.pending = s.pending
  rolls : mayChangeRolls c = false → t.rolls = s.rolls
  recipes : mayChangeRecipes c = false → t.recipes = s.recipes
  lines : mayChangeSync c = false → SyncKeeps s.sync t.sync
  sync : mayChangeSync c = false → mayChangeTime c = false → t.sync = s.sync
  settings : mayChangeSyncSettings c = false → SyncSettingsKept s.sync t.sync
  wall : mayChangeWall c = false → t.wallOffset = s.wallOffset
  causes : mayChangeCauses c = false → t.causes = s.causes
  time : mayChangeTime c = false → t.timeBase = s.timeBase
  part : mayChangePart c = false → t.part = s.part ∨ (s.part = .restarting ∧ t.part = .running)
  own : changesOwnTable c = true → t.seq = s.seq ∧ t.pool = s.pool ∧ t.pau = s.pau ∧ t.mem = s.mem ∧
    t.table = s.table ∧ t.dark = s.dark ∧ t.dev = s.dev ∧ t.cache = s.cache ∧ t.card = s.card ∧ t.free = s.free

/-- The laws of `StepKeepsLimits` hold on from `s` to `t`. -/
structure Limits (s t : State) : Prop where
  current : CurrentRollOpen s → CurrentRollOpen t
  tags : TagsDistinct s → TagsDistinct t
  sizes : TablesKeepSize s → TablesKeepSize t
  queue : QueueWithinRoom s → QueueWithinRoom t
  pins : PinsWithinLimit s → PinsWithinLimit t
  floor : FloorInRange s → FloorInRange t
  samples : SamplesKeepUp s → SamplesKeepUp t

/-- A command may take `s` to `t`. -/
structure Allowed (c : Instr) (s t : State) : Prop where
  leaves : Leaves c s t
  limits : Limits s t

theorem syncKeeps_refl (x : Sync) : SyncKeeps x x :=
  ⟨⟨rfl, rfl, rfl, rfl⟩, ⟨rfl, rfl, rfl, rfl⟩, ⟨rfl, rfl, rfl, rfl⟩, rfl, rfl, rfl⟩

theorem lineKeeps_trans {x y z : SyncLine} (h : LineKeeps x y) (k : LineKeeps y z) : LineKeeps x z :=
  ⟨k.1.trans h.1, k.2.1.trans h.2.1, k.2.2.1.trans h.2.2.1, k.2.2.2.trans h.2.2.2⟩

theorem syncKeeps_trans {x y z : Sync} (h : SyncKeeps x y) (k : SyncKeeps y z) : SyncKeeps x z := by
  obtain ⟨hr, hx, ha, hrole, hwidth, hpulse⟩ := h
  obtain ⟨kr, kx, ka, krole, kwidth, kpulse⟩ := k
  exact ⟨lineKeeps_trans hr kr, lineKeeps_trans hx kx, lineKeeps_trans ha ka, krole.trans hrole, kwidth.trans hwidth,
    kpulse.trans hpulse⟩

theorem settingsKept_of_syncKeeps {x y : Sync} (h : SyncKeeps x y) : SyncSettingsKept x y := by
  obtain ⟨hr, hx, ha, hrole, hwidth, _⟩ := h
  exact ⟨⟨hr.1, hr.2.1⟩, ⟨hx.1, hx.2.1⟩, ⟨ha.1, ha.2.1⟩, hrole, hwidth⟩

theorem settingsKept_trans {x y z : Sync} (h : SyncSettingsKept x y) (k : SyncSettingsKept y z) :
    SyncSettingsKept x z := by
  obtain ⟨⟨hrp, hrc⟩, ⟨hxp, hxc⟩, ⟨hap, hac⟩, hrole, hwidth⟩ := h
  obtain ⟨⟨krp, krc⟩, ⟨kxp, kxc⟩, ⟨kap, kac⟩, krole, kwidth⟩ := k
  exact ⟨⟨krp.trans hrp, krc.trans hrc⟩, ⟨kxp.trans hxp, kxc.trans hxc⟩, ⟨kap.trans hap, kac.trans hac⟩,
    krole.trans hrole, kwidth.trans hwidth⟩

theorem Leaves.trans {c : Instr} {s t u : State} (h : Leaves c s t) (k : Leaves c t u) : Leaves c s u where
  pending := k.pending.trans h.pending
  rolls hc := (k.rolls hc).trans (h.rolls hc)
  recipes hc := (k.recipes hc).trans (h.recipes hc)
  lines hc := syncKeeps_trans (h.lines hc) (k.lines hc)
  sync hc ht := (k.sync hc ht).trans (h.sync hc ht)
  settings hc := settingsKept_trans (h.settings hc) (k.settings hc)
  wall hc := (k.wall hc).trans (h.wall hc)
  causes hc := (k.causes hc).trans (h.causes hc)
  time hc := (k.time hc).trans (h.time hc)
  part hc := by
    rcases h.part hc with h | ⟨hs, ht⟩
    · rcases k.part hc with k | ⟨ht, hu⟩
      · exact .inl (k.trans h)
      · exact .inr ⟨h ▸ ht, hu⟩
    · rcases k.part hc with k | ⟨_, hu⟩
      · exact .inr ⟨hs, k.trans ht⟩
      · exact .inr ⟨hs, hu⟩
  own hc := by
    obtain ⟨h1, h2, h3, h4, h5, h6, h7, h8, h9, h10⟩ := h.own hc
    obtain ⟨k1, k2, k3, k4, k5, k6, k7, k8, k9, k10⟩ := k.own hc
    exact ⟨k1.trans h1, k2.trans h2, k3.trans h3, k4.trans h4, k5.trans h5, k6.trans h6, k7.trans h7, k8.trans h8,
      k9.trans h9, k10.trans h10⟩

theorem Limits.trans {s t u : State} (h : Limits s t) (k : Limits t u) : Limits s u :=
  ⟨k.current ∘ h.current, k.tags ∘ h.tags, k.sizes ∘ h.sizes, k.queue ∘ h.queue, k.pins ∘ h.pins, k.floor ∘ h.floor,
    k.samples ∘ h.samples⟩

theorem Allowed.trans {c : Instr} {s t u : State} (h : Allowed c s t) (k : Allowed c t u) : Allowed c s u :=
  ⟨h.leaves.trans k.leaves, h.limits.trans k.limits⟩

/-! ### Changes of the Link Port and the Notice Unit alone -/

/-- Only the Link Port and the Notice Unit have changed, and neither the HELD tags nor the number of kinds. -/
structure Told (s t : State) : Prop where
  rest : t = { s with link := t.link, notices := t.notices }
  held : t.link.held = s.link.held
  kinds : t.notices.kinds.length = s.notices.kinds.length

/-- The blocks but for the Link Port and the Notice Unit are as they were. -/
theorem leaves_of_rest {c : Instr} {s : State} (l : Link) (n : Notices) : Leaves c s { s with link := l, notices := n } where
  pending := rfl
  rolls _ := rfl
  recipes _ := rfl
  lines _ := syncKeeps_refl _
  sync _ _ := rfl
  settings _ := settingsKept_of_syncKeeps (syncKeeps_refl _)
  wall _ := rfl
  causes _ := rfl
  time _ := rfl
  part _ := .inl rfl
  own _ := ⟨rfl, rfl, rfl, rfl, rfl, rfl, rfl, rfl, rfl, rfl⟩

theorem Told.allowed {c : Instr} {s t : State} (h : Told s t) : Allowed c s t := by
  obtain ⟨rest, held, kinds⟩ := h
  rw [rest]
  refine ⟨leaves_of_rest _ _, id, fun ⟨hn, h7⟩ => ⟨?_, ?_⟩, fun ⟨h1, h2, h3, h4, h5, h6, h7⟩ =>
    ⟨h1, h2, h3, h4, h5, h6, kinds.trans h7⟩, id, id, id, id⟩
  · exact held ▸ hn
  · exact held ▸ h7

theorem told_refl (s : State) : Told s s := ⟨rfl, rfl, rfl⟩

theorem Allowed.refl (c : Instr) (s : State) : Allowed c s s := (told_refl s).allowed

theorem told_link {s : State} {l : Link} (h : l.held = s.link.held) : Told s { s with link := l } := ⟨rfl, h, rfl⟩

theorem told_answer (tag : Nat) (r : ResultCode) (p : Payload) (s : State) : Told s (answer tag r p s) := told_link rfl

theorem told_answerCode (tag : Nat) (r : ResultCode) (s : State) : Told s (answerCode tag r s) := told_link rfl

theorem told_notices {s : State} {n : Notices} (h : n.kinds.length = s.notices.kinds.length) :
    Told s { s with notices := n } := ⟨rfl, rfl, h⟩

theorem told_raise (k : NoticeKind) (x : Option Subject) (s : State) : Told s (raise k x s) :=
  told_notices (List.length_modify ..)

theorem told_discardPacket (s : State) : Told s (discardPacket s) := ⟨rfl, rfl, List.length_modify ..⟩

theorem told_answerTagBusy (tag : Nat) (s : State) : Told s (answerTagBusy tag s) := by
  unfold answerTagBusy
  split
  · exact told_link rfl
  · exact told_discardPacket s

/-! ### Work inside the blocks -/

/-- What work inside the blocks leaves as it was: the queue of commands, the Roll Table and the recipes, the Sync Unit, the
clock, the causes, the part state, the HELD tags and the floor; the tables keep their sizes, and the queue and the pins their
limits. -/
def Inner (s t : State) : Prop :=
  (t.pending = s.pending ∧ t.rolls = s.rolls ∧ t.recipes = s.recipes ∧ t.sync = s.sync ∧
    t.wallOffset = s.wallOffset ∧ t.causes = s.causes ∧ t.timeBase = s.timeBase ∧ t.part = s.part) ∧
  t.link.held = s.link.held ∧ t.table.slots.length = s.table.slots.length ∧
  t.dark.entries.length = s.dark.entries.length ∧ t.pool.owners.length = s.pool.owners.length ∧
  t.cache.slots.length = s.cache.slots.length ∧ t.notices.kinds.length = s.notices.kinds.length ∧
  t.dev.floor = s.dev.floor ∧ (QueueGood s.dev.queue → QueueGood t.dev.queue) ∧
  (PinsGood s.cache.slots → PinsGood t.cache.slots)

theorem Inner.allowed {c : Instr} {s t : State} (h : Inner s t) (hc : changesOwnTable c = false) : Allowed c s t := by
  obtain ⟨⟨hpending, hrolls, hrecipes, hsync, hwall, hcauses, htime, hpart⟩, hheld, hslots, hentries, howners, hpreviews,
    hkinds, hfloor, hqueue, hpins⟩ := h
  constructor
  · exact {
      pending := hpending
      rolls := fun _ => hrolls
      recipes := fun _ => hrecipes
      lines := fun _ => hsync ▸ syncKeeps_refl _
      sync := fun _ _ => hsync
      settings := fun _ => hsync ▸ settingsKept_of_syncKeeps (syncKeeps_refl _)
      wall := fun _ => hwall
      causes := fun _ => hcauses
      time := fun _ => htime
      part := fun _ => .inl hpart
      own := fun h => by simp [hc] at h }
  · exact {
      current := by unfold CurrentRollOpen; rw [hrolls]; exact id
      tags := by unfold TagsDistinct; rw [hheld]; exact id
      sizes := by
        unfold TablesKeepSize
        rw [hslots, hrolls, hrecipes, hentries, howners, hpreviews, hkinds]
        exact id
      queue := hqueue
      pins := hpins
      floor := by unfold FloorInRange; rw [hfloor]; exact id
      samples := by unfold SamplesKeepUp; rw [hsync, htime]; exact id }

theorem Allowed.inner {c : Instr} {s t u : State} (h : Allowed c s t) (k : Inner t u)
    (hc : changesOwnTable c = false) : Allowed c s u := h.trans (k.allowed hc)

theorem inner_service (s : State) : Inner s (service s) := by simp +contextual [Inner]

theorem Allowed.service {c : Instr} {s t : State} (h : Allowed c s t) (hc : changesOwnTable c = false) :
    Allowed c s (service t) := h.inner (inner_service t) hc

theorem Allowed.told {c : Instr} {s t u : State} (h : Allowed c s t) (k : Told t u) : Allowed c s u := h.trans k.allowed

/-! ### One block changed -/

theorem allowed_rolls {c : Instr} {s : State} {r : Rolls} (hlen : r.slots.length = s.rolls.slots.length)
    (hgood : RollsGood s.rolls → RollsGood r) (hc : mayChangeRolls c = true) : Allowed c s { s with rolls := r } where
  leaves := { leaves_of_rest s.link s.notices with rolls := fun h => by simp [hc] at h }
  limits := { (told_refl s).allowed.limits (c := c) with
    current := hgood
    sizes := fun ⟨h1, h2, h3⟩ => ⟨h1, hlen.trans h2, h3⟩ }

theorem allowed_recipes {c : Instr} {s : State} {l : List Recipe} (hlen : l.length = s.recipes.length)
    (hc : mayChangeRecipes c = true) : Allowed c s { s with recipes := l } where
  leaves := { leaves_of_rest s.link s.notices with recipes := fun h => by simp [hc] at h }
  limits := { (told_refl s).allowed.limits (c := c) with sizes := fun ⟨h1, h2, h3, h4⟩ => ⟨h1, h2, hlen.trans h3, h4⟩ }

/-- The Sync Unit changed, its latest sample kept, by a command that may. -/
theorem allowed_sync {c : Instr} {s : State} {x : Sync} (hlast : x.lastSample = s.sync.lastSample)
    (hset : mayChangeSyncSettings c = false → SyncSettingsKept s.sync x) (hc : mayChangeSync c = true) :
    Allowed c s { s with sync := x } where
  leaves := { leaves_of_rest s.link s.notices with
    lines := fun h => by simp [hc] at h
    sync := fun h => by simp [hc] at h
    settings := hset }
  limits := { (told_refl s).allowed.limits (c := c) with
    samples := fun ⟨hm, hd⟩ => by
      unfold SamplesKeepUp
      dsimp only
      rw [hlast]
      exact ⟨hm, hd⟩ }

theorem allowed_wall {c : Instr} {s : State} (w : Int) (hc : mayChangeWall c = true) :
    Allowed c s { s with wallOffset := w } where
  leaves := { leaves_of_rest s.link s.notices with wall := fun h => by simp [hc] at h }
  limits := { (told_refl s).allowed.limits (c := c) with }

theorem allowed_causes {c : Instr} {s : State} (x : Causes) (hc : mayChangeCauses c = true) :
    Allowed c s { s with causes := x } where
  leaves := { leaves_of_rest s.link s.notices with causes := fun h => by simp [hc] at h }
  limits := { (told_refl s).allowed.limits (c := c) with }

theorem allowed_part {c : Instr} {s : State} (p : PartState)
    (hp : mayChangePart c = false → s.part = .restarting ∧ p = .running) : Allowed c s { s with part := p } where
  leaves := { leaves_of_rest s.link s.notices with part := fun h => .inr (hp h) }
  limits := { (told_refl s).allowed.limits (c := c) with }

/-- A Link Port whose HELD tags meet their law when they did. -/
theorem allowed_link {c : Instr} {s : State} (l : Link)
    (h : TagsDistinct s → l.held.Nodup ∧ ∀ t ∈ l.held, t ≤ 7) : Allowed c s { s with link := l } where
  leaves := leaves_of_rest l s.notices
  limits := { (told_refl s).allowed.limits (c := c) with tags := h }

theorem allowed_floor {c : Instr} {s : State} {f : Nat} (h1 : 1 ≤ f) (h7 : f ≤ 7)
    (hc : changesOwnTable c = false) : Allowed c s { s with dev := { s.dev with floor := f } } where
  leaves := { leaves_of_rest s.link s.notices with own := fun h => by simp [hc] at h }
  limits := { (told_refl s).allowed.limits (c := c) with floor := fun _ => ⟨h1, h7⟩ }

/-! ### Outcomes and requests -/

/-- What a command makes of `s` it may make. -/
def NextAllowed (c : Instr) (s : State) (o : Host.Outcome State Fault Refusal) : Prop := ∀ t, o = .next t → Allowed c s t

theorem nextAllowed_next {c : Instr} {s t : State} (h : Allowed c s t) : NextAllowed c s (.next t) := by
  rintro u ⟨⟩
  exact h

theorem Allowed.next {c : Instr} {s t : State} {o : Host.Outcome State Fault Refusal} (h : Allowed c s t)
    (k : NextAllowed c t o) : NextAllowed c s o := fun u hu => h.trans (k u hu)

theorem holdTag_allowed {c : Instr} {tag : Nat} {s : State} (h7 : tag ≤ 7) (hfree : tag ∉ s.link.held) :
    Allowed c s (holdTag tag s) := by
  refine allowed_link _ fun ⟨hn, hall⟩ => ⟨?_, ?_⟩
  · exact List.concat_eq_append ▸ List.Nodup.concat hfree hn
  · intro t ht
    rcases List.mem_append.1 ht with ht | ht
    · exact hall t ht
    · exact List.mem_singleton.1 ht ▸ h7

theorem takeRequest_allowed {c : Instr} {tag : Nat} {always : Bool} {body : State → State} {s : State}
    (h : tag ≤ 7 → ∀ u, Allowed c u (body u)) : NextAllowed c s (.next (takeRequest tag always body s)) :=
  nextAllowed_next (takeRequest_elim (Allowed c s) tag always body s (told_discardPacket s).allowed
    (fun _ _ => (told_answerTagBusy tag s).allowed) (fun h7 hfree => (holdTag_allowed h7 hfree).trans (h h7 _))
    (fun h7 hfree => (holdTag_allowed h7 hfree).told (told_answerCode tag .busy _)))

end Sys2Proof.StepLaws
end

section
/-! Steps: time, samples, starts and edges. -/

namespace Sys2Proof.StepLaws
open Sys2Proof.Machine

/-! ### Time and the samples it passes -/

theorem hold_lineKeeps (n : Nat) (t : Time) (l : SyncLine) : LineKeeps l (l.hold n t) := by
  unfold SyncLine.hold
  split
  · exact ⟨rfl, rfl, rfl, rfl⟩
  · split <;> exact ⟨rfl, rfl, rfl, rfl⟩

theorem pass_syncKeeps (t : Time) (x : Sync) : SyncKeeps x (x.pass t) := by
  unfold Sync.pass
  split
  · exact syncKeeps_refl x
  · exact ⟨hold_lineKeeps _ _ _, hold_lineKeeps _ _ _, hold_lineKeeps _ _ _, rfl, rfl, rfl⟩

theorem pass_lastSample (t : Time) (x : Sync) :
    (x.pass t).lastSample = x.lastSample + BitVec.ofNat 48 (4 * x.passed t) := by
  unfold Sync.pass
  split
  · next h => simp [h]
  · rfl

/-- The samples that a value of the Time Base leaves behind are taken, at multiples of 4, the last of them less than five
microseconds back. -/
theorem pass_keepsUp (t : Time) {x : Sync} (hx : x.lastSample.toNat % 4 = 0) :
    (x.pass t).lastSample.toNat % 4 = 0 ∧ (t - (x.pass t).lastSample).toNat ≤ 4 := by
  rw [pass_lastSample]
  unfold Sync.passed
  bv_omega

/-- The Time Base moved on, the lines sampled on the way. -/
theorem allowed_time {c : Instr} {s : State} {t : Time} {x : Sync} (hc : mayChangeTime c = true)
    (hlines : mayChangeSync c = false → SyncKeeps s.sync x) (hset : SyncSettingsKept s.sync x)
    (hsamples : s.sync.lastSample.toNat % 4 = 0 → x.lastSample.toNat % 4 = 0 ∧ (t - x.lastSample).toNat ≤ 4) :
    Allowed c s { s with timeBase := t, sync := x } where
  leaves := { leaves_of_rest s.link s.notices with
    lines := hlines
    sync := fun _ h => by simp [hc] at h
    settings := fun _ => hset
    time := fun h => by simp [hc] at h }
  limits := { (told_refl s).allowed.limits (c := c) with samples := fun ⟨hm, _⟩ => hsamples hm }

theorem setTime_allowed {c : Instr} (t : Time) (s : State) (hc : mayChangeTime c = true) : Allowed c s (s.setTime t) :=
  allowed_time hc (fun _ => pass_syncKeeps t s.sync) (settingsKept_of_syncKeeps (pass_syncKeeps t s.sync)) (pass_keepsUp t)

theorem advanceTo_allowed {c : Instr} (t : Time) (s : State) (hc : mayChangeTime c = true) :
    Allowed c s (s.advanceTo t) := by
  unfold State.advanceTo
  split
  · exact setTime_allowed t s hc
  · exact .refl c s

/-! ### The release pulse -/

/-- The Sync Unit but for its release pulse. -/
def unpulsed (x : Sync) : Sync := { x with pulseEnd := none }

@[simp] theorem beginExposure_unpulsed (k : Start) (roll : Roll) (s : State) :
    unpulsed (beginExposure k roll s).sync = unpulsed s.sync := by
  cases k with
  | release => rfl
  | fire => rfl
  | timed d => simp [beginExposure]

@[simp] theorem createShot_unpulsed (k : Start) (rollSlot : Nat) (roll : Roll) (slot : Nat) (c : Nat × Option Nat)
    (s : State) : unpulsed (createShot k rollSlot roll slot c s).sync = unpulsed s.sync := by
  simp [createShot]

@[simp] theorem claimStart_unpulsed (k : Start) (rollSlot : Nat) (roll : Roll) (s : State) :
    unpulsed (claimStart k rollSlot roll s).2.sync = unpulsed s.sync := by
  unfold claimStart
  dsimp only
  repeat' split
  all_goals simp

@[simp] theorem startIdle_unpulsed (k : Start) (s : State) : unpulsed (startIdle k s).2.sync = unpulsed s.sync := by
  unfold startIdle
  repeat' split
  all_goals simp

@[simp] theorem startDark_unpulsed (k : Start) (s : State) : unpulsed (startDark k s).2.sync = unpulsed s.sync := by
  unfold startDark
  repeat' split
  all_goals simp

@[simp] theorem startArmed_unpulsed (k : Start) (s : State) : unpulsed (startArmed k s).2.sync = unpulsed s.sync := by
  unfold startArmed
  split
  all_goals rfl

@[simp] theorem startStack_unpulsed (k : Start) (s : State) : unpulsed (startStack k s).2.sync = unpulsed s.sync := by
  unfold startStack nextExposure
  dsimp only
  repeat' split
  all_goals simp

@[simp] theorem decideStart_unpulsed (k : Start) (s : State) : unpulsed (decideStart k s).2.sync = unpulsed s.sync := by
  unfold decideStart
  split
  all_goals simp

theorem lastSample_of_unpulsed {x y : Sync} (h : unpulsed y = unpulsed x) : y.lastSample = x.lastSample :=
  (congrArg Sync.lastSample h :)

theorem settingsKept_of_unpulsed {x y : Sync} (h : unpulsed y = unpulsed x) : SyncSettingsKept x y := by
  have hr : y.release = x.release := (congrArg Sync.release h :)
  have hx : y.xsync = x.xsync := (congrArg Sync.xsync h :)
  have ha : y.aux = x.aux := (congrArg Sync.aux h :)
  have hrole : y.auxRole = x.auxRole := (congrArg Sync.auxRole h :)
  have hwidth : y.reloutWidth = x.reloutWidth := (congrArg Sync.reloutWidth h :)
  exact ⟨⟨hr ▸ rfl, hr ▸ rfl⟩, ⟨hx ▸ rfl, hx ▸ rfl⟩, ⟨ha ▸ rfl, ha ▸ rfl⟩, hrole, hwidth⟩

/-! ### Starts and edges -/

/-- A command that may begin a shot. -/
def StartsShots (c : Instr) : Prop :=
  mayChangeRolls c = true ∧ mayChangeSync c = true ∧ changesOwnTable c = false

/-- A start may change the rolls and the release pulse, and otherwise what work inside the blocks may change. -/
theorem allowed_start {c : Instr} {s t : State} (hc : StartsShots c) (hrolls : RollsGood s.rolls → RollsGood t.rolls)
    (hlen : t.rolls.slots.length = s.rolls.slots.length) (hsync : unpulsed t.sync = unpulsed s.sync)
    (h : Inner s { t with rolls := s.rolls, sync := s.sync }) : Allowed c s t :=
  ((h.allowed hc.2.2).trans (allowed_rolls hlen hrolls hc.1)).trans
    (allowed_sync (x := t.sync) (lastSample_of_unpulsed hsync) (fun _ => settingsKept_of_unpulsed hsync) hc.2.1)

theorem decideStart_allowed {c : Instr} (k : Start) (s : State) (hc : StartsShots c) : Allowed c s (decideStart k s).2 :=
  allowed_start hc (fun h => by simp [h]) (by simp) (by simp) (by simp +contextual [Inner])

theorem release_allowed {c : Instr} (s : State) (hc : StartsShots c) : Allowed c s (release s) := by
  unfold release
  dsimp only
  split
  · exact decideStart_allowed .release s hc
  · exact (decideStart_allowed .release s hc).told (told_raise ..)

theorem deliver_allowed {c : Instr} (i : SyncInput) (level : Contact) (t : Time) (s : State) (hc : StartsShots c) :
    Allowed c s (deliver i level t s) := by
  unfold deliver
  split
  · exact release_allowed s hc
  · exact .refl c s
  · exact Inner.allowed (by simp +contextual [Inner]) hc.2.2
  · exact Inner.allowed (by simp +contextual [Inner]) hc.2.2
  · exact .refl c s
  · split
    · exact .refl c s
    · exact Inner.allowed (by simp +contextual [Inner]) hc.2.2
    · exact release_allowed s hc

theorem setLine_settings {i : SyncInput} {l : SyncLine} {x : Sync} (h : LineSettingsKept (x.line i) l) :
    SyncSettingsKept x (x.setLine i l) := by
  cases i with
  | release => exact ⟨h, ⟨rfl, rfl⟩, ⟨rfl, rfl⟩, rfl, rfl⟩
  | xsync => exact ⟨⟨rfl, rfl⟩, h, ⟨rfl, rfl⟩, rfl, rfl⟩
  | aux => exact ⟨⟨rfl, rfl⟩, ⟨rfl, rfl⟩, h, rfl, rfl⟩

theorem setLine_lastSample (i : SyncInput) (l : SyncLine) (x : Sync) : (x.setLine i l).lastSample = x.lastSample := by
  cases i <;> rfl

theorem qualify_allowed {c : Instr} (i : SyncInput) (s : State) (hc : StartsShots c) (ht : mayChangeTime c = true) :
    Allowed c s (qualify i s) := by
  have hline : Allowed c s (setLine i (s.sync.line i).accept s) :=
    allowed_sync (setLine_lastSample ..) (fun _ => setLine_settings ⟨rfl, rfl⟩) hc.2.1
  unfold qualify
  dsimp only
  split
  · have hat := hline.trans (advanceTo_allowed (((s.sync.line i).runStart.getD s.timeBase) +
      BitVec.ofNat 48 (4 * (s.sync.line i).count)) _ ht)
    split
    · exact (hat.trans (deliver_allowed i _ _ _ hc)).service hc.2.2
    · exact hat
  · exact .refl c s

/-! ### A sample -/

theorem nextSample_mod (s : State) : (nextSample s).toNat % 4 = 0 := by
  have hmask : ((s.timeBase + 3#48) &&& ~~~3#48).toNat % 4 = 0 := by
    rw [BitVec.toNat_and, show 4 = 2 ^ 2 from rfl, Nat.and_mod_two_pow, show (~~~3#48 : Time).toNat % 2 ^ 2 = 0 by decide,
      Nat.and_zero]
  unfold nextSample
  dsimp only
  split
  · bv_omega
  · exact hmask

theorem sample_settings (t : Time) (pin : PinLevel) (l : SyncLine) : LineSettingsKept l (l.sample t pin) := by
  unfold SyncLine.sample
  dsimp only
  split
  · exact ⟨rfl, rfl⟩
  · split <;> exact ⟨rfl, rfl⟩

theorem mapLines_settings {f : SyncInput → SyncLine → SyncLine} (h : ∀ i l, LineSettingsKept l (f i l)) (s : State) :
    SyncSettingsKept s.sync (mapLines f s).sync := ⟨h _ _, h _ _, h _ _, rfl, rfl⟩

theorem takeSample_settings (gap : Nat) (pin : SyncInput → PinLevel) (s : State) :
    SyncSettingsKept s.sync (takeSample gap pin s).sync := by
  have hpass := settingsKept_of_syncKeeps (pass_syncKeeps (nextSample s) s.sync)
  have hsample : ∀ (t : Time) (u : State), SyncSettingsKept u.sync (mapLines (fun i l => l.sample t (pin i)) u).sync :=
    fun t => mapLines_settings fun i l => sample_settings t (pin i) l
  unfold takeSample
  dsimp only
  split
  · exact settingsKept_trans hpass (hsample _ _)
  · exact settingsKept_trans (settingsKept_trans hpass
      (mapLines_settings (fun _ _ => ⟨rfl, rfl⟩) { s with sync := s.sync.pass (nextSample s) })) (hsample _ _)

theorem takeSample_eq (gap : Nat) (pin : SyncInput → PinLevel) (s : State) : takeSample gap pin s =
    { s with timeBase := (takeSample gap pin s).timeBase, sync := (takeSample gap pin s).sync } := by
  unfold takeSample
  dsimp only
  split <;> rfl

theorem takeSample_allowed {c : Instr} (gap : Nat) (pin : SyncInput → PinLevel) (s : State) (hc : StartsShots c)
    (ht : mayChangeTime c = true) : Allowed c s (takeSample gap pin s) := by
  have hmod := nextSample_mod s
  rw [takeSample_eq]
  refine allowed_time ht (fun h => by simp [hc.2.1] at h) (takeSample_settings gap pin s) fun _ => ?_
  rw [show (takeSample gap pin s).timeBase = nextSample s + BitVec.ofNat 48 (4 * gap) from rfl,
    show (takeSample gap pin s).sync.lastSample = nextSample s + BitVec.ofNat 48 (4 * gap) from rfl]
  bv_omega

end Sys2Proof.StepLaws
end

section
/-! Steps: what each request may change (Table 11-3). -/

namespace Sys2Proof.StepLaws
open Sys2Proof.Machine

/-- The body of a request that answers and does no more. -/
theorem answered_allowed {c : Instr} {tag : Nat} {always : Bool} {body : State → State} {s : State}
    (h : ∀ u, Told u (body u)) : NextAllowed c s (.next (takeRequest tag always body s)) :=
  takeRequest_allowed fun _ u => (h u).allowed

/-! ### Reports -/

theorem badRequest_allowed (c : Instr) (tag : Nat) (s : State) : NextAllowed c s (execBadRequest tag s) :=
  answered_allowed fun u => told_answerCode tag .badRequest u

theorem status_allowed (tag : Nat) (s : State) : NextAllowed (.status tag) s (execStatus tag s) :=
  answered_allowed fun u => told_answer tag .ok _ u

theorem shotList_allowed (tag first maxCount : Nat) (label : Option Label) (s : State) :
    NextAllowed (.shotList tag first maxCount label) s (execShotList tag first maxCount label s) := by
  refine answered_allowed fun u => ?_
  split
  · exact told_answer tag .ok _ u
  · exact told_answerCode tag .badOperand u

theorem rollQuery_allowed (tag : Nat) (slot : Option Nat) (s : State) :
    NextAllowed (.rollQuery tag slot) s (execRollQuery tag slot s) := by
  refine answered_allowed fun u => ?_
  split
  · split
    · exact told_answerCode tag .badOperand u
    · exact told_answer tag .ok _ u
  · split
    · exact told_answerCode tag .noRoll u
    · exact told_answer tag .ok _ u

theorem recipeQuery_allowed (tag recipe : Nat) (s : State) :
    NextAllowed (.recipeQuery tag recipe) s (execRecipeQuery tag recipe s) := by
  refine answered_allowed fun u => ?_
  split
  · exact told_answerCode tag .badOperand u
  · exact told_answer tag .ok _ u

theorem told_readPinned (tag slot offset length : Nat) (x : PreviewSlot) (s : State) :
    Told s (readPinned tag slot offset length x s) := by
  unfold readPinned
  split
  · dsimp only
    split
    · exact told_answerCode tag .badOperand s
    · exact told_answer tag .ok _ s
  · exact told_answerCode tag .notPinned s

theorem readPreview_allowed (tag slot offset length : Nat) (s : State) :
    NextAllowed (.readPreview tag slot offset length) s (execReadPreview tag slot offset length s) := by
  refine answered_allowed fun u => ?_
  split
  · exact told_answerCode tag .badOperand u
  · split
    · exact told_answerCode tag .notPinned u
    · exact told_readPinned tag slot offset length _ u

theorem cardQuery_allowed (tag : Nat) (s : State) : NextAllowed (.cardQuery tag) s (execCardQuery tag s) :=
  answered_allowed fun u => told_answer tag .ok _ u

/-! ### Notices, causes, the clock and the Sync Unit -/

theorem takeNotice_allowed (tag : Nat) (s : State) : NextAllowed (.takeNotice tag) s (execTakeNotice tag s) := by
  refine takeRequest_allowed fun _ u => ?_
  split
  · exact (told_answer tag .ok _ u).allowed
  · split
    · exact .refl _ u
    · exact (told_notices (List.length_modify ..)).allowed.told (told_answer tag .ok _ (clearKind _ u))

/-- NOTICE_LEVELS: fifteen kinds stay fifteen, since it names fifteen levels. -/
theorem setLevels_allowed {c : Instr} {levels : List (Option Nat)} (floor : Option Nat) (s : State)
    (h : levels.length = 15) : Allowed c s (setLevels levels floor s) where
  leaves := leaves_of_rest s.link _
  limits := { (Allowed.refl c s).limits with
    sizes := fun ⟨h1, h2, h3, h4, h5, h6, h7⟩ => ⟨h1, h2, h3, h4, h5, h6, by simp [setLevels, h, h7]⟩ }

theorem noticeLevels_allowed (tag : Nat) (levels : List (Option Nat)) (floor : Option Nat) (s : State) :
    NextAllowed (.noticeLevels tag levels floor) s (execNoticeLevels tag levels floor s) := by
  refine takeRequest_allowed fun _ u => ?_
  split
  · next h => exact (setLevels_allowed floor u h.1).told (told_answer tag .ok _ _)
  · exact (told_answerCode tag .badOperand u).allowed

theorem clearCauses_allowed (tag : Nat) (s : State) : NextAllowed (.clearCauses tag) s (execClearCauses tag s) :=
  takeRequest_allowed fun _ u => (told_answer tag .ok _ u).allowed.trans (allowed_causes _ rfl)

theorem setClock_allowed (tag : Nat) (wall : Option Int) (s : State) :
    NextAllowed (.setClock tag wall) s (execSetClock tag wall s) := by
  refine takeRequest_allowed fun _ u => ?_
  split
  · exact (told_answer tag .ok _ u).allowed
  · split
    · exact (allowed_wall _ rfl).told (told_answer tag .ok _ (setWall _ u))
    · exact (told_answerCode tag .badOperand u).allowed

theorem setSync_allowed (tag : Nat) (ops : SyncOperands) (s : State) :
    NextAllowed (.setSync tag ops) s (execSetSync tag ops s) := by
  refine takeRequest_allowed fun _ u => ?_
  split
  · exact (told_answerCode tag .badOperand u).allowed
  · split
    · exact (told_answerCode tag .busy u).allowed
    · exact (allowed_sync (x := applySync ops u.sync) rfl (fun h => by simp [mayChangeSyncSettings] at h) rfl).told
        (told_answer tag .ok _ _)

/-! ### Rolls and recipes -/

/-- A slot of the Roll Table is set to an OPEN roll, or to what keeps a current roll OPEN. -/
theorem rollsGood_set {r : Rolls} {i : Nat} {x : RollSlot} (h : r.current = some i → ∃ y, x = .opened y)
    (hr : RollsGood r) : RollsGood { r with slots := r.slots.set i x } := by
  intro j hj
  obtain ⟨y, hy⟩ := hr j hj
  obtain ⟨hlt, _⟩ := List.getElem?_eq_some_iff.1 hy
  by_cases hji : i = j
  · subst hji
    obtain ⟨z, rfl⟩ := h hj
    exact ⟨z, List.getElem?_set_self hlt⟩
  · exact ⟨y, (List.getElem?_set_ne hji).trans hy⟩

theorem rollOpen_allowed (tag : Nat) (ops : RollOperands) (s : State) :
    NextAllowed (.rollOpen tag ops) s (execRollOpen tag ops s) := by
  refine takeRequest_allowed fun _ u => ?_
  split
  · exact (told_answerCode tag .badOperand u).allowed
  · split
    · exact (told_answerCode tag .tableFull u).allowed
    · exact (allowed_rolls (List.length_set ..) (rollsGood_set fun _ => ⟨_, rfl⟩) rfl).told
        (told_answer tag .ok _ (setRollSlot _ _ u))

theorem rollSet_allowed (tag slot : Nat) (ops : RollOperands) (s : State) :
    NextAllowed (.rollSet tag slot ops) s (execRollSet tag slot ops s) := by
  refine takeRequest_allowed fun _ u => ?_
  split
  · exact (told_answerCode tag _ u).allowed
  · exact (allowed_rolls (List.length_modify ..) (updateRoll_rollsGood slot (applyRoll ops) u) rfl).told
      (told_answerCode tag .ok (updateRoll slot (applyRoll ops) u))

/-- A roll that ROLL_SELECT does not refuse is OPEN. -/
theorem opened_of_rollSelect {s : State} {i : Nat} (h : rollSelectRefusal s (some i) = none) :
    ∃ r, s.rolls.slots[i]? = some (.opened r) := by
  unfold rollSelectRefusal at h
  split at h
  · cases h
  · split at h
    · cases h
    · dsimp only at h
      unfold rollSlot at h
      rw [List.getD_eq_getElem?_getD] at h
      cases hi : s.rolls.slots[i]? with
      | none => simp [hi] at h
      | some x =>
        cases x with
        | free => simp [hi] at h
        | closed r => simp [hi] at h
        | opened r => exact ⟨r, rfl⟩

theorem rollSelect_allowed (tag : Nat) (slot : Option Nat) (s : State) :
    NextAllowed (.rollSelect tag slot) s (execRollSelect tag slot s) := by
  refine takeRequest_allowed fun _ u => ?_
  split
  · exact (told_answerCode tag _ u).allowed
  · next h =>
    have hselect : Allowed (.rollSelect tag slot) u (setCurrent slot u) := by
      refine allowed_rolls rfl (fun _ i hi => ?_) rfl
      obtain rfl : slot = some i := hi
      exact opened_of_rollSelect h
    exact hselect.told (told_answerCode tag .ok _)

theorem rollClose_allowed (tag slot : Nat) (s : State) : NextAllowed (.rollClose tag slot) s (execRollClose tag slot s) := by
  refine takeRequest_allowed fun _ u => ?_
  split
  · exact (told_answerCode tag .badOperand u).allowed
  · split
    · exact (told_answerCode tag .notFound u).allowed
    · exact (told_answerCode tag .ok u).allowed
    · split
      · exact (told_answerCode tag .busy u).allowed
      · exact (allowed_rolls (by simp) (closeRoll_rollsGood slot _ u) rfl).told
          (told_answerCode tag .ok (closeRoll slot _ u))

theorem updateRecords_inner (f : Record → Record) (s : State) : Inner s (updateRecords f s) := by simp +contextual [Inner]

theorem rollFree_allowed (tag slot : Nat) (s : State) : NextAllowed (.rollFree tag slot) s (execRollFree tag slot s) := by
  refine takeRequest_allowed fun _ u => ?_
  split
  · exact (told_answerCode tag .badOperand u).allowed
  · split
    · exact (told_answerCode tag .notFound u).allowed
    · exact (told_answerCode tag .busy u).allowed
    · next r hr =>
      have hfree : Allowed (.rollFree tag slot) u (setRollSlot slot .free u) := by
        refine allowed_rolls (List.length_set ..) (fun hgood => rollsGood_set (fun hcur => ?_) hgood) rfl
        obtain ⟨y, hy⟩ := hgood slot hcur
        rw [rollSlot, List.getD_eq_getElem?_getD, hy] at hr
        cases hr
      exact (hfree.inner (updateRecords_inner (Record.leaveRoll slot) _) rfl).told (told_answerCode tag .ok _)

theorem recipeSet_allowed (tag recipe : Nat) (ops : RecipeOperands) (s : State) :
    NextAllowed (.recipeSet tag recipe ops) s (execRecipeSet tag recipe ops s) := by
  refine takeRequest_allowed fun _ u => ?_
  split
  · exact (told_answerCode tag .badOperand u).allowed
  · exact (allowed_recipes (List.length_set ..) rfl).told (told_answer tag .ok _ (setRecipe recipe _ u))

/-! ### Shots -/

theorem shotLookup_allowed (tag shot : Nat) (s : State) :
    NextAllowed (.shotLookup tag shot) s (execShotLookup tag shot s) := by
  refine takeRequest_allowed fun _ u => ?_
  split
  · exact (told_answerCode tag .badOperand u).allowed
  · exact Inner.allowed (by simp +contextual [Inner]) rfl

theorem shotAmend_allowed (tag shot : Nat) (ops : AmendOperands) (s : State) :
    NextAllowed (.shotAmend tag shot ops) s (execShotAmend tag shot ops s) := by
  refine takeRequest_allowed fun _ u => ?_
  split
  · exact (Inner.allowed (by simp +contextual [Inner]) rfl).told (told_answerCode tag .badOperand (touchRecord shot u))
  · exact Inner.allowed (by simp +contextual [Inner]) rfl

theorem shotRetire_allowed (tag shot : Nat) (s : State) :
    NextAllowed (.shotRetire tag shot) s (execShotRetire tag shot s) := by
  refine takeRequest_allowed fun _ u => ?_
  split
  · exact (told_answerCode tag .badOperand u).allowed
  · exact Inner.allowed (by simp +contextual [Inner]) rfl

/-! ### Triggers and the sensor -/

theorem answerStart_allowed {c : Instr} (k : Start) (tag : Nat) (s : State) (hc : StartsShots c) :
    Allowed c s (service (answerStart tag (decideStart k s))) := by
  refine Allowed.service ?_ hc.2.2
  unfold answerStart
  split
  · exact (decideStart_allowed k s hc).told (told_answer tag .ok _ _)
  · exact (decideStart_allowed k s hc).told (told_answerCode tag _ _)

theorem triggerFire_allowed (tag : Nat) (s : State) : NextAllowed (.triggerFire tag) s (execTriggerFire tag s) :=
  takeRequest_allowed fun _ u => answerStart_allowed .fire tag u ⟨rfl, rfl, rfl⟩

theorem triggerTimed_allowed (tag : Nat) (duration : Option Nat) (s : State) :
    NextAllowed (.triggerTimed tag duration) s (execTriggerTimed tag duration s) := by
  refine takeRequest_allowed fun _ u => ?_
  split
  · exact (told_answerCode tag .badOperand u).allowed
  · split
    · exact answerStart_allowed _ tag u ⟨rfl, rfl, rfl⟩
    · exact (told_answerCode tag .badOperand u).allowed

theorem setSensor_allowed (tag columns rows : Nat) (s : State) :
    NextAllowed (.setSensor tag columns rows) s (execSetSensor tag columns rows s) := by
  refine takeRequest_allowed fun _ u => ?_
  split
  · exact (told_answerCode tag .badOperand u).allowed
  · split
    · exact (told_answerCode tag .busy u).allowed
    · exact Inner.allowed (by simp +contextual [Inner]) rfl

/-! ### Development and previews -/

theorem develop_allowed (tag shot kind priority : Nat) (s : State) :
    NextAllowed (.develop tag shot kind priority) s (execDevelop tag shot kind priority s) := by
  refine takeRequest_allowed fun _ u => ?_
  split
  · exact (told_answerCode tag .badOperand u).allowed
  · split
    · exact Inner.allowed (by simp +contextual [Inner]) rfl
    · exact (told_answerCode tag _ u).allowed

theorem devFloor_allowed (tag : Nat) (floor : Option Nat) (s : State) :
    NextAllowed (.devFloor tag floor) s (execDevFloor tag floor s) := by
  refine takeRequest_allowed fun _ u => ?_
  split
  · exact (told_answer tag .ok _ u).allowed
  · split
    · next h =>
      obtain ⟨h1, h7⟩ := (inRange_iff _ 1 7).1 h
      exact ((allowed_floor h1 h7 rfl).told (told_answer tag .ok _ _)).service rfl
    · exact (told_answerCode tag .badOperand u).allowed

theorem getPreview_allowed (tag shot : Nat) (s : State) : NextAllowed (.getPreview tag shot) s (execGetPreview tag shot s) := by
  refine takeRequest_allowed fun _ u => ?_
  split
  · exact (told_answerCode tag .badOperand u).allowed
  · split
    · exact Inner.allowed (by simp +contextual [Inner]) rfl
    · exact Inner.allowed (by simp +contextual [Inner]) rfl

theorem unpinPreview_allowed (tag slot : Nat) (s : State) :
    NextAllowed (.unpinPreview tag slot) s (execUnpinPreview tag slot s) := by
  refine takeRequest_allowed fun _ u => ?_
  split
  · exact (told_answerCode tag .badOperand u).allowed
  · split
    · exact (told_answerCode tag .notPinned u).allowed
    · exact Inner.allowed (by simp +contextual [Inner]) rfl

/-! ### The card -/

theorem cardEject_allowed (tag : Nat) (s : State) : NextAllowed (.cardEject tag) s (execCardEject tag s) := by
  refine takeRequest_allowed fun _ u => ?_
  split
  · exact Inner.allowed (by simp +contextual [Inner]) rfl
  · exact (told_answerCode tag .noCard u).allowed

theorem cardFormat_allowed (tag discard : Nat) (s : State) :
    NextAllowed (.cardFormat tag discard) s (execCardFormat tag discard s) := by
  refine takeRequest_allowed fun _ u => ?_
  split
  · exact (told_answerCode tag _ u).allowed
  · exact Inner.allowed (by simp +contextual [Inner]) rfl

/-! ### RESTART -/

/-- The Sync Unit after RESTART: the pulse stopped and the qualifiers restarted (R53, R55). -/
theorem restartPart_sync (tag : Nat) (s : State) :
    (restartPart tag s).sync = Sync.restart { s.sync with pulseEnd := none } := by
  unfold restartPart restartStores restartQualifiers
  simp

theorem restartPart_held (tag : Nat) (s : State) : (restartPart tag s).link.held = [tag] := by
  unfold restartPart
  simp [restartLink]

theorem restartPart_previews (tag : Nat) (s : State) : (restartPart tag s).cache.slots.length = 8 := by
  unfold restartPart restartStores
  simp [Cache.reset, Config.previewSlots]

theorem restartPart_allowed (tag : Nat) (s : State) (h7 : tag ≤ 7) : Allowed (.restart tag) s (restartPart tag s) where
  leaves := {
    pending := by simp
    rolls := fun h => by simp [mayChangeRolls] at h
    recipes := fun _ => by simp
    lines := fun h => by simp [mayChangeSync] at h
    sync := fun h => by simp [mayChangeSync] at h
    settings := fun _ => by
      rw [restartPart_sync]
      exact ⟨⟨rfl, rfl⟩, ⟨rfl, rfl⟩, ⟨rfl, rfl⟩, rfl, rfl⟩
    wall := fun _ => by simp
    causes := fun h => by simp [mayChangeCauses] at h
    time := fun _ => by simp
    part := fun h => by simp [mayChangePart] at h
    own := fun h => by simp [changesOwnTable] at h }
  limits := {
    current := restartPart_rollsGood tag s
    tags := fun _ => by simp [TagsDistinct, restartPart_held, h7]
    sizes := fun ⟨h1, h2, h3, h4, h5, _, h6⟩ => by simp [TablesKeepSize, restartPart_previews, h1, h2, h3, h4, h5, h6]
    queue := restartPart_queueGood tag s
    pins := restartPart_pinsGood tag s
    floor := fun h => by simpa [FloorInRange] using h
    samples := fun h => by
      unfold SamplesKeepUp
      rw [restartPart_sync, (restartPart_keeps tag s).2.1]
      exact h }

theorem restart_allowed (tag : Nat) (s : State) : NextAllowed (.restart tag) s (execRestart tag s) :=
  takeRequest_allowed fun h7 u => restartPart_allowed tag u h7

end Sys2Proof.StepLaws
end

section
/-! Steps: what each event may change, and every step. -/

namespace Sys2Proof.StepLaws
open Sys2Proof.Machine

/-! ### Packets -/

theorem mayChange_of_all {c : Instr} (h : mayChangeAll c = true) :
    mayChangeRolls c = true ∧ mayChangeRecipes c = true ∧ mayChangeSync c = true ∧ mayChangeSyncSettings c = true ∧
    mayChangeWall c = true ∧ mayChangeCauses c = true ∧ mayChangeTime c = true ∧ mayChangePart c = true ∧
    changesOwnTable c = false := by
  unfold mayChangeAll at h
  split at h
  · exact ⟨rfl, rfl, rfl, rfl, rfl, rfl, rfl, rfl, rfl⟩
  · exact ⟨rfl, rfl, rfl, rfl, rfl, rfl, rfl, rfl, rfl⟩
  · exact ⟨rfl, rfl, rfl, rfl, rfl, rfl, rfl, rfl, rfl⟩
  · cases h

/-- The resets and a packet byte may change every block, but not the queue of commands. -/
theorem leaves_of_all {c : Instr} {s t : State} (hc : mayChangeAll c = true) (hpending : t.pending = s.pending) :
    Leaves c s t := by
  obtain ⟨hrolls, hrecipes, hsync, hsettings, hwall, hcauses, htime, hpart, hown⟩ := mayChange_of_all hc
  exact {
    pending := hpending
    rolls := fun h => by simp [hrolls] at h
    recipes := fun h => by simp [hrecipes] at h
    lines := fun h => by simp [hsync] at h
    sync := fun h => by simp [hsync] at h
    settings := fun h => by simp [hsettings] at h
    wall := fun h => by simp [hwall] at h
    causes := fun h => by simp [hcauses] at h
    time := fun h => by simp [htime] at h
    part := fun h => by simp [hpart] at h
    own := fun h => by simp [hown] at h }

/-- A packet byte may do what any request may. -/
theorem Allowed.mosi {c : Instr} {b : Byte} {s t : State} (h : Allowed c s t) : Allowed (.mosiByte b) s t :=
  ⟨leaves_of_all rfl h.leaves.pending, h.limits⟩

theorem NextAllowed.mosi {c : Instr} {b : Byte} {s : State} {o : Host.Outcome State Fault Refusal} (h : NextAllowed c s o) :
    NextAllowed (.mosiByte b) s o := fun t ht => (h t ht).mosi

/-- What a request of a packet means is allowed to its byte. -/
theorem requestMeaning_allowed (b : Byte) (i : Instr) (s : State) : NextAllowed (.mosiByte b) s (requestMeaning i s) := by
  unfold requestMeaning
  split
  · exact (shotLookup_allowed _ _ s).mosi
  · exact (shotList_allowed _ _ _ _ s).mosi
  · exact (rollOpen_allowed _ _ s).mosi
  · exact (rollSet_allowed _ _ _ s).mosi
  · exact (rollSelect_allowed _ _ s).mosi
  · exact (rollClose_allowed _ _ s).mosi
  · exact (rollFree_allowed _ _ s).mosi
  · exact (rollQuery_allowed _ _ s).mosi
  · exact (recipeSet_allowed _ _ _ s).mosi
  · exact (recipeQuery_allowed _ _ s).mosi
  · exact (setSync_allowed _ _ s).mosi
  · exact (setClock_allowed _ _ s).mosi
  · exact (triggerFire_allowed _ s).mosi
  · exact (triggerTimed_allowed _ _ s).mosi
  · exact (setSensor_allowed _ _ _ s).mosi
  · exact (develop_allowed _ _ _ _ s).mosi
  · exact (devFloor_allowed _ _ s).mosi
  · exact (getPreview_allowed _ _ s).mosi
  · exact (readPreview_allowed _ _ _ _ s).mosi
  · exact (unpinPreview_allowed _ _ s).mosi
  · exact (cardQuery_allowed _ s).mosi
  · exact (cardEject_allowed _ s).mosi
  · exact (cardFormat_allowed _ _ s).mosi
  · exact (shotAmend_allowed _ _ _ s).mosi
  · exact (shotRetire_allowed _ _ s).mosi
  · exact (status_allowed _ s).mosi
  · exact (clearCauses_allowed _ s).mosi
  · exact (restart_allowed _ s).mosi
  · exact (takeNotice_allowed _ s).mosi
  · exact (noticeLevels_allowed _ _ _ s).mosi
  · exact nextAllowed_next (.refl _ s)

theorem checkPacket_allowed (b : Byte) (bytes : List Byte) (s : State) :
    NextAllowed (.mosiByte b) s (checkPacket bytes s) := by
  unfold checkPacket
  dsimp only
  split
  · exact nextAllowed_next (told_discardPacket s).allowed
  · unfold takePacket
    split
    · exact badRequest_allowed _ _ s
    · exact answered_allowed fun u => told_answerCode _ .badOperand u
    · exact requestMeaning_allowed b _ s

theorem told_setFramer (f : Framer) (bytes : List Byte) (s : State) : Told s (setFramer f bytes s) := told_link rfl

theorem told_headerByte (bytes : List Byte) (s : State) : Told s (headerByte bytes s) := by
  unfold headerByte
  split
  · exact told_setFramer .header bytes s
  · split
    · exact told_discardPacket s
    · split
      · exact told_setFramer .check bytes s
      · exact told_setFramer .operands bytes s

theorem told_operandByte (bytes : List Byte) (s : State) : Told s (operandByte bytes s) := by
  unfold operandByte
  split
  · exact told_setFramer .operands bytes s
  · exact told_setFramer .check bytes s

theorem frameByte_allowed (b b' : Byte) (s : State) : NextAllowed (.mosiByte b) s (frameByte b' s) := by
  unfold frameByte
  split
  · refine nextAllowed_next ?_
    split
    · exact (told_setFramer .header [] s).allowed
    · exact .refl _ s
  · exact nextAllowed_next (told_headerByte _ s).allowed
  · exact nextAllowed_next (told_operandByte _ s).allowed
  · unfold checkByte
    split
    · exact nextAllowed_next (told_setFramer .check _ s).allowed
    · exact (told_setFramer .hunt [] s).allowed.next (checkPacket_allowed b _ _)

/-! ### Answers on MISO -/

/-- A tag that becomes FREE leaves the others distinct. -/
theorem headLeaves_allowed (c : Instr) (s : State) : Allowed c s (headLeaves s) := by
  unfold headLeaves
  split
  · exact .refl c s
  · exact allowed_link _ fun ⟨hn, h7⟩ => ⟨hn.filter _, fun t ht => h7 t (List.mem_of_mem_filter ht)⟩

theorem sentLeaves_allowed (c : Instr) (s : State) : Allowed c s (sentLeaves s) := by
  have hrefusal : Told s (refusalLeaves s) := told_link rfl
  unfold sentLeaves
  split
  · exact hrefusal.allowed
  · exact headLeaves_allowed c s
  · exact .refl c s

theorem mosiByte_allowed (b : Byte) (s : State) : NextAllowed (.mosiByte b) s (execMosiByte b s) := by
  have hshift : Allowed (.mosiByte b) s (shiftOut s) := by
    have hbyte : Told s { s with link := { s.link with miso := s.link.miso.advance } } := told_link rfl
    unfold shiftOut
    split
    · exact hbyte.allowed
    · exact sentLeaves_allowed _ s
  exact hshift.next (frameByte_allowed b b _)

theorem csnAsserted_allowed (s : State) : NextAllowed .csnAsserted s (execCsnAsserted s) := by
  have hselect : Told s { s with link := { s.link with selected := true, miso := nextMiso s.link } } := told_link rfl
  refine nextAllowed_next ?_
  split
  · exact .refl _ s
  · exact hselect.allowed

theorem csnNegated_allowed (s : State) : NextAllowed .csnNegated s (execCsnNegated s) := by
  have hquiet : Told s (deselect s) := told_link rfl
  refine nextAllowed_next ?_
  split
  · split
    · exact hquiet.allowed
    · exact hquiet.allowed.told (told_discardPacket _)
  · exact .refl _ s

/-! ### Resets and part states -/

/-- The laws hold of reset values, but for the samples, whose first is taken at Time Base value 0. -/
theorem afterReset_limits (release xsync aux : PinLevel) (card : Bool) (causes : Causes) (mem : Memory)
    (pending : List Instr) (free : Nat) (s : State) :
    Limits s (State.afterReset release xsync aux card causes mem pending free) where
  current _ i hi := by cases hi
  tags _ := ⟨List.nodup_nil, fun t ht => by cases ht⟩
  sizes _ := by simp [TablesKeepSize, State.afterReset, Table.reset, Rolls.reset, Dark.reset, Pool.reset, Cache.reset,
    Notices.reset, Config.recordSlots, Config.rollSlots, Config.recipeCount, Config.darkEntries, Config.planeCount,
    Config.previewSlots]
  queue _ := Nat.zero_le 16
  pins _ := pinsGood_reset
  floor _ := ⟨Nat.le_refl 1, (by decide : 1 ≤ 7)⟩
  samples _ := ⟨rfl, (by decide : ((0#48 : Time) - 0#48).toNat ≤ 4)⟩

theorem powerOnReset_allowed (release xsync aux : PinLevel) (card : Bool) (s : State) :
    NextAllowed (.powerOnReset release xsync aux card) s (execPowerOnReset release xsync aux card s) :=
  nextAllowed_next ⟨leaves_of_all rfl rfl, afterReset_limits ..⟩

theorem pinReset_allowed (release xsync aux : PinLevel) (card : Bool) (s : State) :
    NextAllowed (.pinReset release xsync aux card) s (execPinReset release xsync aux card s) :=
  nextAllowed_next ⟨leaves_of_all rfl rfl, afterReset_limits ..⟩

theorem matchingPass_inner (s : State) : Inner s (matchingPass s) := by simp +contextual [Inner]

/-- The part becomes RUNNING, out of RESTARTING or by a command that may end a part state. -/
theorem enterRunning_allowed {c : Instr} {s : State} (hp : mayChangePart c = false → s.part = .restarting)
    (hown : changesOwnTable c = false) : Allowed c s (enterRunning s) :=
  ((allowed_part .running fun h => ⟨hp h, rfl⟩).inner (matchingPass_inner _) hown).service hown

theorem startupComplete_allowed (s : State) : NextAllowed .startupComplete s (execStartupComplete s) := by
  have hclear : Allowed .startupComplete s (clearInternal s) := Inner.allowed (by simp +contextual [Inner]) rfl
  refine nextAllowed_next ?_
  split
  · exact hclear.trans (enterRunning_allowed (fun h => by cases h) rfl)
  · exact .refl _ s

theorem endForFormat_inner (volumeId : Nat) (s : State) : Inner s (endForFormat volumeId s) := by simp +contextual [Inner]

theorem orphanAnswered_allowed {c : Instr} (s : State) (hown : changesOwnTable c = false) : Allowed c s (orphanAnswered s) := by
  have hclear : Allowed c s (clearBus s) := Inner.allowed (by simp +contextual [Inner]) hown
  unfold orphanAnswered
  dsimp only
  split
  · next h => exact hclear.trans (enterRunning_allowed (fun _ => h) hown)
  · split
    · exact (hclear.inner (endForFormat_inner _ _) hown).service hown
    · exact hclear.service hown

theorem restartComplete_allowed (s : State) : NextAllowed .restartComplete s (execRestartComplete s) := by
  refine nextAllowed_next ?_
  split
  · exact orphanAnswered_allowed s rfl
  · exact .refl _ s

/-! ### The Sync Unit -/

theorem edgeQualified_allowed (i : SyncInput) (s : State) : NextAllowed (.edgeQualified i) s (execEdgeQualified i s) :=
  nextAllowed_next (qualify_allowed i s ⟨rfl, rfl, rfl⟩ rfl)

theorem syncSample_allowed (gap : Nat) (release xsync aux : PinLevel) (s : State) :
    NextAllowed (.syncSample gap release xsync aux) s (execSyncSample gap release xsync aux s) := by
  have hc : StartsShots (.syncSample gap release xsync aux) := ⟨rfl, rfl, rfl⟩
  exact nextAllowed_next ((((qualify_allowed .release s hc rfl).trans (qualify_allowed .xsync _ hc rfl)).trans
    (qualify_allowed .aux _ hc rfl)).trans (takeSample_allowed gap _ _ hc rfl))

theorem reloutPulseEnd_allowed (s : State) : NextAllowed .reloutPulseEnd s (execReloutPulseEnd s) := by
  refine nextAllowed_next ?_
  split
  · exact .refl _ s
  · next t _ => exact (advanceTo_allowed t s rfl).trans (allowed_sync rfl (fun _ => settingsKept_of_unpulsed rfl) rfl)

/-! ### Card detect -/

theorem cdetChange_allowed (present : Bool) (s : State) : NextAllowed (.cdetChange present) s (execCdetChange present s) := by
  refine nextAllowed_next ?_
  split
  · exact .refl _ s
  · exact Inner.allowed (by simp +contextual [Inner]) rfl

theorem card_inner (x : Card) (s : State) : Inner s { s with card := x } := by simp +contextual [Inner]

theorem acceptLevel_allowed {c : Instr} (t : Timer) (s : State) (hc : mayChangeTime c = true)
    (hown : changesOwnTable c = false) : Allowed c s (acceptLevel t s) :=
  (advanceTo_allowed t.expiry s hc).inner (card_inner _ _) hown

theorem beginMount_inner (s : State) : Inner s (beginMount s) := by simp +contextual [Inner]

theorem removeCard_inner (s : State) : Inner s (removeCard s) := by simp +contextual [Inner]

theorem insertion_allowed (s : State) : NextAllowed .insertion s (execInsertion s) := by
  refine nextAllowed_next ?_
  split
  · exact .refl _ s
  · next t _ =>
    split
    · have hlevel : Allowed .insertion s (acceptLevel t s) := acceptLevel_allowed t s rfl rfl
      dsimp only
      split
      · exact (hlevel.inner (beginMount_inner _) rfl).service rfl
      · exact hlevel
    · exact .refl _ s

/-- A removal ends RESTARTING (log 12). -/
theorem removed_allowed {s u : State} (h : Allowed .removal s u) :
    Allowed .removal s (if u.part = .restarting then enterRunning u else service u) := by
  split
  · next hp => exact h.trans (enterRunning_allowed (fun _ => hp) rfl)
  · exact h.service rfl

theorem removal_allowed (s : State) : NextAllowed .removal s (execRemoval s) := by
  refine nextAllowed_next ?_
  split
  · exact .refl _ s
  · next t _ =>
    split
    · have hlevel : Allowed .removal s (acceptLevel t s) := acceptLevel_allowed t s rfl rfl
      refine removed_allowed ?_
      split
      · exact hlevel
      · exact hlevel.inner (removeCard_inner _) rfl
    · exact .refl _ s

/-! ### The sequencer's timers and readouts -/

/-- The arm window gives a frame back, or finishes the shot. -/
theorem armExpired_allowed (s : State) : Allowed .armWindowExpiry s (armExpired s) :=
  (Inner.allowed (t := { armExpired s with rolls := s.rolls }) (by simp +contextual [Inner]) rfl).trans
    (allowed_rolls (r := (armExpired s).rolls) (by simp) (armExpired_rollsGood s) rfl)

theorem armWindowExpiry_allowed (s : State) : NextAllowed .armWindowExpiry s (execArmWindowExpiry s) := by
  refine nextAllowed_next ?_
  split
  · next t _ _ => exact ((advanceTo_allowed t.expiry s rfl).trans (armExpired_allowed _)).service rfl
  · exact .refl _ s

theorem closeEntry_inner (t : Time) (x : TimeSource) (e : EndingCause) (b : Bool) (s : State) :
    Inner s (closeEntry t x e b s) := by simp +contextual [Inner]

theorem maxOpenExpired_inner (t : Time) (s : State) : Inner s (maxOpenExpired t s) := by simp +contextual [Inner]

theorem settleExpired_inner (s : State) : Inner s (settleExpired s) := by simp +contextual [Inner]

theorem finishShot_inner (s : State) : Inner s (finishShot s) := by simp +contextual [Inner]

theorem maxOpenExpiry_allowed (s : State) : NextAllowed .maxOpenExpiry s (execMaxOpenExpiry s) := by
  refine nextAllowed_next ?_
  split
  · exact .refl _ s
  · next t _ => exact (advanceTo_allowed t.expiry s rfl).inner (maxOpenExpired_inner _ _) rfl

theorem timedDurationExpiry_allowed (s : State) : NextAllowed .timedDurationExpiry s (execTimedDurationExpiry s) := by
  refine nextAllowed_next ?_
  split
  · next t _ _ => exact (advanceTo_allowed t.expiry s rfl).inner (closeEntry_inner _ _ _ _ _) rfl
  · exact .refl _ s

theorem settleExpiry_allowed (s : State) : NextAllowed .settleExpiry s (execSettleExpiry s) := by
  refine nextAllowed_next ?_
  split
  · next t _ _ => exact (advanceTo_allowed t.expiry s rfl).inner (settleExpired_inner _) rfl
  · exact .refl _ s

theorem stackWindowExpiry_allowed (s : State) : NextAllowed .stackWindowExpiry s (execStackWindowExpiry s) := by
  refine nextAllowed_next ?_
  split
  · next t _ _ => exact ((advanceTo_allowed t.expiry s rfl).inner (finishShot_inner _) rfl).service rfl
  · exact .refl _ s

theorem beginDarkReadout_inner (s : State) :
    Inner s (beginReadout .darkReadout { s with seq := { s.seq with darkTimer := none } }) := by simp +contextual [Inner]

theorem darkDurationExpiry_allowed (s : State) : NextAllowed .darkDurationExpiry s (execDarkDurationExpiry s) := by
  refine nextAllowed_next ?_
  split
  · next t _ _ => exact (advanceTo_allowed t.expiry s rfl).inner (beginDarkReadout_inner _) rfl
  · exact .refl _ s

theorem readoutHeader_allowed (good : Bool) (columns rows : Nat) (temperature : Int) (s : State) :
    NextAllowed (.readoutHeader good columns rows temperature) s (execReadoutHeader good columns rows temperature s) := by
  refine nextAllowed_next ?_
  split
  · split
    · exact Inner.allowed (by simp +contextual [Inner]) rfl
    · exact Inner.allowed (by simp +contextual [Inner]) rfl
  · split
    · exact Inner.allowed (by simp +contextual [Inner]) rfl
    · exact Inner.allowed (by simp +contextual [Inner]) rfl
  · exact .refl _ s

theorem pixelSample_allowed (value : BitVec 16) (s : State) : NextAllowed (.pixelSample value) s (execPixelSample value s) := by
  refine nextAllowed_next ?_
  split
  · exact .refl _ s
  · exact Inner.allowed (by simp +contextual [Inner]) rfl

/-! ### The Dark Unit and the Plane Arithmetic Unit -/

theorem darkExposureStart_allowed (s : State) : NextAllowed .darkExposureStart s (execDarkExposureStart s) :=
  nextAllowed_next (Inner.allowed (by simp +contextual [Inner]) rfl)

theorem pauStart_allowed (s : State) : NextAllowed .pauStart s (execPauStart s) :=
  nextAllowed_next (Inner.allowed (by simp +contextual [Inner]) rfl)

theorem accumulateDone_allowed (s : State) : NextAllowed .accumulateDone s (execAccumulateDone s) := by
  refine nextAllowed_next ?_
  split
  · exact .refl _ s
  · split
    · dsimp only
      split
      · exact Inner.allowed (by simp +contextual [Inner]) rfl
      · exact Inner.allowed (by simp +contextual [Inner]) rfl
    · exact .refl _ s

theorem applyDarkDone_allowed (s : State) : NextAllowed .applyDarkDone s (execApplyDarkDone s) := by
  refine nextAllowed_next ?_
  split
  · exact .refl _ s
  · split
    · exact .refl _ s
    · exact Inner.allowed (by simp +contextual [Inner]) rfl

theorem requestEnded_inner (e : Nat) (s : State) : Inner s (requestEnded e s) := by simp +contextual [Inner]

theorem darkExpiry_allowed (entry : Nat) (s : State) : NextAllowed (.darkExpiry entry) s (execDarkExpiry entry s) := by
  refine nextAllowed_next ?_
  split
  · exact .refl _ s
  · next t _ => exact ((advanceTo_allowed t s rfl).inner (requestEnded_inner entry _) rfl).service rfl

/-! ### The Development Engine -/

theorem dispatch_allowed (s : State) : NextAllowed .dispatch s (execDispatch s) :=
  nextAllowed_next (Inner.allowed (by simp +contextual [Inner]) rfl)

theorem stageEnd_allowed (s : State) : NextAllowed .stageEnd s (execStageEnd s) := by
  refine nextAllowed_next ?_
  split
  · exact Inner.allowed (by simp +contextual [Inner]) rfl
  · exact .refl _ s

theorem outputEnd_allowed (s : State) : NextAllowed .outputEnd s (execOutputEnd s) := by
  refine nextAllowed_next ?_
  split
  · exact Inner.allowed (by simp +contextual [Inner]) rfl
  · exact .refl _ s

/-! ### The Card Store -/

theorem cardWorkStart_allowed (s : State) : NextAllowed .cardWorkStart s (execCardWorkStart s) :=
  nextAllowed_next (Inner.allowed (by simp +contextual [Inner]) rfl)

theorem stopAtAnswer_inner {s t : State} (h : stopAtAnswer s = some t) : Inner s t :=
  ⟨by simp [stopAtAnswer_keeps h], stopAtAnswer_linkHeld h, stopAtAnswer_slotCount h, stopAtAnswer_darkCount h,
    stopAtAnswer_planeCount h, stopAtAnswer_cacheCount h, stopAtAnswer_noticeCount h, stopAtAnswer_devFloor h,
    stopAtAnswer_queueGood h, stopAtAnswer_pinsGood h⟩

theorem answeredError_allowed {c : Instr} (hown : changesOwnTable c = false) (s : State) :
    Allowed c s (answeredError s) := by
  unfold answeredError
  split
  · exact .refl c s
  · split
    · exact orphanAnswered_allowed s hown
    · split
      · next h => exact ((stopAtAnswer_inner h).allowed hown).service hown
      · split
        · exact Inner.allowed (by simp +contextual [Inner]) hown
        · exact Inner.allowed (by simp +contextual [Inner]) hown

/-- An answer OK may do what the work that goes on may, and may end RESTARTING. -/
theorem answeredOk_allowed {c : Instr} {goOn : State → State} {s : State} (hown : changesOwnTable c = false)
    (h : ∀ u, Inner u (goOn u)) : NextAllowed c s (.next (answeredOk goOn s)) := by
  refine nextAllowed_next ?_
  unfold answeredOk
  split
  · exact .refl c s
  · split
    · exact orphanAnswered_allowed s hown
    · split
      · next h => exact ((stopAtAnswer_inner h).allowed hown).service hown
      · exact (h s).allowed hown

theorem cardCommandError_allowed (s : State) : NextAllowed .cardCommandError s (execCardCommandError s) :=
  nextAllowed_next (answeredError_allowed rfl s)

theorem cardCommandTimeout_allowed (s : State) : NextAllowed .cardCommandTimeout s (execCardCommandTimeout s) := by
  refine nextAllowed_next ?_
  split
  · exact .refl _ s
  · exact (advanceTo_allowed _ s rfl).trans (answeredError_allowed rfl _)

theorem identifyDone_allowed (serial capacity : Nat) (writeProtected : Bool) (s : State) :
    NextAllowed (.identifyDone serial capacity writeProtected) s (execIdentifyDone serial capacity writeProtected s) := by
  refine answeredOk_allowed rfl fun u => ?_
  split
  · simp +contextual [Inner]
  · simp +contextual [Inner]

theorem headerReadDone_allowed (block : List Byte) (s : State) :
    NextAllowed (.headerReadDone block) s (execHeaderReadDone block s) := by
  refine answeredOk_allowed rfl fun u => ?_
  split
  · split
    · simp +contextual [Inner]
    · simp +contextual [Inner]
  · simp +contextual [Inner]

theorem catalogueReadDone_allowed (clusters : Nat) (blocks : List (Nat × List Byte)) (s : State) :
    NextAllowed (.catalogueReadDone clusters blocks) s (execCatalogueReadDone clusters blocks s) := by
  refine answeredOk_allowed rfl fun u => ?_
  split
  · split
    · simp +contextual [Inner]
    · split
      · simp +contextual [Inner]
      · simp +contextual [Inner]
  · simp +contextual [Inner]

theorem loadReadDone_allowed (block : List Byte) (s : State) :
    NextAllowed (.loadReadDone block) s (execLoadReadDone block s) := by
  refine answeredOk_allowed rfl fun u => ?_
  split
  · simp +contextual [Inner]
  · simp +contextual [Inner]

theorem fetchReadDone_allowed (clusters : Nat) (values : List (Nat × BitVec 32)) (s : State) :
    NextAllowed (.fetchReadDone clusters values) s (execFetchReadDone clusters values s) := by
  refine answeredOk_allowed rfl fun u => ?_
  split
  · split
    · simp +contextual [Inner]
    · dsimp only
      split
      · simp +contextual [Inner]
      · simp +contextual [Inner]
  · simp +contextual [Inner]

theorem rawWriteClusterDone_allowed (s : State) : NextAllowed .rawWriteClusterDone s (execRawWriteClusterDone s) := by
  refine answeredOk_allowed rfl fun u => ?_
  split
  · split
    · simp +contextual [Inner]
    · simp +contextual [Inner]
  · simp +contextual [Inner]

theorem entryWriteDone_allowed (s : State) : NextAllowed .entryWriteDone s (execEntryWriteDone s) := by
  refine answeredOk_allowed rfl fun u => ?_
  split
  · simp +contextual [Inner]
  · simp +contextual [Inner]

theorem developedWriteClusterDone_allowed (s : State) :
    NextAllowed .developedWriteClusterDone s (execDevelopedWriteClusterDone s) := by
  refine answeredOk_allowed rfl fun u => ?_
  split
  · split
    · simp +contextual [Inner]
    · simp +contextual [Inner]
  · simp +contextual [Inner]

theorem developedEntryWriteDone_allowed (s : State) :
    NextAllowed .developedEntryWriteDone s (execDevelopedEntryWriteDone s) := by
  refine answeredOk_allowed rfl fun u => ?_
  split
  · simp +contextual [Inner]
  · simp +contextual [Inner]

theorem emptyWriteDone_allowed (s : State) : NextAllowed .emptyWriteDone s (execEmptyWriteDone s) := by
  refine answeredOk_allowed rfl fun u => ?_
  split
  · simp +contextual [Inner]
  · simp +contextual [Inner]

theorem dirtyRewriteDone_allowed (s : State) : NextAllowed .dirtyRewriteDone s (execDirtyRewriteDone s) := by
  refine answeredOk_allowed rfl fun u => ?_
  split
  · simp +contextual [Inner]
  · simp +contextual [Inner]

theorem formatWriteDone_allowed (s : State) : NextAllowed .formatWriteDone s (execFormatWriteDone s) := by
  refine answeredOk_allowed rfl fun u => ?_
  split
  · split
    · simp +contextual [Inner]
    · simp +contextual [Inner]
  · simp +contextual [Inner]

/-! ### Every command and every step -/

theorem exec_allowed (i : Instr) (s : State) : NextAllowed i s (exec i s) := by
  unfold exec
  split
  · exact powerOnReset_allowed _ _ _ _ s
  · exact pinReset_allowed _ _ _ _ s
  · exact startupComplete_allowed s
  · exact restartComplete_allowed s
  · exact csnAsserted_allowed s
  · exact csnNegated_allowed s
  · exact nextAllowed_next (told_discardPacket s).allowed
  · exact nextAllowed_next (sentLeaves_allowed _ s)
  · exact badRequest_allowed _ _ s
  · exact shotLookup_allowed _ _ s
  · exact shotList_allowed _ _ _ _ s
  · exact rollOpen_allowed _ _ s
  · exact rollSet_allowed _ _ _ s
  · exact rollSelect_allowed _ _ s
  · exact rollClose_allowed _ _ s
  · exact rollFree_allowed _ _ s
  · exact rollQuery_allowed _ _ s
  · exact recipeSet_allowed _ _ _ s
  · exact recipeQuery_allowed _ _ s
  · exact setSync_allowed _ _ s
  · exact setClock_allowed _ _ s
  · exact triggerFire_allowed _ s
  · exact triggerTimed_allowed _ _ s
  · exact setSensor_allowed _ _ _ s
  · exact develop_allowed _ _ _ _ s
  · exact devFloor_allowed _ _ s
  · exact getPreview_allowed _ _ s
  · exact readPreview_allowed _ _ _ _ s
  · exact unpinPreview_allowed _ _ s
  · exact cardQuery_allowed _ s
  · exact cardEject_allowed _ s
  · exact cardFormat_allowed _ _ s
  · exact shotAmend_allowed _ _ _ s
  · exact shotRetire_allowed _ _ s
  · exact status_allowed _ s
  · exact clearCauses_allowed _ s
  · exact restart_allowed _ s
  · exact takeNotice_allowed _ s
  · exact noticeLevels_allowed _ _ _ s
  · exact edgeQualified_allowed _ s
  · exact reloutPulseEnd_allowed s
  · exact cdetChange_allowed _ s
  · exact insertion_allowed s
  · exact removal_allowed s
  · exact armWindowExpiry_allowed s
  · exact maxOpenExpiry_allowed s
  · exact timedDurationExpiry_allowed s
  · exact settleExpiry_allowed s
  · exact stackWindowExpiry_allowed s
  · exact darkDurationExpiry_allowed s
  · exact readoutHeader_allowed _ _ _ _ s
  · exact darkExposureStart_allowed s
  · exact pauStart_allowed s
  · exact accumulateDone_allowed s
  · exact applyDarkDone_allowed s
  · exact darkExpiry_allowed _ s
  · exact dispatch_allowed s
  · exact stageEnd_allowed s
  · exact outputEnd_allowed s
  · exact cardWorkStart_allowed s
  · exact cardCommandError_allowed s
  · exact cardCommandTimeout_allowed s
  · exact identifyDone_allowed _ _ _ s
  · exact headerReadDone_allowed _ s
  · exact catalogueReadDone_allowed _ _ s
  · exact loadReadDone_allowed _ s
  · exact fetchReadDone_allowed _ _ s
  · exact rawWriteClusterDone_allowed s
  · exact entryWriteDone_allowed s
  · exact developedWriteClusterDone_allowed s
  · exact developedEntryWriteDone_allowed s
  · exact emptyWriteDone_allowed s
  · exact dirtyRewriteDone_allowed s
  · exact formatWriteDone_allowed s
  · exact syncSample_allowed _ _ _ _ s
  · exact pixelSample_allowed _ s
  · exact mosiByte_allowed _ s

/-- The limits hold on through a step: through a microsecond, which may leave a sampling instant behind as a row that moves
the Time Base may, and through the command at the front of the queue. -/
theorem step_limits {s t : State} (h : step s = .next t) : Limits s t := by
  unfold step at h
  split at h
  · cases h
    exact (setTime_allowed (c := .reloutPulseEnd) _ s rfl).limits
  · next c rest _ =>
    have hrest : Limits s { s with pending := rest } := ⟨id, id, id, id, id, id, id⟩
    exact hrest.trans (exec_allowed c _ t h).limits

/-- Settles O56: each law holds on through every command (`exec_allowed`). -/
theorem stepKeepsLimits : Obligations.StepKeepsLimits := by
  refine ⟨fun s t h hs => (step_limits hs).current h, fun s t h hs => (step_limits hs).tags h,
    fun s t hsizes hqueue hpins hfloor hs => ?_, fun s t h hs => (step_limits hs).samples h⟩
  have hlimits := step_limits hs
  exact ⟨hlimits.sizes hsizes, hlimits.queue hqueue, hlimits.pins hpins, hlimits.floor hfloor⟩

/-- Settles O51, command by command (`exec_allowed`). -/
theorem blocksChangeOnlyByTheirCommands : Obligations.BlocksChangeOnlyByTheirCommands := by
  intro c s t h
  obtain ⟨pending, rolls, recipes, lines, sync, settings, wall, causes, time, part, own⟩ := (exec_allowed c s t h).leaves
  exact ⟨pending, rolls, recipes, lines, sync, settings, wall, causes, time, part, own⟩

end Sys2Proof.StepLaws
end
